-- ==== Sys2Proof/Word.lean ====
section
/-! DEFINITION. The word types of the LX24 and the numbering of its banks and units. -/

namespace Sys2Proof

/-- A byte of the site line or of a store slot. -/
abbrev Byte := BitVec 8

/-- A band id: an unsigned 32-bit number (00_scope.md, Conventions). -/
abbrev Band := BitVec 32

/-- A value of the millisecond count, 32 bits, returning to 0 after 4 294 967 295 (R53). -/
abbrev Millis := BitVec 32

/-- A bank, 0–7. -/
abbrev BankIx := Fin 8

/-- A node's position on its chain, 0–63. -/
abbrev Position := Fin 64

/-- A unit index, bank × 64 + position, 0–511. -/
abbrev UnitIx := Fin 512

end Sys2Proof
end

