-- ==== Sys2Proof/Syntax.lean ====
section
/-! DEFINITION. The commands of the LX24, one constructor per row of spec/opcode_table.json. The rows
carry no operands. An operand stands here only for what comes from outside the part with the event (a
frame's bytes, a strap, a sensor, what the line did to a pass) or names the bank or node concerned. -/

namespace Sys2Proof

/-- What follows the start byte of a site-line frame, apart from the kind byte (which the command names)
and the length byte (which is the payload's length) (R183). -/
structure Frame where
  /-- the station byte -/
  station : Byte
  /-- the payload bytes, in order -/
  payload : List Byte
  /-- the two CRC bytes as received, high byte first -/
  crc : BitVec 16
  deriving DecidableEq, Repr

/-- What the wiring of a chain does to one pass: the bits it turns over, one entry per shifting edge from
the first; an edge beyond the list is left as it is. The empty noise is an undisturbed line. DESIGN CHOICE, log 8. -/
structure Noise where
  /-- bits turned over on the way from DO to position 0 -/
  toNodes : List Bool
  /-- bits turned over on the way from the last node to DI -/
  toPart : List Bool
  deriving DecidableEq, Repr

/-- The undisturbed line. -/
def Noise.none : Noise := ⟨[], []⟩

/-- The commands: the operations and events of spec/opcode_table.json. -/
inductive Instr where
  /-- COLD_START (R180) -/
  | coldStart
  /-- RESET_DEASSERTED (R180), with the levels of the RATE and ADDR4–ADDR0 straps (R163) -/
  | resetDeasserted (rateHigh : Bool) (addr : BitVec 5)
  /-- TABLE_LOAD_END (R13) -/
  | tableLoadEnd
  /-- JOURNAL_REPLAY (R125) -/
  | journalReplay
  /-- EVACUATE_DEBOUNCED (R175), with the level that has held for 50 ms -/
  | evacuateDebounced (asserted : Bool)
  /-- SERVICE_KEY_DEBOUNCED (R145), with the level that has held for 50 ms -/
  | serviceKeyDebounced (asserted : Bool)
  /-- EVACUATION_START (R176) -/
  | evacuationStart
  /-- EVACUATION_END (R179) -/
  | evacuationEnd
  /-- LINE_QUIET (R164) -/
  | lineQuiet
  /-- START_BYTE (R164) -/
  | startByte
  /-- FRAME_ABANDON (R164) -/
  | frameAbandon
  /-- FRAME_DISCARD (R165), with the complete frame and its kind byte -/
  | frameDiscard (kind : Byte) (f : Frame)
  /-- REPLY_SENT (R166) -/
  | replySent
  /-- UNKNOWN_KIND (R167), with the complete frame and its kind byte -/
  | unknownKind (kind : Byte) (f : Frame)
  /-- POLL (R169) -/
  | poll (f : Frame)
  /-- READ_UNIT (R52) -/
  | readUnit (f : Frame)
  /-- READ_BAND (R52) -/
  | readBand (f : Frame)
  /-- READ_ZONE (R55) -/
  | readZone (f : Frame)
  /-- READ_TABLE (R18) -/
  | readTable (f : Frame)
  /-- ACTION (R148) -/
  | action (f : Frame)
  /-- CANCEL (R151) -/
  | cancel (f : Frame)
  /-- LAMP (R168) -/
  | lamp (f : Frame)
  /-- RESTART (R168) -/
  | restart (f : Frame)
  /-- STORE_UNLOCK_1 (R137) -/
  | storeUnlock1 (f : Frame)
  /-- STORE_UNLOCK_2 (R137) -/
  | storeUnlock2 (f : Frame)
  /-- STORE_PROGRAM (R138) -/
  | storeProgram (f : Frame)
  /-- STORE_ERASE (R139) -/
  | storeErase (f : Frame)
  /-- STORE_CLEAR (R141) -/
  | storeClear (f : Frame)
  /-- STORE_STATUS (R142) -/
  | storeStatus (f : Frame)
  /-- STORE_READ (R144) -/
  | storeRead (f : Frame)
  /-- STEP_TIMER_EXPIRY (R137) -/
  | stepTimerExpiry
  /-- ERASE_WINDOW_EXPIRY (R140) -/
  | eraseWindowExpiry
  /-- PROTECTED_PROGRAM_DONE (R138) -/
  | protectedProgramDone
  /-- PROTECTED_ERASE_DONE (R140) -/
  | protectedEraseDone
  /-- BODY_PROGRAM_END (R131) -/
  | bodyProgramEnd
  /-- VALID_MARK_PROGRAM_END (R117) -/
  | validMarkProgramEnd
  /-- RETIRED_MARK_PROGRAM_END (R132) -/
  | retiredMarkProgramEnd
  /-- ERASE_PROPER_END (R132) -/
  | eraseProperEnd
  /-- ERASE_SUSPENDED (R134) -/
  | eraseSuspended
  /-- STATUS_CYCLE_DUE (R99) -/
  | statusCycleDue (bank : BankIx)
  /-- STATUS_MODE_PASS_END (R100) -/
  | statusModePassEnd (bank : BankIx) (line : Noise)
  /-- STATUS_DATA_PASS_END (R101) -/
  | statusDataPassEnd (bank : BankIx) (line : Noise)
  /-- TAP_RESERVE (R102) -/
  | tapReserve (bank : BankIx)
  /-- FETCH_MODE_PASS_END (R103) -/
  | fetchModePassEnd (bank : BankIx) (line : Noise)
  /-- FETCH_DATA_PASS_END (R104) -/
  | fetchDataPassEnd (bank : BankIx) (line : Noise)
  /-- TAP_PLACE (R102) -/
  | tapPlace (bank : BankIx)
  /-- TAP_RELEASE (R102) -/
  | tapRelease (bank : BankIx)
  /-- BANK_RESET_END (R107) -/
  | bankResetEnd (bank : BankIx)
  /-- ENUMERATION_PASS_END (R108) -/
  | enumerationPassEnd (bank : BankIx) (line : Noise)
  /-- BANK_RETRY (R110) -/
  | bankRetry (bank : BankIx)
  /-- NODE_READ (R93), with the band and quality the reader read -/
  | nodeRead (bank : BankIx) (pos : Position) (band : Band) (quality : BitVec 3)
  /-- NODE_STALL_RETURN (R90) -/
  | nodeStallReturn (bank : BankIx) (pos : Position)
  /-- NODE_PULSE_END (R94) -/
  | nodePulseEnd (bank : BankIx) (pos : Position)
  /-- PULSE_END (R79) -/
  | pulseEnd
  /-- TAKE_TAP (R27) -/
  | takeTap
  /-- OBSERVATION (R26) -/
  | observation
  /-- RECONCILE (R49) -/
  | reconcile
  /-- VERIFY_RESULT (R81) -/
  | verifyResult
  /-- FAULT_REPORT (R47) -/
  | faultReport
  /-- ACTUATION_REMOVED (R48) -/
  | actuationRemoved
  /-- THROW_DISPLACED (R177) -/
  | throwDisplaced
  /-- JOURNAL_STALL_REPORT (R119) -/
  | journalStallReport
  /-- WARNING (R62) -/
  | warning
  /-- EXPIRY (R63) -/
  | expiry
  /-- GRACE_END (R64) -/
  | graceEnd
  /-- AJAR_IDLE (R65) -/
  | ajarIdle
  /-- RELEASE_UNIT (R154) -/
  | releaseUnit
  /-- RELEASE_BAND (R156) -/
  | releaseBand
  /-- RELEASE_BAND_STEP (R156) -/
  | releaseBandStep
  /-- OPEN_UNIT (R157) -/
  | openUnit
  /-- SET_OUT_OF_SERVICE (R158) -/
  | setOutOfService
  /-- RETURN_TO_SERVICE (R159) -/
  | returnToService
  /-- CLEAR_FAULT (R159) -/
  | clearFault
  /-- EXTEND_CABIN (R66) -/
  | extendCabin
  /-- BANK_CLEANING (R160) -/
  | bankCleaning
  /-- BLOCK_BAND (R10) -/
  | blockBand
  /-- RELOAD_TABLES (R14) -/
  | reloadTables
  /-- RESET_BANK (R161) -/
  | resetBank
  /-- RESET_BANK_DONE (R161) -/
  | resetBankDone
  /-- CLEAR_EVACUATION (R162) -/
  | clearEvacuation
  /-- CLEAR_EVACUATION_STEP (R162) -/
  | clearEvacuationStep
  /-- ACTION_STEP_REPEAT (R153) -/
  | actionStepRepeat
  /-- ACTION_OUTCOME (R153) -/
  | actionOutcome
  /-- RESTART_QUIESCED (R181) -/
  | restartQuiesced
  /-- RESTART_JOURNAL_DRAINED (R128) -/
  | restartJournalDrained
  /-- RESTART_STORE_SETTLED (R147) -/
  | restartStoreSettled
  /-- SUPPLY_LOSS (R180) -/
  | supplyLoss
  /-- NODE_SENSOR_CHANGE (R94), with the sensors' levels after the change -/
  | nodeSensorChange (bank : BankIx) (pos : Position) (door bolt latch tamper : Bool)
  /-- NODE_POWER_UP (R95), with the identity of the node fitted at the position (R91) -/
  | nodePowerUp (bank : BankIx) (pos : Position) (kind : BitVec 2) (revision : BitVec 5) (serial : BitVec 16)
  deriving DecidableEq, Repr

end Sys2Proof
end

