-- ==== Sys2Proof/Decode.lean ====
section
/-! DEFINITION. Words as commands. No row of spec/opcode_table.json gives bits: a command is an event of the part's
world, not a word, so no word spells one. -/

namespace Sys2Proof

/-- The command that a word of nbits bits spells: none, for every word. Log 43. -/
def decodeTableWord (_nbits _w : Nat) : Option Instr := none

end Sys2Proof
end

