-- ==== Sys2Proof/Config.lean ====
section
/-! DEFINITION. What the LX24 fixes once: capacities and intervals of the spec, and the free values that
stand where the spec leaves a value open (no body: nothing can be proved of them). -/

namespace Sys2Proof.Config

/-- Places of the Tap Queue (R102). -/
def tapPlaces : Nat := 32
/-- Places of the Actuation Queue (R72). -/
def actuationPlaces : Nat := 64
/-- Places of the Journal Queue (R116). -/
def journalPlaces : Nat := 16
/-- Places of the Notice Queue (R171). -/
def noticePlaces : Nat := 48
/-- Notices carried by one fresh STATUS-REPLY (R169). -/
def noticesPerPoll : Nat := 8
/-- Ids the block overlay holds (R10). -/
def overlayPlaces : Nat := 32
/-- Permit ranges held (R7). -/
def permitPlaces : Nat := 64
/-- Block list ids held (R8). -/
def blockPlaces : Nat := 1024
/-- Master list ids held (R9). -/
def masterPlaces : Nat := 32
/-- The longest payload of a frame (R164). -/
def payloadMax : Nat := 240
/-- The last value of the seconds count and of every stored time (R53, R54). -/
def secondsMax : Nat := 4294967295
/-- The longest holding of a cabin, from the bind decision (R57). -/
def cabinCap : Nat := 7200
/-- Settle before verification, in ms (R80). -/
def settle : Nat := 100
/-- Attempts of one actuation (R83). -/
def attempts : Nat := 3
/-- Failed passes in succession that fault a bank (R98). -/
def failureLimit : Nat := 3
/-- The reset of a RESETTING bank, in ms (R107). -/
def bankReset : Nat := 10
/-- The retry interval of a FAULTED bank, in ms (R110). -/
def bankRetry : Nat := 5000
/-- The step timer of the store commands, in ms (R136). -/
def stepTimer : Nat := 2000
/-- The erase window, in ms (R139). -/
def eraseWindow : Nat := 100
/-- The time a protected program takes, in ms (R138). -/
def protectedProgram : Nat := 2
/-- The time an all-protected erase list takes, in ms (R140). -/
def protectedErase : Nat := 100
/-- The age at which a last kept band is forgotten, in ms (R105). -/
def tapMemoryAge : Nat := 5000
/-- A blank count at or below this starts a reclaim (R120). -/
def reclaimAt : Nat := 3
/-- Free places of the Journal Queue an engine event that hands a record needs (R24), and of the Actuation
Queue a tap needs (R27). -/
def roomNeeded : Nat := 2

/-- FREE VALUE. What the store bytes that a program leaves without a field hold: the byte at each place of a
journal record beyond its fields (R185), and of the filler of R132 beyond byte 0. UNVERIFIED. Log 10. -/
opaque padByte : Nat → Byte

/-- FREE VALUE. The n-th byte of content a cut-off body program leaves (R146). UNVERIFIED. Log 11. -/
opaque freeByte : Nat → Byte

/-- FREE VALUE. The n-th choice among the outcomes R146 leaves open: whether a mark being programmed was
programmed, whether a slot of a segment under erase proper became BLANK. UNVERIFIED. Log 11. -/
opaque freeChoice : Nat → Bool

end Sys2Proof.Config
end

