-- ==== Sys2Proof/Machine/State.lean ====
section
/-! DEFINITION. The state of the LX24 as plain data, block by block (00_scope.md, Block overview), and the
state right after reset. -/

namespace Sys2Proof.Machine

/-! ### Tables (chapter 1) -/

/-- A class number (R3). -/
abbrev ClassIx := Fin 16
/-- A zone number (R4). -/
abbrev ZoneIx := Fin 16

/-- The kind of a unit map entry (R1). -/
inductive UnitKind where
  | locker | cabin | blank | unused
  deriving DecidableEq, Repr

/-- The evacuation mode (R2). -/
inductive EvacMode where
  | edge | level
  deriving DecidableEq, Repr

/-- The option values (R2). -/
structure Options where
  /-- mA -/
  railLimit : Nat
  /-- ms -/
  repeatWindow : Nat
  qualityMin : Nat
  evacMode : EvacMode
  /-- bit s for segment s -/
  protectedSet : BitVec 16
  deriving DecidableEq, Repr

/-- A class record after clamping, and whether a CLASS record supplied it (R3, R18). -/
structure ClassRec where
  lockerQuota : Nat
  cabinQuota : Nat
  /-- bit z for zone z -/
  zones : BitVec 16
  keep : Bool
  /-- minutes -/
  base : Nat
  /-- minutes -/
  floor : Nat
  /-- seconds -/
  ajarIdle : Nat
  supplied : Bool
  deriving DecidableEq, Repr

/-- A zone entry, with the cabin count N derived from the unit map (R4). -/
structure ZoneRec where
  cabins : Nat
  threshold : Nat
  /-- seconds -/
  warningLead : Nat
  /-- seconds -/
  grace : Nat
  supplied : Bool
  deriving DecidableEq, Repr

/-- A bank entry (R5). -/
structure BankRec where
  nodeCount : Nat
  /-- in units of 50 ms -/
  pulseLength : Nat
  /-- mA -/
  coilCurrent : Nat
  /-- ms -/
  sweep : Nat
  supplied : Bool
  deriving DecidableEq, Repr

/-- A unit map entry (R6). -/
structure MapEntry where
  kind : UnitKind
  zone : ZoneIx
  deriving DecidableEq, Repr

/-- A permit range (R7). -/
structure Permit where
  low : Band
  high : Band
  cls : ClassIx
  deriving DecidableEq, Repr

/-- The working set in force (R1). -/
structure Tables where
  options : Options
  classes : Vector ClassRec 16
  zones : Vector ZoneRec 16
  banks : Vector BankRec 8
  unitMap : Vector MapEntry 512
  permits : List Permit
  /-- ascending -/
  blocks : List Band
  /-- order of first appearance -/
  masters : List Band
  deriving DecidableEq, Repr

/-- The cause of a load (R1). -/
inductive LoadCause where
  | cold | warm | reload
  deriving DecidableEq, Repr

/-- The result of a load (R1). -/
inductive LoadResult where
  | ok | truncated | conflict
  deriving DecidableEq, Repr

/-- Which lists a load cut (R13). -/
structure Cuts where
  permits : Bool
  blocks : Bool
  masters : Bool
  deriving DecidableEq, Repr

/-- The load summary of the last load attempt (R1, R18). -/
structure LoadSummary where
  cause : LoadCause
  result : LoadResult
  permits : Nat
  blocks : Nat
  masters : Nat
  cuts : Cuts
  /-- the lowest unit index in conflict, where the result was CONFLICT -/
  conflict : Option UnitIx
  deriving DecidableEq, Repr

/-! ### Units and holdings (chapters 2 and 3) -/

/-- The states of LOCKER and CABIN units (R20). -/
inductive UState where
  | free | locking | held | unlocking | ajar | serviceOpen | forced | outOfService | fault
  | admitting | inUse | expired | vacating | closing | evacOpen
  deriving DecidableEq, Repr

/-- The release reasons, in the order of the RELEASED row of R172. -/
inductive Reason where
  | holder | doorOpen | idle | action | master | vacated | expiry | grace | fault
  deriving DecidableEq, Repr

/-- What a withdraw under way is for (R19). -/
inductive Purpose where
  | release (why : Reason)
  | keep
  | service
  deriving DecidableEq, Repr

/-- A bolt movement (R71). -/
inductive BoltOp where
  | throw | withdraw
  deriving DecidableEq, Repr

/-- The class of an actuation or deferred op (R71). -/
inductive Urgency where
  | urgent | normal
  deriving DecidableEq, Repr

/-- The seven lamps, in LAMP order (R182). -/
inductive Lamp where
  | off | green | red | amber | greenFlash | redFlash | amberFlash
  deriving DecidableEq, Repr

/-- A place in the store: segment and slot (R19, journal_ref and state_ref). -/
structure Ref where
  seg : Nat
  slot : Nat
  deriving DecidableEq, Repr

/-- A lamp plan (R19, R50). -/
structure LampPlan where
  steady : Lamp
  /-- the transient lamp and its end time in ms -/
  transient : Option (Lamp × Millis)
  beep : Bool
  /-- the beep request stands in the command of the data pass under way (R100) -/
  beepSent : Bool
  deriving DecidableEq, Repr

/-- A unit record (R19), with the times kept with an admitted cabin (R58). -/
structure UnitRec where
  state : UState
  holder : Option Band
  /-- seconds -/
  boundAt : Nat
  restored : Bool
  purpose : Option Purpose
  journalRef : Option Ref
  stateRef : Option Ref
  latchSeen : Bool
  overstay : Bool
  suspended : Bool
  deferred : Option (BoltOp × Urgency)
  lamp : LampPlan
  /-- minutes -/
  allowance : Option Nat
  /-- seconds -/
  expiry : Option Nat
  /-- seconds -/
  warningAt : Option Nat
  /-- seconds -/
  graceEnd : Option Nat
  deriving DecidableEq, Repr

/-- An entry of the Band Index (R21). -/
structure BandEntry where
  band : Band
  cls : ClassIx
  /-- seconds -/
  firstBound : Nat
  /-- oldest bind first -/
  held : List UnitIx
  deriving DecidableEq, Repr

/-- The kinds of timer entry (R59). -/
inductive TimerKind where
  | warning | expiry | graceEnd | ajarIdle
  deriving DecidableEq, Repr

/-- An entry of the Unit Timer List (R59). -/
structure TimerEntry where
  /-- seconds -/
  due : Nat
  unit : UnitIx
  kind : TimerKind
  deriving DecidableEq, Repr

/-- A status cell: the observed fields of a unit (R91, R101). -/
structure Cell where
  door : Bool
  bolt : Bool
  pulse : Bool
  tapPend : Bool
  latch : Bool
  tamper : Bool
  deriving DecidableEq, Repr

/-! ### Bolt drive (chapter 4) -/

/-- An actuation (R71). -/
structure Actuation where
  unit : UnitIx
  op : BoltOp
  urgency : Urgency
  /-- 1–3 -/
  attempt : Nat
  /-- recorded current, mA -/
  current : Option Nat
  delivered : Bool
  pulseEnd : Option Millis
  deriving DecidableEq, Repr

/-- A detached pulse (R84): the bank whose DRIVE it holds, its recorded current and its pulse end. -/
structure Detached where
  bank : BankIx
  current : Nat
  pulseEnd : Millis
  deriving DecidableEq, Repr

/-- The Drive Scheduler (R71, R72, R84). -/
structure Drive where
  /-- the waiting list, head first -/
  waiting : List Actuation
  granted : List Actuation
  awaiting : List Actuation
  detached : List Detached
  deriving DecidableEq, Repr

/-! ### Bank chains (chapter 5) -/

/-- The bank states (R106). -/
inductive BankState where
  | absent | resetting | enumerating | running | faulted
  deriving DecidableEq, Repr

/-- The fault codes of a bank (R106). -/
inductive FaultCode where
  | integrity | count | kind
  deriving DecidableEq, Repr

/-- The modes of a node (R91). -/
inductive NodeMode where
  | pass | status | tap | ident
  deriving DecidableEq, Repr

/-- The phases of a node (R89). -/
inductive Phase where
  | rest | entry | modeLoad | modeSet | cellTake | cellMove | cellHold | cellSet
  deriving DecidableEq, Repr

/-- A node as its chain shows it (5.2): its identity, its phase machine, what it captured, its read, its
pulse, its lamp and its sensors. -/
structure Node where
  kind : BitVec 2
  revision : BitVec 5
  serial : BitVec 16
  phase : Phase
  mode : NodeMode
  /-- the mode stage, from the DI end -/
  stage : List Bool
  /-- the cell register, from the DI end -/
  reg : List Bool
  band : Band
  quality : BitVec 3
  seq : BitVec 4
  tapPend : Bool
  /-- the pulse under way: its direction and its length in units of 50 ms -/
  pulse : Option (BoltOp × Nat)
  /-- when the pulse under way began (R94) -/
  pulseFrom : Option Millis
  lamp : Lamp
  /-- beeps sounded: the model's own count of an output -/
  beeps : Nat
  door : Bool
  bolt : Bool
  latch : Bool
  tamper : Bool
  deriving DecidableEq, Repr

/-- An enumerated identity (R106). -/
structure Identity where
  kind : BitVec 2
  revision : BitVec 5
  serial : BitVec 16
  deriving DecidableEq, Repr

/-- The tap memory of a unit (R105). -/
structure TapMemory where
  keptBand : Option Band
  keptTime : Option Millis
  seq : Option (BitVec 4)
  deriving DecidableEq, Repr

/-- A tap record (R105). -/
structure Tap where
  unit : UnitIx
  band : Band
  /-- gathering time -/
  time : Millis
  deriving DecidableEq, Repr

/-- A place event on its way to the Tap Queue (R102, R104): the kept records, the count of dropped taps, and
the units whose cells it carries with the SEQ each cell brought. -/
structure PlaceMsg where
  records : List Tap
  dropped : Nat
  cells : List (UnitIx × BitVec 4)
  deriving DecidableEq, Repr

/-- What a bank's chain is busy with (R99–R104, R108). The modes are those the part set, position 0 first. -/
inductive Activity where
  /-- chain free -/
  | idle
  /-- the mode pass of a status cycle is under way -/
  | statusMode (modes : List NodeMode)
  /-- the data pass of a status cycle is under way: the modes, the bits sent after the check pattern, when
  the pass began, the ops sent with the pulse length placed in the cell -/
  | statusData (modes : List NodeMode) (cells : List Bool) (began : Millis) (ops : List (UnitIx × Nat))
  /-- a reservation request is outstanding for these units -/
  | reserving (units : List UnitIx)
  /-- the mode pass of a fetch cycle is under way -/
  | fetchMode (modes : List NodeMode)
  /-- the data pass of a fetch cycle is under way -/
  | fetchData (modes : List NodeMode)
  /-- parked in CELL-HOLD, waiting for the Tap Queue's answer -/
  | parked
  /-- the enumeration pass is under way -/
  | enumerating
  deriving DecidableEq, Repr

/-- A Bank Chain Controller (R106). -/
structure Bank where
  state : BankState
  /-- the code last notified -/
  faultCode : Option FaultCode
  /-- the faulted-since-running mark -/
  faultedMark : Bool
  failures : Nat
  passCount : BitVec 16
  activity : Activity
  /-- due time of the next status cycle -/
  cycleDue : Millis
  /-- due time of the last status cycle begun (R99) -/
  cycleBegun : Millis
  /-- a status cycle owed, with its due time (R99) -/
  owed : Option Millis
  /-- no status pass has passed since the bank entered RUNNING (R26) -/
  fresh : Bool
  /-- when the reset under way began (R107) -/
  resetAt : Millis
  /-- next retry, in FAULTED (R110) -/
  retryAt : Millis
  /-- units granted in the answer to the reservation request (R103) -/
  granted : List UnitIx
  /-- a place event sent and not yet answered -/
  place : Option PlaceMsg
  /-- reservations released and not yet taken by the Tap Queue -/
  release : Nat
  deriving DecidableEq, Repr

/-- The Tap Queue (R102). -/
structure TapQueue where
  /-- oldest first -/
  records : List Tap
  reserved : Vector Nat 8
  deriving DecidableEq, Repr

/-! ### The table store and the journal (chapters 6 and 7) -/

/-- The state of a slot, read from its written, valid and retired marks (R130). -/
inductive SlotState where
  | blank | writing | valid | retired
  deriving DecidableEq, Repr

/-- A store slot: its marks, as the state they make, and its 32 content bytes (R130, R185). -/
structure Slot where
  state : SlotState
  content : List Byte
  deriving DecidableEq, Repr

/-- The non-volatile store (R130): slot address segment × 128 + slot, with the slots that are not erased, in
strictly rising address order. An unlisted slot is BLANK with every byte 0xFF. DESIGN CHOICE, logs 5 and 9. -/
abbrev Store := List (Nat × Slot)

/-- What a program operation programs (R131). -/
inductive ProgKind where
  | body | valid | retired
  deriving DecidableEq, Repr

/-- Who asked for a program operation (R133). -/
inductive ProgOwner where
  | journal | management | retiring
  deriving DecidableEq, Repr

/-- A program operation under way on the write port. -/
structure Program where
  owner : ProgOwner
  kind : ProgKind
  ref : Ref
  /-- the content of a body program -/
  content : List Byte
  deriving DecidableEq, Repr

/-- How far a segment erase has come (R132, R134). -/
inductive ErasePhase where
  /-- slot 0 is being brought to RETIRED; true once the first retiring program has begun -/
  | retiring (started : Bool)
  /-- the erase proper is active -/
  | active
  /-- the erase proper is active and its suspension has been requested -/
  | suspending
  /-- the erase proper is suspended -/
  | suspended
  deriving DecidableEq, Repr

/-- The erase in progress on the write port (R133). -/
structure Erase where
  /-- a journal erase, or else a segment of a management erase list -/
  journal : Bool
  seg : Nat
  phase : ErasePhase
  deriving DecidableEq, Repr

/-- The write port (R131, R133): what it carries, and the erases requested and not begun. -/
structure Port where
  program : Option Program
  erase : Option Erase
  /-- a requested journal erase -/
  journalErase : Option Nat
  /-- a requested management erase list -/
  listErase : Bool
  deriving DecidableEq, Repr

/-- The management command states (R136). -/
inductive CmdState where
  | ready | step1 | unlocked | eraseWindow | programming | erasing | failed
  deriving DecidableEq, Repr

/-- The result of a management operation (R136). -/
inductive StoreResult where
  | ok | overwrite | protect | partlyProtect
  deriving DecidableEq, Repr

/-- The program target (R136), and what the program waits for: the end of a protected program's 2 ms, the
body program or the valid-mark program (R138). -/
structure Target where
  ref : Ref
  content : List Byte
  /-- protected: nothing is programmed -/
  guarded : Bool
  /-- the body program has ended -/
  bodyDone : Bool
  deriving DecidableEq, Repr

/-- The management side of the Store Controller (R136). -/
structure Mgmt where
  state : CmdState
  /-- ascending -/
  eraseList : List Nat
  /-- segments skipped as protected, and the erase set, both of the list in ERASING (R140) -/
  skipped : List Nat
  eraseSet : List Nat
  target : Option Target
  /-- when the step timer, the erase window, or the wait of a protected operation runs out -/
  deadline : Millis
  toggle : Bool
  lastResult : Option StoreResult
  deriving DecidableEq, Repr

/-- What a STATE record says (R114). -/
inductive Mark where
  | outOfService | fault | returned
  deriving DecidableEq, Repr

/-- A journal record (R114). -/
inductive JRec where
  | bind (unit : UnitIx) (band : Band) (cls : ClassIx) (boundAt : Nat)
  | release (unit : UnitIx)
  | state (unit : UnitIx) (mark : Mark)
  deriving DecidableEq, Repr

/-- A record waiting in the Journal Queue, with its void mark (R116). -/
structure QRec where
  body : JRec
  void : Bool
  deriving DecidableEq, Repr

/-- What the journal's slot write under way writes (R115, R118, R121). -/
inductive JWhat where
  /-- the record at the head of the Journal Queue -/
  | queued
  /-- a copy: the unit, whether it is a BIND (else a STATE), the original, and the cancel mark -/
  | copy (unit : UnitIx) (isBind : Bool) (original : Ref) (cancel : Bool)
  /-- the header of the segment being opened -/
  | header
  deriving DecidableEq, Repr

/-- A slot write of the Journal Engine: it is begun by its body program (R115). -/
structure JWrite where
  what : JWhat
  ref : Ref
  /-- the body program has ended -/
  bodyDone : Bool
  deriving DecidableEq, Repr

/-- The reclaim state (R113). -/
inductive Reclaim where
  | idle
  | copying (scan : Nat)
  | erasePending
  deriving DecidableEq, Repr

/-- Which kind of write was last made to the head since the reclaim began (R122). -/
inductive Turn where
  | copy | record
  deriving DecidableEq, Repr

/-- The Journal Engine (R113). -/
structure Journal where
  head : Option Nat
  /-- 1–128 in the head -/
  next : Nat
  headGen : BitVec 32
  tail : Option Nat
  blanks : Nat
  opening : Option Nat
  reclaim : Reclaim
  stalled : Bool
  /-- oldest first -/
  queue : List QRec
  write : Option JWrite
  turn : Option Turn
  deriving DecidableEq, Repr

/-! ### Actions (chapter 8) -/

/-- An action with its arguments (R149). -/
inductive Action where
  | releaseUnit (u : UnitIx)
  | releaseBand (b : Band)
  | openUnit (u : UnitIx)
  | setOutOfService (u : UnitIx)
  | returnToService (u : UnitIx)
  | clearFault (u : UnitIx)
  | extendCabin (u : UnitIx) (minutes : Nat)
  | bankCleaning (bank : BankIx) (on : Bool)
  | blockBand (b : Band)
  | reloadTables
  | resetBank (bank : BankIx)
  | clearEvacuation
  deriving DecidableEq, Repr

/-- The results of actions, in the order of R150. -/
inductive Result where
  | ok | notHeld | fault | suspended | busy | held | notFree | notOutOfService | notFaulted | capped
  | full | truncated | conflict | notActive | badArgument | aborted
  deriving DecidableEq, Repr

/-- Where a running action stands with one unit (R153, R156). -/
inductive Stage where
  /-- its first step has not been taken -/
  | due
  /-- the outcome of a handed movement is watched -/
  | watchHanded
  /-- a movement that must finish first is watched -/
  | watchFinish
  /-- the step is to be taken again -/
  | again
  /-- the outcome of the handed movement is to be recorded -/
  | outcome (r : Result)
  /-- the outcome is known -/
  | done (r : Result)
  deriving DecidableEq, Repr

/-- A unit of a running action. -/
structure Item where
  unit : UnitIx
  stage : Stage
  deriving DecidableEq, Repr

/-- The running slot's action and its progress (R148). -/
structure Running where
  action : Action
  items : List Item
  /-- holders cleared (R156), or cabins put into CLOSING (R162) -/
  count : Nat
  deriving DecidableEq, Repr

/-! ### Site line and notices (chapter 9) -/

/-- The notice kinds, in the order of R172. -/
inductive NoticeKind where
  | bound | released | refused | masterTap | cabinWarning | cabinExpired | cabinOverstay | doorForced
  | unitFault | nodeTamper | bankFault | bankRestored | actionDone | storeDone | evacuationStart
  | evacuationEnd | tablesLoaded
  deriving DecidableEq, Repr

/-- A notice record (R171). -/
structure Notice where
  kind : NoticeKind
  code : Byte
  unit : Option UnitIx
  band : Option Band
  seconds : Nat
  extra : BitVec 32
  deriving DecidableEq, Repr

/-- The Notice Queue (R171). -/
structure NoticeQueue where
  /-- oldest first -/
  list : List Notice
  missed : Bool
  deriving DecidableEq, Repr

/-- The receive conditions of the Site Line Port (R164). -/
inductive LineCond where
  | quietWait | hunt | receiving | replying
  deriving DecidableEq, Repr

/-- The Site Line Port (R163, R164, R169). -/
structure Line where
  cond : LineCond
  /-- the receive buffer: station, kind, length, payload, CRC as far as received -/
  buffer : List Byte
  /-- the reply being sent, from its start byte to its CRC; empty while the line is released -/
  reply : List Byte
  replyNumber : BitVec 8
  /-- the payload of the last fresh STATUS-REPLY -/
  pollCopy : Option (List Byte)
  station : BitVec 5
  rateHigh : Bool
  deriving DecidableEq, Repr

/-! ### Clock, start-up, evacuation and the engine's inbox -/

/-- The Seconds Clock (R53): the two counts, and the milliseconds since the seconds count last advanced. -/
structure Clock where
  ms : Millis
  sec : Nat
  sub : Nat
  deriving DecidableEq, Repr

/-- How far the start-up sequence has come (R180). -/
inductive StartUp where
  /-- RESET low or supply out of range: every output released and the clock at 0 -/
  | held
  /-- step 2: the working tables are being built -/
  | tables
  /-- step 3: journal replay -/
  | replay
  /-- steps 4 and 5 are done -/
  | running
  deriving DecidableEq, Repr

/-- The steps of a warm restart that take time (R181). -/
inductive RestartStep where
  | quiesce | drain | store | load
  deriving DecidableEq, Repr

/-- The Input Monitor (R145, R175). -/
structure Inputs where
  /-- debounced EVACUATE -/
  evacuate : Bool
  /-- debounced SERVICE KEY -/
  serviceKey : Bool
  /-- the evacuation state is ACTIVE -/
  active : Bool
  /-- debounced changes of EVACUATE not yet taken, oldest first -/
  changes : List Bool
  deriving DecidableEq, Repr

/-- The change a follow-up entry owes its cabin (R175). -/
inductive Follow where
  | toOpen | toClose
  deriving DecidableEq, Repr

/-- An event handed to the Binding Engine and not yet taken. -/
inductive EngEvent where
  /-- a verify result (R81) -/
  | verified (u : UnitIx) (op : BoltOp) (cell : Cell)
  /-- a fault report (R83) -/
  | faulted (u : UnitIx) (op : BoltOp) (cell : Cell)
  /-- actuations removed or detached; the bank, where it has left RUNNING (R74, R84) -/
  | removed (units : List UnitIx) (left : Option BankIx)
  /-- a cabin throw displaced at the queue head (R76) -/
  | displaced (u : UnitIx)
  /-- an observation: the previous and the new cell (R26) -/
  | observed (u : UnitIx) (prev new : Cell)
  /-- a reconcile request with the cells of the first pass, in ascending unit order (R49) -/
  | reconcile (bank : BankIx) (cells : List (UnitIx × Cell))
  /-- the Journal Engine reports the ring stalled or released (R119) -/
  | stall (on : Bool)
  /-- the controller reports the end of the enumeration after RESET_BANK (R161) -/
  | resetDone (bank : BankIx) (state : BankState) (code : Option FaultCode) (count : Nat)
  deriving DecidableEq, Repr

/-- An event that the engine holds back for want of room in the Journal Queue (R24). -/
inductive HeldEvent where
  /-- the verify result or fault report of a locker -/
  | report (u : UnitIx)
  /-- the AJAR_IDLE event of a locker's timer entry, named by its due time -/
  | idle (u : UnitIx) (due : Nat)
  /-- the acceptance of the pending action -/
  | accept
  /-- the running action's step on a locker -/
  | step (u : UnitIx)
  deriving DecidableEq, Repr

/-- The Binding Engine apart from the Unit Table and the Band Index (R10, R28, R148, R175). -/
structure Engine where
  /-- in order of arrival -/
  inbox : List EngEvent
  /-- the events held back, in the order they arrived (R24) -/
  held : List HeldEvent
  /-- the events that may be held back and wait, held back or not, in the order they arrived (R24) -/
  arrived : List HeldEvent
  /-- the ring is stalled, as last reported -/
  ringStalled : Bool
  overlay : List Band
  cleaning : Vector Bool 8
  pendingSlot : Option Action
  runningSlot : Option Running
  /-- a tap has been decided ahead of the pending action, the running slot empty (R27, R150) -/
  tapAhead : Bool
  /-- events held over a warm restart are being taken in the order of R181 -/
  resuming : Bool
  /-- the evacuation follow-up list, ascending -/
  follow : List (UnitIx × Follow)
  deriving DecidableEq, Repr

/-- The state of the LX24. -/
structure State where
  /-- supply within its operating range (R180) -/
  supply : Bool
  startUp : StartUp
  /-- the warm restart in progress (R181) -/
  restart : Option RestartStep
  clock : Clock
  inputs : Inputs
  line : Line
  notices : NoticeQueue
  tables : Tables
  summary : Option LoadSummary
  /-- the load under way -/
  load : Option LoadCause
  /-- the slots whose STORE_DONE OK has come since that load began, which it passes over (R138) -/
  loadLate : List Nat
  /-- the Unit Table -/
  units : Vector UnitRec 512
  /-- the Band Index, in ascending band order -/
  bands : List BandEntry
  /-- the Unit Timer List -/
  timers : List TimerEntry
  engine : Engine
  drive : Drive
  banks : Vector Bank 8
  /-- the observed fields of each unit (R106) -/
  observed : Vector Cell 512
  /-- the enumerated identity of each position (R106) -/
  identities : Vector (Option Identity) 512
  /-- the tap memory of each unit (R105) -/
  tapMemory : Vector TapMemory 512
  taps : TapQueue
  journal : Journal
  store : Store
  port : Port
  mgmt : Mgmt
  /-- the nodes fitted on each bank's chain, position 0 first -/
  chains : Vector (List Node) 8
  /-- MODEL's own: the next free value (Config.freeByte, Config.freeChoice) -/
  freeNext : Nat
  /-- MODEL's own: the commands waiting, first in, first out -/
  pending : List Instr
  deriving DecidableEq, Repr

/-- The reasons the machine stops with a fault. There is none: no rule of the spec stops the part, and every
command has an outcome in every state. -/
inductive Fault where
  deriving DecidableEq, Repr

/-- The reasons a command has no meaning. -/
inductive Refusal where
  /-- Raised by exec for a command of the table that has no meaning in this model. Safe: nothing is claimed. -/
  | notModelled (mnemonic : String)
  deriving DecidableEq, Repr

/-! ### Cold-start values -/

/-- The option values with every field at its default (R2). -/
def Options.default : Options := ⟨2000, 1500, 2, .level, 0x000F#16⟩
/-- A class with no record (R3). -/
def ClassRec.default : ClassRec := ⟨0, 0, 0#16, false, 1, 1, 30, false⟩
/-- A zone with no record and no cabins (R4). -/
def ZoneRec.default : ZoneRec := ⟨0, 0, 60, 120, false⟩
/-- A bank with no record (R5). -/
def BankRec.default : BankRec := ⟨0, 4, 500, 100, false⟩
/-- A position at or above the node count (R6). -/
def MapEntry.unused : MapEntry := ⟨.unused, 0⟩

/-- The working set of an empty store: what stands in the tables field before the first load ends. -/
def Tables.default : Tables where
  options := .default
  classes := Vector.replicate 16 .default
  zones := Vector.replicate 16 .default
  banks := Vector.replicate 8 .default
  unitMap := Vector.replicate 512 .unused
  permits := []
  blocks := []
  masters := []

/-- A unit record at cold start, its steady lamp given (R19). -/
def UnitRec.cold (steady : Lamp) : UnitRec where
  state := .free
  holder := none
  boundAt := 0
  restored := false
  purpose := none
  journalRef := none
  stateRef := none
  latchSeen := false
  overstay := false
  suspended := false
  deferred := none
  lamp := ⟨steady, none, false, false⟩
  allowance := none
  expiry := none
  warningAt := none
  graceEnd := none

/-- Observed fields at cold start (R106). -/
def Cell.zero : Cell := ⟨false, false, false, false, false, false⟩

/-- A controller at cold start (R106). -/
def Bank.cold : Bank where
  state := .absent
  faultCode := none
  faultedMark := false
  failures := 0
  passCount := 0
  activity := .idle
  cycleDue := 0
  cycleBegun := 0
  owed := none
  fresh := true
  resetAt := 0
  retryAt := 0
  granted := []
  place := none
  release := 0

/-- The Journal Engine before replay: the journal as replay of an empty ring leaves it (R113, R126). -/
def Journal.cold : Journal where
  head := none
  next := 1
  headGen := 0
  tail := none
  blanks := 16
  opening := none
  reclaim := .idle
  stalled := false
  queue := []
  write := none
  turn := none

/-- The management command at cold start (R146). -/
def Mgmt.cold : Mgmt where
  state := .ready
  eraseList := []
  skipped := []
  eraseSet := []
  target := none
  deadline := 0
  toggle := false
  lastResult := none

/-- The Site Line Port at cold start (R164, R169). -/
def Line.cold : Line where
  cond := .quietWait
  buffer := []
  reply := []
  replyNumber := 0
  pollCopy := none
  station := 0
  rateHigh := false

/-- The Binding Engine at cold start (R10, R28, R148, R175). -/
def Engine.cold : Engine where
  inbox := []
  held := []
  arrived := []
  ringStalled := false
  overlay := []
  cleaning := Vector.replicate 8 false
  pendingSlot := none
  runningSlot := none
  tapAhead := false
  resuming := false
  follow := []

/-- The machine right after reset: RESET held low with supply good, every queue, list, slot and table at its
cold-start value (R180), an erased store and no nodes fitted. DESIGN CHOICE, logs 4, 5, 6 and 32. -/
def State.reset : State where
  supply := true
  startUp := .held
  restart := none
  clock := ⟨0, 0, 0⟩
  inputs := ⟨false, false, false, []⟩
  line := .cold
  notices := ⟨[], false⟩
  tables := .default
  summary := none
  load := none
  loadLate := []
  units := Vector.replicate 512 (UnitRec.cold .off)
  bands := []
  timers := []
  engine := .cold
  drive := ⟨[], [], [], []⟩
  banks := Vector.replicate 8 .cold
  observed := Vector.replicate 512 .zero
  identities := Vector.replicate 512 none
  tapMemory := Vector.replicate 512 ⟨none, none, none⟩
  taps := ⟨[], Vector.replicate 8 0⟩
  journal := .cold
  store := []
  port := ⟨none, none, none, false⟩
  mgmt := .cold
  chains := Vector.replicate 8 []
  freeNext := 0
  pending := []

end Sys2Proof.Machine
end

