-- ==== Sys2Proof/Machine/Ops.lean ====
section
/-! DEFINITION. The named operations over the state that every block shares: tables indexed by unit and bank,
the clock and its differences, the store's slots, the Notice Queue, the Band Index, the Unit Timer List and
free values. -/

namespace Sys2Proof.Machine

/-! ### Fixed tables -/

/-- The table v with x at place i. -/
def put {α : Type} {n : Nat} (v : Vector α n) (i : Fin n) (x : α) : Vector α n := v.set i.1 x i.2

/-- The table of the values of f, in order. -/
def tabulate {α : Type} (n : Nat) (f : Fin n → α) : Vector α n := ⟨⟨(List.finRange n).map f⟩, by simp⟩

/-- The bank of a unit: unit index / 64. -/
def bankOf (u : UnitIx) : BankIx := ⟨u.1 / 64, by omega⟩

/-- The position of a unit on its chain: unit index modulo 64. -/
def posOf (u : UnitIx) : Position := ⟨u.1 % 64, by omega⟩

/-- The unit index bank × 64 + position. -/
def unitAt (b : BankIx) (p : Position) : UnitIx := ⟨b.1 * 64 + p.1, by omega⟩

/-- Every unit index, ascending. -/
def allUnits : List UnitIx := List.finRange 512

/-- Every bank, ascending. -/
def allBanks : List BankIx := List.finRange 8

/-- The units of a bank, ascending. -/
def unitsOf (b : BankIx) : List UnitIx := (List.finRange 64).map (unitAt b)

/-- The unit index of a number, if it is in 0–511. -/
def unitIx? (n : Nat) : Option UnitIx := if h : n < 512 then some ⟨n, h⟩ else none

/-- The bank of a number, if it is in 0–7. -/
def bankIx? (n : Nat) : Option BankIx := if h : n < 8 then some ⟨n, h⟩ else none

/-- The class or zone of a number, if it is in 0–15. -/
def ix16? (n : Nat) : Option (Fin 16) := if h : n < 16 then some ⟨n, h⟩ else none

/-- A load begins; no record has been programmed since (R14, R17, R138). -/
def State.beginLoad (s : State) (cause : LoadCause) : State := { s with load := some cause, loadLate := [] }

/-- A unit's record. -/
def State.unit (s : State) (u : UnitIx) : UnitRec := s.units.get u

/-- The state with a unit's record replaced. -/
def State.setUnit (s : State) (u : UnitIx) (r : UnitRec) : State := { s with units := put s.units u r }

/-- The state with a unit's record changed by f. -/
def State.modUnit (s : State) (u : UnitIx) (f : UnitRec → UnitRec) : State := s.setUnit u (f (s.unit u))

/-- A bank's controller. -/
def State.bank (s : State) (b : BankIx) : Bank := s.banks.get b

/-- The state with a bank's controller replaced. -/
def State.setBank (s : State) (b : BankIx) (k : Bank) : State := { s with banks := put s.banks b k }

/-- The state with a bank's controller changed by f. -/
def State.modBank (s : State) (b : BankIx) (f : Bank → Bank) : State := s.setBank b (f (s.bank b))

/-- The nodes of a bank's chain. -/
def State.chain (s : State) (b : BankIx) : List Node := s.chains.get b

/-- The state with a bank's nodes replaced. -/
def State.setChain (s : State) (b : BankIx) (ns : List Node) : State := { s with chains := put s.chains b ns }

/-- The last observed cell of a unit. -/
def State.cell (s : State) (u : UnitIx) : Cell := s.observed.get u

/-- A unit's kind in the unit map in force (R6). -/
def State.kind (s : State) (u : UnitIx) : UnitKind := (s.tables.unitMap.get u).kind

/-- A unit's zone in the unit map in force (R6). -/
def State.zone (s : State) (u : UnitIx) : ZoneIx := (s.tables.unitMap.get u).zone

/-- The LOCKER and CABIN units of a bank, ascending. -/
def State.liveUnits (s : State) (b : BankIx) : List UnitIx :=
  (unitsOf b).filter fun u => s.kind u = .locker ∨ s.kind u = .cabin

/-- Every CABIN unit, ascending. -/
def State.cabins (s : State) : List UnitIx := allUnits.filter fun u => s.kind u = .cabin

/-! ### The clock (R53, R54) -/

/-- The millisecond count t ms after m. -/
def after (m : Millis) (t : Nat) : Millis := m + BitVec.ofNat 32 t

/-- The moment t has come at m: the difference of the two readings, modulo 2^32, has not gone negative. No
duration measured this way exceeds 60 s (R53). DESIGN CHOICE, log 3: a timed command is carried out only from this
moment on. DEDUCED, log 33. -/
def reached (m t : Millis) : Bool := decide ((m - t).toNat < 2147483648)

/-- A time computed in whole seconds, clamped before it is stored (R54). DESIGN CHOICE, log 40. -/
def clampSec (n : Nat) : Nat := min n Config.secondsMax

/-- One millisecond of the Seconds Clock (R53). -/
def Clock.tick (c : Clock) : Clock :=
  if c.sub + 1 = 1000 then ⟨c.ms + 1, min (c.sec + 1) Config.secondsMax, 0⟩ else ⟨c.ms + 1, c.sec, c.sub + 1⟩

/-! ### Notices (R171) -/

/-- A notice record is posted: it joins the tail, or is lost with the missed flag set when 48 are held. -/
def NoticeQueue.post (q : NoticeQueue) (n : Notice) : NoticeQueue :=
  if q.list.length < Config.noticePlaces then { q with list := q.list ++ [n] } else { q with missed := true }

/-- A notice is posted, stamped with the seconds count (R171). -/
def post (s : State) (kind : NoticeKind) (code : Nat) (unit : Option UnitIx) (band : Option Band) (extra : Nat) :
    State :=
  let n : Notice := ⟨kind, BitVec.ofNat 8 code, unit, band, s.clock.sec, BitVec.ofNat 32 extra⟩
  { s with notices := s.notices.post n }

/-! ### The store's slots (R130) -/

/-- The address of a slot: segment × 128 + slot. -/
def Ref.addr (r : Ref) : Nat := r.seg * 128 + r.slot

/-- STORE_DONE OK of a slot: its record comes into force at the first load that begins after it (R138), so that a load
under way passes the slot over. -/
def State.programmedLate (s : State) (r : Ref) : State :=
  { s with loadLate := if s.load.isSome then s.loadLate ++ [r.addr] else s.loadLate }

/-- An erased slot: BLANK, every content byte 0xFF (R185). -/
def Slot.erased : Slot := ⟨.blank, List.replicate 32 0xFF#8⟩

/-- The slot at an address: an unlisted slot is erased. -/
def Store.read (m : Store) (a : Nat) : Slot := ((m.find? fun e => e.1 == a).map (·.2)).getD Slot.erased

/-- The store with the slot at an address replaced; an erased slot is not listed. -/
def Store.write (m : Store) (a : Nat) (x : Slot) : Store :=
  match m with
  | [] => if x = Slot.erased then [] else [(a, x)]
  | (b, y) :: rest =>
    if b < a then (b, y) :: Store.write rest a x
    else if b = a then (if x = Slot.erased then rest else (a, x) :: rest)
    else if x = Slot.erased then (b, y) :: rest else (a, x) :: (b, y) :: rest

/-- The canonical form of the store: addresses strictly rising, and no entry that reads as an unlisted one. -/
def Store.wf (m : Store) : Bool :=
  decide (m.Pairwise fun x y => x.1 < y.1) && m.all fun e => e.2 ≠ Slot.erased

/-- Every slot of a segment BLANK (R130): no slot of it is listed. -/
def Store.eraseSegment (m : Store) (seg : Nat) : Store := m.filter fun e => e.1 / 128 ≠ seg

/-- The state of a slot. -/
def State.slotState (s : State) (r : Ref) : SlotState := (s.store.read r.addr).state

/-- A slot's state and content replaced. -/
def State.setSlot (s : State) (r : Ref) (x : Slot) : State := { s with store := s.store.write r.addr x }

/-- A slot moved to a state, its content kept. -/
def State.markSlot (s : State) (r : Ref) (st : SlotState) : State :=
  s.setSlot r { s.store.read r.addr with state := st }

/-- Every slot of the segment is BLANK (R113). -/
def State.segBlank (s : State) (seg : Nat) : Bool :=
  s.store.all fun e => e.1 / 128 ≠ seg || e.2.state = .blank

/-! ### The Band Index (R21) -/

/-- The entry of a band. -/
def bandEntry (l : List BandEntry) (b : Band) : Option BandEntry := l.find? fun e => e.band == b

/-- A new entry takes its place in ascending band order. -/
def insertEntry (l : List BandEntry) (e : BandEntry) : List BandEntry :=
  match l with
  | [] => [e]
  | x :: rest => if x.band.toNat < e.band.toNat then x :: insertEntry rest e else e :: x :: rest

/-- A unit joins a band's held list at the end; the entry is created with its first unit (R21). -/
def bindUnit (l : List BandEntry) (b : Band) (u : UnitIx) (cls : ClassIx) (now : Nat) : List BandEntry :=
  match bandEntry l b with
  | some _ => l.map fun e => if e.band = b then { e with held := e.held ++ [u] } else e
  | none => insertEntry l ⟨b, cls, now, [u]⟩

/-- A unit leaves a band's held list; an entry whose list becomes empty is removed (R21). -/
def unbindUnit (l : List BandEntry) (b : Band) (u : UnitIx) : List BandEntry :=
  (l.map fun e => if e.band = b then { e with held := e.held.filter (· ≠ u) } else e).filter fun e =>
    e.held ≠ []

/-- The class taken at a decision is written into the band's entry, if it has one (R22). -/
def writeClass (l : List BandEntry) (b : Band) (cls : ClassIx) : List BandEntry :=
  l.map fun e => if e.band = b then { e with cls := cls } else e

/-- The units a band holds, oldest bind first. -/
def heldBy (l : List BandEntry) (b : Band) : List UnitIx := ((bandEntry l b).map (·.held)).getD []

/-! ### The Unit Timer List (R59) -/

/-- Ascending due time, then ascending unit index (R59). -/
def TimerEntry.before (x y : TimerEntry) : Bool := x.due < y.due || (x.due = y.due && x.unit.1 < y.unit.1)

/-- An entry takes its place in the list. -/
def insertTimer (l : List TimerEntry) (e : TimerEntry) : List TimerEntry :=
  match l with
  | [] => [e]
  | x :: rest => if x.before e then x :: insertTimer rest e else e :: x :: rest

/-- A unit's entry, if it has one, is removed. -/
def dropTimer (l : List TimerEntry) (u : UnitIx) : List TimerEntry := l.filter fun e => e.unit ≠ u

/-- A unit's entry is set, replacing the one it has (R60). -/
def setTimer (l : List TimerEntry) (u : UnitIx) (k : TimerKind) (due : Nat) : List TimerEntry :=
  insertTimer (dropTimer l u) ⟨due, u, k⟩

/-- The state with a unit's timer entry removed. -/
def State.noTimer (s : State) (u : UnitIx) : State := { s with timers := dropTimer s.timers u }

/-- The state with a unit's timer entry set. -/
def State.withTimer (s : State) (u : UnitIx) (k : TimerKind) (due : Nat) : State :=
  { s with timers := setTimer s.timers u k due }

/-! ### Lists of events -/

/-- The first element that meets p, and the list without it. -/
def takeFirst {α : Type} (p : α → Bool) : List α → Option (α × List α)
  | [] => none
  | x :: rest => if p x then some (x, rest) else (takeFirst p rest).map fun r => (r.1, x :: r.2)

/-- An event is handed to the Binding Engine. -/
def State.hand (s : State) (e : EngEvent) : State :=
  { s with engine := { s.engine with inbox := s.engine.inbox ++ [e] } }

/-- The state with the engine's waiting events replaced. -/
def State.setInbox (s : State) (l : List EngEvent) : State := { s with engine := { s.engine with inbox := l } }

end Sys2Proof.Machine
end

