-- ==== Sys2Proof/Machine/Operands.lean ====
section
/-! DEFINITION. The forms of what crosses the site line and what stands in store slots: byte order, the CRC,
the codes of enumerated fields, journal records and the arguments of ACTION frames (R165, R182–R185). -/

namespace Sys2Proof.Machine

/-! ### Bytes: most significant part first (11_formats_and_worked_sequences.md, R183) -/

/-- A value as one byte. -/
def byte1 (n : Nat) : List Byte := [BitVec.ofNat 8 n]
/-- A value as two bytes, high byte first. -/
def byte2 (n : Nat) : List Byte := [BitVec.ofNat 8 (n / 256), BitVec.ofNat 8 n]
/-- A value as four bytes, high byte first. -/
def byte4 (n : Nat) : List Byte := byte2 (n / 65536) ++ byte2 n
/-- A flag as one byte. -/
def flagByte (b : Bool) : List Byte := [if b then 1 else 0]
/-- An optional field: a presence byte, and the field where it is present (R184). -/
def optBytes {α : Type} (x : Option α) (f : α → List Byte) : List Byte :=
  match x with
  | some a => 1 :: f a
  | none => [0]

/-- The number bytes spell, high byte first. -/
def bytesNat (l : List Byte) : Nat := l.foldl (fun n b => n * 256 + b.toNat) 0

/-- The number in len bytes of l from byte i on. -/
def field (l : List Byte) (i len : Nat) : Nat := bytesNat ((l.drop i).take len)

/-- The bits of a value, most significant first (R182). -/
def bitsOf (w n : Nat) : List Bool := (List.range w).map fun i => n.testBit (w - 1 - i)

/-- The value of bits, most significant first (R182). -/
def bitsNat (l : List Bool) : Nat := l.foldl (fun n b => 2 * n + b.toNat) 0

/-! ### The CRC (R165) -/

/-- One bit of the CRC with polynomial x^16 + x^12 + x^5 + 1. -/
def crcBit (c : BitVec 16) : BitVec 16 := if c.msb then (c <<< 1) ^^^ 0x1021#16 else c <<< 1

/-- One byte enters the CRC, most significant bit first. -/
def crcByte (c : BitVec 16) (b : Byte) : BitVec 16 :=
  let c := c ^^^ ((b.zeroExtend 16) <<< 8)
  crcBit (crcBit (crcBit (crcBit (crcBit (crcBit (crcBit (crcBit c)))))))

/-- The CRC of a frame's bytes: initial value all ones, result not inverted. -/
def crc16 (l : List Byte) : BitVec 16 := l.foldl crcByte 0xFFFF#16

/-! ### Codes of enumerated fields (R184): the place in the named list, counting from 1 -/

/-- Unit map kinds. -/
def UnitKind.code : UnitKind → Nat
  | .locker => 1 | .cabin => 2 | .blank => 3 | .unused => 4

/-- Unit states: the tables of R20, one list per kind. BLANK and UNUSED units hold FREE alone (R19). -/
def UState.code (k : UnitKind) : UState → Nat
  | .free => 1
  | .locking => 2
  | .held => 3
  | .unlocking => 4
  | .ajar => 5
  | .admitting => 2
  | .inUse => 3
  | .expired => 4
  | .vacating => 5
  | .closing => 6
  | .evacOpen => 8
  | .forced => 7
  | .serviceOpen => if k = .cabin then 7 else 6
  | .outOfService => if k = .cabin then 9 else 8
  | .fault => if k = .cabin then 10 else 9

/-- Release reasons: the RELEASED row of R172. -/
def Reason.code : Reason → Nat
  | .holder => 1 | .doorOpen => 2 | .idle => 3 | .action => 4 | .master => 5 | .vacated => 6
  | .expiry => 7 | .grace => 8 | .fault => 9

/-- Purposes; the release reason has a byte of its own. -/
def Purpose.code : Purpose → Nat
  | .release _ => 1 | .keep => 2 | .service => 3

/-- The release reason of a purpose, 0 for none. -/
def Purpose.reasonCode : Purpose → Nat
  | .release r => r.code
  | _ => 0

/-- Bolt movements. -/
def BoltOp.code : BoltOp → Nat
  | .throw => 1 | .withdraw => 2

/-- Classes of an actuation. -/
def Urgency.code : Urgency → Nat
  | .urgent => 1 | .normal => 2

/-- Lamps as in a LAMP frame, 0–6. -/
def Lamp.code : Lamp → Nat
  | .off => 0 | .green => 1 | .red => 2 | .amber => 3 | .greenFlash => 4 | .redFlash => 5 | .amberFlash => 6

/-- The lamp of a LAMP code (R182, R183). -/
def lamp? : Nat → Option Lamp
  | 0 => some .off | 1 => some .green | 2 => some .red | 3 => some .amber
  | 4 => some .greenFlash | 5 => some .redFlash | 6 => some .amberFlash
  | _ => none

/-- Bank states (R106). -/
def BankState.code : BankState → Nat
  | .absent => 1 | .resetting => 2 | .enumerating => 3 | .running => 4 | .faulted => 5

/-- Fault codes. -/
def FaultCode.code : FaultCode → Nat
  | .integrity => 1 | .count => 2 | .kind => 3

/-- Store command states (R136). -/
def CmdState.code : CmdState → Nat
  | .ready => 1 | .step1 => 2 | .unlocked => 3 | .eraseWindow => 4 | .programming => 5 | .erasing => 6
  | .failed => 7

/-- Results of management operations. -/
def StoreResult.code : StoreResult → Nat
  | .ok => 1 | .overwrite => 2 | .protect => 3 | .partlyProtect => 4

/-- Slot states of a SLOT-REPLY. -/
def SlotState.code : SlotState → Nat
  | .blank => 1 | .writing => 2 | .valid => 3 | .retired => 4

/-- The evacuation mode. -/
def EvacMode.code : EvacMode → Nat
  | .edge => 1 | .level => 2

/-- Timer entry kinds. -/
def TimerKind.code : TimerKind → Nat
  | .warning => 1 | .expiry => 2 | .graceEnd => 3 | .ajarIdle => 4

/-- Load causes. -/
def LoadCause.code : LoadCause → Nat
  | .cold => 1 | .warm => 2 | .reload => 3

/-- Load results. -/
def LoadResult.code : LoadResult → Nat
  | .ok => 1 | .truncated => 2 | .conflict => 3

/-- Results of actions, counting from 0. -/
def Result.code : Result → Nat
  | .ok => 0 | .notHeld => 1 | .fault => 2 | .suspended => 3 | .busy => 4 | .held => 5 | .notFree => 6
  | .notOutOfService => 7 | .notFaulted => 8 | .capped => 9 | .full => 10 | .truncated => 11
  | .conflict => 12 | .notActive => 13 | .badArgument => 14 | .aborted => 15

/-- Action kinds, 1–12 in the order of the table of 8.6. -/
def Action.code : Action → Nat
  | .releaseUnit _ => 1 | .releaseBand _ => 2 | .openUnit _ => 3 | .setOutOfService _ => 4
  | .returnToService _ => 5 | .clearFault _ => 6 | .extendCabin _ _ => 7 | .bankCleaning _ _ => 8
  | .blockBand _ => 9 | .reloadTables => 10 | .resetBank _ => 11 | .clearEvacuation => 12

/-- Notice kinds, in the order of R172. -/
def NoticeKind.code : NoticeKind → Nat
  | .bound => 1 | .released => 2 | .refused => 3 | .masterTap => 4 | .cabinWarning => 5
  | .cabinExpired => 6 | .cabinOverstay => 7 | .doorForced => 8 | .unitFault => 9 | .nodeTamper => 10
  | .bankFault => 11 | .bankRestored => 12 | .actionDone => 13 | .storeDone => 14
  | .evacuationStart => 15 | .evacuationEnd => 16 | .tablesLoaded => 17

/-- The refusal reasons of R31. -/
inductive Refusing where
  | busy | outOfService | fault | forced | cleaning | evacuation | blocked | unknownBand | wrongBand
  | notAvailable | zone | quotaLocker | quotaCabin | doorOpen
  deriving DecidableEq, Repr

/-- Refusal reasons, in the order of R31. -/
def Refusing.code : Refusing → Nat
  | .busy => 1 | .outOfService => 2 | .fault => 3 | .forced => 4 | .cleaning => 5 | .evacuation => 6
  | .blocked => 7 | .unknownBand => 8 | .wrongBand => 9 | .notAvailable => 10 | .zone => 11
  | .quotaLocker => 12 | .quotaCabin => 13 | .doorOpen => 14

/-- The effects of a master tap (R40). -/
inductive MasterEffect where
  | opened | close | release | none | doorOpen
  deriving DecidableEq, Repr

/-- MASTER_TAP effects, in the order of R172. -/
def MasterEffect.code : MasterEffect → Nat
  | .opened => 1 | .close => 2 | .release => 3 | .none => 4 | .doorOpen => 5

/-- NAK codes, in the order of R166. -/
inductive Nak where
  | unknownKind | badLength | badArgument | busy | sequence | failed | reservedSegment
  deriving DecidableEq, Repr

/-- NAK codes, 1–7 (R183). -/
def Nak.code : Nak → Nat
  | .unknownKind => 1 | .badLength => 2 | .badArgument => 3 | .busy => 4 | .sequence => 5 | .failed => 6
  | .reservedSegment => 7

/-- A notice record as 17 bytes (R184). -/
def Notice.bytes (n : Notice) : List Byte :=
  byte1 n.kind.code ++ [n.code] ++ byte1 ((if n.unit.isSome then 1 else 0) + (if n.band.isSome then 2 else 0))
    ++ byte2 ((n.unit.map (·.1)).getD 0) ++ byte4 ((n.band.map (·.toNat)).getD 0) ++ byte4 n.seconds
    ++ byte4 n.extra.toNat

/-! ### Frame kinds (R183) -/

/-- The kind bytes of R183. -/
def knownKinds : List Byte :=
  [0x01, 0x02, 0x03, 0x04, 0x05, 0x06, 0x07, 0x08, 0x09, 0x10, 0x11, 0x12, 0x13, 0x14, 0x15, 0x16]

/-! ### Journal records in a slot (R185) -/

/-- Bytes of a record, filled up to 32: what stands beyond the fields is not stated (Config.padByte). -/
def padSlot (l : List Byte) : List Byte := l ++ ((List.range 32).drop l.length).map Config.padByte

/-- What a STATE record's state byte says. -/
def Mark.code : Mark → Nat
  | .outOfService => 1 | .fault => 2 | .returned => 3

/-- A journal record's content (R185). -/
def JRec.bytes : JRec → List Byte
  | .bind u b c t => padSlot (byte1 0x21 ++ byte2 u.1 ++ byte4 b.toNat ++ byte1 c.1 ++ byte4 t)
  | .release u => padSlot (byte1 0x22 ++ byte2 u.1)
  | .state u m => padSlot (byte1 0x23 ++ byte2 u.1 ++ byte1 m.code)

/-- A header's content: its generation (R185). -/
def headerBytes (gen : BitVec 32) : List Byte := padSlot (byte1 0x20 ++ byte4 gen.toNat)

/-- The filler of R132: kind 0x00. -/
def fillerBytes : List Byte := padSlot [0]

/-- The generation of a header's content. -/
def header? (c : List Byte) : Option (BitVec 32) :=
  if field c 0 1 = 0x20 then some (BitVec.ofNat 32 (field c 1 4)) else none

/-- The journal record of a slot's content, if it is one: a code listed nowhere is none (R185). The class of
a BIND takes no part in any later decision (R114); it is read modulo 16. DESIGN CHOICE, log 40. -/
def jrec? (c : List Byte) : Option JRec :=
  match unitIx? (field c 1 2) with
  | none => none
  | some u =>
    match field c 0 1 with
    | 0x21 => some (.bind u (BitVec.ofNat 32 (field c 3 4)) ⟨field c 7 1 % 16, by omega⟩ (field c 8 4))
    | 0x22 => some (.release u)
    | 0x23 =>
      match field c 3 1 with
      | 1 => some (.state u .outOfService)
      | 2 => some (.state u .fault)
      | 3 => some (.state u .returned)
      | _ => none
    | _ => none

/-- The unit a journal record names. -/
def JRec.unit : JRec → UnitIx
  | .bind u _ _ _ => u
  | .release u => u
  | .state u _ => u

/-! ### ACTION frames (R148, R149, R183) -/

/-- The payload length an action kind requires (R183). -/
def actionLength : Nat → Nat
  | 1 => 3 | 2 => 5 | 3 => 3 | 4 => 3 | 5 => 3 | 6 => 3 | 7 => 4 | 8 => 3 | 9 => 5 | 10 => 1 | 11 => 2 | 12 => 1
  | _ => 0

/-- A unit argument: 0–511 and of kind LOCKER or CABIN in the map in force (R149). -/
def unitArg? (s : State) (n : Nat) : Option UnitIx :=
  (unitIx? n).filter fun u => s.kind u = .locker ∨ s.kind u = .cabin

/-- The action of a payload of the right length, its arguments checked (R149). -/
def action? (s : State) (p : List Byte) : Option Action :=
  match field p 0 1 with
  | 1 => (unitArg? s (field p 1 2)).map .releaseUnit
  | 2 => some (.releaseBand (BitVec.ofNat 32 (field p 1 4)))
  | 3 => (unitArg? s (field p 1 2)).map .openUnit
  | 4 => (unitArg? s (field p 1 2)).map .setOutOfService
  | 5 => (unitArg? s (field p 1 2)).map .returnToService
  | 6 => (unitArg? s (field p 1 2)).map .clearFault
  | 7 =>
    if 1 ≤ field p 3 1 ∧ field p 3 1 ≤ 30 then
      ((unitIx? (field p 1 2)).filter fun u => s.kind u = .cabin).map fun u => .extendCabin u (field p 3 1)
    else none
  | 8 =>
    match field p 2 1 with
    | 0 => (bankIx? (field p 1 1)).map fun b => .bankCleaning b false
    | 1 => (bankIx? (field p 1 1)).map fun b => .bankCleaning b true
    | _ => none
  | 9 => some (.blockBand (BitVec.ofNat 32 (field p 1 4)))
  | 10 => some .reloadTables
  | 11 => (bankIx? (field p 1 1)).map .resetBank
  | 12 => some .clearEvacuation
  | _ => none

/-- The unit an action names, if any (R149). -/
def Action.unit? : Action → Option UnitIx
  | .releaseUnit u | .openUnit u | .setOutOfService u | .returnToService u | .clearFault u
  | .extendCabin u _ => some u
  | _ => none

/-- The band an action names, if any (R149). -/
def Action.band? : Action → Option Band
  | .releaseBand b | .blockBand b => some b
  | _ => none

/-- The unit an action names still passes its kind check at acceptance (R149). -/
def Action.passes (s : State) : Action → Bool
  | .releaseUnit u | .openUnit u | .setOutOfService u | .returnToService u | .clearFault u =>
    s.kind u = .locker ∨ s.kind u = .cabin
  | .extendCabin u _ => s.kind u = .cabin
  | _ => true

end Sys2Proof.Machine
end

