-- ==== Sys2Proof/Machine/Flags.lean ====
section
/-! DEFINITION. The conditions the blocks test and the levels the part shows: whether a movement is in hand,
whether the engine takes events, room in the queues, evacuation, and the output pins.
A command whose condition does not hold leaves the state as it is (DESIGN CHOICE, log 2). -/

namespace Sys2Proof.Machine

/-! ### Movements (R25, R26, R71) -/

/-- The unit has an actuation queued, granted or awaiting verify. -/
def State.actuating (s : State) (u : UnitIx) : Bool :=
  s.drive.waiting.any (·.unit = u) || s.drive.granted.any (·.unit = u) || s.drive.awaiting.any (·.unit = u)

/-- The event reports that a movement of the unit left the Drive Scheduler. -/
def EngEvent.reports (u : UnitIx) : EngEvent → Bool
  | .verified v _ _ => v = u
  | .faulted v _ _ => v = u
  | .removed us _ => us.contains u
  | .displaced v => v = u
  | _ => false

/-- A result of a movement of the unit waits at the Binding Engine. DEDUCED from R26 and R83: a movement is
in hand until the engine has taken the event by which it left. Log 13. -/
def State.reported (s : State) (u : UnitIx) : Bool := s.engine.inbox.any (EngEvent.reports u)

/-- The unit has a movement in hand: an actuation, a deferred op (R25), or a result the engine has not taken. -/
def State.inHand (s : State) (u : UnitIx) : Bool :=
  s.actuating u || (s.unit u).deferred.isSome || s.reported u

/-- Places of the Actuation Queue held (R72). -/
def Drive.used (d : Drive) : Nat := d.waiting.length + d.granted.length + d.awaiting.length

/-- The committed current C (R75): the recorded currents of granted actuations and detached pulses, each of
which stays where it is until its pulse has ended. -/
def Drive.committed (d : Drive) : Nat :=
  (d.granted.map fun a => a.current.getD 0).sum + (d.detached.map (·.current)).sum

/-! ### Gates of the Binding Engine -/

/-- The Binding Engine takes events: start-up has reached step 4 (R180) and no warm restart is in progress
(R181). -/
def State.engineOn (s : State) : Bool := s.startUp = .running && s.restart = none

/-- The Journal Queue has the 2 free places of R24. -/
def State.journalRoom (s : State) : Bool := s.journal.queue.length + Config.roomNeeded ≤ Config.journalPlaces

/-- The Actuation Queue has the 2 free places of R27. -/
def State.driveRoom (s : State) : Bool := s.drive.used + Config.roomNeeded ≤ Config.actuationPlaces

/-- A STATE record of the unit waits in the Journal Queue without its void mark (R39). -/
def State.stateWaits (s : State) (u : UnitIx) : Bool :=
  s.journal.queue.any fun q => !q.void && (match q.body with | .state v _ => v = u | _ => false)

/-- A locker that leaves FAULT or OUT_OF_SERVICE hands a STATE RETURN over (R39). -/
def State.returnHands (s : State) (u : UnitIx) : Bool :=
  s.kind u = .locker && ((s.unit u).stateRef.isSome || s.stateWaits u)

/-- The release step of an action on a unit frees a locker at once, and so hands a RELEASE over (R154). -/
def State.releaseHands (s : State) (u : UnitIx) : Bool :=
  let r := s.unit u
  s.kind u = .locker && r.holder.isSome && !s.inHand u &&
    (r.state = .ajar || ((r.state = .forced || r.state = .serviceOpen) && !(s.cell u).bolt))

/-- The step of an action on a unit would hand a record to the Journal Queue (R24, R150, R156). -/
def Action.hands (s : State) (u : UnitIx) : Action → Bool
  | .releaseUnit _ => s.releaseHands u
  | .releaseBand b => (s.unit u).holder = some b && s.releaseHands u
  | .openUnit _ => (s.unit u).state = .fault && !s.inHand u && !(s.unit u).suspended && s.returnHands u
  | .setOutOfService _ =>
    s.kind u = .locker && (s.unit u).holder.isNone && (s.unit u).state = .free && !s.inHand u && !(s.unit u).suspended
  | .returnToService _ => ((s.unit u).state = .outOfService || (s.unit u).state = .fault) && s.returnHands u
  | .clearFault _ => (s.unit u).state = .fault && s.returnHands u
  | _ => false

/-- The first step of the action, taken at its acceptance, would hand a record (R150). -/
def Action.firstHands (s : State) (a : Action) : Bool :=
  match a.unit? with
  | some u => a.passes s && a.hands s u
  | none => false

/-- The running action's next step on the unit, its first or a repeated one, would hand a record. -/
def Running.stepHands (s : State) (r : Running) (u : UnitIx) : Bool :=
  r.items.any (fun i => i.unit = u && (i.stage = .due || i.stage = .again)) && r.action.hands s u

/-- The report is a verify result or a fault report of the unit. -/
def EngEvent.isReport (u : UnitIx) : EngEvent → Bool
  | .verified v _ _ => v = u
  | .faulted v _ _ => v = u
  | _ => false

/-- An event held back still waits, and would still hand a record over (R24). -/
def State.stillHeld (s : State) : HeldEvent → Bool
  | .report u => s.kind u = .locker && s.engine.inbox.any (EngEvent.isReport u)
  | .idle u due => s.timers.contains ⟨due, u, .ajarIdle⟩
  | .accept => s.engine.pendingSlot.any (Action.firstHands s)
  | .step u => s.engine.runningSlot.any fun r => r.stepHands s u

/-- An event that hands journal records is held back (R24): while the Journal Queue lacks room, and while one of the
events held back before it still waits. DEDUCED, log 15. -/
def State.holdsBack (s : State) (h : HeldEvent) : Bool :=
  !s.journalRoom || (s.engine.held.takeWhile (· ≠ h)).any s.stillHeld

/-- The unit of a verify result or fault report. -/
def EngEvent.report? : EngEvent → Option UnitIx
  | .verified u _ _ => some u
  | .faulted u _ _ => some u
  | _ => none

/-- An event held back has been taken. -/
def State.unhold (s : State) (h : HeldEvent) : State :=
  { s with engine := { s.engine with
      held := s.engine.held.filter (· ≠ h), arrived := s.engine.arrived.filter (· ≠ h) } }

/-- RELOAD_TABLES is the running action (R14). -/
def State.reloading (s : State) : Bool :=
  match s.engine.runningSlot with
  | some r => r.action = .reloadTables
  | none => false

/-- A timer entry is due (R61). -/
def State.dueNow (s : State) (e : TimerEntry) : Bool := e.due ≤ s.clock.sec

/-- The first due entry in list order that R24 does not hold back (R61). -/
def State.nextDue (s : State) : Option TimerEntry :=
  s.timers.find? fun e => s.dueNow e && (e.kind ≠ .ajarIdle || !s.holdsBack (.idle e.unit e.due))

/-- What R181 puts ahead of taps and acceptances when a restart ends: evacuation changes, then due timers. DEDUCED,
log 36. -/
def State.resumeAhead (s : State) : Bool :=
  s.engine.resuming && (s.inputs.changes ≠ [] || s.nextDue.isSome)

/-- Evacuation is active and the mode in force is LEVEL (R28, R76, R178). -/
def State.levelEvac (s : State) : Bool := s.inputs.active && s.tables.options.evacMode = .level

/-- The pending action is examined for acceptance: the running slot is empty and the engine takes events (R150). -/
def State.examined (s : State) : Bool := s.engineOn && s.engine.runningSlot.isNone && !s.resumeAhead

/-- The pending action can be accepted: it is examined, and R24 does not hold back the record its first step would hand
over (R150). -/
def State.acceptable (s : State) (a : Action) : Bool :=
  s.examined && !(a.firstHands s && s.holdsBack .accept)

/-- The oldest tap can be taken (R27). After a tap decision the pending slot is examined in the state the decision left,
or a later event: an action that has waited behind a tap and can be accepted goes before the next tap (R27, R150).
DEDUCED, log 37. -/
def State.tapTakeable (s : State) (t : Tap) : Bool :=
  s.engineOn && !s.reloading && s.journalRoom && s.driveRoom &&
    !(s.engine.ringStalled && s.kind t.unit = .locker) && !s.resumeAhead &&
    !(s.engine.tapAhead && (s.engine.pendingSlot.any s.acceptable))

/-! ### The order in which events arrived (R24). DEDUCED, log 15 -/

/-- The locker reports that wait, in the order they were handed over: verify results and fault reports alike. -/
def State.waitingReports (s : State) : List HeldEvent :=
  ((s.engine.inbox.filterMap EngEvent.report?).filter fun u => s.kind u = .locker).map .report

/-- The AJAR_IDLE events that are due, in list order (R61). -/
def State.waitingIdles (s : State) : List HeldEvent :=
  (s.timers.filter fun e => s.dueNow e && e.kind = .ajarIdle).map fun e => .idle e.unit e.due

/-- The acceptance of the pending action, while the running slot is empty (R150). -/
def State.waitingAccept (s : State) : List HeldEvent :=
  if s.engine.runningSlot.isNone && s.engine.pendingSlot.isSome then [.accept] else []

/-- The units of the running action that stand at a stage, in list order. -/
def Running.unitsAt (r : Running) (st : Stage) : List UnitIx := (r.items.filter fun i => i.stage = st).map (·.unit)

/-- The units whose step comes next: those whose step is taken again (R153), and the next unit of a RELEASE_BAND (R156). -/
def Running.nextSteps (r : Running) : List UnitIx :=
  r.unitsAt .again ++ match r.action with
    | .releaseBand _ => (r.unitsAt .due).take 1
    | _ => []

/-- The next steps of the running action. -/
def State.waitingSteps (s : State) : List HeldEvent :=
  match s.engine.runningSlot with
  | some r => r.nextSteps.map .step
  | none => []

/-- The events that wait, of the kinds R24 may hold back but for taps. Events of one moment stand in this order. -/
def State.waiting (s : State) : List HeldEvent :=
  s.waitingReports ++ s.waitingIdles ++ s.waitingAccept ++ s.waitingSteps

/-- The events that wait, in the order they arrived: those noted before, then the others. -/
def State.arrivals (s : State) : List HeldEvent :=
  if s.engineOn then
    s.engine.arrived.filter (s.waiting.contains ·) ++ s.waiting.filter (!s.engine.arrived.contains ·)
  else s.engine.arrived

/-- What waits has arrived before the event at hand, and is noted so. -/
def State.noteArrivals (s : State) : State := { s with engine := { s.engine with arrived := s.arrivals } }

/-- The events held back, in order. Behind those held back before stand the others that wait and would hand a record over,
as they arrived; none where there is room and none of those before still waits. DESIGN CHOICE, log 63: where R61's list
order among held AJAR_IDLE events and R24's order of arrival part, at a seconds count held at 4294967295, arrival
decides. -/
def State.heldNow (s : State) : List HeldEvent :=
  if !s.engineOn || (s.journalRoom && !s.engine.held.any s.stillHeld) then s.engine.held
  else
    let before := s.engine.held.filter s.stillHeld
    before ++ s.arrivals.filter fun h => s.stillHeld h && !before.contains h

/-- Every event that R24 holds back stands in the order of those held back. -/
def State.noteHeld (s : State) : State := { s with engine := { s.engine with held := s.heldNow } }

/-- R24 holds back the running action's next step on a unit: it would hand a record over (R156). -/
def Running.stepHeld (s : State) (r : Running) (u : UnitIx) : Bool := r.stepHands s u && s.holdsBack (.step u)

/-- What a millisecond with no command brings: the clock counts, unless RESET or the supply holds it at 0. What waits
already has arrived before what falls due. DESIGN CHOICE, log 1. -/
def idle (s : State) : State :=
  if s.startUp = .held then s else { s.noteArrivals with clock := s.clock.tick }

/-! ### Store conditions -/

/-- The segment under erase (R132), if any. -/
def Port.underErase (p : Port) : Option Nat :=
  match p.erase with
  | some e => if e.phase = .retiring false then none else some e.seg
  | none => none

/-- A segment is judged protected (R145). -/
def State.guardedSeg (s : State) (seg : Nat) : Bool :=
  s.tables.options.protectedSet.getLsbD seg && !s.inputs.serviceKey

/-- No management or journal operation remains (R147, R181). -/
def State.storeSettled (s : State) : Bool :=
  s.mgmt.state ≠ .programming && s.mgmt.state ≠ .erasing && s.port.program.isNone && s.port.erase.isNone &&
    s.port.journalErase.isNone && !s.port.listErase && s.journal.write.isNone && s.journal.opening.isNone

/-! ### Output pins (R78, R88, R166, R180), computed and not held (DESIGN CHOICE, log 34) -/

/-- Some actuation of the bank is delivered and its pulse has not ended: DRIVEn is held (R78). -/
def State.driveHeld (s : State) (b : BankIx) : Bool :=
  s.drive.granted.any (fun a => a.delivered && bankOf a.unit = b) || s.drive.detached.any (·.bank = b)

/-- RSTn is held (R88, R180). -/
def State.rstHeld (s : State) (b : BankIx) : Bool :=
  s.startUp = .held || (s.bank b).state = .absent || (s.bank b).state = .resetting

/-- A pass is under way and CKn runs: neither between passes nor parked in CELL-HOLD (R88, R97). -/
def State.ckRuns (s : State) (b : BankIx) : Bool :=
  s.startUp ≠ .held &&
    match (s.bank b).activity with
    | .statusMode _ | .statusData .. | .fetchMode _ | .fetchData _ | .enumerating => true
    | _ => false

/-- CTn is high: CKn is stopped outside a pass, and the part drove CT high to enter CELL-HOLD (R88, R89). -/
def State.ctHigh (s : State) (b : BankIx) : Bool := !s.ckRuns b

/-- DOn is low between passes (R88). -/
def State.doLow (s : State) (b : BankIx) : Bool :=
  match (s.bank b).activity with
  | .idle | .reserving _ => true
  | _ => false

/-- The part drives the site line (R166). -/
def State.lineDriven (s : State) : Bool := s.line.cond = .replying

end Sys2Proof.Machine
end

