-- ==== Sys2Proof/Machine/Chain.lean ====
section
/-! DEFINITION. The chains: the node as a bus partner (5.2), its phase machine edge by edge, and the passes
(5.3) as the shifting of bits through the nodes of a chain. -/

namespace Sys2Proof.Machine

/-! ### The node (R89–R95) -/

/-- The cell length of a mode (R91). -/
def NodeMode.cellLength : NodeMode → Nat
  | .pass => 1 | .status => 12 | .tap => 40 | .ident => 24

/-- The two bits of a mode value, left digit first (R91, R182). -/
def NodeMode.bits : NodeMode → List Bool
  | .pass => [false, false] | .status => [false, true] | .tap => [true, false] | .ident => [true, true]

/-- The mode of a mode stage's contents (R91). -/
def modeOf : List Bool → NodeMode
  | [false, true] => .status
  | [true, false] => .tap
  | [true, true] => .ident
  | _ => .pass

/-- A node's state in reset and at power-up: REST, mode IDENT, PULSE 0, lamp off, TAPPEND clear, SEQ 0, BAND
and QUALITY 0 (R95). The sensors are what they are. -/
def Node.inReset (n : Node) : Node :=
  { n with phase := .rest, mode := .ident, stage := [], reg := [], band := 0, quality := 0, seq := 0,
           tapPend := false, pulse := none, pulseFrom := none, lamp := .off }

/-- The captured cell, from the DI end, by mode (R91, R182). A blank node shows all sensor fields 0. -/
def Node.captured (n : Node) : List Bool :=
  match n.mode with
  | .pass => [false]
  | .status =>
    if n.kind = 3#2 then true :: List.replicate 11 false
    else [true, n.door, n.bolt, n.pulse.isSome, n.tapPend, n.latch, n.tamper] ++ List.replicate 5 false
  | .tap => true :: (bitsOf 4 n.seq.toNat ++ bitsOf 3 n.quality.toNat ++ bitsOf 32 n.band.toNat)
  | .ident => true :: (bitsOf 2 n.kind.toNat ++ bitsOf 5 n.revision.toNat ++ bitsOf 16 n.serial.toNat)

/-- OP is applied: it starts a pulse unless one is under way (R94). A pulse length of 0 is taken as 1 and the
fourth OP code as none (R92). A blank node carries no bolt (R91). -/
def Node.applyOp (n : Node) (op len : Nat) : Node :=
  if n.kind = 3#2 then n else
  match n.pulse, op with
  | none, 1 => { n with pulse := some (.throw, max len 1) }
  | none, 2 => { n with pulse := some (.withdraw, max len 1) }
  | _, _ => n

/-- A STATUS command is applied (R92, R182): OP, pulse length, LAMP (the eighth code is off) and BEEP. -/
def Node.applyCommand (n : Node) (c : List Bool) : Node :=
  let n := n.applyOp (bitsNat (c.take 2)) (bitsNat ((c.drop 2).take 4))
  let n := { n with lamp := (lamp? (bitsNat ((c.drop 6).take 3))).getD .off }
  if (c.drop 9).head? = some true then { n with beeps := n.beeps + 1 } else n

/-- A TAP cell is applied: TAKEN clears TAPPEND when the applied SEQ equals the node's (R93). -/
def Node.applyTaken (n : Node) (c : List Bool) : Node :=
  if c.head? = some true ∧ bitsNat ((c.drop 1).take 4) = n.seq.toNat then { n with tapPend := false } else n

/-- CELL-SET: the register's contents are applied by mode, and are then lost (R92). -/
def Node.applyCell (n : Node) : Node :=
  let m :=
    match n.mode with
    | .status => n.applyCommand n.reg
    | .tap => n.applyTaken n.reg
    | _ => n
  { m with reg := [] }

/-- One rising edge of CK at a node, CT and the arriving bit given; the node and the bit it hands on toward
DI. The phase machine is R89; the shift is R90. A node that does not shift hands on 0. DESIGN CHOICE, log 26. -/
def Node.edge (n : Node) (ct d : Bool) : Node × Bool :=
  match n.phase, ct with
  | .rest, false => ({ n with phase := .entry }, false)
  | .rest, true => (n, false)
  | .entry, false => ({ n with phase := .cellTake, reg := n.captured }, false)
  | .entry, true => ({ n with phase := .modeLoad, stage := [true, false] }, false)
  | .modeLoad, false => ({ n with stage := n.stage.tail ++ [d] }, n.stage.headD false)
  | .modeLoad, true => ({ n with phase := .modeSet, mode := modeOf n.stage }, false)
  | .modeSet, _ => ({ n with phase := .rest }, false)
  | .cellTake, false => ({ n with phase := .cellMove, reg := n.reg.tail ++ [d] }, n.reg.headD false)
  | .cellMove, false => ({ n with reg := n.reg.tail ++ [d] }, n.reg.headD false)
  | .cellHold, false => ({ n with phase := .cellMove, reg := n.reg.tail ++ [d] }, n.reg.headD false)
  | .cellMove, true => ({ n with phase := .cellHold }, false)
  | .cellTake, true => ({ n.applyCell with phase := .cellSet }, false)
  | .cellHold, true => ({ n.applyCell with phase := .cellSet }, false)
  | .cellSet, _ => ({ n with phase := .rest }, false)

/-- The stall return: in any phase but REST and CELL-HOLD the node goes to REST, applies nothing and keeps its
mode (R90). -/
def Node.stall (n : Node) : Node :=
  if n.phase = .rest ∨ n.phase = .cellHold then n else { n with phase := .rest }

/-- A new read (R93). A blank node carries no reader. -/
def Node.newRead (n : Node) (band : Band) (quality : BitVec 3) : Node :=
  if n.kind = 3#2 then n else { n with band := band, quality := quality, seq := n.seq + 1, tapPend := true }

/-! ### The chain -/

/-- One edge at every node of a chain: the bit d enters position 0, and what the last node hands on goes to
DI. DESIGN CHOICE, log 26. -/
def chainEdge (ns : List Node) (ct d : Bool) : List Node × Bool :=
  match ns with
  | [] => ([], d)
  | n :: rest =>
    let r := n.edge ct d
    let q := chainEdge rest ct r.2
    (r.1 :: q.1, q.2)

/-- Edges that do not shift, CT given at each. -/
def chainEdges (ns : List Node) : List Bool → List Node
  | [] => ns
  | ct :: rest => chainEdges (chainEdge ns ct false).1 rest

/-- A bit the part sends on DO: one fixed beforehand, or the echo of the i-th bit received in this pass
(R97, R104). -/
inductive DoBit where
  | fixed (b : Bool)
  | echo (i : Nat)
  deriving DecidableEq, Repr

/-- The value of a bit to send, given the bits received so far. -/
def DoBit.value (got : List Bool) : DoBit → Bool
  | .fixed b => b
  | .echo i => got.getD i false

/-- Shifting edges with CT low, one for each bit sent; the nodes, the bits received on DI in order, and the
noise left over. -/
def shift (ns : List Node) (line : Noise) (got : List Bool) : List DoBit → List Node × List Bool × Noise
  | [] => (ns, got, line)
  | d :: rest =>
    let r := chainEdge ns false ((d.value got) != line.toNodes.headD false)
    shift r.1 ⟨line.toNodes.tail, line.toPart.tail⟩ (got ++ [r.2 != line.toPart.headD false]) rest

/-- The check pattern of a pass: the low 8 bits of the pass counter, most significant first (R96). -/
def pattern (k : Bank) : List Bool := bitsOf 8 (k.passCount.toNat % 256)

/-- Fixed bits to send. -/
def fixedBits (l : List Bool) : List DoBit := l.map .fixed

/-! ### What the part sends and how it judges (R96–R98) -/

/-- The sum L of the cell lengths of the modes set (R97). -/
def cellsLength (modes : List NodeMode) : Nat := (modes.map NodeMode.cellLength).sum

/-- The bits sent in a mode pass after the check pattern: the node nearest DI first (R96). -/
def modeBits (modes : List NodeMode) : List Bool := modes.reverse.flatMap NodeMode.bits

/-- A mode pass passed: the preset pairs alternate 1,0 and the check pattern came back (R98). -/
def modePassOk (n : Nat) (pat got : List Bool) : Bool :=
  decide (got.take (2 * n) = (List.replicate n [true, false]).flatten) && decide ((got.drop (2 * n)).take 8 = pat)

/-- The captured cells among the bits received, position 0 first: the node nearest DI comes first (R97). -/
def splitCells (modes : List NodeMode) (got : List Bool) : List (List Bool) :=
  ((modes.reverse.foldl (fun (acc : List (List Bool) × List Bool) m =>
    (acc.2.take m.cellLength :: acc.1, acc.2.drop m.cellLength)) ([], got))).1

/-- A captured cell is well marked for its mode (R98): a STATUS cell begins with 1 and ends with 0, a TAP cell
begins with 1. -/
def cellMarked (m : NodeMode) (c : List Bool) : Bool :=
  match m with
  | .status => c.head? = some true && (c.drop 11).head? = some false
  | .tap => c.head? = some true
  | _ => true

/-- A data pass passed: the check pattern came back after the first L bits and every cell is marked (R98). -/
def dataPassOk (modes : List NodeMode) (pat got : List Bool) : Bool :=
  decide ((got.drop (cellsLength modes)).take 8 = pat) &&
    (modes.zip (splitCells modes got)).all fun mc => cellMarked mc.1 mc.2

/-- The observed fields of a STATUS cell (R182). -/
def statusCell (c : List Bool) : Cell :=
  ⟨c.getD 1 false, c.getD 2 false, c.getD 3 false, c.getD 4 false, c.getD 5 false, c.getD 6 false⟩

/-- The SEQ, QUALITY and BAND of a TAP cell (R182). -/
def tapCell (c : List Bool) : BitVec 4 × Nat × Band :=
  (BitVec.ofNat 4 (bitsNat ((c.drop 1).take 4)), bitsNat ((c.drop 5).take 3), BitVec.ofNat 32 (bitsNat (c.drop 8)))

/-- The applied cell of a STATUS node (R182). -/
def commandBits (op len lamp : Nat) (beep : Bool) : List Bool :=
  bitsOf 2 op ++ bitsOf 4 len ++ bitsOf 3 lamp ++ [beep, false, false]

/-- The applied cells of a fetch pass, the node nearest DI first: TAKEN with the SEQ that node's own captured
cell brought, 35 zeros; a PASS node's single 0 (R104). `at` runs over the place of each captured cell among the
bits received. -/
def takenBits : List NodeMode → Nat → List DoBit
  | [], _ => []
  | m :: rest, i =>
    (match m with
      | .tap => [.fixed true, .echo (i + 1), .echo (i + 2), .echo (i + 3), .echo (i + 4)] ++
          List.replicate 35 (.fixed false)
      | m => List.replicate m.cellLength (.fixed false)) ++ takenBits rest (i + m.cellLength)

/-- Edges of a mode pass up to MODE-LOAD: CT low into ENTRY, high into MODE-LOAD (R89). -/
def enterMode (ns : List Node) : List Node := chainEdges ns [false, true]

/-- Edges of a data pass up to CELL-TAKE (R89). -/
def enterData (ns : List Node) : List Node := chainEdges ns [false, false]

/-- The edge from CELL-MOVE to CELL-HOLD (R89). -/
def parkData (ns : List Node) : List Node := chainEdges ns [true]

/-- A pulse that has just begun is timed from now (R94). -/
def Node.timed (n : Node) (now : Millis) : Node :=
  if n.pulse.isSome ∧ n.pulseFrom = none then { n with pulseFrom := some now } else n

/-- The node's pulse has run for its length (R94). -/
def Node.pulseOver (n : Node) (now : Millis) : Bool :=
  match n.pulse, n.pulseFrom with
  | some (_, len), some t => reached now (after t (50 * len))
  | _, _ => false

/-- PULSE returns to 0 once the applied length has passed (R94). -/
def Node.endPulse (n : Node) (now : Millis) : Node :=
  if n.pulseOver now then { n with pulse := none, pulseFrom := none } else n

/-- The edges from CELL-HOLD to CELL-SET and REST (R89), at a moment from which the pulses begun are timed. -/
def setData (now : Millis) (ns : List Node) : List Node := (chainEdges ns [true, true]).map fun n => n.timed now

/-- Edges of a mode pass after the shifting: CT high into MODE-SET, then to REST (R89). A node that missed MODE-LOAD
stands in CELL-MOVE and reaches CELL-SET by the same edges; a pulse it begins is timed from this moment (R92, R94). -/
def leaveMode (now : Millis) (ns : List Node) : List Node := setData now ns

/-- The slots of 24 bits an enumeration pass reads, sending 0: up to fuel slots, ending after the first that
begins with 0 (R108). -/
def readSlots (ns : List Node) (line : Noise) : Nat → List Node × List (List Bool)
  | 0 => (ns, [])
  | fuel + 1 =>
    let r := shift ns line [] (List.replicate 24 (.fixed false))
    if r.2.1.head? = some true then
      let q := readSlots r.1 r.2.2 fuel
      (q.1, r.2.1 :: q.2)
    else (r.1, [r.2.1])

/-- The identity of an IDENT cell (R182). -/
def identCell (c : List Bool) : Identity :=
  ⟨BitVec.ofNat 2 (bitsNat ((c.drop 1).take 2)), BitVec.ofNat 5 (bitsNat ((c.drop 3).take 5)),
    BitVec.ofNat 16 (bitsNat ((c.drop 8).take 16))⟩

/-- The node kind a unit map entry matches (R6, R108). -/
def UnitKind.nodeKind : UnitKind → BitVec 2
  | .locker => 1 | .cabin => 2 | .blank => 3 | .unused => 0

/-- The modes of a status cycle: STATUS for LOCKER and CABIN nodes, PASS for blank ones (R100). -/
def State.statusModes (s : State) (b : BankIx) : List NodeMode :=
  ((unitsOf b).take (s.tables.banks.get b).nodeCount).map fun u =>
    if s.kind u = .locker ∨ s.kind u = .cabin then .status else .pass

/-- The modes of a fetch cycle: TAP for each granted unit's node, PASS for every other (R103). -/
def State.fetchModes (s : State) (b : BankIx) (granted : List UnitIx) : List NodeMode :=
  ((unitsOf b).take (s.tables.banks.get b).nodeCount).map fun u => if granted.contains u then .tap else .pass

end Sys2Proof.Machine
end

