-- ==== Sys2Proof/Machine/Drive.lean ====
section
/-! DEFINITION. The Drive Scheduler (chapter 4): the waiting list, the grant arbiter, delivery, pulse ends,
verification, retries, and what a bank's leaving RUNNING does to its actuations. -/

namespace Sys2Proof.Machine

/-- The coil current of a bank in the working set in force, mA (R5). -/
def State.coil (s : State) (b : BankIx) : Nat := (s.tables.banks.get b).coilCurrent

/-- An actuation joins the waiting list at the tail of its class: URGENT ahead of NORMAL (R72). -/
def joinWaiting (l : List Actuation) (a : Actuation) : List Actuation :=
  match a.urgency with
  | .normal => l ++ [a]
  | .urgent => l.filter (·.urgency = .urgent) ++ [a] ++ l.filter (·.urgency = .normal)

/-- A movement as it is handed over: attempt 1, no recorded current, delivered clear, no pulse end (R72). -/
def Actuation.fresh (u : UnitIx) (op : BoltOp) (c : Urgency) : Actuation := ⟨u, op, c, 1, none, false, none⟩

/-- The deferred op that takes a freed place: URGENT first, each class in ascending unit order (R25). -/
def State.nextDeferred (s : State) : Option (UnitIx × BoltOp × Urgency) :=
  let l := allUnits.filterMap fun u => (s.unit u).deferred.map fun d => (u, d.1, d.2)
  (l.find? fun d => d.2.2 = .urgent) <|> l.head?

/-- The waiting list replaced. -/
def State.setWaiting (s : State) (l : List Actuation) : State := { s with drive := { s.drive with waiting := l } }

/-- A place has freed: one deferred op is handed over in it, and cleared from its unit (R25, R72). No
examination is made here. -/
def refill (s : State) : State :=
  match s.nextDeferred with
  | none => s
  | some (u, op, c) =>
    (s.modUnit u fun r => { r with deferred := none }).setWaiting
      (joinWaiting s.drive.waiting (Actuation.fresh u op c))

/-- A cabin THROW that LEVEL-mode evacuation withholds (R76). -/
def State.withheld (s : State) (a : Actuation) : Bool :=
  s.levelEvac && a.op = .throw && s.kind a.unit = .cabin

/-- The grant condition of R75. -/
def State.fits (s : State) (a : Actuation) : Bool :=
  s.drive.committed + s.coil (bankOf a.unit) ≤ s.tables.options.railLimit

/-- The head is granted: it leaves the waiting list, its recorded current is set and it joins the granted set
(R74, R75). -/
def grantHead (s : State) (a : Actuation) (rest : List Actuation) : State :=
  let g := { a with current := some (s.coil (bankOf a.unit)) }
  { s with drive := { s.drive with waiting := rest, granted := s.drive.granted ++ [g] } }

/-- The grant arbiter examines the head, and goes on with the next head for as long as one leaves the waiting
list (R74). None is examined while a warm restart is in progress (R85). Every pass of the loop takes the head
away, and refills come from deferred ops, so the fuel of `examine` is not used up. -/
def examineLoop : Nat → State → State
  | 0, s => s
  | fuel + 1, s =>
    if s.restart.isSome then s else
    match s.drive.waiting with
    | [] => s
    | a :: rest =>
      if (s.bank (bankOf a.unit)).state ≠ .running then
        examineLoop fuel (refill ((s.setWaiting rest).hand (.removed [a.unit] none)))
      else if s.withheld a then
        examineLoop fuel (refill ((s.setWaiting rest).hand (.displaced a.unit)))
      else if s.fits a then examineLoop fuel (grantHead s a rest)
      else s

/-- The grant arbiter's examination (R74). -/
def examine (s : State) : State := examineLoop 1200 s

/-- An actuation joins the waiting list, and the head is examined where it changes: an empty list, or a URGENT
arrival (R74). -/
def enqueue (s : State) (a : Actuation) : State :=
  let t := s.setWaiting (joinWaiting s.drive.waiting a)
  if s.drive.waiting = [] ∨ a.urgency = .urgent then examine t else t

/-- A movement is handed to the Drive Scheduler, or becomes the unit's deferred op while the Actuation Queue
holds 64 (R25, R72). -/
def handOver (s : State) (u : UnitIx) (op : BoltOp) (c : Urgency) : State :=
  if s.drive.used < Config.actuationPlaces then enqueue s (Actuation.fresh u op c)
  else s.modUnit u fun r => { r with deferred := some (op, c) }

/-- A place has freed: a deferred op takes it, and the head is examined where that changes it and at every URGENT
arrival (R25, R74). -/
def placeFreed (s : State) : State :=
  let t := refill s
  if t.drive.waiting.head? ≠ s.drive.waiting.head? ∨ s.nextDeferred.any (·.2.2 = .urgent) then examine t else t

/-- n places have freed. -/
def placesFreed : Nat → State → State
  | 0, s => s
  | n + 1, s => placesFreed n (placeFreed s)

/-- The remove request (R73) for a unit whose actuation waits, answered REMOVED: its place frees, which a deferred op takes
(R25, R72), and the head is examined (R74). -/
def removeWaiting (s : State) (u : UnitIx) : State :=
  examine (refill (s.setWaiting (s.drive.waiting.filter (·.unit ≠ u))))

/-- The class the promote request gives (R73): a waiting NORMAL actuation joins the URGENT tail, one granted or awaiting
verify changes its class alone. -/
def raised (s : State) (u : UnitIx) : State :=
  let raise (a : Actuation) : Actuation := if a.unit = u then { a with urgency := .urgent } else a
  match s.drive.waiting.find? fun a => a.unit = u with
  | some a =>
    if a.urgency = .normal then
      s.setWaiting (joinWaiting (s.drive.waiting.filter (·.unit ≠ u)) { a with urgency := .urgent })
    else s
  | none =>
    { s with drive := { s.drive with granted := s.drive.granted.map raise, awaiting := s.drive.awaiting.map raise } }

/-- The promote request (R73); a promotion in the waiting list has the head examined (R74). -/
def promote (s : State) (u : UnitIx) : State :=
  if s.drive.waiting.any fun a => a.unit = u ∧ a.urgency = .normal then examine (raised s u) else raised s u

/-- The unit's actuation is in the waiting list. -/
def State.isWaiting (s : State) (u : UnitIx) : Bool := s.drive.waiting.any (·.unit = u)

/-- The op of the unit's movement in hand, whichever condition it stands in, a deferred op and an untaken
result included. -/
def State.opInHand (s : State) (u : UnitIx) : Option BoltOp :=
  (((s.drive.waiting ++ s.drive.granted ++ s.drive.awaiting).find? fun a => a.unit = u).map (·.op)) <|>
    ((s.unit u).deferred.map (·.1)) <|>
    (s.engine.inbox.findSome? fun e =>
      match e with
      | .verified v op _ => if v = u then some op else none
      | .faulted v op _ => if v = u then some op else none
      | .displaced v => if v = u then some .throw else none
      | _ => none)

/-! ### Delivery (R77) -/

/-- An actuation whose op went out in the data pass just ended is delivered, its pulse end set from the pulse
length placed in the cell; any other is as it was (R77). -/
def Actuation.deliver (now : Millis) (ops : List (UnitIx × Nat)) (a : Actuation) : Actuation :=
  if a.delivered then a else
  match ops.find? fun o => o.1 = a.unit with
  | some o => { a with delivered := true, pulseEnd := some (after now (50 * o.2)) }
  | none => a

/-- The ops sent in a data pass of a bank are marked delivered (R77). -/
def deliverOps (s : State) (ops : List (UnitIx × Nat)) : State :=
  { s with drive := { s.drive with granted := s.drive.granted.map (Actuation.deliver s.clock.ms ops) } }

/-! ### Pulse ends (R79) -/

/-- A delivered actuation whose pulse end has come. -/
def Actuation.pulseOver (now : Millis) (a : Actuation) : Bool :=
  a.delivered && (match a.pulseEnd with | some t => reached now t | none => false)

/-- A pulse end (R79): the first delivered actuation whose pulse end has come joins the awaiting-verify set, its
current released and its pulse end kept; where there is none, the first detached pulse that has ended leaves.
The head is then examined. Nothing happens where no pulse end has come. DESIGN CHOICE, log 30. -/
def endPulse (s : State) : State :=
  match takeFirst (Actuation.pulseOver s.clock.ms) s.drive.granted with
  | some (a, rest) =>
    let w := { a with current := none }
    examine { s with drive := { s.drive with granted := rest, awaiting := s.drive.awaiting ++ [w] } }
  | none =>
    match takeFirst (fun d : Detached => reached s.clock.ms d.pulseEnd) s.drive.detached with
    | some (_, rest) => examine { s with drive := { s.drive with detached := rest } }
    | none => s

/-! ### Verification (R80–R83) -/

/-- The cell of R81: the bolt where the op sends it, and PULSE 0. -/
def BoltOp.shownBy (op : BoltOp) (c : Cell) : Bool :=
  !c.pulse && (match op with | .throw => c.bolt | .withdraw => !c.bolt)

/-- The pass meets R80 for the actuation: it began at least 100 ms after the pulse end. -/
def Actuation.settled (began : Millis) (a : Actuation) : Bool :=
  match a.pulseEnd with
  | some t => reached began (after t Config.settle)
  | none => false

/-- A failed actuation at attempt 1 or 2 as it re-enters the waiting list (R82). -/
def Actuation.retried (a : Actuation) : Actuation :=
  { a with attempt := a.attempt + 1, current := none, delivered := false, pulseEnd := none, urgency := .normal }

/-- One actuation awaiting verify is checked against its unit's new cell: verified, retried or faulted
(R81–R83). -/
def verifyOne (s : State) (a : Actuation) : State :=
  let c := s.cell a.unit
  let t := { s with drive := { s.drive with awaiting := s.drive.awaiting.filter (·.unit ≠ a.unit) } }
  if a.op.shownBy c then placeFreed (t.hand (.verified a.unit a.op c))
  else if a.attempt < Config.attempts then enqueue t a.retried
  else placeFreed (t.hand (.faulted a.unit a.op c))

/-- A status data pass of a bank that passed verifies each of its actuations that meets R80. DESIGN CHOICE, log 30:
in the order they stand in. What waits already has arrived before their reports (R24). -/
def verifyBank (s : State) (b : BankIx) (began : Millis) : State :=
  (s.drive.awaiting.filter fun a => bankOf a.unit = b && a.settled began).foldl verifyOne s.noteArrivals

/-! ### A bank leaves RUNNING (R84) -/

/-- A delivered actuation as a detached pulse (R84). -/
def Actuation.detach (a : Actuation) : Detached := ⟨bankOf a.unit, a.current.getD 0, a.pulseEnd.getD 0⟩

/-- The units of a bank that hold a deferred op. -/
def State.deferredOf (s : State) (b : BankIx) : List UnitIx :=
  (unitsOf b).filter fun u => (s.unit u).deferred.isSome

/-- A movement of the bank is queued, granted, awaiting verify or deferred. -/
def State.bankMoves (s : State) (b : BankIx) : Bool :=
  (s.drive.waiting ++ s.drive.granted ++ s.drive.awaiting).any (fun a => bankOf a.unit = b) || s.deferredOf b ≠ []

/-- What R84 does to the actuations of a bank that leaves RUNNING, or is reset or faults (R48, R161): the waiting, the
granted and undelivered, and those awaiting verify are removed, the delivered detached; each place frees, the Binding
Engine is told, and the head is examined. DESIGN CHOICE, log 64: all are removed and their currents released first, then
the freed places are refilled one by one (`placeFreed`), the head examined after each refill that changes it or brings a
URGENT actuation, and once more at the end. -/
def driveLeaves (s : State) (b : BankIx) : State :=
  let mine (a : Actuation) : Bool := bankOf a.unit = b
  let lost := s.drive.waiting.filter mine ++ s.drive.granted.filter mine ++ s.drive.awaiting.filter mine
  let t := { s with drive :=
    { waiting := s.drive.waiting.filter fun a => !mine a,
      granted := s.drive.granted.filter fun a => !mine a,
      awaiting := s.drive.awaiting.filter fun a => !mine a,
      detached := s.drive.detached ++
        (s.drive.granted.filter fun a => mine a && a.delivered).map Actuation.detach } }
  examine (placesFreed lost.length (t.hand (.removed (lost.map (·.unit)) (some b))))

end Sys2Proof.Machine
end

