-- ==== Sys2Proof/Machine/Journal.lean ====
section
/-! DEFINITION. The Journal Engine (chapter 6), the write port and its arbiter (7.2), and the ends of port
operations. -/

namespace Sys2Proof.Machine

/-- The journal state replaced. -/
def State.setJournal (s : State) (j : Journal) : State := { s with journal := j }

/-- The write port replaced. -/
def State.setPort (s : State) (p : Port) : State := { s with port := p }

/-! ### The ring (R113, R114) -/

/-- The segment after one in the ring: 16 follows 31 (R113). -/
def ringNext (seg : Nat) : Nat := if seg = 31 then 16 else seg + 1

/-- The header of a segment in use: VALID and of kind HEADER (R113). -/
def State.segHeader (s : State) (seg : Nat) : Option (BitVec 32) :=
  let x := s.store.read (seg * 128)
  if x.state = .valid then header? x.content else none

/-- The segment is in use (R113). -/
def State.segInUse (s : State) (seg : Nat) : Bool := (s.segHeader seg).isSome

/-- The segment is dirty (R113): neither BLANK nor in use. -/
def State.segDirty (s : State) (seg : Nat) : Bool := !s.segInUse seg && !s.segBlank seg

/-- The journal segments 16–31. -/
def journalSegs : List Nat := (List.range 16).map (· + 16)

/-- The VALID record of a slot that a unit record points at (R114): the unit, and whether it is a BIND. -/
def State.liveAt (s : State) (r : Ref) : Option (UnitIx × Bool) :=
  let x := s.store.read r.addr
  if x.state = .valid then
    match jrec? x.content with
    | some (.bind u _ _ _) => if (s.unit u).journalRef = some r then some (u, true) else none
    | some (.state u _) => if (s.unit u).stateRef = some r then some (u, false) else none
    | _ => none
  else none

/-- The slots of a segment from one on that hold a live record. -/
def State.liveFrom (s : State) (seg scan : Nat) : List Nat :=
  (List.range 128).filter fun i => scan ≤ i && (s.liveAt ⟨seg, i⟩).isSome

/-! ### Handing a record to the Journal Queue (R116, R121) -/

/-- The waiting record is superseded by the one handed: BIND and RELEASE supersede every BIND of the unit, a
STATE every STATE (R116). -/
def JRec.supersedes (r old : JRec) : Bool :=
  match r, old with
  | .bind u _ _ _, .bind v _ _ _ => u = v
  | .release u, .bind v _ _ _ => u = v
  | .state u _, .state v _ => u = v
  | _, _ => false

/-- The record handed voids the original of a copy under way, which sets its cancel mark (R121). -/
def JRec.cancels (r : JRec) (w : JWrite) : JWrite :=
  match w.what with
  | .copy u isBind orig c =>
    let hit := match r with
      | .bind v _ _ _ => isBind && v = u
      | .release v => isBind && v = u
      | .state v _ => !isBind && v = u
    { w with what := .copy u isBind orig (c || hit) }
  | _ => w

/-- A record is handed to the Journal Queue at the tail, marking those it supersedes void (R116). -/
def handJournal (s : State) (r : JRec) : State :=
  s.setJournal { s.journal with
    queue := (s.journal.queue.map fun q => if r.supersedes q.body then { q with void := true } else q)
      ++ [⟨r, false⟩],
    write := s.journal.write.map r.cancels }

/-! ### Opening, stalling, reclaim (R118–R120) -/

/-- The head is full: the segment after it is claimed for opening if it is BLANK, and the ring is stalled
otherwise, which is reported (R118, R119). -/
def openNext (s : State) (head : Nat) : State :=
  if s.segBlank (ringNext head) then
    s.setJournal { s.journal with opening := some (ringNext head), blanks := s.journal.blanks - 1 }
  else if s.journal.stalled then s
  else (s.setJournal { s.journal with stalled := true }).hand (.stall true)

/-- The next slot advances; a head that is now full opens the next segment or stalls (R117, R118). -/
def advanceSlot (s : State) : State :=
  let t := s.setJournal { s.journal with next := s.journal.next + 1 }
  match s.journal.head with
  | some h => if s.journal.next + 1 = 128 then openNext t h else t
  | none => t

/-- A record waiting while the journal is empty opens segment 16 first (R117, R118). -/
def openFirst (s : State) : State :=
  if s.journal.head = none ∧ s.journal.queue ≠ [] ∧ s.journal.opening = none ∧ s.journal.write = none then
    s.setJournal { s.journal with opening := some 16, blanks := s.journal.blanks - 1 }
  else s

/-- A blank count of 3 or below starts a reclaim of the tail once the engine takes events (R120, R126). -/
def startReclaim (s : State) : State :=
  if s.startUp = .running ∧ s.journal.blanks ≤ Config.reclaimAt ∧ s.journal.reclaim = .idle
      ∧ s.journal.tail.isSome then
    s.setJournal { s.journal with reclaim := .copying 1, turn := none }
  else s

/-- The slot write under way is a copy. -/
def State.copyUnderWay (s : State) : Bool :=
  match s.journal.write with
  | some w => (match w.what with | .copy .. => true | _ => false)
  | none => false

/-- The scan passes over every slot that holds no live record, up to the next that does; past slot 127 copying
ends and the erase of the tail is requested (R120, R123). The scan stands while its copy is being written.
DEDUCED, log 52: a record that stops being live before its copy's body begins is passed over. -/
def advanceScan (s : State) : State :=
  if s.copyUnderWay then s else
  match s.journal.reclaim, s.journal.tail with
  | .copying p, some t =>
    match s.liveFrom t p with
    | q :: _ => s.setJournal { s.journal with reclaim := .copying q }
    | [] =>
      (s.setJournal { s.journal with reclaim := .erasePending }).setPort { s.port with journalErase := some t }
  | _, _ => s

/-- After one more queue record, the BLANK record slots of the head and of the BLANK unclaimed segments still
cover the live records of the tail at or beyond the scan (R122). DESIGN CHOICE, log 60: the live records are those from
before the record's own effect, the BLANK segments those from before a claim it makes by filling the head. -/
def State.roomAfterRecord (s : State) (tail scan : Nat) : Bool :=
  (s.liveFrom tail scan).length ≤ (127 - s.journal.next) + 127 * s.journal.blanks

/-- The slot write the Journal Engine begins next, in the next slot of the head, with its content (R117, R121,
R122): the copy of the live record under the scan, or the record at the head of the queue. -/
def nextRecord (s : State) (head : Nat) : Option (JWrite × List Byte) :=
  let ref : Ref := ⟨head, s.journal.next⟩
  let queued := s.journal.queue.head?.map fun q => ((⟨.queued, ref, false⟩ : JWrite), q.body.bytes)
  match s.journal.reclaim, s.journal.tail with
  | .copying p, some t =>
    match s.liveAt ⟨t, p⟩ with
    | none => queued
    | some (u, isBind) =>
      let copy := some ((⟨.copy u isBind ⟨t, p⟩ false, ref, false⟩ : JWrite), (s.store.read (Ref.addr ⟨t, p⟩)).content)
      match queued with
      | none => copy
      | some r => if s.roomAfterRecord t p ∧ s.journal.turn = some .copy then some r else copy
  | _, _ => queued

/-- The slot write the Journal Engine has to begin: the header of a segment being opened, or a record or copy
into a head that is not full (R117, R118). -/
def nextWrite (s : State) : Option (JWrite × List Byte) :=
  match s.journal.opening with
  | some seg =>
    some (⟨.header, ⟨seg, 0⟩, false⟩,
      headerBytes (if s.journal.head = none then 1 else s.journal.headGen + 1))
  | none =>
    match s.journal.head with
    | some h => if s.journal.next ≤ 127 then nextRecord s h else none
    | none => none

/-! ### The write port (R131–R135) -/

/-- A program operation begins; a body program makes its slot WRITING at once (R131). -/
def beginProgram (s : State) (p : Program) : State :=
  let t := s.setPort { s.port with program := some p }
  if p.kind = .body then t.markSlot p.ref .writing else t

/-- The Journal Engine begins a slot write with its body program (R115). -/
def beginWrite (s : State) (w : JWrite) (content : List Byte) : State :=
  beginProgram (s.setJournal { s.journal with write := some w }) ⟨.journal, .body, w.ref, content⟩

/-- The erase in progress moved to a phase. -/
def State.erasePhase (s : State) (ph : ErasePhase) : State :=
  s.setPort { s.port with erase := s.port.erase.map fun e => { e with phase := ph } }

/-- The program the Journal Engine presents (R117), if the port is free for it: the valid mark of the slot
whose body has ended, or the body of the next write. -/
def State.journalWants (s : State) : Bool :=
  match s.journal.write with
  | some w => w.bodyDone
  | none => (nextWrite s).isSome

/-- A header whose program is refused: its segment is not BLANK, so that it is not opened, and behind a full head the ring
is stalled (R118, R119). DEDUCED, log 41. -/
def openRefused (s : State) : State :=
  let t := s.setJournal { s.journal with opening := none }
  if s.journal.head.isNone || s.journal.stalled then t
  else (t.setJournal { t.journal with stalled := true }).hand (.stall true)

/-- The program of a slot write is refused (R131): the slot is left as it is and the next slot advances, so that a
record is written anew in the following slot (R115). -/
def writeRefused (s : State) (w : JWrite) : State :=
  match w.what with
  | .header => openRefused s
  | _ => advanceSlot s

/-- The Journal Engine's program is carried. A body program to a slot that is not BLANK is refused (R115), and so
is a valid-mark program to a slot that is not WRITING (R131), whose record is written anew likewise. DEDUCED, log 41. -/
def carryJournal (s : State) : State :=
  match s.journal.write with
  | some w =>
    if s.slotState w.ref = .writing then beginProgram s ⟨.journal, .valid, w.ref, []⟩
    else writeRefused (s.setJournal { s.journal with write := none }) w
  | none =>
    match nextWrite s with
    | some (w, content) =>
      if s.slotState w.ref = .blank then beginWrite s w content else writeRefused s w
    | none => s

/-- The next retiring program of the segment under erase, by slot 0's state, so that the port refuses none (R131); once
slot 0 is RETIRED the erase proper begins (R132). -/
def carryRetiring (s : State) (seg : Nat) : State :=
  let ref : Ref := ⟨seg, 0⟩
  match s.slotState ref with
  | .blank => beginProgram (s.erasePhase (.retiring true)) ⟨.retiring, .body, ref, fillerBytes⟩
  | .writing => beginProgram (s.erasePhase (.retiring true)) ⟨.retiring, .valid, ref, []⟩
  | .valid => beginProgram (s.erasePhase (.retiring true)) ⟨.retiring, .retired, ref, []⟩
  | .retired => s.erasePhase .active

/-- STORE_DONE of a program: the operation and result in the code, segment and slot in the extra word (R138,
R184). -/
def postProgramDone (s : State) (r : StoreResult) (ref : Ref) : State :=
  post s .storeDone (16 + r.code) none none (ref.seg * 65536 + ref.slot)

/-- A management operation ends: the state, the last result, and the list and target emptied (R138, R140). -/
def endCommand (s : State) (st : CmdState) (r : StoreResult) : State :=
  { s with mgmt := { s.mgmt with state := st, lastResult := some r, target := none, eraseList := [],
                                 skipped := [], eraseSet := [] } }

/-- The management program of the target is carried, or refused because its slot is not in the state the program
needs, which ends the command FAILED with OVERWRITE (R131, R138). DEDUCED, log 41: also at a refused valid mark. -/
def carryManagement (s : State) (t : Target) : State :=
  if t.bodyDone ∧ s.slotState t.ref = .writing then beginProgram s ⟨.management, .valid, t.ref, []⟩
  else if ¬t.bodyDone ∧ s.slotState t.ref = .blank then beginProgram s ⟨.management, .body, t.ref, t.content⟩
  else postProgramDone (endCommand s .failed .overwrite) .overwrite t.ref

/-- The management program requested (R138): none while the target is protected. -/
def State.wantsProgram (s : State) : Option Target :=
  if s.mgmt.state = .programming then s.mgmt.target.filter fun t => !t.guarded else none

/-- One choice of the arbiter (R133), and whether there is a further choice to make at the same moment. -/
def arbitrateOnce (s : State) : State × Bool :=
  if s.port.program.isSome then (s, false)
  else if s.journalWants then
    match s.port.erase with
    | some ⟨_, _, .active⟩ => (s.erasePhase .suspending, false)
    | some ⟨_, _, .suspending⟩ => (s, false)
    | _ => (carryJournal s, true)
  else
    match s.port.erase with
    | some e =>
      match e.phase with
      | .retiring _ => (carryRetiring s e.seg, true)
      | .suspended => (s.erasePhase .active, false)
      | _ => (s, false)
    | none =>
      match s.wantsProgram with
      | some t => (carryManagement s t, true)
      | none =>
        match s.port.journalErase with
        | some seg =>
          (s.setPort { s.port with journalErase := none, erase := some ⟨true, seg, .retiring false⟩ }, true)
        | none =>
          if s.port.listErase then
            match s.mgmt.eraseList with
            | seg :: _ =>
              (s.setPort { s.port with listErase := false, erase := some ⟨false, seg, .retiring false⟩ }, true)
            | [] => (s, false)
          else (s, false)

/-- The arbiter chooses until the port carries a program, an erase proper is active or being suspended, or
nothing is requested. Only refused journal programs, at most one for each slot of a head, make it choose more
than a few times. -/
def arbitrateLoop : Nat → State → State
  | 0, s => s
  | fuel + 1, s =>
    let r := arbitrateOnce s
    if r.2 then arbitrateLoop fuel r.1 else r.1

/-- What follows at once from the state of the Journal Engine and the port: opening the first segment, starting
a reclaim, the scan, and the arbiter's choice (R118, R120, R133). -/
def pump (s : State) : State := arbitrateLoop 300 (advanceScan (startReclaim (openFirst s)))

/-! ### Ends of programs (R115–R118, R121, R131) -/

/-- The write of the slot is over: the next slot advances, with the kind last written for the turns of R122. -/
def writeOver (s : State) (turn : Turn) : State :=
  advanceSlot (s.setJournal { s.journal with write := none, turn := some turn })

/-- The scan moves on past a slot copied or withheld (R120). -/
def scanOn (s : State) : State :=
  match s.journal.reclaim with
  | .copying p => s.setJournal { s.journal with reclaim := .copying (p + 1) }
  | _ => s

/-- The unit's ref that a copy moves names the original (R121). -/
def State.refNames (s : State) (u : UnitIx) (isBind : Bool) (r : Ref) : Bool :=
  if isBind then (s.unit u).journalRef = some r else (s.unit u).stateRef = some r

/-- The end of a journal body program: the valid mark is presented next, or withheld for a copy whose cancel
mark is set (R121). DESIGN CHOICE, log 51: a withheld copy counts as the write made last (R122). -/
def journalBodyEnd (s : State) : State :=
  match s.journal.write with
  | some w =>
    match w.what with
    | .copy u isBind orig cancel =>
      if cancel || !s.refNames u isBind orig then scanOn (writeOver s .copy)
      else s.setJournal { s.journal with write := some { w with bodyDone := true } }
    | _ => s.setJournal { s.journal with write := some { w with bodyDone := true } }
  | none => s

/-- A record's valid mark sets the ref it sets, unless the record is void (R117). DEDUCED, log 53: also of a unit whose
kind a load has changed since. -/
def setRef (s : State) (q : QRec) (ref : Ref) : State :=
  if q.void then s else
  match q.body with
  | .bind u _ _ _ => s.modUnit u fun r => { r with journalRef := some ref }
  | .release _ => s
  | .state _ .returned => s
  | .state u _ => s.modUnit u fun r => { r with stateRef := some ref }

/-- The unit's ref moves from the original to the copy, unless an event since has cancelled it (R121). DEDUCED, log 50: a
record that supersedes it during the valid-mark program leaves the ref as that record left it. -/
def moveRef (s : State) (u : UnitIx) (isBind : Bool) (orig ref : Ref) (cancel : Bool) : State :=
  if cancel || !s.refNames u isBind orig then s
  else if isBind then s.modUnit u fun r => { r with journalRef := some ref }
  else s.modUnit u fun r => { r with stateRef := some ref }

/-- The header's valid mark: the opened segment becomes the head with the new generation and next slot 1, and a
stalled ring is released with a report (R118, R119). -/
def headerValid (s : State) (seg : Nat) : State :=
  let j := s.journal
  let t := s.setJournal { j with
    head := some seg, next := 1, headGen := if j.head = none then 1 else j.headGen + 1,
    tail := some (j.tail.getD seg), opening := none, write := none, stalled := false }
  if j.stalled then t.hand (.stall false) else t

/-- The end of a journal valid-mark program (R117, R118, R121). Where the record written leaves a queue without the room of
R24, what waits for that room takes its place first. -/
def journalValidEnd (s : State) : State :=
  match s.journal.write with
  | some w =>
    match w.what with
    | .queued =>
      match s.journal.queue with
      | q :: rest =>
        let t := if s.journalRoom then s else s.noteHeld
        writeOver ((setRef t q w.ref).setJournal { s.journal with queue := rest }) .record
      | [] => writeOver s .record
    | .copy u isBind orig cancel => scanOn (writeOver (moveRef s u isBind orig w.ref cancel) .copy)
    | .header => headerValid s w.ref.seg
  | none => s

/-- The port's program is over. -/
def State.portFree (s : State) : State := s.setPort { s.port with program := none }

/-- A body program ends: the content stands in the slot (R131), and its owner goes on. -/
def endBody (s : State) (p : Program) : State :=
  let t := s.portFree.setSlot p.ref ⟨.writing, p.content⟩
  match p.owner with
  | .journal => journalBodyEnd t
  | .management =>
    { t with mgmt := { t.mgmt with target := t.mgmt.target.map fun x => { x with bodyDone := true } } }
  | .retiring => t

/-- A valid-mark program ends: the slot is VALID (R131), and its owner goes on. A management program ends with
STORE_DONE OK, and a load under way passes its slot over (R138). DEDUCED, log 41. -/
def endValid (s : State) (p : Program) : State :=
  let t := s.portFree.markSlot p.ref .valid
  match p.owner with
  | .journal => journalValidEnd t
  | .management => postProgramDone (endCommand (t.programmedLate p.ref) .ready .ok) .ok p.ref
  | .retiring => t

/-- A retired-mark program ends: the slot is RETIRED (R131). -/
def endRetired (s : State) (p : Program) : State := s.portFree.markSlot p.ref .retired

/-! ### Ends of erases (R123, R124, R132, R140) -/

/-- The next segment around the ring that is in use (R123). -/
def State.nextInUse (s : State) (seg : Nat) : Option Nat :=
  ((List.range 16).map fun i => 16 + (seg - 16 + 1 + i) % 16).find? s.segInUse

/-- A journal erase has completed while the part runs: one more BLANK segment, the tail moves on, the reclaim
ends, and a ring stalled for this segment opens it (R123). -/
def reclaimDone (s : State) (seg : Nat) : State :=
  let t := s.setJournal { s.journal with blanks := s.journal.blanks + 1, tail := s.nextInUse seg, reclaim := .idle }
  match t.journal.head with
  | some h => if t.journal.stalled ∧ t.journal.opening = none then openNext t h else t
  | none => t

/-- The first dirty journal segment is requested to be erased, as replay does at cold start (R124). -/
def requestReplayErase (s : State) : State :=
  s.setPort { s.port with journalErase := journalSegs.find? s.segDirty }

/-- Segments as a set: bit g for segment g. -/
def segSet (l : List Nat) : Nat := (l.map fun g => 2 ^ g).sum

/-- STORE_DONE of an erase: the segments erased in the high half of the extra word, those skipped in the low
half (R140, R184). -/
def postEraseDone (s : State) (r : StoreResult) (erased skipped : List Nat) : State :=
  post s .storeDone (32 + r.code) none none (segSet erased * 65536 + segSet skipped)

/-- A segment of a management erase list has completed: it leaves the list, and the next begins at once as part
of the same list; after the last, STORE_DONE (R140). -/
def listErased (s : State) (seg : Nat) : State :=
  let left := s.mgmt.eraseList.filter (· ≠ seg)
  match left with
  | next :: _ =>
    { s with mgmt := { s.mgmt with eraseList := left },
             port := { s.port with erase := some ⟨false, next, .retiring false⟩ } }
  | [] =>
    let r : StoreResult := if s.mgmt.skipped = [] then .ok else .partlyProtect
    postEraseDone (endCommand s .ready r) r s.mgmt.eraseSet s.mgmt.skipped

/-- An erase proper completes: every slot of the segment is BLANK (R132), and its owner goes on. -/
def endErase (s : State) (e : Erase) : State :=
  let t := { s with store := s.store.eraseSegment e.seg, port := { s.port with erase := none } }
  if e.journal then
    if s.startUp = .running then reclaimDone t e.seg else requestReplayErase t
  else listErased t e.seg

end Sys2Proof.Machine
end

