-- ==== Sys2Proof/Machine/Units.lean ====
section
/-! DEFINITION. Units and holdings (chapters 2 and 3): band identification, entering states, releases, the
cabin allowance and times, verified movements, reconcile, and the evacuation of one cabin. -/

namespace Sys2Proof.Machine

/-! ### Band identification (R11) -/

/-- The identity of a band. -/
inductive Ident where
  | blocked
  | master
  | cls (c : ClassIx)
  | unknown
  deriving DecidableEq, Repr

/-- The identity the lookup of R11 finds: overlay, block list, master list, first matching permit range. -/
def identify (s : State) (b : Band) : Ident :=
  if s.engine.overlay.contains b then .blocked
  else if s.tables.blocks.contains b then .blocked
  else if s.tables.masters.contains b then .master
  else
    match s.tables.permits.find? fun p => p.low.toNat ≤ b.toNat ∧ b.toNat ≤ p.high.toNat with
    | some p => .cls p.cls
    | none => .unknown

/-- The class record in force of a class (R3). -/
def State.cls (s : State) (c : ClassIx) : ClassRec := s.tables.classes.get c

/-- The class written in a band's entry (R22). -/
def State.bandClass (s : State) (b : Band) : ClassIx := ((bandEntry s.bands b).map (·.cls)).getD 0

/-- How many units of a kind a band holds (R22). -/
def State.heldOf (s : State) (b : Band) (k : UnitKind) : Nat :=
  ((heldBy s.bands b).filter fun u => s.kind u = k).length

/-! ### States and lamps (R20, R50) -/

/-- The steady lamp set on entry to a state (R50); a BLANK or UNUSED unit's lamp is off (R19). -/
def steadyLamp (k : UnitKind) : UState → Lamp
  | .free => if k = .cabin then .green else .off
  | .ajar => .amber
  | .expired => .redFlash
  | .serviceOpen => .amberFlash
  | .evacOpen => .greenFlash
  | .forced => .redFlash
  | .outOfService => .red
  | .fault => .red
  | _ => .off

/-- The states that have no holder (R20). -/
def UState.holderless : UState → Bool
  | .free | .vacating | .closing | .evacOpen | .outOfService => true
  | _ => false

/-- The transitional states (R20). -/
def UState.transitional : UState → Bool
  | .locking | .unlocking | .admitting | .closing => true
  | _ => false

/-- The movement toward the bolt a state expects, none where the state expects none (R20). -/
def expectedOp (k : UnitKind) : UState → Option BoltOp
  | .free => some (if k = .cabin then .throw else .withdraw)
  | .locking | .held | .closing => some .throw
  | .unlocking | .ajar | .serviceOpen | .admitting | .inUse | .expired | .vacating | .evacOpen => some .withdraw
  | .forced | .outOfService | .fault => none

/-- A unit enters a state, its steady lamp set (R50). -/
def enter (s : State) (u : UnitIx) (st : UState) : State :=
  s.modUnit u fun r => { r with state := st, lamp := { r.lamp with steady := steadyLamp (s.kind u) st } }

/-- The steady lamp changed while the state lasts (R50). -/
def steady (s : State) (u : UnitIx) (l : Lamp) : State :=
  s.modUnit u fun r => { r with lamp := { r.lamp with steady := l } }

/-- A transient lamp for a number of milliseconds, replacing the one present (R50). -/
def transient (s : State) (u : UnitIx) (l : Lamp) (ms : Nat) : State :=
  s.modUnit u fun r => { r with lamp := { r.lamp with transient := some (l, after s.clock.ms ms) } }

/-- The beep request is set (R51), anew even where one has been sent in the pass under way (R100). -/
def beep (s : State) (u : UnitIx) : State :=
  s.modUnit u fun r => { r with lamp := { r.lamp with beep := true, beepSent := false } }

/-- The purpose of a withdraw under way (R19). -/
def setPurpose (s : State) (u : UnitIx) (p : Option Purpose) : State := s.modUnit u fun r => { r with purpose := p }

/-! ### Holders (R20, R21) -/

/-- The holder is cleared: the unit leaves its band's held list, and the cabin times kept are removed (R20,
R21, R58). -/
def clearHolder (s : State) (u : UnitIx) : State :=
  let r := s.unit u
  let t := match r.holder with
    | some b => { s with bands := unbindUnit s.bands b u }
    | none => s
  t.setUnit u { r with holder := none, allowance := none, expiry := none, warningAt := none, graceEnd := none }

/-- The holder is set at a bind decision, with bound_at now and restored, latch_seen and overstay cleared; the
unit joins the band's held list (R32, R43). -/
def setHolder (s : State) (u : UnitIx) (b : Band) (c : ClassIx) : State :=
  let t := { s with bands := bindUnit s.bands b u c s.clock.sec }
  t.modUnit u fun r =>
    { r with holder := some b, boundAt := s.clock.sec, restored := false, latchSeen := false, overstay := false }

/-- RELEASED: the reason, the unit, the former holder, and the holding's bound_at (R172). -/
def postReleased (s : State) (u : UnitIx) (why : Reason) (b : Option Band) (boundAt : Nat) : State :=
  post s .released why.code (some u) b boundAt

/-- A locker's holding ends in FREE: the effects of RELEASE in R36. -/
def releaseLocker (s : State) (u : UnitIx) (why : Reason) : State :=
  let r := s.unit u
  let t := enter (clearHolder s u) u .free
  let t := t.modUnit u fun r => { r with purpose := none, journalRef := none }
  postReleased (handJournal t (.release u)) u why r.holder r.boundAt

/-- A locker leaves FAULT or OUT_OF_SERVICE: STATE RETURN is handed over where state_ref is present or a STATE
record waits without its void mark, and state_ref becomes absent (R39). -/
def handReturn (s : State) (u : UnitIx) : State :=
  if s.returnHands u then
    handJournal (s.modUnit u fun r => { r with stateRef := none }) (.state u .returned)
  else s

/-! ### Closing a cabin, with the replacement of R178 -/

/-- A rule hands a cabin a THROW: CLOSING with a NORMAL THROW; or, while LEVEL-mode evacuation holds, EVAC_OPEN
with a URGENT WITHDRAW where the last observed BOLT is 1 (R178). -/
def closeCabin (s : State) (u : UnitIx) : State :=
  if s.levelEvac then
    if (s.cell u).bolt then handOver (enter s u .evacOpen) u .withdraw .urgent else enter s u .evacOpen
  else handOver (enter s u .closing) u .throw .normal

/-- As closeCabin, for an action's step on a suspended cabin: no movement is handed over (R153). -/
def closeSilently (s : State) (u : UnitIx) : State :=
  if s.levelEvac then enter s u .evacOpen else enter s u .closing

/-- The holder release of a cabin in IN_USE or EXPIRED (R45): with a movement in hand, or its last cell not shut
and unlatched, it goes to VACATING; otherwise it closes. A silent release hands over no movement (R153). -/
def releaseCabin (s : State) (u : UnitIx) (why : Reason) (silent : Bool) : State :=
  let r := s.unit u
  let c := s.cell u
  let t := (clearHolder s u).noTimer u
  let t := t.modUnit u fun r => { r with latchSeen := false, overstay := false }
  let t := postReleased t u why r.holder r.boundAt
  if !s.inHand u && c.door && !c.latch then
    if silent then closeSilently t u else closeCabin t u
  else enter t u .vacating

/-! ### The cabin allowance and times (R55–R58) -/

/-- The occupancy of a zone, counted now (R55). -/
def State.occupancy (s : State) (z : ZoneIx) : Nat :=
  (s.cabins.filter fun u => s.zone u = z ∧
    ((s.unit u).state = .admitting ∨ (s.unit u).state = .inUse ∨ (s.unit u).state = .expired)).length

/-- The allowance in minutes (R57). -/
def allowanceOf (base floor cabins threshold occupied : Nat) : Nat :=
  if occupied ≤ threshold then base
  else base - ((base - floor) * (occupied - threshold)) / (cabins - threshold)

/-- The warning time of an expiry: E − W, where W is at least 1 and E − W is later than now (R58, R68). -/
def warningTime (expiry lead now : Nat) : Option Nat :=
  if 1 ≤ lead ∧ now + lead < expiry then some (expiry - lead) else none

/-- The cabin's times set from an expiry: the warning time, the grace end, and the timer entry (R58, R68). -/
def setTimes (s : State) (u : UnitIx) (expiry : Nat) : State :=
  let z := s.tables.zones.get (s.zone u)
  let w := warningTime expiry z.warningLead s.clock.sec
  let t := s.modUnit u fun r =>
    { r with expiry := some expiry, warningAt := w, graceEnd := some (clampSec (expiry + z.grace)) }
  match w with
  | some d => t.withTimer u .warning d
  | none => t.withTimer u .expiry expiry

/-- Admission at the verified WITHDRAW of an ADMITTING cabin: IN_USE, with the allowance and times (R44, R56,
R58). -/
def admitCabin (s : State) (u : UnitIx) : State :=
  let r := s.unit u
  let c := s.cls (s.bandClass (r.holder.getD 0))
  let z := s.tables.zones.get (s.zone u)
  let a := allowanceOf c.base c.floor z.cabins z.threshold (s.occupancy (s.zone u))
  let e := min (clampSec (s.clock.sec + 60 * a)) (clampSec (r.boundAt + Config.cabinCap))
  setTimes ((enter s u .inUse).modUnit u fun r => { r with allowance := some a }) u e

/-! ### Verified movements (R35, R36, R44, R46) -/

/-- A verified movement of a locker (R35, R36). -/
def verifiedLocker (s : State) (u : UnitIx) (op : BoltOp) (door : Bool) : State :=
  let r := s.unit u
  match op, r.state with
  | .throw, .locking =>
    if door then enter s u .held
    else
      let t := setPurpose (enter s u .unlocking) u (some (.release .doorOpen))
      beep (transient (handOver t u .withdraw .normal) u .red 2000) u
  | .withdraw, .unlocking =>
    match r.purpose with
    | some (.release why) => releaseLocker s u why
    | some .keep =>
      let idle := (s.cls (s.bandClass (r.holder.getD 0))).ajarIdle
      (setPurpose (enter s u .ajar) u none).withTimer u .ajarIdle (clampSec (s.clock.sec + idle))
    | some .service => setPurpose (enter s u .serviceOpen) u none
    | none => s
  | _, _ => s

/-- A verified movement of a cabin (R44, R46). -/
def verifiedCabin (s : State) (u : UnitIx) (op : BoltOp) (door : Bool) : State :=
  match op, (s.unit u).state with
  | .withdraw, .admitting => admitCabin s u
  | .throw, .closing => if door then enter s u .free else handOver (enter s u .vacating) u .withdraw .normal
  | .throw, .free => if door then enter s u .free else handOver (enter s u .vacating) u .withdraw .normal
  | _, _ => s

/-- A verified movement (R81). -/
def verifiedUnit (s : State) (u : UnitIx) (op : BoltOp) (door : Bool) : State :=
  match s.kind u with
  | .locker => verifiedLocker s u op door
  | .cabin => verifiedCabin s u op door
  | _ => s

/-! ### Forced lockers (R37) -/

/-- A HELD locker seen with its door open becomes FORCED, and DOOR_FORCED is posted (R37). -/
def forceOpen (s : State) (u : UnitIx) : State :=
  post (enter s u .forced) .doorForced 0 (some u) (s.unit u).holder 0

/-! ### Reconcile (R49) -/

/-- A fresh movement of reconcile: a cabin THROW is subject to R178, and a WITHDRAW re-derived for an EVAC_OPEN
cabin while evacuation is active is URGENT (R178). -/
def rederive (s : State) (u : UnitIx) (op : BoltOp) (bolt : Bool) : State :=
  if op = .throw ∧ s.kind u = .cabin ∧ s.levelEvac then
    if bolt then handOver (enter s u .evacOpen) u .withdraw .urgent else enter s u .evacOpen
  else if op = .withdraw ∧ (s.unit u).state = .evacOpen ∧ s.inputs.active then handOver s u .withdraw .urgent
  else handOver s u op .normal

/-- The comparison of a unit in a standing state against a cell (R49). -/
def compareUnit (s : State) (u : UnitIx) (c : Cell) : State :=
  match s.kind u, (s.unit u).state with
  | .locker, .free => if c.bolt then rederive s u .withdraw c.bolt else s
  | .locker, .held =>
    if !c.door then forceOpen s u
    else if c.bolt then s
    else rederive (enter s u .locking) u .throw c.bolt
  | .locker, .ajar => if c.bolt then rederive s u .withdraw c.bolt else s
  | .locker, .serviceOpen => if c.bolt then rederive s u .withdraw c.bolt else s
  | .cabin, .free => if c.bolt ∧ !s.levelEvac then s else rederive s u .throw c.bolt
  | .cabin, .inUse => if c.bolt then rederive s u .withdraw c.bolt else s
  | .cabin, .expired => if c.bolt then rederive s u .withdraw c.bolt else s
  | .cabin, .vacating => if c.bolt then rederive s u .withdraw c.bolt else s
  | .cabin, .serviceOpen => if c.bolt then rederive s u .withdraw c.bolt else s
  | .cabin, .evacOpen => if c.bolt then rederive s u .withdraw c.bolt else s
  | _, _ => s

/-- A unit reconciled against a cell (R49): passed by with a movement in hand; re-derived toward its expected
bolt when transitional or suspended, the movement taken as just verified where the bolt already matches; else
compared by its state. The suspended mark is cleared. A FREE cabin under LEVEL-mode evacuation is compared
(R178). DESIGN CHOICE, log 65: a suspended unit with a movement in hand is passed by with its mark kept. -/
def reconcileUnit (s : State) (u : UnitIx) (c : Cell) : State :=
  if s.inHand u then s else
  let r := s.unit u
  let t := s.modUnit u fun r => { r with suspended := false }
  if !r.state.transitional && !r.suspended then compareUnit t u c
  else
    match expectedOp (s.kind u) r.state with
    | none => compareUnit t u c
    | some op =>
      if s.kind u = .cabin ∧ r.state = .free ∧ s.levelEvac then compareUnit t u c
      else if c.bolt = (op = .throw) then verifiedUnit t u op c.door
      else rederive t u op c.bolt

/-- Reconciling the unit would hand over a RELEASE record (R36): an UNLOCKING locker with purpose RELEASE whose
bolt already shows withdrawn. -/
def State.reconcileHands (s : State) (u : UnitIx) (c : Cell) : Bool :=
  !s.inHand u && s.kind u = .locker && (s.unit u).state = .unlocking && !c.bolt &&
    (match (s.unit u).purpose with | some (.release _) => true | _ => false)

/-- A unit is returned to service (R49, R159): FREE without a holder, HELD for a locker with one, VACATING for a
cabin with one, which loses it with reason FAULT; then compared with its last observed cell if its bank is
RUNNING. -/
def returnUnit (s : State) (u : UnitIx) : State :=
  let r := s.unit u
  let t := handReturn (s.modUnit u fun r => { r with suspended := false }) u
  let t :=
    if r.holder.isNone then enter t u .free
    else if s.kind u = .locker then enter t u .held
    else postReleased (enter (clearHolder t u) u .vacating) u .fault r.holder r.boundAt
  if (s.bank (bankOf u)).state = .running ∧ !s.inHand u then compareUnit t u (s.cell u) else t

/-! ### Watches of the running action (R153) -/

/-- How a movement left (R153, R177). -/
inductive Leave where
  | verify | fault | removal | displaced
  deriving DecidableEq, Repr

/-- Where a watched unit stands once its movement has left (R153). -/
def Stage.left (how : Leave) : Stage → Stage
  | .watchHanded =>
    match how with
    | .verify => .outcome .ok
    | .fault => .outcome .fault
    | .removal => .outcome .suspended
    | .displaced => .again
  | .watchFinish => .again
  | st => st

/-- The unit is watched by the running action for a movement it handed. -/
def Running.watches (r : Running) (u : UnitIx) : Bool := r.items.any fun i => i.unit = u ∧ i.stage = .watchHanded

/-- The running slot's progress replaced. -/
def State.setRunning (s : State) (r : Option Running) : State := { s with engine := { s.engine with runningSlot := r } }

/-- A movement of a unit has left: the running action's watch on it ends (R153). A holder the watched movement
cleared is counted (R156). -/
def movementLeft (s : State) (u : UnitIx) (how : Leave) (cleared : Bool) : State :=
  match s.engine.runningSlot with
  | none => s
  | some r =>
    s.setRunning (some { r with
      items := r.items.map fun i => if i.unit = u then { i with stage := i.stage.left how } else i,
      count := if cleared && r.watches u then r.count + 1 else r.count })

/-! ### Evacuation of one cabin (R175–R179) -/

/-- The follow-up list replaced. -/
def State.setFollow (s : State) (l : List (UnitIx × Follow)) : State := { s with engine := { s.engine with follow := l } }

/-- An entry joins the follow-up list in ascending unit order, one for each cabin (R175). -/
def insertFollow (l : List (UnitIx × Follow)) (u : UnitIx) (f : Follow) : List (UnitIx × Follow) :=
  match l with
  | [] => [(u, f)]
  | x :: rest =>
    if x.1.1 < u.1 then x :: insertFollow rest u f
    else if x.1 = u then (u, f) :: rest
    else (u, f) :: x :: rest

/-- The entry of a cabin that has left the Drive Scheduler is removed and acted on (R177). -/
def followUp (s : State) (u : UnitIx) (how : Leave) : State :=
  match s.engine.follow.find? fun e => e.1 = u with
  | none => s
  | some (_, f) =>
    let t := s.setFollow (s.engine.follow.filter fun e => e.1 ≠ u)
    match f, how with
    | .toOpen, .verify =>
      match (t.unit u).state with
      | .free => handOver (enter t u .evacOpen) u .withdraw .urgent
      | .vacating =>
        match (t.unit u).deferred with
        | some (op, _) => t.modUnit u fun r => { r with deferred := some (op, .urgent) }
        | none => promote t u
      | _ => t
    | .toOpen, .removal => enter t u .evacOpen
    | .toClose, .verify =>
      if (t.unit u).state = .evacOpen then handOver (enter t u .closing) u .throw .normal else t
    | .toClose, .removal => enter t u .closing
    | _, _ => t

/-- A waiting movement, or a deferred op, of a cabin that evacuation reverses (R176, R179): a THROW of a FREE or
CLOSING cabin at a start, a WITHDRAW of an EVAC_OPEN cabin at an end. -/
def State.reversible (s : State) (op : BoltOp) (u : UnitIx) : Bool :=
  let r := s.unit u
  (match op with
    | .throw => r.state = .free || r.state = .closing
    | .withdraw => r.state = .evacOpen) &&
  ((s.isWaiting u && s.opInHand u = some op) || (match r.deferred with | some d => d.1 = op | none => false))

/-- It is taken away at the engine's request: the remove request of R73 (answer REMOVED), or the deferred op
cleared (R25), and its follow-up entry with it (R177). The unit is not marked suspended. DEDUCED, log 38. -/
def takeAway (op : BoltOp) (s : State) (u : UnitIx) : State :=
  if s.reversible op u then
    let t := s.modUnit u fun r => { r with deferred := none }
    let t := t.setFollow (t.engine.follow.filter fun e => e.1 ≠ u)
    let t := if t.isWaiting u then removeWaiting t u else t
    movementLeft t u .displaced false
  else s

/-- What an evacuation start does to one cabin, counting the cabins put into EVAC_OPEN and the withdraws promoted
(R176): a waiting or deferred throw is taken away first. DEDUCED, log 20. -/
def evacuateCabin (acc : State × Nat) (u : UnitIx) : State × Nat :=
  let s := takeAway .throw acc.1 u
  let r := s.unit u
  match r.state with
  | .free | .closing =>
    match s.opInHand u with
    | some .throw => (s.setFollow (insertFollow s.engine.follow u .toOpen), acc.2)
    | some .withdraw =>
      let t := (enter s u .evacOpen).modUnit u fun r => { r with deferred := r.deferred.map fun d => (d.1, .urgent) }
      (promote t u, acc.2 + 1)
    | none =>
      if s.reported u then (s.setFollow (insertFollow s.engine.follow u .toOpen), acc.2)
      else if r.suspended then (enter s u .evacOpen, acc.2 + 1)
      else (handOver (enter s u .evacOpen) u .withdraw .urgent, acc.2 + 1)
  | .admitting =>
    match r.deferred with
    | some (op, _) => (s.modUnit u fun r => { r with deferred := some (op, .urgent) }, acc.2 + 1)
    | none => if s.actuating u then (promote s u, acc.2 + 1) else (s, acc.2)
  | _ => (s, acc.2)

/-- What the end of a LEVEL-mode evacuation does to one cabin in EVAC_OPEN, counting those put into CLOSING (R179): a
waiting or deferred withdraw is taken away first. -/
def relockCabin (acc : State × Nat) (u : UnitIx) : State × Nat :=
  let s := takeAway .withdraw acc.1 u
  let r := s.unit u
  if r.state ≠ .evacOpen then (s, acc.2)
  else if s.inHand u then (s.setFollow (insertFollow s.engine.follow u .toClose), acc.2)
  else if r.suspended then (enter s u .closing, acc.2 + 1)
  else (handOver (enter s u .closing) u .throw .normal, acc.2 + 1)

end Sys2Proof.Machine
end

