-- ==== Sys2Proof/Machine/Banks.lean ====
section
/-! DEFINITION. The Bank Chain Controllers and the Tap Queue (chapter 5): status and fetch cycles, the filter,
enumeration, the bank states, and what happens at a node. -/

namespace Sys2Proof.Machine

/-- The bank record in force (R5). -/
def State.bankRec (s : State) (b : BankIx) : BankRec := s.tables.banks.get b

/-- The activity of a bank's chain replaced. -/
def State.setActivity (s : State) (b : BankIx) (a : Activity) : State := s.modBank b fun k => { k with activity := a }

/-- The failure count replaced (R98). -/
def State.setFailures (s : State) (b : BankIx) (n : Nat) : State := s.modBank b fun k => { k with failures := n }

/-! ### Beginning passes (R96, R97) -/

/-- A mode pass begins: the pass counter advances and the chain is taken to MODE-LOAD (R96). -/
def beginMode (s : State) (b : BankIx) (a : Activity) : State :=
  let t := s.modBank b fun k => { k with passCount := k.passCount + 1, activity := a }
  t.setChain b (enterMode (t.chain b))

/-- A data pass begins: the pass counter advances and the chain is taken to CELL-TAKE (R96, R97). -/
def beginData (s : State) (b : BankIx) (a : Activity) : State :=
  let t := s.modBank b fun k => { k with passCount := k.passCount + 1, activity := a }
  t.setChain b (enterData (t.chain b))

/-- A status cycle with the given due time begins with its mode pass (R99, R100). -/
def beginStatus (s : State) (b : BankIx) (due : Millis) : State :=
  beginMode (s.modBank b fun k => { k with cycleBegun := due }) b (.statusMode (s.statusModes b))

/-- The chain is free: a status cycle owed begins at once (R99), unless a warm restart is in progress (R111). -/
def chainFree (s : State) (b : BankIx) : State :=
  let t := s.setActivity b .idle
  match (s.bank b).owed with
  | some due =>
    if s.restart.isSome then t else beginStatus (t.modBank b fun k => { k with owed := none }) b due
  | none => t

/-- The due time of a bank's next status cycle has come (R99): the cycle begins, or is owed while the chain is
busy, one at most; the next due time stays on the grid. No pass begins during a warm restart (R111). -/
def statusDue (s : State) (b : BankIx) : State :=
  let k := s.bank b
  if k.state = .running ∧ s.restart = none ∧ reached s.clock.ms k.cycleDue then
    let t := s.modBank b fun k => { k with cycleDue := after k.cycleDue (s.bankRec b).sweep }
    if k.activity = .idle then beginStatus t b k.cycleDue
    else t.modBank b fun k' => { k' with owed := some (k.owed.getD k.cycleDue) }
  else s

/-! ### Bank states (R106–R111) -/

/-- The units of a bank mapped over in a table of units. -/
def onBank {α : Type} (v : Vector α 512) (b : BankIx) (f : Position → α → α) : Vector α 512 :=
  tabulate 512 fun u => if bankOf u = b then f (posOf u) (v.get u) else v.get u

/-- A controller leaves RUNNING for a state: the pass is cut off, reservations are released, and a status cycle
owed is dropped (R109). DEDUCED, log 22: so is an outstanding reservation request. -/
def Bank.leave (k : Bank) (st : BankState) : Bank :=
  { k with state := st, activity := .idle, owed := none, release := k.release + k.granted.length, granted := [] }

/-- A bank moves to a state in which its chain is idle. Where it was RUNNING, or movements of it are left, the Drive
Scheduler and the Binding Engine are told (R48, R84, R109, R161). -/
def moveBank (s : State) (b : BankIx) (st : BankState) : State :=
  let t := s.modBank b fun k => k.leave st
  if (s.bank b).state = .running ∨ s.bankMoves b then driveLeaves t b else t

/-- RSTn is held: every node of the bank is reset (R95). -/
def resetNodes (s : State) (b : BankIx) : State := s.setChain b ((s.chain b).map Node.inReset)

/-- A bank enters RESETTING (R107, R111). -/
def enterResetting (s : State) (b : BankIx) : State :=
  let t := resetNodes (moveBank s b .resetting) b
  let t := { t with tapMemory := onBank t.tapMemory b fun _ _ => ⟨none, none, none⟩ }
  t.modBank b fun k => { k with resetAt := s.clock.ms }

/-- A bank becomes ABSENT (R106). -/
def makeAbsent (s : State) (b : BankIx) : State := resetNodes (moveBank s b .absent) b

/-- RESET_BANK runs and waits on the bank, and its end has not been reported yet (R161). -/
def State.resetWaits (s : State) (b : BankIx) : Bool :=
  (match s.engine.runningSlot with
    | some r => r.action = .resetBank b
    | none => false) &&
  !(s.engine.inbox.any fun e => match e with | .resetDone c _ _ _ => c = b | _ => false)

/-- The controller reports the end of an enumeration to a waiting RESET_BANK (R108, R161). -/
def reportReset (s : State) (b : BankIx) (st : BankState) (code : Option FaultCode) (count : Nat) : State :=
  if s.resetWaits b then s.hand (.resetDone b st code count) else s

/-- A bank enters FAULTED with a code (R110). BANK_FAULT is not posted when an enumeration finds the same fault
again while the faulted-since-running mark is set. -/
def enterFaulted (s : State) (b : BankIx) (code : FaultCode) (count : Nat) (unit : Option UnitIx) : State :=
  let k := s.bank b
  let same : Bool := k.state = .enumerating && k.faultedMark && k.faultCode = some code
  let t := moveBank s b .faulted
  let t := t.modBank b fun k =>
    { k with retryAt := after s.clock.ms Config.bankRetry, faultCode := some code, faultedMark := true }
  if same then t else post t .bankFault code.code unit none (b.1 + count * 256)

/-- A pass of a RUNNING bank has failed (R98): the count rises, and at 3 the bank faults. Otherwise the chain
goes on by next. -/
def passFailed (s : State) (b : BankIx) (next : State → State) : State :=
  let t := s.setFailures b ((s.bank b).failures + 1)
  if (t.bank b).failures < Config.failureLimit then next t else enterFaulted t b .integrity 0 none

/-- A bank enters RUNNING (R108): the first status cycle begins at once, unless a warm restart is in progress. -/
def enterRunning (s : State) (b : BankIx) : State :=
  let now := s.clock.ms
  let t := s.modBank b fun k =>
    { k with state := .running, failures := 0, fresh := true, activity := .idle, owed := none,
             cycleBegun := now, cycleDue := after now (s.bankRec b).sweep }
  let t := if s.restart.isSome then t else beginStatus t b now
  let t := reportReset t b .running none 0
  if (s.bank b).faultedMark then
    post (t.modBank b fun k => { k with faultedMark := false }) .bankRestored 0 none none b.1
  else t

/-- A retry time has come (R110). -/
def retry (s : State) (b : BankIx) : State :=
  if (s.bank b).state = .faulted ∧ s.restart = none ∧ reached s.clock.ms (s.bank b).retryAt then enterResetting s b
  else s

/-- The 10 ms of a RESETTING bank have passed: RSTn is released and the enumeration pass begins (R107, R108). DESIGN
CHOICE, log 59: during a warm restart the bank stays RESETTING with RSTn held, until the bank step (R111). -/
def resetEnd (s : State) (b : BankIx) : State :=
  let k := s.bank b
  if k.state = .resetting ∧ s.restart = none ∧ reached s.clock.ms (after k.resetAt Config.bankReset) then
    let t := s.modBank b fun k => { k with state := .enumerating, activity := .enumerating }
    t.setChain b (enterData (t.chain b))
  else s

/-- The lowest position whose KIND differs from its map entry (R108). -/
def State.kindMismatch (s : State) (b : BankIx) (ids : List Identity) : Option UnitIx :=
  (((unitsOf b).zip ids).find? fun ui => ui.2.kind ≠ (s.kind ui.1).nodeKind).map (·.1)

/-- The enumeration pass has ended with these identities, position 0 first, and count c (R108). DESIGN CHOICE, log 49: a
position at or above the count keeps the identity it held. -/
def enumerated (s : State) (b : BankIx) (ids : List Identity) : State :=
  let c := ids.length
  if c ≠ (s.bankRec b).nodeCount then
    reportReset (enterFaulted s b .count c none) b .faulted (some .count) c
  else
    match s.kindMismatch b ids with
    | some u => reportReset (enterFaulted s b .kind 0 (some u)) b .faulted (some .kind) 0
    | none =>
      enterRunning { s with identities := onBank s.identities b fun p old => (ids[p.1]?).or old } b

/-- The enumeration pass of a bank ends (R108). -/
def enumerationEnd (s : State) (b : BankIx) (line : Noise) : State :=
  if (s.bank b).state = .enumerating ∧ (s.bank b).activity = .enumerating then
    let r := readSlots (s.chain b) line 65
    let t := s.setChain b (setData s.clock.ms (parkData r.1))
    enumerated t b ((r.2.takeWhile fun c => c.head? = some true).reverse.map identCell)
  else s

/-! ### The status cycle (R100, R101) -/

/-- The lamp a command carries: the transient lamp while its end time has not passed, else the steady lamp
(R50). DESIGN CHOICE, log 27: at its end time it has passed. -/
def LampPlan.shown (p : LampPlan) (now : Millis) : Lamp :=
  match p.transient with
  | some (l, t) => if reached now t then p.steady else l
  | none => p.steady

/-- A transient whose end time has passed is removed from the plan (R50). -/
def LampPlan.pruned (p : LampPlan) (now : Millis) : LampPlan :=
  match p.transient with
  | some (_, t) => if reached now t then { p with transient := none } else p
  | none => p

/-- The unit's granted, undelivered actuation (R77, R100). -/
def State.opFor (s : State) (u : UnitIx) : Option BoltOp :=
  (s.drive.granted.find? fun a => a.unit = u ∧ a.delivered = false).map (·.op)

/-- The applied cell of a unit in a status data pass (R100). -/
def State.commandOf (s : State) (b : BankIx) (u : UnitIx) : List Bool :=
  let plan := (s.unit u).lamp
  let lamp := (plan.shown s.clock.ms).code
  match s.opFor u with
  | some op => commandBits op.code (s.bankRec b).pulseLength lamp plan.beep
  | none => commandBits 0 1 lamp plan.beep

/-- The units whose nodes a pass sets to a mode, in ascending position. -/
def unitsIn (b : BankIx) (modes : List NodeMode) (m : NodeMode) : List UnitIx :=
  ((unitsOf b).zip modes).filterMap fun um => if um.2 = m then some um.1 else none

/-- The bits of a status data pass after the check pattern: the node nearest DI first (R97, R100). -/
def State.statusBits (s : State) (b : BankIx) (modes : List NodeMode) : List Bool :=
  ((unitsOf b).zip modes).reverse.flatMap fun um => if um.2 = .status then s.commandOf b um.1 else [false]

/-- The lamp plan once its command is built (R50, R100): an ended transient is gone, and the beep request, if it is
set, has been sent. -/
def LampPlan.sent (p : LampPlan) (now : Millis) : LampPlan := { p.pruned now with beepSent := p.beep }

/-- The status data pass begins, with the commands built at this moment (R100). -/
def beginStatusData (s : State) (b : BankIx) (modes : List NodeMode) : State :=
  let us := unitsIn b modes .status
  let ops := us.filterMap fun u => (s.opFor u).map fun _ => (u, (s.bankRec b).pulseLength)
  let sent := us.foldl (fun t u => t.modUnit u fun r => { r with lamp := r.lamp.sent s.clock.ms }) s
  beginData sent b (.statusData modes (s.statusBits b modes) s.clock.ms ops)

/-- The end of a mode pass: the bits are shifted through, the modes take effect, and the pass is judged
(R96, R98). -/
def modePass (s : State) (b : BankIx) (modes : List NodeMode) (line : Noise) : State × Bool :=
  let pat := pattern (s.bank b)
  let r := shift (s.chain b) line [] (fixedBits (pat ++ modeBits modes))
  (s.setChain b (leaveMode s.clock.ms r.1), modePassOk modes.length pat r.2.1)

/-- The mode pass of a status cycle ends (R100). -/
def statusModeEnd (s : State) (b : BankIx) (line : Noise) : State :=
  match (s.bank b).activity with
  | .statusMode modes =>
    let r := modePass s b modes line
    if r.2 then
      let t := r.1.setFailures b 0
      if t.restart.isSome then t.setActivity b .idle else beginStatusData t b modes
    else passFailed r.1 b fun t => chainFree t b
  | _ => s

/-- Last kept bands that have aged are forgotten (R105): 5000 ms or more before the pass began. -/
def TapMemory.aged (began : Millis) (m : TapMemory) : TapMemory :=
  match m.keptTime with
  | some t => if Config.tapMemoryAge ≤ (began - t).toNat then { m with keptBand := none, keptTime := none } else m
  | none => m

/-- NODE_TAMPER of the units whose TAMPER rises, or is 1 on the first pass after entering RUNNING (R101). DESIGN CHOICE,
log 55: several of one pass are posted in ascending position. -/
def postTamper (s : State) (b : BankIx) (fresh : Bool) (cells : List (UnitIx × Cell)) : State :=
  (cells.filter fun uc => uc.2.tamper && (fresh || !(s.cell uc.1).tamper)).foldl
    (fun t uc => post t .nodeTamper 0 (some uc.1) none b.1) s

/-- The observed fields are replaced by the cells of a passed pass (R101). DEDUCED, log 45: an event taken before that
pass's observation sees the new cell, but for the latch of a GRACE_END (R69). -/
def observeCells (s : State) (cells : List (UnitIx × Cell)) : State :=
  { s with observed := cells.foldl (fun v uc => put v uc.1 uc.2) s.observed }

/-- What the Binding Engine is handed after a passed status data pass: the reconcile request on the first pass
after entering RUNNING, otherwise one observation for each unit (R26, R49, R101). -/
def handCells (s : State) (b : BankIx) (fresh : Bool) (cells : List (UnitIx × Cell)) (prev : UnitIx → Cell) : State :=
  if fresh then (s.modBank b fun k => { k with fresh := false }).hand (.reconcile b cells)
  else cells.foldl (fun t uc => t.hand (.observed uc.1 (prev uc.1) uc.2)) s

/-- A status data pass has passed (R101). During a warm restart nothing is verified or handed to the Binding Engine (R85,
R181); the reservation request is made all the same (R103). -/
def statusPassed (s : State) (b : BankIx) (began : Millis) (cells : List (UnitIx × Cell)) : State :=
  let fresh := (s.bank b).fresh
  let t := postTamper s b fresh cells
  let t := observeCells t cells
  let t := { t with tapMemory := onBank t.tapMemory b fun _ m => m.aged began }
  let t := if s.restart.isSome then t else handCells (verifyBank t b began) b fresh cells s.cell
  match (cells.filter fun uc => uc.2.tapPend).map (·.1) with
  | [] => chainFree t b
  | us => t.setActivity b (.reserving us)

/-- The beep requests whose BEEP was sent are cleared; one set since the pass began is kept (R51, R100). -/
def clearBeeps (s : State) (us : List UnitIx) : State :=
  us.foldl (fun t u => t.modUnit u fun r =>
    { r with lamp := { r.lamp with beep := r.lamp.beep && !r.lamp.beepSent, beepSent := false } }) s

/-- The status data pass of a bank ends (R77, R100, R101). -/
def statusDataEnd (s : State) (b : BankIx) (line : Noise) : State :=
  match (s.bank b).activity with
  | .statusData modes cells began ops =>
    let pat := pattern (s.bank b)
    let r := shift (s.chain b) line [] (fixedBits (pat ++ cells))
    let t := s.setChain b (setData s.clock.ms (parkData r.1))
    let t := clearBeeps (deliverOps t ops) (unitsIn b modes .status)
    if dataPassOk modes pat r.2.1 then
      let got := ((unitsOf b).zip (modes.zip (splitCells modes r.2.1))).filterMap fun umc =>
        if umc.2.1 = .status then some (umc.1, statusCell umc.2.2) else none
      statusPassed (t.setFailures b 0) b began got
    else passFailed t b fun t => chainFree t b
  | _ => s

/-! ### The Tap Queue and the fetch cycle (R102–R105) -/

/-- Reservations held by all controllers. -/
def TapQueue.reservations (q : TapQueue) : Nat := q.reserved.toList.sum

/-- Free places of the Tap Queue: 32 minus entries minus all reservations (R102). -/
def TapQueue.free (q : TapQueue) : Nat := Config.tapPlaces - q.records.length - q.reservations

/-- A controller's reservations replaced. -/
def State.setReserved (s : State) (b : BankIx) (n : Nat) : State :=
  { s with taps := { s.taps with reserved := put s.taps.reserved b n } }

/-- A fetch cycle begins with its mode pass (R103). -/
def beginFetch (s : State) (b : BankIx) (granted : List UnitIx) : State :=
  beginMode s b (.fetchMode (s.fetchModes b granted))

/-- The Tap Queue takes the bank's reservation request (R102, R103). It comes after the controller's earlier
place and release events. During a warm restart no fetch cycle follows (R111). DESIGN CHOICE, log 23. -/
def reserve (s : State) (b : BankIx) : State :=
  match (s.bank b).activity with
  | .reserving us =>
    if (s.bank b).place.isSome ∨ (s.bank b).release ≠ 0 then s
    else
      let g := us.take s.taps.free
      let t := (s.setReserved b (s.taps.reserved.get b + g.length)).modBank b fun k => { k with granted := g }
      if g = [] then chainFree t b
      else if s.restart.isSome then t.setActivity b .idle
      else beginFetch t b g
  | _ => s

/-- The controller releases all its reservations (R102). -/
def releaseAll (s : State) (b : BankIx) : State :=
  s.modBank b fun k => { k with release := k.release + k.granted.length, granted := [] }

/-- The mode pass of a fetch cycle ends (R103). -/
def fetchModeEnd (s : State) (b : BankIx) (line : Noise) : State :=
  match (s.bank b).activity with
  | .fetchMode modes =>
    let r := modePass s b modes line
    if r.2 then
      let t := r.1.setFailures b 0
      if t.restart.isSome then t.setActivity b .idle else beginData t b (.fetchData modes)
    else passFailed r.1 b fun t => chainFree (releaseAll t b) b
  | _ => s

/-- A TAP cell is dropped (R105): too weak, or a repeat inside the window. -/
def State.tapDropped (s : State) (u : UnitIx) (quality : Nat) (band : Band) : Bool :=
  let m := s.tapMemory.get u
  quality < s.tables.options.qualityMin ||
    (m.keptBand = some band &&
      (match m.keptTime with
        | some t => (s.clock.ms - t).toNat < s.tables.options.repeatWindow
        | none => false))

/-- The place event of a passed fetch data pass (R104, R105): kept records in ascending position, the count of
dropped taps, and each unit's captured SEQ. -/
def State.placeEvent (s : State) (cells : List (UnitIx × BitVec 4 × Nat × Band)) : PlaceMsg where
  records := (cells.filter fun c => !s.tapDropped c.1 c.2.2.1 c.2.2.2).map fun c => ⟨c.1, c.2.2.2, s.clock.ms⟩
  dropped := (cells.filter fun c => s.tapDropped c.1 c.2.2.1 c.2.2.2).length
  cells := cells.map fun c => (c.1, c.2.1)

/-- A fetch data pass is voided (R104): L further shifts of 0 from CELL-HOLD, then CELL-HOLD to CELL-SET. -/
def voidPass (s : State) (b : BankIx) (modes : List NodeMode) (line : Noise) : State :=
  let r := shift (s.chain b) line [] (List.replicate (cellsLength modes) (.fixed false))
  s.setChain b (setData s.clock.ms (parkData r.1))

/-- The fetch data pass of a bank ends, parked in CELL-HOLD (R104). A bank that faults at this pass is cut off
where it stands (R109). DEDUCED, log 25. -/
def fetchDataEnd (s : State) (b : BankIx) (line : Noise) : State :=
  match (s.bank b).activity with
  | .fetchData modes =>
    let pat := pattern (s.bank b)
    let r := shift (s.chain b) line [] (fixedBits pat ++ takenBits modes.reverse 0)
    let t := s.setChain b (parkData r.1)
    if dataPassOk modes pat r.2.1 then
      let cells := ((unitsOf b).zip (modes.zip (splitCells modes r.2.1))).filterMap fun umc =>
        if umc.2.1 = .tap then some (umc.1, tapCell umc.2.2) else none
      (t.setFailures b 0).modBank b fun k => { k with activity := .parked, place := some (s.placeEvent cells) }
    else passFailed t b fun t => chainFree (voidPass (releaseAll t b) b modes r.2.2) b
  | _ => s

/-- The tap memory after a PLACED answer (R105). DEDUCED, log 24. -/
def rememberTaps (v : Vector TapMemory 512) (m : PlaceMsg) : Vector TapMemory 512 :=
  let v := m.cells.foldl (fun v us => put v us.1 { v.get us.1 with seq := some us.2 }) v
  m.records.foldl (fun v t => put v t.unit { v.get t.unit with keptBand := some t.band, keptTime := some t.time }) v

/-- The Tap Queue takes the bank's place event (R102, R104): PLACED with the chain taken to CELL-SET, or
REFUSED. -/
def place (s : State) (b : BankIx) : State :=
  match (s.bank b).place with
  | none => s
  | some m =>
    let used := m.records.length + m.dropped
    let held := s.taps.reserved.get b
    let t := s.modBank b fun k =>
      { k with place := none, granted := k.granted.filter fun u => !(m.cells.any (·.1 = u)) }
    if used ≤ held then
      let t := { t.setReserved b (held - used) with tapMemory := rememberTaps t.tapMemory m }
      let t := { t with taps := { t.taps with records := t.taps.records ++ m.records } }
      if (s.bank b).activity = .parked then chainFree (t.setChain b (setData s.clock.ms (t.chain b))) b else t
    else t.setReserved b 0

/-- The Tap Queue takes the bank's release (R102). -/
def release (s : State) (b : BankIx) : State :=
  (s.setReserved b (s.taps.reserved.get b - (s.bank b).release)).modBank b fun k => { k with release := 0 }

/-! ### What happens at a node (R90, R93–R95) -/

/-- The node fitted at a position changed by f, if there is one. -/
def State.modNode (s : State) (b : BankIx) (p : Position) (f : Node → Node) : State :=
  s.setChain b ((s.chain b).mapIdx fun i n => if i = p.1 then f n else n)

/-- The sensors follow (R94); a blank node has none (R91). -/
def Node.sense (n : Node) (door bolt latch tamper : Bool) : Node :=
  if n.kind = 3#2 then n else { n with door := door, bolt := bolt, latch := latch, tamper := tamper }

/-- A node that comes up with its identity and the given sensors (R95). -/
def Node.fitted (kind : BitVec 2) (revision : BitVec 5) (serial : BitVec 16) (door bolt latch tamper : Bool) : Node :=
  Node.inReset ⟨kind, revision, serial, .rest, .ident, [], [], 0, 0, 0, false, none, none, .off, 0, door, bolt, latch, tamper⟩

/-- A node's supply returns (R95): it comes up as out of reset. A position just past the last node fitted gains
a node. DESIGN CHOICE, log 6. -/
def nodeUp (s : State) (b : BankIx) (p : Position) (kind : BitVec 2) (revision : BitVec 5) (serial : BitVec 16) :
    State :=
  if p.1 = (s.chain b).length then
    s.setChain b (s.chain b ++ [Node.fitted kind revision serial false false false false])
  else s.modNode b p fun n => Node.fitted kind revision serial n.door n.bolt n.latch n.tamper

/-! ### The commands -/

/-- STATUS_CYCLE_DUE (R99). -/
def execStatusCycleDue (b : BankIx) (s : State) : Host.Outcome State Fault Refusal := .next (statusDue s b)

/-- STATUS_MODE_PASS_END (R100). -/
def execStatusModePassEnd (b : BankIx) (line : Noise) (s : State) : Host.Outcome State Fault Refusal :=
  .next (statusModeEnd s b line)

/-- STATUS_DATA_PASS_END (R101). -/
def execStatusDataPassEnd (b : BankIx) (line : Noise) (s : State) : Host.Outcome State Fault Refusal :=
  .next (statusDataEnd s b line)

/-- TAP_RESERVE (R102). -/
def execTapReserve (b : BankIx) (s : State) : Host.Outcome State Fault Refusal := .next (reserve s b)

/-- FETCH_MODE_PASS_END (R103). -/
def execFetchModePassEnd (b : BankIx) (line : Noise) (s : State) : Host.Outcome State Fault Refusal :=
  .next (fetchModeEnd s b line)

/-- FETCH_DATA_PASS_END (R104). -/
def execFetchDataPassEnd (b : BankIx) (line : Noise) (s : State) : Host.Outcome State Fault Refusal :=
  .next (fetchDataEnd s b line)

/-- TAP_PLACE (R102). -/
def execTapPlace (b : BankIx) (s : State) : Host.Outcome State Fault Refusal := .next (place s b)

/-- TAP_RELEASE (R102). -/
def execTapRelease (b : BankIx) (s : State) : Host.Outcome State Fault Refusal := .next (release s b)

/-- BANK_RESET_END (R107). -/
def execBankResetEnd (b : BankIx) (s : State) : Host.Outcome State Fault Refusal := .next (resetEnd s b)

/-- ENUMERATION_PASS_END (R108). -/
def execEnumerationPassEnd (b : BankIx) (line : Noise) (s : State) : Host.Outcome State Fault Refusal :=
  .next (enumerationEnd s b line)

/-- BANK_RETRY (R110). -/
def execBankRetry (b : BankIx) (s : State) : Host.Outcome State Fault Refusal := .next (retry s b)

/-- NODE_READ (R93). Reads made while RSTn is held are not kept (R95). -/
def execNodeRead (b : BankIx) (p : Position) (band : Band) (quality : BitVec 3) (s : State) :
    Host.Outcome State Fault Refusal :=
  .next (if s.rstHeld b then s else s.modNode b p fun n => n.newRead band quality)

/-- NODE_STALL_RETURN (R90). -/
def execNodeStallReturn (b : BankIx) (p : Position) (s : State) : Host.Outcome State Fault Refusal :=
  .next (s.modNode b p Node.stall)

/-- NODE_PULSE_END (R94): the pulse ends, not before its length has passed. -/
def execNodePulseEnd (b : BankIx) (p : Position) (s : State) : Host.Outcome State Fault Refusal :=
  .next (s.modNode b p fun n => n.endPulse s.clock.ms)

/-- NODE_SENSOR_CHANGE (R94). -/
def execNodeSensorChange (b : BankIx) (p : Position) (door bolt latch tamper : Bool) (s : State) :
    Host.Outcome State Fault Refusal :=
  .next (s.modNode b p fun n => n.sense door bolt latch tamper)

/-- NODE_POWER_UP (R95). -/
def execNodePowerUp (b : BankIx) (p : Position) (kind : BitVec 2) (revision : BitVec 5) (serial : BitVec 16)
    (s : State) : Host.Outcome State Fault Refusal :=
  .next (nodeUp s b p kind revision serial)

/-- PULSE_END (R79). -/
def execPulseEnd (s : State) : Host.Outcome State Fault Refusal := .next (endPulse s)

end Sys2Proof.Machine
end

