-- ==== Sys2Proof/Machine/Tables.lean ====
section
/-! DEFINITION. The Table Loader (chapter 1): reading the records of segments 0–15, building a working set,
the conflict check and the replacement. -/

namespace Sys2Proof.Machine

/-! ### Reading the store (R12, R185) -/

/-- A value replaced by the nearest end of a range where it lies outside it. -/
def clampTo (lo hi n : Nat) : Nat := max lo (min hi n)

/-- The contents a load reads, in the order it reads them (R12): the VALID slots of segments 0–15, but for
segments whose slot 0 is RETIRED, and for the slots whose STORE_DONE OK has come since the load began (R138). DESIGN
CHOICE, log 12: they are read in the event that ends the load.
DEDUCED, log 48: a segment is left out from the moment its slot 0 is RETIRED. -/
def tableRecords (s : State) : List (List Byte) :=
  (s.store.filter fun e =>
    e.1 < 2048 && e.2.state = .valid && !s.loadLate.contains e.1 && s.slotState ⟨e.1 / 128, 0⟩ ≠ .retired).map (·.2.content)

/-- The records of a kind, in the order read. -/
def ofKind (recs : List (List Byte)) (k : Nat) : List (List Byte) := recs.filter fun r => field r 0 1 = k

/-- The last record of a kind read for a number in byte 1 (R12). -/
def lastFor (recs : List (List Byte)) (k n : Nat) : Option (List Byte) :=
  (ofKind recs k).reverse.find? fun r => field r 1 1 = n

/-! ### Building (R2–R9, R13) -/

/-- A field of an OPTION record: the default where its presence mark is still erased (R2, R185). -/
def optionField (r : List Byte) (bit : Nat) (dflt value : Nat) : Nat := if (field r 1 1).testBit bit then dflt else value

/-- The option values of an OPTION record (R2). -/
def optionsOf (r : List Byte) : Options where
  railLimit := optionField r 0 2000 (clampTo 300 6000 (field r 2 2) / 10 * 10)
  repeatWindow := optionField r 1 1500 (clampTo 0 5000 (field r 4 2))
  qualityMin := optionField r 2 2 (clampTo 0 7 (field r 6 1))
  evacMode := if optionField r 3 2 (field r 7 1) = 1 then .edge else .level
  protectedSet := BitVec.ofNat 16 (optionField r 4 0x000F (field r 8 2))

/-- The option values built at cold start (R2): the last OPTION record is used whole. -/
def loadOptions (recs : List (List Byte)) : Options :=
  match (ofKind recs 1).reverse with
  | r :: _ => optionsOf r
  | [] => .default

/-- A class entry (R3). DESIGN CHOICE, log 57: a stored keep byte other than 1 is clear (R185). -/
def loadClass (recs : List (List Byte)) (c : ClassIx) : ClassRec :=
  match lastFor recs 2 c.1 with
  | none => .default
  | some r =>
    let base := clampTo 1 60 (field r 7 1)
    { lockerQuota := clampTo 0 4 (field r 2 1), cabinQuota := clampTo 0 1 (field r 3 1),
      zones := BitVec.ofNat 16 (field r 4 2), keep := field r 6 1 = 1, base := base,
      floor := min base (clampTo 1 60 (field r 8 1)), ajarIdle := clampTo 30 600 (field r 9 2),
      supplied := true }

/-- A bank entry (R5). -/
def loadBank (recs : List (List Byte)) (o : Options) (b : BankIx) : BankRec :=
  match lastFor recs 4 b.1 with
  | none => { BankRec.default with coilCurrent := min o.railLimit 500 }
  | some r =>
    { nodeCount := clampTo 0 64 (field r 2 1), pulseLength := clampTo 1 15 (field r 3 1),
      coilCurrent := min o.railLimit (clampTo 50 2000 (field r 4 2)), sweep := clampTo 50 500 (field r 6 2),
      supplied := true }

/-- The kind a UNITMAP record sets (R6). -/
def mapKind? : Nat → Option UnitKind
  | 1 => some .locker | 2 => some .cabin | 3 => some .blank
  | _ => none

/-- A UNITMAP record applied to the entry of a position below its bank's node count (R6). -/
def applyMap (b : BankIx) (p : Position) (e : MapEntry) (r : List Byte) : MapEntry :=
  match mapKind? (field r 4 1) with
  | none => e
  | some k =>
    let first := field r 2 1
    if field r 1 1 = b.1 ∧ first ≤ 63 ∧ first ≤ p.1 ∧ p.1 < first + clampTo 1 16 (field r 3 1) then
      ⟨k, ⟨min 15 (field r 5 1), by omega⟩⟩
    else e

/-- A unit map entry (R6). -/
def loadEntry (recs : List (List Byte)) (n : Nat) (b : BankIx) (p : Position) : MapEntry :=
  if p.1 < n then recs.foldl (applyMap b p) ⟨.blank, 0⟩ else .unused

/-- The cabin count of a zone in a unit map (R4). -/
def cabinCount (m : Vector MapEntry 512) (z : ZoneIx) : Nat :=
  (m.toList.filter fun e => e.kind = .cabin ∧ e.zone = z).length

/-- A zone entry (R4). DEDUCED, log 47: without a ZONE record T is at most 511, also in a zone of 512 cabins. -/
def loadZone (recs : List (List Byte)) (m : Vector MapEntry 512) (z : ZoneIx) : ZoneRec :=
  let n := cabinCount m z
  match lastFor recs 3 z.1 with
  | none => { ZoneRec.default with cabins := n, threshold := min n 511 }
  | some r =>
    { cabins := n, threshold := min n (clampTo 0 511 (field r 2 2)), warningLead := clampTo 0 300 (field r 4 2),
      grace := clampTo 0 600 (field r 6 2), supplied := true }

/-- The permit range of a PERMIT record; none where it is skipped (R7). -/
def permit? (r : List Byte) : Option Permit :=
  if field r 1 4 ≤ field r 5 4 then
    (ix16? (field r 9 1)).map fun c => ⟨BitVec.ofNat 32 (field r 1 4), BitVec.ofNat 32 (field r 5 4), c⟩
  else none

/-- The band ids of a BLOCK or MASTER record (R8). -/
def recordIds (r : List Byte) : List Band :=
  (List.range (min 6 (field r 1 1))).map fun i => BitVec.ofNat 32 (field r (2 + 4 * i) 4)

/-- The distinct ids of a list, in order of first appearance. -/
def distinct (l : List Band) : List Band := (l.foldl (fun acc b => if acc.contains b then acc else b :: acc) []).reverse

/-- An id takes its place in ascending order. -/
def insertBand (l : List Band) (b : Band) : List Band :=
  match l with
  | [] => [b]
  | x :: rest => if x.toNat < b.toNat then x :: insertBand rest b else b :: x :: rest

/-- The ids in ascending order (R8). -/
def sortBands (l : List Band) : List Band := l.foldl insertBand []

/-- A built working set and which lists were cut (R13). -/
structure Built where
  tables : Tables
  cuts : Cuts

/-- The working set of the records read, with the given option values (R13). -/
def buildSet (recs : List (List Byte)) (o : Options) : Built :=
  let maps := ofKind recs 5
  let banks := tabulate 8 (loadBank recs o)
  let unitMap := tabulate 512 fun u => loadEntry maps (banks.get (bankOf u)).nodeCount (bankOf u) (posOf u)
  let permits := (ofKind recs 6).filterMap permit?
  let blocks := distinct ((ofKind recs 7).flatMap recordIds)
  let masters := distinct ((ofKind recs 8).flatMap recordIds)
  { tables :=
      { options := o, classes := tabulate 16 (loadClass recs), zones := tabulate 16 (loadZone recs unitMap),
        banks := banks, unitMap := unitMap, permits := permits.take Config.permitPlaces,
        blocks := sortBands (blocks.take Config.blockPlaces), masters := masters.take Config.masterPlaces },
    cuts := ⟨Config.permitPlaces < permits.length, Config.blockPlaces < blocks.length,
      Config.masterPlaces < masters.length⟩ }

/-- The result of a complete set (R13). -/
def Cuts.result (c : Cuts) : LoadResult := if c.permits || c.blocks || c.masters then .truncated else .ok

/-! ### Conflict check and replacement (R15, R16) -/

/-- A unit's kind differs between the map in force and a new set. -/
def State.kindChanges (s : State) (new : Tables) (u : UnitIx) : Bool := (new.unitMap.get u).kind ≠ s.kind u

/-- The lowest unit in conflict with a new set (R15). -/
def State.conflict (s : State) (new : Tables) : Option UnitIx :=
  allUnits.find? fun u => s.kindChanges new u &&
    ((s.unit u).holder.isSome || (s.kind u = .locker && (s.unit u).stateRef.isSome))

/-- What is waiting at the Binding Engine for units whose kind changes goes with their records (R16). DEDUCED, log
21. -/
def EngEvent.without (gone : UnitIx → Bool) : EngEvent → Option EngEvent
  | .verified u op c => if gone u then none else some (.verified u op c)
  | .faulted u op c => if gone u then none else some (.faulted u op c)
  | .removed us b => some (.removed (us.filter fun u => !gone u) b)
  | .displaced u => if gone u then none else some (.displaced u)
  | .observed u p c => if gone u then none else some (.observed u p c)
  | .reconcile b cells => some (.reconcile b (cells.filter fun c => !gone c.1))
  | .stall on => some (.stall on)
  | .resetDone b st c n => some (.resetDone b st c n)

/-- An event held back that concerns such a unit goes with it. -/
def HeldEvent.stays (gone : UnitIx → Bool) : HeldEvent → Bool
  | .report u | .idle u _ | .step u => !gone u
  | .accept => true

/-- The records, timer and follow-up entries of units whose kind changes (R16): FREE of the new kind. -/
def freshUnits (s : State) (new : Tables) : State :=
  { s with
    units := tabulate 512 (fun u =>
      if s.kindChanges new u then UnitRec.cold (steadyLamp (new.unitMap.get u).kind .free) else s.unit u)
    timers := s.timers.filter (fun e => !s.kindChanges new e.unit)
    engine := { s.engine with
      overlay := []
      follow := s.engine.follow.filter (fun e => !s.kindChanges new e.1)
      held := s.engine.held.filter (HeldEvent.stays (s.kindChanges new))
      arrived := s.engine.arrived.filter (HeldEvent.stays (s.kindChanges new)) } }

/-- What a replacement does to one bank (R16): reset, made ABSENT, or left running with its new sweep period. -/
def replaceBank (old : Tables) (s : State) (b : BankIx) : State :=
  let n := (s.bankRec b).nodeCount
  let n0 := (old.banks.get b).nodeCount
  if 0 < n ∧ (n ≠ n0 ∨ (unitsOf b).any fun u => s.kind u ≠ (old.unitMap.get u).kind) then enterResetting s b
  else if n = 0 ∧ 0 < n0 then makeAbsent s b
  else if (s.bankRec b).sweep ≠ (old.banks.get b).sweep then
    s.modBank b fun k => { k with cycleDue := after k.cycleBegun (s.bankRec b).sweep }
  else s

/-- A new set replaces the old (R16). DESIGN CHOICE, log 58: the banks it resets or makes ABSENT are taken in ascending
order, each whole, with its removal report (R85) and the examination of the head (R74), before the next. -/
def replaceSet (s : State) (new : Tables) : State :=
  let gone := s.kindChanges new
  let t := { freshUnits s new with tables := new }
  let t := allBanks.foldl (replaceBank s.tables) t
  t.setInbox (t.engine.inbox.filterMap (EngEvent.without gone))

/-- The first working set (R17): every unit is FREE of its kind, and nothing is held, timed or moved yet (R19, R21,
R59, R86). -/
def firstSet (s : State) (new : Tables) : State :=
  { s with
    tables := new
    units := tabulate 512 (fun u => UnitRec.cold (steadyLamp (new.unitMap.get u).kind .free))
    bands := []
    timers := []
    drive := ⟨[], [], [], []⟩
    engine := { s.engine with overlay := [] } }

/-! ### The load's end (R13, R14, R17) -/

/-- The load summary is written and TABLES_LOADED posted (R13, R184). DESIGN CHOICE, log 46: after CONFLICT the counts and
the lists cut are those of the set that was built and discarded. -/
def reportLoad (s : State) (cause : LoadCause) (result : LoadResult) (b : Built) (conflict : Option UnitIx) : State :=
  let extra := match conflict with
    | some u => u.1
    | none => b.cuts.permits.toNat + 2 * b.cuts.blocks.toNat + 4 * b.cuts.masters.toNat
  let t := { s with
    summary := some ⟨cause, result, b.tables.permits.length, b.tables.blocks.length, b.tables.masters.length,
      b.cuts, conflict⟩
    load := none }
  post t .tablesLoaded (cause.code * 16 + result.code) none none extra

/-- The running action ends: ACTION_DONE is posted and the running slot is emptied (R150, R184). -/
def endAction (s : State) (r : Result) (extra : Nat) : State :=
  match s.engine.runningSlot with
  | none => s
  | some a =>
    let t := s.setRunning none
    post t .actionDone (a.action.code * 16 + r.code) (a.action.unit?) (a.action.band?) extra

/-- The action result of a load result. -/
def LoadResult.toResult : LoadResult → Result
  | .ok => .ok | .truncated => .truncated | .conflict => .conflict

/-- The set a load builds: option values from the store at cold start, carried over at any other load (R2). -/
def State.built (s : State) (cause : LoadCause) : Built :=
  let recs := tableRecords s
  buildSet recs (if cause = .cold then loadOptions recs else s.tables.options)

/-- A load at warm restart or RELOAD_TABLES is judged (R14, R15, R17). -/
def judgeLoad (s : State) (cause : LoadCause) (b : Built) : State × LoadResult :=
  match s.conflict b.tables with
  | some u => (reportLoad s cause .conflict b (some u), .conflict)
  | none => (reportLoad (replaceSet s b.tables) cause b.cuts.result b none, b.cuts.result)

/-- Step 6 of a warm restart (R111, R181): every bank is reset or made ABSENT, and the restart ends. DESIGN CHOICE, log
58: in ascending order, each bank whole. -/
def restartBanks (s : State) : State :=
  let t := allBanks.foldl
    (fun t b => if 0 < (t.bankRec b).nodeCount then enterResetting t b else makeAbsent t b) s
  { t with restart := none, engine := { t.engine with resuming := true } }

/-- A load ends (R13). After the cold load, replay goes on to erase the dirty journal segments (R124); after the
warm load, step 6 ends the restart (R181); a reload ends its action with the same result (R14). -/
def loadEnd (s : State) : State :=
  match s.load with
  | none => s
  | some .cold =>
    let b := s.built .cold
    let t := reportLoad (firstSet s b.tables) .cold b.cuts.result b none
    pump (requestReplayErase { t with startUp := .replay })
  | some .warm => pump (restartBanks (judgeLoad s .warm (s.built .warm)).1)
  | some .reload =>
    let r := judgeLoad s .reload (s.built .reload)
    pump (endAction r.1 r.2.toResult 0)

/-- TABLE_LOAD_END (R13). -/
def execTableLoadEnd (s : State) : Host.Outcome State Fault Refusal := .next (loadEnd s)

end Sys2Proof.Machine
end

