-- ==== Sys2Proof/Machine/Taps.lean ====
section
/-! DEFINITION. The tap decision (2.4 to 2.7): the ordered checks, binds, the holder's taps and the master's. -/

namespace Sys2Proof.Machine

/-- A refused tap (R31): REFUSED, the transient lamp and the beep request. -/
def refuse (s : State) (u : UnitIx) (b : Band) (why : Refusing) : State :=
  let t := post s .refused why.code (some u) (some b) ((s.unit u).state.code (s.kind u))
  beep (if why = .busy then transient t u .amber 1000 else transient t u .red 2000) u

/-- The green transient lamp of a bind, an opening, a re-closing or a master effect (R50). -/
def green (s : State) (u : UnitIx) : State := transient s u .green 2000

/-! ### Binds (R30, R32, R43) -/

/-- BOUND: the unit, the band and the class taken at the decision (R172). -/
def postBound (s : State) (u : UnitIx) (b : Band) (c : ClassIx) : State := post s .bound 0 (some u) (some b) c.1

/-- A FREE locker binds (R32). -/
def bindLocker (s : State) (u : UnitIx) (b : Band) (c : ClassIx) : State :=
  let t := enter (setHolder s u b c) u .locking
  let t := handOver (handJournal t (.bind u b c s.clock.sec)) u .throw .normal
  green (postBound t u b c) u

/-- A FREE cabin binds (R43). -/
def bindCabin (s : State) (u : UnitIx) (b : Band) (c : ClassIx) : State :=
  green (postBound (handOver (enter (setHolder s u b c) u .admitting) u .withdraw .normal) u b c) u

/-- The first new-bind check that fails (R30). -/
def State.bindRefusal (s : State) (u : UnitIx) (b : Band) (c : ClassIx) : Option Refusing :=
  let k := s.cls c
  if !(k.zones.getLsbD (s.zone u).1) then some .zone
  else if s.kind u = .locker ∧ k.lockerQuota ≤ s.heldOf b .locker then some .quotaLocker
  else if s.kind u = .cabin ∧ k.cabinQuota ≤ s.heldOf b .cabin then some .quotaCabin
  else if s.kind u = .locker ∧ (s.cell u).door = false then some .doorOpen
  else none

/-- A tap at a unit without a holder (R30). -/
def tapNew (s : State) (u : UnitIx) (b : Band) (c : ClassIx) : State :=
  match (s.unit u).state with
  | .free =>
    match s.bindRefusal u b c with
    | some why => refuse s u b why
    | none => if s.kind u = .locker then bindLocker s u b c else bindCabin s u b c
  | .evacOpen => refuse s u b .evacuation
  | _ => refuse s u b .notAvailable

/-! ### The holder's taps (R33, R34, R45) -/

/-- A holder's tap re-closes an AJAR or SERVICE_OPEN locker whose door is shut (R34). -/
def tapReclose (s : State) (u : UnitIx) (b : Band) : State :=
  if (s.cell u).door then green (handOver (enter (s.noTimer u) u .locking) u .throw .normal) u
  else refuse s u b .doorOpen

/-- A holder's tap opens a HELD locker (R33). -/
def tapOpen (s : State) (u : UnitIx) (c : ClassIx) : State :=
  let p : Purpose := if (s.cls c).keep then .keep else .release .holder
  green (handOver (setPurpose (enter s u .unlocking) u (some p)) u .withdraw .normal) u

/-- A tap by the unit's holder (R29, check 9). Every other state with a holder is refused before (R28). -/
def tapHolder (s : State) (u : UnitIx) (b : Band) (c : ClassIx) : State :=
  match s.kind u, (s.unit u).state with
  | .locker, .held => tapOpen s u c
  | .locker, .ajar => tapReclose s u b
  | .locker, .serviceOpen => tapReclose s u b
  | .cabin, .inUse => releaseCabin s u .holder false
  | .cabin, .expired => releaseCabin s u .holder false
  | _, _ => s

/-! ### Master taps (R40–R42) -/

/-- The OPEN rows of R41 for HELD, FORCED, FAULT and AJAR lockers: the state and whether a NORMAL WITHDRAW is
handed over. A locker leaving FAULT hands over STATE RETURN (R39). -/
def openLocker (s : State) (u : UnitIx) : State :=
  let r := s.unit u
  let t := if r.state = .fault then handReturn s u else s
  if r.state = .ajar then enter (t.noTimer u) u .serviceOpen
  else if (s.cell u).bolt = false then enter t u .serviceOpen
  else if r.holder.isNone then handOver (enter t u .serviceOpen) u .withdraw .normal
  else handOver (setPurpose (enter t u .unlocking) u (some .service)) u .withdraw .normal

/-- OPEN hands over a movement. -/
def State.openMoves (s : State) (u : UnitIx) : Bool := (s.unit u).state ≠ .ajar && (s.cell u).bolt

/-- The FAULT rows of R42, the holder cleared with a reason. -/
def openFaultCabin (s : State) (u : UnitIx) (why : Reason) : State :=
  let r := s.unit u
  let t := if r.holder.isSome then postReleased (clearHolder s u) u why r.holder r.boundAt else s
  if (s.cell u).bolt then handOver (enter t u .serviceOpen) u .withdraw .normal else enter t u .serviceOpen

/-- The effect of a master tap (R41, R42). -/
def State.masterEffect (s : State) (u : UnitIx) : MasterEffect :=
  match s.kind u, (s.unit u).state with
  | .locker, .held | .locker, .forced | .locker, .fault | .locker, .ajar => .opened
  | .cabin, .free | .cabin, .fault => .opened
  | .cabin, .inUse | .cabin, .expired => .release
  | .locker, .serviceOpen | .cabin, .serviceOpen => if (s.cell u).door then .close else .doorOpen
  | _, _ => .none

/-- What a master effect does to the unit (R41, R42). -/
def masterActs (s : State) (u : UnitIx) (e : MasterEffect) : State :=
  match e with
  | .opened =>
    if s.kind u = .locker then openLocker s u
    else if (s.unit u).state = .free then handOver (enter s u .serviceOpen) u .withdraw .normal
    else openFaultCabin s u .master
  | .close =>
    if s.kind u = .cabin then handOver (enter s u .closing) u .throw .normal
    else if (s.unit u).holder.isSome then handOver (enter s u .locking) u .throw .normal
    else enter s u .free
  | .release => releaseCabin s u .master false
  | .none | .doorOpen => s

/-- A tap on the master path (R40): MASTER_TAP, the effect, and the lamp. DESIGN CHOICE, log 18: MASTER_TAP stands
first. -/
def tapMaster (s : State) (u : UnitIx) (b : Band) : State :=
  let e := s.masterEffect u
  let t := post s .masterTap e.code (some u) (some b) ((s.unit u).state.code (s.kind u))
  let t := masterActs t u e
  match e with
  | .opened | .close | .release => green t u
  | .doorOpen => beep (transient t u .red 2000) u
  | .none => t

/-! ### The ordered checks (R28, R29) -/

/-- Check 2: the refusal of a unit OUT_OF_SERVICE, FAULT or FORCED (R28). -/
def UState.serviceRefusal : UState → Option Refusing
  | .outOfService => some .outOfService
  | .fault => some .fault
  | .forced => some .forced
  | _ => none

/-- A decision past check 6 by a band with a class (R29). -/
def tapClass (s : State) (u : UnitIx) (b : Band) (c : ClassIx) : State :=
  let t := { s with bands := writeClass s.bands b c }
  match (s.unit u).holder with
  | some h => if h = b then tapHolder t u b c else refuse t u b .wrongBand
  | none => tapNew t u b c

/-- A tap on a LOCKER or CABIN unit is decided by the ten checks in order (R28, R29). -/
def decideTap (s : State) (u : UnitIx) (b : Band) : State :=
  if s.inHand u || (s.unit u).suspended then refuse s u b .busy
  else
    let id := identify s b
    match (if id = .master then none else (s.unit u).state.serviceRefusal) with
    | some why => refuse s u b why
    | none =>
      if s.engine.cleaning.get (bankOf u) ∧ id ≠ .master then refuse s u b .cleaning
      else if s.kind u = .cabin ∧ s.levelEvac then refuse s u b .evacuation
      else
        match id with
        | .blocked => refuse s u b .blocked
        | .master => tapMaster s u b
        | .unknown => refuse s u b .unknownBand
        | .cls c => tapClass s u b c

/-- A tap taken now goes ahead of the pending action: the running slot is empty, so the action waits behind this tap
(R150). Whether it can be accepted is asked after the decision, before the next tap is taken (`State.tapTakeable`). -/
def State.tapPasses (s : State) : Bool := s.engine.pendingSlot.isSome && s.engine.runningSlot.isNone

/-- The engine takes the oldest tap and decides it; a tap at a unit that is no LOCKER or CABIN is discarded
(R27). Taking it ends the resumption order of R181. The decision leaves both action slots as they are, so what
tapAhead notes here holds after it. -/
def takeTap (s : State) : State :=
  match s.taps.records with
  | [] => s
  | x :: rest =>
    if s.tapTakeable x then
      let t := { s with
        taps := { s.taps with records := rest }
        engine := { s.engine with tapAhead := s.tapPasses, resuming := false } }
      pump (if s.kind x.unit = .locker ∨ s.kind x.unit = .cabin then decideTap t x.unit x.band else t)
    else s

/-- TAKE_TAP (R27). -/
def execTakeTap (s : State) : Host.Outcome State Fault Refusal := .next (takeTap s)

end Sys2Proof.Machine
end

