-- ==== Sys2Proof/Machine/Events.lean ====
section
/-! DEFINITION. The events the Binding Engine takes from the other blocks: verify results, fault reports,
removals, displacements, observations, reconcile requests, stall reports, due timers and evacuation changes
(2.3, 2.8, 3.5, 10.1 to 10.4). -/

namespace Sys2Proof.Machine

/-! ### Verify results and fault reports (R24, R47, R81, R177) -/

/-- The event is a verify result. -/
def EngEvent.isVerified : EngEvent → Bool
  | .verified .. => true
  | _ => false

/-- The event is a fault report. -/
def EngEvent.isFaulted : EngEvent → Bool
  | .faulted .. => true
  | _ => false

/-- R24 holds the report back: a locker's. DEDUCED, log 15: whether or not it would hand a record over. -/
def State.reportHeld (s : State) (e : EngEvent) : Bool :=
  e.report?.any fun u => s.kind u = .locker && s.holdsBack (.report u)

/-- The oldest report that p chooses and R24 lets through. -/
def State.takeReport (s : State) (p : EngEvent → Bool) : Option (EngEvent × List EngEvent) :=
  takeFirst (fun e => p e && !s.reportHeld e) s.engine.inbox

/-- A verify result is taken (R81): the unit's own rule, the follow-up entry (R177), the running action's watch
(R153). -/
def takeVerified (s : State) (u : UnitIx) (op : BoltOp) (c : Cell) : State :=
  let t := verifiedUnit s u op c.door
  let cleared := (s.unit u).holder.isSome && (t.unit u).holder.isNone
  movementLeft (followUp t u .verify) u .verify cleared

/-- The observed fields of a failing cell in UNIT_FAULT's extra word (R184). -/
def Cell.faultBits (c : Cell) : Nat :=
  16 * c.door.toNat + 8 * c.bolt.toNat + 4 * c.pulse.toNat + 2 * c.latch.toNat + c.tamper.toNat

/-- A fault report is taken (R47): FAULT with the holder kept, UNIT_FAULT, and a locker's STATE FAULT record. DESIGN
CHOICE, log 66: also of a locker in OUT_OF_SERVICE (R157), which hands no STATE RETURN over and keeps its state_ref until
the STATE FAULT is written. -/
def takeFaulted (s : State) (u : UnitIx) (op : BoltOp) (c : Cell) : State :=
  let t := (setPurpose (enter s u .fault) u none).noTimer u
  let t := post t .unitFault op.code (some u) (s.unit u).holder c.faultBits
  let t := if s.kind u = .locker then handJournal t (.state u .fault) else t
  movementLeft (followUp t u .fault) u .fault false

/-- VERIFY_RESULT: the oldest verify result that is not held back is taken. DESIGN CHOICE, log 42. -/
def verifyResult (s : State) : State :=
  if !s.engineOn || !s.engine.inbox.any EngEvent.isVerified then s else
  let t := s.noteHeld
  match t.takeReport EngEvent.isVerified with
  | some (.verified u op c, rest) => pump (takeVerified ((t.setInbox rest).unhold (.report u)) u op c)
  | _ => t

/-- FAULT_REPORT: the oldest fault report that is not held back is taken. -/
def faultReport (s : State) : State :=
  if !s.engineOn || !s.engine.inbox.any EngEvent.isFaulted then s else
  let t := s.noteHeld
  match t.takeReport EngEvent.isFaulted with
  | some (.faulted u op c, rest) => pump (takeFaulted ((t.setInbox rest).unhold (.report u)) u op c)
  | _ => t

/-! ### Removals and displacements (R48, R177) -/

/-- A unit that has lost its movement is marked suspended and its deferred op is gone; its follow-up entry is
acted on as a removal, and a watch on it ends (R25, R48, R153, R177). DEDUCED, log 14: the mark is set in this
event. -/
def suspendUnit (s : State) (u : UnitIx) : State :=
  let t := s.modUnit u fun r => { r with suspended := true, deferred := none }
  movementLeft (followUp t u .removal) u .removal false

/-- The report is a removal. -/
def EngEvent.isRemoved : EngEvent → Bool
  | .removed .. => true
  | _ => false

/-- ACTUATION_REMOVED: the oldest removal report is taken (R48). Where a bank left RUNNING its deferred ops go
too (R25). -/
def actuationRemoved (s : State) : State :=
  if !s.engineOn then s else
  match takeFirst EngEvent.isRemoved s.engine.inbox with
  | some (.removed us left, rest) =>
    let t := us.foldl suspendUnit (s.setInbox rest)
    match left with
    | some b => (t.deferredOf b).foldl suspendUnit t
    | none => t
  | _ => s

/-- The report is a displacement. -/
def EngEvent.isDisplaced : EngEvent → Bool
  | .displaced _ => true
  | _ => false

/-- A displaced cabin throw is taken (R177): the cabin, in CLOSING or FREE, takes EVAC_OPEN, with a URGENT
WITHDRAW where its last observed BOLT is 1. DEDUCED, log 44. -/
def takeDisplaced (s : State) (u : UnitIx) : State :=
  let st := (s.unit u).state
  let t :=
    if st = .closing ∨ st = .free then
      if (s.cell u).bolt then handOver (enter s u .evacOpen) u .withdraw .urgent else enter s u .evacOpen
    else s
  movementLeft (followUp t u .displaced) u .displaced false

/-- THROW_DISPLACED: the oldest displacement report is taken (R177). -/
def throwDisplaced (s : State) : State :=
  if !s.engineOn then s else
  match takeFirst EngEvent.isDisplaced s.engine.inbox with
  | some (.displaced u, rest) => takeDisplaced (s.setInbox rest) u
  | _ => s

/-! ### Observations (R26, R37, R45, R46) -/

/-- The edges of an observation (R26): the latch engaged, and the door closed after an exit. -/
def observeEdges (s : State) (u : UnitIx) (prev new : Cell) : State :=
  let r := s.unit u
  let inside : Bool := r.state = .inUse || r.state = .expired
  let t :=
    if s.kind u = .cabin ∧ (inside ∨ r.state = .admitting) ∧ prev.latch = false ∧ new.latch = true then
      s.modUnit u fun r => { r with latchSeen := true }
    else s
  if s.kind u = .cabin ∧ inside ∧ r.latchSeen ∧ prev.door = false ∧ new.door = true ∧ prev.latch = false
      ∧ new.latch = false ∧ s.inHand u = false then
    releaseCabin t u .vacated false
  else t

/-- The levels of an observation, on a unit with no movement in hand (R26): a forced locker, a cabin that
closes. -/
def observeLevels (s : State) (u : UnitIx) (new : Cell) : State :=
  if s.inHand u then s
  else if s.kind u = .locker ∧ (s.unit u).state = .held ∧ new.door = false then forceOpen s u
  else if s.kind u = .cabin ∧ (s.unit u).state = .vacating ∧ new.door = true ∧ new.latch = false then closeCabin s u
  else s

/-- The event is an observation. -/
def EngEvent.isObserved : EngEvent → Bool
  | .observed .. => true
  | _ => false

/-- OBSERVATION: the oldest observation is taken, its edges first and then its levels (R26). -/
def observation (s : State) : State :=
  if !s.engineOn then s else
  match takeFirst EngEvent.isObserved s.engine.inbox with
  | some (.observed u prev new, rest) => observeLevels (observeEdges (s.setInbox rest) u prev new) u new
  | _ => s

/-! ### Reconcile (R49) -/

/-- The units of a reconcile request are taken in ascending order; it stops before a unit that would hand a
record to a Journal Queue without room (R24), with what is left of the request. -/
def reconcileUnits (s : State) : List (UnitIx × Cell) → State × List (UnitIx × Cell)
  | [] => (s, [])
  | (u, c) :: rest =>
    if s.reconcileHands u c && !s.journalRoom then (s, (u, c) :: rest)
    else reconcileUnits (reconcileUnit s u c) rest

/-- A removal report of a bank's units waits: the engine has yet to mark them suspended. -/
def State.removalWaits (s : State) (b : BankIx) : Bool :=
  s.engine.inbox.any fun e => match e with
    | .removed us left => left = some b || us.any fun u => bankOf u = b
    | _ => false

/-- The event is a reconcile request. -/
def EngEvent.isReconcile : EngEvent → Bool
  | .reconcile .. => true
  | _ => false

/-- RECONCILE: the oldest reconcile request is taken, once the engine knows what movements the bank lost
(R49). DEDUCED, log 16. -/
def reconcile (s : State) : State :=
  if !s.engineOn then s else
  match takeFirst EngEvent.isReconcile s.engine.inbox with
  | some (.reconcile b cells, rest) =>
    if s.removalWaits b then s
    else
      let r := reconcileUnits (s.setInbox rest) cells
      pump (if r.2 = [] then r.1 else r.1.setInbox (.reconcile b r.2 :: r.1.engine.inbox))
  | _ => s

/-! ### Stall reports (R119) -/

/-- The event is a stall report. -/
def EngEvent.isStall : EngEvent → Bool
  | .stall _ => true
  | _ => false

/-- JOURNAL_STALL_REPORT: the oldest stall report is taken (R119). -/
def stallReport (s : State) : State :=
  if !s.engineOn then s else
  match takeFirst EngEvent.isStall s.engine.inbox with
  | some (.stall on, rest) =>
    let t := s.setInbox rest
    { t with engine := { t.engine with ringStalled := on } }
  | _ => s

/-! ### Timer events (R61–R65) -/

/-- The unit whose timer event of a kind is taken next (R61): none while the engine takes no events, while an
evacuation change goes first at the end of a warm restart (R181), or while another event is presented. -/
def State.dueUnit (s : State) (k : TimerKind) : Option UnitIx :=
  if s.engineOn && !(s.engine.resuming && s.inputs.changes ≠ []) then
    match s.nextDue with
    | some e => if e.kind = k then some e.unit else none
    | none => none
  else none

/-- A WARNING is taken (R62). -/
def takeWarning (s : State) (u : UnitIx) : State :=
  let r := s.unit u
  let e := r.expiry.getD 0
  (steady (post s .cabinWarning 0 (some u) r.holder e) u .amberFlash).withTimer u .expiry e

/-- An EXPIRY is taken (R63). -/
def takeExpiry (s : State) (u : UnitIx) : State :=
  let r := s.unit u
  let g := r.graceEnd.getD 0
  let t := (post (enter s u .expired) .cabinExpired 0 (some u) r.holder g).withTimer u .graceEnd g
  if !s.inHand u && (s.cell u).door && !(s.cell u).latch then releaseCabin t u .expiry false else t

/-- The latch a GRACE_END finds: as last observed (R64), but still engaged while an observation that shows it freed waits
to be taken (R69). Every other timer event sees the last observed cell. DEDUCED, log 45. -/
def State.graceLatch (s : State) (u : UnitIx) : Bool :=
  (s.cell u).latch || s.engine.inbox.any fun e => match e with
    | .observed v prev new => v = u && prev.latch && !new.latch
    | _ => false

/-- A GRACE_END is taken (R64, R69). -/
def takeGraceEnd (s : State) (u : UnitIx) : State :=
  let r := s.unit u
  if s.graceLatch u then
    let t := s.modUnit u fun r => { r with overstay := true }
    (post t .cabinOverstay 0 (some u) r.holder (r.expiry.getD 0)).noTimer u
  else releaseCabin s u .grace false

/-- An AJAR_IDLE is taken (R38, R65). -/
def takeAjarIdle (s : State) (u : UnitIx) : State := releaseLocker (s.noTimer u) u .idle

/-- WARNING (R62). -/
def warningDue (s : State) : State :=
  match s.dueUnit .warning with
  | some u => takeWarning s u
  | none => s

/-- EXPIRY (R63). -/
def expiryDue (s : State) : State :=
  match s.dueUnit .expiry with
  | some u => takeExpiry s u
  | none => s

/-- GRACE_END (R64). -/
def graceEndDue (s : State) : State :=
  match s.dueUnit .graceEnd with
  | some u => takeGraceEnd s u
  | none => s

/-- AJAR_IDLE (R65). -/
def ajarIdleDue (s : State) : State :=
  if !s.engineOn || s.waitingIdles.isEmpty then s else
  let t := s.noteHeld
  match t.dueUnit .ajarIdle with
  | some u => pump (takeAjarIdle t u)
  | none => t

/-! ### Evacuation (R175, R176, R179) -/

/-- The evacuation state replaced. -/
def State.setActive (s : State) (a : Bool) : State := { s with inputs := { s.inputs with active := a } }

/-- An evacuation start (R176): CLOSE entries are removed, every cabin is taken whole in ascending order, and
EVACUATION_START is posted. -/
def startEvacuation (s : State) : State :=
  let t := (s.setActive true).setFollow (s.engine.follow.filter fun e => e.2 = .toOpen)
  let r := s.cabins.foldl evacuateCabin (t, 0)
  post r.1 .evacuationStart s.tables.options.evacMode.code none none r.2

/-- An evacuation end (R179): in LEVEL mode OPEN entries are removed and the EVAC_OPEN cabins are relocked in
ascending order; in EDGE mode the list and the cabins are left. -/
def endEvacuation (s : State) : State :=
  let t := s.setActive false
  match s.tables.options.evacMode with
  | .edge => post t .evacuationEnd EvacMode.edge.code none none 0
  | .level =>
    let t := t.setFollow (s.engine.follow.filter fun e => e.2 = .toClose)
    let r := s.cabins.foldl relockCabin (t, 0)
    post r.1 .evacuationEnd EvacMode.level.code none none r.2

/-- The oldest waiting evacuation change is taken if it is the one named (R175). -/
def takeChange (s : State) (asserted : Bool) (f : State → State) : State :=
  match s.inputs.changes with
  | c :: rest =>
    if s.engineOn && c = asserted then f { s with inputs := { s.inputs with changes := rest } } else s
  | [] => s

/-- A debounced change of EVACUATE (R175): it becomes the debounced level and is handed to the Binding Engine.
Debouncing does not run while the part is held (R180). -/
def evacuateChange (s : State) (asserted : Bool) : State :=
  if s.startUp = .held ∨ s.inputs.evacuate = asserted then s
  else { s with inputs := { s.inputs with evacuate := asserted, changes := s.inputs.changes ++ [asserted] } }

/-- A debounced change of SERVICE KEY (R145). -/
def serviceKeyChange (s : State) (asserted : Bool) : State :=
  if s.startUp = .held then s else { s with inputs := { s.inputs with serviceKey := asserted } }

/-! ### The commands -/

/-- EVACUATE_DEBOUNCED (R175). -/
def execEvacuateDebounced (asserted : Bool) (s : State) : Host.Outcome State Fault Refusal :=
  .next (evacuateChange s asserted)

/-- SERVICE_KEY_DEBOUNCED (R145). -/
def execServiceKeyDebounced (asserted : Bool) (s : State) : Host.Outcome State Fault Refusal :=
  .next (serviceKeyChange s asserted)

/-- EVACUATION_START (R176). -/
def execEvacuationStart (s : State) : Host.Outcome State Fault Refusal := .next (takeChange s true startEvacuation)

/-- EVACUATION_END (R179). -/
def execEvacuationEnd (s : State) : Host.Outcome State Fault Refusal := .next (takeChange s false endEvacuation)

/-- OBSERVATION (R26). -/
def execObservation (s : State) : Host.Outcome State Fault Refusal := .next (observation s)

/-- RECONCILE (R49). -/
def execReconcile (s : State) : Host.Outcome State Fault Refusal := .next (reconcile s)

/-- VERIFY_RESULT (R81). -/
def execVerifyResult (s : State) : Host.Outcome State Fault Refusal := .next (verifyResult s)

/-- FAULT_REPORT (R47). -/
def execFaultReport (s : State) : Host.Outcome State Fault Refusal := .next (faultReport s)

/-- ACTUATION_REMOVED (R48). -/
def execActuationRemoved (s : State) : Host.Outcome State Fault Refusal := .next (actuationRemoved s)

/-- THROW_DISPLACED (R177). -/
def execThrowDisplaced (s : State) : Host.Outcome State Fault Refusal := .next (throwDisplaced s)

/-- JOURNAL_STALL_REPORT (R119). -/
def execJournalStallReport (s : State) : Host.Outcome State Fault Refusal := .next (stallReport s)

/-- WARNING (R62). -/
def execWarning (s : State) : Host.Outcome State Fault Refusal := .next (warningDue s)

/-- EXPIRY (R63). -/
def execExpiry (s : State) : Host.Outcome State Fault Refusal := .next (expiryDue s)

/-- GRACE_END (R64). -/
def execGraceEnd (s : State) : Host.Outcome State Fault Refusal := .next (graceEndDue s)

/-- AJAR_IDLE (R65). -/
def execAjarIdle (s : State) : Host.Outcome State Fault Refusal := .next (ajarIdleDue s)

end Sys2Proof.Machine
end

