-- ==== Sys2Proof/Machine/Actions.lean ====
section
/-! DEFINITION. Actions (chapter 8): acceptance, the steps of each action, the watches, and their endings. -/

namespace Sys2Proof.Machine

/-! ### Acceptance and ending (R149, R150) -/

/-- The pending action moves to the running slot (R150); the resumption order of R181 is over. -/
def moveToRunning (s : State) (a : Action) : State :=
  { s with engine := { s.engine with
      pendingSlot := none, runningSlot := some ⟨a, [], 0⟩, tapAhead := false, resuming := false,
      held := s.engine.held.filter (· ≠ .accept) } }

/-- The pending action, if it is of the kind coded k and can be accepted, is accepted: it ends BAD_ARGUMENT where
its unit no longer passes its check, and takes its first step otherwise (R149, R150). An acceptance held back stays
pending (R24). -/
def accept (s : State) (k : Nat) (first : Action → State → State) : State :=
  match s.engine.pendingSlot with
  | none => s
  | some a =>
    if a.code = k && s.acceptable a then
      let t := moveToRunning s a
      pump (if a.passes s then first a t else endAction t .badArgument 0)
    else if a.code = k && s.examined then s.noteHeld
    else s

/-- A unit's outcome is known. -/
def Stage.isDone : Stage → Bool
  | .done _ => true
  | _ => false

/-- A unit's outcome, OK while it is not known. -/
def Stage.result : Stage → Result
  | .done r => r
  | _ => .ok

/-- The result of an action whose units all have outcomes (R154, R156, R157, R162). -/
def Running.result (r : Running) : Result :=
  match r.action with
  | .releaseBand _ =>
    if r.items.any fun i => i.stage = .done .fault then .fault
    else if r.items.any fun i => i.stage = .done .suspended then .suspended
    else .ok
  | .clearEvacuation => .ok
  | _ => ((r.items.head?).map fun i => i.stage.result).getD .ok

/-- The extra word of such an action (R156, R162). -/
def Running.extra (r : Running) : Nat :=
  match r.action with
  | .releaseBand _ => r.count
  | .clearEvacuation => r.count
  | _ => 0

/-- The running action ends once every unit it acts on has its outcome. -/
def finish (s : State) : State :=
  match s.engine.runningSlot with
  | none => s
  | some r => if r.items.all fun i => i.stage.isDone then endAction s r.result r.extra else s

/-- What a step on one unit comes to: the state, and where the unit stands then. -/
structure StepEnd where
  state : State
  stage : Stage

/-- A step's end is entered for its unit in the running slot; holders and cabins counted are added (R156, R162),
and the action ends if that was its last unit. -/
def record (u : UnitIx) (counted : Nat) (e : StepEnd) : State :=
  match e.state.engine.runningSlot with
  | none => e.state
  | some r =>
    finish (e.state.setRunning (some { r with
      items := r.items.map fun i => if i.unit = u then ⟨u, e.stage⟩ else i, count := r.count + counted }))

/-! ### Releases (R153–R156) -/

/-- The outcome of a step on a unit that needs no movement to follow: SUSPENDED on a suspended unit (R153). DEDUCED,
log 17. -/
def State.outcomeOf (s : State) (u : UnitIx) : Stage := .done (if (s.unit u).suspended then .suspended else .ok)

/-- UNLOCKING with purpose RELEASE and reason ACTION; a NORMAL WITHDRAW is handed over and watched, or none for
a suspended unit (R153, R154). -/
def unlockForRelease (s : State) (u : UnitIx) : StepEnd :=
  let t := setPurpose (enter s u .unlocking) u (some (.release .action))
  if (s.unit u).suspended then ⟨t, .done .suspended⟩ else ⟨handOver t u .withdraw .normal, .watchHanded⟩

/-- The locker is FREE at once (R154). -/
def freeForRelease (s : State) (u : UnitIx) : StepEnd :=
  ⟨releaseLocker (s.noTimer u) u .action, s.outcomeOf u⟩

/-- The step of a release on a locker (R154). -/
def releaseLockerStep (s : State) (u : UnitIx) : StepEnd :=
  let r := s.unit u
  if r.holder.isNone then ⟨s, .done .notHeld⟩
  else
    match r.state, s.inHand u with
    | .unlocking, true => ⟨setPurpose s u (some (.release .action)), .watchHanded⟩
    | .fault, _ => ⟨s, .done .fault⟩
    | _, true => ⟨s, .watchFinish⟩
    | .ajar, false => freeForRelease s u
    | .forced, false => if (s.cell u).bolt then unlockForRelease s u else freeForRelease s u
    | .serviceOpen, false => if (s.cell u).bolt then unlockForRelease s u else freeForRelease s u
    | _, false => unlockForRelease s u

/-- The step of a release on a cabin (R155). -/
def releaseCabinStep (s : State) (u : UnitIx) : StepEnd :=
  let r := s.unit u
  if r.holder.isNone then ⟨s, .done .notHeld⟩
  else
    match r.state with
    | .fault => ⟨s, .done .fault⟩
    | .admitting =>
      if s.inHand u then ⟨s, .watchFinish⟩
      else ⟨postReleased (enter (clearHolder s u) u .vacating) u .action r.holder r.boundAt, .done .ok⟩
    | _ => ⟨releaseCabin s u .action r.suspended, s.outcomeOf u⟩

/-- The step of a release on a unit. -/
def releaseStep (s : State) (u : UnitIx) : StepEnd :=
  if s.kind u = .locker then releaseLockerStep s u else releaseCabinStep s u

/-- 1 where the step cleared the unit's holder. -/
def StepEnd.cleared (e : StepEnd) (s : State) (u : UnitIx) : Nat :=
  if (s.unit u).holder.isSome ∧ (e.state.unit u).holder.isNone then 1 else 0

/-- The step of RELEASE_UNIT, or of RELEASE_BAND on a unit of its list, is made and recorded (R154–R156). -/
def releaseOne (s : State) (u : UnitIx) : State :=
  let e := releaseStep s u
  record u (e.cleared s u) e

/-- RELEASE_BAND acts on a unit only while the band still holds it (R156). -/
def releaseOfBand (s : State) (b : Band) (u : UnitIx) : State :=
  if (s.unit u).holder = some b then releaseOne s u else record u 0 ⟨s, .done .notHeld⟩

/-- The units an action acts on, each with its step due. -/
def listUnits (s : State) (us : List UnitIx) : State :=
  match s.engine.runningSlot with
  | none => s
  | some r => s.setRunning (some { r with items := us.map fun u => ⟨u, .due⟩ })

/-- RELEASE_UNIT at acceptance (R154, R155). -/
def releaseUnitFirst (a : Action) (s : State) : State :=
  match a with
  | .releaseUnit u => releaseOne (listUnits s [u]) u
  | _ => s

/-- RELEASE_BAND at acceptance (R156). DEDUCED, log 39: no step is taken in this event. -/
def releaseBandFirst (a : Action) (s : State) : State :=
  match a with
  | .releaseBand b =>
    match bandEntry s.bands b with
    | none => endAction s .notHeld 0
    | some e => listUnits s e.held
  | _ => s

/-- The first unit, in list order, whose step is taken again and which R24 does not hold back. DESIGN CHOICE, log 42. -/
def Running.firstAgain (s : State) (r : Running) : Option UnitIx :=
  (r.unitsAt .again).find? fun u => !r.stepHeld s u

/-- The first unit whose step is due, in list order: none while R24 holds it back (R156). -/
def Running.firstDue (s : State) (r : Running) : Option UnitIx :=
  (r.unitsAt .due).head?.filter fun u => !r.stepHeld s u

/-- RELEASE_BAND_STEP: the next unit of the list (R156). -/
def releaseBandStep (s : State) : State :=
  if !s.engineOn then s else
  match s.engine.runningSlot with
  | some r =>
    match r.action with
    | .releaseBand b =>
      if r.unitsAt .due = [] then s else
      let t := s.noteHeld
      match r.firstDue t with
      | some u => pump (releaseOfBand (t.unhold (.step u)) b u)
      | none => t
    | _ => s
  | none => s

/-! ### Opening and service states (R157–R159) -/

/-- A step that hands over a movement where moves, and is otherwise done. -/
def openEnd (t : State) (moves : Bool) : StepEnd := ⟨t, if moves then .watchHanded else .done .ok⟩

/-- The step of OPEN_UNIT (R157). -/
def openStep (s : State) (u : UnitIx) : StepEnd :=
  let st := (s.unit u).state
  let bolt := (s.cell u).bolt
  if s.inHand u || (s.unit u).suspended || st.transitional then ⟨s, .done .busy⟩
  else
    match s.kind u, st with
    | .locker, .held | .locker, .forced | .locker, .fault | .locker, .ajar =>
      openEnd (openLocker s u) (s.openMoves u)
    | .cabin, .free => openEnd (handOver (enter s u .serviceOpen) u .withdraw .normal) true
    | .cabin, .fault => openEnd (openFaultCabin s u .action) bolt
    | _, .outOfService => openEnd (if bolt then handOver s u .withdraw .normal else s) bolt
    | _, _ => ⟨s, .done .ok⟩

/-- The step of OPEN_UNIT is made and recorded. -/
def openOne (s : State) (u : UnitIx) : State := record u 0 (openStep s u)

/-- OPEN_UNIT at acceptance (R157). -/
def openUnitFirst (a : Action) (s : State) : State :=
  match a with
  | .openUnit u => openOne (listUnits s [u]) u
  | _ => s

/-- SET_OUT_OF_SERVICE at acceptance (R158). -/
def outOfServiceFirst (a : Action) (s : State) : State :=
  match a with
  | .setOutOfService u =>
    let r := s.unit u
    if r.holder.isSome then endAction s .held 0
    else
      match r.state with
      | .free =>
        if s.inHand u || r.suspended then endAction s .busy 0
        else
          let t := enter s u .outOfService
          endAction (if s.kind u = .locker then handJournal t (.state u .outOfService) else t) .ok 0
      | .outOfService => endAction s .ok 0
      | _ => endAction s .notFree 0
  | _ => s

/-- RETURN_TO_SERVICE at acceptance (R159). -/
def returnFirst (a : Action) (s : State) : State :=
  match a with
  | .returnToService u =>
    if (s.unit u).state = .outOfService ∨ (s.unit u).state = .fault then endAction (returnUnit s u) .ok 0
    else endAction s .notOutOfService 0
  | _ => s

/-- CLEAR_FAULT at acceptance (R159). -/
def clearFaultFirst (a : Action) (s : State) : State :=
  match a with
  | .clearFault u =>
    if (s.unit u).state = .fault then endAction (returnUnit s u) .ok 0 else endAction s .notFaulted 0
  | _ => s

/-! ### Cabin time, bands, tables and banks (R10, R14, R66–R68, R160, R161) -/

/-- The new expiry of an extension, before it is compared (R67). -/
def extendedTo (expiry now boundAt minutes : Nat) : Nat :=
  min (max expiry now + 60 * minutes) (boundAt + Config.cabinCap)

/-- The effects of a new expiry (R68). -/
def extendTo (s : State) (u : UnitIx) (expiry : Nat) : State :=
  (setTimes (enter s u .inUse) u expiry).modUnit u fun r => { r with overstay := false }

/-- EXTEND_CABIN at acceptance (R66–R68). -/
def extendFirst (a : Action) (s : State) : State :=
  match a with
  | .extendCabin u m =>
    let r := s.unit u
    if r.state = .inUse ∨ r.state = .expired then
      let e := r.expiry.getD 0
      let n := extendedTo e s.clock.sec r.boundAt m
      if n ≤ e ∨ n ≤ s.clock.sec then endAction s .capped e
      else endAction (extendTo s u (clampSec n)) .ok (clampSec n)
    else endAction s .notHeld 0
  | _ => s

/-- BANK_CLEANING at acceptance (R160). -/
def cleaningFirst (a : Action) (s : State) : State :=
  match a with
  | .bankCleaning b on =>
    endAction { s with engine := { s.engine with cleaning := put s.engine.cleaning b on } } .ok 0
  | _ => s

/-- BLOCK_BAND at acceptance (R10). -/
def blockFirst (a : Action) (s : State) : State :=
  match a with
  | .blockBand b =>
    if s.engine.overlay.contains b || s.tables.blocks.contains b then endAction s .ok 0
    else if s.engine.overlay.length < Config.overlayPlaces then
      endAction { s with engine := { s.engine with overlay := s.engine.overlay ++ [b] } } .ok 0
    else endAction s .full 0
  | _ => s

/-- RELOAD_TABLES at acceptance (R14): the load begins. -/
def reloadFirst (a : Action) (s : State) : State :=
  match a with
  | .reloadTables => s.beginLoad .reload
  | _ => s

/-- RESET_BANK at acceptance (R111, R161). -/
def resetBankFirst (a : Action) (s : State) : State :=
  match a with
  | .resetBank b =>
    if (s.bank b).state = .absent then endAction s .ok BankState.absent.code else enterResetting s b
  | _ => s

/-- The report of the controller on the bank being reset. -/
def EngEvent.isResetDone (b : BankIx) : EngEvent → Bool
  | .resetDone c _ _ _ => c = b
  | _ => false

/-- RESET_BANK_DONE: the controller's report ends the action (R161, R184). -/
def resetBankDone (s : State) : State :=
  if !s.engineOn then s else
  match s.engine.runningSlot with
  | some r =>
    match r.action with
    | .resetBank b =>
      match takeFirst (EngEvent.isResetDone b) s.engine.inbox with
      | some (.resetDone _ st code count, rest) =>
        endAction (s.setInbox rest) .ok (st.code + ((code.map FaultCode.code).getD 0) * 256 + count * 65536)
      | _ => s
    | _ => s
  | none => s

/-! ### CLEAR_EVACUATION (R162) -/

/-- The cabins in EVAC_OPEN, ascending. -/
def State.evacOpenCabins (s : State) : List UnitIx := s.cabins.filter fun u => (s.unit u).state = .evacOpen

/-- CLEAR_EVACUATION at acceptance (R162). Every OPEN follow-up entry is removed, in either mode (R177). DEDUCED,
log 19. -/
def clearEvacuationFirst (a : Action) (s : State) : State :=
  match a with
  | .clearEvacuation =>
    let t := s.setFollow (s.engine.follow.filter fun e => e.2 = .toClose)
    if s.tables.options.evacMode = .level ∨ s.evacOpenCabins = [] then endAction t .notActive 0
    else listUnits t s.evacOpenCabins
  | _ => s

/-- The step of CLEAR_EVACUATION on a cabin (R162). -/
def clearStep (s : State) (u : UnitIx) : StepEnd :=
  let r := s.unit u
  if r.state ≠ .evacOpen then ⟨s, .done .ok⟩
  else if s.inHand u then ⟨s, .watchFinish⟩
  else if r.suspended then ⟨enter s u .closing, .done .ok⟩
  else ⟨handOver (enter s u .closing) u .throw .normal, .done .ok⟩

/-- The step is made and recorded, with the cabins put into CLOSING counted. -/
def clearOne (s : State) (u : UnitIx) : State :=
  record u (if (s.unit u).state = .evacOpen ∧ s.inHand u = false then 1 else 0) (clearStep s u)

/-- CLEAR_EVACUATION_STEP: the next cabin of the list (R162). -/
def clearEvacuationStep (s : State) : State :=
  if !s.engineOn then s else
  match s.engine.runningSlot with
  | some r =>
    match r.action, r.firstDue s with
    | .clearEvacuation, some u => clearOne s u
    | _, _ => s
  | none => s

/-! ### Repeated steps and outcomes (R153) -/

/-- A step is taken again for a unit. -/
def repeatStep (s : State) (a : Action) (u : UnitIx) : State :=
  match a with
  | .releaseUnit _ => releaseOne s u
  | .releaseBand b => releaseOfBand s b u
  | .openUnit _ => openOne s u
  | .clearEvacuation => clearOne s u
  | _ => s

/-- ACTION_STEP_REPEAT: the step of the first unit whose movement has left is taken again (R153). -/
def stepRepeat (s : State) : State :=
  if !s.engineOn then s else
  match s.engine.runningSlot with
  | some r =>
    if r.unitsAt .again = [] then s else
    let t := s.noteHeld
    match r.firstAgain t with
    | some u => pump (repeatStep (t.unhold (.step u)) r.action u)
    | none => t
  | none => s

/-- The first unit, in list order, with an outcome to record. DESIGN CHOICE, log 42. -/
def Running.firstOutcome (r : Running) : Option (UnitIx × Result) :=
  r.items.findSome? fun i => match i.stage with | .outcome o => some (i.unit, o) | _ => none

/-- ACTION_OUTCOME: the outcome of a watched handed movement is recorded (R153). -/
def actionOutcome (s : State) : State :=
  if !s.engineOn then s else
  match s.engine.runningSlot with
  | some r =>
    match r.firstOutcome with
    | some (u, o) => record u 0 ⟨s, .done o⟩
    | none => s
  | none => s

/-! ### The commands -/

/-- RELEASE_UNIT (R154). -/
def execReleaseUnit (s : State) : Host.Outcome State Fault Refusal := .next (accept s 1 releaseUnitFirst)

/-- RELEASE_BAND (R156). -/
def execReleaseBand (s : State) : Host.Outcome State Fault Refusal := .next (accept s 2 releaseBandFirst)

/-- RELEASE_BAND_STEP (R156). -/
def execReleaseBandStep (s : State) : Host.Outcome State Fault Refusal := .next (releaseBandStep s)

/-- OPEN_UNIT (R157). -/
def execOpenUnit (s : State) : Host.Outcome State Fault Refusal := .next (accept s 3 openUnitFirst)

/-- SET_OUT_OF_SERVICE (R158). -/
def execSetOutOfService (s : State) : Host.Outcome State Fault Refusal := .next (accept s 4 outOfServiceFirst)

/-- RETURN_TO_SERVICE (R159). -/
def execReturnToService (s : State) : Host.Outcome State Fault Refusal := .next (accept s 5 returnFirst)

/-- CLEAR_FAULT (R159). -/
def execClearFault (s : State) : Host.Outcome State Fault Refusal := .next (accept s 6 clearFaultFirst)

/-- EXTEND_CABIN (R66). -/
def execExtendCabin (s : State) : Host.Outcome State Fault Refusal := .next (accept s 7 extendFirst)

/-- BANK_CLEANING (R160). -/
def execBankCleaning (s : State) : Host.Outcome State Fault Refusal := .next (accept s 8 cleaningFirst)

/-- BLOCK_BAND (R10). -/
def execBlockBand (s : State) : Host.Outcome State Fault Refusal := .next (accept s 9 blockFirst)

/-- RELOAD_TABLES (R14). -/
def execReloadTables (s : State) : Host.Outcome State Fault Refusal := .next (accept s 10 reloadFirst)

/-- RESET_BANK (R161). -/
def execResetBank (s : State) : Host.Outcome State Fault Refusal := .next (accept s 11 resetBankFirst)

/-- RESET_BANK_DONE (R161). -/
def execResetBankDone (s : State) : Host.Outcome State Fault Refusal := .next (resetBankDone s)

/-- CLEAR_EVACUATION (R162). -/
def execClearEvacuation (s : State) : Host.Outcome State Fault Refusal := .next (accept s 12 clearEvacuationFirst)

/-- CLEAR_EVACUATION_STEP (R162). -/
def execClearEvacuationStep (s : State) : Host.Outcome State Fault Refusal := .next (clearEvacuationStep s)

/-- ACTION_STEP_REPEAT (R153). -/
def execActionStepRepeat (s : State) : Host.Outcome State Fault Refusal := .next (stepRepeat s)

/-- ACTION_OUTCOME (R153). -/
def execActionOutcome (s : State) : Host.Outcome State Fault Refusal := .next (actionOutcome s)

end Sys2Proof.Machine
end

