-- ==== Sys2Proof/Machine/Storing.lean ====
section
/-! DEFINITION. The Store Controller's management commands and timers (7.3 to 7.5), and the ends of port
operations (7.1, 7.2). -/

namespace Sys2Proof.Machine

/-- The answer a frame gets (R166). -/
inductive Answer where
  | ack
  | nak (why : Nak)
  | reply (payload : List Byte)
  deriving DecidableEq, Repr

/-- A store write frame that passed the checks of R136. -/
inductive StoreWrite where
  | unlock1 (code : Nat)
  | unlock2 (code : Nat)
  | program (seg slot : Nat) (content : List Byte)
  | erase (seg : Nat)
  | clear
  deriving DecidableEq, Repr

/-- The command state replaced. -/
def State.setCmd (s : State) (c : CmdState) : State := { s with mgmt := { s.mgmt with state := c } }

/-- The command state replaced, with its timer started afresh (R136). -/
def State.setCmdFor (s : State) (c : CmdState) (ms : Nat) : State :=
  { s with mgmt := { s.mgmt with state := c, deadline := after s.clock.ms ms } }

/-- A segment joins the erase list, in ascending order and once (R139). -/
def insertSeg (l : List Nat) (g : Nat) : List Nat :=
  match l with
  | [] => [g]
  | x :: rest => if x < g then x :: insertSeg rest g else if x = g then x :: rest else g :: x :: rest

/-- A STORE-PROGRAM taken in UNLOCKED (R138): protection is judged now. -/
def takeProgram (s : State) (ref : Ref) (content : List Byte) : State :=
  let t := s.setCmdFor .programming Config.protectedProgram
  { t with mgmt := { t.mgmt with target := some ⟨ref, content, s.guardedSeg ref.seg, false⟩ } }

/-- A STORE-ERASE that opens or extends the erase window (R139). -/
def takeErase (s : State) (seg : Nat) : State :=
  let t := s.setCmdFor .eraseWindow Config.eraseWindow
  { t with mgmt := { t.mgmt with eraseList := insertSeg t.mgmt.eraseList seg } }

/-- The sequence is broken (R137, R139): READY, with the erase list emptied. -/
def brokenSequence (s : State) : State × Answer :=
  ({ s with mgmt := { s.mgmt with state := .ready, eraseList := [] } }, .nak .sequence)

/-- The state table of the store write frames (R137–R139, R141). -/
def storeWrite (s : State) (w : StoreWrite) : State × Answer :=
  match s.mgmt.state, w with
  | .ready, .unlock1 c =>
    if c = s.line.station.toNat then (s.setCmdFor .step1 Config.stepTimer, .ack) else (s, .nak .sequence)
  | .ready, _ => (s, .nak .sequence)
  | .step1, .unlock2 c =>
    if c = 255 - s.line.station.toNat then (s.setCmdFor .unlocked Config.stepTimer, .ack) else brokenSequence s
  | .step1, _ => brokenSequence s
  | .unlocked, .program seg slot content => (takeProgram s ⟨seg, slot⟩ content, .ack)
  | .unlocked, .erase seg => (takeErase s seg, .ack)
  | .unlocked, _ => brokenSequence s
  | .eraseWindow, .erase seg => (takeErase s seg, .ack)
  | .eraseWindow, _ => brokenSequence s
  | .programming, _ => (s, .nak .busy)
  | .erasing, _ => (s, .nak .busy)
  | .failed, .clear => (s.setCmd .ready, .ack)
  | .failed, _ => (s, .nak .failed)

/-- The step timer runs out (R137). -/
def stepExpiry (s : State) : State :=
  if (s.mgmt.state = .step1 ∨ s.mgmt.state = .unlocked) ∧ reached s.clock.ms s.mgmt.deadline then s.setCmd .ready
  else s

/-- The erase window runs out (R140): the listed segments are judged, and the erase list is requested where one
is not protected. Where all are, the list stands until the 100 ms have passed. During a warm restart the window stays
open (R147). -/
def windowExpiry (s : State) : State :=
  if s.mgmt.state = .eraseWindow ∧ s.restart = none ∧ reached s.clock.ms s.mgmt.deadline then
    let skipped := s.mgmt.eraseList.filter s.guardedSeg
    let set := s.mgmt.eraseList.filter fun g => !s.guardedSeg g
    let t := s.setCmdFor .erasing Config.protectedErase
    let left := if set = [] then s.mgmt.eraseList else set
    let t := { t with mgmt := { t.mgmt with eraseList := left, skipped := skipped, eraseSet := set } }
    pump (if set = [] then t else t.setPort { t.port with listErase := true })
  else s

/-- A protected program's 2 ms have passed (R138). -/
def guardedProgramDone (s : State) : State :=
  match s.mgmt.state, s.mgmt.target with
  | .programming, some t =>
    if t.guarded ∧ reached s.clock.ms s.mgmt.deadline then
      postProgramDone (endCommand s .ready .protect) .protect t.ref
    else s
  | _, _ => s

/-- An all-protected erase list's 100 ms have passed (R140). -/
def guardedEraseDone (s : State) : State :=
  if s.mgmt.state = .erasing ∧ s.mgmt.eraseSet = [] ∧ reached s.clock.ms s.mgmt.deadline then
    postEraseDone (endCommand s .ready .protect) .protect [] s.mgmt.skipped
  else s

/-- The program under way ends, if it is of the kind named (R131). -/
def programEnd (s : State) (k : ProgKind) (f : State → Program → State) : State :=
  match s.port.program with
  | some p => if p.kind = k then pump (f s p) else s
  | none => s

/-- The erase proper under way completes (R132). One whose suspension has been asked for is suspended first, and
completes once it has resumed (R134). -/
def eraseProperEnd (s : State) : State :=
  match s.port.erase with
  | some e => if e.phase = .active then pump (endErase s e) else s
  | none => s

/-- The suspension of the erase takes effect (R134). -/
def eraseSuspended (s : State) : State :=
  match s.port.erase with
  | some e => if e.phase = .suspending then pump (s.erasePhase .suspended) else s
  | none => s

/-! ### The commands -/

/-- STEP_TIMER_EXPIRY (R137). -/
def execStepTimerExpiry (s : State) : Host.Outcome State Fault Refusal := .next (stepExpiry s)

/-- ERASE_WINDOW_EXPIRY (R140). -/
def execEraseWindowExpiry (s : State) : Host.Outcome State Fault Refusal := .next (windowExpiry s)

/-- PROTECTED_PROGRAM_DONE (R138). -/
def execProtectedProgramDone (s : State) : Host.Outcome State Fault Refusal := .next (guardedProgramDone s)

/-- PROTECTED_ERASE_DONE (R140). -/
def execProtectedEraseDone (s : State) : Host.Outcome State Fault Refusal := .next (guardedEraseDone s)

/-- BODY_PROGRAM_END (R131). -/
def execBodyProgramEnd (s : State) : Host.Outcome State Fault Refusal := .next (programEnd s .body endBody)

/-- VALID_MARK_PROGRAM_END (R117). -/
def execValidMarkProgramEnd (s : State) : Host.Outcome State Fault Refusal := .next (programEnd s .valid endValid)

/-- RETIRED_MARK_PROGRAM_END (R132). -/
def execRetiredMarkProgramEnd (s : State) : Host.Outcome State Fault Refusal :=
  .next (programEnd s .retired endRetired)

/-- ERASE_PROPER_END (R132). -/
def execEraseProperEnd (s : State) : Host.Outcome State Fault Refusal := .next (eraseProperEnd s)

/-- ERASE_SUSPENDED (R134). -/
def execEraseSuspended (s : State) : Host.Outcome State Fault Refusal := .next (eraseSuspended s)

end Sys2Proof.Machine
end

