-- ==== Sys2Proof/Machine/Line.lean ====
section
/-! DEFINITION. The Site Line Port and the Frame Handler (chapter 9): receiving, judging, and the reply to each
frame kind, with the layouts of R183 and R184. -/

namespace Sys2Proof.Machine

/-! ### The port (R164–R166) -/

/-- The receive condition replaced. -/
def State.setCond (s : State) (c : LineCond) : State := { s with line := { s.line with cond := c } }

/-- The line has been idle for more than 2 character times (R164): HUNT, once journal replay has ended (R180). -/
def lineQuiet (s : State) : State :=
  if s.line.cond = .quietWait ∧ s.startUp = .running then s.setCond .hunt else s

/-- A character 0xC5 received in HUNT (R164). In any other condition it starts nothing: in RECEIVING it belongs to
the frame that is arriving, whose command carries its bytes. DESIGN CHOICE, log 7. -/
def startByte (s : State) : State :=
  if s.line.cond = .hunt then { s with line := { s.line with cond := .receiving, buffer := [] } } else s

/-- The frame being received is abandoned (R164). -/
def frameAbandon (s : State) : State := if s.line.cond = .receiving then s.setCond .quietWait else s

/-- The last stop bit of the reply is sent: the line is released (R166). -/
def replySent (s : State) : State :=
  if s.line.cond = .replying then { s with line := { s.line with cond := .quietWait, reply := [] } } else s

/-- The bytes the CRC is computed over: station, kind, length and payload (R165). -/
def frameBody (station kind : Byte) (payload : List Byte) : List Byte :=
  [station, kind, BitVec.ofNat 8 payload.length] ++ payload

/-- A frame as sent: the start byte, the body, and the CRC, high byte first (R183). -/
def frameBytes (station kind : Byte) (payload : List Byte) : List Byte :=
  let body := frameBody station kind payload
  0xC5#8 :: body ++ byte2 (crc16 body).toNat

/-- The frame passes the CRC and names this part's station, which must be 1–30 (R163, R165). -/
def State.frameGood (s : State) (kind : Byte) (f : Frame) : Bool :=
  f.crc = crc16 (frameBody f.station kind f.payload) && f.station = s.line.station.zeroExtend 8 &&
    s.line.station ≠ 0 && s.line.station ≠ 31

/-- The payload of an answer to a frame kind, and the kind byte of its reply (R183). -/
def Answer.kindAndPayload (kind : Byte) : Answer → Byte × List Byte
  | .ack => (0xF0#8, [kind])
  | .nak why => (0xF1#8, kind :: byte1 why.code)
  | .reply p => (kind + 0x80#8, p)

/-- The reply to a frame is built and its sending begins (R166). -/
def sendReply (s : State) (kind : Byte) (a : Answer) : State :=
  let kp := a.kindAndPayload kind
  { s with line :=
    { s.line with cond := .replying, reply := frameBytes (s.line.station.zeroExtend 8) kp.1 kp.2 } }

/-- The receive buffer after the second CRC byte. -/
def fillBuffer (s : State) (kind : Byte) (f : Frame) : State :=
  { s with line := { s.line with buffer := frameBody f.station kind f.payload ++ byte2 f.crc.toNat } }

/-- A complete frame arrives (R164–R166): abandoned where its length is above 240, discarded where it fails its
CRC or names another station, otherwise handled whole in this event and answered. A frame arrives only while the
port is RECEIVING. DESIGN CHOICE, log 7. -/
def takeFrame (s : State) (kind : Byte) (f : Frame) (handle : State → List Byte → State × Answer) : State :=
  if s.line.cond ≠ .receiving then s
  else if Config.payloadMax < f.payload.length then s.setCond .quietWait
  else
    let t := fillBuffer s kind f
    if s.frameGood kind f then
      let r := handle t f.payload
      sendReply r.1 kind r.2
    else t.setCond .quietWait

/-- The length check every kind but ACTION and the store write frames makes before anything else (R167). -/
def withLength (n : Nat) (handle : State → List Byte → State × Answer) (s : State) (p : List Byte) : State × Answer :=
  if p.length = n then handle s p else (s, .nak .badLength)

/-- A handler that reads the part and changes nothing. -/
def readOnly (read : State → List Byte → Answer) (s : State) (p : List Byte) : State × Answer := (s, read s p)

/-! ### POLL (R169, R170, R184) -/

/-- A flag in a bit of a byte. -/
def bitAt (i : Nat) (b : Bool) : Nat := if b then 2 ^ i else 0

/-- The reclaim state's two bits. -/
def Reclaim.code : Reclaim → Nat
  | .idle => 0 | .copying _ => 1 | .erasePending => 2

/-- Segments remaining (R142). -/
def Mgmt.remaining (m : Mgmt) : Nat := if m.state = .eraseWindow ∨ m.state = .erasing then m.eraseList.length else 0

/-- The 4 bytes of a bank in the summary (R184). -/
def State.bankSummary (s : State) (b : BankIx) : List Byte :=
  let k := s.bank b
  byte1 k.state.code ++ byte1 ((k.faultCode.map (·.code)).getD 0) ++ byte1 k.failures ++
    byte1 (s.tables.banks.get b).nodeCount

/-- The 50-byte summary, with the reply number, the notices left and the notices carried (R170, R184). -/
def State.summaryBytes (s : State) (number left carried : Nat) : List Byte :=
  byte1 number ++ byte4 s.clock.sec ++
    byte1 (bitAt 0 s.notices.missed + bitAt 1 s.restart.isSome + bitAt 2 s.inputs.active +
      bitAt 3 (s.tables.options.evacMode = .edge) + bitAt 4 s.inputs.evacuate) ++
    byte1 left ++
    byte1 ((s.engine.pendingSlot.map (·.code)).getD 0) ++
    byte1 ((s.engine.runningSlot.map (·.action.code)).getD 0) ++
    byte1 s.mgmt.state.code ++ byte1 s.mgmt.remaining ++ byte1 ((s.mgmt.lastResult.map (·.code)).getD 0) ++
    byte1 (bitAt 0 s.journal.stalled + 2 * s.journal.reclaim.code) ++ byte1 s.journal.blanks ++
    allBanks.flatMap s.bankSummary ++
    byte1 s.taps.records.length ++ byte1 s.taps.reservations ++ byte1 s.drive.used ++ byte1 carried

/-- A fresh STATUS-REPLY (R169). -/
def freshPoll (s : State) : State × Answer :=
  let carried := s.notices.list.take Config.noticesPerPoll
  let left := s.notices.list.drop Config.noticesPerPoll
  let number := s.line.replyNumber + 1
  let payload := s.summaryBytes number.toNat left.length carried.length ++ carried.flatMap Notice.bytes
  ({ s with
      notices := ⟨left, false⟩
      line := { s.line with replyNumber := number, pollCopy := some payload } }, .reply payload)

/-- POLL (R169). -/
def handlePoll (s : State) (p : List Byte) : State × Answer :=
  match field p 0 1, s.line.pollCopy with
  | 0, _ => freshPoll s
  | 1, none => freshPoll s
  | 1, some copy => (s, .reply copy)
  | _, _ => (s, .nak .badArgument)

/-! ### READ-UNIT (R52, R87, R112, R184) -/

/-- A store ref. -/
def Ref.bytes (r : Ref) : List Byte := byte1 r.seg ++ byte1 r.slot

/-- The time left to a millisecond moment, 0 once it has come. -/
def Millis.left (now t : Millis) : Nat := if reached now t then 0 else (t - now).toNat

/-- The place of the unit's actuation in the waiting list, from 0 at the head. -/
def Drive.position (d : Drive) (u : UnitIx) : Nat := (d.waiting.takeWhile fun a => a.unit ≠ u).length

/-- The actuation of R87: op, class, attempt, condition, position while waiting, delivered, recorded current while
granted, time to its pulse end while granted and delivered; NONE as codes of 0. DEDUCED, log 29. DESIGN CHOICE, log 56:
delivered is a plain flag byte, 0 while waiting or awaiting verify. -/
def State.actuationBytes (s : State) (u : UnitIx) : List Byte :=
  let shown (a : Actuation) (condition : Nat) (position : Option Nat) (granted : Bool) : List Byte :=
    byte1 a.op.code ++ byte1 a.urgency.code ++ byte1 a.attempt ++ byte1 condition ++ optBytes position byte1 ++
      flagByte (granted && a.delivered) ++ optBytes (if granted then a.current else none) byte2 ++
      optBytes (if granted && a.delivered then a.pulseEnd else none) fun t => byte4 (Millis.left s.clock.ms t)
  match s.drive.waiting.find? (·.unit = u), s.drive.granted.find? (·.unit = u),
      s.drive.awaiting.find? (·.unit = u) with
  | some a, _, _ => shown a 1 (some (s.drive.position u)) false
  | none, some a, _ => shown a 2 none true
  | none, none, some a => shown a 3 none false
  | none, none, none => [0, 0, 0, 0, 0, 0, 0, 0]

/-- The unit record of R52. DEDUCED, log 29: purpose, release reason, deferred op and its class are codes, 0 where absent
(R184), with no presence byte. -/
def State.recordBytes (s : State) (u : UnitIx) : List Byte :=
  let r := s.unit u
  let k := s.kind u
  let c := s.cell u
  byte1 k.code ++ byte1 (s.zone u).1 ++ byte1 (r.state.code k) ++ optBytes r.holder (fun b => byte4 b.toNat) ++
    byte4 r.boundAt ++ flagByte r.restored ++
    byte1 ((r.purpose.map (·.code)).getD 0) ++ byte1 ((r.purpose.map (·.reasonCode)).getD 0) ++
    optBytes r.journalRef Ref.bytes ++ optBytes r.stateRef Ref.bytes ++
    flagByte r.latchSeen ++ flagByte r.overstay ++ flagByte r.suspended ++
    byte1 ((r.deferred.map (·.1.code)).getD 0) ++ byte1 ((r.deferred.map (·.2.code)).getD 0) ++
    byte1 r.lamp.steady.code ++ optBytes r.lamp.transient (fun t => byte1 t.1.code ++ byte4 t.2.toNat) ++
    flagByte r.lamp.beep ++
    flagByte c.door ++ flagByte c.bolt ++ flagByte c.pulse ++ flagByte c.latch ++ flagByte c.tamper

/-- The cabin times and the timer entry (R52, R59, R184). -/
def State.timeBytes (s : State) (u : UnitIx) : List Byte :=
  let r := s.unit u
  (if s.kind u = .cabin then
    optBytes r.allowance byte1 ++ optBytes r.expiry byte4 ++ optBytes r.warningAt byte4 ++ optBytes r.graceEnd byte4
   else []) ++
  optBytes (s.timers.find? fun e => e.unit = u) fun e => byte1 e.kind.code ++ byte4 e.due

/-- The identity, the tap memory and the reservation of R112. DEDUCED, log 29. -/
def State.chainBytes (s : State) (u : UnitIx) : List Byte :=
  let m := s.tapMemory.get u
  optBytes (s.identities.get u) (fun i => byte1 i.kind.toNat ++ byte1 i.revision.toNat ++ byte2 i.serial.toNat) ++
    optBytes m.keptBand (fun b => byte4 b.toNat) ++ optBytes m.keptTime (fun t => byte4 t.toNat) ++
    optBytes m.seq (fun q => byte1 q.toNat) ++ flagByte ((s.bank (bankOf u)).granted.contains u)

/-- READ-UNIT (R52). -/
def answerUnit (s : State) (p : List Byte) : Answer :=
  match unitIx? (field p 0 2) with
  | none => .nak .badArgument
  | some u => .reply (s.recordBytes u ++ s.timeBytes u ++ s.actuationBytes u ++ s.chainBytes u)

/-! ### READ-BAND, READ-ZONE, READ-TABLE (R18, R52, R55, R184) -/

/-- READ-BAND (R52). -/
def answerBand (s : State) (p : List Byte) : Answer :=
  let b : Band := BitVec.ofNat 32 (field p 0 4)
  match bandEntry s.bands b with
  | none => .reply (byte4 b.toNat ++ [0])
  | some e =>
    .reply (byte4 b.toNat ++ [1] ++ byte1 e.cls.1 ++ byte4 e.firstBound ++ byte1 e.held.length ++
      e.held.flatMap fun u => byte2 u.1)

/-- READ-ZONE (R55). -/
def answerZone (s : State) (p : List Byte) : Answer :=
  match ix16? (field p 0 1) with
  | none => .nak .badArgument
  | some z =>
    let r := s.tables.zones.get z
    .reply (byte1 z.1 ++ byte2 r.cabins ++ byte2 (s.occupancy z) ++ byte2 r.threshold)

/-- The option values (R18). -/
def Options.bytes (o : Options) : List Byte :=
  byte2 o.railLimit ++ byte4 o.repeatWindow ++ byte1 o.qualityMin ++ byte1 o.evacMode.code ++
    byte2 o.protectedSet.toNat

/-- A class entry (R3, R18). -/
def ClassRec.bytes (c : ClassRec) : List Byte :=
  byte1 c.lockerQuota ++ byte1 c.cabinQuota ++ byte2 c.zones.toNat ++ flagByte c.keep ++ byte1 c.base ++
    byte1 c.floor ++ byte4 c.ajarIdle ++ flagByte c.supplied

/-- A zone entry (R4, R18). DESIGN CHOICE, log 56: N and T as 2 bytes each. -/
def ZoneRec.bytes (z : ZoneRec) : List Byte :=
  byte2 z.cabins ++ byte2 z.threshold ++ byte4 z.warningLead ++ byte4 z.grace ++ flagByte z.supplied

/-- A bank entry (R5, R18). -/
def BankRec.bytes (b : BankRec) : List Byte :=
  byte1 b.nodeCount ++ byte1 b.pulseLength ++ byte2 b.coilCurrent ++ byte4 b.sweep ++ flagByte b.supplied

/-- The load summary (R18). DESIGN CHOICE, log 56: all 0 before the first load, and the lists cut packed as bits 0–2 of
one byte. -/
def summaryItem : Option LoadSummary → List Byte
  | none => [0, 0, 0, 0, 0, 0, 0, 0]
  | some m =>
    byte1 m.cause.code ++ byte1 m.result.code ++ byte1 m.permits ++ byte2 m.blocks ++ byte1 m.masters ++
      byte1 (bitAt 0 m.cuts.permits + bitAt 1 m.cuts.blocks + bitAt 2 m.cuts.masters) ++
      optBytes m.conflict fun u => byte2 u.1

/-- A place of a list within its capacity: the item, or EMPTY beyond those held (R18). DEDUCED, log 29. -/
def listItem {α : Type} (cap i : Nat) (l : List α) (f : α → List Byte) : Answer :=
  if i < cap then .reply (optBytes l[i]? f) else .nak .badArgument

/-- A band id. -/
def bandBytes (b : Band) : List Byte := byte4 b.toNat

/-- READ-TABLE (R18, R183). -/
def answerTable (s : State) (p : List Byte) : Answer :=
  let i := field p 1 2
  let t := s.tables
  match field p 0 1 with
  | 1 => .reply t.options.bytes
  | 2 => match ix16? i with
    | some c => .reply (t.classes.get c).bytes
    | none => .nak .badArgument
  | 3 => match ix16? i with
    | some z => .reply (t.zones.get z).bytes
    | none => .nak .badArgument
  | 4 => match bankIx? i with
    | some b => .reply (t.banks.get b).bytes
    | none => .nak .badArgument
  | 5 => match unitIx? i with
    | some u => .reply (byte1 (t.unitMap.get u).kind.code ++ byte1 (t.unitMap.get u).zone.1)
    | none => .nak .badArgument
  | 6 => listItem Config.permitPlaces i t.permits fun r => bandBytes r.low ++ bandBytes r.high ++ byte1 r.cls.1
  | 7 => listItem Config.blockPlaces i t.blocks bandBytes
  | 8 => listItem Config.masterPlaces i t.masters bandBytes
  | 9 => listItem Config.overlayPlaces i s.engine.overlay bandBytes
  | 10 => .reply (summaryItem s.summary)
  | _ => .nak .badArgument

/-! ### ACTION, CANCEL, LAMP, RESTART (R148, R151, R168) -/

/-- ACTION: the cases of R148 in order. What waits already has arrived before the action accepted (R24), which has waited
behind no tap yet (R150). -/
def handleAction (s : State) (p : List Byte) : State × Answer :=
  if s.restart.isSome then (s, .nak .busy)
  else if p = [] then (s, .nak .badLength)
  else if actionLength (field p 0 1) = 0 then (s, .nak .badArgument)
  else if p.length ≠ actionLength (field p 0 1) then (s, .nak .badLength)
  else
    match action? s p with
    | none => (s, .nak .badArgument)
    | some a =>
      if s.engine.pendingSlot.isSome then (s, .nak .busy)
      else
        let t := s.noteArrivals
        ({ t with engine := { t.engine with
            pendingSlot := some a
            tapAhead := false
            held := s.engine.held.filter (· ≠ .accept) } }, .ack)

/-- CANCEL (R151, R184). -/
def handleCancel (s : State) (_ : List Byte) : State × Answer :=
  match s.engine.pendingSlot, s.engine.runningSlot with
  | some a, _ => ({ s with engine := { s.engine with pendingSlot := none } }, .reply (byte1 1 ++ byte1 a.code))
  | none, some r => (s, .reply (byte1 2 ++ byte1 r.action.code))
  | none, none => (s, .reply (byte1 3 ++ [0]))

/-- LAMP (R168). -/
def handleLamp (s : State) (p : List Byte) : State × Answer :=
  match unitArg? s (field p 0 2), lamp? (field p 2 1) with
  | some u, some l =>
    if 1 ≤ field p 3 1 ∧ field p 3 1 ≤ 60 then (transient s u l (1000 * field p 3 1), .ack)
    else (s, .nak .badArgument)
  | _, _ => (s, .nak .badArgument)

/-- RESTART (R168, R181): the warm restart begins with its quiesce step, and a reload under way is abandoned
(R14). -/
def handleRestart (s : State) (_ : List Byte) : State × Answer :=
  if s.restart.isSome then (s, .nak .busy) else ({ s with restart := some .quiesce, load := none }, .ack)

/-! ### Store frames (R136–R144, R147) -/

/-- A store write frame that passed its checks: BUSY during a warm restart, STORE-CLEAR apart (R147), then the
state table. The arbiter takes up a program requested. DEDUCED, log 28. -/
def takeStore (s : State) (w : StoreWrite) : State × Answer :=
  if s.restart.isSome ∧ w ≠ .clear then (s, .nak .busy)
  else
    let r := storeWrite s w
    (if s.mgmt.state ≠ .programming ∧ r.1.mgmt.state = .programming then pump r.1 else r.1, r.2)

/-- STORE-UNLOCK-1 (R136, R137). -/
def handleUnlock1 (s : State) (p : List Byte) : State × Answer :=
  if p.length ≠ 1 then (s, .nak .badLength) else takeStore s (.unlock1 (field p 0 1))

/-- STORE-UNLOCK-2 (R136, R137). -/
def handleUnlock2 (s : State) (p : List Byte) : State × Answer :=
  if p.length ≠ 1 then (s, .nak .badLength) else takeStore s (.unlock2 (field p 0 1))

/-- STORE-PROGRAM (R136, R138). -/
def handleProgram (s : State) (p : List Byte) : State × Answer :=
  let seg := field p 0 1
  let slot := field p 1 1
  if p.length ≠ 34 then (s, .nak .badLength)
  else if 31 < seg ∨ 127 < slot then (s, .nak .badArgument)
  else if 15 < seg then (s, .nak .reservedSegment)
  else takeStore s (.program seg slot (p.drop 2))

/-- STORE-ERASE (R136, R139). -/
def handleErase (s : State) (p : List Byte) : State × Answer :=
  let seg := field p 0 1
  if p.length ≠ 1 then (s, .nak .badLength)
  else if 31 < seg then (s, .nak .badArgument)
  else if 15 < seg then (s, .nak .reservedSegment)
  else takeStore s (.erase seg)

/-- STORE-CLEAR (R136, R141). -/
def handleClear (s : State) (p : List Byte) : State × Answer :=
  if p.length ≠ 0 then (s, .nak .badLength) else takeStore s .clear

/-- The segment under a management erase (R142). -/
def Port.managementErase (p : Port) : Option Nat :=
  match p.erase with
  | some e => if e.journal then none else p.underErase
  | none => none

/-- The erase in progress on the port is suspended. -/
def Port.isSuspended (p : Port) : Bool :=
  match p.erase with
  | some e => e.phase = .suspended
  | none => false

/-- STORE-STATUS (R142, R143). DEDUCED, log 29: the last result is a code, 0 where absent (R184), with no presence byte. -/
def handleStatus (s : State) (_ : List Byte) : State × Answer :=
  let m := s.mgmt
  let running : Bool := m.state = .programming || m.state = .erasing
  ({ s with mgmt := { m with toggle := if running then !m.toggle else m.toggle } },
    .reply (byte1 m.state.code ++ byte1 m.remaining ++ optBytes s.port.managementErase byte1 ++
      flagByte s.port.isSuspended ++ flagByte m.toggle ++ byte1 ((m.lastResult.map (·.code)).getD 0) ++
      flagByte s.inputs.serviceKey ++ byte2 s.tables.options.protectedSet.toNat))

/-- The body program of a slot is under way. -/
def Port.programsBody (p : Port) (r : Ref) : Bool :=
  match p.program with
  | some q => q.kind = .body && q.ref = r
  | none => false

/-- STORE-READ (R144). DESIGN CHOICE, log 61: a slot whose body program was cut off is WRITING with its 32 bytes. -/
def answerSlot (s : State) (p : List Byte) : Answer :=
  let r : Ref := ⟨field p 0 1, field p 1 1⟩
  if 31 < r.seg ∨ 127 < r.slot then .nak .badArgument
  else if s.port.underErase = some r.seg then .reply (r.bytes ++ byte1 5)
  else
    let x := s.store.read r.addr
    let whole : Bool :=
      match x.state with
      | .blank => false
      | .writing => !s.port.programsBody r
      | _ => true
    .reply (r.bytes ++ byte1 x.state.code ++ if whole then x.content else [])

/-! ### The commands -/

/-- LINE_QUIET (R164). -/
def execLineQuiet (s : State) : Host.Outcome State Fault Refusal := .next (lineQuiet s)

/-- START_BYTE (R164). -/
def execStartByte (s : State) : Host.Outcome State Fault Refusal := .next (startByte s)

/-- FRAME_ABANDON (R164). -/
def execFrameAbandon (s : State) : Host.Outcome State Fault Refusal := .next (frameAbandon s)

/-- FRAME_DISCARD (R165): a complete frame that fails its CRC or names another station. A frame that passes both
is not discarded. -/
def execFrameDiscard (kind : Byte) (f : Frame) (s : State) : Host.Outcome State Fault Refusal :=
  .next (if s.line.cond = .receiving ∧ s.frameGood kind f = false then (fillBuffer s kind f).setCond .quietWait else s)

/-- REPLY_SENT (R166). -/
def execReplySent (s : State) : Host.Outcome State Fault Refusal := .next (replySent s)

/-- UNKNOWN_KIND (R167). A kind byte that names a frame kind is no unknown kind. -/
def execUnknownKind (kind : Byte) (f : Frame) (s : State) : Host.Outcome State Fault Refusal :=
  .next (if knownKinds.contains kind then s else takeFrame s kind f fun t _ => (t, .nak .unknownKind))

/-- POLL (R169). -/
def execPoll (f : Frame) (s : State) : Host.Outcome State Fault Refusal :=
  .next (takeFrame s 0x01#8 f (withLength 1 handlePoll))

/-- READ_UNIT (R52). -/
def execReadUnit (f : Frame) (s : State) : Host.Outcome State Fault Refusal :=
  .next (takeFrame s 0x02#8 f (withLength 2 (readOnly answerUnit)))

/-- READ_BAND (R52). -/
def execReadBand (f : Frame) (s : State) : Host.Outcome State Fault Refusal :=
  .next (takeFrame s 0x03#8 f (withLength 4 (readOnly answerBand)))

/-- READ_ZONE (R55). -/
def execReadZone (f : Frame) (s : State) : Host.Outcome State Fault Refusal :=
  .next (takeFrame s 0x04#8 f (withLength 1 (readOnly answerZone)))

/-- READ_TABLE (R18). -/
def execReadTable (f : Frame) (s : State) : Host.Outcome State Fault Refusal :=
  .next (takeFrame s 0x05#8 f (withLength 3 (readOnly answerTable)))

/-- ACTION (R148). -/
def execAction (f : Frame) (s : State) : Host.Outcome State Fault Refusal :=
  .next (takeFrame s 0x06#8 f handleAction)

/-- CANCEL (R151). -/
def execCancel (f : Frame) (s : State) : Host.Outcome State Fault Refusal :=
  .next (takeFrame s 0x07#8 f (withLength 0 handleCancel))

/-- LAMP (R168). -/
def execLamp (f : Frame) (s : State) : Host.Outcome State Fault Refusal :=
  .next (takeFrame s 0x08#8 f (withLength 4 handleLamp))

/-- RESTART (R168). -/
def execRestart (f : Frame) (s : State) : Host.Outcome State Fault Refusal :=
  .next (takeFrame s 0x09#8 f (withLength 0 handleRestart))

/-- STORE_UNLOCK_1 (R137). -/
def execStoreUnlock1 (f : Frame) (s : State) : Host.Outcome State Fault Refusal :=
  .next (takeFrame s 0x10#8 f handleUnlock1)

/-- STORE_UNLOCK_2 (R137). -/
def execStoreUnlock2 (f : Frame) (s : State) : Host.Outcome State Fault Refusal :=
  .next (takeFrame s 0x11#8 f handleUnlock2)

/-- STORE_PROGRAM (R138). -/
def execStoreProgram (f : Frame) (s : State) : Host.Outcome State Fault Refusal :=
  .next (takeFrame s 0x12#8 f handleProgram)

/-- STORE_ERASE (R139). -/
def execStoreErase (f : Frame) (s : State) : Host.Outcome State Fault Refusal :=
  .next (takeFrame s 0x13#8 f handleErase)

/-- STORE_CLEAR (R141). -/
def execStoreClear (f : Frame) (s : State) : Host.Outcome State Fault Refusal :=
  .next (takeFrame s 0x14#8 f handleClear)

/-- STORE_STATUS (R142). -/
def execStoreStatus (f : Frame) (s : State) : Host.Outcome State Fault Refusal :=
  .next (takeFrame s 0x15#8 f (withLength 0 handleStatus))

/-- STORE_READ (R144). -/
def execStoreRead (f : Frame) (s : State) : Host.Outcome State Fault Refusal :=
  .next (takeFrame s 0x16#8 f (withLength 2 (readOnly answerSlot)))

end Sys2Proof.Machine
end

