-- ==== Sys2Proof/Machine/Starts.lean ====
section
/-! DEFINITION. Cold start, journal replay and warm restart (6.5, 7.6, chapter 10). -/

namespace Sys2Proof.Machine

/-! ### What a cold start leaves in the store (R146) -/

/-- A program under way is cut off: a body program leaves incomplete content, a mark program leaves the mark
programmed or not. What stands there then is free. -/
def cutProgram (m : Store) (n : Nat) (p : Program) : Store :=
  let a := p.ref.addr
  match p.kind with
  | .body => m.write a ⟨.writing, (List.range 32).map fun i => Config.freeByte (n + i)⟩
  | .valid => if Config.freeChoice n then m.write a { m.read a with state := .valid } else m
  | .retired => if Config.freeChoice n then m.write a { m.read a with state := .retired } else m

/-- An erase proper under way is cut off: slot 0 is RETIRED, and each other slot is BLANK or as it was. -/
def cutErase (m : Store) (n : Nat) (e : Erase) : Store :=
  if e.phase = .retiring true ∨ e.phase = .retiring false then m
  else m.filter fun x => x.1 / 128 ≠ e.seg || x.1 % 128 = 0 || !(Config.freeChoice (n + 1 + x.1 % 128))

/-- What the operations under way on the port leave in the store (R146). -/
def State.cutStore (s : State) : Store :=
  let m := match s.port.program with
    | some p => cutProgram s.store s.freeNext p
    | none => s.store
  match s.port.erase with
  | some e => cutErase m s.freeNext e
  | none => m

/-- Every queue, list, slot and table at its cold-start value (R180); the store keeps what is in it, and every node
is held in reset. -/
def coldState (s : State) (supply : Bool) : State :=
  { State.reset with
    supply := supply
    store := s.cutStore
    chains := tabulate 8 (fun b => (s.chain b).map Node.inReset)
    freeNext := s.freeNext + 256
    pending := s.pending }

/-- Supply falls below its operating range while the part runs (R180). -/
def supplyLoss (s : State) : State := if s.supply then coldState s false else s

/-- RESET is deasserted with supply good (R163, R180): the straps are read and the cold load begins. -/
def deassert (s : State) (rateHigh : Bool) (addr : BitVec 5) : State :=
  if s.startUp = .held ∧ s.supply = true then
    { s.beginLoad .cold with
      startUp := .tables
      line := { s.line with rateHigh := rateHigh, station := addr } }
  else s

/-! ### Replay (R124–R127) -/

/-- Segment a is older than segment b (R124), by their generations. -/
def olderGen (a b : BitVec 32) : Bool := 1 ≤ (b - a).toNat && (b - a).toNat ≤ 2147483647

/-- An in-use segment takes its place before the first that it is older than (R124). DESIGN CHOICE, log 62: segments that
the relation does not put in one order stand as these insertions, in ascending segment order, leave them. -/
def insertOlder (l : List (Nat × BitVec 32)) (x : Nat × BitVec 32) : List (Nat × BitVec 32) :=
  match l with
  | [] => [x]
  | y :: rest => if olderGen x.2 y.2 then x :: y :: rest else y :: insertOlder rest x

/-- The in-use segments, oldest first (R124). Equal generations keep ascending segment order. -/
def State.ringOrder (s : State) : List (Nat × BitVec 32) :=
  (journalSegs.filterMap fun g => (s.segHeader g).map fun h => (g, h)).foldl insertOlder []

/-- What replay keeps for a unit (R125): the restored holder with its BIND's slot, and the restored mark with its
STATE's slot. -/
structure Restored where
  holder : Option (Band × Ref)
  mark : Option (Mark × Ref)

/-- A VALID record is applied (R125). -/
def applyRecord (s : State) (v : Vector Restored 512) (r : Ref) (c : List Byte) : Vector Restored 512 :=
  match jrec? c with
  | none => v
  | some j =>
    let u := j.unit
    if s.kind u ≠ .locker then v
    else
      put v u (match j with
        | .bind _ b _ _ => { v.get u with holder := some (b, r) }
        | .release _ => { v.get u with holder := none }
        | .state _ .returned => { v.get u with mark := none }
        | .state _ m => { v.get u with mark := some (m, r) })

/-- The VALID records of a segment, in slot order (R125). -/
def State.segRecords (s : State) (seg : Nat) : List (Ref × List Byte) :=
  (s.store.filter fun e => e.1 / 128 = seg && e.1 % 128 ≠ 0 && e.2.state = .valid).map fun e =>
    (⟨seg, e.1 % 128⟩, e.2.content)

/-- What replay keeps when reading ends (R125). -/
def State.restored (s : State) : Vector Restored 512 :=
  (s.ringOrder.flatMap fun g => s.segRecords g.1).foldl (fun v rc => applyRecord s v rc.1 rc.2)
    (Vector.replicate 512 ⟨none, none⟩)

/-- A LOCKER's state and fields from what replay kept (R126). -/
def restoreUnit (r : UnitRec) (k : Restored) : UnitRec :=
  let lamp (st : UState) : LampPlan := { r.lamp with steady := steadyLamp .locker st }
  let stateRef := k.mark.map (·.2)
  match k.mark.map (·.1), k.holder with
  | some Mark.outOfService, _ => { r with state := .outOfService, stateRef := stateRef, lamp := lamp .outOfService }
  | some _, some (b, ref) =>
    { r with state := .fault, holder := some b, restored := true, journalRef := some ref, stateRef := stateRef,
             lamp := lamp .fault }
  | some _, none => { r with state := .fault, stateRef := stateRef, lamp := lamp .fault }
  | none, some (b, ref) =>
    { r with state := .held, holder := some b, restored := true, journalRef := some ref, lamp := lamp .held }
  | none, none => r

/-- The Band Index of the restored holders (R21, R126). -/
def indexOf (units : Vector UnitRec 512) : List BandEntry :=
  allUnits.foldl (fun l u => match (units.get u).holder with
    | some b => bindUnit l b u 0 0
    | none => l) []

/-- One past the highest slot of a segment that is not BLANK (R126). -/
def State.nextSlotOf (s : State) (seg : Nat) : Nat :=
  (s.store.filter fun e => e.1 / 128 = seg && e.2.state ≠ .blank).foldl (fun n e => max n (e.1 % 128 + 1)) 1

/-- The Journal Engine's state after replay (R126). -/
def State.replayedJournal (s : State) : Journal :=
  let ring := s.ringOrder
  let newest := ring.getLast?
  { Journal.cold with
    head := newest.map (·.1)
    next := ((newest.map (·.1)).map s.nextSlotOf).getD 1
    headGen := (newest.map (·.2)).getD 0
    tail := ring.head?.map (·.1)
    blanks := (journalSegs.filter s.segBlank).length }

/-- Step 5 of the start-up sequence (R106, R180). -/
def startBanks (s : State) : State :=
  allBanks.foldl (fun t b => if 0 < (t.bankRec b).nodeCount then enterResetting t b else t) s

/-- Replay has nothing left to erase: no segment is dirty, and the port is idle (R124). -/
def State.replayReady (s : State) : Bool :=
  s.startUp = .replay && s.port.program.isNone && s.port.erase.isNone && s.port.journalErase.isNone &&
    !(journalSegs.any s.segDirty)

/-- Replay (R125, R126), then steps 4 and 5 of the start-up sequence (R180). -/
def replay (s : State) : State :=
  if !s.replayReady then s else
  let kept := s.restored
  let units := tabulate 512 fun u => if s.kind u = .locker then restoreUnit (s.unit u) (kept.get u) else s.unit u
  let t := { s with units := units, bands := indexOf units, journal := s.replayedJournal, startUp := .running }
  let t := match t.journal.head with
    | some h => if t.journal.next = 128 then openNext t h else t
    | none => t
  pump (startBanks t)

/-! ### Warm restart (R181) -/

/-- A bank's chain is idle: no pass is under way and none is parked. -/
def Bank.chainIdle (k : Bank) : Bool :=
  match k.activity with
  | .idle | .reserving _ => true
  | _ => false

/-- Every delivered pulse has ended and every chain is idle (R85, R181). -/
def State.quiesced (s : State) : Bool :=
  !(s.drive.granted.any (·.delivered)) && s.drive.detached.isEmpty && allBanks.all fun b => (s.bank b).chainIdle

/-- Step 1 ends (R181). -/
def quiesce (s : State) : State :=
  if s.restart = some .quiesce ∧ s.quiesced = true then { s with restart := some .drain } else s

/-- Step 2 ends (R128, R181). -/
def drained (s : State) : State :=
  if s.restart = some .drain ∧ s.journal.queue = [] then { s with restart := some .store } else s

/-- The units an event held or waiting concerns, that are marked suspended when it is discarded (R181). -/
def EngEvent.lost : EngEvent → List UnitIx
  | .verified u _ _ => [u]
  | .faulted u _ _ => [u]
  | .removed us _ => us
  | .displaced u => [u]
  | _ => []

/-- Every unit that loses a movement at the clearing step (R19, R181). -/
def State.cutUnits (s : State) : List UnitIx :=
  (s.drive.waiting ++ s.drive.granted ++ s.drive.awaiting).map (·.unit) ++ s.engine.inbox.flatMap EngEvent.lost

/-- A unit record at the clearing step: suspended where it lost a movement or held a deferred op, with no beep
request (R19, R181). -/
def UnitRec.cleared (r : UnitRec) (cut : Bool) : UnitRec :=
  { r with
    suspended := r.suspended || cut || r.deferred.isSome
    deferred := none
    lamp := { r.lamp with beep := false, beepSent := false } }

/-- The Tap Queue and the controllers' dealings with it are cleared (R102). -/
def clearTaps (s : State) : State :=
  { s with
    taps := ⟨[], Vector.replicate 8 0⟩
    banks := tabulate 8 (fun b => { s.bank b with granted := [], place := none, release := 0 }) }

/-- The Actuation Queue and the deferred ops are cleared, with every unit that loses a movement suspended, and beep
requests are cleared (R85, R181). Reports of the Journal Engine stay. DEDUCED, log 31. -/
def clearMovements (s : State) : State :=
  let cut := s.cutUnits
  { s with
    units := tabulate 512 (fun u => (s.unit u).cleared (cut.contains u))
    drive := ⟨[], [], [], []⟩
    engine := { s.engine with inbox := s.engine.inbox.filter EngEvent.isStall, held := [], arrived := [], tapAhead := false } }

/-- The pending action is removed with a second ACTION_DONE (R152). -/
def abortPending (s : State) : State :=
  match s.engine.pendingSlot with
  | none => s
  | some a =>
    let t := { s with engine := { s.engine with pendingSlot := none } }
    post t .actionDone (a.code * 16 + Result.aborted.code) a.unit? a.band? 0

/-- The clearing step of a warm restart (R181). DESIGN CHOICE, log 54: ABORTED carries the extra word 0, also for an
action that has counted units. -/
def clearing (s : State) : State :=
  let t := clearMovements (clearTaps s)
  let t := s.engine.follow.foldl (fun t e => followUp t e.1 .removal) t
  abortPending (endAction t .aborted 0)

/-- The management command at the third step of a restart: READY, an open erase window discarded (R147). -/
def Mgmt.settled (m : Mgmt) : Mgmt :=
  { m with state := .ready, eraseList := [], skipped := [], eraseSet := [], target := none }

/-- Step 3 ends, step 4 is made and step 5 begins (R147, R181). -/
def settle (s : State) : State :=
  if s.restart = some .store ∧ s.storeSettled = true then
    let t := clearing { s with mgmt := s.mgmt.settled }
    { t.beginLoad .warm with restart := some .load }
  else s

/-! ### The commands -/

/-- COLD_START (R180). -/
def execColdStart (s : State) : Host.Outcome State Fault Refusal := .next (coldState s true)

/-- RESET_DEASSERTED (R180). -/
def execResetDeasserted (rateHigh : Bool) (addr : BitVec 5) (s : State) : Host.Outcome State Fault Refusal :=
  .next (deassert s rateHigh addr)

/-- JOURNAL_REPLAY (R125). -/
def execJournalReplay (s : State) : Host.Outcome State Fault Refusal := .next (replay s)

/-- RESTART_QUIESCED (R181). -/
def execRestartQuiesced (s : State) : Host.Outcome State Fault Refusal := .next (quiesce s)

/-- RESTART_JOURNAL_DRAINED (R128). -/
def execRestartJournalDrained (s : State) : Host.Outcome State Fault Refusal := .next (drained s)

/-- RESTART_STORE_SETTLED (R147). -/
def execRestartStoreSettled (s : State) : Host.Outcome State Fault Refusal := .next (settle s)

/-- SUPPLY_LOSS (R180). -/
def execSupplyLoss (s : State) : Host.Outcome State Fault Refusal := .next (supplyLoss s)

end Sys2Proof.Machine
end

