-- ==== Sys2Proof/Machine/Dispatch.lean ====
section
/-! DEFINITION. The dispatch of commands: one arm for each constructor of Instr. -/

namespace Sys2Proof.Machine

/-- A command's effect on everything but the queue of waiting commands. -/
def exec (i : Instr) (s : State) : Host.Outcome State Fault Refusal :=
  match i with
  | .coldStart => Sys2Proof.Machine.execColdStart s
  | .resetDeasserted rateHigh addr => Sys2Proof.Machine.execResetDeasserted rateHigh addr s
  | .tableLoadEnd => Sys2Proof.Machine.execTableLoadEnd s
  | .journalReplay => Sys2Proof.Machine.execJournalReplay s
  | .evacuateDebounced asserted => Sys2Proof.Machine.execEvacuateDebounced asserted s
  | .serviceKeyDebounced asserted => Sys2Proof.Machine.execServiceKeyDebounced asserted s
  | .evacuationStart => Sys2Proof.Machine.execEvacuationStart s
  | .evacuationEnd => Sys2Proof.Machine.execEvacuationEnd s
  | .lineQuiet => Sys2Proof.Machine.execLineQuiet s
  | .startByte => Sys2Proof.Machine.execStartByte s
  | .frameAbandon => Sys2Proof.Machine.execFrameAbandon s
  | .frameDiscard kind f => Sys2Proof.Machine.execFrameDiscard kind f s
  | .replySent => Sys2Proof.Machine.execReplySent s
  | .unknownKind kind f => Sys2Proof.Machine.execUnknownKind kind f s
  | .poll f => Sys2Proof.Machine.execPoll f s
  | .readUnit f => Sys2Proof.Machine.execReadUnit f s
  | .readBand f => Sys2Proof.Machine.execReadBand f s
  | .readZone f => Sys2Proof.Machine.execReadZone f s
  | .readTable f => Sys2Proof.Machine.execReadTable f s
  | .action f => Sys2Proof.Machine.execAction f s
  | .cancel f => Sys2Proof.Machine.execCancel f s
  | .lamp f => Sys2Proof.Machine.execLamp f s
  | .restart f => Sys2Proof.Machine.execRestart f s
  | .storeUnlock1 f => Sys2Proof.Machine.execStoreUnlock1 f s
  | .storeUnlock2 f => Sys2Proof.Machine.execStoreUnlock2 f s
  | .storeProgram f => Sys2Proof.Machine.execStoreProgram f s
  | .storeErase f => Sys2Proof.Machine.execStoreErase f s
  | .storeClear f => Sys2Proof.Machine.execStoreClear f s
  | .storeStatus f => Sys2Proof.Machine.execStoreStatus f s
  | .storeRead f => Sys2Proof.Machine.execStoreRead f s
  | .stepTimerExpiry => Sys2Proof.Machine.execStepTimerExpiry s
  | .eraseWindowExpiry => Sys2Proof.Machine.execEraseWindowExpiry s
  | .protectedProgramDone => Sys2Proof.Machine.execProtectedProgramDone s
  | .protectedEraseDone => Sys2Proof.Machine.execProtectedEraseDone s
  | .bodyProgramEnd => Sys2Proof.Machine.execBodyProgramEnd s
  | .validMarkProgramEnd => Sys2Proof.Machine.execValidMarkProgramEnd s
  | .retiredMarkProgramEnd => Sys2Proof.Machine.execRetiredMarkProgramEnd s
  | .eraseProperEnd => Sys2Proof.Machine.execEraseProperEnd s
  | .eraseSuspended => Sys2Proof.Machine.execEraseSuspended s
  | .statusCycleDue bank => Sys2Proof.Machine.execStatusCycleDue bank s
  | .statusModePassEnd bank line => Sys2Proof.Machine.execStatusModePassEnd bank line s
  | .statusDataPassEnd bank line => Sys2Proof.Machine.execStatusDataPassEnd bank line s
  | .tapReserve bank => Sys2Proof.Machine.execTapReserve bank s
  | .fetchModePassEnd bank line => Sys2Proof.Machine.execFetchModePassEnd bank line s
  | .fetchDataPassEnd bank line => Sys2Proof.Machine.execFetchDataPassEnd bank line s
  | .tapPlace bank => Sys2Proof.Machine.execTapPlace bank s
  | .tapRelease bank => Sys2Proof.Machine.execTapRelease bank s
  | .bankResetEnd bank => Sys2Proof.Machine.execBankResetEnd bank s
  | .enumerationPassEnd bank line => Sys2Proof.Machine.execEnumerationPassEnd bank line s
  | .bankRetry bank => Sys2Proof.Machine.execBankRetry bank s
  | .nodeRead bank pos band quality => Sys2Proof.Machine.execNodeRead bank pos band quality s
  | .nodeStallReturn bank pos => Sys2Proof.Machine.execNodeStallReturn bank pos s
  | .nodePulseEnd bank pos => Sys2Proof.Machine.execNodePulseEnd bank pos s
  | .pulseEnd => Sys2Proof.Machine.execPulseEnd s
  | .takeTap => Sys2Proof.Machine.execTakeTap s
  | .observation => Sys2Proof.Machine.execObservation s
  | .reconcile => Sys2Proof.Machine.execReconcile s
  | .verifyResult => Sys2Proof.Machine.execVerifyResult s
  | .faultReport => Sys2Proof.Machine.execFaultReport s
  | .actuationRemoved => Sys2Proof.Machine.execActuationRemoved s
  | .throwDisplaced => Sys2Proof.Machine.execThrowDisplaced s
  | .journalStallReport => Sys2Proof.Machine.execJournalStallReport s
  | .warning => Sys2Proof.Machine.execWarning s
  | .expiry => Sys2Proof.Machine.execExpiry s
  | .graceEnd => Sys2Proof.Machine.execGraceEnd s
  | .ajarIdle => Sys2Proof.Machine.execAjarIdle s
  | .releaseUnit => Sys2Proof.Machine.execReleaseUnit s
  | .releaseBand => Sys2Proof.Machine.execReleaseBand s
  | .releaseBandStep => Sys2Proof.Machine.execReleaseBandStep s
  | .openUnit => Sys2Proof.Machine.execOpenUnit s
  | .setOutOfService => Sys2Proof.Machine.execSetOutOfService s
  | .returnToService => Sys2Proof.Machine.execReturnToService s
  | .clearFault => Sys2Proof.Machine.execClearFault s
  | .extendCabin => Sys2Proof.Machine.execExtendCabin s
  | .bankCleaning => Sys2Proof.Machine.execBankCleaning s
  | .blockBand => Sys2Proof.Machine.execBlockBand s
  | .reloadTables => Sys2Proof.Machine.execReloadTables s
  | .resetBank => Sys2Proof.Machine.execResetBank s
  | .resetBankDone => Sys2Proof.Machine.execResetBankDone s
  | .clearEvacuation => Sys2Proof.Machine.execClearEvacuation s
  | .clearEvacuationStep => Sys2Proof.Machine.execClearEvacuationStep s
  | .actionStepRepeat => Sys2Proof.Machine.execActionStepRepeat s
  | .actionOutcome => Sys2Proof.Machine.execActionOutcome s
  | .restartQuiesced => Sys2Proof.Machine.execRestartQuiesced s
  | .restartJournalDrained => Sys2Proof.Machine.execRestartJournalDrained s
  | .restartStoreSettled => Sys2Proof.Machine.execRestartStoreSettled s
  | .supplyLoss => Sys2Proof.Machine.execSupplyLoss s
  | .nodeSensorChange bank pos door bolt latch tamper => Sys2Proof.Machine.execNodeSensorChange bank pos door bolt latch tamper s
  | .nodePowerUp bank pos kind revision serial => Sys2Proof.Machine.execNodePowerUp bank pos kind revision serial s

end Sys2Proof.Machine
end

