-- ==== Sys2Proof/Safety.lean ====
section
/-! DEFINITION. What a safe state of the LX24 is: the invariants that claims state of every step, and the terms in
which claims say what one command does. -/

namespace Sys2Proof.Machine

/-! ### Invariants -/

/-- The store is in its canonical form. -/
def StoreOk (s : State) : Prop := s.store.wf = true

/-- The Notice Queue holds at most 48 notices (R171). -/
def NoticesOk (s : State) : Prop := s.notices.list.length ≤ Config.noticePlaces

/-- Tap Queue entries plus reservations do not exceed 32 (R102). -/
def TapsOk (s : State) : Prop := s.taps.records.length + s.taps.reservations ≤ Config.tapPlaces

/-- The committed current is within the rail limit in force (R75). -/
def RailOk (s : State) : Prop := s.drive.committed ≤ s.tables.options.railLimit

/-- The Journal Queue holds at most 16 records (R116). -/
def JournalQueueOk (s : State) : Prop := s.journal.queue.length ≤ Config.journalPlaces

/-- The block overlay holds at most 32 ids, with no duplicates (R10). -/
def OverlayOk (s : State) : Prop := s.engine.overlay.length ≤ Config.overlayPlaces ∧ s.engine.overlay.Nodup

/-- The Unit Timer List holds at most one entry for each unit, in ascending due time and then ascending unit index
(R59). -/
def TimersOk (s : State) : Prop :=
  s.timers.Pairwise (fun x y => x.before y = true) ∧ (s.timers.map (·.unit)).Nodup

/-- The Band Index has one entry for each band, none with an empty held list and no unit twice in one, and a unit
stands in a band's held list exactly when the band is its holder (R21). -/
def HoldingsOk (s : State) : Prop :=
  s.bands.Pairwise (fun x y => x.band.toNat < y.band.toNat) ∧
  (∀ e ∈ s.bands, e.held ≠ [] ∧ e.held.Nodup) ∧
  ∀ (u : UnitIx) (b : Band), (s.unit u).holder = some b ↔ u ∈ heldBy s.bands b

/-- The units of all actuations, each place of the queue counted. -/
def Drive.units (d : Drive) : List UnitIx := (d.waiting ++ d.granted ++ d.awaiting).map (·.unit)

/-- How many movements of a unit an event waiting at the Binding Engine reports as having left. -/
def EngEvent.movements (u : UnitIx) : EngEvent → Nat
  | .verified v _ _ => if v = u then 1 else 0
  | .faulted v _ _ => if v = u then 1 else 0
  | .displaced v => if v = u then 1 else 0
  | .removed us _ => us.count u
  | _ => 0

/-- The movements of a unit in hand: its actuations, its deferred op, and reports not yet taken. -/
def State.movements (s : State) (u : UnitIx) : Nat :=
  s.drive.units.count u + (if (s.unit u).deferred.isSome then 1 else 0) +
    (s.engine.inbox.map (EngEvent.movements u)).sum

/-- The Actuation Queue holds at most 64 actuations (R72), and a unit has at most one movement in hand, whether an
actuation, a deferred op or an untaken report (R25, R71). -/
def MovementsOk (s : State) : Prop :=
  s.drive.used ≤ Config.actuationPlaces ∧ ∀ u : UnitIx, s.movements u ≤ 1

/-- A table segment. -/
def tableSeg (g : Nat) : Prop := g ≤ 15

/-- A journal segment (R113). -/
def journalSeg (g : Nat) : Prop := 16 ≤ g ∧ g ≤ 31

/-- The halves of the store are kept apart (R130, R136): management targets, lists, programs and erases name table
segments, and the Journal Engine's head, tail, opening, writes, programs and erases name journal segments. A retiring
program works on slot 0 of the segment whose erase is being begun (R132). -/
def StoreHalvesOk (s : State) : Prop :=
  (∀ x, s.mgmt.target = some x → tableSeg x.ref.seg) ∧
  (∀ g ∈ s.mgmt.eraseList, tableSeg g) ∧
  (∀ h, s.journal.head = some h → journalSeg h) ∧
  (∀ h, s.journal.tail = some h → journalSeg h) ∧
  (∀ h, s.journal.opening = some h → journalSeg h) ∧
  (∀ w, s.journal.write = some w → journalSeg w.ref.seg) ∧
  (∀ g, s.port.journalErase = some g → journalSeg g) ∧
  (∀ e, s.port.erase = some e → if e.journal then journalSeg e.seg else tableSeg e.seg) ∧
  (∀ p, s.port.program = some p →
    match p.owner with
    | .journal => journalSeg p.ref.seg
    | .management => tableSeg p.ref.seg
    | .retiring => ∃ e, s.port.erase = some e ∧ e.phase = .retiring true ∧ p.ref = ⟨e.seg, 0⟩)

/-! ### Notices -/

/-- A notice stamped with the seconds count (R171). -/
def State.notice (s : State) (kind : NoticeKind) (code : Nat) (unit : Option UnitIx) (band : Option Band)
    (extra : Nat) : Notice :=
  ⟨kind, BitVec.ofNat 8 code, unit, band, s.clock.sec, BitVec.ofNat 32 extra⟩

/-- From s to t exactly these notices are posted, in this order (R171). -/
def Posts (s t : State) (ns : List Notice) : Prop := t.notices = ns.foldl NoticeQueue.post s.notices

/-! ### Movements -/

/-- The grant arbiter leaves a movement of the unit in the queue: the unit's bank is RUNNING, and the movement is not
a cabin THROW that LEVEL-mode evacuation withholds (R74, R76). -/
def CanMove (s : State) (u : UnitIx) (op : BoltOp) : Prop :=
  (s.bank (bankOf u)).state = .running ∧ ¬(s.levelEvac = true ∧ op = .throw ∧ s.kind u = .cabin)

/-- A movement of the unit has been handed over between s and t: it is an actuation at attempt 1, waiting or granted,
where the Actuation Queue had a place, and the unit's deferred op where it had none (R25, R72). -/
def Handed (s t : State) (u : UnitIx) (op : BoltOp) (c : Urgency) : Prop :=
  (s.drive.used < Config.actuationPlaces →
    ∃ a ∈ t.drive.waiting ++ t.drive.granted,
      a.unit = u ∧ a.op = op ∧ a.urgency = c ∧ a.attempt = 1 ∧ a.delivered = false ∧ a.pulseEnd = none) ∧
  (Config.actuationPlaces ≤ s.drive.used → (t.unit u).deferred = some (op, c))

/-- The record without its deferred op, which a place that frees takes from any unit (R25). -/
def UnitRec.rest (r : UnitRec) : UnitRec := { r with deferred := none }

/-- Every unit but these keeps its record, a deferred op apart. -/
def OthersKept (s t : State) (us : List UnitIx) : Prop := ∀ v, v ∉ us → (t.unit v).rest = (s.unit v).rest

/-- What handing a movement over may touch: the Drive Scheduler, deferred ops, and reports handed to the Binding
Engine behind those that wait there. -/
def DriveActs (s t : State) : Prop :=
  t = { s with units := t.units, drive := t.drive, engine := t.engine } ∧
  t.engine = { s.engine with inbox := t.engine.inbox } ∧ s.engine.inbox <+: t.engine.inbox ∧ OthersKept s t []

/-- From s to t a movement of the unit is handed over, and nothing else happens but what that may touch. -/
def MovesOn (s t : State) (u : UnitIx) (op : BoltOp) (c : Urgency) : Prop :=
  DriveActs s t ∧ (CanMove s u op → Handed s t u op c)

/-- From m to t the grant arbiter examines the head of the waiting list, and the next for as long as one leaves it (R74
to R76). A head of a RUNNING bank that is not withheld is granted, with its bank's coil current recorded, where that fits
in the rail limit, and stays where it does not; one of another bank is removed with a report, a cabin THROW that
LEVEL-mode evacuation withholds is displaced with a report. Nothing is examined during a warm restart (R85). -/
def Examined (m t : State) : Prop :=
  let coil (u : UnitIx) : Nat := (m.tables.banks.get (bankOf u)).coilCurrent
  let granted (a : Actuation) : Actuation := { a with current := some (coil a.unit) }
  DriveActs m t ∧ t.drive.awaiting = m.drive.awaiting ∧ t.drive.detached = m.drive.detached ∧
  m.drive.granted <+: t.drive.granted ∧
  (∀ a ∈ t.drive.granted.drop m.drive.granted.length, CanMove m a.unit a.op ∧ a.current = some (coil a.unit)) ∧
  (∀ x ∈ m.drive.waiting, x ∈ t.drive.waiting ∨ (CanMove m x.unit x.op ∧ granted x ∈ t.drive.granted) ∨
    ((m.bank (bankOf x.unit)).state ≠ .running ∧ EngEvent.removed [x.unit] none ∈ t.engine.inbox) ∨
    ((m.bank (bankOf x.unit)).state = .running ∧ ¬CanMove m x.unit x.op ∧
      EngEvent.displaced x.unit ∈ t.engine.inbox)) ∧
  (MovementsOk m → m.restart = none → ∀ x more, t.drive.waiting = x :: more →
    CanMove m x.unit x.op ∧ m.tables.options.railLimit < t.drive.committed + coil x.unit) ∧
  (m.restart ≠ none → t = m) ∧ (RailOk m → RailOk t)

/-- From s to t a bank leaves RUNNING, or is reset or faults with movements left (R48, R84, R161). None of its movements
stays granted or awaiting verify, its delivered pulses go on detached, and one report names its lost actuations; those
of other banks stay. A bank without movements that was not RUNNING leaves the Drive Scheduler as it was. -/
def BankLoses (s t : State) (b : BankIx) : Prop :=
  OthersKept s t [] ∧ s.engine.inbox <+: t.engine.inbox ∧
  ((s.bank b).state = .running ∨ s.bankMoves b = true →
    (∀ x ∈ t.drive.granted ++ t.drive.awaiting, bankOf x.unit ≠ b) ∧
    (∀ x ∈ s.drive.granted, bankOf x.unit ≠ b → x ∈ t.drive.granted) ∧
    t.drive.awaiting = s.drive.awaiting.filter (fun x => bankOf x.unit ≠ b) ∧
    t.drive.detached = s.drive.detached ++
      ((s.drive.granted.filter fun x => bankOf x.unit = b ∧ x.delivered = true).map fun x =>
        (⟨b, x.current.getD 0, x.pulseEnd.getD 0⟩ : Detached)) ∧
    ∃ us, EngEvent.removed us (some b) ∈ t.engine.inbox ∧
      ∀ v, v ∈ us ↔ ∃ x ∈ s.drive.waiting ++ s.drive.granted ++ s.drive.awaiting, x.unit = v ∧ bankOf v = b) ∧
  ((s.bank b).state ≠ .running → s.bankMoves b = false → t.units = s.units ∧ t.drive = s.drive)

/-- The chain of a bank is free between s and t: a status cycle owed begins at once, outside a warm restart, and the
chain is idle otherwise (R99, R111). -/
def ChainFreed (s t : State) (b : BankIx) : Prop :=
  ((s.bank b).owed = none ∨ s.restart ≠ none →
    (t.bank b).activity = .idle ∧ (t.bank b).passCount = (s.bank b).passCount) ∧
  ∀ due, (s.bank b).owed = some due → s.restart = none →
    (t.bank b).activity = .statusMode (s.statusModes b) ∧ (t.bank b).passCount = (s.bank b).passCount + 1 ∧
      (t.bank b).owed = none ∧ (t.bank b).cycleBegun = due

/-- The same, with the controller's record of the bank and the nodes whole: k and ns are what they are where no status
cycle begins, the activity apart; a cycle that begins takes the nodes to MODE-LOAD (R96). -/
def ChainFreedFrom (s t : State) (b : BankIx) (k : Bank) (ns : List Node) : Prop :=
  ChainFreed s t b ∧
  ((s.bank b).owed = none ∨ s.restart ≠ none → t.bank b = { k with activity := .idle } ∧ t.chain b = ns) ∧
  ((s.bank b).owed ≠ none → s.restart = none →
    t.bank b = { k with
      activity := (t.bank b).activity, passCount := (t.bank b).passCount, owed := none
      cycleBegun := (t.bank b).cycleBegun } ∧
    t.chain b = chainEdges ns [false, true])

/-- A pass of a RUNNING bank has failed between s and t (R98): the failure count has risen. Below 3 the chain is free; at
3 the bank is FAULTED with INTEGRITY, its retry 5 s ahead, its reservations released and its movements lost, and
BANK_FAULT is posted (R84, R109, R110). -/
def PassFailed (s t : State) (b : BankIx) : Prop :=
  let k := s.bank b
  (t.bank b).failures = k.failures + 1 ∧ (∀ d, d ≠ b → t.bank d = s.bank d ∧ t.chain d = s.chain d) ∧
  t.engine = { s.engine with inbox := t.engine.inbox } ∧
  (k.failures + 1 < 3 →
    (t.bank b).state = .running ∧ t.units = s.units ∧ t.drive = s.drive ∧ t.engine.inbox = s.engine.inbox ∧
      t.notices = s.notices ∧ ChainFreed s t b) ∧
  (3 ≤ k.failures + 1 →
    t.bank b = { k with
      state := .faulted, activity := .idle, owed := none, failures := k.failures + 1
      release := k.release + k.granted.length, granted := []
      retryAt := s.clock.ms + 5000, faultCode := some .integrity, faultedMark := true } ∧
    t.notices = s.notices.post (s.notice .bankFault FaultCode.integrity.code none none b.1) ∧ BankLoses s t b)

/-! ### The write port -/

/-- The segment after one in the ring (R113). -/
def roundNext (g : Nat) : Nat := if g = 31 then 16 else g + 1

/-- Every slot of a segment is BLANK (R113). -/
def SegClear (s : State) (g : Nat) : Prop := ∀ e ∈ s.store, e.1 / 128 = g → e.2.state = .blank

/-- From s to t the next slot advances (R117). A head that is now full has the segment after it claimed for opening where
that is BLANK, with one BLANK segment less; otherwise the ring is stalled, which is reported once (R118, R119). -/
def SlotAdvances (s t : State) : Prop :=
  let full (h : Nat) : Prop := s.journal.head = some h ∧ s.journal.next + 1 = 128
  (∀ h, full h → SegClear s (roundNext h) → t = { s with journal := { s.journal with
    next := 128, opening := some (roundNext h), blanks := s.journal.blanks - 1 } }) ∧
  (∀ h, full h → ¬SegClear s (roundNext h) → t = { s with
    journal := { s.journal with next := 128, stalled := true }
    engine := { s.engine with
      inbox := if s.journal.stalled then s.engine.inbox else s.engine.inbox ++ [.stall true] } }) ∧
  ((∀ h, ¬full h) → t = { s with journal := { s.journal with next := s.journal.next + 1 } })

/-- The slot holds a live record of the unit (R114): a VALID BIND that its journal_ref names, or a VALID STATE that its
state_ref names. -/
def Live (s : State) (r : Ref) (u : UnitIx) (isBind : Bool) : Prop :=
  (s.store.read r.addr).state = .valid ∧
  ((isBind = true ∧ (∃ b c since, jrec? (s.store.read r.addr).content = some (.bind u b c since)) ∧
      (s.unit u).journalRef = some r) ∨
    (isBind = false ∧ (∃ k, jrec? (s.store.read r.addr).content = some (.state u k)) ∧
      (s.unit u).stateRef = some r))

/-- The slot of a segment holds a live record. -/
def LiveSlot (s : State) (g i : Nat) : Prop := ∃ u isBind, Live s ⟨g, i⟩ u isBind

/-- After one more queue record the BLANK record slots of the head and 127 for each BLANK unclaimed segment are still at
least the live records of the tail at or beyond the scan position (R122), both counted before that record acts (log 60). -/
def RecordFits (s : State) (tail scan : Nat) : Prop :=
  ∃ l : List Nat, l.Nodup ∧ (∀ i, i ∈ l ↔ scan ≤ i ∧ i ≤ 127 ∧ LiveSlot s tail i) ∧
    l.length ≤ (127 - s.journal.next) + 127 * s.journal.blanks

/-- The copy of a live record under the scan is the next write of the head (R121, R122): no queue record waits, or one
would not fit, or the copy was not written last. -/
def CopyDue (s : State) (u : UnitIx) (isBind : Bool) (orig : Ref) : Prop :=
  s.journal.reclaim = .copying orig.slot ∧ s.journal.tail = some orig.seg ∧ Live s orig u isBind ∧
  (s.journal.queue = [] ∨ ¬RecordFits s orig.seg orig.slot ∨ s.journal.turn ≠ some .copy)

/-- The slot write the Journal Engine has to begin, and its content (R117, R118, R121, R122): the header of a segment
being opened, with the next generation, or 1 where the journal is empty; otherwise, into the next slot of a head that is
not full, the copy that is due, and failing that the record at the head of the queue. -/
def WriteDue (s : State) (w : JWrite) (content : List Byte) : Prop :=
  s.journal.write = none ∧
  ((∃ g, s.journal.opening = some g ∧ w = ⟨.header, ⟨g, 0⟩, false⟩ ∧
      content = headerBytes (if s.journal.head = none then 1 else s.journal.headGen + 1)) ∨
    (s.journal.opening = none ∧ ∃ h, s.journal.head = some h ∧ s.journal.next ≤ 127 ∧
      ((∃ u isBind orig, CopyDue s u isBind orig ∧ w = ⟨.copy u isBind orig false, ⟨h, s.journal.next⟩, false⟩ ∧
          content = (s.store.read orig.addr).content) ∨
        (∃ q more, s.journal.queue = q :: more ∧ (∀ u isBind orig, ¬CopyDue s u isBind orig) ∧
          w = ⟨.queued, ⟨h, s.journal.next⟩, false⟩ ∧ content = q.body.bytes))))

/-- The Journal Engine presents a program (R115, R117): the valid mark of the slot whose body has ended, or the body of
the write that is due. -/
def JournalPresents (s : State) : Prop :=
  (∃ w, s.journal.write = some w ∧ w.bodyDone = true) ∨ ∃ w content, WriteDue s w content

/-- From s to t the port begins a program (R131): a body program makes its slot WRITING at once. -/
def Begins (s t : State) (p : Program) : Prop :=
  t = { s with
    port := { s.port with program := some p }
    store := if p.kind = .body then s.store.write p.ref.addr { s.store.read p.ref.addr with state := .writing }
      else s.store }

/-- From s to t the port refuses a program of a slot write (R115, R131): the next slot advances, or the segment whose
header does not fit is not opened, which stalls the ring behind a full head (log 41). -/
def WriteRefused (s t : State) (w : JWrite) : Prop :=
  (w.what ≠ .header → SlotAdvances s t) ∧
  (w.what = .header → s.journal.head = none ∨ s.journal.stalled = true →
    t = { s with journal := { s.journal with opening := none } }) ∧
  (w.what = .header → s.journal.head ≠ none → s.journal.stalled = false → t = { s with
    journal := { s.journal with opening := none, stalled := true }
    engine := { s.engine with inbox := s.engine.inbox ++ [.stall true] } })

/-- The retiring program slot 0 lacks next, with its content (R132). -/
def RetiringNext : SlotState → ProgKind → List Byte → Prop
  | .blank, k, c => k = .body ∧ c = fillerBytes
  | .writing, k, c => k = .valid ∧ c = []
  | .valid, k, c => k = .retired ∧ c = []
  | .retired, _, _ => False

/-- No erase proper is active or being suspended (R134). -/
def ErasePaused (s : State) : Prop := ∀ e, s.port.erase = some e → e.phase ≠ .active ∧ e.phase ≠ .suspending

/-- A management program is requested for a target (R138): none while the target is protected. -/
def ProgramRequested (s : State) (x : Target) : Prop :=
  s.mgmt.state = .programming ∧ s.mgmt.target = some x ∧ x.guarded = false

/-- One choice of the arbiter while the port carries no program, in the order of R133. -/
inductive ArbiterTurn : State → State → Prop
  /-- An erase proper that is active gives way to a journal program: its suspension is asked for (R134). -/
  | suspend {s : State} {e : Erase} : s.port.program = none → JournalPresents s → s.port.erase = some e →
      e.phase = .active → ArbiterTurn s { s with port := { s.port with erase := some { e with phase := .suspending } } }
  /-- The valid mark of a journal slot is carried (R115, R133). -/
  | valid {s t : State} {w : JWrite} : s.port.program = none → s.journal.write = some w → w.bodyDone = true →
      ErasePaused s → s.slotState w.ref = .writing → Begins s t ⟨.journal, .valid, w.ref, []⟩ → ArbiterTurn s t
  /-- It is refused where its slot is not WRITING (R131). -/
  | validRefused {s t : State} {w : JWrite} : s.port.program = none → s.journal.write = some w → w.bodyDone = true →
      ErasePaused s → s.slotState w.ref ≠ .writing →
      WriteRefused { s with journal := { s.journal with write := none } } t w → ArbiterTurn s t
  /-- The body program of the journal write that is due is carried (R115, R133). -/
  | body {s t : State} {w : JWrite} {content : List Byte} : s.port.program = none → WriteDue s w content →
      ErasePaused s → s.slotState w.ref = .blank →
      Begins { s with journal := { s.journal with write := some w } } t ⟨.journal, .body, w.ref, content⟩ →
      ArbiterTurn s t
  /-- It is refused where its slot is not BLANK (R115, R131). -/
  | bodyRefused {s t : State} {w : JWrite} {content : List Byte} : s.port.program = none → WriteDue s w content →
      ErasePaused s → s.slotState w.ref ≠ .blank → WriteRefused s t w → ArbiterTurn s t
  /-- Otherwise the next retiring program of the erase in progress is carried (R132, R133). -/
  | retiring {s t : State} {e : Erase} {begun : Bool} {k : ProgKind} {content : List Byte} : s.port.program = none →
      ¬JournalPresents s → s.port.erase = some e → e.phase = .retiring begun →
      RetiringNext (s.slotState ⟨e.seg, 0⟩) k content →
      Begins { s with port := { s.port with erase := some { e with phase := .retiring true } } } t
        ⟨.retiring, k, ⟨e.seg, 0⟩, content⟩ → ArbiterTurn s t
  /-- Once slot 0 is RETIRED the erase proper begins (R132). -/
  | proper {s : State} {e : Erase} {begun : Bool} : s.port.program = none → ¬JournalPresents s →
      s.port.erase = some e → e.phase = .retiring begun → s.slotState ⟨e.seg, 0⟩ = .retired →
      ArbiterTurn s { s with port := { s.port with erase := some { e with phase := .active } } }
  /-- A suspended erase resumes (R133, R134). -/
  | resume {s : State} {e : Erase} : s.port.program = none → ¬JournalPresents s → s.port.erase = some e →
      e.phase = .suspended → ArbiterTurn s { s with port := { s.port with erase := some { e with phase := .active } } }
  /-- With no erase in progress a management program is carried: its body, and then its valid mark (R133, R138). -/
  | management {s t : State} {x : Target} {k : ProgKind} {content : List Byte} : s.port.program = none →
      ¬JournalPresents s → s.port.erase = none → ProgramRequested s x →
      (x.bodyDone = false ∧ s.slotState x.ref = .blank ∧ k = .body ∧ content = x.content) ∨
        (x.bodyDone = true ∧ s.slotState x.ref = .writing ∧ k = .valid ∧ content = []) →
      Begins s t ⟨.management, k, x.ref, content⟩ → ArbiterTurn s t
  /-- It is refused where its slot does not fit: the command is FAILED with OVERWRITE (R131, R138, log 41). -/
  | managementRefused {s : State} {x : Target} : s.port.program = none → ¬JournalPresents s → s.port.erase = none →
      ProgramRequested s x →
      (x.bodyDone = false ∧ s.slotState x.ref ≠ .blank) ∨ (x.bodyDone = true ∧ s.slotState x.ref ≠ .writing) →
      ArbiterTurn s { s with
        mgmt := { s.mgmt with
          state := .failed, lastResult := some .overwrite, target := none, eraseList := [], skipped := [],
          eraseSet := [] }
        notices := s.notices.post
          (s.notice .storeDone (16 + 2) none none (x.ref.seg * 65536 + x.ref.slot)) }
  /-- With no management program a requested journal erase begins (R133, R135). -/
  | journalErase {s : State} {g : Nat} : s.port.program = none → ¬JournalPresents s → s.port.erase = none →
      (∀ x, ¬ProgramRequested s x) → s.port.journalErase = some g →
      ArbiterTurn s { s with port := { s.port with journalErase := none, erase := some ⟨true, g, .retiring false⟩ } }
  /-- Failing that, a requested management erase list begins with its first segment (R133, R135). -/
  | listErase {s : State} {g : Nat} {more : List Nat} : s.port.program = none → ¬JournalPresents s →
      s.port.erase = none → (∀ x, ¬ProgramRequested s x) → s.port.journalErase = none → s.port.listErase = true →
      s.mgmt.eraseList = g :: more →
      ArbiterTurn s { s with port := { s.port with listErase := false, erase := some ⟨false, g, .retiring false⟩ } }

/-- The arbiter chooses from s until it has no choice left, at t: the port carries a program, an erase proper is active or
being suspended, or nothing is requested (R133). -/
inductive ArbiterRuns : State → State → Prop
  | rest {s : State} : (∀ t, ¬ArbiterTurn s t) → ArbiterRuns s s
  | turn {s m t : State} : ArbiterTurn s m → ArbiterRuns m t → ArbiterRuns s t

/-- From s to t the Journal Engine gets ready. A record that waits while the journal is empty claims segment 16 for opening
(R118); a blank count of 3 or below starts a reclaim of the tail at slot 1 once the engine takes events (R120, R126); and
while no copy is under way the scan passes to the next live slot of the tail, or past slot 127, which ends the copying and
requests the tail's erase (R120, R123). -/
def JournalReady (s t : State) : Prop :=
  let first : Prop := s.journal.head = none ∧ s.journal.queue ≠ [] ∧ s.journal.opening = none ∧ s.journal.write = none
  let starts : Prop := s.startUp = .running ∧ t.journal.blanks ≤ 3 ∧ s.journal.reclaim = .idle ∧ s.journal.tail ≠ none
  let scans (p : Nat) : Prop := (starts ∧ p = 1) ∨ s.journal.reclaim = .copying p
  let copying : Prop := ∃ w u isBind orig cancel, s.journal.write = some w ∧ w.what = .copy u isBind orig cancel
  t = { s with
    journal := { s.journal with
      opening := t.journal.opening, blanks := t.journal.blanks, reclaim := t.journal.reclaim, turn := t.journal.turn }
    port := { s.port with journalErase := t.port.journalErase } } ∧
  (first → t.journal.opening = some 16 ∧ t.journal.blanks = s.journal.blanks - 1) ∧
  (¬first → t.journal.opening = s.journal.opening ∧ t.journal.blanks = s.journal.blanks) ∧
  (starts → t.journal.turn = none) ∧ (¬starts → t.journal.turn = s.journal.turn) ∧
  (∀ p g, scans p → s.journal.tail = some g → ¬copying →
    (∀ q, p ≤ q → q ≤ 127 → LiveSlot s g q → (∀ i, p ≤ i → i < q → ¬LiveSlot s g i) →
      t.journal.reclaim = .copying q ∧ t.port.journalErase = s.port.journalErase) ∧
    ((∀ i, p ≤ i → i ≤ 127 → ¬LiveSlot s g i) →
      t.journal.reclaim = .erasePending ∧ t.port.journalErase = some g)) ∧
  (∀ p, scans p → s.journal.tail = none ∨ copying →
    t.journal.reclaim = .copying p ∧ t.port.journalErase = s.port.journalErase) ∧
  ((∀ p, ¬scans p) → t.journal.reclaim = s.journal.reclaim ∧ t.port.journalErase = s.port.journalErase)

/-- The slots of the store read as before, but for the one whose body program the port has begun: it was BLANK and is
WRITING, its content as before (R131). -/
def StoreTakesUp (s t : State) : Prop :=
  ∀ a, t.store.read a = s.store.read a ∨
    ∃ p, t.port.program = some p ∧ p.kind = .body ∧ p.ref.addr = a ∧ (s.store.read a).state = .blank ∧
      t.store.read a = { s.store.read a with state := .writing }

/-- What the Journal Engine and the write port may touch in an event (R117 to R120, R133): themselves, and the slot they
begin to write. The records, the head and the tail stay. A management program that finds its slot not BLANK is refused
and ends, with STORE_DONE; a ring that stalls is reported. -/
def PortFrame (s t : State) : Prop :=
  (∃ later reports, t = { s with
      journal := t.journal, store := t.store, port := t.port, mgmt := t.mgmt,
      notices := later.foldl NoticeQueue.post s.notices,
      engine := { s.engine with inbox := s.engine.inbox ++ reports } } ∧
    (∀ e ∈ reports, e = EngEvent.stall true) ∧ (∀ n ∈ later, n.kind = NoticeKind.storeDone) ∧
    (s.mgmt.state ≠ .programming → later = [] ∧ t.mgmt = s.mgmt)) ∧
  t.journal.queue = s.journal.queue ∧ t.journal.head = s.journal.head ∧ t.journal.headGen = s.journal.headGen ∧
  t.journal.tail = s.journal.tail ∧ StoreTakesUp s t

/-- What the Journal Engine and the write port make of a state in the same event (R117 to R123, R131 to R135): the Journal
Engine gets ready, and then the arbiter chooses for as long as it has a choice. The rules of JournalReady and ArbiterTurn
leave no field of t open. -/
def PortServes (s t : State) : Prop := (∃ m, JournalReady s m ∧ ArbiterRuns m t) ∧ PortFrame s t

/-! ### Units and the engine's events -/

/-- The record of a unit of a kind as it enters a state: the state and its steady lamp (R50). -/
def UnitRec.enters (r : UnitRec) (k : UnitKind) (st : UState) : UnitRec :=
  { r with state := st, lamp := { r.lamp with steady := steadyLamp k st } }

/-- The record without its holder and without the times kept with an admitted cabin (R20, R58). -/
def UnitRec.unheld (r : UnitRec) : UnitRec :=
  { r with holder := none, allowance := none, expiry := none, warningAt := none, graceEnd := none }

/-- The record with a transient lamp that ends at a moment (R50). -/
def UnitRec.lit (r : UnitRec) (l : Lamp) (until' : Millis) : UnitRec :=
  { r with lamp := { r.lamp with transient := some (l, until') } }

/-- The record with its beep request set (R51), anew where one is on its way to the node (R100). -/
def UnitRec.beeps (r : UnitRec) : UnitRec := { r with lamp := { r.lamp with beep := true, beepSent := false } }

/-- From the Band Index of s to l a unit has left the held list of a band, or of none (R21). -/
def BandLeft (s : State) (l : List BandEntry) (u : UnitIx) (b : Option Band) : Prop :=
  ∀ x, heldBy l x = if b = some x then (heldBy s.bands x).filter (· ≠ u) else heldBy s.bands x

/-- The running action's progress once a movement of these units has left (R153), with a holder cleared counted. -/
def State.watched (s : State) (us : List UnitIx) (how : Leave) (cleared : UnitIx → Bool) : Option Running :=
  s.engine.runningSlot.map fun r =>
    { r with
      items := r.items.map fun i => if us.contains i.unit then { i with stage := i.stage.left how } else i
      count := r.count + (us.filter fun u => cleared u && r.watches u).length }

/-- The Binding Engine takes events (R180, R181). -/
def Taking (s : State) : Prop := s.startUp = .running ∧ s.restart = none

/-- The Journal Queue has 2 free places (R24). -/
def JournalRoom (s : State) : Prop := s.journal.queue.length + 2 ≤ 16

/-- R24 lets an event through that hands a record over: the Journal Queue has room, and no event held back before it
still waits (log 15). -/
def LetThrough (s : State) (h : HeldEvent) : Prop :=
  JournalRoom s ∧ ∀ x ∈ s.engine.held.takeWhile (fun y => y ≠ h), s.stillHeld x = false

/-- Of the events held back, all that still wait, but for the one taken, keep their order, and so do all that have arrived
(R24). -/
def KeepsHeld (s t : State) (taken : HeldEvent) : Prop :=
  (s.engine.held.filter fun x => x ≠ taken && s.stillHeld x).Sublist t.engine.held ∧
  (s.engine.arrived.filter fun x => x ≠ taken).Sublist t.engine.arrived ∧ t.engine.arrived.Sublist s.engine.arrived

/-- The state with the events held back and the order of arrival that another has. -/
def State.holding (s t : State) : State :=
  { s with engine := { s.engine with held := t.engine.held, arrived := t.engine.arrived } }

/-- The units of the locker reports that wait, as they were handed over. -/
def State.lockerReports (s : State) : List UnitIx :=
  (s.engine.inbox.filterMap EngEvent.report?).filter fun u => s.kind u = .locker

/-- An event of the kinds R24 may hold back waits, a tap apart (log 15): a locker's report, an AJAR_IDLE event that is due,
the acceptance of the pending action while the running slot is empty, a step to be taken again (R153), or the next step
of a RELEASE_BAND (R156). -/
def Waits (s : State) : HeldEvent → Prop
  | .report u => u ∈ s.lockerReports
  | .idle u due => ⟨due, u, .ajarIdle⟩ ∈ s.timers ∧ due ≤ s.clock.sec
  | .accept => s.engine.pendingSlot ≠ none ∧ s.engine.runningSlot = none
  | .step u => ∃ r, s.engine.runningSlot = some r ∧ (⟨u, .again⟩ ∈ r.items ∨
      ∃ b before behind, r.action = .releaseBand b ∧ r.items = before ++ ⟨u, .due⟩ :: behind ∧
        ∀ i ∈ before, i.stage ≠ .due)

/-- l is what waits in s in the order it arrived (R24): what was noted before keeps its order, and the others, the reports
first and as they were handed over, stand behind it (log 15). -/
def ArrivalOrder (s : State) (l : List HeldEvent) : Prop :=
  (∀ h, h ∈ l ↔ Waits s h) ∧
  ∃ old new, l = old ++ new ∧ old.Sublist s.engine.arrived ∧ (∀ h ∈ s.engine.arrived, Waits s h → h ∈ old) ∧
    (∀ h ∈ new, h ∉ s.engine.arrived) ∧
    ((s.lockerReports.map .report).filter fun h => !s.engine.arrived.contains h) <+: new

/-- While the Journal Queue lacks room, l is the order in which the held events of s arrived (R24): what was held back
before and still waits keeps its order, behind it what would hand a record over stands in the order it is noted to have
arrived, and every report of a locker, due AJAR_IDLE event, acceptance and next step that would hand a record has its
place, the reports as they were handed over (log 15). -/
def AllNoted (s : State) (l : List HeldEvent) : Prop :=
  (s.engine.held.filter s.stillHeld).Sublist l ∧
  (∀ p : List HeldEvent, p.Sublist s.engine.arrived →
    (∀ h ∈ p, Waits s h ∧ s.stillHeld h = true ∧ h ∉ s.engine.held) → p.Sublist l) ∧
  ((∀ u ∈ s.lockerReports, HeldEvent.report u ∈ l) ∧
   (s.lockerReports.Nodup →
    (∀ u ∈ s.lockerReports, HeldEvent.report u ∉ s.engine.held ∧ HeldEvent.report u ∉ s.engine.arrived) →
      (s.lockerReports.map HeldEvent.report).Sublist l)) ∧
  (∀ e ∈ s.timers, e.kind = .ajarIdle → e.due ≤ s.clock.sec → HeldEvent.idle e.unit e.due ∈ l) ∧
  (∀ a, s.engine.pendingSlot = some a → s.engine.runningSlot = none → a.firstHands s = true → HeldEvent.accept ∈ l) ∧
  ∀ r, s.engine.runningSlot = some r → ∀ i ∈ r.items, i.stage = .again → r.stepHands s i.unit = true →
    HeldEvent.step i.unit ∈ l

/-- What R181 puts ahead of taps and acceptances after a restart still waits: an evacuation change, or a due timer that
R24 lets through (log 36). -/
def EventsAhead (s : State) : Prop :=
  s.engine.resuming = true ∧ (s.inputs.changes ≠ [] ∨
    ∃ e ∈ s.timers, e.due ≤ s.clock.sec ∧ (e.kind = .ajarIdle → LetThrough s (.idle e.unit e.due)))

/-- The state once the engine has taken an event: what still waits, and what the running slot holds. -/
def State.took (s : State) (inbox : List EngEvent) (slot : Option Running) : State :=
  { s with engine := { s.engine with inbox := inbox, runningSlot := slot } }

/-- A locker's holding ends in FREE between s and t, with a reason (R36): the holder and journal_ref are cleared, a
RELEASE record is handed over and RELEASED posted. -/
def LockerReleased (s t : State) (u : UnitIx) (why : Reason) : Prop :=
  BandLeft s t.bands u (s.unit u).holder ∧
  t = { s with
    units := put s.units u { ((s.unit u).unheld.enters (s.kind u) .free) with purpose := none, journalRef := none }
    bands := t.bands
    journal := (handJournal s (.release u)).journal
    notices := s.notices.post (s.notice .released why.code (some u) (s.unit u).holder (s.unit u).boundAt) }

/-- A cabin's holder release between s and t, with a reason (R45, R178): the holder, the times, latch_seen, overstay
and the timer entry are cleared and RELEASED is posted; with nothing in hand, shut and unlatched it goes to CLOSING with
a NORMAL THROW, or under LEVEL-mode evacuation to EVAC_OPEN with a URGENT WITHDRAW where its bolt is thrown; otherwise to
VACATING. A silent release hands no movement over (R153). -/
def CabinReleased (s t : State) (u : UnitIx) (why : Reason) (silent : Bool) : Prop :=
  let c := s.cell u
  let shut : Bool := !s.inHand u && c.door && !c.latch
  let st : UState := if !shut then .vacating else if s.levelEvac then .evacOpen else .closing
  ∃ m : State, BandLeft s m.bands u (s.unit u).holder ∧
    m = { s with
      units := put s.units u { ((s.unit u).unheld.enters (s.kind u) st) with latchSeen := false, overstay := false }
      bands := m.bands
      timers := s.timers.filter fun e => e.unit ≠ u
      notices := s.notices.post (s.notice .released why.code (some u) (s.unit u).holder (s.unit u).boundAt) } ∧
    (if shut = true ∧ silent = false ∧ (s.levelEvac = true → c.bolt = true) then
      (if s.levelEvac then MovesOn m t u .withdraw .urgent else MovesOn m t u .throw .normal)
    else t = m)

/-- The record of a cabin admitted now (R44, R56 to R58), and its timer entry's kind and due time: the allowance of its
holder's class, brought down by the zone's occupancy above the threshold; the expiry, within the cap of 120 minutes from
the bind; a warning where it lies ahead; and the grace end. -/
def State.admitted (s : State) (u : UnitIx) : UnitRec × TimerKind × Nat :=
  let r := s.unit u
  let cls := s.tables.classes.get (((bandEntry s.bands (r.holder.getD 0)).map (·.cls)).getD 0)
  let z := s.tables.zones.get (s.zone u)
  let occupied := (allUnits.filter fun v => s.kind v = .cabin ∧ s.zone v = s.zone u ∧
    ((s.unit v).state = .admitting ∨ (s.unit v).state = .inUse ∨ (s.unit v).state = .expired)).length
  let allowance := if occupied ≤ z.threshold then cls.base
    else cls.base - (cls.base - cls.floor) * (occupied - z.threshold) / (z.cabins - z.threshold)
  let clamp (n : Nat) : Nat := min n 4294967295
  let expiry := min (clamp (s.clock.sec + 60 * allowance)) (clamp (r.boundAt + 7200))
  let warns : Bool := 1 ≤ z.warningLead && s.clock.sec < expiry - z.warningLead
  let warning := if warns then some (expiry - z.warningLead) else none
  ({ r.enters .cabin .inUse with
      allowance := some allowance, expiry := some expiry, warningAt := warning
      graceEnd := some (clamp (expiry + z.grace)) },
    if warns then .warning else .expiry, warning.getD expiry)

/-! ### Taps and actions -/

/-- The pending action can be accepted (R150), and where its first step would hand a record over R24 lets it through. -/
def Acceptable (s : State) (a : Action) : Prop :=
  Taking s ∧ s.engine.pendingSlot = some a ∧ s.engine.runningSlot = none ∧ ¬EventsAhead s ∧
  (a.firstHands s = true → LetThrough s .accept)

/-- The state once an action has been accepted: it stands in the running slot (R150), and what R181 puts in order has
passed. -/
def State.accepted (s : State) (r : Option Running) : State :=
  { s with engine := { s.engine with
      pendingSlot := none, runningSlot := r, tapAhead := false, resuming := false
      held := s.engine.held.filter fun x => x ≠ .accept } }

/-- The oldest tap, of a band at a unit, can be taken (R27): no action that can be accepted has waited behind a tap (R150,
log 37), and nothing that R181 puts ahead waits. -/
def TapReady (s : State) (u : UnitIx) (b : Band) (rest : List Tap) : Prop :=
  (∃ time, s.taps.records = ⟨u, b, time⟩ :: rest) ∧ Taking s ∧ JournalRoom s ∧ s.drive.used + 2 ≤ 64 ∧
  ¬(s.engine.tapAhead = true ∧ ∃ a, Acceptable s a) ∧ ¬EventsAhead s ∧
  (∀ r, s.engine.runningSlot = some r → r.action ≠ .reloadTables) ∧
  (s.engine.ringStalled = true → s.kind u ≠ .locker)

/-- The state once the oldest tap has been taken: an action that is pending while the running slot is empty waits behind
it (R150). -/
def State.tapTaken (s : State) (rest : List Tap) : State :=
  { s with
    taps := ⟨rest, s.taps.reserved⟩
    engine := { s.engine with
      tapAhead := s.engine.pendingSlot.isSome && s.engine.runningSlot.isNone, resuming := false } }

/-- ACTION_DONE as it is posted (R150, R184). -/
def State.doneNotice (s : State) (a : Action) (r : Result) (extra : Nat) : Notice :=
  s.notice .actionDone (a.code * 16 + r.code) a.unit? a.band? extra

/-! ### The site line -/

/-- A whole frame of a kind arrives for this part (R163, R164, R165): the port is RECEIVING, the payload fits, the
station is the part's own and is one of 1–30, and the CRC is right. -/
def Arrives (s : State) (kind : Byte) (f : Frame) : Prop :=
  s.line.cond = .receiving ∧ f.payload.length ≤ Config.payloadMax ∧
  f.station = s.line.station.zeroExtend 8 ∧ s.line.station ≠ 0 ∧ s.line.station ≠ 31 ∧
  f.crc = crc16 ([f.station, kind, BitVec.ofNat 8 f.payload.length] ++ f.payload)

/-- The Site Line Port after a frame: the frame in its buffer, REPLYING with a reply of a kind and payload (R164,
R166, R183). -/
def Line.replying (l : Line) (kind : Byte) (f : Frame) (replyKind : Byte) (payload : List Byte) : Line :=
  let body : List Byte := [l.station.zeroExtend 8, replyKind, BitVec.ofNat 8 payload.length] ++ payload
  { l with
    cond := .replying
    buffer := [f.station, kind, BitVec.ofNat 8 f.payload.length] ++ f.payload ++ byte2 f.crc.toNat
    reply := [0xC5#8] ++ body ++ byte2 (crc16 body).toNat }

/-- The frame a command carries, with its kind byte (R183). -/
def frameOf : Instr → Option (Byte × Frame)
  | .frameDiscard kind f => some (kind, f)
  | .unknownKind kind f => some (kind, f)
  | .poll f => some (0x01, f)
  | .readUnit f => some (0x02, f)
  | .readBand f => some (0x03, f)
  | .readZone f => some (0x04, f)
  | .readTable f => some (0x05, f)
  | .action f => some (0x06, f)
  | .cancel f => some (0x07, f)
  | .lamp f => some (0x08, f)
  | .restart f => some (0x09, f)
  | .storeUnlock1 f => some (0x10, f)
  | .storeUnlock2 f => some (0x11, f)
  | .storeProgram f => some (0x12, f)
  | .storeErase f => some (0x13, f)
  | .storeClear f => some (0x14, f)
  | .storeStatus f => some (0x15, f)
  | .storeRead f => some (0x16, f)
  | _ => none

/-- The store write a command asks for, with its kind byte and frame: its length fits and it names a table segment
(R136, R183). -/
def storeWriteOf : Instr → Option (Byte × Frame × StoreWrite)
  | .storeUnlock1 f => if f.payload.length = 1 then some (0x10, f, .unlock1 (field f.payload 0 1)) else none
  | .storeUnlock2 f => if f.payload.length = 1 then some (0x11, f, .unlock2 (field f.payload 0 1)) else none
  | .storeProgram f =>
    if f.payload.length = 34 ∧ field f.payload 0 1 ≤ 15 ∧ field f.payload 1 1 ≤ 127 then
      some (0x12, f, .program (field f.payload 0 1) (field f.payload 1 1) (f.payload.drop 2))
    else none
  | .storeErase f =>
    if f.payload.length = 1 ∧ field f.payload 0 1 ≤ 15 then some (0x13, f, .erase (field f.payload 0 1)) else none
  | .storeClear f => if f.payload.length = 0 then some (0x14, f, .clear) else none
  | _ => none

/-- The port after a frame answered ACK (R183). -/
def Line.acks (l : Line) (kind : Byte) (f : Frame) : Line := l.replying kind f 0xF0#8 [kind]

/-- The port after a frame answered NAK (R166, R183). -/
def Line.naks (l : Line) (kind : Byte) (f : Frame) (why : Nak) : Line :=
  l.replying kind f 0xF1#8 [kind, BitVec.ofNat 8 why.code]

end Sys2Proof.Machine
end

