-- ==== Sys2Proof/WellFormed.lean ====
section
/-! DEFINITION. Which commands are well formed: what the operands must be for the command to be the event its row
names. -/

namespace Sys2Proof

/-- The frame can be received whole: its length byte is at most 240 (R164). -/
def Frame.wellFormed (f : Frame) : Bool := f.payload.length ≤ Config.payloadMax

/-- The noise of a pass reaches no further than an enumeration pass can (R108): 65 slots of 24 bits. -/
def Noise.wellFormed (n : Noise) : Bool := n.toNodes.length ≤ 1560 && n.toPart.length ≤ 1560

/-- A command is well formed: a frame fits the receive buffer (R164), a kind byte called unknown names no frame kind
(R167), and a node's KIND is one of the three (R91). -/
def Instr.wellFormed : Instr → Bool
  | .frameDiscard _ f => f.wellFormed
  | .unknownKind k f => f.wellFormed && !(Machine.knownKinds.contains k)
  | .poll f | .readUnit f | .readBand f | .readZone f | .readTable f | .action f | .cancel f | .lamp f
  | .restart f | .storeUnlock1 f | .storeUnlock2 f | .storeProgram f | .storeErase f | .storeClear f
  | .storeStatus f | .storeRead f => f.wellFormed
  | .statusModePassEnd _ n | .statusDataPassEnd _ n | .fetchModePassEnd _ n | .fetchDataPassEnd _ n
  | .enumerationPassEnd _ n => n.wellFormed
  | .nodePowerUp _ _ kind _ _ => kind ≠ 0
  | _ => true

end Sys2Proof
end

