-- ==== Sys2Proof/Certificates/Slice0/Obligations.lean ====
section
/-! DEFINITION. The statements for the provers. -/

open Sys2Proof Sys2Proof.Machine

/-! ### The machine -/

/-- A step carries out the command at the front of the queue, with the rest of the queue waiting. -/
def Obligations.StepTakesFrontCommand : Prop :=
  ∀ (c : Instr) (s : State), step { s with pending := c :: s.pending } = exec c s

/-- Every command, in every state, answers a next state; it leaves the waiting commands alone, and, but for a cold
start and a loss of supply, takes no time and uses no free value.
The working set changes at the end of a load only, or where a cold start empties it; and the option values are
carried unchanged through every load but the cold one (R2, R17).
That a command takes no time is the model's choice, and not true of the part (log 1); that a command whose condition does
not hold completes with no effect is its choice too (log 2); and the count of free values used is the model's own (log
11). -/
def Obligations.EveryCommandCompletes : Prop :=
  (
    ∀ (c : Instr) (s : State), ∃ t, exec c s = .next t ∧ t.pending = s.pending ∧
      (c ≠ .coldStart → c ≠ .supplyLoss →
        t.clock = s.clock ∧ t.freeNext = s.freeNext ∧ t.supply = s.supply)) ∧
  (
    ∀ (c : Instr) (s t : State), exec c s = .next t → c ≠ .coldStart → c ≠ .supplyLoss →
      (c ≠ .tableLoadEnd → t.tables = s.tables) ∧
      (s.load ≠ some .cold → t.tables.options = s.tables.options))

/-! ### Invariants that every step keeps -/

/-- The store stays in its canonical form.
The canonical form is the model's own (log 9). -/
def Obligations.StepKeepsStoreCanonical : Prop :=
  ∀ s t : State, StoreOk s → step s = .next t → StoreOk t

/-- The queues and lists of fixed size keep their bounds at every step: the Notice Queue 48 notices (R171), Tap Queue
entries plus reservations 32 (R102), the Journal Queue 16 records, so that one handed over always finds a place (R24,
R116), and the block overlay 32 ids, with no duplicates (R10). -/
def Obligations.StepKeepsBounds : Prop :=
  ∀ s t : State, step s = .next t →
    (NoticesOk s → NoticesOk t) ∧ (TapsOk s → TapsOk t) ∧ (JournalQueueOk s → JournalQueueOk t) ∧
    (OverlayOk s → OverlayOk t)

/-- The committed current never passes the rail limit (R75). -/
def Obligations.StepKeepsRailLimit : Prop :=
  ∀ s t : State, RailOk s → step s = .next t → RailOk t

/-- The Actuation Queue never holds more than 64 actuations, and no unit ever has two movements in hand (R25, R71,
R72). -/
def Obligations.StepKeepsOneMovement : Prop :=
  ∀ s t : State, MovementsOk s → step s = .next t → MovementsOk t

/-- The Band Index and the units' holders stay one and the same relation, with one entry for each band and none
empty (R21). -/
def Obligations.StepKeepsHoldings : Prop :=
  ∀ s t : State, HoldingsOk s → step s = .next t → HoldingsOk t

/-- The Unit Timer List keeps its order and its one entry for each unit (R59). -/
def Obligations.StepKeepsTimerOrder : Prop :=
  ∀ s t : State, TimersOk s → step s = .next t → TimersOk t

/-- The management side of the store works on segments 0 to 15 and the Journal Engine on 16 to 31, always (R113,
R136). -/
def Obligations.StepKeepsStoreHalves : Prop :=
  ∀ s t : State, StoreHalvesOk s → step s = .next t → StoreHalvesOk t

/-- The state after reset meets every invariant above.
The values of that state which no rule gives are the model's choice (logs 4, 5, 6, 32). -/
def Obligations.ResetMeetsInvariants : Prop :=
  StoreOk State.reset ∧ NoticesOk State.reset ∧ TapsOk State.reset ∧ RailOk State.reset ∧
    MovementsOk State.reset ∧ JournalQueueOk State.reset ∧ HoldingsOk State.reset ∧ TimersOk State.reset ∧
    OverlayOk State.reset ∧ StoreHalvesOk State.reset

/-! ### Start-up, loads and warm restart -/

/-- COLD_START (R180): from every state the part comes to one and the same state, but for the store, the nodes
fitted, and the model's own queue and free values. It is held: the clock at 0, every RSTn held, every CKn stopped with
CTn high and DOn low, every DRIVE released, the site line released; every queue, list and slot is empty, every bank is
ABSENT with its pass counter at 0, and no unit has a holder. Every node is in reset, its sensors as they were (R95).
SUPPLY_LOSS (R180): a part whose supply fails comes to the state a cold start leaves, with the supply out of
range, and is not started by RESET until a cold start; where the supply is already gone nothing happens.
The values no rule gives are those of State.reset, the model's choice (logs 4, 32); that a loss of supply without
supply does nothing is too (log 2). -/
def Obligations.ColdStart : Prop :=
  (
    ∀ s : State, ∃ t, exec .coldStart s = .next t ∧
      t = { State.reset with
        store := t.store, chains := t.chains, freeNext := t.freeNext, pending := s.pending } ∧
      (t.supply = true ∧ t.startUp = .held ∧ t.clock = ⟨0, 0, 0⟩ ∧ t.restart = none ∧ t.load = none) ∧
      (t.notices = ⟨[], false⟩ ∧ t.taps.records = [] ∧ t.taps.reservations = 0 ∧ t.drive.used = 0 ∧
        t.drive.committed = 0 ∧ t.journal.queue = [] ∧ t.bands = [] ∧ t.timers = []) ∧
      (t.engine.pendingSlot = none ∧ t.engine.runningSlot = none ∧ t.engine.overlay = [] ∧ t.engine.follow = [] ∧
        t.engine.inbox = [] ∧ t.engine.held = [] ∧ t.engine.arrived = [] ∧ t.inputs.active = false) ∧
      (t.mgmt.state = .ready ∧ t.mgmt.eraseList = [] ∧ t.mgmt.toggle = false ∧ t.mgmt.lastResult = none ∧
        t.port = ⟨none, none, none, false⟩) ∧
      (t.line.cond = .quietWait ∧ t.line.replyNumber = 0 ∧ t.line.pollCopy = none ∧ t.lineDriven = false) ∧
      (∀ b, (t.bank b).state = .absent ∧ (t.bank b).passCount = 0 ∧ t.rstHeld b = true ∧ t.ckRuns b = false ∧
        t.ctHigh b = true ∧ t.doLow b = true ∧ t.driveHeld b = false) ∧
      (∀ u, (t.unit u).holder = none ∧ (t.unit u).deferred = none) ∧
      (∀ b, t.chain b = (s.chain b).map fun n =>
        { n with phase := .rest, mode := .ident, stage := [], reg := [], band := 0, quality := 0, seq := 0,
                 tapPend := false, pulse := none, pulseFrom := none, lamp := .off })) ∧
  (
    ∀ s : State,
      (s.supply = true → ∃ t, exec .coldStart s = .next t ∧ exec .supplyLoss s = .next { t with supply := false }) ∧
      (s.supply = false → exec .supplyLoss s = .next s ∧
        ∀ rate addr, exec (.resetDeasserted rate addr) s = .next s))

/-- What a cold start leaves in the store (R146). A body program cut off leaves its slot WRITING with 32 bytes of
content; a valid-mark or retired-mark program leaves the mark programmed or not, and the content; an erase proper cut
off leaves slot 0 of its segment and makes of every other slot what it was or a BLANK one. Every other slot is as it
was.
Which of the outcomes comes about is free (log 11). -/
def Obligations.ColdStartCutsOffTheStore : Prop :=
  ∀ s : State, ∃ t, exec .coldStart s = .next t ∧
    ∀ a : Nat,
      let touched : Prop := ∃ p, s.port.program = some p ∧ p.ref.addr = a
      let erased : Prop := ∃ e, s.port.erase = some e ∧ (∀ b, e.phase ≠ .retiring b) ∧ a / 128 = e.seg ∧ a % 128 ≠ 0
      (¬touched → ¬erased → t.store.read a = s.store.read a) ∧
      (¬touched → erased → t.store.read a = s.store.read a ∨ t.store.read a = Slot.erased) ∧
      (∀ p, s.port.program = some p → p.ref.addr = a → ¬erased →
        match p.kind with
        | .body => (t.store.read a).state = .writing ∧ (t.store.read a).content.length = 32
        | .valid => t.store.read a = s.store.read a ∨ t.store.read a = { s.store.read a with state := .valid }
        | .retired => t.store.read a = s.store.read a ∨ t.store.read a = { s.store.read a with state := .retired })

/-- RESET_DEASSERTED (R163, R180): with supply good the straps are read and the cold load begins, and nothing else
changes; a part that is not held does nothing.
EVACUATE_DEBOUNCED and SERVICE_KEY_DEBOUNCED (R145, R175): while the part runs, a level that held becomes the
debounced level; a change of EVACUATE waits for the Binding Engine behind those before it, and a level that is no
change is none. While the part is held nothing happens.
On an empty queue a step is one millisecond of the Seconds Clock (R53; that a step with no command is a
millisecond is the model's choice, log 1): after 1000 of them the millisecond count is 1000 on and the seconds count
one on, up to its last value, and nothing else has changed, but that the events waiting at the engine are noted in the
order they arrived, those that fall due within the second last (R24, log 15). While the part is held the clock stands.
That a command whose condition does not hold does nothing is the model's choice (log 2). -/
def Obligations.StrapsInputsAndClock : Prop :=
  (
    ∀ (s : State) (rate : Bool) (addr : BitVec 5),
      (s.startUp = .held → s.supply = true →
        exec (.resetDeasserted rate addr) s = .next { s with
          startUp := .tables, load := some .cold, loadLate := [], line := { s.line with rateHigh := rate, station := addr } }) ∧
      (s.startUp ≠ .held → exec (.resetDeasserted rate addr) s = .next s)) ∧
  (
    ∀ (s : State) (level : Bool),
      (s.startUp ≠ .held → s.inputs.evacuate ≠ level →
        exec (.evacuateDebounced level) s = .next { s with
          inputs := { s.inputs with evacuate := level, changes := s.inputs.changes ++ [level] } }) ∧
      (s.inputs.evacuate = level → exec (.evacuateDebounced level) s = .next s) ∧
      (s.startUp ≠ .held →
        exec (.serviceKeyDebounced level) s = .next { s with inputs := { s.inputs with serviceKey := level } }) ∧
      (s.startUp = .held →
        exec (.evacuateDebounced level) s = .next s ∧ exec (.serviceKeyDebounced level) s = .next s)) ∧
  (
    ∀ s : State, s.pending = [] →
      (s.startUp ≠ .held → s.clock.sub < 1000 →
        ∃ t, Host.Core.run Sys2Proof.core 1000 s = .next t ∧
          t = { s with
            clock := ⟨s.clock.ms + 1000#32, min (s.clock.sec + 1) 4294967295, s.clock.sub⟩
            engine := { s.engine with arrived := t.engine.arrived } } ∧
          (¬Taking s → t.engine.arrived = s.engine.arrived) ∧
          (Taking s → ∃ l more, t.engine.arrived = l ++ more ∧ ArrivalOrder s l ∧
            ∀ h ∈ more, ∃ e ∈ s.timers, e.kind = .ajarIdle ∧ h = .idle e.unit e.due ∧ s.clock.sec < e.due ∧
              e.due ≤ s.clock.sec + 1)) ∧
      (s.startUp = .held → Host.Core.run Sys2Proof.core 1000 s = .next s))

/-- A load reads segments 0 to 15 in order, and the slots of each in order; it takes the VALID ones alone, and none
of a segment whose slot 0 is RETIRED (R12), nor a slot whose STORE_DONE OK has come since the load began (R138): where
one comes while a load is under way, what that load reads of every slot but the one programmed stays as it was, and that
slot it does not read; with none under way a program puts no slot aside, and a load that begins puts none aside.
The slots are read in the event that ends the load, the model's choice (log 12). -/
def Obligations.LoadReadsValidSlots : Prop :=
  (∀ s : State, StoreOk s →
    tableRecords s = (List.range 16).flatMap fun seg =>
      if s.slotState ⟨seg, 0⟩ = .retired then []
      else (List.range 128).filterMap fun slot =>
        if s.slotState ⟨seg, slot⟩ = .valid ∧ seg * 128 + slot ∉ s.loadLate
        then some (s.store.read (seg * 128 + slot)).content else none) ∧
  (∀ (s : State) (p : Program), s.port.program = some p → p.kind = .valid → p.owner = .management →
    ∃ t, exec .validMarkProgramEnd s = .next t ∧ t.load = s.load ∧
      (s.load = none → t.loadLate = s.loadLate) ∧
      (s.load ≠ none → ∀ a, a ∈ t.loadLate ↔ a ∈ s.loadLate ∨ a = p.ref.addr)) ∧
  (∀ s : State, Acceptable s .reloadTables →
    ∃ t, exec .reloadTables s = .next t ∧ t.load = some .reload ∧ t.loadLate = [])

/-- The working set of the records read (R2 to R9, R13). OPTION: the last record is used whole, a field whose presence
mark is erased or with no record at its default, the rail limit clamped and then taken down to 10 mA, an evacuation mode
of neither code LEVEL. CLASS, ZONE and BANK: the last record read for a number, whole, each field clamped, F to B, the
coil current to the rail limit, T to the cabins counted from the new map; with no record the defaults. Unit map: a
position from the node count on is UNUSED in zone 0; below it the last UNITMAP record that covers it decides, of a
LOCKER, CABIN or BLANK kind, its count taken as 1 to 16 and its zone at most 15, and where none covers it the position is
BLANK in zone 0. The first 64 permit ranges that are not turned round and name a class stand in read order; the block
list holds the first 1024 distinct ids, ascending, the master list the first 32 in order of first appearance; and a list
that lost an entry is marked cut. Every entry and option value so lies in its range.
That T is at most 511 in a zone of 512 cabins without a record is the model's inference (log 47), that a keep byte other
than 1 is clear its choice (log 57). -/
def Obligations.LoadedSetInRange : Prop :=
  ∀ recs : List (List Byte),
    let clamp (lo hi n : Nat) : Nat := max lo (min hi n)
    let names (k n : Nat) (r : List Byte) : Prop := field r 0 1 = k ∧ field r 1 1 = n
    let last (p : List Byte → Prop) (r : List Byte) : Prop :=
      p r ∧ ∃ before after, recs = before ++ r :: after ∧ ∀ x ∈ after, ¬p x
    (∀ r, last (fun x => field x 0 1 = 1) r →
      let here (bit : Nat) : Bool := !(field r 1 1).testBit bit
      loadOptions recs =
        { railLimit := if here 0 then clamp 300 6000 (field r 2 2) - clamp 300 6000 (field r 2 2) % 10 else 2000
          repeatWindow := if here 1 then min 5000 (field r 4 2) else 1500
          qualityMin := if here 2 then min 7 (field r 6 1) else 2
          evacMode := if here 3 ∧ field r 7 1 = 1 then .edge else .level
          protectedSet := if here 4 then BitVec.ofNat 16 (field r 8 2) else 0x000F#16 }) ∧
    ((∀ r ∈ recs, field r 0 1 ≠ 1) → loadOptions recs = ⟨2000, 1500, 2, .level, 0x000F#16⟩) ∧
    ∀ o : Options, 300 ≤ o.railLimit →
      let b := buildSet recs o
      let t := b.tables
      t.options = o ∧
      (∀ (c : ClassIx) (r : List Byte), last (names 2 c.1) r → t.classes.get c =
        { lockerQuota := min 4 (field r 2 1), cabinQuota := min 1 (field r 3 1), zones := BitVec.ofNat 16 (field r 4 2),
          keep := field r 6 1 = 1, base := clamp 1 60 (field r 7 1),
          floor := min (clamp 1 60 (field r 7 1)) (clamp 1 60 (field r 8 1)), ajarIdle := clamp 30 600 (field r 9 2),
          supplied := true }) ∧
      (∀ c : ClassIx, (∀ r ∈ recs, ¬names 2 c.1 r) → t.classes.get c = ⟨0, 0, 0#16, false, 1, 1, 30, false⟩) ∧
      (∀ z : ZoneIx,
        let n := (allUnits.filter fun u => (t.unitMap.get u).kind = .cabin ∧ (t.unitMap.get u).zone = z).length
        (∀ r, last (names 3 z.1) r → t.zones.get z =
          ⟨n, min n (min 511 (field r 2 2)), min 300 (field r 4 2), min 600 (field r 6 2), true⟩) ∧
        ((∀ r ∈ recs, ¬names 3 z.1 r) → t.zones.get z = ⟨n, min n 511, 60, 120, false⟩)) ∧
      (∀ (k : BankIx) (r : List Byte), last (names 4 k.1) r → t.banks.get k =
        { nodeCount := min 64 (field r 2 1), pulseLength := clamp 1 15 (field r 3 1),
          coilCurrent := min o.railLimit (clamp 50 2000 (field r 4 2)), sweep := clamp 50 500 (field r 6 2),
          supplied := true }) ∧
      (∀ k : BankIx, (∀ r ∈ recs, ¬names 4 k.1 r) → t.banks.get k = ⟨0, 4, min o.railLimit 500, 100, false⟩) ∧
      (∀ u : UnitIx,
        let below : Prop := (posOf u).1 < (t.banks.get (bankOf u)).nodeCount
        let covers (r : List Byte) : Prop := names 5 (bankOf u).1 r ∧ 1 ≤ field r 4 1 ∧ field r 4 1 ≤ 3 ∧
          field r 2 1 ≤ (posOf u).1 ∧ (posOf u).1 < field r 2 1 + clamp 1 16 (field r 3 1)
        (¬below → t.unitMap.get u = ⟨.unused, 0⟩) ∧
        (below → (∀ r ∈ recs, ¬covers r) → t.unitMap.get u = ⟨.blank, 0⟩) ∧
        (∀ r, below → last covers r →
          (t.unitMap.get u).zone.1 = min 15 (field r 5 1) ∧
          (t.unitMap.get u).kind =
            (if field r 4 1 = 1 then .locker else if field r 4 1 = 2 then .cabin else .blank))) ∧
      (let ranges := recs.filter fun r =>
        field r 0 1 = 6 ∧ field r 1 4 ≤ field r 5 4 ∧ field r 9 1 ≤ 15
       t.permits.map (fun p => (p.low.toNat, p.high.toNat, p.cls.1)) =
         (ranges.take 64).map (fun r => (field r 1 4, field r 5 4, field r 9 1)) ∧
       (b.cuts.permits = true ↔ 64 < ranges.length)) ∧
      (let ids (k : Nat) : List Band := (recs.flatMap fun r => if field r 0 1 = k then
         (List.range (min 6 (field r 1 1))).map fun i => BitVec.ofNat 32 (field r (2 + 4 * i) 4) else []).eraseDups
       t.blocks.Pairwise (fun x y => x.toNat < y.toNat) ∧ (∀ x, x ∈ t.blocks ↔ x ∈ (ids 7).take 1024) ∧
       (b.cuts.blocks = true ↔ 1024 < (ids 7).length) ∧
       t.masters = (ids 8).take 32 ∧ (b.cuts.masters = true ↔ 32 < (ids 8).length)) ∧
      (∀ c : ClassIx, let k := t.classes.get c
        k.lockerQuota ≤ 4 ∧ k.cabinQuota ≤ 1 ∧ 1 ≤ k.floor ∧ k.floor ≤ k.base ∧ k.base ≤ 60 ∧ 30 ≤ k.ajarIdle ∧
          k.ajarIdle ≤ 600) ∧
      (∀ z : ZoneIx, let k := t.zones.get z
        k.threshold ≤ k.cabins ∧ k.threshold ≤ 511 ∧ k.warningLead ≤ 300 ∧ k.grace ≤ 600) ∧
      (∀ k : BankIx, let k := t.banks.get k
        k.nodeCount ≤ 64 ∧ 1 ≤ k.pulseLength ∧ k.pulseLength ≤ 15 ∧ 50 ≤ k.coilCurrent ∧ k.coilCurrent ≤ 2000 ∧
          k.coilCurrent ≤ o.railLimit ∧ 50 ≤ k.sweep ∧ k.sweep ≤ 500) ∧
      (∀ u : UnitIx, (t.unitMap.get u).kind = .unused ↔ (t.banks.get (bankOf u)).nodeCount ≤ (posOf u).1) ∧
      (let o := loadOptions recs
       300 ≤ o.railLimit ∧ o.railLimit ≤ 6000 ∧ o.railLimit % 10 = 0 ∧ o.repeatWindow ≤ 5000 ∧ o.qualityMin ≤ 7)

/-- TABLE_LOAD_END of the cold load (R13, R17, R21, R59, R86, R124): the set built of the store's records is in force
with option values from the store, every unit is FREE of its kind with the lamp of FREE, nothing is held, timed or
moved, the summary is written and TABLES_LOADED posted with cause COLD, and replay begins by requesting the erase of
the first dirty journal segment. Nothing else changes but what the write port takes up: with the port and the Journal
Engine as a cold start leaves them, the erase of that segment is in progress at the end, with the retiring program its
slot 0 lacks next on the port, or erase proper active where slot 0 is RETIRED; with no dirty segment the port stays idle.
The slots are read in this event, the model's choice (log 12). -/
def Obligations.ColdLoadEnds : Prop :=
  ∀ s : State, s.load = some .cold →
    let recs := tableRecords s
    let b := buildSet recs (loadOptions recs)
    let cut := b.cuts.permits || b.cuts.blocks || b.cuts.masters
    let result : LoadResult := if cut then .truncated else .ok
    let cuts := b.cuts.permits.toNat + 2 * b.cuts.blocks.toNat + 4 * b.cuts.masters.toNat
    ∃ t, exec .tableLoadEnd s = .next t ∧ PortServes { s with
        startUp := .replay
        load := none
        tables := b.tables
        units := tabulate 512 (fun u => UnitRec.cold (steadyLamp (b.tables.unitMap.get u).kind .free))
        bands := []
        timers := []
        drive := ⟨[], [], [], []⟩
        engine := { s.engine with overlay := [] }
        summary := some ⟨.cold, result, b.tables.permits.length, b.tables.blocks.length, b.tables.masters.length,
          b.cuts, none⟩
        notices := s.notices.post (s.notice .tablesLoaded (16 + result.code) none none cuts)
        port := { s.port with journalErase := (List.range' 16 16).find? fun g => s.segDirty g } } t ∧
      (s.port = ⟨none, none, none, false⟩ → s.mgmt.state ≠ .programming → s.journal.head = none →
        s.journal.tail = none → s.journal.queue = [] → s.journal.opening = none → s.journal.write = none →
        (∀ g, 16 ≤ g → g ≤ 31 → s.segDirty g = true → (∀ h, 16 ≤ h → h < g → s.segDirty h = false) →
          (s.slotState ⟨g, 0⟩ = .retired → t.port = ⟨none, some ⟨true, g, .active⟩, none, false⟩) ∧
          (∀ k c, RetiringNext (s.slotState ⟨g, 0⟩) k c →
            t.port = ⟨some ⟨.retiring, k, ⟨g, 0⟩, c⟩, some ⟨true, g, .retiring true⟩, none, false⟩)) ∧
        ((∀ g, 16 ≤ g → g ≤ 31 → s.segDirty g = false) → t.port = s.port))

/-- A load at warm restart or RELOAD_TABLES that finds a unit in conflict (R15) is discarded: a unit is in conflict
where its kind would change and it has a holder, or is a locker with its state_ref present. The lowest such unit is
reported, in the summary and in TABLES_LOADED; a reload ends its action with CONFLICT (R14). Nothing else changes but
what the write port takes up.
A reload that finds no conflict replaces the set (R14, R16): the overlay is cleared; every binding is kept; a unit
whose kind is unchanged keeps its record and its timer entry, a deferred op apart; one whose kind changes is FREE of
its new kind, with no timer or follow-up entry; a bank whose node count is not 0 and whose count or kinds changed is
RESETTING, its tap memory cleared, one whose count has become 0 ABSENT, and every other bank goes on with its chain and
its tap memory, with the new sweep period from its next cycle; where no bank is reset or becomes ABSENT the Drive
Scheduler is as it was. TABLES_LOADED and ACTION_DONE carry the same result. What waits at the engine waits on, behind it
the reports of the banks' movements, without what concerns a unit whose kind changes. Everything else is as it was: the
clock, the Journal Engine, the store, the port, the store commands, the Tap Queue, the site line, the inputs, the observed
fields and identities, the pending action, and the rest of the engine.
The slots are read in this event (log 12), what waits for a unit whose kind changes goes with its record (log 21), and
the counts and lists cut after a conflict are those of the set discarded (log 46): the model's choices. -/
def Obligations.ReloadEnds : Prop :=
  (
    ∀ (s : State) (r : Running) (u : UnitIx),
      let b := buildSet (tableRecords s) s.tables.options
      let inConflict (v : UnitIx) : Prop :=
        (b.tables.unitMap.get v).kind ≠ s.kind v ∧
          ((s.unit v).holder.isSome ∨ (s.kind v = .locker ∧ (s.unit v).stateRef.isSome))
      s.load = some .reload → s.engine.runningSlot = some r → r.action = .reloadTables →
      inConflict u → (∀ v : UnitIx, v.1 < u.1 → ¬inConflict v) →
      ∃ t, exec .tableLoadEnd s = .next t ∧
        PortServes { s with
          load := none
          summary := some ⟨.reload, .conflict, b.tables.permits.length, b.tables.blocks.length,
            b.tables.masters.length, b.cuts, some u⟩
          engine := { s.engine with runningSlot := none }
          notices := (s.notices.post (s.notice .tablesLoaded (48 + 3) none none u.1)).post
            (s.notice .actionDone (160 + 12) none none 0) } t) ∧
  (
    ∀ (s : State) (r : Running),
      let b := buildSet (tableRecords s) s.tables.options
      let new := b.tables
      let changed (v : UnitIx) : Prop := (new.unitMap.get v).kind ≠ s.kind v
      let result : LoadResult := if b.cuts.permits || b.cuts.blocks || b.cuts.masters then .truncated else .ok
      let cuts := b.cuts.permits.toNat + 2 * b.cuts.blocks.toNat + 4 * b.cuts.masters.toNat
      let ends : Nat := if result = .ok then 0 else 11
      s.load = some .reload → s.engine.runningSlot = some r → r.action = .reloadTables →
      (∀ v : UnitIx, changed v →
        (s.unit v).holder = none ∧ (s.kind v = .locker → (s.unit v).stateRef = none)) →
      let gone (v : UnitIx) : Bool := (new.unitMap.get v).kind ≠ s.kind v
      let differs (k : BankIx) : Prop :=
        (new.banks.get k).nodeCount ≠ (s.bankRec k).nodeCount ∨ ∃ v, bankOf v = k ∧ changed v
      let isReset (k : BankIx) : Prop := 0 < (new.banks.get k).nodeCount ∧ differs k
      let goesAbsent (k : BankIx) : Prop := (new.banks.get k).nodeCount = 0 ∧ 0 < (s.bankRec k).nodeCount
      ∃ m t, exec .tableLoadEnd s = .next t ∧ PortServes m t ∧
        m = { s with
          load := none, tables := new, summary := m.summary, notices := m.notices, units := m.units
          timers := m.timers, drive := m.drive, banks := m.banks, chains := m.chains, tapMemory := m.tapMemory
          engine := { s.engine with
            overlay := [], runningSlot := none, follow := m.engine.follow, inbox := m.engine.inbox
            held := s.engine.held.filter (HeldEvent.stays gone)
            arrived := s.engine.arrived.filter (HeldEvent.stays gone) } } ∧
        (∃ reports, m.engine.inbox = (s.engine.inbox ++ reports).filterMap (EngEvent.without gone)) ∧
        m.summary = some ⟨.reload, result, new.permits.length, new.blocks.length, new.masters.length, b.cuts, none⟩ ∧
        m.notices = (s.notices.post (s.notice .tablesLoaded (48 + result.code) none none cuts)).post
          (s.notice .actionDone (160 + ends) none none 0) ∧
        (∀ v, ¬changed v → (m.unit v).rest = (s.unit v).rest) ∧
        (∀ v, changed v → (m.unit v).rest = UnitRec.cold (steadyLamp (new.unitMap.get v).kind .free)) ∧
        (∀ e, e ∈ m.timers ↔ e ∈ s.timers ∧ ¬changed e.unit) ∧
        (∀ e, e ∈ m.engine.follow ↔ e ∈ s.engine.follow ∧ ¬changed e.1) ∧
        ((∀ k, ¬isReset k ∧ ¬goesAbsent k) → m.drive = s.drive) ∧
        (∀ u, (isReset (bankOf u) → m.tapMemory.get u = ⟨none, none, none⟩) ∧
          (¬isReset (bankOf u) → m.tapMemory.get u = s.tapMemory.get u)) ∧
        ∀ k : BankIx,
          (isReset k → (m.bank k).state = .resetting ∧ (m.bank k).resetAt = s.clock.ms ∧ m.rstHeld k = true) ∧
          (goesAbsent k → (m.bank k).state = .absent ∧ m.rstHeld k = true) ∧
          (isReset k ∨ goesAbsent k → m.chain k = (s.chain k).map fun n =>
            { n with phase := .rest, mode := .ident, stage := [], reg := [], band := 0, quality := 0, seq := 0,
                     tapPend := false, pulse := none, pulseFrom := none, lamp := .off }) ∧
          (¬isReset k → ¬goesAbsent k →
            m.chain k = s.chain k ∧
            m.bank k = { s.bank k with cycleDue := (m.bank k).cycleDue } ∧
            (m.bank k).cycleDue = (if (new.banks.get k).sweep = (s.bankRec k).sweep then (s.bank k).cycleDue
              else (s.bank k).cycleBegun + BitVec.ofNat 32 (new.banks.get k).sweep)))

/-- What replay keeps of the ring is what its last applicable record says (R125): the records of the in-use segments,
oldest segment first and in slot order; for a locker, its last BIND or RELEASE gives the holder and the BIND's slot,
its last STATE the mark and its slot, and STATE RETURN leaves none. For any other unit nothing is kept. -/
def Obligations.ReplayLastRecordDecides : Prop :=
  ∀ (s : State) (u : UnitIx),
    let records : List (Ref × JRec) := (s.ringOrder.flatMap fun g => s.segRecords g.1).filterMap fun rc =>
      (jrec? rc.2).map fun j => (rc.1, j)
    let holdings := records.filterMap fun rj => match rj.2 with
      | .bind v b _ _ => if v = u then some (some (b, rj.1)) else none
      | .release v => if v = u then some none else none
      | .state _ _ => none
    let marks := records.filterMap fun rj => match rj.2 with
      | .state v m => if v = u then some (if m = .returned then none else some (m, rj.1)) else none
      | _ => none
    (s.kind u = .locker →
      (s.restored.get u).holder = holdings.getLast?.join ∧ (s.restored.get u).mark = marks.getLast?.join) ∧
    (s.kind u ≠ .locker → s.restored.get u = ⟨none, none⟩)

/-- JOURNAL_REPLAY (R124, R126, R180): once no journal segment is dirty and the port is idle, the segments in use are
ordered by generation, modulo 2^32: where the generations lie within one half of the circle, each is older than those
behind it, and segments of one generation keep ascending order; of each segment the VALID slots 1 to 127 are read in
ascending order. Each locker takes its record from what replay kept, by the table of R126, the refs with it; every other
unit is as it was. The head is the newest segment in use with its generation, the next slot one past its highest slot
that is not BLANK, the tail the oldest, the blank count counts the BLANK segments, the queue is empty and the reclaim
IDLE; where the head is full the segment after it is claimed for opening if it is BLANK, and the ring is stalled, with a
report, if it is not (R118, R119). Every bank with a node count above 0 enters RESETTING, which holds RSTn. The part
then takes events. From this state on the Journal Engine and the port go on in the same event as PortServes says, a
reclaim included where the blank count is 3 or below. -/
def Obligations.ReplayRestoresHoldings : Prop :=
  ∀ s : State, s.startUp = .replay → s.port.program = none → s.port.erase = none → s.port.journalErase = none →
    (∀ g, 16 ≤ g → g ≤ 31 → s.segDirty g = false) → StoreOk s →
    (∀ g h, (g, h) ∈ s.ringOrder ↔ 16 ≤ g ∧ g ≤ 31 ∧ s.segHeader g = some h) ∧
    ((∃ base : BitVec 32, ∀ e ∈ s.ringOrder, (e.2 - base).toNat < 2147483648) →
      s.ringOrder.Pairwise fun x y =>
        (1 ≤ (y.2 - x.2).toNat ∧ (y.2 - x.2).toNat ≤ 2147483647) ∨ (x.2 = y.2 ∧ x.1 < y.1)) ∧
    (∀ g, s.segRecords g = ((List.range' 1 127).filter fun i => s.slotState ⟨g, i⟩ = .valid).map fun i =>
      (⟨g, i⟩, (s.store.read (g * 128 + i)).content)) ∧
    ∃ m t, exec .journalReplay s = .next t ∧ PortServes m t ∧
      m = { s with
        startUp := .running, units := m.units, bands := m.bands, journal := m.journal, banks := m.banks
        chains := m.chains, tapMemory := m.tapMemory, drive := m.drive
        engine := { s.engine with inbox := m.engine.inbox } } ∧
      (∀ u, s.kind u ≠ .locker → (m.unit u).rest = (s.unit u).rest) ∧
      (∀ u, s.kind u = .locker →
        let r := (s.unit u).rest
        let lit (st : UState) : LampPlan := { r.lamp with steady := steadyLamp .locker st }
        (m.unit u).rest = match (s.restored.get u).mark, (s.restored.get u).holder with
          | some (.outOfService, x), _ =>
            { r with state := .outOfService, stateRef := some x, lamp := lit .outOfService }
          | some (_, x), some (b, y) =>
            { r with state := .fault, holder := some b, restored := true, journalRef := some y, stateRef := some x,
                     lamp := lit .fault }
          | some (_, x), none => { r with state := .fault, stateRef := some x, lamp := lit .fault }
          | none, some (b, y) =>
            { r with state := .held, holder := some b, restored := true, journalRef := some y, lamp := lit .held }
          | none, none => r) ∧
      (∀ e ∈ m.bands, e.cls = 0 ∧ e.firstBound = 0) ∧ HoldingsOk m ∧
      m.journal.head = (s.ringOrder.getLast?).map (·.1) ∧ m.journal.tail = s.ringOrder.head?.map (·.1) ∧
      m.journal.headGen = ((s.ringOrder.getLast?).map (·.2)).getD 0 ∧
      m.journal.queue = [] ∧ m.journal.reclaim = .idle ∧ m.journal.write = none ∧ m.journal.turn = none ∧
      (let blank := ((List.range' 16 16).filter s.segBlank).length
       let full : Prop := m.journal.next = 128
       let after' (g : Nat) : Nat := if g = 31 then 16 else g + 1
       (m.journal.head = none → m.journal.next = 1) ∧
       (∀ g, m.journal.head = some g → 1 ≤ m.journal.next ∧ m.journal.next ≤ 128 ∧
         (∀ i, m.journal.next ≤ i → i ≤ 127 → s.slotState ⟨g, i⟩ = .blank) ∧
         (1 < m.journal.next → s.slotState ⟨g, m.journal.next - 1⟩ ≠ .blank) ∧
         (full → s.segBlank (after' g) = true →
           m.journal.opening = some (after' g) ∧ m.journal.blanks = blank - 1 ∧ m.journal.stalled = false) ∧
         (full → s.segBlank (after' g) = false →
           m.journal.opening = none ∧ m.journal.blanks = blank ∧ m.journal.stalled = true ∧
             EngEvent.stall true ∈ m.engine.inbox)) ∧
       (¬full → m.journal.opening = none ∧ m.journal.blanks = blank ∧ m.journal.stalled = false)) ∧
      (∀ b, if 0 < (s.bankRec b).nodeCount
        then (m.bank b).state = .resetting ∧ m.rstHeld b = true ∧ (m.bank b).resetAt = s.clock.ms
        else m.bank b = s.bank b)

/-- The steps of a warm restart up to its load (R128, R181). RESTART_QUIESCED: once every delivered pulse has ended,
detached ones too, and no pass is under way or parked on any chain, the journal drain follows.
RESTART_JOURNAL_DRAINED: once the Journal Queue is empty the store step follows. Before that neither changes
anything.
RESTART_STORE_SETTLED (R147, R152, R181): once no management or journal operation remains, the command state
becomes READY with an open erase window discarded, the Tap and Actuation Queues are cleared, both slots are emptied
with ACTION_DONE ABORTED, reports at the engine are discarded and every unit that loses a movement is suspended,
deferred ops and beep requests are cleared, follow-up entries act as removals, and the warm load begins. Waiting events
but for stall reports are discarded, those R181 does not list included (log 31). The last
result, the toggle, the Journal Engine, the store, the Band Index and the timers are kept.
That a step whose end has not come does nothing is the model's choice (log 2), and so is the extra word 0 of an
ACTION_DONE with ABORTED, of a RELEASE_BAND or CLEAR_EVACUATION cut off midway too (log 54); that a chain with a
reservation request outstanding counts as idle is its inference (log 22). -/
def Obligations.RestartSteps : Prop :=
  (
    ∀ s : State,
      let quiet : Prop := (∀ a ∈ s.drive.granted, a.delivered = false) ∧ s.drive.detached = [] ∧
        ∀ b, (s.bank b).activity = .idle ∨ ∃ us, (s.bank b).activity = .reserving us
      (s.restart = some .quiesce → quiet → exec .restartQuiesced s = .next { s with restart := some .drain }) ∧
      (¬(s.restart = some .quiesce ∧ quiet) → exec .restartQuiesced s = .next s) ∧
      (s.restart = some .drain → s.journal.queue = [] →
        exec .restartJournalDrained s = .next { s with restart := some .store }) ∧
      (¬(s.restart = some .drain ∧ s.journal.queue = []) → exec .restartJournalDrained s = .next s)) ∧
  (
    ∀ s : State, s.restart = some .store →
      s.mgmt.state ≠ .programming → s.mgmt.state ≠ .erasing → s.port = ⟨none, none, none, false⟩ →
      s.journal.write = none → s.journal.opening = none →
      ∃ t, exec .restartStoreSettled s = .next t ∧ t.restart = some .load ∧ t.load = some .warm ∧ t.loadLate = [] ∧
        t.mgmt = { s.mgmt with state := .ready, eraseList := [], skipped := [], eraseSet := [], target := none } ∧
        t.taps.records = [] ∧ t.taps.reservations = 0 ∧ t.drive = ⟨[], [], [], []⟩ ∧
        t.engine.pendingSlot = none ∧ t.engine.runningSlot = none ∧ t.engine.follow = [] ∧
        (∀ e ∈ t.engine.inbox, e.isStall = true) ∧ t.engine.held = [] ∧ t.engine.arrived = [] ∧
        t.notices =
          (let done (a : Action) : Notice := s.notice .actionDone (a.code * 16 + 15) a.unit? a.band? 0
           ((s.engine.runningSlot.map fun r => done r.action).toList ++ (s.engine.pendingSlot.map done).toList).foldl
             NoticeQueue.post s.notices) ∧
        (∀ u,
          let lost : Prop := u ∈ s.drive.units ∨ (s.unit u).deferred.isSome ∨ ∃ e ∈ s.engine.inbox, e.reports u = true
          (t.unit u).deferred = none ∧ (t.unit u).lamp.beep = false ∧ (t.unit u).holder = (s.unit u).holder ∧
          ((t.unit u).suspended = true ↔ (s.unit u).suspended = true ∨ lost) ∧
          ((∀ e ∈ s.engine.follow, e.1 ≠ u) → (t.unit u).state = (s.unit u).state)) ∧
        (∀ u f, s.engine.follow.find? (fun e => e.1 = u) = some (u, f) →
          (t.unit u).state = match f with | .toOpen => .evacOpen | .toClose => .closing) ∧
        t.journal = s.journal ∧ t.store = s.store ∧ t.bands = s.bands ∧ t.timers = s.timers ∧ t.tables = s.tables ∧
        t.inputs = s.inputs ∧ t.line = s.line)

/-- TABLE_LOAD_END of a warm restart (R13, R15 to R17, R111, R181): the conflict check and the replacement are those of
a reload, with cause WARM in the summary and in TABLES_LOADED. In conflict the set in force, the overlay and every
record stay, and the lowest unit in conflict is reported. Otherwise the new set is in force, the overlay is cleared, a
unit whose kind is unchanged keeps its record and its timer and follow-up entries, one whose kind changes is FREE of
its new kind without either, and the result is TRUNCATED where a list was cut. Then every bank with a node count above
0 in the set in force is RESETTING and every other one ABSENT, and the restart has ended; the order of events of R181
then holds. Where the Drive Scheduler is empty and no movement is deferred, as the clearing step leaves them, it stays
so. The Band Index, the Journal Engine, the store, the port, the Tap Queue, the inputs, the line, both action slots and
the observed fields are as they were.
The slots are read in this event, the model's choice (log 12); the counts and lists cut after a conflict are those of
the set discarded (log 46). -/
def Obligations.WarmLoadEndsRestart : Prop :=
  ∀ s : State, s.load = some .warm →
    let b := buildSet (tableRecords s) s.tables.options
    let new := b.tables
    let changed (v : UnitIx) : Prop := (new.unitMap.get v).kind ≠ s.kind v
    let inConflict (v : UnitIx) : Prop :=
      changed v ∧ ((s.unit v).holder.isSome ∨ (s.kind v = .locker ∧ (s.unit v).stateRef.isSome))
    let result : LoadResult := if b.cuts.permits || b.cuts.blocks || b.cuts.masters then .truncated else .ok
    let cuts := b.cuts.permits.toNat + 2 * b.cuts.blocks.toNat + 4 * b.cuts.masters.toNat
    ∃ m t, exec .tableLoadEnd s = .next t ∧ PortServes m t ∧ m.load = none ∧ m.restart = none ∧
      m.engine.resuming = true ∧
      (∀ u, inConflict u → (∀ v : UnitIx, v.1 < u.1 → ¬inConflict v) →
        m.tables = s.tables ∧ m.engine.overlay = s.engine.overlay ∧ OthersKept s m [] ∧ m.timers = s.timers ∧
        m.engine.follow = s.engine.follow ∧
        m.summary = some ⟨.warm, .conflict, new.permits.length, new.blocks.length, new.masters.length, b.cuts, some u⟩ ∧
        m.notices = s.notices.post (s.notice .tablesLoaded (32 + 3) none none u.1)) ∧
      ((∀ u, ¬inConflict u) →
        m.tables = new ∧ m.engine.overlay = [] ∧
        (∀ v, ¬changed v → (m.unit v).rest = (s.unit v).rest) ∧
        (∀ v, changed v → (m.unit v).rest = UnitRec.cold (steadyLamp (new.unitMap.get v).kind .free)) ∧
        (∀ e, e ∈ m.timers ↔ e ∈ s.timers ∧ ¬changed e.unit) ∧
        (∀ e, e ∈ m.engine.follow ↔ e ∈ s.engine.follow ∧ ¬changed e.1) ∧
        m.summary = some ⟨.warm, result, new.permits.length, new.blocks.length, new.masters.length, b.cuts, none⟩ ∧
        m.notices = s.notices.post (s.notice .tablesLoaded (32 + result.code) none none cuts)) ∧
      (∀ k : BankIx, m.rstHeld k = true ∧
        if 0 < (m.bankRec k).nodeCount
        then (m.bank k).state = .resetting ∧ (m.bank k).resetAt = s.clock.ms ∧ (m.bank k).activity = .idle
        else (m.bank k).state = .absent) ∧
      (s.drive = ⟨[], [], [], []⟩ → (∀ u, (s.unit u).deferred = none) → m.drive = s.drive) ∧
      (m.bands = s.bands ∧ m.journal = s.journal ∧ m.store = s.store ∧ m.port = s.port ∧ m.mgmt = s.mgmt ∧
        m.taps = s.taps ∧ m.inputs = s.inputs ∧ m.line = s.line ∧ m.observed = s.observed ∧
        m.engine.pendingSlot = s.engine.pendingSlot ∧ m.engine.runningSlot = s.engine.runningSlot ∧
        m.engine.cleaning = s.engine.cleaning ∧ m.engine.ringStalled = s.engine.ringStalled)

/-! ### Evacuation -/

/-- EVACUATION_START (R73, R175 to R177): taken when the oldest waiting change is an assertion and the engine takes
events. Evacuation is active; only cabins are touched, and of the rest of the part the Drive Scheduler, the follow-up
list and the Notice Queue alone. A cabin in FREE or CLOSING with nothing granted, awaiting verify or reported takes
EVAC_OPEN, lamp green flashing, and, unless suspended, has its URGENT WITHDRAW where its bank is RUNNING; where a throw
of it waited or was deferred, it has no follow-up entry. One whose movement is in flight keeps its state and joins the
follow-up list with OPEN; so does one whose waiting or deferred throw left the waiting list in this event before the
cabin
was taken, since the head is examined at each change (R74): granted in EDGE mode, displaced in LEVEL mode, or removed
from
a bank not RUNNING. An ADMITTING cabin's WITHDRAW in hand, an actuation or a deferred op, becomes URGENT where its
bank is RUNNING; every other cabin keeps its state. No CLOSE entry is left. EVACUATION_START carries the mode and, as its
extra word, the cabins that took EVAC_OPEN and the ADMITTING cabins with a withdraw so promoted, together, every one of a
RUNNING bank among them. A movement that has left and whose report the engine has not taken counts as in flight (log 13),
and a withdraw that is URGENT already counts (log 38), the model's inferences. -/
def Obligations.EvacuationStart : Prop :=
  ∀ (s : State) (rest : List Bool), s.startUp = .running → s.restart = none → s.inputs.changes = true :: rest →
    MovementsOk s →
    ∃ t promoted, exec .evacuationStart s = .next t ∧
      (let opened := (allUnits.filter fun u => s.kind u = .cabin ∧
          ((s.unit u).state = .free ∨ (s.unit u).state = .closing) ∧ (t.unit u).state = .evacOpen).length
       let admitting := allUnits.filter fun u => s.kind u = .cabin ∧ (s.unit u).state = .admitting ∧
          (s.actuating u = true ∨ (s.unit u).deferred.isSome)
       (admitting.filter fun u => (s.bank (bankOf u)).state = .running).length ≤ promoted ∧
       promoted ≤ admitting.length ∧
       t = { s with
         inputs := { s.inputs with active := true, changes := rest }
         units := t.units
         drive := t.drive
         engine := { s.engine with
           inbox := t.engine.inbox, follow := t.engine.follow, runningSlot := t.engine.runningSlot }
         notices := s.notices.post
           (s.notice .evacuationStart s.tables.options.evacMode.code none none (opened + promoted)) }) ∧
      (∀ u, s.kind u ≠ .cabin → (t.unit u).rest = (s.unit u).rest) ∧
      (∀ u, (t.unit u).holder = (s.unit u).holder ∧ (t.unit u).suspended = (s.unit u).suspended) ∧
      (∀ u, s.kind u = .cabin → (s.unit u).state ≠ .free → (s.unit u).state ≠ .closing →
        (t.unit u).rest = (s.unit u).rest) ∧
      (∀ u, s.kind u = .cabin → (s.unit u).state = .free ∨ (s.unit u).state = .closing →
        s.opInHand u ≠ some .withdraw →
        let flying : Prop := (∃ a ∈ s.drive.granted ++ s.drive.awaiting, a.unit = u) ∨ s.reported u = true
        let follows : Prop := (t.unit u).state = (s.unit u).state ∧ (u, Follow.toOpen) ∈ t.engine.follow
        let opens : Prop := (t.unit u).state = .evacOpen ∧ (t.unit u).lamp.steady = .greenFlash ∧
          (s.opInHand u = some .throw → ∀ e ∈ t.engine.follow, e.1 ≠ u) ∧
          ((s.unit u).suspended = false → (s.bank (bankOf u)).state = .running →
            (∃ a ∈ t.drive.waiting ++ t.drive.granted, a.unit = u ∧ a.op = .withdraw ∧ a.urgency = .urgent) ∨
              (t.unit u).deferred = some (.withdraw, .urgent))
        (flying → follows) ∧ (¬flying → s.opInHand u = none → opens) ∧
        (¬flying → s.opInHand u = some .throw → opens ∨ (follows ∧
          ((s.tables.options.evacMode = .edge ∧ ∃ a ∈ t.drive.granted, a.unit = u ∧ a.op = .throw) ∨
            (s.tables.options.evacMode = .level ∧ EngEvent.displaced u ∈ t.engine.inbox) ∨
            ((s.bank (bankOf u)).state ≠ .running ∧ EngEvent.removed [u] none ∈ t.engine.inbox))))) ∧
      (∀ u, s.kind u = .cabin → (s.unit u).state = .admitting → (s.bank (bankOf u)).state = .running →
        (∀ a ∈ s.drive.waiting ++ s.drive.granted ++ s.drive.awaiting, a.unit = u → a.op = .withdraw →
          ∃ x ∈ t.drive.waiting ++ t.drive.granted ++ t.drive.awaiting,
            x.unit = u ∧ x.op = .withdraw ∧ x.urgency = .urgent ∧ x.attempt = a.attempt) ∧
        (∀ c, (s.unit u).deferred = some (.withdraw, c) →
          (t.unit u).deferred = some (.withdraw, .urgent) ∨
            ∃ x ∈ t.drive.waiting ++ t.drive.granted, x.unit = u ∧ x.op = .withdraw ∧ x.urgency = .urgent)) ∧
      (∀ e ∈ t.engine.follow, e.2 = .toOpen)

/-- EVACUATION_END (R175, R179): in EDGE mode the state becomes INACTIVE and EVACUATION_END is posted with extra
word 0, and nothing else changes. In LEVEL mode each cabin in EVAC_OPEN with no withdraw granted, awaiting verify or
reported takes CLOSING, lamp off, and, unless suspended, has its NORMAL THROW where its bank is RUNNING; one whose
withdraw is in flight stays and joins the follow-up list with CLOSE, and so does one whose waiting or deferred withdraw
was
granted in this event, or removed from a bank not RUNNING, before the cabin was taken, since the head is examined at each
change (R74); every other unit keeps its record. No OPEN entry is left, and the notice counts the cabins put into
CLOSING.
That a movement whose report the engine has not taken counts as in flight is the model's inference (log 13). -/
def Obligations.EvacuationEnd : Prop :=
  ∀ (s : State) (rest : List Bool), s.startUp = .running → s.restart = none → s.inputs.changes = false :: rest →
    MovementsOk s →
    (s.tables.options.evacMode = .edge →
      exec .evacuationEnd s = .next { s with
        inputs := { s.inputs with active := false, changes := rest }
        notices := s.notices.post (s.notice .evacuationEnd 1 none none 0) }) ∧
    (s.tables.options.evacMode = .level →
      ∃ t n, exec .evacuationEnd s = .next t ∧
        t = { s with
          inputs := { s.inputs with active := false, changes := rest }
          units := t.units
          drive := t.drive
          engine := { s.engine with
            inbox := t.engine.inbox, follow := t.engine.follow, runningSlot := t.engine.runningSlot }
          notices := s.notices.post (s.notice .evacuationEnd 2 none none n) } ∧
        (∀ u, s.kind u ≠ .cabin ∨ (s.unit u).state ≠ .evacOpen → (t.unit u).rest = (s.unit u).rest) ∧
        (∀ u, s.kind u = .cabin → (s.unit u).state = .evacOpen → s.opInHand u ≠ some .throw →
          let flying : Prop := (∃ a ∈ s.drive.granted ++ s.drive.awaiting, a.unit = u) ∨ s.reported u = true
          let follows : Prop := (t.unit u).rest = (s.unit u).rest ∧ (u, Follow.toClose) ∈ t.engine.follow
          let closes : Prop := (t.unit u).state = .closing ∧ (t.unit u).lamp.steady = .off ∧
            ((s.unit u).suspended = false → (s.bank (bankOf u)).state = .running →
              (∃ a ∈ t.drive.waiting ++ t.drive.granted, a.unit = u ∧ a.op = .throw ∧ a.urgency = .normal) ∨
                (t.unit u).deferred = some (.throw, .normal))
          (flying → follows) ∧ (¬flying → s.opInHand u = none → closes) ∧
          (¬flying → s.opInHand u = some .withdraw → closes ∨ (follows ∧
            ((∃ a ∈ t.drive.granted, a.unit = u ∧ a.op = .withdraw) ∨
              ((s.bank (bankOf u)).state ≠ .running ∧ EngEvent.removed [u] none ∈ t.engine.inbox))))) ∧
        (∀ e ∈ t.engine.follow, e.2 = .toClose) ∧
        n = (allUnits.filter fun u => s.kind u = .cabin ∧ (s.unit u).state = .evacOpen ∧
          (t.unit u).state = .closing).length)

/-! ### The site line -/

/-- The events of the line that carry no frame (R164, R166): QUIET-WAIT passes to HUNT once replay has ended, 0xC5 in
HUNT begins a frame with the buffer emptied, a frame being received can be abandoned, and the end of a reply releases
the line. Each of them changes the Site Line Port alone, and in the other conditions nothing.
A complete frame of any kind that fails its CRC or names another station, or reaches a part strapped to station 0
or 31, is discarded without a reply (R163, R165): the port goes to QUIET-WAIT with the frame in its buffer, and nothing
else in the part changes. A frame that arrives while the port is not RECEIVING does nothing at all.
That an event whose condition does not hold does nothing, and that a frame comes as one command, are the model's
choices (logs 2, 7). -/
def Obligations.LineConditions : Prop :=
  (
    ∀ s : State,
      (s.line.cond = .quietWait → s.startUp = .running →
        exec .lineQuiet s = .next { s with line := { s.line with cond := .hunt } }) ∧
      (s.line.cond ≠ .quietWait ∨ s.startUp ≠ .running → exec .lineQuiet s = .next s) ∧
      (s.line.cond = .hunt →
        exec .startByte s = .next { s with line := { s.line with cond := .receiving, buffer := [] } }) ∧
      (s.line.cond ≠ .hunt → exec .startByte s = .next s) ∧
      (s.line.cond = .receiving → exec .frameAbandon s = .next { s with line := { s.line with cond := .quietWait } }) ∧
      (s.line.cond ≠ .receiving → exec .frameAbandon s = .next s) ∧
      (s.line.cond = .replying →
        exec .replySent s = .next { s with line := { s.line with cond := .quietWait, reply := [] } }) ∧
      (s.line.cond ≠ .replying → exec .replySent s = .next s)) ∧
  (
    ∀ (c : Instr) (kind : Byte) (f : Frame) (s : State), frameOf c = some (kind, f) → c.wellFormed = true →
      let body : List Byte := [f.station, kind, BitVec.ofNat 8 f.payload.length] ++ f.payload
      (s.line.cond = .receiving →
        f.crc ≠ crc16 body ∨ f.station ≠ s.line.station.zeroExtend 8 ∨ s.line.station = 0 ∨ s.line.station = 31 →
        exec c s = .next { s with line :=
          { s.line with cond := .quietWait, buffer := body ++ byte2 f.crc.toNat } }) ∧
      (s.line.cond ≠ .receiving → exec c s = .next s))

/-- A kind byte that names no frame kind is answered NAK UNKNOWN_KIND with that byte, and a payload whose length does
not fit its kind NAK BAD_LENGTH; the frame has no other effect (R136, R167, R183).
A STORE-PROGRAM or STORE-ERASE of the right length that names a segment above 31, or a slot above 127, is answered
NAK BAD_ARGUMENT, and one that names a segment 16 to 31 NAK RESERVED_SEGMENT; nothing else changes (R136).
That these checks come before the NAK BUSY of a warm restart is the model's reading (log 28). -/
def Obligations.FramesChecked : Prop :=
  (
    (∀ (kind : Byte) (f : Frame) (s : State), Arrives s kind f →
      kind ∉ [0x01#8, 0x02#8, 0x03#8, 0x04#8, 0x05#8, 0x06#8, 0x07#8, 0x08#8, 0x09#8, 0x10#8, 0x11#8, 0x12#8, 0x13#8,
        0x14#8, 0x15#8, 0x16#8] →
      exec (.unknownKind kind f) s = .next { s with line := s.line.naks kind f .unknownKind }) ∧
    ∀ (c : Frame → Instr) (kind : Byte) (n : Nat),
      (c = .poll ∧ kind = 0x01 ∧ n = 1) ∨ (c = .readUnit ∧ kind = 0x02 ∧ n = 2) ∨
      (c = .readBand ∧ kind = 0x03 ∧ n = 4) ∨ (c = .readZone ∧ kind = 0x04 ∧ n = 1) ∨
      (c = .readTable ∧ kind = 0x05 ∧ n = 3) ∨ (c = .cancel ∧ kind = 0x07 ∧ n = 0) ∨
      (c = .lamp ∧ kind = 0x08 ∧ n = 4) ∨ (c = .restart ∧ kind = 0x09 ∧ n = 0) ∨
      (c = .storeUnlock1 ∧ kind = 0x10 ∧ n = 1) ∨ (c = .storeUnlock2 ∧ kind = 0x11 ∧ n = 1) ∨
      (c = .storeProgram ∧ kind = 0x12 ∧ n = 34) ∨ (c = .storeErase ∧ kind = 0x13 ∧ n = 1) ∨
      (c = .storeClear ∧ kind = 0x14 ∧ n = 0) ∨ (c = .storeStatus ∧ kind = 0x15 ∧ n = 0) ∨
      (c = .storeRead ∧ kind = 0x16 ∧ n = 2) →
      ∀ (f : Frame) (s : State), Arrives s kind f → f.payload.length ≠ n →
        exec (c f) s = .next { s with line := s.line.naks kind f .badLength }) ∧
  (
    ∀ (f : Frame) (s : State),
      let seg := field f.payload 0 1
      let slot := field f.payload 1 1
      (Arrives s 0x12 f → f.payload.length = 34 →
        (31 < seg ∨ 127 < slot → exec (.storeProgram f) s = .next { s with line := s.line.naks 0x12 f .badArgument }) ∧
        (16 ≤ seg → seg ≤ 31 → slot ≤ 127 →
          exec (.storeProgram f) s = .next { s with line := s.line.naks 0x12 f .reservedSegment })) ∧
      (Arrives s 0x13 f → f.payload.length = 1 →
        (31 < seg → exec (.storeErase f) s = .next { s with line := s.line.naks 0x13 f .badArgument }) ∧
        (16 ≤ seg → seg ≤ 31 → exec (.storeErase f) s = .next { s with line := s.line.naks 0x13 f .reservedSegment })))

/-- POLL (R169, R170, R184). Repeat mark 0, or 1 with no poll copy: the reply number is raised by one, the oldest
notices, up to 8, leave the queue for the reply, the missed flag is reported and cleared, and the reply becomes the
poll copy; the reply's 50-byte summary is laid out as R184 states, and the notices follow, each as its 17 bytes: kind,
code, presence of unit and band, unit, band, seconds and extra word. Repeat mark 1 with a poll
copy: the copy is sent again and nothing else changes. Any other mark: NAK BAD_ARGUMENT. -/
def Obligations.PollReplies : Prop :=
  ∀ (f : Frame) (s : State), Arrives s 0x01 f →
    (f.payload = [0] ∨ (f.payload = [1] ∧ s.line.pollCopy = none) →
      let number := s.line.replyNumber + 1
      let carried := s.notices.list.take 8
      let left := s.notices.list.drop 8
      let flag (i : Nat) (b : Bool) : Nat := if b then 2 ^ i else 0
      ∃ p : List Byte,
        exec (.poll f) s = .next { s with
          notices := ⟨left, false⟩
          line := { s.line.replying 0x01 f 0x81 p with replyNumber := number, pollCopy := some p } } ∧
        p.length = 50 + 17 * carried.length ∧
        field p 0 1 = number.toNat ∧ field p 1 4 = s.clock.sec % 4294967296 ∧
        field p 5 1 = flag 0 s.notices.missed + flag 1 s.restart.isSome + flag 2 s.inputs.active +
          flag 3 (s.tables.options.evacMode = .edge) + flag 4 s.inputs.evacuate ∧
        field p 6 1 = left.length % 256 ∧
        field p 7 1 = (s.engine.pendingSlot.map Action.code).getD 0 ∧
        field p 8 1 = (s.engine.runningSlot.map fun r => r.action.code).getD 0 ∧
        field p 9 1 = s.mgmt.state.code ∧
        field p 10 1 = (if s.mgmt.state = .eraseWindow ∨ s.mgmt.state = .erasing then s.mgmt.eraseList.length
          else 0) % 256 ∧
        field p 11 1 = (s.mgmt.lastResult.map StoreResult.code).getD 0 ∧
        field p 12 1 = flag 0 s.journal.stalled +
          2 * (match s.journal.reclaim with | .idle => 0 | .copying _ => 1 | .erasePending => 2) ∧
        field p 13 1 = s.journal.blanks % 256 ∧
        (∀ b : BankIx, field p (14 + 4 * b.1) 1 = (s.bank b).state.code ∧
          field p (15 + 4 * b.1) 1 = ((s.bank b).faultCode.map FaultCode.code).getD 0 ∧
          field p (16 + 4 * b.1) 1 = (s.bank b).failures % 256 ∧
          field p (17 + 4 * b.1) 1 = (s.bankRec b).nodeCount % 256) ∧
        field p 46 1 = s.taps.records.length % 256 ∧ field p 47 1 = s.taps.reservations % 256 ∧
        field p 48 1 = s.drive.used % 256 ∧ field p 49 1 = carried.length ∧
        p.drop 50 = carried.flatMap (fun n =>
          byte1 (1 + ([.bound, .released, .refused, .masterTap, .cabinWarning, .cabinExpired, .cabinOverstay,
              .doorForced, .unitFault, .nodeTamper, .bankFault, .bankRestored, .actionDone, .storeDone,
              .evacuationStart, .evacuationEnd, .tablesLoaded] : List NoticeKind).idxOf n.kind) ++
            [n.code] ++ byte1 ((if n.unit.isSome then 1 else 0) + (if n.band.isSome then 2 else 0)) ++
            byte2 (match n.unit with | some u => u.1 | none => 0) ++
            byte4 (match n.band with | some b => b.toNat | none => 0) ++ byte4 n.seconds ++ byte4 n.extra.toNat)) ∧
    (∀ p, f.payload = [1] → s.line.pollCopy = some p →
      exec (.poll f) s = .next { s with line := s.line.replying 0x01 f 0x81 p }) ∧
    (∀ b, f.payload = [b] → b ≠ 0 → b ≠ 1 →
      exec (.poll f) s = .next { s with line := s.line.naks 0x01 f .badArgument })

/-- READ_UNIT (R52, R59, R87, R112, R184): a unit index 0 to 511 is answered with, in order, the unit's kind, zone,
state,
holder, bound_at and restored flag; its purpose and release reason, refs, latch_seen, overstay, suspended mark, deferred
op and lamp plan; its last observed DOOR, BOLT, PULSE, LATCH and TAMPER; a cabin's times; its timer entry; its
actuation with the condition, the place in the waiting list, the delivered mark, the recorded current and the time left
to the pulse end, or NONE; and its enumerated identity, its tap memory and whether it holds a reservation. Any other
index is answered with NAK BAD_ARGUMENT. The part is only read.
READ_BAND and READ_ZONE (R52, R55, R184): a band with an entry is answered with its class, its first_bound and
its units in order, one without with NOT_HELD; a zone with N, the occupancy counted now and T. The part is only
read.
The order, the widths and the presence bytes of the READ-UNIT reply, none for an enumerated field that can be absent, are
read from R52, R87, R112 and R184 by inference (log 29); the delivered mark as a plain flag byte is the model's choice
(log 56). -/
def Obligations.UnitBandAndZoneReplies : Prop :=
  (
    ∀ (f : Frame) (s : State), Arrives s 0x02 f → f.payload.length = 2 →
      (∀ u : UnitIx, field f.payload 0 2 = u.1 →
        let r := s.unit u
        let k := s.kind u
        let c := s.cell u
        let flag (b : Bool) : List Byte := [if b then 1#8 else 0#8]
        let opt (x : Option (List Byte)) : List Byte := match x with | some l => 1#8 :: l | none => [0#8]
        let op (o : BoltOp) : Nat := if o = .throw then 1 else 2
        let urgency (c : Urgency) : Nat := if c = .urgent then 1 else 2
        let ref (x : Ref) : List Byte := byte1 x.seg ++ byte1 x.slot
        let first : List Byte := byte1 k.code ++ byte1 (s.zone u).1 ++ byte1 (r.state.code k) ++
          opt (r.holder.map fun b => byte4 b.toNat) ++ byte4 r.boundAt ++ flag r.restored
        let record : List Byte :=
          byte1 (match r.purpose with | none => 0 | some (.release _) => 1 | some .keep => 2 | some .service => 3) ++
          byte1 (match r.purpose with
            | some (.release why) => 1 + ([.holder, .doorOpen, .idle, .action, .master, .vacated, .expiry, .grace,
                .fault] : List Reason).idxOf why
            | _ => 0) ++
          opt (r.journalRef.map ref) ++ opt (r.stateRef.map ref) ++ flag r.latchSeen ++ flag r.overstay ++
          flag r.suspended ++
          (match r.deferred with | some d => byte1 (op d.1) ++ byte1 (urgency d.2) | none => [0, 0]) ++
          byte1 r.lamp.steady.code ++ opt (r.lamp.transient.map fun x => byte1 x.1.code ++ byte4 x.2.toNat) ++
          flag r.lamp.beep
        let cell : List Byte := flag c.door ++ flag c.bolt ++ flag c.pulse ++ flag c.latch ++ flag c.tamper
        let times : List Byte :=
          (if k = .cabin then opt (r.allowance.map byte1) ++ opt (r.expiry.map byte4) ++ opt (r.warningAt.map byte4) ++
            opt (r.graceEnd.map byte4) else []) ++
          opt ((s.timers.find? fun e => e.unit = u).map fun e => byte1 (match e.kind with
            | .warning => 1 | .expiry => 2 | .graceEnd => 3 | .ajarIdle => 4) ++ byte4 e.due)
        let m := s.tapMemory.get u
        let chain : List Byte :=
          opt ((s.identities.get u).map fun i => byte1 i.kind.toNat ++ byte1 i.revision.toNat ++ byte2 i.serial.toNat) ++
          opt (m.keptBand.map fun b => byte4 b.toNat) ++ opt (m.keptTime.map fun t => byte4 t.toNat) ++
          opt (m.seq.map fun q => byte1 q.toNat) ++ flag ((s.bank (bankOf u)).granted.contains u)
        let moves (a : Actuation) (condition : Nat) : List Byte :=
          byte1 (op a.op) ++ byte1 (urgency a.urgency) ++ byte1 a.attempt ++ byte1 condition
        let at' : List Actuation → Option Actuation := fun l => l.find? fun a => a.unit = u
        let answers (actuation : List Byte) : Prop := exec (.readUnit f) s = .next { s with
          line := s.line.replying 0x02 f 0x82 (first ++ record ++ cell ++ times ++ actuation ++ chain) }
        (∀ before a behind, s.drive.waiting = before ++ a :: behind → a.unit = u → (∀ x ∈ before, x.unit ≠ u) →
          answers (moves a 1 ++ (1#8 :: byte1 before.length) ++ [0, 0, 0])) ∧
        (∀ a, at' s.drive.waiting = none → at' s.drive.granted = some a →
          answers (moves a 2 ++ [0#8] ++ flag a.delivered ++ opt (a.current.map byte2) ++
            (match a.delivered, a.pulseEnd with
              | true, some e => 1#8 :: byte4 (if (s.clock.ms - e).toNat < 2147483648 then 0
                  else (e - s.clock.ms).toNat)
              | _, _ => [0#8]))) ∧
        (∀ a, at' s.drive.waiting = none → at' s.drive.granted = none → at' s.drive.awaiting = some a →
          answers (moves a 3 ++ [0, 0, 0, 0])) ∧
        (s.actuating u = false → answers [0, 0, 0, 0, 0, 0, 0, 0])) ∧
      (512 ≤ field f.payload 0 2 →
        exec (.readUnit f) s = .next { s with line := s.line.naks 0x02 f .badArgument })) ∧
  (
    (∀ (f : Frame) (s : State) (b : Band), Arrives s 0x03 f → f.payload = byte4 b.toNat →
      ((∀ e ∈ s.bands, e.band ≠ b) →
        exec (.readBand f) s = .next { s with line := s.line.replying 0x03 f 0x83 (byte4 b.toNat ++ [0]) }) ∧
      (∀ e, s.bands.find? (fun e => e.band = b) = some e →
        let p := byte4 b.toNat ++ [1, BitVec.ofNat 8 e.cls.1] ++ byte4 e.firstBound ++
          [BitVec.ofNat 8 e.held.length] ++ e.held.flatMap fun u => byte2 u.1
        exec (.readBand f) s = .next { s with line := s.line.replying 0x03 f 0x83 p })) ∧
    ∀ (f : Frame) (s : State) (x : Byte), Arrives s 0x04 f → f.payload = [x] →
      (∀ z : ZoneIx, x.toNat = z.1 →
        let occupied := (allUnits.filter fun u => s.kind u = .cabin ∧ s.zone u = z ∧
          ((s.unit u).state = .admitting ∨ (s.unit u).state = .inUse ∨ (s.unit u).state = .expired)).length
        let p := [x] ++ byte2 (s.tables.zones.get z).cabins ++ byte2 occupied ++ byte2 (s.tables.zones.get z).threshold
        exec (.readZone f) s = .next { s with line := s.line.replying 0x04 f 0x84 p }) ∧
      (15 < x.toNat → exec (.readZone f) s = .next { s with line := s.line.naks 0x04 f .badArgument }))

/-- READ_TABLE (R18, R183, R184): each item of the set in force is answered with its values, a list place beyond the
entries held with EMPTY, the load summary before the first load has ended with eight bytes 0, an item or index outside
its range
with NAK BAD_ARGUMENT. The part is only read.
The widths and the presence byte of a list place are read from R184 by inference (log 29); the packing of the lists cut,
the 2 bytes of N and T and the summary before the first load are the model's choice (log 56). -/
def Obligations.ReadTableReplies : Prop :=
  ∀ (f : Frame) (s : State) (item i : Nat), Arrives s 0x05 f → item < 256 → i < 65536 →
    f.payload = byte1 item ++ byte2 i →
    let answers (p : List Byte) : Prop :=
      exec (.readTable f) s = .next { s with line := s.line.replying 0x05 f 0x85 p }
    let place (l : List Band) : List Byte := match l[i]? with | some b => 1#8 :: byte4 b.toNat | none => [0#8]
    let flag (b : Bool) : List Byte := [if b then 1#8 else 0#8]
    let o := s.tables.options
    (item = 1 → answers (byte2 o.railLimit ++ byte4 o.repeatWindow ++ byte1 o.qualityMin ++
      byte1 (if o.evacMode = .edge then 1 else 2) ++ byte2 o.protectedSet.toNat)) ∧
    (∀ c : ClassIx, item = 2 → i = c.1 → let k := s.tables.classes.get c
      answers (byte1 k.lockerQuota ++ byte1 k.cabinQuota ++ byte2 k.zones.toNat ++ flag k.keep ++ byte1 k.base ++
        byte1 k.floor ++ byte4 k.ajarIdle ++ flag k.supplied)) ∧
    (∀ z : ZoneIx, item = 3 → i = z.1 → let k := s.tables.zones.get z
      answers (byte2 k.cabins ++ byte2 k.threshold ++ byte4 k.warningLead ++ byte4 k.grace ++ flag k.supplied)) ∧
    (∀ b : BankIx, item = 4 → i = b.1 → let k := s.tables.banks.get b
      answers (byte1 k.nodeCount ++ byte1 k.pulseLength ++ byte2 k.coilCurrent ++ byte4 k.sweep ++
        flag k.supplied)) ∧
    (∀ u : UnitIx, item = 5 → i = u.1 → answers (byte1 (s.kind u).code ++ byte1 (s.zone u).1)) ∧
    (item = 6 → i < 64 → answers (match s.tables.permits[i]? with
      | some p => 1#8 :: (byte4 p.low.toNat ++ byte4 p.high.toNat ++ byte1 p.cls.1)
      | none => [0#8])) ∧
    (item = 7 → i < 1024 → answers (place s.tables.blocks)) ∧
    (item = 8 → i < 32 → answers (place s.tables.masters)) ∧
    (item = 9 → i < 32 → answers (place s.engine.overlay)) ∧
    (∀ m, item = 10 → s.summary = some m →
      answers (byte1 m.cause.code ++ byte1 m.result.code ++ byte1 m.permits ++ byte2 m.blocks ++ byte1 m.masters ++
        byte1 (m.cuts.permits.toNat + 2 * m.cuts.blocks.toNat + 4 * m.cuts.masters.toNat) ++
        (match m.conflict with | some u => 1#8 :: byte2 u.1 | none => [0#8]))) ∧
    (item = 10 → s.summary = none → answers [0, 0, 0, 0, 0, 0, 0, 0]) ∧
    (item = 0 ∨ 10 < item ∨ ((item = 2 ∨ item = 3) ∧ 16 ≤ i) ∨ (item = 4 ∧ 8 ≤ i) ∨ (item = 5 ∧ 512 ≤ i) ∨
        (item = 6 ∧ 64 ≤ i) ∨ (item = 7 ∧ 1024 ≤ i) ∨ ((item = 8 ∨ item = 9) ∧ 32 ≤ i) →
      exec (.readTable f) s = .next { s with line := s.line.naks 0x05 f .badArgument })

/-- The arguments of every action stand in a frame and are read back from it (R149, R183): a payload of the action's
code and its arguments, high byte first, spells that action again where its unit passes its check and its minutes lie
in 1 to 30, and its length is the one its kind requires.
A journal record's content is read back as that record (R114, R185), whatever stands in the bytes beyond its
fields, for every unit, band, class, mark and bound_at of 32 bits; and its content has 32 bytes.
What stands beyond the fields is free (log 10). -/
def Obligations.FormatsReadBack : Prop :=
  (
    ∀ (s : State) (a : Action), a.passes s = true →
      (∀ u m, a = .extendCabin u m → 1 ≤ m ∧ m ≤ 30) →
      let arguments : List Byte := match a with
        | .releaseUnit u | .openUnit u | .setOutOfService u | .returnToService u | .clearFault u => byte2 u.1
        | .extendCabin u m => byte2 u.1 ++ byte1 m
        | .releaseBand b | .blockBand b => byte4 b.toNat
        | .bankCleaning b on => byte1 b.1 ++ [if on then 1 else 0]
        | .resetBank b => byte1 b.1
        | .reloadTables | .clearEvacuation => []
      action? s (byte1 a.code ++ arguments) = some a ∧
        (byte1 a.code ++ arguments).length = actionLength a.code) ∧
  (
    ∀ r : JRec, (∀ u b c n, r = .bind u b c n → n < 4294967296) →
      r.bytes.length = 32 ∧ jrec? r.bytes = some r)

/-- ACTION (R148, R149): the first case that applies decides. Each kind requires its own payload length. An argument
fails its check where a unit is not 0 to 511 or not a LOCKER or CABIN, for EXTEND_CABIN not a CABIN or its minutes not 1
to 30, where a bank is above 7, and where a switch code is neither ON nor OFF; the band of RELEASE_BAND and BLOCK_BAND is
any. An accepted frame writes the action into the pending slot and is answered ACK; a refused one leaves both slots as
they were. Nothing else changes, but that what waits at the engine already is noted to have arrived before the new
action, which has yet to arrive itself (R24, log 15), and that no tap has been decided ahead of the new action (R150,
log 37). -/
def Obligations.ActionFrame : Prop :=
  ∀ (f : Frame) (s : State), Arrives s 0x06 f →
    let p := f.payload
    let kind := field p 0 1
    let n := field p 1 2
    let lengths : List Nat := [3, 5, 3, 3, 3, 3, 4, 3, 5, 1, 2, 1]
    let refused (why : Nak) : Prop := exec (.action f) s = .next { s with line := s.line.naks 0x06 f why }
    (s.restart ≠ none → refused .busy) ∧
    (s.restart = none → p = [] → refused .badLength) ∧
    (s.restart = none → p ≠ [] → kind = 0 ∨ 12 < kind → refused .badArgument) ∧
    (s.restart = none → p ≠ [] → 1 ≤ kind → kind ≤ 12 → lengths[kind - 1]? ≠ some p.length → refused .badLength) ∧
    (s.restart = none → 1 ≤ kind → lengths[kind - 1]? = some p.length →
      (action? s p = none → refused .badArgument) ∧
      (action? s p = none ↔
        (kind ∈ [1, 3, 4, 5, 6] ∧ ∀ u : UnitIx, n = u.1 → s.kind u ≠ .locker ∧ s.kind u ≠ .cabin) ∨
        (kind = 7 ∧ ((∀ u : UnitIx, n = u.1 → s.kind u ≠ .cabin) ∨ field p 3 1 = 0 ∨ 30 < field p 3 1)) ∨
        (kind = 8 ∧ (7 < field p 1 1 ∨ 1 < field p 2 1)) ∨ (kind = 11 ∧ 7 < field p 1 1))) ∧
    (∀ a, s.restart = none → 1 ≤ kind → lengths[kind - 1]? = some p.length → action? s p = some a →
      (s.engine.pendingSlot ≠ none → refused .busy) ∧
      (s.engine.pendingSlot = none →
        ∃ l, (Taking s → ArrivalOrder s l) ∧ (¬Taking s → l = s.engine.arrived) ∧
          exec (.action f) s = .next { s with
            engine := { s.engine with
              pendingSlot := some a, tapAhead := false
              held := s.engine.held.filter (· ≠ .accept), arrived := l }
            line := s.line.acks 0x06 f }))

/-- CANCEL (R151): a pending action is removed, with no ACTION_DONE, and answered CANCELLED; with none pending and one
running TOO_LATE; with neither NOTHING_PENDING. The answer names the kind of the action concerned. -/
def Obligations.CancelFrame : Prop :=
  ∀ (f : Frame) (s : State), Arrives s 0x07 f → f.payload = [] →
    (∀ a, s.engine.pendingSlot = some a →
      exec (.cancel f) s = .next { s with
        engine := { s.engine with pendingSlot := none }
        line := s.line.replying 0x07 f 0x87 [1, BitVec.ofNat 8 a.code] }) ∧
    (∀ r, s.engine.pendingSlot = none → s.engine.runningSlot = some r →
      exec (.cancel f) s =
        .next { s with line := s.line.replying 0x07 f 0x87 [2, BitVec.ofNat 8 r.action.code] }) ∧
    (s.engine.pendingSlot = none → s.engine.runningSlot = none →
      exec (.cancel f) s = .next { s with line := s.line.replying 0x07 f 0x87 [3, 0] })

/-- LAMP and RESTART (R168). LAMP on a LOCKER or CABIN unit, one of the seven lamps and 1 to 60 s sets that unit's
transient lamp, ending that many seconds on, and is answered ACK; on anything else NAK BAD_ARGUMENT, and nothing
changes. RESTART begins the warm restart with its quiesce step and abandons a load under way (R14, R181), or is
answered NAK BUSY while one is in progress.
That the transient is held as an end time of the millisecond count follows R50 (log 27). -/
def Obligations.LampAndRestartFrames : Prop :=
  (∀ (f : Frame) (s : State) (n k sec : Nat), Arrives s 0x08 f → n < 65536 → k < 256 → sec < 256 →
    f.payload = byte2 n ++ byte1 k ++ byte1 sec →
    (∀ (u : UnitIx) (l : Lamp), n = u.1 → s.kind u = .locker ∨ s.kind u = .cabin →
      [Lamp.off, .green, .red, .amber, .greenFlash, .redFlash, .amberFlash][k]? = some l → 1 ≤ sec → sec ≤ 60 →
      exec (.lamp f) s = .next { (s.setUnit u { s.unit u with lamp :=
          { (s.unit u).lamp with transient := some (l, s.clock.ms + BitVec.ofNat 32 (1000 * sec)) } }) with
        line := s.line.acks 0x08 f }) ∧
    ((∀ u : UnitIx, n = u.1 → s.kind u ≠ .locker ∧ s.kind u ≠ .cabin) ∨ 7 ≤ k ∨ sec = 0 ∨ 60 < sec →
      exec (.lamp f) s = .next { s with line := s.line.naks 0x08 f .badArgument })) ∧
  ∀ (f : Frame) (s : State), Arrives s 0x09 f → f.payload = [] →
    (s.restart = none →
      exec (.restart f) s = .next { s with
        restart := some .quiesce, load := none, line := s.line.acks 0x09 f }) ∧
    (s.restart ≠ none → exec (.restart f) s = .next { s with line := s.line.naks 0x09 f .busy })

/-! ### The table store and the journal -/

/-- The state table of the store write frames that passed their checks, outside a warm restart (R137, R138, R139,
R141). The unlock steps, each with its code derived from the station and with the step timer started; a program, its
protection judged now, which the arbiter then serves in its order: where no journal program is presented and no erase is
in progress or requested, the body program begins at once in a BLANK slot, and one in a slot that is not BLANK is
refused,
which ends the command FAILED with OVERWRITE and STORE_DONE, unless the segment is protected; an erase, that opens the
window or adds to its list in
ascending order; anything else out of sequence, which empties the list and returns to READY; BUSY while an operation
runs and FAILED until STORE-CLEAR.
During a warm restart STORE-UNLOCK-1, STORE-UNLOCK-2, STORE-PROGRAM and STORE-ERASE frames that passed their checks are
answered NAK BUSY with the command state, its timer and its list unchanged, and STORE-CLEAR in FAILED clears it (R147).
-/
def Obligations.StoreCommandTable : Prop :=
  (
    ∀ (c : Instr) (kind : Byte) (f : Frame) (w : StoreWrite) (s : State), storeWriteOf c = some (kind, f, w) →
      Arrives s kind f → s.restart = none →
      let station := s.line.station.toNat
      let deadline (ms : Nat) : Millis := s.clock.ms + BitVec.ofNat 32 ms
      let acks (m : Mgmt) : Prop := exec c s = .next { s with mgmt := m, line := s.line.acks kind f }
      let naks (m : Mgmt) (why : Nak) : Prop := exec c s = .next { s with mgmt := m, line := s.line.naks kind f why }
      let broken : Mgmt := { s.mgmt with state := .ready, eraseList := [] }
      let listed (g : Nat) : Mgmt := { s.mgmt with
        state := .eraseWindow, deadline := deadline 100
        eraseList := (List.range 16).filter fun i => i = g || s.mgmt.eraseList.contains i }
      (∀ g ∈ s.mgmt.eraseList, g ≤ 15) → s.mgmt.eraseList.Pairwise (· < ·) →
      match s.mgmt.state with
      | .ready =>
        (w = .unlock1 station → acks { s.mgmt with state := .step1, deadline := deadline 2000 }) ∧
        (w ≠ .unlock1 station → naks s.mgmt .sequence)
      | .step1 =>
        (w = .unlock2 (255 - station) → acks { s.mgmt with state := .unlocked, deadline := deadline 2000 }) ∧
        (w ≠ .unlock2 (255 - station) → naks broken .sequence)
      | .unlocked =>
        (∀ g i content, w = .program g i content → ∃ t, exec c s = .next t ∧
          PortServes { s with
            mgmt := { s.mgmt with
              state := .programming, deadline := deadline 2
              target := some ⟨⟨g, i⟩, content, s.tables.options.protectedSet.getLsbD g && !s.inputs.serviceKey, false⟩ }
            line := s.line.acks kind f } t ∧
          (s.port = ⟨none, none, none, false⟩ → s.journal.write = none → s.journal.opening = none →
            s.journal.queue = [] → s.journal.reclaim = .idle → 3 < s.journal.blanks →
            let shielded : Bool := s.tables.options.protectedSet.getLsbD g && !s.inputs.serviceKey
            (shielded = true → t.mgmt.state = .programming ∧ t.mgmt.deadline = deadline 2 ∧ t.port = s.port ∧
              t.store = s.store) ∧
            (shielded = false → s.slotState ⟨g, i⟩ = .blank →
              t.mgmt = { s.mgmt with
                state := .programming, deadline := deadline 2, target := some ⟨⟨g, i⟩, content, false, false⟩ } ∧
              t.port = ⟨some ⟨.management, .body, ⟨g, i⟩, content⟩, none, none, false⟩ ∧
              t.slotState ⟨g, i⟩ = .writing) ∧
            (shielded = false → s.slotState ⟨g, i⟩ ≠ .blank →
              t.mgmt.state = .failed ∧ t.mgmt.lastResult = some .overwrite ∧ t.port = s.port ∧ t.store = s.store ∧
              t.notices = s.notices.post (s.notice .storeDone (16 + 2) none none (g * 65536 + i))))) ∧
        (∀ g, w = .erase g → acks (listed g)) ∧
        ((∀ g i content, w ≠ .program g i content) → (∀ g, w ≠ .erase g) → naks broken .sequence)
      | .eraseWindow =>
        (∀ g, w = .erase g → acks (listed g)) ∧
        ((∀ g, w ≠ .erase g) → naks broken .sequence)
      | .programming => naks s.mgmt .busy
      | .erasing => naks s.mgmt .busy
      | .failed =>
        (w = .clear → acks { s.mgmt with state := .ready }) ∧
        (w ≠ .clear → naks s.mgmt .failed)) ∧
  (
    ∀ (c : Instr) (kind : Byte) (f : Frame) (w : StoreWrite) (s : State), storeWriteOf c = some (kind, f, w) →
      Arrives s kind f → s.restart ≠ none →
      (w ≠ .clear → exec c s = .next { s with line := s.line.naks kind f .busy }) ∧
      (w = .clear → s.mgmt.state = .failed →
        exec c s = .next { s with mgmt := { s.mgmt with state := .ready }, line := s.line.acks kind f }))

/-- STORE_STATUS (R142, R143, R184): the reply carries the command state, the segments remaining, the segment under a
management erase, whether the erase is suspended, the toggle, the last result, SERVICE KEY and the protected segments;
the toggle is inverted after it in PROGRAMMING and ERASING, and in every other state left as it is. It is 0 after a cold
start, and no
other command, of a warm restart or of anything else, changes it.
STORE_READ (R132, R144): a segment under erase is answered ERASING with no content; otherwise the slot's state,
with its 32 bytes where it is VALID or RETIRED, or WRITING with its body program over; a segment above 31 or a slot
above 127 NAK BAD_ARGUMENT. The part is only read.
The presence byte before the segment under erase, none before the last result, and the byte widths are read from R184 by
inference (log 29); the content of a slot whose body program was cut off is the model's choice (log 61). -/
def Obligations.StoreStatusAndReadReplies : Prop :=
  (
    ∀ (f : Frame) (s : State), Arrives s 0x15 f → f.payload = [] →
      let running : Bool := s.mgmt.state = .programming ∨ s.mgmt.state = .erasing
      let flag (b : Bool) : Byte := if b then 1 else 0
      let remaining := if s.mgmt.state = .eraseWindow ∨ s.mgmt.state = .erasing then s.mgmt.eraseList.length else 0
      let under : List Byte := match s.port.erase with
        | some e => if e.journal || e.phase = .retiring false then [0#8] else [1#8, BitVec.ofNat 8 e.seg]
        | none => [0#8]
      let p : List Byte := [BitVec.ofNat 8 s.mgmt.state.code, BitVec.ofNat 8 remaining] ++ under ++
        [flag ((s.port.erase.map fun e => e.phase) = some .suspended), flag s.mgmt.toggle,
          BitVec.ofNat 8 ((s.mgmt.lastResult.map StoreResult.code).getD 0), flag s.inputs.serviceKey] ++
        byte2 s.tables.options.protectedSet.toNat
      exec (.storeStatus f) s = .next { s with
        mgmt := { s.mgmt with toggle := s.mgmt.toggle != running }
        line := s.line.replying 0x15 f 0x95 p }) ∧
  (
    ∀ (c : Instr) (s t : State), exec c s = .next t →
      (c = .coldStart ∨ c = .supplyLoss → s.supply = true → t.mgmt.toggle = false) ∧
      (c ≠ .coldStart → c ≠ .supplyLoss → (∀ f, c ≠ .storeStatus f) → t.mgmt.toggle = s.mgmt.toggle)) ∧
  (
    ∀ (f : Frame) (s : State) (g i : Byte), Arrives s 0x16 f → f.payload = [g, i] →
      let x := s.store.read (g.toNat * 128 + i.toNat)
      let underErase : Prop := ∃ e, s.port.erase = some e ∧ e.seg = g.toNat ∧ e.phase ≠ .retiring false
      let bodyGoes : Prop := ∃ p, s.port.program = some p ∧ p.kind = .body ∧ p.ref = ⟨g.toNat, i.toNat⟩
      let answers (p : List Byte) : Prop :=
        exec (.storeRead f) s = .next { s with line := s.line.replying 0x16 f 0x96 ([g, i] ++ p) }
      (31 < g.toNat ∨ 127 < i.toNat →
        exec (.storeRead f) s = .next { s with line := s.line.naks 0x16 f .badArgument }) ∧
      (g.toNat ≤ 31 → i.toNat ≤ 127 → underErase → answers [5]) ∧
      (g.toNat ≤ 31 → i.toNat ≤ 127 → ¬underErase →
        (x.state = .blank → answers [1]) ∧ (x.state = .writing → bodyGoes → answers [2]) ∧
        (x.state = .writing → ¬bodyGoes → answers (2 :: x.content)) ∧ (x.state = .valid → answers (3 :: x.content)) ∧
        (x.state = .retired → answers (4 :: x.content))))

/-- The timers of the store commands (R137, R138, R140, R147), each from the moment its time has come and not before.
The step timer in STEP1 or UNLOCKED: READY. The window, outside a warm restart: ERASING, with the protected segments
skipped and the others the erase set, whose erase is requested from the arbiter, which begins that of the first listed
segment where nothing else is requested or in progress; a list that is all protected stands as it is. A protected
program: READY, PROTECTED and STORE_DONE
with its segment and slot. An erase list that was all protected: READY, PROTECTED and STORE_DONE with the segments
skipped. In every other case the command does nothing; the timers do not run in FAILED (R141).
That a timer command before its time does nothing is the model's choice (logs 2, 3). -/
def Obligations.StoreTimers : Prop :=
  ∀ s : State,
    let come : Prop := (s.clock.ms - s.mgmt.deadline).toNat < 2147483648
    let shielded (g : Nat) : Bool := s.tables.options.protectedSet.getLsbD g && !s.inputs.serviceKey
    let ended : Mgmt := { s.mgmt with
      state := .ready, lastResult := some .protect, target := none, eraseList := [], skipped := [], eraseSet := [] }
    (s.mgmt.state = .step1 ∨ s.mgmt.state = .unlocked → come →
      exec .stepTimerExpiry s = .next { s with mgmt := { s.mgmt with state := .ready } }) ∧
    (¬((s.mgmt.state = .step1 ∨ s.mgmt.state = .unlocked) ∧ come) → exec .stepTimerExpiry s = .next s) ∧
    (s.mgmt.state = .eraseWindow → s.restart = none → come → ∃ t, exec .eraseWindowExpiry s = .next t ∧
      PortServes { s with
        mgmt := { s.mgmt with
          state := .erasing, deadline := s.clock.ms + 100
          eraseList := if s.mgmt.eraseList.all shielded then s.mgmt.eraseList
            else s.mgmt.eraseList.filter fun g => !shielded g
          eraseSet := s.mgmt.eraseList.filter fun g => !shielded g
          skipped := s.mgmt.eraseList.filter shielded }
        port := { s.port with listErase := s.port.listErase || s.mgmt.eraseList.any fun g => !shielded g } } t ∧
      t.mgmt.state = .erasing ∧ t.mgmt.deadline = s.clock.ms + 100 ∧
      t.mgmt.skipped = s.mgmt.eraseList.filter shielded ∧
      (s.port = ⟨none, none, none, false⟩ → s.journal.write = none → s.journal.opening = none →
        s.journal.queue = [] → s.journal.reclaim = .idle → 3 < s.journal.blanks →
        (∀ g more, s.mgmt.eraseList.filter (fun g => !shielded g) = g :: more →
          (s.slotState ⟨g, 0⟩ = .retired → t.port = ⟨none, some ⟨false, g, .active⟩, none, false⟩) ∧
          (∀ k c, RetiringNext (s.slotState ⟨g, 0⟩) k c →
            t.port = ⟨some ⟨.retiring, k, ⟨g, 0⟩, c⟩, some ⟨false, g, .retiring true⟩, none, false⟩)) ∧
        (s.mgmt.eraseList.all shielded = true → t.port = s.port))) ∧
    (¬(s.mgmt.state = .eraseWindow ∧ s.restart = none ∧ come) → exec .eraseWindowExpiry s = .next s) ∧
    (∀ x, s.mgmt.state = .programming → s.mgmt.target = some x → x.guarded = true → come →
      exec .protectedProgramDone s = .next { s with
        mgmt := ended
        notices := s.notices.post (s.notice .storeDone (16 + 3) none none (x.ref.seg * 65536 + x.ref.slot)) }) ∧
    ((∀ x, s.mgmt.state = .programming → s.mgmt.target = some x → x.guarded = true → ¬come) →
      exec .protectedProgramDone s = .next s) ∧
    (s.mgmt.state = .erasing → s.mgmt.eraseSet = [] → come →
      exec .protectedEraseDone s = .next { s with
        mgmt := ended
        notices := s.notices.post
          (s.notice .storeDone (32 + 3) none none ((s.mgmt.skipped.map fun g => 2 ^ g).sum)) }) ∧
    (¬(s.mgmt.state = .erasing ∧ s.mgmt.eraseSet = [] ∧ come) → exec .protectedEraseDone s = .next s) ∧
    (s.mgmt.state = .failed → exec .stepTimerExpiry s = .next s ∧ exec .eraseWindowExpiry s = .next s ∧
      exec .protectedProgramDone s = .next s ∧ exec .protectedEraseDone s = .next s)

/-- BODY_PROGRAM_END (R115, R121, R131, R138): the program's content stands in its slot, which is WRITING, and the
port is free. A management program, a header or a queued record is then ready for its valid mark; so is a copy unless
its cancel mark is set or the unit's ref no longer names the original, in which case the valid mark is withheld: the
next slot advances past the slot, as after a written one (R117 to R119), and so does the scan. The Journal Engine and the
port then go on as PortServes says, the valid mark of a journal slot first where no erase proper is active.
That a withheld copy counts as the write made last is the model's choice (log 51). -/
def Obligations.BodyProgramEnds : Prop :=
  ∀ (s : State) (p : Program), s.port.program = some p → p.kind = .body →
    let t0 : State := { s with
      port := { s.port with program := none }, store := s.store.write p.ref.addr ⟨.writing, p.content⟩ }
    (p.owner = .retiring ∨ (p.owner = .management ∧ s.mgmt.target = none) ∨
        (p.owner = .journal ∧ s.journal.write = none) →
      ∃ t, exec .bodyProgramEnd s = .next t ∧ PortServes t0 t) ∧
    (∀ x, p.owner = .management → s.mgmt.target = some x → ∃ t, exec .bodyProgramEnd s = .next t ∧
      PortServes { t0 with mgmt := { s.mgmt with target := some { x with bodyDone := true } } } t) ∧
    ∀ w, p.owner = .journal → s.journal.write = some w →
      ((∀ u b o c, w.what = .copy u b o c →
          c = false ∧ (if b then (s.unit u).journalRef = some o else (s.unit u).stateRef = some o)) →
        ∃ t, exec .bodyProgramEnd s = .next t ∧
          PortServes { t0 with journal := { s.journal with write := some { w with bodyDone := true } } } t ∧
          (w.ref = p.ref → ErasePaused s →
            t.port = { s.port with program := some ⟨.journal, .valid, p.ref, []⟩, journalErase := t.port.journalErase } ∧
            t.journal.write = some { w with bodyDone := true })) ∧
      (∀ u b o c, w.what = .copy u b o c → c = true ∨ (if b then (s.unit u).journalRef ≠ some o else (s.unit u).stateRef ≠ some o) →
        ∃ m t, exec .bodyProgramEnd s = .next t ∧
          SlotAdvances { t0 with journal := { s.journal with write := none, turn := some .copy } } m ∧
          (∀ scan, s.journal.reclaim = .copying scan →
            PortServes { m with journal := { m.journal with reclaim := .copying (scan + 1) } } t) ∧
          ((∀ scan, s.journal.reclaim ≠ .copying scan) → PortServes m t))

/-- VALID_MARK_PROGRAM_END of a management program (R131, R138): the slot is VALID with its content kept, the command
READY with last result OK, STORE_DONE is posted with the segment and slot, and a load under way passes the slot over. Of
a retiring program (R132): the slot is VALID.
RETIRED_MARK_PROGRAM_END and ERASE_SUSPENDED (R131, R132, R134): the slot is RETIRED with its content kept and the
port is free for what follows; an erase being suspended is suspended.
What follows is in each case the arbiter's choice (R117, R132 to R135), stated here at RETIRED_MARK_PROGRAM_END for every
state, once the Journal Engine is ready: a journal program that is presented and fits its slot is carried, the valid mark
of a body that has ended or the body of the write that is due, except that an erase proper that is active is first asked
to suspend; with none presented, the next retiring program of the erase in progress is carried, its erase proper begins
once slot 0 is RETIRED, and a suspended erase resumes; with no erase in progress, a management program that fits its
slot is carried, then a requested journal erase begins, then a requested management erase list with its first segment.
Whether a record or a copy is due at the edge of the room of R122 rests on the model's choice (log 60). -/
def Obligations.ManagementAndRetiringEnd : Prop :=
  (
    ∀ (s : State) (p : Program), s.port.program = some p → p.kind = .valid →
      let t0 : State := { s with
        port := { s.port with program := none }
        store := s.store.write p.ref.addr { s.store.read p.ref.addr with state := .valid } }
      (p.owner = .management → ∃ t, exec .validMarkProgramEnd s = .next t ∧
        PortServes { t0 with
          loadLate := if s.load = none then s.loadLate else s.loadLate ++ [p.ref.addr]
          mgmt := { s.mgmt with
            state := .ready, lastResult := some .ok, target := none, eraseList := [], skipped := [], eraseSet := [] }
          notices := s.notices.post
            (s.notice .storeDone (16 + 1) none none (p.ref.seg * 65536 + p.ref.slot)) } t) ∧
      (p.owner = .retiring → ∃ t, exec .validMarkProgramEnd s = .next t ∧ PortServes t0 t)) ∧
  (
    ∀ (s : State) (e : Erase), s.port.erase = some e → e.phase = .suspending →
      let t0 : State := { s with port := { s.port with erase := some { e with phase := .suspended } } }
      ∃ t, exec .eraseSuspended s = .next t ∧ PortServes t0 t ∧
        (s.port.program = none → ¬JournalPresents s → s.journal.queue = [] →
          (∀ scan, s.journal.reclaim ≠ .copying scan) → s.journal.reclaim ≠ .idle ∨ 3 < s.journal.blanks → t = { s with
            port := { s.port with erase := some { e with phase := .active } } })) ∧
  (
    ∀ (s : State) (p : Program), s.port.program = some p → p.kind = .retired →
      ∃ r t, exec .retiredMarkProgramEnd s = .next t ∧
        (let t0 : State := { s with
           port := { s.port with program := none }
           store := s.store.write p.ref.addr { s.store.read p.ref.addr with state := .retired } }
         PortServes t0 t ∧ JournalReady t0 r) ∧
        (∀ e, r.port.erase = some e → e.phase = .active → JournalPresents r →
          t = { r with port := { r.port with erase := some { e with phase := .suspending } } }) ∧
        (∀ w, r.journal.write = some w → w.bodyDone = true → ErasePaused r → r.slotState w.ref = .writing →
          Begins r t ⟨.journal, .valid, w.ref, []⟩) ∧
        (∀ w c, WriteDue r w c → ErasePaused r → r.slotState w.ref = .blank →
          Begins { r with journal := { r.journal with write := some w } } t ⟨.journal, .body, w.ref, c⟩) ∧
        (¬JournalPresents r →
          (∀ e b, r.port.erase = some e → e.phase = .retiring b →
            (∀ k c, RetiringNext (r.slotState ⟨e.seg, 0⟩) k c →
              Begins { r with port := { r.port with erase := some { e with phase := .retiring true } } } t
                ⟨.retiring, k, ⟨e.seg, 0⟩, c⟩) ∧
            (r.slotState ⟨e.seg, 0⟩ = .retired →
              t = { r with port := { r.port with erase := some { e with phase := .active } } })) ∧
          (∀ e, r.port.erase = some e → e.phase = .suspended →
            t = { r with port := { r.port with erase := some { e with phase := .active } } }) ∧
          (∀ x, r.port.erase = none → ProgramRequested r x →
            (x.bodyDone = false → r.slotState x.ref = .blank → Begins r t ⟨.management, .body, x.ref, x.content⟩) ∧
            (x.bodyDone = true → r.slotState x.ref = .writing → Begins r t ⟨.management, .valid, x.ref, []⟩)) ∧
          (r.port.erase = none → (∀ x, ¬ProgramRequested r x) →
            let begins (journal : Bool) (g : Nat) (rest : Port) : Prop :=
              (∀ k c, RetiringNext (r.slotState ⟨g, 0⟩) k c →
                Begins { r with port := { rest with erase := some ⟨journal, g, .retiring true⟩ } } t
                  ⟨.retiring, k, ⟨g, 0⟩, c⟩) ∧
              (r.slotState ⟨g, 0⟩ = .retired → t = { r with port := { rest with erase := some ⟨journal, g, .active⟩ } })
            (∀ g, r.port.journalErase = some g → begins true g { r.port with journalErase := none }) ∧
            (∀ g more, r.port.journalErase = none → r.port.listErase = true → r.mgmt.eraseList = g :: more →
              begins false g { r.port with listErase := false }) ∧
            (r.port.journalErase = none → r.port.listErase = false → t = r))))

/-- VALID_MARK_PROGRAM_END of a queued record (R117, R118, R119): the record leaves the queue, the next slot advances,
and the ref it sets is set unless it is void: a BIND its unit's journal_ref, a STATE of OUT_OF_SERVICE or FAULT its
unit's state_ref, any other record none. If the head is now full the segment after it is claimed, with one BLANK
segment less, where it is BLANK; otherwise the ring is stalled, which is reported once. Where the queue lacked the room
of
R24, every event held back for it has its place in the order of arrival before the room returns (log 15). No slot write
is under way then, and the Journal Engine and the port go on as PortServes says: with no reclaim to start or under way
and
no erase active, the header of the segment claimed, or the next record of the queue into the next slot. -/
def Obligations.QueuedRecordWritten : Prop :=
  ∀ (s : State) (p : Program) (w : JWrite) (q : QRec) (rest : List QRec),
    s.port.program = some p → p.kind = .valid → p.owner = .journal → s.journal.write = some w → w.what = .queued →
    w.ref = p.ref → s.journal.queue = q :: rest →
    let units : Vector UnitRec 512 :=
      if q.void then s.units else match q.body with
        | .bind u _ _ _ => put s.units u { s.unit u with journalRef := some p.ref }
        | .state _ .returned => s.units
        | .state u _ => put s.units u { s.unit u with stateRef := some p.ref }
        | .release _ => s.units
    ∃ m t held, exec .validMarkProgramEnd s = .next t ∧ PortServes m t ∧ t.engine.held = held ∧
      (JournalRoom s ∨ ¬Taking s → held = s.engine.held) ∧ (¬JournalRoom s → Taking s → AllNoted s held) ∧
      SlotAdvances { s with
        store := s.store.write p.ref.addr { s.store.read p.ref.addr with state := .valid }
        port := { s.port with program := none }
        units := units
        engine := { s.engine with held := held }
        journal := { s.journal with queue := rest, write := none, turn := some .record } } m ∧
      t.units = units ∧ t.journal.queue = rest ∧ t.slotState p.ref = .valid ∧ t.mgmt.toggle = s.mgmt.toggle ∧
      (∀ h, s.journal.head = some h → s.journal.reclaim = .idle → 3 < m.journal.blanks → ErasePaused s →
        (s.journal.next + 1 = 128 → SegClear m (roundNext h) → s.journal.opening = none →
          t.journal.opening = some (roundNext h) ∧ t.journal.next = 128 ∧
          t.journal.blanks = s.journal.blanks - 1 ∧
          t.journal.write = some ⟨.header, ⟨roundNext h, 0⟩, false⟩ ∧
          t.port.program = some ⟨.journal, .body, ⟨roundNext h, 0⟩, headerBytes (s.journal.headGen + 1)⟩) ∧
        (∀ x more, rest = x :: more → s.journal.opening = none → s.journal.next < 127 →
          s.slotState ⟨h, s.journal.next + 1⟩ = .blank → p.ref ≠ ⟨h, s.journal.next + 1⟩ → p.ref.slot ≤ 127 →
          t.journal.next = s.journal.next + 1 ∧
          t.journal.write = some ⟨.queued, ⟨h, s.journal.next + 1⟩, false⟩ ∧
          t.port.program = some ⟨.journal, .body, ⟨h, s.journal.next + 1⟩, x.body.bytes⟩))

/-- VALID_MARK_PROGRAM_END of a copy and of a header (R118, R119, R121). A copy whose cancel mark is clear and whose
unit's ref still names the original moves that ref to the copy, a BIND's or a STATE's; otherwise no ref moves. The
next slot advances, with the opening or stall of a head now full, and the scan moves on. A header makes its segment the
head with the next generation, or generation 1 where the journal was empty, and with it the tail; the next slot is 1, no
segment is claimed, and a stalled ring is released with a report. No slot write is under way then, and the Journal Engine
and the port go on as PortServes says.
That a copy superseded during its valid-mark program turns VALID all the same, with its ref left, is the model's
inference (log 50). -/
def Obligations.CopyAndHeaderWritten : Prop :=
  ∀ (s : State) (p : Program) (w : JWrite), s.port.program = some p → p.kind = .valid → p.owner = .journal →
    s.journal.write = some w → w.ref = p.ref →
    let t0 : State := { s with
      port := { s.port with program := none }
      store := s.store.write p.ref.addr { s.store.read p.ref.addr with state := .valid } }
    (∀ u isBind orig cancel, w.what = .copy u isBind orig cancel →
      let named : Prop := if isBind then (s.unit u).journalRef = some orig else (s.unit u).stateRef = some orig
      ∃ m t, exec .validMarkProgramEnd s = .next t ∧
        SlotAdvances { t0 with
          units := m.units, journal := { s.journal with write := none, turn := some .copy } } m ∧
        (cancel = false → named → m.units = put s.units u (if isBind
          then { s.unit u with journalRef := some p.ref } else { s.unit u with stateRef := some p.ref })) ∧
        (cancel = true ∨ ¬named → m.units = s.units) ∧
        (∀ scan, s.journal.reclaim = .copying scan →
          PortServes { m with journal := { m.journal with reclaim := .copying (scan + 1) } } t) ∧
        ((∀ scan, s.journal.reclaim ≠ .copying scan) → PortServes m t)) ∧
    (w.what = .header → ∃ t, exec .validMarkProgramEnd s = .next t ∧
      PortServes { t0 with
        journal := { s.journal with
          head := some p.ref.seg, next := 1
          headGen := if s.journal.head = none then 1 else s.journal.headGen + 1
          tail := some (s.journal.tail.getD p.ref.seg), opening := none, write := none, stalled := false }
        engine := { s.engine with
          inbox := if s.journal.stalled then s.engine.inbox ++ [.stall false] else s.engine.inbox } } t ∧
      t.journal.head = some p.ref.seg ∧ t.journal.tail = some (s.journal.tail.getD p.ref.seg) ∧
      (s.journal.queue = [] → s.journal.reclaim = .idle → 3 < s.journal.blanks →
        t.journal.next = 1 ∧ t.journal.opening = none ∧ t.journal.write = none ∧ t.journal.stalled = false))

/-- ERASE_PROPER_END (R123, R124, R132, R134, R140) of an active erase: every slot of the segment is BLANK and every
other slot as it was. A segment of a management list leaves the list, and the next begins as part of the same list; after
the last the command is READY with OK, or PARTLY_PROTECTED where segments were skipped, and STORE_DONE names the segments
erased and skipped. A journal erase while the part runs gives one more BLANK segment, ends the reclaim and moves the tail
on to the first segment in use after the erased one around the ring, or to none where none is in use; a ring that is
stalled claims the segment after its head for opening where that is BLANK now. During replay the first segment still
dirty is requested next. The port is free of the erase, and the Journal Engine and the port go on as PortServes says: in
replay, with no write of the Journal Engine and no management program to serve, the next dirty segment's erase begins.
With no erase, or one that is retiring its slot 0, suspended or being suspended, nothing ends, the model's choice (log
2). -/
def Obligations.EraseProperEnds : Prop :=
  (∀ (s : State) (e : Erase), s.port.erase = some e → e.phase = .active →
    ∃ m t, exec .eraseProperEnd s = .next t ∧ PortServes m t ∧
      (∀ a, m.store.read a = if a / 128 = e.seg then Slot.erased else s.store.read a) ∧
      (let left := s.mgmt.eraseList.filter (· ≠ e.seg)
       (∀ g more, e.journal = false → left = g :: more →
         m = { s with
           store := m.store
           mgmt := { s.mgmt with eraseList := left }
           port := { s.port with erase := some ⟨false, g, .retiring false⟩ } }) ∧
       (e.journal = false → left = [] →
         let r : StoreResult := if s.mgmt.skipped = [] then .ok else .partlyProtect
         m = { s with
           store := m.store
           mgmt := { s.mgmt with
             state := .ready, lastResult := some r, target := none, eraseList := [], skipped := [], eraseSet := [] }
           port := { s.port with erase := none }
           notices := s.notices.post (s.notice .storeDone (32 + r.code) none none
             ((s.mgmt.eraseSet.map fun g => 2 ^ g).sum * 65536 + (s.mgmt.skipped.map fun g => 2 ^ g).sum)) })) ∧
      (e.journal = true → s.startUp = .running →
        let round (i : Nat) : Nat := 16 + (e.seg - 16 + i) % 16
        let after' (g : Nat) : Nat := if g = 31 then 16 else g + 1
        let clear (g : Nat) : Prop := ∀ x ∈ m.store, x.1 / 128 = g → x.2.state = .blank
        let opens (h : Nat) : Prop := s.journal.stalled = true ∧ s.journal.opening = none ∧
          s.journal.head = some h ∧ clear (after' h)
        m = { s with
          store := m.store
          port := { s.port with erase := none }
          journal := { s.journal with
            reclaim := .idle, tail := m.journal.tail, blanks := m.journal.blanks, opening := m.journal.opening } } ∧
        (∀ g, m.journal.tail = some g ↔ ∃ i, 1 ≤ i ∧ i ≤ 16 ∧ g = round i ∧ m.segInUse g = true ∧
          ∀ j, 1 ≤ j → j < i → m.segInUse (round j) = false) ∧
        (m.journal.tail = none ↔ ∀ g, 16 ≤ g → g ≤ 31 → m.segInUse g = false) ∧
        (∀ h, opens h → m.journal.opening = some (after' h) ∧ m.journal.blanks = s.journal.blanks) ∧
        ((∀ h, ¬opens h) → m.journal.opening = s.journal.opening ∧ m.journal.blanks = s.journal.blanks + 1)) ∧
      (e.journal = true → s.startUp ≠ .running →
        m = { s with
          store := m.store
          port := { s.port with
            erase := none, journalErase := (List.range' 16 16).find? fun g => m.segDirty g } } ∧
        (s.startUp = .replay → s.port.program = none → s.mgmt.state ≠ .programming → s.port.listErase = false →
          s.journal.head = none → s.journal.tail = none → s.journal.queue = [] → s.journal.opening = none →
          s.journal.write = none →
          (∀ g, 16 ≤ g → g ≤ 31 → m.segDirty g = true → (∀ h, 16 ≤ h → h < g → m.segDirty h = false) →
            t.port.journalErase = none ∧ ∃ ph, t.port.erase = some ⟨true, g, ph⟩ ∧
              (m.slotState ⟨g, 0⟩ = .retired → ph = .active ∧ t.port.program = none) ∧
              (∀ k c, RetiringNext (m.slotState ⟨g, 0⟩) k c →
                ph = .retiring true ∧ t.port.program = some ⟨.retiring, k, ⟨g, 0⟩, c⟩)) ∧
          ((∀ g, 16 ≤ g → g ≤ 31 → m.segDirty g = false) → t.port = ⟨none, none, none, false⟩)))) ∧
  ∀ s : State, (∀ e, s.port.erase = some e → e.phase ≠ .active) → exec .eraseProperEnd s = .next s

/-- Handing a record to the Journal Queue (R116, R121): it joins the tail without a void mark; a BIND or RELEASE voids
every waiting BIND of its unit, a STATE every waiting STATE of its unit, and no other mark changes; a copy under way of
a record so superseded takes its cancel mark. Nothing else changes. -/
def Obligations.JournalQueueTakesRecord : Prop :=
  ∀ (s : State) (r : JRec),
    let voids (old : JRec) : Prop := r.unit = old.unit ∧
      match r, old with
      | .bind .., .bind .. => True
      | .release _, .bind .. => True
      | .state .., .state .. => True
      | _, _ => False
    ∃ older, (handJournal s r).journal.queue = older ++ [⟨r, false⟩] ∧
      older.map (·.body) = s.journal.queue.map (·.body) ∧
      (∀ (i : Nat) (x y : QRec), s.journal.queue[i]? = some x → older[i]? = some y →
        (y.void = true ↔ x.void = true ∨ voids x.body)) ∧
      handJournal s r = { s with journal :=
        { s.journal with queue := older ++ [⟨r, false⟩], write := (handJournal s r).journal.write } } ∧
      (∀ w, s.journal.write = some w →
        (∀ u isBind o c, w.what = .copy u isBind o c →
          ∃ c', (handJournal s r).journal.write = some { w with what := .copy u isBind o c' } ∧
            (c' = true ↔ c = true ∨ (r.unit = u ∧ (isBind = true ↔ ∀ v k, r ≠ .state v k)))) ∧
        ((∀ u isBind o c, w.what ≠ .copy u isBind o c) → (handJournal s r).journal.write = some w))

/-! ### Nodes and bank chains -/

/-- The node: its phase machine, what it shifts, captures and applies (R89 to R92), and the five events that happen
at a node (R90, R93 to R95). Every edge takes the phase CT names; entering MODE-LOAD from ENTRY presets the stage to
1,0; a shifting edge sends the bit at the DI end on and takes the arriving bit in at the DO end; MODE-SET takes the mode
from the stage; CELL-TAKE captures the cell of the mode; CELL-HOLD stands still; CELL-SET applies by mode. A read, a
stall, a pulse end and a change of a sensor change that node alone; a pulse ends no sooner than its length after it
began; reads are not kept while RSTn is held, and a blank node has neither reader, sensors nor bolt. A node whose supply
returns is as out of reset, with its identity. At a position without a node the events do nothing, but for the return of
supply just past the last node, which fits one there with its sensors at 0.
What a node that does not shift hands on is the model's choice (log 26), the count of beeps is its own (log 40), and so
are which positions gain a node (log 6) and that nothing else happens at a position without one (log 2). -/
def Obligations.NodesFollowTheirPhases : Prop :=
  (∀ (n : Node) (d : Bool),
    (n.phase = .rest → n.edge false d = ({ n with phase := .entry }, false) ∧ n.edge true d = (n, false)) ∧
    (n.phase = .entry →
      n.edge false d = ({ n with phase := .cellTake, reg := n.captured }, false) ∧
      n.edge true d = ({ n with phase := .modeLoad, stage := [true, false] }, false)) ∧
    (∀ a b, n.phase = .modeLoad → n.stage = [a, b] →
      n.edge false d = ({ n with stage := [b, d] }, a) ∧
      n.edge true d = ({ n with phase := .modeSet, mode := (match a, b with
        | false, false => .pass | false, true => .status | true, false => .tap | true, true => .ident) }, false)) ∧
    (n.phase = .modeSet ∨ n.phase = .cellSet → ∀ ct, n.edge ct d = ({ n with phase := .rest }, false)) ∧
    (∀ a l, n.phase = .cellTake ∨ n.phase = .cellMove ∨ n.phase = .cellHold → n.reg = a :: l →
      n.edge false d = ({ n with phase := .cellMove, reg := l ++ [d] }, a)) ∧
    (n.phase = .cellMove → n.edge true d = ({ n with phase := .cellHold }, false)) ∧
    (n.phase = .cellTake ∨ n.phase = .cellHold →
      n.edge true d = ({ n.applyCell with phase := .cellSet }, false))) ∧
  (∀ n : Node,
    n.captured = match n.mode with
      | .pass => [false]
      | .status =>
        if n.kind = 3#2 then true :: List.replicate 11 false
        else [true, n.door, n.bolt, n.pulse.isSome, n.tapPend, n.latch, n.tamper, false, false, false, false, false]
      | .tap => true :: ((List.range 4).map (fun i => n.seq.getLsbD (3 - i)) ++
          (List.range 3).map (fun i => n.quality.getLsbD (2 - i)) ++
          (List.range 32).map fun i => n.band.getLsbD (31 - i))
      | .ident => true :: ((List.range 2).map (fun i => n.kind.getLsbD (1 - i)) ++
          (List.range 5).map (fun i => n.revision.getLsbD (4 - i)) ++
          (List.range 16).map fun i => n.serial.getLsbD (15 - i))) ∧
  (∀ (n : Node) (op len lamp : Nat) (beep : Bool), n.mode = .status → op < 4 → len < 16 → lamp < 8 →
    n.reg = commandBits op len lamp beep →
    n.applyCell = { n with
      reg := []
      pulse := if n.kind = 3#2 then n.pulse else match n.pulse, op with
        | none, 1 => some (.throw, max len 1)
        | none, 2 => some (.withdraw, max len 1)
        | p, _ => p
      lamp := [Lamp.off, .green, .red, .amber, .greenFlash, .redFlash, .amberFlash, .off].getD lamp .off
      beeps := if beep then n.beeps + 1 else n.beeps }) ∧
  (∀ (n : Node) (taken : Bool) (seq : BitVec 4) (more : List Bool), n.mode = .tap →
    n.reg = taken :: ((List.range 4).map (fun i => seq.getLsbD (3 - i)) ++ more) →
    n.applyCell = { n with reg := [], tapPend := n.tapPend && !(taken && seq = n.seq) }) ∧
  (∀ n : Node, n.mode = .pass ∨ n.mode = .ident → n.applyCell = { n with reg := [] }) ∧
  ∀ (s : State) (b : BankIx) (p : Position),
    let leaves (c : Instr) (n : Node) : Prop := exec c s = .next (s.setChain b ((s.chain b).set p.1 n))
    (∀ n, (s.chain b)[p.1]? = some n →
      (∀ band q, s.rstHeld b = false → n.kind ≠ 3 →
        leaves (.nodeRead b p band q) { n with band := band, quality := q, seq := n.seq + 1, tapPend := true }) ∧
      (∀ band q, n.kind = 3 → leaves (.nodeRead b p band q) n) ∧
      (leaves (.nodeStallReturn b p)
        (if n.phase = .rest ∨ n.phase = .cellHold then n else { n with phase := .rest })) ∧
      (∀ op len since, n.pulse = some (op, len) → n.pulseFrom = some since →
        let past : Prop := (s.clock.ms - (since + BitVec.ofNat 32 (50 * len))).toNat < 2147483648
        (past → leaves (.nodePulseEnd b p) { n with pulse := none, pulseFrom := none }) ∧
        (¬past → leaves (.nodePulseEnd b p) n)) ∧
      (n.pulse = none ∨ n.pulseFrom = none → leaves (.nodePulseEnd b p) n) ∧
      (∀ door bolt latch tamper, n.kind ≠ 3 → leaves (.nodeSensorChange b p door bolt latch tamper)
        { n with door := door, bolt := bolt, latch := latch, tamper := tamper }) ∧
      (∀ door bolt latch tamper, n.kind = 3 → leaves (.nodeSensorChange b p door bolt latch tamper) n) ∧
      (∀ kind rev serial, leaves (.nodePowerUp b p kind rev serial)
        { n with kind := kind, revision := rev, serial := serial, phase := .rest, mode := .ident, stage := [],
                 reg := [], band := 0, quality := 0, seq := 0, tapPend := false, pulse := none, pulseFrom := none,
                 lamp := .off, beeps := 0 })) ∧
    (∀ band q, s.rstHeld b = true → exec (.nodeRead b p band q) s = .next s) ∧
    ((s.chain b).length ≤ p.1 →
      (∀ band q, exec (.nodeRead b p band q) s = .next s) ∧ exec (.nodeStallReturn b p) s = .next s ∧
      exec (.nodePulseEnd b p) s = .next s ∧
      (∀ door bolt latch tamper, exec (.nodeSensorChange b p door bolt latch tamper) s = .next s) ∧
      ∀ kind rev serial,
        (p.1 = (s.chain b).length → exec (.nodePowerUp b p kind rev serial) s = .next (s.setChain b (s.chain b ++ [
          { kind := kind, revision := rev, serial := serial, phase := .rest, mode := .ident, stage := [], reg := []
            band := 0, quality := 0, seq := 0, tapPend := false, pulse := none, pulseFrom := none, lamp := .off, beeps := 0
            door := false, bolt := false, latch := false, tamper := false }]))) ∧
        ((s.chain b).length < p.1 → exec (.nodePowerUp b p kind rev serial) s = .next s))

/-- What the controllers do at due times (R99, R107, R110, R111), each from its moment on, outside a warm restart.
STATUS_CYCLE_DUE of a RUNNING bank: the next due time stays on the grid, and the cycle begins with its mode pass where
the chain is idle (the pass counter advances and the chain goes to MODE-LOAD), or is owed, one at most. BANK_RESET_END:
the bank is ENUMERATING and its enumeration pass begins. BANK_RETRY: the FAULTED bank enters RESETTING, its nodes in
reset, its reservations released, the tap memory of its units cleared, and movements of it that are left lost with a
report (R48). Otherwise nothing changes.
That a command before its time does nothing is the model's choice (log 3), and so is that a bank whose 10 ms end during a
warm restart stays RESETTING (log 59). -/
def Obligations.BanksActAtDueTimes : Prop :=
  ∀ (s : State) (b : BankIx),
    let k := s.bank b
    let come (t : Millis) : Prop := (s.clock.ms - t).toNat < 2147483648
    let due := k.cycleDue + BitVec.ofNat 32 (s.bankRec b).sweep
    let modes : List NodeMode := ((unitsOf b).take (s.bankRec b).nodeCount).map fun u =>
      if s.kind u = .locker ∨ s.kind u = .cabin then .status else .pass
    (k.state = .running → s.restart = none → come k.cycleDue →
      (k.activity = .idle → exec (.statusCycleDue b) s = .next
        ((s.setBank b { k with
          cycleDue := due, cycleBegun := k.cycleDue, passCount := k.passCount + 1,
          activity := .statusMode modes }).setChain b (chainEdges (s.chain b) [false, true]))) ∧
      (k.activity ≠ .idle → exec (.statusCycleDue b) s = .next
        (s.setBank b { k with cycleDue := due, owed := some (k.owed.getD k.cycleDue) }))) ∧
    (¬(k.state = .running ∧ s.restart = none ∧ come k.cycleDue) → exec (.statusCycleDue b) s = .next s) ∧
    (k.state = .resetting → s.restart = none → come (k.resetAt + 10) → exec (.bankResetEnd b) s = .next
      ((s.setBank b { k with state := .enumerating, activity := .enumerating }).setChain b
        (chainEdges (s.chain b) [false, false]))) ∧
    (¬(k.state = .resetting ∧ s.restart = none ∧ come (k.resetAt + 10)) → exec (.bankResetEnd b) s = .next s) ∧
    (k.state = .faulted → s.restart = none → come k.retryAt → ∃ t, exec (.bankRetry b) s = .next t ∧
      t = { s with
        banks := t.banks, chains := t.chains, tapMemory := t.tapMemory, units := t.units, drive := t.drive
        engine := { s.engine with inbox := t.engine.inbox } } ∧
      BankLoses s t b ∧ (s.bankMoves b = false → t.engine.inbox = s.engine.inbox) ∧
      t.bank b = { k with
        state := .resetting, activity := .idle, owed := none, resetAt := s.clock.ms,
        release := k.release + k.granted.length, granted := [] } ∧
      (∀ c, c ≠ b → t.bank c = s.bank c ∧ t.chain c = s.chain c) ∧ t.rstHeld b = true ∧
      (∀ n ∈ t.chain b, n.phase = .rest ∧ n.mode = .ident ∧ n.pulse = none ∧ n.pulseFrom = none ∧ n.lamp = .off ∧
        n.tapPend = false ∧ n.seq = 0 ∧ n.band = 0 ∧ n.quality = 0) ∧
      (∀ u, t.tapMemory.get u = if bankOf u = b then ⟨none, none, none⟩ else s.tapMemory.get u)) ∧
    (¬(k.state = .faulted ∧ s.restart = none ∧ come k.retryAt) → exec (.bankRetry b) s = .next s)

/-- ENUMERATION_PASS_END on an undisturbed line (R108, R110), the nodes standing at the start of the pass with their
identities captured. Where their count is not the bank's node count, or the kind of one differs from its map entry, the
bank is FAULTED with COUNT or KIND, its retry 5 s ahead, and BANK_FAULT is posted unless the mark is set and the code
is the one held; the stored identities stay, and movements of the bank that are left are lost with a report (R48). Where
all match, every position's identity is stored, the bank is
RUNNING with its failure count 0 and its first status cycle begun (outside a warm restart), and BANK_RESTORED is posted
where the mark was set, which is cleared. A RESET_BANK that waits on the bank is told its state, code and count (R161).
What the wiring does to a pass is an operand (log 8). -/
def Obligations.EnumerationFindsNodes : Prop :=
  ∀ (s : State) (b : BankIx),
    let k := s.bank b
    let ns := s.chain b
    let n := (s.bankRec b).nodeCount
    let kindOf (u : UnitIx) : BitVec 2 := match s.kind u with | .locker => 1 | .cabin => 2 | .blank => 3 | .unused => 0
    k.state = .enumerating → k.activity = .enumerating → ns.length ≤ 64 →
    (∀ x ∈ ns, x.mode = .ident ∧ x.phase = .cellTake ∧ x.reg = x.captured) →
    ∃ t, exec (.enumerationPassEnd b Noise.none) s = .next t ∧
      (∀ c, c ≠ b → t.bank c = s.bank c ∧ t.chain c = s.chain c) ∧
      (t.observed = s.observed ∧ t.taps = s.taps ∧ t.tapMemory = s.tapMemory ∧ t.bands = s.bands ∧
        t.timers = s.timers ∧ t.journal = s.journal ∧ t.store = s.store ∧ t.tables = s.tables ∧
        t.engine = { s.engine with inbox := t.engine.inbox }) ∧
      (let told (st : BankState) (code : Option FaultCode) (count : Nat) : Prop :=
         (∃ n items, s.engine.runningSlot = some ⟨.resetBank b, items, n⟩) →
           (∃ st' code' count', EngEvent.resetDone b st' code' count' ∈ s.engine.inbox) ∨
             EngEvent.resetDone b st code count ∈ t.engine.inbox
       let faults (code : FaultCode) (count : Nat) (unit : Option UnitIx) : Prop :=
         BankLoses s t b ∧ told .faulted (some code) count ∧
         (t.bank b).state = .faulted ∧ (t.bank b).activity = .idle ∧ (t.bank b).faultCode = some code ∧
         (t.bank b).faultedMark = true ∧ (t.bank b).retryAt = s.clock.ms + 5000 ∧ t.identities = s.identities ∧
         t.notices = if k.faultedMark ∧ k.faultCode = some code then s.notices
           else s.notices.post (s.notice .bankFault code.code unit none (b.1 + count * 256))
       (ns.length ≠ n → faults .count ns.length none) ∧
       (∀ p : Position, ns.length = n → (∃ x, ns[p.1]? = some x ∧ x.kind ≠ kindOf (unitAt b p)) →
         (∀ q : Position, q.1 < p.1 → ∀ x, ns[q.1]? = some x → x.kind = kindOf (unitAt b q)) →
         faults .kind 0 (some (unitAt b p))) ∧
       (ns.length = n → (∀ (p : Position) (x : Node), ns[p.1]? = some x → x.kind = kindOf (unitAt b p)) →
         told .running none 0 ∧ t.units = s.units ∧ t.drive = s.drive ∧
         (t.bank b).state = .running ∧ (t.bank b).failures = 0 ∧ (t.bank b).fresh = true ∧
         (t.bank b).faultedMark = false ∧ (t.bank b).faultCode = k.faultCode ∧
         (∀ (p : Position) (x : Node), ns[p.1]? = some x →
           t.identities.get (unitAt b p) = some ⟨x.kind, x.revision, x.serial⟩) ∧
         (∀ u, bankOf u ≠ b → t.identities.get u = s.identities.get u) ∧
         t.notices = (if k.faultedMark then s.notices.post (s.notice .bankRestored 0 none none b.1) else s.notices) ∧
         (s.restart = none → (t.bank b).activity = .statusMode (s.statusModes b) ∧
           (t.bank b).passCount = k.passCount + 1 ∧
           (t.bank b).cycleDue = s.clock.ms + BitVec.ofNat 32 (s.bankRec b).sweep)))

/-- STATUS_MODE_PASS_END and FETCH_MODE_PASS_END (R50, R51, R77, R96, R98, R100, R103). On an undisturbed line the 2 bits
sent for each node reach that node, whatever the chain's length, the pass passes, and the failure count is 0. Outside a
warm restart the data pass follows at once: the pass counter advances, each node has captured the cell of its new mode,
and a status data pass carries each unit's command: the op of its granted, undelivered actuation with the bank's pulse
length, or no op and length 1; the transient lamp until its end time, and then the steady one; and its beep request,
which is marked as sent. A transient that has ended is gone. In a warm restart the chain is left idle, a pulse under way
and not timed yet timed from then (R94).
Where a bit of what comes back is disturbed the pass of a RUNNING bank fails: the failure count rises, at 3 the bank is
FAULTED with INTEGRITY, and a fetch cycle's reservations are released (R84, R98, R103, R109, R110).
What the wiring does to a pass is an operand (log 8); at its end time a transient has passed, the model's choice (log
27). -/
def Obligations.ModePassSetsModes : Prop :=
  ∀ (s : State) (b : BankIx) (modes : List NodeMode) (status : Bool),
    let k := s.bank b
    let ns := s.chain b
    let pass (line : Noise) : Instr := if status then .statusModePassEnd b line else .fetchModePassEnd b line
    modes.length = ns.length → (∀ x ∈ ns, x.phase = .modeLoad ∧ x.stage = [true, false]) →
    k.activity = (if status then .statusMode modes else .fetchMode modes) →
    (∃ t, exec (pass Noise.none) s = .next t ∧
      t = { s with units := t.units, banks := t.banks, chains := t.chains } ∧
      (∀ d, d ≠ b → t.bank d = s.bank d ∧ t.chain d = s.chain d) ∧
      (t.chain b).length = ns.length ∧ (t.bank b).failures = 0 ∧
      (∀ (i : Nat) (m : NodeMode) (x y : Node), modes[i]? = some m → ns[i]? = some x → (t.chain b)[i]? = some y →
        y.mode = m ∧
        (s.restart = none → y.phase = .cellTake ∧ y.reg = ({ x with mode := m } : Node).captured) ∧
        (s.restart ≠ none → y = { x with
          phase := .rest, mode := m, stage := y.stage
          pulseFrom := if x.pulse.isSome ∧ x.pulseFrom = none then some s.clock.ms else x.pulseFrom })) ∧
      (s.restart ≠ none → (t.bank b).activity = .idle ∧ (t.bank b).passCount = k.passCount ∧ t.units = s.units) ∧
      (s.restart = none → (t.bank b).passCount = k.passCount + 1) ∧
      (s.restart = none → status = false → (t.bank b).activity = .fetchData modes ∧ t.units = s.units) ∧
      (s.restart = none → status = true →
        let lamp (u : UnitIx) : LampPlan := (s.unit u).lamp
        let ended (u : UnitIx) : Bool := match (lamp u).transient with
          | some (_, e) => (s.clock.ms - e).toNat < 2147483648
          | none => false
        let shown (u : UnitIx) : Lamp := match (lamp u).transient with
          | some (l, _) => if ended u then (lamp u).steady else l
          | none => (lamp u).steady
        let op (u : UnitIx) : Option BoltOp :=
          (s.drive.granted.find? fun a => a.unit = u ∧ a.delivered = false).map (·.op)
        let command (u : UnitIx) : List Bool :=
          bitsOf 2 (match op u with | none => 0 | some .throw => 1 | some .withdraw => 2) ++
          bitsOf 4 (if (op u).isSome then (s.bankRec b).pulseLength else 1) ++
          bitsOf 3 (([.off, .green, .red, .amber, .greenFlash, .redFlash, .amberFlash] : List Lamp).idxOf (shown u)) ++
          [(lamp u).beep, false, false]
        let fitted : List (UnitIx × NodeMode) := (unitsOf b).zip modes
        (t.bank b).activity = .statusData modes
          (fitted.reverse.flatMap fun um => if um.2 = .status then command um.1 else [false]) s.clock.ms
          ((fitted.filter fun um => um.2 = .status ∧ (op um.1).isSome).map fun um =>
            (um.1, (s.bankRec b).pulseLength)) ∧
        ∀ u, t.unit u = if (u, NodeMode.status) ∈ fitted then
            { s.unit u with lamp := { lamp u with
              transient := if ended u then none else (lamp u).transient, beepSent := (lamp u).beep } }
          else s.unit u)) ∧
    ∀ (toPart : List Bool) (i : Nat), k.state = .running → i < 2 * ns.length + 8 → toPart[i]? = some true →
      ∃ t, exec (pass ⟨[], toPart⟩) s = .next t ∧ PassFailed s t b ∧
        t.observed = s.observed ∧ t.taps = s.taps ∧ t.tapMemory = s.tapMemory ∧ t.journal = s.journal ∧
        t.store = s.store ∧ t.bands = s.bands ∧ t.timers = s.timers ∧
        (status = false → (t.bank b).granted = [] ∧ (t.bank b).release = k.release + k.granted.length)

/-- STATUS_DATA_PASS_END (R77, R80 to R83, R94, R98 to R101, R105). On an undisturbed line,
outside a warm restart: every node applies the stretch of bits sent for it, a pulse it begins timed from now. The
actuations whose ops were sent are delivered, with their pulse ends, and beep requests that were sent are cleared, one
set since apart. The cells captured become the observed fields of their units, NODE_TAMPER is posted for a contact newly
open, and the engine is handed the observations, or on the first pass the reconcile request. A settled actuation awaiting
verify is verified where its cell shows the bolt as sent and no pulse, and is otherwise retried at attempts 1 and 2 and
reported as a fault at 3. Last kept bands and times of the bank that lie 5000 ms or more before the pass began are
forgotten, and the rest of the tap memory is as it was. Units whose cells show TAPPEND are named for reservation; with
none the chain is free, and a status cycle owed begins at once. What
waits at the engine already is noted to have arrived before the pass's reports, which stand behind it (R24, log 15).
During a warm restart the cells are observed and the reservation request is made all the same, and nothing is verified or
handed to the engine (R85, R103, R181).
Where a bit of the check pattern is disturbed on its way back the pass of a RUNNING bank fails: the ops and beep requests
are sent all the same, but no cell is observed and nothing verified; the failure count rises, and the chain is free, or
at 3 the bank is FAULTED with INTEGRITY (R84, R98, R99, R109, R110).
What the wiring does to a pass is an operand (log 8); the order of the checks among the bank's actuations (log 30) and
the order of several NODE_TAMPER notices, ascending position (log 55), are the model's choices. -/
def Obligations.StatusDataPassDelivers : Prop :=
  ∀ (s : State) (b : BankIx) (modes : List NodeMode) (commands : List (List Bool)) (began : Millis)
    (ops : List (UnitIx × Nat)),
    let k := s.bank b
    let ns := s.chain b
    k.activity = .statusData modes commands.reverse.flatten began ops →
    modes.length = ns.length → ns.length ≤ 64 → commands.length = ns.length →
    (∀ (i : Nat) (m : NodeMode) (x : Node) (l : List Bool), modes[i]? = some m → ns[i]? = some x →
      commands[i]? = some l →
      (m = .status ∨ m = .pass) ∧ x.mode = m ∧ x.phase = .cellTake ∧ x.reg = x.captured ∧ l.length = m.cellLength) →
    MovementsOk s →
    let fitted : List (UnitIx × NodeMode) := (unitsOf b).zip modes
    let cells : List (UnitIx × Cell) := ((unitsOf b).zip (modes.zip ns)).filterMap fun e =>
      if e.2.1 = .status then some (e.1, statusCell e.2.2.reg) else none
    let sent (a : Actuation) : Actuation :=
      if a.delivered then a else match ops.find? fun o => o.1 = a.unit with
        | some o => { a with delivered := true, pulseEnd := some (s.clock.ms + BitVec.ofNat 32 (50 * o.2)) }
        | none => a
    let lamp (u : UnitIx) : LampPlan :=
      let p := (s.unit u).lamp
      if (u, NodeMode.status) ∈ fitted then { p with beep := p.beep && !p.beepSent, beepSent := false } else p
    let applied (after' : List Node) : Prop := after'.length = ns.length ∧
      ∀ (i : Nat) (x y : Node) (l : List Bool), ns[i]? = some x → after'[i]? = some y → commands[i]? = some l →
        let z := ({ x with reg := l } : Node).applyCell
        y = { z with
          phase := .rest
          pulseFrom := if z.pulse.isSome ∧ z.pulseFrom = none then some s.clock.ms else z.pulseFrom }
    let judged : Bank := { k with failures := 0, fresh := k.fresh && s.restart.isSome }
    let remembered (u : UnitIx) : TapMemory :=
      let x := s.tapMemory.get u
      match x.keptTime with
      | some at' => if bankOf u = b ∧ 5000 ≤ (began - at').toNat then { x with keptBand := none, keptTime := none } else x
      | none => x
    let observes (t : State) : Prop :=
      (∀ d, d ≠ b → t.bank d = s.bank d ∧ t.chain d = s.chain d) ∧
      (t.journal = s.journal ∧ t.store = s.store ∧ t.tables = s.tables ∧ t.taps = s.taps ∧ t.bands = s.bands ∧
        t.timers = s.timers ∧ t.line = s.line ∧ t.inputs = s.inputs) ∧
      (∀ u, t.tapMemory.get u = remembered u) ∧
      (∀ u, (t.unit u).lamp = lamp u ∧ (t.unit u).state = (s.unit u).state ∧
        (t.unit u).holder = (s.unit u).holder) ∧
      (∀ uc ∈ cells, t.cell uc.1 = uc.2) ∧ (∀ u, (∀ uc ∈ cells, uc.1 ≠ u) → t.cell u = s.cell u) ∧
      t.notices = (cells.filter fun uc => uc.2.tamper && (k.fresh || !(s.cell uc.1).tamper)).foldl
        (fun q uc => q.post (s.notice .nodeTamper 0 (some uc.1) none b.1)) s.notices ∧
      ∃ after', applied after' ∧
        match (cells.filter fun uc => uc.2.tapPend).map (·.1) with
        | [] => ChainFreedFrom s t b judged after'
        | us => t.bank b = { judged with activity := .reserving us } ∧ t.chain b = after'
    (s.restart ≠ none → ∃ t, exec (.statusDataPassEnd b Noise.none) s = .next t ∧ observes t ∧ t.engine = s.engine ∧
      t.drive = { s.drive with granted := s.drive.granted.map sent } ∧ (t.bank b).fresh = k.fresh) ∧
    (s.restart = none → ∃ t, exec (.statusDataPassEnd b Noise.none) s = .next t ∧ observes t ∧
      (t.bank b).fresh = false ∧ (∀ a ∈ s.drive.granted, sent a ∈ t.drive.granted) ∧
      (k.fresh = true → EngEvent.reconcile b cells ∈ t.engine.inbox) ∧
      (k.fresh = false → ∀ uc ∈ cells, EngEvent.observed uc.1 (s.cell uc.1) uc.2 ∈ t.engine.inbox) ∧
      (∃ more, t.engine.inbox = s.engine.inbox ++ more) ∧ t.engine.held = s.engine.held ∧
      (Taking s → ArrivalOrder s t.engine.arrived) ∧ (¬Taking s → t.engine.arrived = s.engine.arrived) ∧
      (∀ a ∈ s.drive.awaiting, bankOf a.unit = b → ∀ e, a.pulseEnd = some e →
        let settled : Prop := (began - (e + 100)).toNat < 2147483648
        let shown : Prop := (t.cell a.unit).pulse = false ∧ ((t.cell a.unit).bolt = true ↔ a.op = .throw)
        (¬settled → a ∈ t.drive.awaiting) ∧
        (settled → (∀ x ∈ t.drive.awaiting, x.unit ≠ a.unit) ∧
          (shown → EngEvent.verified a.unit a.op (t.cell a.unit) ∈ t.engine.inbox) ∧
          (¬shown → 3 ≤ a.attempt → EngEvent.faulted a.unit a.op (t.cell a.unit) ∈ t.engine.inbox) ∧
          (¬shown → a.attempt < 3 → CanMove s a.unit a.op →
            ∃ x ∈ t.drive.waiting ++ t.drive.granted, x.unit = a.unit ∧ x.op = a.op ∧ x.urgency = .normal ∧
              x.attempt = a.attempt + 1 ∧ x.delivered = false ∧ x.pulseEnd = none)))) ∧
    ∀ (toPart : List Bool) (i : Nat), k.state = .running → commands.flatten.length ≤ i →
      i < commands.flatten.length + 8 → toPart[i]? = some true →
      ∃ m t, exec (.statusDataPassEnd b ⟨[], toPart⟩) s = .next t ∧ PassFailed m t b ∧
        m = { s with units := m.units, drive := { s.drive with granted := s.drive.granted.map sent } } ∧
        (∀ u, m.unit u = { s.unit u with lamp := lamp u }) ∧
        t.observed = s.observed ∧ t.taps = s.taps ∧ t.tapMemory = s.tapMemory ∧ t.journal = s.journal ∧
        t.store = s.store ∧ t.bands = s.bands ∧ t.timers = s.timers ∧
        ∃ after', applied after' ∧
          t.chain b = if k.failures + 1 < 3 ∧ k.owed ≠ none ∧ s.restart = none then chainEdges after' [false, true]
            else after'

/-- FETCH_DATA_PASS_END (R98, R104, R105). On an undisturbed line the pass passes and the chain is parked in CELL-HOLD,
where every TAP node holds TAKEN set and the SEQ its own cell reported. The cells are filtered, a weak one and a repeat
of the last kept band inside the window dropped, and one place event carries the kept records, all of one gathering
time and in ascending position, and the count dropped. The Tap Queue and the tap memory are not touched yet.
Where a bit of the check pattern is disturbed on its way back the pass of a RUNNING bank fails and is voided: nothing is
gathered, the reservations are released and every read stays pending at its node; the failure count rises, and at 3 the
bank is FAULTED with INTEGRITY (R84, R98, R104, R109, R110).
What the wiring does to a pass is an operand (log 8); that the tap memory, the last fetched SEQ with it, is not touched
before PLACED is the model's reading of R105 (log 24). -/
def Obligations.FetchPassGathersTaps : Prop :=
  ∀ (s : State) (b : BankIx) (modes : List NodeMode),
    let k := s.bank b
    let ns := s.chain b
    k.activity = .fetchData modes → modes.length = ns.length → ns.length ≤ 64 →
    (∀ (i : Nat) (m : NodeMode) (x : Node), modes[i]? = some m → ns[i]? = some x →
      (m = .tap ∨ m = .pass) ∧ x.mode = m ∧ x.phase = .cellTake ∧ x.reg = x.captured) →
    let taps : List (UnitIx × Node) := ((unitsOf b).zip (modes.zip ns)).filterMap fun e =>
      if e.2.1 = .tap then some (e.1, e.2.2) else none
    let weak (e : UnitIx × Node) : Prop := e.2.quality.toNat < s.tables.options.qualityMin
    let repeated (e : UnitIx × Node) : Prop := (s.tapMemory.get e.1).keptBand = some e.2.band ∧
      ∃ at', (s.tapMemory.get e.1).keptTime = some at' ∧ (s.clock.ms - at').toNat < s.tables.options.repeatWindow
    (∃ (t : State) (kept gone : List (UnitIx × Node)), exec (.fetchDataPassEnd b Noise.none) s = .next t ∧
      t = { s with banks := t.banks, chains := t.chains } ∧
      (∀ d, d ≠ b → t.bank d = s.bank d ∧ t.chain d = s.chain d) ∧
      kept.Sublist taps ∧ gone.Sublist taps ∧ kept.length + gone.length = taps.length ∧
      (∀ e ∈ kept, ¬weak e ∧ ¬repeated e) ∧ (∀ e ∈ gone, weak e ∨ repeated e) ∧
      t.bank b = { k with
        failures := 0
        activity := .parked
        place := some ⟨kept.map fun e => ⟨e.1, e.2.band, s.clock.ms⟩, gone.length,
          taps.map fun e => (e.1, e.2.seq)⟩ } ∧
      (t.chain b).length = ns.length ∧
      ∀ (i : Nat) (x y : Node), ns[i]? = some x → (t.chain b)[i]? = some y →
        y = { x with phase := .cellHold, reg := y.reg } ∧
        (x.mode = .tap →
          y.reg = true :: ((List.range 4).map (fun j => x.seq.getLsbD (3 - j)) ++ List.replicate 35 false)) ∧
        (x.mode = .pass → y.reg = [false])) ∧
    ∀ (toPart : List Bool) (i : Nat), k.state = .running →
      (modes.map NodeMode.cellLength).sum ≤ i → i < (modes.map NodeMode.cellLength).sum + 8 →
      toPart[i]? = some true →
      ∃ t, exec (.fetchDataPassEnd b ⟨[], toPart⟩) s = .next t ∧ PassFailed s t b ∧
        t.observed = s.observed ∧ t.taps = s.taps ∧ t.tapMemory = s.tapMemory ∧ t.journal = s.journal ∧
        t.store = s.store ∧ t.bands = s.bands ∧ t.timers = s.timers ∧
        (t.bank b).granted = [] ∧ (t.bank b).release = k.release + k.granted.length ∧ (t.bank b).place = k.place ∧
        (t.chain b).length = ns.length ∧
        (∀ (i : Nat) (x y : Node), ns[i]? = some x → (t.chain b)[i]? = some y →
          y.tapPend = x.tapPend ∧ y.seq = x.seq ∧ y.band = x.band ∧ y.quality = x.quality ∧
          (k.failures + 1 < 3 → k.owed = none ∨ s.restart ≠ none → y.phase = .rest))

/-- The Tap Queue's events (R99, R102 to R105, R109). TAP_RESERVE, behind the controller's own place and release events:
with k free places the first k units named are granted and reserved; a grant begins the fetch cycle's mode pass with TAP
for the units granted, a cycle owed staying owed; no grant leaves the chain free, and a status cycle owed begins at once;
during a warm restart the request is answered alike, and no cycle follows (R111). TAP_PLACE: where the reservations cover
the records and the dropped taps, the records join the tail, the reservations fall, the fetched SEQs and the kept bands
are remembered and a chain still parked is taken through CELL-SET to REST and is free, so that a status cycle owed begins
at once; otherwise nothing is appended and no reservation is left, as after a bank
has left RUNNING and its reservations were released first. A chain no longer parked stays as it is. TAP_RELEASE: the
reservations fall by the count, not below 0.
That a reservation request stands behind the controller's earlier events is the model's choice (log 23); the fetched
SEQ is remembered at PLACED (log 24). -/
def Obligations.TapQueueTakesEvents : Prop :=
  ∀ (s : State) (b : BankIx),
    let k := s.bank b
    let held := s.taps.reserved.get b
    let free := 32 - s.taps.records.length - s.taps.reservations
    let sets (v : Vector Nat 8) : Prop := ∀ c, c ≠ b → v.get c = s.taps.reserved.get c
    (∀ us, k.activity = .reserving us → k.place = none → k.release = 0 → s.restart = none →
      ∃ t, exec (.tapReserve b) s = .next t ∧
        t = { s with taps := ⟨s.taps.records, t.taps.reserved⟩, banks := t.banks, chains := t.chains } ∧
        (∀ d, d ≠ b → t.bank d = s.bank d ∧ t.chain d = s.chain d) ∧
        sets t.taps.reserved ∧ t.taps.reserved.get b = held + (us.take free).length ∧
        (us.take free = [] → ChainFreedFrom s t b { k with granted := [] } (s.chain b)) ∧
        (us.take free ≠ [] →
          t.bank b = { k with
            granted := us.take free, passCount := k.passCount + 1
            activity := .fetchMode (((unitsOf b).take (s.bankRec b).nodeCount).map fun u =>
              if (us.take free).contains u then .tap else .pass) } ∧
          t.chain b = chainEdges (s.chain b) [false, true])) ∧
    (∀ us, k.activity = .reserving us → k.place = none → k.release = 0 → s.restart ≠ none →
      ∃ t, exec (.tapReserve b) s = .next t ∧
        t = { s with taps := ⟨s.taps.records, t.taps.reserved⟩, banks := t.banks } ∧
        (∀ d, d ≠ b → t.bank d = s.bank d) ∧ sets t.taps.reserved ∧
        t.taps.reserved.get b = held + (us.take free).length ∧
        t.bank b = { k with granted := us.take free, activity := .idle }) ∧
    ((∀ us, k.activity ≠ .reserving us) ∨ k.place ≠ none ∨ k.release ≠ 0 → exec (.tapReserve b) s = .next s) ∧
    (∀ m, k.place = some m →
      let used := m.records.length + m.dropped
      let left := k.granted.filter fun u => !(m.cells.any fun c => c.1 = u)
      ∃ t, exec (.tapPlace b) s = .next t ∧
        t = { s with taps := t.taps, banks := t.banks, chains := t.chains, tapMemory := t.tapMemory } ∧
        (∀ d, d ≠ b → t.bank d = s.bank d ∧ t.chain d = s.chain d) ∧ sets t.taps.reserved ∧
        (used ≤ held →
          t.taps.records = s.taps.records ++ m.records ∧ t.taps.reserved.get b = held - used ∧
          (k.activity = .parked → ChainFreedFrom s t b { k with place := none, granted := left }
            ((chainEdges (s.chain b) [true, true]).map fun n => { n with
              pulseFrom := if n.pulse.isSome ∧ n.pulseFrom = none then some s.clock.ms else n.pulseFrom })) ∧
          (k.activity ≠ .parked →
            t.bank b = { k with place := none, granted := left } ∧ t.chain b = s.chain b) ∧
          (∀ u, (∀ c ∈ m.cells, c.1 ≠ u) → (∀ r ∈ m.records, r.unit ≠ u) →
            t.tapMemory.get u = s.tapMemory.get u) ∧
          ((m.cells.map (·.1)).Nodup → ∀ c ∈ m.cells, (t.tapMemory.get c.1).seq = some c.2) ∧
          ((m.records.map (·.unit)).Nodup → ∀ r ∈ m.records,
            (t.tapMemory.get r.unit).keptBand = some r.band ∧ (t.tapMemory.get r.unit).keptTime = some r.time)) ∧
        (held < used →
          t.taps.records = s.taps.records ∧ t.taps.reserved.get b = 0 ∧ t.tapMemory = s.tapMemory ∧
          t.bank b = { k with place := none, granted := left } ∧ t.chain b = s.chain b)) ∧
    (k.place = none → exec (.tapPlace b) s = .next s) ∧
    (∃ t, exec (.tapRelease b) s = .next t ∧
      t = { s with taps := ⟨s.taps.records, t.taps.reserved⟩, banks := t.banks } ∧
      (∀ d, d ≠ b → t.bank d = s.bank d) ∧ t.bank b = { k with release := 0 } ∧ sets t.taps.reserved ∧
      t.taps.reserved.get b = held - k.release)

/-! ### Bolt drive -/

/-- PULSE_END (R74 to R76, R79, R85): the first delivered actuation whose pulse end has come leaves the granted set for
the awaiting-verify set, its current released and its pulse end kept; where there is none, the first detached pulse that
has ended leaves the Drive Scheduler. The grant arbiter then examines the head of the waiting list, and goes on for as
long as one leaves it: the head of a RUNNING bank is granted with its bank's coil current where that fits in the rail
limit, and stays where it does not; a head of another bank is removed, and a cabin THROW that LEVEL-mode evacuation
withholds displaced, each with a report. Where no pulse end has come nothing changes.
Which of two ended pulses is taken first, and that a command before its time does nothing, are the model's choices
(logs 3, 30). -/
def Obligations.PulseEnds : Prop :=
  ∀ s : State,
    let come (t : Millis) : Prop := (s.clock.ms - t).toNat < 2147483648
    let ends (a : Actuation) : Prop := a.delivered = true ∧ ∃ t, a.pulseEnd = some t ∧ come t
    (∀ before a behind, s.drive.granted = before ++ a :: behind → (∀ x ∈ before, ¬ends x) → ends a →
      ∃ t, exec .pulseEnd s = .next t ∧ Examined { s with drive := { s.drive with
        granted := before ++ behind, awaiting := s.drive.awaiting ++ [{ a with current := none }] } } t ∧
        (RailOk s → RailOk t)) ∧
    (∀ before d behind, (∀ x ∈ s.drive.granted, ¬ends x) → s.drive.detached = before ++ d :: behind →
      (∀ x ∈ before, ¬come x.pulseEnd) → come d.pulseEnd →
      ∃ t, exec .pulseEnd s = .next t ∧
        Examined { s with drive := { s.drive with detached := before ++ behind } } t ∧ (RailOk s → RailOk t)) ∧
    ((∀ x ∈ s.drive.granted, ¬ends x) → (∀ x ∈ s.drive.detached, ¬come x.pulseEnd) → exec .pulseEnd s = .next s)

/-! ### Taps -/

/-- TAKE_TAP that ends in a refusal (R11, R27 to R31): the checks in order, each reason given when those before it
pass. A unit with a movement in hand or suspended: BUSY. OUT_OF_SERVICE, FAULT or FORCED, and a bank in cleaning: so
refused, but for a master band. A cabin under LEVEL-mode evacuation. A blocked band; a band no permit range holds. Then,
for a band with a class: a unit held by another band; for a unit without a holder that is not FREE, EVACUATION or
NOT_AVAILABLE; and the new-bind checks, zone, quotas and door. A refusal posts REFUSED with the state's code, sets the
transient lamp and the beep request, and, past the band checks, leaves the class in the band's entry (R22, R29); nothing
else changes. A tap at a unit that is no LOCKER or CABIN is discarded.
The oldest tap waits, and with it those behind it, before replay has ended and in every step of a warm restart, while
RELOAD_TABLES is the running action, while the Journal Queue or the Actuation Queue has fewer than 2 free places, while
the ring is stalled and its unit is a locker (R27), while an action that could be accepted has waited behind a tap
already (R150), and after a restart while an evacuation change or a due timer event waits (R181). A tap taken while an action is
pending and the running slot is empty is the one it waits behind: where the action can be accepted once that tap is
decided, the next tap waits for it (R27, R150).
A movement whose report the engine has not taken counts as in hand (log 13), the order after a restart is that of log 36,
and one tap at most goes ahead of an action by log 37, the model's inferences. -/
def Obligations.TapsRefused : Prop :=
  (∀ s : State, s.taps.records = [] ∨ s.startUp ≠ .running ∨ s.restart ≠ none ∨
      (∃ items n, s.engine.runningSlot = some ⟨.reloadTables, items, n⟩) ∨ 16 < s.journal.queue.length + 2 ∨
      64 < s.drive.used + 2 ∨
      (s.engine.ringStalled = true ∧ ∃ x more, s.taps.records = x :: more ∧ s.kind x.unit = .locker) ∨
      (s.engine.tapAhead = true ∧ ∃ a, Acceptable s a) ∨ EventsAhead s →
    exec .takeTap s = .next s) ∧
  (∀ (s : State) (u : UnitIx) (b : Band) (rest : List Tap), TapReady s u b rest →
    let r := s.unit u
    let blocked : Prop := b ∈ s.engine.overlay ∨ b ∈ s.tables.blocks
    let master : Prop := ¬blocked ∧ b ∈ s.tables.masters
    let permit := s.tables.permits.find? fun p => p.low.toNat ≤ b.toNat ∧ b.toNat ≤ p.high.toNat
    let busy : Prop := s.inHand u = true ∨ r.suspended = true
    let cleaning : Prop := s.engine.cleaning.get (bankOf u) = true
    let evac : Prop := s.kind u = .cabin ∧ s.levelEvac = true
    let refusing (why : Refusing) (bands : List BandEntry) : Prop := ∃ t, exec .takeTap s = .next t ∧
      PortServes { s.tapTaken rest with
        bands := bands
        units := put s.units u (if why = .busy then (r.lit .amber (s.clock.ms + 1000)).beeps
          else (r.lit .red (s.clock.ms + 2000)).beeps)
        notices := s.notices.post
          (s.notice .refused why.code (some u) (some b) (r.state.code (s.kind u))) } t
    (s.kind u ≠ .locker → s.kind u ≠ .cabin → ∃ t, exec .takeTap s = .next t ∧ PortServes (s.tapTaken rest) t) ∧
    (s.kind u = .locker ∨ s.kind u = .cabin →
      (busy → refusing .busy s.bands) ∧
      (¬busy → ¬master → r.state = .outOfService → refusing .outOfService s.bands) ∧
      (¬busy → ¬master → r.state = .fault → refusing .fault s.bands) ∧
      (¬busy → ¬master → r.state = .forced → refusing .forced s.bands) ∧
      (¬busy → ¬master → r.state.serviceRefusal = none → cleaning → refusing .cleaning s.bands) ∧
      (¬busy → evac → master ∨ (r.state.serviceRefusal = none ∧ ¬cleaning) → refusing .evacuation s.bands) ∧
      (¬busy → ¬evac → ¬master → r.state.serviceRefusal = none → ¬cleaning →
        (blocked → refusing .blocked s.bands) ∧
        (¬blocked → permit = none → refusing .unknownBand s.bands) ∧
        (∀ p, ¬blocked → permit = some p →
          let k := s.tables.classes.get p.cls
          let bands := s.bands.map fun e => if e.band = b then { e with cls := p.cls } else e
          let holds (kind : UnitKind) : Nat := ((heldBy s.bands b).filter fun v => s.kind v = kind).length
          (∀ h, r.holder = some h → h ≠ b → refusing .wrongBand bands) ∧
          (r.holder = none → r.state = .evacOpen → refusing .evacuation bands) ∧
          (r.holder = none → r.state ≠ .evacOpen → r.state ≠ .free → refusing .notAvailable bands) ∧
          (r.holder = none → r.state = .free → k.zones.getLsbD (s.zone u).1 = false → refusing .zone bands) ∧
          (r.holder = none → r.state = .free → k.zones.getLsbD (s.zone u).1 = true →
            (s.kind u = .locker → k.lockerQuota ≤ holds .locker → refusing .quotaLocker bands) ∧
            (s.kind u = .cabin → k.cabinQuota ≤ holds .cabin → refusing .quotaCabin bands) ∧
            (s.kind u = .locker → holds .locker < k.lockerQuota → (s.cell u).door = false →
              refusing .doorOpen bands))))) ∧
    (∃ t, exec .takeTap s = .next t ∧ t.taps.records = rest ∧ t.engine.resuming = false ∧
      (t.engine.tapAhead = true ↔ s.engine.pendingSlot ≠ none ∧ s.engine.runningSlot = none) ∧
      ∀ a, Acceptable t a → exec .takeTap t = .next t))

/-- TAKE_TAP that binds (R32, R43): a FREE unit without a holder, of a kind the band's class may still hold in its zone,
a locker with its door shut. The unit takes its holder and bound_at, a locker LOCKING with a BIND record and a NORMAL
THROW, a cabin ADMITTING with a NORMAL WITHDRAW; the band's entry, new or not, holds the unit last, with the class
taken; BOUND is posted and the lamp is green for 2 s. No other band's entry and no other unit's record changes.
A movement whose report the engine has not taken counts as in hand (log 13), the model's inference. -/
def Obligations.TapsBind : Prop :=
  ∀ (s : State) (u : UnitIx) (b : Band) (rest : List Tap) (c : ClassIx), TapReady s u b rest → HoldingsOk s →
    let r := s.unit u
    let k := s.tables.classes.get c
    let now := s.clock.sec
    let holds (kind : UnitKind) : Nat := ((heldBy s.bands b).filter fun v => s.kind v = kind).length
    identify s b = .cls c → s.inHand u = false → r.suspended = false → r.state = .free → r.holder = none →
    s.engine.cleaning.get (bankOf u) = false → k.zones.getLsbD (s.zone u).1 = true →
    let bound (st : UState) : UnitRec :=
      { ((r.enters (s.kind u) st).lit .green (s.clock.ms + 2000)) with
        holder := some b, boundAt := now, restored := false, latchSeen := false, overstay := false }
    let index (l : List BandEntry) : Prop :=
      (∃ e, bandEntry l b = some e ∧ e.cls = c ∧ e.held = heldBy s.bands b ++ [u] ∧
        e.firstBound = ((bandEntry s.bands b).map (·.firstBound)).getD now) ∧
      ∀ x, x ≠ b → bandEntry l x = bandEntry s.bands x
    let base (st : UState) (l : List BandEntry) : State := { s.tapTaken rest with
      bands := l
      units := put s.units u (bound st)
      notices := s.notices.post (s.notice .bound 0 (some u) (some b) c.1) }
    (s.kind u = .locker → holds .locker < k.lockerQuota → (s.cell u).door = true →
      ∃ (l : List BandEntry) (m t : State), exec .takeTap s = .next t ∧ PortServes m t ∧ index l ∧
        MovesOn { base .locking l with journal := (handJournal s (.bind u b c now)).journal } m u .throw .normal) ∧
    (s.kind u = .cabin → s.levelEvac = false → holds .cabin < k.cabinQuota →
      ∃ (l : List BandEntry) (m t : State), exec .takeTap s = .next t ∧ PortServes m t ∧ index l ∧
        MovesOn (base .admitting l) m u .withdraw .normal)

/-- TAKE_TAP by the unit's holder (R33, R34, R45). At a HELD locker: UNLOCKING, for KEEP where the class keeps and for
RELEASE by the holder otherwise, with a NORMAL WITHDRAW. At an AJAR or SERVICE_OPEN locker with its door shut: LOCKING
with a NORMAL THROW, the AJAR_IDLE entry removed. Both show green for 2 s. At a cabin in IN_USE or EXPIRED: a holder
release with reason HOLDER.
TAKE_TAP by a master band (R40, R41, R42): MASTER_TAP is posted in every case, its code the effect. OPEN takes a
HELD or FORCED locker whose bolt is thrown to UNLOCKING for SERVICE with a NORMAL WITHDRAW, one whose bolt is withdrawn,
and an AJAR one, to SERVICE_OPEN at once, the AJAR_IDLE entry removed, and a FREE cabin to SERVICE_OPEN with a NORMAL
WITHDRAW. RELEASE is a holder release of a cabin with reason MASTER. CLOSE takes a SERVICE_OPEN unit with its door shut
to LOCKING or CLOSING with a NORMAL THROW, or a locker without a holder to FREE. With the door open it is DOOR_OPEN,
which shows red and beeps. At FAULT it is OPEN: a locker hands a STATE RETURN over where a STATE stands (R39), and goes
to UNLOCKING for SERVICE with a NORMAL WITHDRAW where it has a holder and its bolt is thrown, and otherwise to
SERVICE_OPEN, with a NORMAL WITHDRAW where its bolt is thrown; a cabin loses its holder, with RELEASED for MASTER, and
goes to SERVICE_OPEN likewise. In every other state it is NONE, which changes nothing.
That MASTER_TAP stands before the notices of its effect is the model's choice (log 18), and a movement whose report the
engine has not taken counts as in hand by inference (log 13). -/
def Obligations.TapsByHolderAndMaster : Prop :=
  (
    ∀ (s : State) (u : UnitIx) (b : Band) (rest : List Tap) (c : ClassIx), TapReady s u b rest → HoldingsOk s →
      let r := s.unit u
      identify s b = .cls c → s.inHand u = false → r.suspended = false → r.holder = some b →
      s.engine.cleaning.get (bankOf u) = false →
      let s0 : State := { s.tapTaken rest with
        bands := s.bands.map fun e => if e.band = b then { e with cls := c } else e }
      let green (st : UState) : UnitRec := (r.enters (s.kind u) st).lit .green (s.clock.ms + 2000)
      (s.kind u = .locker → r.state = .held → ∃ m t, exec .takeTap s = .next t ∧ PortServes m t ∧
        let x : UnitRec := { green .unlocking with
          purpose := some (if (s.tables.classes.get c).keep then .keep else .release .holder) }
        MovesOn { s0 with units := put s.units u x } m u .withdraw .normal) ∧
      (s.kind u = .locker → r.state = .ajar ∨ r.state = .serviceOpen → (s.cell u).door = true →
        ∃ m t, exec .takeTap s = .next t ∧ PortServes m t ∧
          MovesOn { s0 with
            timers := s.timers.filter fun e => e.unit ≠ u
            units := put s.units u (green .locking) } m u .throw .normal) ∧
      (s.kind u = .locker → r.state = .ajar ∨ r.state = .serviceOpen → (s.cell u).door = false →
        ∃ t, exec .takeTap s = .next t ∧
          PortServes { s0 with
            units := put s.units u (r.lit .red (s.clock.ms + 2000)).beeps
            notices := s.notices.post
              (s.notice .refused 14 (some u) (some b) (r.state.code (s.kind u))) } t) ∧
      (s.kind u = .cabin → r.state = .inUse ∨ r.state = .expired → s.levelEvac = false →
        ∃ m t, exec .takeTap s = .next t ∧ PortServes m t ∧ CabinReleased s0 m u .holder false)) ∧
  (
    ∀ (s : State) (u : UnitIx) (b : Band) (rest : List Tap), TapReady s u b rest → HoldingsOk s →
      let r := s.unit u
      let c := s.cell u
      identify s b = .master → s.inHand u = false → r.suspended = false → (s.kind u = .cabin → s.levelEvac = false) →
      let tapped (effect : Nat) : State := { s.tapTaken rest with
        notices := s.notices.post (s.notice .masterTap effect (some u) (some b) (r.state.code (s.kind u))) }
      let green (x : UnitRec) : UnitRec := x.lit .green (s.clock.ms + 2000)
      let moves (m0 : State) (op : BoltOp) : Prop :=
        ∃ m t, exec .takeTap s = .next t ∧ PortServes m t ∧ MovesOn m0 m u op .normal
      let ends (m : State) : Prop := ∃ t, exec .takeTap s = .next t ∧ PortServes m t
      (s.kind u = .locker → r.state = .held ∨ r.state = .forced → r.holder ≠ none →
        (c.bolt = true →
          let x : UnitRec := { green (r.enters .locker .unlocking) with purpose := some .service }
          moves { tapped 1 with units := put s.units u x } .withdraw) ∧
        (c.bolt = false → ends { tapped 1 with units := put s.units u (green (r.enters .locker .serviceOpen)) })) ∧
      (s.kind u = .locker → r.state = .ajar → ends { tapped 1 with
        timers := s.timers.filter fun e => e.unit ≠ u
        units := put s.units u (green (r.enters .locker .serviceOpen)) }) ∧
      (s.kind u = .cabin → r.state = .free →
        moves { tapped 1 with units := put s.units u (green (r.enters .cabin .serviceOpen)) } .withdraw) ∧
      (s.kind u = .cabin → r.state = .inUse ∨ r.state = .expired →
        ∃ m t x, exec .takeTap s = .next t ∧ PortServes m t ∧ CabinReleased (tapped 3) x u .master false ∧
          m = { x with units := put x.units u (green (x.unit u)) }) ∧
      (r.state = .serviceOpen → c.door = true →
        (s.kind u = .cabin → moves { tapped 2 with units := put s.units u (green (r.enters .cabin .closing)) } .throw) ∧
        (s.kind u = .locker → r.holder ≠ none →
          moves { tapped 2 with units := put s.units u (green (r.enters .locker .locking)) } .throw) ∧
        (s.kind u = .locker → r.holder = none →
          ends { tapped 2 with units := put s.units u (green (r.enters .locker .free)) })) ∧
      (s.kind u = .locker ∨ s.kind u = .cabin → r.state = .serviceOpen → c.door = false →
        ends { tapped 5 with units := put s.units u (r.lit .red (s.clock.ms + 2000)).beeps }) ∧
      (s.kind u = .locker → r.state = .fault →
        let standing : Bool := r.stateRef.isSome || s.stateWaits u
        let x : UnitRec := if standing then { r with stateRef := none } else r
        let left : State := { tapped 1 with
          journal := if standing then (handJournal s (.state u .returned)).journal else s.journal }
        (c.bolt = false → ends { left with units := put s.units u (green (x.enters .locker .serviceOpen)) }) ∧
        (c.bolt = true → r.holder = none →
          moves { left with units := put s.units u (green (x.enters .locker .serviceOpen)) } .withdraw) ∧
        (c.bolt = true → r.holder ≠ none →
          let y : UnitRec := { green (x.enters .locker .unlocking) with purpose := some .service }
          moves { left with units := put s.units u y } .withdraw)) ∧
      (s.kind u = .cabin → r.state = .fault → ∃ l, BandLeft s l u r.holder ∧
        let x : UnitRec := if r.holder.isSome then r.unheld else r
        let left : State := { tapped 1 with
          bands := l
          units := put s.units u (green (x.enters .cabin .serviceOpen))
          notices := if r.holder.isSome
            then (tapped 1).notices.post (s.notice .released Reason.master.code (some u) r.holder r.boundAt)
            else (tapped 1).notices }
        (c.bolt = false → ends left) ∧ (c.bolt = true → moves left .withdraw)) ∧
      (s.kind u = .locker → r.state = .free ∨ r.state = .outOfService → ends (tapped 4)) ∧
      (s.kind u = .cabin → r.state = .vacating ∨ r.state = .evacOpen ∨ r.state = .outOfService → ends (tapped 4)))

/-! ### Events the engine takes -/

/-- VERIFY_RESULT (R24, R35, R36, R44, R46, R56 to R58, R81, R153), of the oldest verify result that R24 lets through, of
a unit without a follow-up entry. A locker: a THROW verified in LOCKING makes it HELD with the door shut, and otherwise
sends it back with a NORMAL WITHDRAW, red lamp and beep; a WITHDRAW verified in UNLOCKING ends by its purpose: a release,
AJAR with the class's AJAR_IDLE time, or SERVICE_OPEN. A cabin: a WITHDRAW verified in ADMITTING makes it IN_USE with its
allowance, expiry, warning and grace times and its timer entry; a THROW verified in CLOSING or FREE makes it FREE with
the door shut and sends it to VACATING with a NORMAL WITHDRAW otherwise. In every case a running action watching the unit
for it goes on. A locker's verify result is held back while the Journal Queue lacks room, and behind the events held back
before it that still wait; while the queue lacks room, all that waits and is held back stands in the order it arrived.
The follow-up entries of cabins at verify (R177): with OPEN, a THROW verified with the door shut takes the cabin,
FREE by its own rule, to EVAC_OPEN with a URGENT WITHDRAW, and one verified with the door open leaves it VACATING with
its WITHDRAW promoted to URGENT; with CLOSE, a WITHDRAW verified in EVAC_OPEN takes it to CLOSING with a NORMAL THROW.
The entry is gone.
That the oldest report of its kind is taken is the model's choice (log 42); that every verify result of a locker is held
back, whether or not it would hand a record over, and which events stand before it, are its reading of R24 (log 15). -/
def Obligations.VerifyResultsTaken : Prop :=
  (
    (∀ (s : State) (u : UnitIx) (op : BoltOp) (c : Cell) (before behind : List EngEvent),
      Taking s → (s.kind u = .locker → LetThrough s (.report u)) → HoldingsOk s →
      s.engine.inbox = before ++ .verified u op c :: behind →
      (∀ e ∈ before, ∀ v op' c', e = .verified v op' c' → s.kind v = .locker ∧ ¬LetThrough s (.report v)) →
      (∀ e ∈ s.engine.follow, e.1 ≠ u) →
      let r := s.unit u
      let s0 := s.took (before ++ behind) (s.watched [u] .verify fun _ => false)
      let ends (m : State) : Prop := ∃ t, exec .verifyResult s = .next t ∧ PortServes (m.holding t) t ∧
        KeepsHeld s t (.report u)
      let moves (x : UnitRec) (op' : BoltOp) : Prop := ∃ m t, exec .verifyResult s = .next t ∧ PortServes m t ∧
        MovesOn ({ s0 with units := put s.units u x }.holding t) m u op' .normal ∧ KeepsHeld s t (.report u)
      (s.kind u = .locker → op = .throw → r.state = .locking →
        (c.door = true → ends { s0 with units := put s.units u (r.enters .locker .held) }) ∧
        (c.door = false →
          let lit := ((r.enters .locker .unlocking).lit .red (s.clock.ms + 2000)).beeps
          moves { lit with purpose := some (.release .doorOpen) } .withdraw)) ∧
      (s.kind u = .locker → op = .withdraw → r.state = .unlocking →
        (∀ why, r.purpose = some (.release why) →
          ∃ m t, exec .verifyResult s = .next t ∧ PortServes m t ∧ KeepsHeld s t (.report u) ∧
            LockerReleased ((s.took (before ++ behind) (s.watched [u] .verify fun _ => r.holder.isSome)).holding t)
              m u why) ∧
        (r.purpose = some .keep →
          let cls := ((bandEntry s.bands (r.holder.getD 0)).map (·.cls)).getD 0
          let due := min (s.clock.sec + (s.tables.classes.get cls).ajarIdle) 4294967295
          let x : UnitRec := { r.enters .locker .ajar with purpose := none }
          ends { s0 with units := put s.units u x, timers := setTimer s.timers u .ajarIdle due }) ∧
        (r.purpose = some .service →
          let x : UnitRec := { r.enters .locker .serviceOpen with purpose := none }
          ends { s0 with units := put s.units u x })) ∧
      (s.kind u = .cabin → op = .withdraw → r.state = .admitting →
        let x := s.admitted u
        ends { s0 with units := put s.units u x.1, timers := setTimer s.timers u x.2.1 x.2.2 }) ∧
      (s.kind u = .cabin → op = .throw → r.state = .closing ∨ r.state = .free →
        (c.door = true → ends { s0 with units := put s.units u (r.enters .cabin .free) }) ∧
        (c.door = false → moves (r.enters .cabin .vacating) .withdraw)) ∧
      (s.kind u = .locker → r.state ≠ .locking → r.state ≠ .unlocking → ends s0) ∧
      (s.kind u = .cabin → r.state ≠ .admitting → r.state ≠ .closing → r.state ≠ .free → ends s0)) ∧
    (∀ s : State, Taking s → ¬JournalRoom s → (∃ e ∈ s.engine.inbox, e.isVerified = true) →
      ∃ t, exec .verifyResult s = .next t ∧ t.journal.queue = s.journal.queue ∧ AllNoted s t.engine.held) ∧
    ∀ (s : State) (u : UnitIx) (op : BoltOp) (c : Cell), Taking s → s.kind u = .locker → ¬LetThrough s (.report u) →
      EngEvent.verified u op c ∈ s.engine.inbox → ∃ t, exec .verifyResult s = .next t ∧
        EngEvent.verified u op c ∈ t.engine.inbox ∧ HeldEvent.report u ∈ t.engine.held ∧
        (t.unit u).rest = (s.unit u).rest) ∧
  (
    ∀ (s : State) (u : UnitIx) (op : BoltOp) (c : Cell) (before behind : List EngEvent) (f : Follow),
      Taking s → MovementsOk s → s.kind u = .cabin → (s.bank (bankOf u)).state = .running →
      s.engine.inbox = before ++ .verified u op c :: behind → (∀ e ∈ before, e.isVerified = false) →
      s.engine.follow.find? (fun e => e.1 = u) = some (u, f) →
      ∃ t, exec .verifyResult s = .next t ∧ (∀ e ∈ t.engine.follow, e.1 ≠ u) ∧
        (∀ v, v ≠ u → (t.unit v).rest = (s.unit v).rest) ∧
        (let moved (op' : BoltOp) (urgency : Urgency) : Prop :=
           (∃ a ∈ t.drive.waiting ++ t.drive.granted, a.unit = u ∧ a.op = op' ∧ a.urgency = urgency) ∨
             (t.unit u).deferred = some (op', urgency)
         (f = .toOpen → op = .throw → (s.unit u).state = .closing ∨ (s.unit u).state = .free →
           (c.door = true → (t.unit u).state = .evacOpen ∧ (t.unit u).lamp.steady = .greenFlash ∧
             moved .withdraw .urgent) ∧
           (c.door = false → (t.unit u).state = .vacating ∧ moved .withdraw .urgent)) ∧
         (f = .toClose → op = .withdraw → (s.unit u).state = .evacOpen → s.levelEvac = false →
           (t.unit u).state = .closing ∧ moved .throw .normal)))

/-- FAULT_REPORT, ACTUATION_REMOVED, THROW_DISPLACED and JOURNAL_STALL_REPORT (R24, R25, R47, R48, R119, R153, R177),
each
of the oldest event of its kind, a fault report of the oldest that R24 lets through. A fault report puts the unit into
FAULT with its holder kept, its timer entry removed,
UNIT_FAULT posted with the op and the failing cell, and for a locker a STATE record; its follow-up entry is gone. A
removal marks its units suspended, with those of a bank that left RUNNING that hold a deferred op, which is gone; their
follow-up entries act, OPEN to EVAC_OPEN and CLOSE to CLOSING. A displaced cabin throw takes a CLOSING or FREE cabin to
EVAC_OPEN, with a URGENT WITHDRAW where its bolt is thrown. Actions watching these units go on. A stall report is
remembered.
That the suspended mark is set when the report is taken, and that a displaced cabin takes EVAC_OPEN whether or not
evacuation is still active, are the model's inferences (logs 14, 44); that the oldest event of its kind is taken is its
choice (log 42), and which events stand before a held one its reading of R24 (log 15). -/
def Obligations.EngineReportsTaken : Prop :=
  ∀ (s : State) (before behind : List EngEvent), Taking s →
    (∀ u op c, (s.kind u = .locker → LetThrough s (.report u)) →
      s.engine.inbox = before ++ .faulted u op c :: behind →
      (∀ e ∈ before, ∀ v op' c', e = .faulted v op' c' → s.kind v = .locker ∧ ¬LetThrough s (.report v)) →
      let r := s.unit u
      let bits := 16 * c.door.toNat + 8 * c.bolt.toNat + 4 * c.pulse.toNat + 2 * c.latch.toNat + c.tamper.toNat
      ∃ t, exec .faultReport s = .next t ∧ KeepsHeld s t (.report u) ∧
        PortServes { s with
          units := put s.units u { (r.enters (s.kind u) .fault) with purpose := none }
          timers := s.timers.filter fun e => e.unit ≠ u
          notices := s.notices.post (s.notice .unitFault op.code (some u) r.holder bits)
          journal := if s.kind u = .locker then (handJournal s (.state u .fault)).journal else s.journal
          engine := { s.engine with
            inbox := before ++ behind, held := t.engine.held, arrived := t.engine.arrived
            follow := s.engine.follow.filter fun e => e.1 ≠ u
            runningSlot := s.watched [u] .fault fun _ => false } } t) ∧
    (∀ u op c, s.kind u = .locker → ¬LetThrough s (.report u) → EngEvent.faulted u op c ∈ s.engine.inbox →
      ∃ t, exec .faultReport s = .next t ∧ EngEvent.faulted u op c ∈ t.engine.inbox ∧
        HeldEvent.report u ∈ t.engine.held ∧ (t.unit u).rest = (s.unit u).rest) ∧
    (∀ us left, s.engine.inbox = before ++ .removed us left :: behind → (∀ e ∈ before, e.isRemoved = false) →
      let lost (v : UnitIx) : Bool := us.contains v || (left = some (bankOf v) && (s.unit v).deferred.isSome)
      ∃ t, exec .actuationRemoved s = .next t ∧
        t = { s with
          units := t.units
          engine := { s.engine with
            inbox := before ++ behind
            follow := s.engine.follow.filter fun e => !lost e.1
            runningSlot := s.watched (allUnits.filter lost) .removal fun _ => false } } ∧
        ∀ v, t.unit v = if lost v then
            { (match (s.engine.follow.find? fun e => e.1 = v).map (·.2) with
              | some .toOpen => (s.unit v).enters (s.kind v) .evacOpen
              | some .toClose => (s.unit v).enters (s.kind v) .closing
              | none => s.unit v) with suspended := true, deferred := none }
          else s.unit v) ∧
    (∀ u, s.engine.inbox = before ++ .displaced u :: behind → (∀ e ∈ before, e.isDisplaced = false) →
      let r := s.unit u
      let s0 : State := { s with engine := { s.engine with
        inbox := before ++ behind
        follow := s.engine.follow.filter fun e => e.1 ≠ u
        runningSlot := s.watched [u] .displaced fun _ => false } }
      let opened : State := { s0 with units := put s.units u (r.enters (s.kind u) .evacOpen) }
      (r.state ≠ .closing → r.state ≠ .free → exec .throwDisplaced s = .next s0) ∧
      (r.state = .closing ∨ r.state = .free → (s.cell u).bolt = false →
        exec .throwDisplaced s = .next opened) ∧
      (r.state = .closing ∨ r.state = .free → (s.cell u).bolt = true →
        ∃ t, exec .throwDisplaced s = .next t ∧ MovesOn opened t u .withdraw .urgent)) ∧
    (∀ on, s.engine.inbox = before ++ .stall on :: behind → (∀ e ∈ before, e.isStall = false) →
      exec .journalStallReport s = .next { s with engine := { s.engine with
        inbox := before ++ behind, ringStalled := on } })

/-- OBSERVATION (R26, R37, R45, R46, R178), of the oldest observation, its new cell being the unit's last observed
one. A HELD locker with its door open and nothing in hand is FORCED, with DOOR_FORCED; any other locker only has the
event taken. A cabin with its holder inside sees the latch engage. The door closing behind a holder who has latched,
unlatched now and with nothing in hand, is a vacate: a holder release. A VACATING cabin shut and unlatched, with nothing
in hand, closes, or under LEVEL-mode evacuation takes EVAC_OPEN.
A movement whose report the engine has not taken counts as in hand (log 13), the model's inference; that the oldest
observation waiting is the one taken is its choice (log 42). -/
def Obligations.ObservationsTaken : Prop :=
  ∀ (s : State) (u : UnitIx) (prev new : Cell) (before behind : List EngEvent), Taking s → HoldingsOk s →
    s.engine.inbox = before ++ .observed u prev new :: behind → (∀ e ∈ before, e.isObserved = false) →
    s.cell u = new →
    let r := s.unit u
    let s0 := s.took (before ++ behind) s.engine.runningSlot
    let free : Prop := s0.inHand u = false
    let inside : Prop := r.state = .inUse ∨ r.state = .expired
    let latched : Prop := prev.latch = false ∧ new.latch = true
    let left : Prop := r.latchSeen = true ∧ prev.door = false ∧ new.door = true ∧ prev.latch = false ∧
      new.latch = false ∧ free
    (s.kind u = .locker → r.state = .held → new.door = false → free →
      exec .observation s = .next { s0 with
        units := put s.units u (r.enters .locker .forced)
        notices := s.notices.post (s.notice .doorForced 0 (some u) r.holder 0) }) ∧
    (s.kind u = .locker → r.state ≠ .held ∨ new.door = true ∨ ¬free → exec .observation s = .next s0) ∧
    (s.kind u = .cabin → inside ∨ r.state = .admitting → latched →
      exec .observation s = .next { s0 with units := put s.units u { r with latchSeen := true } }) ∧
    (s.kind u = .cabin → inside → left →
      ∃ t, exec .observation s = .next t ∧ CabinReleased s0 t u .vacated false) ∧
    (s.kind u = .cabin → inside → ¬latched → ¬left → exec .observation s = .next s0) ∧
    (s.kind u = .cabin → r.state = .admitting → ¬latched → exec .observation s = .next s0) ∧
    (s.kind u = .cabin → r.state = .vacating → ¬(new.door = true ∧ new.latch = false ∧ free) →
      exec .observation s = .next s0) ∧
    (s.kind u = .cabin → r.state = .vacating → new.door = true → new.latch = false → free →
      (s.levelEvac = false → ∃ t, exec .observation s = .next t ∧
        MovesOn { s0 with units := put s.units u (r.enters .cabin .closing) } t u .throw .normal) ∧
      (s.levelEvac = true → new.bolt = false →
        exec .observation s = .next { s0 with units := put s.units u (r.enters .cabin .evacOpen) }) ∧
      (s.levelEvac = true → new.bolt = true → ∃ t, exec .observation s = .next t ∧
        MovesOn { s0 with units := put s.units u (r.enters .cabin .evacOpen) } t u .withdraw .urgent)) ∧
    (s.kind u = .cabin → ¬inside → r.state ≠ .admitting → r.state ≠ .vacating → exec .observation s = .next s0)

/-- RECONCILE (R36, R49, R56 to R58, R178), of the oldest request, once no removal report of the bank waits. A unit with
a movement in hand is passed by. Every other unit of the request loses its suspended mark. A FREE, AJAR or SERVICE_OPEN
locker, or an open cabin, whose bolt is thrown gets a WITHDRAW and keeps its state. A HELD locker neither suspended nor
shut is FORCED, one shut with its bolt withdrawn LOCKING with a THROW; a suspended one gets its THROW and stays HELD. A
FREE cabin with its bolt withdrawn gets a THROW, a suspended one that shows its bolt thrown with the door open goes to
VACATING with a WITHDRAW, and under LEVEL-mode evacuation a FREE cabin takes EVAC_OPEN. A FORCED, OUT_OF_SERVICE or FAULT
unit stays as it is. One LOCKING, UNLOCKING, ADMITTING or CLOSING that does not show the bolt position it expects has its
movement handed over afresh, a CLOSING cabin under LEVEL-mode evacuation taking EVAC_OPEN instead; one that shows it is
taken as verified: HELD, or back to UNLOCKING with the door open; AJAR with its idle time, SERVICE_OPEN, or released;
IN_USE
with its allowance and times; FREE, or VACATING with the door open. Units outside the request keep their records. A
request whose first unit would hand a record to a queue without room stays.
That a unit with only a report waiting is passed by (log 13), that a removal report goes first and that a request waits
for room in the Journal Queue (log 16) are the model's inferences, and that the oldest request is the one taken its
choice
(log 42). -/
def Obligations.ReconcileComparesUnits : Prop :=
  ∀ (s : State) (b : BankIx) (cells : List (UnitIx × Cell)) (before behind : List EngEvent), Taking s →
    s.engine.inbox = before ++ .reconcile b cells :: behind → (∀ e ∈ before, e.isReconcile = false) →
    s.removalWaits b = false →
    (∀ u c more, cells = (u, c) :: more → s.reconcileHands u c = true → ¬JournalRoom s →
      ∃ t, exec .reconcile s = .next t ∧
        PortServes (s.took (.reconcile b cells :: (before ++ behind)) s.engine.runningSlot) t) ∧
    (∀ u c why, cells = [(u, c)] → JournalRoom s → HoldingsOk s → s.kind u = .locker → s.inHand u = false →
      (s.unit u).state = .unlocking → (s.unit u).purpose = some (.release why) → c.bolt = false →
      ∃ m t, exec .reconcile s = .next t ∧ PortServes m t ∧
        LockerReleased { s.took (before ++ behind) s.engine.runningSlot with
          units := put s.units u { s.unit u with suspended := false } } m u why) ∧
    ((cells.map (·.1)).Nodup → (∀ uc ∈ cells, bankOf uc.1 = b) → (s.bank b).state = .running →
      MovementsOk s → (∀ uc ∈ cells, s.reconcileHands uc.1 uc.2 = false) →
      ∃ t, exec .reconcile s = .next t ∧
        t.journal.queue = s.journal.queue ∧ t.bands = s.bands ∧ t.tables = s.tables ∧ t.inputs = s.inputs ∧
        t.line = s.line ∧
        (∀ u, (∀ uc ∈ cells, uc.1 ≠ u) ∨ s.inHand u = true → (t.unit u).rest = (s.unit u).rest) ∧
        ∀ uc ∈ cells, s.inHand uc.1 = false →
          let u := uc.1
          let c := uc.2
          let r := s.unit u
          let st' := (t.unit u).state
          let moved (op : BoltOp) (urgency : Urgency) : Prop :=
            (∃ a ∈ t.drive.waiting ++ t.drive.granted, a.unit = u ∧ a.op = op ∧ a.urgency = urgency) ∨
              (t.unit u).deferred = some (op, urgency)
          let still : Prop := t.actuating u = false ∧ (t.unit u).deferred = none
          let class' : Urgency := if r.state = .evacOpen ∧ s.inputs.active then .urgent else .normal
          (t.unit u).suspended = false ∧ (t.unit u).holder = r.holder ∧
          (s.kind u = .locker → r.state = .free ∨ r.state = .ajar ∨ r.state = .serviceOpen →
            st' = r.state ∧ if c.bolt then moved .withdraw .normal else still) ∧
          (s.kind u = .locker → r.state = .held → r.suspended = false →
            (c.door = false → st' = .forced ∧ still) ∧
            (c.door = true → c.bolt = true → st' = .held ∧ still) ∧
            (c.door = true → c.bolt = false → st' = .locking ∧ moved .throw .normal)) ∧
          (s.kind u = .locker → r.state = .held → r.suspended = true →
            st' = .held ∧ if c.bolt then still else moved .throw .normal) ∧
          (r.state = .forced ∨ r.state = .outOfService ∨ r.state = .fault → st' = r.state ∧ still) ∧
          (s.kind u = .cabin → r.state = .free →
            (s.levelEvac = false → c.bolt = false → st' = .free ∧ moved .throw .normal) ∧
            (s.levelEvac = false → c.bolt = true → r.suspended = false ∨ c.door = true → st' = .free ∧ still) ∧
            (s.levelEvac = false → c.bolt = true → r.suspended = true → c.door = false →
              st' = .vacating ∧ moved .withdraw .normal) ∧
            (s.levelEvac = true → st' = .evacOpen ∧ if c.bolt then moved .withdraw .urgent else still)) ∧
          (s.kind u = .cabin →
            r.state = .inUse ∨ r.state = .expired ∨ r.state = .vacating ∨ r.state = .serviceOpen ∨
              r.state = .evacOpen →
            st' = r.state ∧ if c.bolt then moved .withdraw class' else still) ∧
          (s.kind u = .locker → r.state = .locking →
            (c.bolt = false → st' = .locking ∧ moved .throw .normal) ∧
            (c.bolt = true → c.door = true → st' = .held ∧ still) ∧
            (c.bolt = true → c.door = false → st' = .unlocking ∧ moved .withdraw .normal ∧
              (t.unit u).purpose = some (.release .doorOpen) ∧ (t.unit u).lamp.beep = true)) ∧
          (s.kind u = .locker → r.state = .unlocking →
            (c.bolt = true → st' = .unlocking ∧ moved .withdraw .normal) ∧
            (c.bolt = false → r.purpose = some .service →
              st' = .serviceOpen ∧ (t.unit u).purpose = none ∧ still) ∧
            (c.bolt = false → r.purpose = some .keep →
              let cls := ((bandEntry s.bands (r.holder.getD 0)).map (·.cls)).getD 0
              let due := min (s.clock.sec + (s.tables.classes.get cls).ajarIdle) 4294967295
              st' = .ajar ∧ (t.unit u).purpose = none ∧ still ∧ ⟨due, u, .ajarIdle⟩ ∈ t.timers)) ∧
          (s.kind u = .cabin → r.state = .admitting →
            (c.bolt = true → st' = .admitting ∧ moved .withdraw .normal) ∧
            (c.bolt = false → still ∧
              let x := s.admitted u
              (t.unit u).rest = ({ x.1 with suspended := false } : UnitRec).rest ∧ ⟨x.2.2, u, x.2.1⟩ ∈ t.timers)) ∧
          (s.kind u = .cabin → r.state = .closing →
            (c.bolt = false → s.levelEvac = false → st' = .closing ∧ moved .throw .normal) ∧
            (c.bolt = false → s.levelEvac = true → st' = .evacOpen ∧ still) ∧
            (c.bolt = true → c.door = true → st' = .free ∧ still) ∧
            (c.bolt = true → c.door = false → st' = .vacating ∧ moved .withdraw .normal)))

/-- WARNING, EXPIRY, GRACE_END and AJAR_IDLE (R24, R38, R45, R61 to R65, R69), of the first entry of the Unit Timer List
that is due and that R24 does not hold back. A WARNING posts CABIN_WARNING and sets the lamp and the EXPIRY entry; an
EXPIRY takes the cabin to EXPIRED with CABIN_EXPIRED and the GRACE_END entry, and releases it where it is shut, unlatched
and still; a GRACE_END of a cabin whose latch is engaged, as last observed or with its freeing yet to be taken, marks
it as overstaying, with CABIN_OVERSTAY and no entry left, and releases it otherwise; an AJAR_IDLE releases the locker. An
AJAR_IDLE that is due is held back while the Journal Queue lacks room, and behind the events held back before it that
still wait: it stays, and entries behind it go on. An entry not due yet is not taken, and none while an evacuation change
goes first after a restart (R181).
That a cabin with only a report waiting is not still (log 13), which latch a GRACE_END finds (log 45), which events stand
before a held one (log 15) and the order after a restart (log 36) are the model's inferences; that arrival orders held
AJAR_IDLE events also where the seconds count is held at its end is its choice (log 63), and that an entry before its
time does nothing is its choice (log 3). -/
def Obligations.TimerEventsTaken : Prop :=
  (∀ (s : State) (e : TimerEntry) (ahead rest : List TimerEntry), Taking s → HoldingsOk s →
    ¬(s.engine.resuming = true ∧ s.inputs.changes ≠ []) → s.timers = ahead ++ e :: rest →
    (∀ x ∈ ahead, s.clock.sec < x.due ∨ (x.kind = .ajarIdle ∧ ¬LetThrough s (.idle x.unit x.due))) →
    e.due ≤ s.clock.sec →
    let u := e.unit
    let r := s.unit u
    let until' (x : Option Nat) : Nat := x.getD 0
    let shut : Prop := s.inHand u = false ∧ (s.cell u).door = true ∧ (s.cell u).latch = false
    let latch : Prop := (s.cell u).latch = true ∨
      ∃ prev new, EngEvent.observed u prev new ∈ s.engine.inbox ∧ prev.latch = true ∧ new.latch = false
    (e.kind = .warning → exec .warning s = .next { s with
      units := put s.units u { r with lamp := { r.lamp with steady := .amberFlash } }
      notices := s.notices.post (s.notice .cabinWarning 0 (some u) r.holder (until' r.expiry))
      timers := setTimer s.timers u .expiry (until' r.expiry) }) ∧
    (e.kind = .expiry →
      let m : State := { s with
        units := put s.units u (r.enters (s.kind u) .expired)
        notices := s.notices.post (s.notice .cabinExpired 0 (some u) r.holder (until' r.graceEnd))
        timers := setTimer s.timers u .graceEnd (until' r.graceEnd) }
      (¬shut → exec .expiry s = .next m) ∧
      (shut → ∃ t, exec .expiry s = .next t ∧ CabinReleased m t u .expiry false)) ∧
    (e.kind = .graceEnd →
      (latch → exec .graceEnd s = .next { s with
        units := put s.units u { r with overstay := true }
        notices := s.notices.post (s.notice .cabinOverstay 0 (some u) r.holder (until' r.expiry))
        timers := s.timers.filter fun x => x.unit ≠ u }) ∧
      (¬latch → ∃ t, exec .graceEnd s = .next t ∧ CabinReleased s t u .grace false)) ∧
    (e.kind = .ajarIdle → LetThrough s (.idle u e.due) →
      ∃ m t, exec .ajarIdle s = .next t ∧ PortServes m t ∧ KeepsHeld s t (.idle u e.due) ∧
        LockerReleased ({ s with timers := s.timers.filter fun x => x.unit ≠ u }.holding t) m u .idle)) ∧
  (∀ s : State, Taking s → (∀ x ∈ s.timers, x.due ≤ s.clock.sec → x.kind = .ajarIdle) →
    (∀ x ∈ s.timers, x.due ≤ s.clock.sec → ¬LetThrough s (.idle x.unit x.due)) →
    ∃ t, exec .ajarIdle s = .next t ∧ t = s.holding t ∧
      ∀ x ∈ s.timers, x.due ≤ s.clock.sec → HeldEvent.idle x.unit x.due ∈ t.engine.held) ∧
  (∀ s : State, (∀ x ∈ s.timers, s.clock.sec < x.due) →
    exec .warning s = .next s ∧ exec .expiry s = .next s ∧ exec .graceEnd s = .next s ∧
      exec .ajarIdle s = .next s) ∧
  ∀ s : State, s.engine.resuming = true → s.inputs.changes ≠ [] →
    exec .warning s = .next s ∧ exec .expiry s = .next s ∧ exec .graceEnd s = .next s ∧
      ∃ t, exec .ajarIdle s = .next t ∧ t = s.holding t

/-! ### Actions -/

/-- The actions that end in the event of their acceptance (R10, R66 to R68, R149, R150, R158, R159, R160): accepted,
each posts ACTION_DONE with its result and leaves both slots empty. One whose first step would hand a record over is held
back while the Journal Queue lacks room (R24), and stays pending. A unit of another kind by now: BAD_ARGUMENT.
SET_OUT_OF_SERVICE: HELD, BUSY, NOT_FREE or OK by the unit, and a FREE one goes OUT_OF_SERVICE, a locker's with a STATE
record. RETURN_TO_SERVICE and CLEAR_FAULT: a unit without a holder is FREE, a locker with one HELD, a cabin with one
VACATING
without it, RELEASED for FAULT; STATE RETURN is handed over where a STATE stands; in other states NOT_OUT_OF_SERVICE or
NOT_FAULTED. On a RUNNING bank with nothing in hand the unit is then compared with its last observed cell (R49): a
FREE or VACATING unit whose bolt is thrown where it should be withdrawn gets a WITHDRAW, a HELD locker with its door open
is FORCED, one shut with its bolt withdrawn LOCKING with a THROW, a FREE cabin with its bolt withdrawn gets a THROW, and
under LEVEL-mode evacuation a FREE cabin takes EVAC_OPEN. EXTEND_CABIN: NOT_HELD, CAPPED, or the new expiry with its
warning,
grace end and entry. BANK_CLEANING sets the switch. BLOCK_BAND adds the band to the overlay, unless it is blocked
already, or FULL.
That a unit with only a report waiting counts as having a movement in hand is the model's inference (log 13); which
events stand before a held one is its reading of R24 (log 15). -/
def Obligations.ActionsEndAtAcceptance : Prop :=
  (∀ (s : State) (a : Action), Taking s → s.engine.pendingSlot = some a → s.engine.runningSlot = none →
    ¬EventsAhead s → a.firstHands s = true → ¬LetThrough s .accept →
    ∀ c, (c, a.code) ∈ [(Instr.releaseUnit, 1), (.openUnit, 3), (.setOutOfService, 4), (.returnToService, 5),
        (.clearFault, 6)] →
      ∃ t, exec c s = .next t ∧ t = s.holding t ∧ HeldEvent.accept ∈ t.engine.held ∧ KeepsHeld s t .accept) ∧
  ∀ (s : State) (a : Action), Acceptable s a → HoldingsOk s →
    let ends (c : Instr) (m : State) (why : Result) (extra : Nat) : Prop := ∃ t, exec c s = .next t ∧
      PortServes { m with notices := m.notices.post (s.doneNotice a why extra) } t
    let moves (c : Instr) (m : State) (u : UnitIx) (op : BoltOp) (urgency : Urgency) : Prop :=
      ∃ x t, exec c s = .next t ∧ MovesOn m x u op urgency ∧
        PortServes { x with notices := x.notices.post (s.doneNotice a .ok 0) } t
    let s0 := s.accepted none
    (∀ c, (c, a.code) ∈ [(Instr.releaseUnit, 1), (.openUnit, 3), (.setOutOfService, 4), (.returnToService, 5),
        (.clearFault, 6), (.extendCabin, 7)] → a.passes s = false → ends c s0 .badArgument 0) ∧
    (∀ u, a = .setOutOfService u → a.passes s = true →
      let r := s.unit u
      let idle : Prop := s.inHand u = false ∧ r.suspended = false
      (r.holder ≠ none → ends .setOutOfService s0 .held 0) ∧
      (r.holder = none → r.state = .free → ¬idle → ends .setOutOfService s0 .busy 0) ∧
      (r.holder = none → r.state = .free → idle → ends .setOutOfService { s0 with
        units := put s.units u (r.enters (s.kind u) .outOfService)
        journal := if s.kind u = .locker then (handJournal s (.state u .outOfService)).journal else s.journal }
          .ok 0) ∧
      (r.holder = none → r.state = .outOfService → ends .setOutOfService s0 .ok 0) ∧
      (r.holder = none → r.state ≠ .free → r.state ≠ .outOfService → ends .setOutOfService s0 .notFree 0)) ∧
    (∀ u c, (a = .returnToService u ∧ c = .returnToService) ∨ (a = .clearFault u ∧ c = .clearFault) →
      a.passes s = true →
      let r := s.unit u
      let suits : Prop := r.state = .fault ∨ (r.state = .outOfService ∧ a = .returnToService u)
      let standing : Prop := s.kind u = .locker ∧ (r.stateRef ≠ none ∨ s.stateWaits u = true)
      let j (x : Journal) : Prop := (standing → x = (handJournal s (.state u .returned)).journal) ∧
        (¬standing → x = s.journal)
      (¬suits → ends c s0 (if a = .returnToService u then .notOutOfService else .notFaulted) 0) ∧
      (suits →
        ∃ m, j m.journal ∧ BandLeft s m.bands u (if s.kind u = .locker then none else r.holder) ∧
          m = { s0 with
            units := m.units, journal := m.journal, bands := m.bands
            notices := if s.kind u = .cabin ∧ r.holder ≠ none
              then s.notices.post (s.notice .released 9 (some u) r.holder r.boundAt) else s.notices } ∧
          (∀ v, v ≠ u → m.unit v = s.unit v) ∧ (m.unit u).suspended = false ∧
          (standing → (m.unit u).stateRef = none) ∧
          (r.holder = none → (m.unit u).state = .free ∧ (m.unit u).holder = none) ∧
          (r.holder ≠ none → s.kind u = .locker → (m.unit u).state = .held ∧ (m.unit u).holder = r.holder) ∧
          (r.holder ≠ none → s.kind u = .cabin → (m.unit u).state = .vacating ∧ (m.unit u).holder = none) ∧
          (m.unit u).lamp.steady = steadyLamp (s.kind u) (m.unit u).state ∧
          ((s.bank (bankOf u)).state ≠ .running ∨ s.inHand u = true → ends c m .ok 0) ∧
          ((s.bank (bankOf u)).state = .running → s.inHand u = false →
            let cell := s.cell u
            let as (st : UState) : State := { m with units := put m.units u ((m.unit u).enters (s.kind u) st) }
            (s.kind u = .locker → r.holder = none → if cell.bolt then moves c m u .withdraw .normal else ends c m .ok 0) ∧
            (s.kind u = .locker → r.holder ≠ none →
              (cell.door = false → ends c { as .forced with
                notices := m.notices.post (s.notice .doorForced 0 (some u) r.holder 0) } .ok 0) ∧
              (cell.door = true → cell.bolt = true → ends c m .ok 0) ∧
              (cell.door = true → cell.bolt = false → moves c (as .locking) u .throw .normal)) ∧
            (s.kind u = .cabin → r.holder ≠ none →
              if cell.bolt then moves c m u .withdraw .normal else ends c m .ok 0) ∧
            (s.kind u = .cabin → r.holder = none → s.levelEvac = false →
              if cell.bolt then ends c m .ok 0 else moves c m u .throw .normal) ∧
            (s.kind u = .cabin → r.holder = none → s.levelEvac = true →
              if cell.bolt then moves c (as .evacOpen) u .withdraw .urgent else ends c (as .evacOpen) .ok 0)))) ∧
    (∀ u minutes, a = .extendCabin u minutes → a.passes s = true →
      let r := s.unit u
      let inside : Prop := r.state = .inUse ∨ r.state = .expired
      let old := r.expiry.getD 0
      let new := min (max old s.clock.sec + 60 * minutes) (r.boundAt + 7200)
      let stored := min new 4294967295
      let z := s.tables.zones.get (s.zone u)
      let warning := if 1 ≤ z.warningLead ∧ s.clock.sec < stored - z.warningLead then some (stored - z.warningLead)
        else none
      (¬inside → ends .extendCabin s0 .notHeld 0) ∧
      (inside → new ≤ old ∨ new ≤ s.clock.sec → ends .extendCabin s0 .capped old) ∧
      (inside → old < new → s.clock.sec < new → ends .extendCabin { s0 with
        units := put s.units u { (r.enters (s.kind u) .inUse) with
          expiry := some stored, warningAt := warning, graceEnd := some (min (stored + z.grace) 4294967295)
          overstay := false }
        timers := match warning with
          | some w => setTimer s.timers u .warning w
          | none => setTimer s.timers u .expiry stored } .ok stored)) ∧
    (∀ b on, a = .bankCleaning b on → ends .bankCleaning { s0 with engine := { s0.engine with
      cleaning := put s.engine.cleaning b on } } .ok 0) ∧
    (∀ b, a = .blockBand b →
      let known : Prop := b ∈ s.engine.overlay ∨ b ∈ s.tables.blocks
      (known → ends .blockBand s0 .ok 0) ∧
      (¬known → s.engine.overlay.length < 32 → ends .blockBand { s0 with engine := { s0.engine with
        overlay := s.engine.overlay ++ [b] } } .ok 0) ∧
      (¬known → 32 ≤ s.engine.overlay.length → ends .blockBand s0 .full 0))

/-- RELEASE_UNIT, RELEASE_BAND and OPEN_UNIT, their repeats and outcomes (R153 to R157, R162).
RELEASE_UNIT: a unit without a holder NOT_HELD, one in FAULT FAULT. A still locker in HELD, LOCKING or UNLOCKING, or in
FORCED or SERVICE_OPEN with its bolt thrown, goes to UNLOCKING for RELEASE with a watched WITHDRAW, where suspended with
none, which ends the action SUSPENDED; one AJAR, or FORCED or SERVICE_OPEN with its bolt withdrawn, is FREE at once.
UNLOCKING with a movement changes its purpose; it and any other locker with a movement is watched. An IN_USE or
EXPIRED cabin is released, an ADMITTING one watched, or where still it goes to VACATING without its holder.
OPEN_UNIT: BUSY where it cannot be opened now, OK where it stands open. A HELD, FORCED or FAULT locker, by bolt
and holder, goes to UNLOCKING for SERVICE with a watched WITHDRAW, or to SERVICE_OPEN with or without; one leaving
FAULT hands STATE RETURN over where a STATE stands; an AJAR one goes to SERVICE_OPEN. A FREE cabin goes to SERVICE_OPEN
with a watched WITHDRAW, one in FAULT loses its holder for ACTION and does so where its bolt is thrown.
RELEASE_BAND: NOT_HELD without entry, or the held list copied; each RELEASE_BAND_STEP is taken for the first unit due,
passed by where the band no longer holds it. ACTION_STEP_REPEAT takes a step again where its movement has left, in
its state then: a HELD locker is unlocked, an IN_USE cabin released, one in EVAC_OPEN closed and counted.
ACTION_OUTCOME records the outcome of a watched movement, ending the action once every unit has one. (No run
repeats OPEN_UNIT on a FREE cabin.)
The model's inferences: a movement whose report is not yet taken counts as in hand (log 13), RELEASE_BAND's acceptance takes
no step (log 39), a suspended locker freed, or IN_USE or EXPIRED cabin released, gives SUSPENDED (log 17), what
stands before a held event is read from R24 (log 15). Its choice: ACTION_STEP_REPEAT and ACTION_OUTCOME take the first
waiting unit in list order (log 42). -/
def Obligations.ReleasesAndOpenings : Prop :=
  (∀ (s : State) (a : Action), Acceptable s a → HoldingsOk s → a.passes s = true →
    let ends (c : Instr) (m : State) (why : Result) (extra : Nat) : Prop := ∃ t, exec c s = .next t ∧
      PortServes { m with notices := m.notices.post (s.doneNotice a why extra) } t
    let runs (u : UnitIx) (st : Stage) : State := s.accepted (some ⟨a, [⟨u, st⟩], 0⟩)
    let watches (c : Instr) (m : State) : Prop := ∃ t, exec c s = .next t ∧ PortServes m t
    let movesFrom (c : Instr) (u : UnitIx) (m0 : State) : Prop := ∃ m t, exec c s = .next t ∧ PortServes m t ∧
      MovesOn m0 m u .withdraw .normal
    let moves (c : Instr) (u : UnitIx) (x : UnitRec) : Prop :=
      movesFrom c u { runs u .watchHanded with units := put s.units u x }
    let s0 := s.accepted none
    (∀ u, a = .releaseUnit u →
      let r := s.unit u
      let unlocked : UnitRec := { (r.enters .locker .unlocking) with purpose := some (.release .action) }
      let result : Result := if r.suspended then .suspended else .ok
      let unlocks : Prop := (r.suspended = false → moves .releaseUnit u unlocked) ∧
        (r.suspended = true → ends .releaseUnit { s0 with units := put s.units u unlocked } .suspended 0)
      let frees : Prop := ∃ m, LockerReleased { s0 with timers := s.timers.filter fun e => e.unit ≠ u } m u .action ∧
        ends .releaseUnit m result 0
      (r.holder = none → ends .releaseUnit s0 .notHeld 0) ∧
      (r.holder ≠ none → r.state = .fault → ends .releaseUnit s0 .fault 0) ∧
      (r.holder ≠ none → s.kind u = .locker → s.inHand u = false →
        (r.state = .held ∨ r.state = .locking ∨ r.state = .unlocking → unlocks) ∧
        (r.state = .forced ∨ r.state = .serviceOpen → if (s.cell u).bolt then unlocks else frees) ∧
        (r.state = .ajar → frees)) ∧
      (r.holder ≠ none → s.kind u = .locker → s.inHand u = true →
        (r.state = .unlocking → watches .releaseUnit { runs u .watchHanded with
          units := put s.units u { r with purpose := some (.release .action) } }) ∧
        (r.state = .locking ∨ r.state = .held ∨ r.state = .ajar ∨ r.state = .forced ∨ r.state = .serviceOpen →
          watches .releaseUnit (runs u .watchFinish))) ∧
      (r.holder ≠ none → s.kind u = .cabin → r.state = .admitting →
        (s.inHand u = true → watches .releaseUnit (runs u .watchFinish)) ∧
        (s.inHand u = false → ∃ l, BandLeft s l u r.holder ∧ ends .releaseUnit { s0 with
          bands := l
          units := put s.units u (r.unheld.enters .cabin .vacating)
          notices := s.notices.post (s.notice .released Reason.action.code (some u) r.holder r.boundAt) } .ok 0)) ∧
      (r.holder ≠ none → s.kind u = .cabin → r.state = .inUse ∨ r.state = .expired →
        ∃ m, CabinReleased s0 m u .action r.suspended ∧ ends .releaseUnit m result 0)) ∧
    (∀ u, a = .openUnit u →
      let r := s.unit u
      let bolt := (s.cell u).bolt
      let busy : Prop := s.inHand u = true ∨ r.suspended = true ∨ r.state = .locking ∨ r.state = .unlocking ∨
        r.state = .admitting ∨ r.state = .closing
      let standing : Bool := r.state = .fault && (r.stateRef.isSome || s.stateWaits u)
      let x : UnitRec := if standing then { r with stateRef := none } else r
      let left (m : State) : State := { m with
        journal := if standing then (handJournal s (.state u .returned)).journal else s.journal }
      let opened : UnitRec := x.enters .locker .serviceOpen
      (busy → ends .openUnit s0 .busy 0) ∧
      (¬busy → s.kind u = .locker → r.state = .free ∨ r.state = .serviceOpen → ends .openUnit s0 .ok 0) ∧
      (¬busy → s.kind u = .cabin → r.state = .inUse ∨ r.state = .expired ∨ r.state = .vacating ∨
        r.state = .serviceOpen ∨ r.state = .evacOpen → ends .openUnit s0 .ok 0) ∧
      (¬busy → s.kind u = .locker → r.state = .ajar → ends .openUnit { s0 with
        units := put s.units u opened, timers := s.timers.filter fun e => e.unit ≠ u } .ok 0) ∧
      (¬busy → s.kind u = .locker → r.state = .held ∨ r.state = .forced ∨ r.state = .fault →
        (bolt = false → ends .openUnit (left { s0 with units := put s.units u opened }) .ok 0) ∧
        (bolt = true → r.holder = none →
          movesFrom .openUnit u (left { runs u .watchHanded with units := put s.units u opened })) ∧
        (bolt = true → r.holder ≠ none → movesFrom .openUnit u (left { runs u .watchHanded with
          units := put s.units u { (x.enters .locker .unlocking) with purpose := some .service } }))) ∧
      (¬busy → s.kind u = .cabin → r.state = .free → moves .openUnit u (r.enters .cabin .serviceOpen)) ∧
      (¬busy → s.kind u = .cabin → r.state = .fault → ∃ l, BandLeft s l u r.holder ∧
        let y : UnitRec := (if r.holder.isSome then r.unheld else r).enters .cabin .serviceOpen
        let m (n : State) : State := { n with
          bands := l, units := put s.units u y
          notices := if r.holder.isSome
            then s.notices.post (s.notice .released Reason.action.code (some u) r.holder r.boundAt) else s.notices }
        (bolt = false → ends .openUnit (m s0) .ok 0) ∧
        (bolt = true → movesFrom .openUnit u (m (runs u .watchHanded)))) ∧
      (¬busy → r.state = .outOfService → bolt = false → ends .openUnit s0 .ok 0) ∧
      (¬busy → r.state = .outOfService → bolt = true → moves .openUnit u r)) ∧
    (∀ b, a = .releaseBand b →
      (bandEntry s.bands b = none → ends .releaseBand s0 .notHeld 0) ∧
      (∀ e, bandEntry s.bands b = some e →
        watches .releaseBand (s.accepted (some ⟨a, e.held.map fun u => ⟨u, .due⟩, 0⟩))))) ∧
  ∀ (s : State) (r : Running), Taking s → s.engine.runningSlot = some r → (r.items.map (·.unit)).Nodup →
    let entered (u : UnitIx) (st : Stage) : Running :=
      { r with items := r.items.map fun i => if i.unit = u then ⟨u, st⟩ else i }
    let goesOn (x : Running) : Prop := ∃ i ∈ x.items, ∀ y, i.stage ≠ .done y
    let ended (x : Running) (y : Result) : State := { s with
      engine := { s.engine with runningSlot := none }
      notices := s.notices.post (s.doneNotice r.action y (match r.action with
        | .releaseBand _ | .clearEvacuation => x.count | _ => 0)) }
    let runs (x : Running) : State := { s with engine := { s.engine with runningSlot := some x } }
    let released (u : UnitIx) : Prop := r.action = .releaseUnit u ∨
      ∃ b, r.action = .releaseBand b ∧ (s.unit u).holder = some b
    let stepped (c : Instr) (u : UnitIx) (m : State) : Prop := ∃ t, exec c s = .next t ∧
      KeepsHeld s t (.step u) ∧ PortServes (m.holding t) t
    let moves (c : Instr) (u : UnitIx) (m0 : State) (op : BoltOp) : Prop := ∃ m t, exec c s = .next t ∧
      KeepsHeld s t (.step u) ∧ PortServes m t ∧ MovesOn (m0.holding t) m u op .normal
    let unlocks (c : Instr) (u : UnitIx) : Prop := moves c u { runs (entered u .watchHanded) with
      units := put s.units u { ((s.unit u).enters .locker .unlocking) with purpose := some (.release .action) } }
      .withdraw
    let held (u : UnitIx) : Prop := s.kind u = .locker ∧ (s.unit u).holder ≠ none ∧ (s.unit u).state = .held ∧
      s.inHand u = false ∧ (s.unit u).suspended = false
    (∀ b u before behind, r.action = .releaseBand b → r.items = before ++ ⟨u, .due⟩ :: behind →
      (∀ i ∈ before, i.stage ≠ .due) →
      ((s.unit u).holder ≠ some b → goesOn (entered u (.done .notHeld)) →
        stepped .releaseBandStep u (runs (entered u (.done .notHeld)))) ∧
      ((s.unit u).holder = some b → held u → unlocks .releaseBandStep u)) ∧
    (∀ u before behind, r.items = before ++ ⟨u, .again⟩ :: behind → (∀ i ∈ before, i.stage ≠ .again) →
      (released u → held u → unlocks .actionStepRepeat u) ∧
      (r.action = .releaseUnit u → r.items = [⟨u, .again⟩] → HoldingsOk s → s.kind u = .cabin →
        (s.unit u).holder ≠ none → (s.unit u).state = .inUse ∨ (s.unit u).state = .expired →
        let y : Result := if (s.unit u).suspended then .suspended else .ok
        ∃ m t, exec .actionStepRepeat s = .next t ∧ KeepsHeld s t (.step u) ∧
          CabinReleased ({ s with engine := { s.engine with runningSlot := none } }.holding t) m u .action
            (s.unit u).suspended ∧
          PortServes { m with notices := m.notices.post (s.doneNotice r.action y 0) } t) ∧
      (r.action = .clearEvacuation → s.kind u = .cabin → (s.unit u).state = .evacOpen → s.inHand u = false →
        (s.unit u).suspended = false → goesOn (entered u (.done .ok)) →
        moves .actionStepRepeat u { runs { entered u (.done .ok) with count := r.count + 1 } with
          units := put s.units u ((s.unit u).enters .cabin .closing) } .throw) ∧
      (r.action = .openUnit u → s.kind u = .cabin → (s.unit u).state = .free → s.inHand u = false →
        (s.unit u).suspended = false →
        moves .actionStepRepeat u { runs (entered u .watchHanded) with
          units := put s.units u ((s.unit u).enters .cabin .serviceOpen) } .withdraw) ∧
      (∀ b, r.action = .releaseBand b → (s.unit u).holder ≠ some b → goesOn (entered u (.done .notHeld)) →
        stepped .actionStepRepeat u (runs (entered u (.done .notHeld))))) ∧
    (∀ u y before behind, r.items = before ++ ⟨u, .outcome y⟩ :: behind →
      (∀ i ∈ before, ∀ z, i.stage ≠ .outcome z) →
      let x := entered u (.done y)
      (goesOn x → exec .actionOutcome s = .next (runs x)) ∧
      (¬goesOn x → ∀ v, (r.action = .releaseUnit v ∨ r.action = .openUnit v) → r.items = [⟨u, .outcome y⟩] →
        exec .actionOutcome s = .next (ended x y)) ∧
      (¬goesOn x → ∀ b, r.action = .releaseBand b →
        exec .actionOutcome s = .next (ended x (
          if ∃ i ∈ x.items, i.stage = .done .fault then .fault
          else if ∃ i ∈ x.items, i.stage = .done .suspended then .suspended else .ok))))

/-- RELOAD_TABLES, RESET_BANK and CLEAR_EVACUATION (R14, R107, R109, R111, R150, R161, R162, R184). An accepted
RELOAD_TABLES begins a load and runs until it ends. RESET_BANK of an ABSENT bank ends OK at once; of any other it puts
the bank into RESETTING, with its nodes in reset and its tap memory cleared, its actuations removed or detached, and
runs until the controller's report, whose state, fault code and count RESET_BANK_DONE gives in the extra word.
A bank that was RUNNING, or has movements left, loses them with a report (R48, R84).
CLEAR_EVACUATION: every OPEN follow-up entry goes (R177), and then NOT_ACTIVE in LEVEL mode or with no cabin in
EVAC_OPEN,
else those cabins are listed. Each step closes one EVAC_OPEN cabin that is still, silently where it is suspended, and
counts it, and the last ends the action with OK and the count.
That OPEN entries go in both modes (log 19), that CLEAR_EVACUATION takes no step in the event of its acceptance (log 39),
and that a cabin with only a report waiting is not still but is watched (log 13), are the model's inferences; that the
oldest reset report is the one taken is its choice (log 42). -/
def Obligations.ReloadResetAndClear : Prop :=
  (∀ (s : State) (a : Action), Acceptable s a →
    let ends (c : Instr) (m : State) (why : Result) (extra : Nat) : Prop := ∃ t, exec c s = .next t ∧
      PortServes { m with notices := m.notices.post (s.doneNotice a why extra) } t
    let runs : State := s.accepted (some ⟨a, [], 0⟩)
    (a = .reloadTables → ∃ t, exec .reloadTables s = .next t ∧ PortServes { runs with load := some .reload, loadLate := [] } t) ∧
    (∀ b, a = .resetBank b → (s.bank b).state = .absent → ends .resetBank (s.accepted none) .ok 1) ∧
    (∀ b, a = .resetBank b → (s.bank b).state ≠ .absent →
      ∃ m t, exec .resetBank s = .next t ∧ PortServes m t ∧
        m = { runs with
          units := m.units, drive := m.drive, engine := { runs.engine with inbox := m.engine.inbox }
          banks := m.banks, chains := m.chains, tapMemory := m.tapMemory } ∧
        OthersKept s m [] ∧ (∀ d, d ≠ b → m.bank d = s.bank d ∧ m.chain d = s.chain d) ∧
        (m.bank b).state = .resetting ∧ (m.bank b).activity = .idle ∧ (m.bank b).owed = none ∧
        (m.bank b).resetAt = s.clock.ms ∧ (m.bank b).granted = [] ∧
        (m.bank b).release = (s.bank b).release + (s.bank b).granted.length ∧ m.rstHeld b = true ∧
        (∀ n ∈ m.chain b, n.phase = .rest ∧ n.mode = .ident ∧ n.pulse = none ∧ n.pulseFrom = none ∧
          n.tapPend = false) ∧
        (∀ u, m.tapMemory.get u = if bankOf u = b then ⟨none, none, none⟩ else s.tapMemory.get u) ∧
        BankLoses s m b ∧
        ((s.bank b).state ≠ .running → s.bankMoves b = false → m.engine.inbox = s.engine.inbox)) ∧
    (a = .clearEvacuation →
      let cabins := allUnits.filter fun u => s.kind u = .cabin ∧ (s.unit u).state = .evacOpen
      let cut (m : State) : State := { m with engine := { m.engine with
        follow := s.engine.follow.filter fun e => e.2 = .toClose } }
      (s.tables.options.evacMode = .level → ends .clearEvacuation (cut (s.accepted none)) .notActive 0) ∧
      (s.tables.options.evacMode = .edge → cabins = [] →
        ends .clearEvacuation (cut (s.accepted none)) .notActive 0) ∧
      (s.tables.options.evacMode = .edge → cabins ≠ [] → ∃ t, exec .clearEvacuation s = .next t ∧
        PortServes (cut (s.accepted (some ⟨a, cabins.map fun u => ⟨u, .due⟩, 0⟩))) t))) ∧
  (∀ (s : State) (b : BankIx) (items : List Item) (n : Nat) (before behind : List EngEvent) (st : BankState)
      (code : Option FaultCode) (count : Nat),
    Taking s → s.engine.runningSlot = some ⟨.resetBank b, items, n⟩ →
    s.engine.inbox = before ++ .resetDone b st code count :: behind → (∀ e ∈ before, e.isResetDone b = false) →
    exec .resetBankDone s = .next { s.took (before ++ behind) none with
      notices := s.notices.post (s.doneNotice (.resetBank b) .ok
        (st.code + ((code.map FaultCode.code).getD 0) * 256 + count * 65536)) }) ∧
  ∀ (s : State) (u : UnitIx) (before behind : List Item) (n : Nat), Taking s →
    s.engine.runningSlot = some ⟨.clearEvacuation, before ++ ⟨u, .due⟩ :: behind, n⟩ →
    (∀ i ∈ before ++ behind, i.unit ≠ u) → (∀ i ∈ before, i.stage ≠ .due) → s.kind u = .cabin →
    let r := s.unit u
    let last : Prop := ∀ i ∈ before ++ behind, ∃ y, i.stage = .done y
    let after' (st : Stage) (k : Nat) : State :=
      { s with engine := { s.engine with runningSlot := some ⟨.clearEvacuation, before ++ ⟨u, st⟩ :: behind, k⟩ } }
    let ended (m : State) (k : Nat) : State := { m with
      engine := { m.engine with runningSlot := none }
      notices := s.notices.post (s.doneNotice .clearEvacuation .ok k) }
    let closing (m : State) : State := { m with units := put s.units u (r.enters .cabin .closing) }
    (r.state = .evacOpen → s.inHand u = true →
      exec .clearEvacuationStep s = .next (after' .watchFinish n)) ∧
    (r.state = .evacOpen → s.inHand u = false → r.suspended = true →
      (¬last → exec .clearEvacuationStep s = .next (closing (after' (.done .ok) (n + 1)))) ∧
      (last → exec .clearEvacuationStep s = .next (closing (ended s (n + 1))))) ∧
    (r.state = .evacOpen → s.inHand u = false → r.suspended = false → ∃ t, exec .clearEvacuationStep s = .next t ∧
      (¬last → MovesOn (closing (after' (.done .ok) (n + 1))) t u .throw .normal) ∧
      (last → MovesOn (closing (ended s (n + 1))) t u .throw .normal)) ∧
    (r.state ≠ .evacOpen →
      (¬last → exec .clearEvacuationStep s = .next (after' (.done .ok) n)) ∧
      (last → exec .clearEvacuationStep s = .next (ended s n)))
end

