-- ==== Sys2Proof/Laws/State.lean ====
section
/-! SUPPORT. What each update of the state leaves and sets: one lemma for each field of each update. -/

namespace Sys2Proof.Machine

variable (s : State)

/-! ### State.setUnit -/

@[simp] theorem setUnit_supply (u : UnitIx) (r : UnitRec) : (s.setUnit u r).supply = s.supply := rfl
@[simp] theorem setUnit_startUp (u : UnitIx) (r : UnitRec) : (s.setUnit u r).startUp = s.startUp := rfl
@[simp] theorem setUnit_restart (u : UnitIx) (r : UnitRec) : (s.setUnit u r).restart = s.restart := rfl
@[simp] theorem setUnit_clock (u : UnitIx) (r : UnitRec) : (s.setUnit u r).clock = s.clock := rfl
@[simp] theorem setUnit_inputs (u : UnitIx) (r : UnitRec) : (s.setUnit u r).inputs = s.inputs := rfl
@[simp] theorem setUnit_line (u : UnitIx) (r : UnitRec) : (s.setUnit u r).line = s.line := rfl
@[simp] theorem setUnit_notices (u : UnitIx) (r : UnitRec) : (s.setUnit u r).notices = s.notices := rfl
@[simp] theorem setUnit_tables (u : UnitIx) (r : UnitRec) : (s.setUnit u r).tables = s.tables := rfl
@[simp] theorem setUnit_summary (u : UnitIx) (r : UnitRec) : (s.setUnit u r).summary = s.summary := rfl
@[simp] theorem setUnit_load (u : UnitIx) (r : UnitRec) : (s.setUnit u r).load = s.load := rfl
@[simp] theorem setUnit_loadLate (u : UnitIx) (r : UnitRec) : (s.setUnit u r).loadLate = s.loadLate := rfl
@[simp] theorem setUnit_units (u : UnitIx) (r : UnitRec) : (s.setUnit u r).units = put s.units u r := rfl
@[simp] theorem setUnit_bands (u : UnitIx) (r : UnitRec) : (s.setUnit u r).bands = s.bands := rfl
@[simp] theorem setUnit_timers (u : UnitIx) (r : UnitRec) : (s.setUnit u r).timers = s.timers := rfl
@[simp] theorem setUnit_engine (u : UnitIx) (r : UnitRec) : (s.setUnit u r).engine = s.engine := rfl
@[simp] theorem setUnit_drive (u : UnitIx) (r : UnitRec) : (s.setUnit u r).drive = s.drive := rfl
@[simp] theorem setUnit_banks (u : UnitIx) (r : UnitRec) : (s.setUnit u r).banks = s.banks := rfl
@[simp] theorem setUnit_observed (u : UnitIx) (r : UnitRec) : (s.setUnit u r).observed = s.observed := rfl
@[simp] theorem setUnit_identities (u : UnitIx) (r : UnitRec) : (s.setUnit u r).identities = s.identities := rfl
@[simp] theorem setUnit_tapMemory (u : UnitIx) (r : UnitRec) : (s.setUnit u r).tapMemory = s.tapMemory := rfl
@[simp] theorem setUnit_taps (u : UnitIx) (r : UnitRec) : (s.setUnit u r).taps = s.taps := rfl
@[simp] theorem setUnit_journal (u : UnitIx) (r : UnitRec) : (s.setUnit u r).journal = s.journal := rfl
@[simp] theorem setUnit_store (u : UnitIx) (r : UnitRec) : (s.setUnit u r).store = s.store := rfl
@[simp] theorem setUnit_port (u : UnitIx) (r : UnitRec) : (s.setUnit u r).port = s.port := rfl
@[simp] theorem setUnit_mgmt (u : UnitIx) (r : UnitRec) : (s.setUnit u r).mgmt = s.mgmt := rfl
@[simp] theorem setUnit_chains (u : UnitIx) (r : UnitRec) : (s.setUnit u r).chains = s.chains := rfl
@[simp] theorem setUnit_freeNext (u : UnitIx) (r : UnitRec) : (s.setUnit u r).freeNext = s.freeNext := rfl
@[simp] theorem setUnit_pending (u : UnitIx) (r : UnitRec) : (s.setUnit u r).pending = s.pending := rfl

/-! ### State.setBank -/

@[simp] theorem setBank_supply (b : BankIx) (k : Bank) : (s.setBank b k).supply = s.supply := rfl
@[simp] theorem setBank_startUp (b : BankIx) (k : Bank) : (s.setBank b k).startUp = s.startUp := rfl
@[simp] theorem setBank_restart (b : BankIx) (k : Bank) : (s.setBank b k).restart = s.restart := rfl
@[simp] theorem setBank_clock (b : BankIx) (k : Bank) : (s.setBank b k).clock = s.clock := rfl
@[simp] theorem setBank_inputs (b : BankIx) (k : Bank) : (s.setBank b k).inputs = s.inputs := rfl
@[simp] theorem setBank_line (b : BankIx) (k : Bank) : (s.setBank b k).line = s.line := rfl
@[simp] theorem setBank_notices (b : BankIx) (k : Bank) : (s.setBank b k).notices = s.notices := rfl
@[simp] theorem setBank_tables (b : BankIx) (k : Bank) : (s.setBank b k).tables = s.tables := rfl
@[simp] theorem setBank_summary (b : BankIx) (k : Bank) : (s.setBank b k).summary = s.summary := rfl
@[simp] theorem setBank_load (b : BankIx) (k : Bank) : (s.setBank b k).load = s.load := rfl
@[simp] theorem setBank_loadLate (b : BankIx) (k : Bank) : (s.setBank b k).loadLate = s.loadLate := rfl
@[simp] theorem setBank_units (b : BankIx) (k : Bank) : (s.setBank b k).units = s.units := rfl
@[simp] theorem setBank_bands (b : BankIx) (k : Bank) : (s.setBank b k).bands = s.bands := rfl
@[simp] theorem setBank_timers (b : BankIx) (k : Bank) : (s.setBank b k).timers = s.timers := rfl
@[simp] theorem setBank_engine (b : BankIx) (k : Bank) : (s.setBank b k).engine = s.engine := rfl
@[simp] theorem setBank_drive (b : BankIx) (k : Bank) : (s.setBank b k).drive = s.drive := rfl
@[simp] theorem setBank_banks (b : BankIx) (k : Bank) : (s.setBank b k).banks = put s.banks b k := rfl
@[simp] theorem setBank_observed (b : BankIx) (k : Bank) : (s.setBank b k).observed = s.observed := rfl
@[simp] theorem setBank_identities (b : BankIx) (k : Bank) : (s.setBank b k).identities = s.identities := rfl
@[simp] theorem setBank_tapMemory (b : BankIx) (k : Bank) : (s.setBank b k).tapMemory = s.tapMemory := rfl
@[simp] theorem setBank_taps (b : BankIx) (k : Bank) : (s.setBank b k).taps = s.taps := rfl
@[simp] theorem setBank_journal (b : BankIx) (k : Bank) : (s.setBank b k).journal = s.journal := rfl
@[simp] theorem setBank_store (b : BankIx) (k : Bank) : (s.setBank b k).store = s.store := rfl
@[simp] theorem setBank_port (b : BankIx) (k : Bank) : (s.setBank b k).port = s.port := rfl
@[simp] theorem setBank_mgmt (b : BankIx) (k : Bank) : (s.setBank b k).mgmt = s.mgmt := rfl
@[simp] theorem setBank_chains (b : BankIx) (k : Bank) : (s.setBank b k).chains = s.chains := rfl
@[simp] theorem setBank_freeNext (b : BankIx) (k : Bank) : (s.setBank b k).freeNext = s.freeNext := rfl
@[simp] theorem setBank_pending (b : BankIx) (k : Bank) : (s.setBank b k).pending = s.pending := rfl

/-! ### State.setChain -/

@[simp] theorem setChain_supply (b : BankIx) (ns : List Node) : (s.setChain b ns).supply = s.supply := rfl
@[simp] theorem setChain_startUp (b : BankIx) (ns : List Node) : (s.setChain b ns).startUp = s.startUp := rfl
@[simp] theorem setChain_restart (b : BankIx) (ns : List Node) : (s.setChain b ns).restart = s.restart := rfl
@[simp] theorem setChain_clock (b : BankIx) (ns : List Node) : (s.setChain b ns).clock = s.clock := rfl
@[simp] theorem setChain_inputs (b : BankIx) (ns : List Node) : (s.setChain b ns).inputs = s.inputs := rfl
@[simp] theorem setChain_line (b : BankIx) (ns : List Node) : (s.setChain b ns).line = s.line := rfl
@[simp] theorem setChain_notices (b : BankIx) (ns : List Node) : (s.setChain b ns).notices = s.notices := rfl
@[simp] theorem setChain_tables (b : BankIx) (ns : List Node) : (s.setChain b ns).tables = s.tables := rfl
@[simp] theorem setChain_summary (b : BankIx) (ns : List Node) : (s.setChain b ns).summary = s.summary := rfl
@[simp] theorem setChain_load (b : BankIx) (ns : List Node) : (s.setChain b ns).load = s.load := rfl
@[simp] theorem setChain_loadLate (b : BankIx) (ns : List Node) : (s.setChain b ns).loadLate = s.loadLate := rfl
@[simp] theorem setChain_units (b : BankIx) (ns : List Node) : (s.setChain b ns).units = s.units := rfl
@[simp] theorem setChain_bands (b : BankIx) (ns : List Node) : (s.setChain b ns).bands = s.bands := rfl
@[simp] theorem setChain_timers (b : BankIx) (ns : List Node) : (s.setChain b ns).timers = s.timers := rfl
@[simp] theorem setChain_engine (b : BankIx) (ns : List Node) : (s.setChain b ns).engine = s.engine := rfl
@[simp] theorem setChain_drive (b : BankIx) (ns : List Node) : (s.setChain b ns).drive = s.drive := rfl
@[simp] theorem setChain_banks (b : BankIx) (ns : List Node) : (s.setChain b ns).banks = s.banks := rfl
@[simp] theorem setChain_observed (b : BankIx) (ns : List Node) : (s.setChain b ns).observed = s.observed := rfl
@[simp] theorem setChain_identities (b : BankIx) (ns : List Node) : (s.setChain b ns).identities = s.identities := rfl
@[simp] theorem setChain_tapMemory (b : BankIx) (ns : List Node) : (s.setChain b ns).tapMemory = s.tapMemory := rfl
@[simp] theorem setChain_taps (b : BankIx) (ns : List Node) : (s.setChain b ns).taps = s.taps := rfl
@[simp] theorem setChain_journal (b : BankIx) (ns : List Node) : (s.setChain b ns).journal = s.journal := rfl
@[simp] theorem setChain_store (b : BankIx) (ns : List Node) : (s.setChain b ns).store = s.store := rfl
@[simp] theorem setChain_port (b : BankIx) (ns : List Node) : (s.setChain b ns).port = s.port := rfl
@[simp] theorem setChain_mgmt (b : BankIx) (ns : List Node) : (s.setChain b ns).mgmt = s.mgmt := rfl
@[simp] theorem setChain_chains (b : BankIx) (ns : List Node) : (s.setChain b ns).chains = put s.chains b ns := rfl
@[simp] theorem setChain_freeNext (b : BankIx) (ns : List Node) : (s.setChain b ns).freeNext = s.freeNext := rfl
@[simp] theorem setChain_pending (b : BankIx) (ns : List Node) : (s.setChain b ns).pending = s.pending := rfl

/-! ### State.noTimer -/

@[simp] theorem noTimer_supply (u : UnitIx) : (s.noTimer u).supply = s.supply := rfl
@[simp] theorem noTimer_startUp (u : UnitIx) : (s.noTimer u).startUp = s.startUp := rfl
@[simp] theorem noTimer_restart (u : UnitIx) : (s.noTimer u).restart = s.restart := rfl
@[simp] theorem noTimer_clock (u : UnitIx) : (s.noTimer u).clock = s.clock := rfl
@[simp] theorem noTimer_inputs (u : UnitIx) : (s.noTimer u).inputs = s.inputs := rfl
@[simp] theorem noTimer_line (u : UnitIx) : (s.noTimer u).line = s.line := rfl
@[simp] theorem noTimer_notices (u : UnitIx) : (s.noTimer u).notices = s.notices := rfl
@[simp] theorem noTimer_tables (u : UnitIx) : (s.noTimer u).tables = s.tables := rfl
@[simp] theorem noTimer_summary (u : UnitIx) : (s.noTimer u).summary = s.summary := rfl
@[simp] theorem noTimer_load (u : UnitIx) : (s.noTimer u).load = s.load := rfl
@[simp] theorem noTimer_loadLate (u : UnitIx) : (s.noTimer u).loadLate = s.loadLate := rfl
@[simp] theorem noTimer_units (u : UnitIx) : (s.noTimer u).units = s.units := rfl
@[simp] theorem noTimer_bands (u : UnitIx) : (s.noTimer u).bands = s.bands := rfl
@[simp] theorem noTimer_timers (u : UnitIx) : (s.noTimer u).timers = dropTimer s.timers u := rfl
@[simp] theorem noTimer_engine (u : UnitIx) : (s.noTimer u).engine = s.engine := rfl
@[simp] theorem noTimer_drive (u : UnitIx) : (s.noTimer u).drive = s.drive := rfl
@[simp] theorem noTimer_banks (u : UnitIx) : (s.noTimer u).banks = s.banks := rfl
@[simp] theorem noTimer_observed (u : UnitIx) : (s.noTimer u).observed = s.observed := rfl
@[simp] theorem noTimer_identities (u : UnitIx) : (s.noTimer u).identities = s.identities := rfl
@[simp] theorem noTimer_tapMemory (u : UnitIx) : (s.noTimer u).tapMemory = s.tapMemory := rfl
@[simp] theorem noTimer_taps (u : UnitIx) : (s.noTimer u).taps = s.taps := rfl
@[simp] theorem noTimer_journal (u : UnitIx) : (s.noTimer u).journal = s.journal := rfl
@[simp] theorem noTimer_store (u : UnitIx) : (s.noTimer u).store = s.store := rfl
@[simp] theorem noTimer_port (u : UnitIx) : (s.noTimer u).port = s.port := rfl
@[simp] theorem noTimer_mgmt (u : UnitIx) : (s.noTimer u).mgmt = s.mgmt := rfl
@[simp] theorem noTimer_chains (u : UnitIx) : (s.noTimer u).chains = s.chains := rfl
@[simp] theorem noTimer_freeNext (u : UnitIx) : (s.noTimer u).freeNext = s.freeNext := rfl
@[simp] theorem noTimer_pending (u : UnitIx) : (s.noTimer u).pending = s.pending := rfl

/-! ### State.withTimer -/

@[simp] theorem withTimer_supply (u : UnitIx) (k : TimerKind) (d : Nat) : (s.withTimer u k d).supply = s.supply := rfl
@[simp] theorem withTimer_startUp (u : UnitIx) (k : TimerKind) (d : Nat) : (s.withTimer u k d).startUp = s.startUp := rfl
@[simp] theorem withTimer_restart (u : UnitIx) (k : TimerKind) (d : Nat) : (s.withTimer u k d).restart = s.restart := rfl
@[simp] theorem withTimer_clock (u : UnitIx) (k : TimerKind) (d : Nat) : (s.withTimer u k d).clock = s.clock := rfl
@[simp] theorem withTimer_inputs (u : UnitIx) (k : TimerKind) (d : Nat) : (s.withTimer u k d).inputs = s.inputs := rfl
@[simp] theorem withTimer_line (u : UnitIx) (k : TimerKind) (d : Nat) : (s.withTimer u k d).line = s.line := rfl
@[simp] theorem withTimer_notices (u : UnitIx) (k : TimerKind) (d : Nat) : (s.withTimer u k d).notices = s.notices := rfl
@[simp] theorem withTimer_tables (u : UnitIx) (k : TimerKind) (d : Nat) : (s.withTimer u k d).tables = s.tables := rfl
@[simp] theorem withTimer_summary (u : UnitIx) (k : TimerKind) (d : Nat) : (s.withTimer u k d).summary = s.summary := rfl
@[simp] theorem withTimer_load (u : UnitIx) (k : TimerKind) (d : Nat) : (s.withTimer u k d).load = s.load := rfl
@[simp] theorem withTimer_loadLate (u : UnitIx) (k : TimerKind) (d : Nat) : (s.withTimer u k d).loadLate = s.loadLate := rfl
@[simp] theorem withTimer_units (u : UnitIx) (k : TimerKind) (d : Nat) : (s.withTimer u k d).units = s.units := rfl
@[simp] theorem withTimer_bands (u : UnitIx) (k : TimerKind) (d : Nat) : (s.withTimer u k d).bands = s.bands := rfl
@[simp] theorem withTimer_timers (u : UnitIx) (k : TimerKind) (d : Nat) : (s.withTimer u k d).timers = setTimer s.timers u k d := rfl
@[simp] theorem withTimer_engine (u : UnitIx) (k : TimerKind) (d : Nat) : (s.withTimer u k d).engine = s.engine := rfl
@[simp] theorem withTimer_drive (u : UnitIx) (k : TimerKind) (d : Nat) : (s.withTimer u k d).drive = s.drive := rfl
@[simp] theorem withTimer_banks (u : UnitIx) (k : TimerKind) (d : Nat) : (s.withTimer u k d).banks = s.banks := rfl
@[simp] theorem withTimer_observed (u : UnitIx) (k : TimerKind) (d : Nat) : (s.withTimer u k d).observed = s.observed := rfl
@[simp] theorem withTimer_identities (u : UnitIx) (k : TimerKind) (d : Nat) : (s.withTimer u k d).identities = s.identities := rfl
@[simp] theorem withTimer_tapMemory (u : UnitIx) (k : TimerKind) (d : Nat) : (s.withTimer u k d).tapMemory = s.tapMemory := rfl
@[simp] theorem withTimer_taps (u : UnitIx) (k : TimerKind) (d : Nat) : (s.withTimer u k d).taps = s.taps := rfl
@[simp] theorem withTimer_journal (u : UnitIx) (k : TimerKind) (d : Nat) : (s.withTimer u k d).journal = s.journal := rfl
@[simp] theorem withTimer_store (u : UnitIx) (k : TimerKind) (d : Nat) : (s.withTimer u k d).store = s.store := rfl
@[simp] theorem withTimer_port (u : UnitIx) (k : TimerKind) (d : Nat) : (s.withTimer u k d).port = s.port := rfl
@[simp] theorem withTimer_mgmt (u : UnitIx) (k : TimerKind) (d : Nat) : (s.withTimer u k d).mgmt = s.mgmt := rfl
@[simp] theorem withTimer_chains (u : UnitIx) (k : TimerKind) (d : Nat) : (s.withTimer u k d).chains = s.chains := rfl
@[simp] theorem withTimer_freeNext (u : UnitIx) (k : TimerKind) (d : Nat) : (s.withTimer u k d).freeNext = s.freeNext := rfl
@[simp] theorem withTimer_pending (u : UnitIx) (k : TimerKind) (d : Nat) : (s.withTimer u k d).pending = s.pending := rfl

/-! ### State.hand -/

@[simp] theorem hand_supply (e : EngEvent) : (s.hand e).supply = s.supply := rfl
@[simp] theorem hand_startUp (e : EngEvent) : (s.hand e).startUp = s.startUp := rfl
@[simp] theorem hand_restart (e : EngEvent) : (s.hand e).restart = s.restart := rfl
@[simp] theorem hand_clock (e : EngEvent) : (s.hand e).clock = s.clock := rfl
@[simp] theorem hand_inputs (e : EngEvent) : (s.hand e).inputs = s.inputs := rfl
@[simp] theorem hand_line (e : EngEvent) : (s.hand e).line = s.line := rfl
@[simp] theorem hand_notices (e : EngEvent) : (s.hand e).notices = s.notices := rfl
@[simp] theorem hand_tables (e : EngEvent) : (s.hand e).tables = s.tables := rfl
@[simp] theorem hand_summary (e : EngEvent) : (s.hand e).summary = s.summary := rfl
@[simp] theorem hand_load (e : EngEvent) : (s.hand e).load = s.load := rfl
@[simp] theorem hand_loadLate (e : EngEvent) : (s.hand e).loadLate = s.loadLate := rfl
@[simp] theorem hand_units (e : EngEvent) : (s.hand e).units = s.units := rfl
@[simp] theorem hand_bands (e : EngEvent) : (s.hand e).bands = s.bands := rfl
@[simp] theorem hand_timers (e : EngEvent) : (s.hand e).timers = s.timers := rfl
@[simp] theorem hand_engine (e : EngEvent) : (s.hand e).engine = { s.engine with inbox := s.engine.inbox ++ [e] } := rfl
@[simp] theorem hand_drive (e : EngEvent) : (s.hand e).drive = s.drive := rfl
@[simp] theorem hand_banks (e : EngEvent) : (s.hand e).banks = s.banks := rfl
@[simp] theorem hand_observed (e : EngEvent) : (s.hand e).observed = s.observed := rfl
@[simp] theorem hand_identities (e : EngEvent) : (s.hand e).identities = s.identities := rfl
@[simp] theorem hand_tapMemory (e : EngEvent) : (s.hand e).tapMemory = s.tapMemory := rfl
@[simp] theorem hand_taps (e : EngEvent) : (s.hand e).taps = s.taps := rfl
@[simp] theorem hand_journal (e : EngEvent) : (s.hand e).journal = s.journal := rfl
@[simp] theorem hand_store (e : EngEvent) : (s.hand e).store = s.store := rfl
@[simp] theorem hand_port (e : EngEvent) : (s.hand e).port = s.port := rfl
@[simp] theorem hand_mgmt (e : EngEvent) : (s.hand e).mgmt = s.mgmt := rfl
@[simp] theorem hand_chains (e : EngEvent) : (s.hand e).chains = s.chains := rfl
@[simp] theorem hand_freeNext (e : EngEvent) : (s.hand e).freeNext = s.freeNext := rfl
@[simp] theorem hand_pending (e : EngEvent) : (s.hand e).pending = s.pending := rfl

/-! ### State.setInbox -/

@[simp] theorem setInbox_supply (l : List EngEvent) : (s.setInbox l).supply = s.supply := rfl
@[simp] theorem setInbox_startUp (l : List EngEvent) : (s.setInbox l).startUp = s.startUp := rfl
@[simp] theorem setInbox_restart (l : List EngEvent) : (s.setInbox l).restart = s.restart := rfl
@[simp] theorem setInbox_clock (l : List EngEvent) : (s.setInbox l).clock = s.clock := rfl
@[simp] theorem setInbox_inputs (l : List EngEvent) : (s.setInbox l).inputs = s.inputs := rfl
@[simp] theorem setInbox_line (l : List EngEvent) : (s.setInbox l).line = s.line := rfl
@[simp] theorem setInbox_notices (l : List EngEvent) : (s.setInbox l).notices = s.notices := rfl
@[simp] theorem setInbox_tables (l : List EngEvent) : (s.setInbox l).tables = s.tables := rfl
@[simp] theorem setInbox_summary (l : List EngEvent) : (s.setInbox l).summary = s.summary := rfl
@[simp] theorem setInbox_load (l : List EngEvent) : (s.setInbox l).load = s.load := rfl
@[simp] theorem setInbox_loadLate (l : List EngEvent) : (s.setInbox l).loadLate = s.loadLate := rfl
@[simp] theorem setInbox_units (l : List EngEvent) : (s.setInbox l).units = s.units := rfl
@[simp] theorem setInbox_bands (l : List EngEvent) : (s.setInbox l).bands = s.bands := rfl
@[simp] theorem setInbox_timers (l : List EngEvent) : (s.setInbox l).timers = s.timers := rfl
@[simp] theorem setInbox_engine (l : List EngEvent) : (s.setInbox l).engine = { s.engine with inbox := l } := rfl
@[simp] theorem setInbox_drive (l : List EngEvent) : (s.setInbox l).drive = s.drive := rfl
@[simp] theorem setInbox_banks (l : List EngEvent) : (s.setInbox l).banks = s.banks := rfl
@[simp] theorem setInbox_observed (l : List EngEvent) : (s.setInbox l).observed = s.observed := rfl
@[simp] theorem setInbox_identities (l : List EngEvent) : (s.setInbox l).identities = s.identities := rfl
@[simp] theorem setInbox_tapMemory (l : List EngEvent) : (s.setInbox l).tapMemory = s.tapMemory := rfl
@[simp] theorem setInbox_taps (l : List EngEvent) : (s.setInbox l).taps = s.taps := rfl
@[simp] theorem setInbox_journal (l : List EngEvent) : (s.setInbox l).journal = s.journal := rfl
@[simp] theorem setInbox_store (l : List EngEvent) : (s.setInbox l).store = s.store := rfl
@[simp] theorem setInbox_port (l : List EngEvent) : (s.setInbox l).port = s.port := rfl
@[simp] theorem setInbox_mgmt (l : List EngEvent) : (s.setInbox l).mgmt = s.mgmt := rfl
@[simp] theorem setInbox_chains (l : List EngEvent) : (s.setInbox l).chains = s.chains := rfl
@[simp] theorem setInbox_freeNext (l : List EngEvent) : (s.setInbox l).freeNext = s.freeNext := rfl
@[simp] theorem setInbox_pending (l : List EngEvent) : (s.setInbox l).pending = s.pending := rfl

/-! ### What noting the events that wait, held back and taken leaves and sets -/

@[simp] theorem noteArrivals_supply : s.noteArrivals.supply = s.supply := rfl
@[simp] theorem noteArrivals_startUp : s.noteArrivals.startUp = s.startUp := rfl
@[simp] theorem noteArrivals_restart : s.noteArrivals.restart = s.restart := rfl
@[simp] theorem noteArrivals_clock : s.noteArrivals.clock = s.clock := rfl
@[simp] theorem noteArrivals_inputs : s.noteArrivals.inputs = s.inputs := rfl
@[simp] theorem noteArrivals_line : s.noteArrivals.line = s.line := rfl
@[simp] theorem noteArrivals_notices : s.noteArrivals.notices = s.notices := rfl
@[simp] theorem noteArrivals_tables : s.noteArrivals.tables = s.tables := rfl
@[simp] theorem noteArrivals_summary : s.noteArrivals.summary = s.summary := rfl
@[simp] theorem noteArrivals_load : s.noteArrivals.load = s.load := rfl
@[simp] theorem noteArrivals_loadLate : s.noteArrivals.loadLate = s.loadLate := rfl
@[simp] theorem noteArrivals_units : s.noteArrivals.units = s.units := rfl
@[simp] theorem noteArrivals_bands : s.noteArrivals.bands = s.bands := rfl
@[simp] theorem noteArrivals_timers : s.noteArrivals.timers = s.timers := rfl
@[simp] theorem noteArrivals_engine : s.noteArrivals.engine = { s.engine with arrived := s.arrivals } := rfl
@[simp] theorem noteArrivals_drive : s.noteArrivals.drive = s.drive := rfl
@[simp] theorem noteArrivals_banks : s.noteArrivals.banks = s.banks := rfl
@[simp] theorem noteArrivals_observed : s.noteArrivals.observed = s.observed := rfl
@[simp] theorem noteArrivals_identities : s.noteArrivals.identities = s.identities := rfl
@[simp] theorem noteArrivals_tapMemory : s.noteArrivals.tapMemory = s.tapMemory := rfl
@[simp] theorem noteArrivals_taps : s.noteArrivals.taps = s.taps := rfl
@[simp] theorem noteArrivals_journal : s.noteArrivals.journal = s.journal := rfl
@[simp] theorem noteArrivals_store : s.noteArrivals.store = s.store := rfl
@[simp] theorem noteArrivals_port : s.noteArrivals.port = s.port := rfl
@[simp] theorem noteArrivals_mgmt : s.noteArrivals.mgmt = s.mgmt := rfl
@[simp] theorem noteArrivals_chains : s.noteArrivals.chains = s.chains := rfl
@[simp] theorem noteArrivals_freeNext : s.noteArrivals.freeNext = s.freeNext := rfl
@[simp] theorem noteArrivals_pending : s.noteArrivals.pending = s.pending := rfl
@[simp] theorem noteHeld_supply : s.noteHeld.supply = s.supply := rfl
@[simp] theorem noteHeld_startUp : s.noteHeld.startUp = s.startUp := rfl
@[simp] theorem noteHeld_restart : s.noteHeld.restart = s.restart := rfl
@[simp] theorem noteHeld_clock : s.noteHeld.clock = s.clock := rfl
@[simp] theorem noteHeld_inputs : s.noteHeld.inputs = s.inputs := rfl
@[simp] theorem noteHeld_line : s.noteHeld.line = s.line := rfl
@[simp] theorem noteHeld_notices : s.noteHeld.notices = s.notices := rfl
@[simp] theorem noteHeld_tables : s.noteHeld.tables = s.tables := rfl
@[simp] theorem noteHeld_summary : s.noteHeld.summary = s.summary := rfl
@[simp] theorem noteHeld_load : s.noteHeld.load = s.load := rfl
@[simp] theorem noteHeld_loadLate : s.noteHeld.loadLate = s.loadLate := rfl
@[simp] theorem noteHeld_units : s.noteHeld.units = s.units := rfl
@[simp] theorem noteHeld_bands : s.noteHeld.bands = s.bands := rfl
@[simp] theorem noteHeld_timers : s.noteHeld.timers = s.timers := rfl
@[simp] theorem noteHeld_engine : s.noteHeld.engine = { s.engine with held := s.heldNow } := rfl
@[simp] theorem noteHeld_drive : s.noteHeld.drive = s.drive := rfl
@[simp] theorem noteHeld_banks : s.noteHeld.banks = s.banks := rfl
@[simp] theorem noteHeld_observed : s.noteHeld.observed = s.observed := rfl
@[simp] theorem noteHeld_identities : s.noteHeld.identities = s.identities := rfl
@[simp] theorem noteHeld_tapMemory : s.noteHeld.tapMemory = s.tapMemory := rfl
@[simp] theorem noteHeld_taps : s.noteHeld.taps = s.taps := rfl
@[simp] theorem noteHeld_journal : s.noteHeld.journal = s.journal := rfl
@[simp] theorem noteHeld_store : s.noteHeld.store = s.store := rfl
@[simp] theorem noteHeld_port : s.noteHeld.port = s.port := rfl
@[simp] theorem noteHeld_mgmt : s.noteHeld.mgmt = s.mgmt := rfl
@[simp] theorem noteHeld_chains : s.noteHeld.chains = s.chains := rfl
@[simp] theorem noteHeld_freeNext : s.noteHeld.freeNext = s.freeNext := rfl
@[simp] theorem noteHeld_pending : s.noteHeld.pending = s.pending := rfl
@[simp] theorem unhold_supply (h : HeldEvent) : (s.unhold h).supply = s.supply := rfl
@[simp] theorem unhold_startUp (h : HeldEvent) : (s.unhold h).startUp = s.startUp := rfl
@[simp] theorem unhold_restart (h : HeldEvent) : (s.unhold h).restart = s.restart := rfl
@[simp] theorem unhold_clock (h : HeldEvent) : (s.unhold h).clock = s.clock := rfl
@[simp] theorem unhold_inputs (h : HeldEvent) : (s.unhold h).inputs = s.inputs := rfl
@[simp] theorem unhold_line (h : HeldEvent) : (s.unhold h).line = s.line := rfl
@[simp] theorem unhold_notices (h : HeldEvent) : (s.unhold h).notices = s.notices := rfl
@[simp] theorem unhold_tables (h : HeldEvent) : (s.unhold h).tables = s.tables := rfl
@[simp] theorem unhold_summary (h : HeldEvent) : (s.unhold h).summary = s.summary := rfl
@[simp] theorem unhold_load (h : HeldEvent) : (s.unhold h).load = s.load := rfl
@[simp] theorem unhold_loadLate (h : HeldEvent) : (s.unhold h).loadLate = s.loadLate := rfl
@[simp] theorem unhold_units (h : HeldEvent) : (s.unhold h).units = s.units := rfl
@[simp] theorem unhold_bands (h : HeldEvent) : (s.unhold h).bands = s.bands := rfl
@[simp] theorem unhold_timers (h : HeldEvent) : (s.unhold h).timers = s.timers := rfl
@[simp] theorem unhold_engine (h : HeldEvent) : (s.unhold h).engine = { s.engine with
    held := s.engine.held.filter (· ≠ h), arrived := s.engine.arrived.filter (· ≠ h) } := rfl
@[simp] theorem unhold_drive (h : HeldEvent) : (s.unhold h).drive = s.drive := rfl
@[simp] theorem unhold_banks (h : HeldEvent) : (s.unhold h).banks = s.banks := rfl
@[simp] theorem unhold_observed (h : HeldEvent) : (s.unhold h).observed = s.observed := rfl
@[simp] theorem unhold_identities (h : HeldEvent) : (s.unhold h).identities = s.identities := rfl
@[simp] theorem unhold_tapMemory (h : HeldEvent) : (s.unhold h).tapMemory = s.tapMemory := rfl
@[simp] theorem unhold_taps (h : HeldEvent) : (s.unhold h).taps = s.taps := rfl
@[simp] theorem unhold_journal (h : HeldEvent) : (s.unhold h).journal = s.journal := rfl
@[simp] theorem unhold_store (h : HeldEvent) : (s.unhold h).store = s.store := rfl
@[simp] theorem unhold_port (h : HeldEvent) : (s.unhold h).port = s.port := rfl
@[simp] theorem unhold_mgmt (h : HeldEvent) : (s.unhold h).mgmt = s.mgmt := rfl
@[simp] theorem unhold_chains (h : HeldEvent) : (s.unhold h).chains = s.chains := rfl
@[simp] theorem unhold_freeNext (h : HeldEvent) : (s.unhold h).freeNext = s.freeNext := rfl
@[simp] theorem unhold_pending (h : HeldEvent) : (s.unhold h).pending = s.pending := rfl

/-! ### State.setRunning -/

@[simp] theorem setRunning_supply (r : Option Running) : (s.setRunning r).supply = s.supply := rfl
@[simp] theorem setRunning_startUp (r : Option Running) : (s.setRunning r).startUp = s.startUp := rfl
@[simp] theorem setRunning_restart (r : Option Running) : (s.setRunning r).restart = s.restart := rfl
@[simp] theorem setRunning_clock (r : Option Running) : (s.setRunning r).clock = s.clock := rfl
@[simp] theorem setRunning_inputs (r : Option Running) : (s.setRunning r).inputs = s.inputs := rfl
@[simp] theorem setRunning_line (r : Option Running) : (s.setRunning r).line = s.line := rfl
@[simp] theorem setRunning_notices (r : Option Running) : (s.setRunning r).notices = s.notices := rfl
@[simp] theorem setRunning_tables (r : Option Running) : (s.setRunning r).tables = s.tables := rfl
@[simp] theorem setRunning_summary (r : Option Running) : (s.setRunning r).summary = s.summary := rfl
@[simp] theorem setRunning_load (r : Option Running) : (s.setRunning r).load = s.load := rfl
@[simp] theorem setRunning_loadLate (r : Option Running) : (s.setRunning r).loadLate = s.loadLate := rfl
@[simp] theorem setRunning_units (r : Option Running) : (s.setRunning r).units = s.units := rfl
@[simp] theorem setRunning_bands (r : Option Running) : (s.setRunning r).bands = s.bands := rfl
@[simp] theorem setRunning_timers (r : Option Running) : (s.setRunning r).timers = s.timers := rfl
@[simp] theorem setRunning_engine (r : Option Running) : (s.setRunning r).engine = { s.engine with runningSlot := r } := rfl
@[simp] theorem setRunning_drive (r : Option Running) : (s.setRunning r).drive = s.drive := rfl
@[simp] theorem setRunning_banks (r : Option Running) : (s.setRunning r).banks = s.banks := rfl
@[simp] theorem setRunning_observed (r : Option Running) : (s.setRunning r).observed = s.observed := rfl
@[simp] theorem setRunning_identities (r : Option Running) : (s.setRunning r).identities = s.identities := rfl
@[simp] theorem setRunning_tapMemory (r : Option Running) : (s.setRunning r).tapMemory = s.tapMemory := rfl
@[simp] theorem setRunning_taps (r : Option Running) : (s.setRunning r).taps = s.taps := rfl
@[simp] theorem setRunning_journal (r : Option Running) : (s.setRunning r).journal = s.journal := rfl
@[simp] theorem setRunning_store (r : Option Running) : (s.setRunning r).store = s.store := rfl
@[simp] theorem setRunning_port (r : Option Running) : (s.setRunning r).port = s.port := rfl
@[simp] theorem setRunning_mgmt (r : Option Running) : (s.setRunning r).mgmt = s.mgmt := rfl
@[simp] theorem setRunning_chains (r : Option Running) : (s.setRunning r).chains = s.chains := rfl
@[simp] theorem setRunning_freeNext (r : Option Running) : (s.setRunning r).freeNext = s.freeNext := rfl
@[simp] theorem setRunning_pending (r : Option Running) : (s.setRunning r).pending = s.pending := rfl

/-! ### State.setFollow -/

@[simp] theorem setFollow_supply (l : List (UnitIx × Follow)) : (s.setFollow l).supply = s.supply := rfl
@[simp] theorem setFollow_startUp (l : List (UnitIx × Follow)) : (s.setFollow l).startUp = s.startUp := rfl
@[simp] theorem setFollow_restart (l : List (UnitIx × Follow)) : (s.setFollow l).restart = s.restart := rfl
@[simp] theorem setFollow_clock (l : List (UnitIx × Follow)) : (s.setFollow l).clock = s.clock := rfl
@[simp] theorem setFollow_inputs (l : List (UnitIx × Follow)) : (s.setFollow l).inputs = s.inputs := rfl
@[simp] theorem setFollow_line (l : List (UnitIx × Follow)) : (s.setFollow l).line = s.line := rfl
@[simp] theorem setFollow_notices (l : List (UnitIx × Follow)) : (s.setFollow l).notices = s.notices := rfl
@[simp] theorem setFollow_tables (l : List (UnitIx × Follow)) : (s.setFollow l).tables = s.tables := rfl
@[simp] theorem setFollow_summary (l : List (UnitIx × Follow)) : (s.setFollow l).summary = s.summary := rfl
@[simp] theorem setFollow_load (l : List (UnitIx × Follow)) : (s.setFollow l).load = s.load := rfl
@[simp] theorem setFollow_loadLate (l : List (UnitIx × Follow)) : (s.setFollow l).loadLate = s.loadLate := rfl
@[simp] theorem setFollow_units (l : List (UnitIx × Follow)) : (s.setFollow l).units = s.units := rfl
@[simp] theorem setFollow_bands (l : List (UnitIx × Follow)) : (s.setFollow l).bands = s.bands := rfl
@[simp] theorem setFollow_timers (l : List (UnitIx × Follow)) : (s.setFollow l).timers = s.timers := rfl
@[simp] theorem setFollow_engine (l : List (UnitIx × Follow)) : (s.setFollow l).engine = { s.engine with follow := l } := rfl
@[simp] theorem setFollow_drive (l : List (UnitIx × Follow)) : (s.setFollow l).drive = s.drive := rfl
@[simp] theorem setFollow_banks (l : List (UnitIx × Follow)) : (s.setFollow l).banks = s.banks := rfl
@[simp] theorem setFollow_observed (l : List (UnitIx × Follow)) : (s.setFollow l).observed = s.observed := rfl
@[simp] theorem setFollow_identities (l : List (UnitIx × Follow)) : (s.setFollow l).identities = s.identities := rfl
@[simp] theorem setFollow_tapMemory (l : List (UnitIx × Follow)) : (s.setFollow l).tapMemory = s.tapMemory := rfl
@[simp] theorem setFollow_taps (l : List (UnitIx × Follow)) : (s.setFollow l).taps = s.taps := rfl
@[simp] theorem setFollow_journal (l : List (UnitIx × Follow)) : (s.setFollow l).journal = s.journal := rfl
@[simp] theorem setFollow_store (l : List (UnitIx × Follow)) : (s.setFollow l).store = s.store := rfl
@[simp] theorem setFollow_port (l : List (UnitIx × Follow)) : (s.setFollow l).port = s.port := rfl
@[simp] theorem setFollow_mgmt (l : List (UnitIx × Follow)) : (s.setFollow l).mgmt = s.mgmt := rfl
@[simp] theorem setFollow_chains (l : List (UnitIx × Follow)) : (s.setFollow l).chains = s.chains := rfl
@[simp] theorem setFollow_freeNext (l : List (UnitIx × Follow)) : (s.setFollow l).freeNext = s.freeNext := rfl
@[simp] theorem setFollow_pending (l : List (UnitIx × Follow)) : (s.setFollow l).pending = s.pending := rfl

/-! ### State.setWaiting -/

@[simp] theorem setWaiting_supply (l : List Actuation) : (s.setWaiting l).supply = s.supply := rfl
@[simp] theorem setWaiting_startUp (l : List Actuation) : (s.setWaiting l).startUp = s.startUp := rfl
@[simp] theorem setWaiting_restart (l : List Actuation) : (s.setWaiting l).restart = s.restart := rfl
@[simp] theorem setWaiting_clock (l : List Actuation) : (s.setWaiting l).clock = s.clock := rfl
@[simp] theorem setWaiting_inputs (l : List Actuation) : (s.setWaiting l).inputs = s.inputs := rfl
@[simp] theorem setWaiting_line (l : List Actuation) : (s.setWaiting l).line = s.line := rfl
@[simp] theorem setWaiting_notices (l : List Actuation) : (s.setWaiting l).notices = s.notices := rfl
@[simp] theorem setWaiting_tables (l : List Actuation) : (s.setWaiting l).tables = s.tables := rfl
@[simp] theorem setWaiting_summary (l : List Actuation) : (s.setWaiting l).summary = s.summary := rfl
@[simp] theorem setWaiting_load (l : List Actuation) : (s.setWaiting l).load = s.load := rfl
@[simp] theorem setWaiting_loadLate (l : List Actuation) : (s.setWaiting l).loadLate = s.loadLate := rfl
@[simp] theorem setWaiting_units (l : List Actuation) : (s.setWaiting l).units = s.units := rfl
@[simp] theorem setWaiting_bands (l : List Actuation) : (s.setWaiting l).bands = s.bands := rfl
@[simp] theorem setWaiting_timers (l : List Actuation) : (s.setWaiting l).timers = s.timers := rfl
@[simp] theorem setWaiting_engine (l : List Actuation) : (s.setWaiting l).engine = s.engine := rfl
@[simp] theorem setWaiting_drive (l : List Actuation) : (s.setWaiting l).drive = { s.drive with waiting := l } := rfl
@[simp] theorem setWaiting_banks (l : List Actuation) : (s.setWaiting l).banks = s.banks := rfl
@[simp] theorem setWaiting_observed (l : List Actuation) : (s.setWaiting l).observed = s.observed := rfl
@[simp] theorem setWaiting_identities (l : List Actuation) : (s.setWaiting l).identities = s.identities := rfl
@[simp] theorem setWaiting_tapMemory (l : List Actuation) : (s.setWaiting l).tapMemory = s.tapMemory := rfl
@[simp] theorem setWaiting_taps (l : List Actuation) : (s.setWaiting l).taps = s.taps := rfl
@[simp] theorem setWaiting_journal (l : List Actuation) : (s.setWaiting l).journal = s.journal := rfl
@[simp] theorem setWaiting_store (l : List Actuation) : (s.setWaiting l).store = s.store := rfl
@[simp] theorem setWaiting_port (l : List Actuation) : (s.setWaiting l).port = s.port := rfl
@[simp] theorem setWaiting_mgmt (l : List Actuation) : (s.setWaiting l).mgmt = s.mgmt := rfl
@[simp] theorem setWaiting_chains (l : List Actuation) : (s.setWaiting l).chains = s.chains := rfl
@[simp] theorem setWaiting_freeNext (l : List Actuation) : (s.setWaiting l).freeNext = s.freeNext := rfl
@[simp] theorem setWaiting_pending (l : List Actuation) : (s.setWaiting l).pending = s.pending := rfl

/-! ### State.setJournal -/

@[simp] theorem setJournal_supply (j : Journal) : (s.setJournal j).supply = s.supply := rfl
@[simp] theorem setJournal_startUp (j : Journal) : (s.setJournal j).startUp = s.startUp := rfl
@[simp] theorem setJournal_restart (j : Journal) : (s.setJournal j).restart = s.restart := rfl
@[simp] theorem setJournal_clock (j : Journal) : (s.setJournal j).clock = s.clock := rfl
@[simp] theorem setJournal_inputs (j : Journal) : (s.setJournal j).inputs = s.inputs := rfl
@[simp] theorem setJournal_line (j : Journal) : (s.setJournal j).line = s.line := rfl
@[simp] theorem setJournal_notices (j : Journal) : (s.setJournal j).notices = s.notices := rfl
@[simp] theorem setJournal_tables (j : Journal) : (s.setJournal j).tables = s.tables := rfl
@[simp] theorem setJournal_summary (j : Journal) : (s.setJournal j).summary = s.summary := rfl
@[simp] theorem setJournal_load (j : Journal) : (s.setJournal j).load = s.load := rfl
@[simp] theorem setJournal_loadLate (j : Journal) : (s.setJournal j).loadLate = s.loadLate := rfl
@[simp] theorem setJournal_units (j : Journal) : (s.setJournal j).units = s.units := rfl
@[simp] theorem setJournal_bands (j : Journal) : (s.setJournal j).bands = s.bands := rfl
@[simp] theorem setJournal_timers (j : Journal) : (s.setJournal j).timers = s.timers := rfl
@[simp] theorem setJournal_engine (j : Journal) : (s.setJournal j).engine = s.engine := rfl
@[simp] theorem setJournal_drive (j : Journal) : (s.setJournal j).drive = s.drive := rfl
@[simp] theorem setJournal_banks (j : Journal) : (s.setJournal j).banks = s.banks := rfl
@[simp] theorem setJournal_observed (j : Journal) : (s.setJournal j).observed = s.observed := rfl
@[simp] theorem setJournal_identities (j : Journal) : (s.setJournal j).identities = s.identities := rfl
@[simp] theorem setJournal_tapMemory (j : Journal) : (s.setJournal j).tapMemory = s.tapMemory := rfl
@[simp] theorem setJournal_taps (j : Journal) : (s.setJournal j).taps = s.taps := rfl
@[simp] theorem setJournal_journal (j : Journal) : (s.setJournal j).journal = j := rfl
@[simp] theorem setJournal_store (j : Journal) : (s.setJournal j).store = s.store := rfl
@[simp] theorem setJournal_port (j : Journal) : (s.setJournal j).port = s.port := rfl
@[simp] theorem setJournal_mgmt (j : Journal) : (s.setJournal j).mgmt = s.mgmt := rfl
@[simp] theorem setJournal_chains (j : Journal) : (s.setJournal j).chains = s.chains := rfl
@[simp] theorem setJournal_freeNext (j : Journal) : (s.setJournal j).freeNext = s.freeNext := rfl
@[simp] theorem setJournal_pending (j : Journal) : (s.setJournal j).pending = s.pending := rfl

/-! ### State.setPort -/

@[simp] theorem setPort_supply (p : Port) : (s.setPort p).supply = s.supply := rfl
@[simp] theorem setPort_startUp (p : Port) : (s.setPort p).startUp = s.startUp := rfl
@[simp] theorem setPort_restart (p : Port) : (s.setPort p).restart = s.restart := rfl
@[simp] theorem setPort_clock (p : Port) : (s.setPort p).clock = s.clock := rfl
@[simp] theorem setPort_inputs (p : Port) : (s.setPort p).inputs = s.inputs := rfl
@[simp] theorem setPort_line (p : Port) : (s.setPort p).line = s.line := rfl
@[simp] theorem setPort_notices (p : Port) : (s.setPort p).notices = s.notices := rfl
@[simp] theorem setPort_tables (p : Port) : (s.setPort p).tables = s.tables := rfl
@[simp] theorem setPort_summary (p : Port) : (s.setPort p).summary = s.summary := rfl
@[simp] theorem setPort_load (p : Port) : (s.setPort p).load = s.load := rfl
@[simp] theorem setPort_loadLate (p : Port) : (s.setPort p).loadLate = s.loadLate := rfl
@[simp] theorem setPort_units (p : Port) : (s.setPort p).units = s.units := rfl
@[simp] theorem setPort_bands (p : Port) : (s.setPort p).bands = s.bands := rfl
@[simp] theorem setPort_timers (p : Port) : (s.setPort p).timers = s.timers := rfl
@[simp] theorem setPort_engine (p : Port) : (s.setPort p).engine = s.engine := rfl
@[simp] theorem setPort_drive (p : Port) : (s.setPort p).drive = s.drive := rfl
@[simp] theorem setPort_banks (p : Port) : (s.setPort p).banks = s.banks := rfl
@[simp] theorem setPort_observed (p : Port) : (s.setPort p).observed = s.observed := rfl
@[simp] theorem setPort_identities (p : Port) : (s.setPort p).identities = s.identities := rfl
@[simp] theorem setPort_tapMemory (p : Port) : (s.setPort p).tapMemory = s.tapMemory := rfl
@[simp] theorem setPort_taps (p : Port) : (s.setPort p).taps = s.taps := rfl
@[simp] theorem setPort_journal (p : Port) : (s.setPort p).journal = s.journal := rfl
@[simp] theorem setPort_store (p : Port) : (s.setPort p).store = s.store := rfl
@[simp] theorem setPort_port (p : Port) : (s.setPort p).port = p := rfl
@[simp] theorem setPort_mgmt (p : Port) : (s.setPort p).mgmt = s.mgmt := rfl
@[simp] theorem setPort_chains (p : Port) : (s.setPort p).chains = s.chains := rfl
@[simp] theorem setPort_freeNext (p : Port) : (s.setPort p).freeNext = s.freeNext := rfl
@[simp] theorem setPort_pending (p : Port) : (s.setPort p).pending = s.pending := rfl

/-! ### State.setSlot -/

@[simp] theorem setSlot_supply (r : Ref) (x : Slot) : (s.setSlot r x).supply = s.supply := rfl
@[simp] theorem setSlot_startUp (r : Ref) (x : Slot) : (s.setSlot r x).startUp = s.startUp := rfl
@[simp] theorem setSlot_restart (r : Ref) (x : Slot) : (s.setSlot r x).restart = s.restart := rfl
@[simp] theorem setSlot_clock (r : Ref) (x : Slot) : (s.setSlot r x).clock = s.clock := rfl
@[simp] theorem setSlot_inputs (r : Ref) (x : Slot) : (s.setSlot r x).inputs = s.inputs := rfl
@[simp] theorem setSlot_line (r : Ref) (x : Slot) : (s.setSlot r x).line = s.line := rfl
@[simp] theorem setSlot_notices (r : Ref) (x : Slot) : (s.setSlot r x).notices = s.notices := rfl
@[simp] theorem setSlot_tables (r : Ref) (x : Slot) : (s.setSlot r x).tables = s.tables := rfl
@[simp] theorem setSlot_summary (r : Ref) (x : Slot) : (s.setSlot r x).summary = s.summary := rfl
@[simp] theorem setSlot_load (r : Ref) (x : Slot) : (s.setSlot r x).load = s.load := rfl
@[simp] theorem setSlot_loadLate (r : Ref) (x : Slot) : (s.setSlot r x).loadLate = s.loadLate := rfl
@[simp] theorem setSlot_units (r : Ref) (x : Slot) : (s.setSlot r x).units = s.units := rfl
@[simp] theorem setSlot_bands (r : Ref) (x : Slot) : (s.setSlot r x).bands = s.bands := rfl
@[simp] theorem setSlot_timers (r : Ref) (x : Slot) : (s.setSlot r x).timers = s.timers := rfl
@[simp] theorem setSlot_engine (r : Ref) (x : Slot) : (s.setSlot r x).engine = s.engine := rfl
@[simp] theorem setSlot_drive (r : Ref) (x : Slot) : (s.setSlot r x).drive = s.drive := rfl
@[simp] theorem setSlot_banks (r : Ref) (x : Slot) : (s.setSlot r x).banks = s.banks := rfl
@[simp] theorem setSlot_observed (r : Ref) (x : Slot) : (s.setSlot r x).observed = s.observed := rfl
@[simp] theorem setSlot_identities (r : Ref) (x : Slot) : (s.setSlot r x).identities = s.identities := rfl
@[simp] theorem setSlot_tapMemory (r : Ref) (x : Slot) : (s.setSlot r x).tapMemory = s.tapMemory := rfl
@[simp] theorem setSlot_taps (r : Ref) (x : Slot) : (s.setSlot r x).taps = s.taps := rfl
@[simp] theorem setSlot_journal (r : Ref) (x : Slot) : (s.setSlot r x).journal = s.journal := rfl
@[simp] theorem setSlot_store (r : Ref) (x : Slot) : (s.setSlot r x).store = s.store.write r.addr x := rfl
@[simp] theorem setSlot_port (r : Ref) (x : Slot) : (s.setSlot r x).port = s.port := rfl
@[simp] theorem setSlot_mgmt (r : Ref) (x : Slot) : (s.setSlot r x).mgmt = s.mgmt := rfl
@[simp] theorem setSlot_chains (r : Ref) (x : Slot) : (s.setSlot r x).chains = s.chains := rfl
@[simp] theorem setSlot_freeNext (r : Ref) (x : Slot) : (s.setSlot r x).freeNext = s.freeNext := rfl
@[simp] theorem setSlot_pending (r : Ref) (x : Slot) : (s.setSlot r x).pending = s.pending := rfl

/-! ### State.setReserved -/

@[simp] theorem setReserved_supply (b : BankIx) (n : Nat) : (s.setReserved b n).supply = s.supply := rfl
@[simp] theorem setReserved_startUp (b : BankIx) (n : Nat) : (s.setReserved b n).startUp = s.startUp := rfl
@[simp] theorem setReserved_restart (b : BankIx) (n : Nat) : (s.setReserved b n).restart = s.restart := rfl
@[simp] theorem setReserved_clock (b : BankIx) (n : Nat) : (s.setReserved b n).clock = s.clock := rfl
@[simp] theorem setReserved_inputs (b : BankIx) (n : Nat) : (s.setReserved b n).inputs = s.inputs := rfl
@[simp] theorem setReserved_line (b : BankIx) (n : Nat) : (s.setReserved b n).line = s.line := rfl
@[simp] theorem setReserved_notices (b : BankIx) (n : Nat) : (s.setReserved b n).notices = s.notices := rfl
@[simp] theorem setReserved_tables (b : BankIx) (n : Nat) : (s.setReserved b n).tables = s.tables := rfl
@[simp] theorem setReserved_summary (b : BankIx) (n : Nat) : (s.setReserved b n).summary = s.summary := rfl
@[simp] theorem setReserved_load (b : BankIx) (n : Nat) : (s.setReserved b n).load = s.load := rfl
@[simp] theorem setReserved_loadLate (b : BankIx) (n : Nat) : (s.setReserved b n).loadLate = s.loadLate := rfl
@[simp] theorem setReserved_units (b : BankIx) (n : Nat) : (s.setReserved b n).units = s.units := rfl
@[simp] theorem setReserved_bands (b : BankIx) (n : Nat) : (s.setReserved b n).bands = s.bands := rfl
@[simp] theorem setReserved_timers (b : BankIx) (n : Nat) : (s.setReserved b n).timers = s.timers := rfl
@[simp] theorem setReserved_engine (b : BankIx) (n : Nat) : (s.setReserved b n).engine = s.engine := rfl
@[simp] theorem setReserved_drive (b : BankIx) (n : Nat) : (s.setReserved b n).drive = s.drive := rfl
@[simp] theorem setReserved_banks (b : BankIx) (n : Nat) : (s.setReserved b n).banks = s.banks := rfl
@[simp] theorem setReserved_observed (b : BankIx) (n : Nat) : (s.setReserved b n).observed = s.observed := rfl
@[simp] theorem setReserved_identities (b : BankIx) (n : Nat) : (s.setReserved b n).identities = s.identities := rfl
@[simp] theorem setReserved_tapMemory (b : BankIx) (n : Nat) : (s.setReserved b n).tapMemory = s.tapMemory := rfl
@[simp] theorem setReserved_taps (b : BankIx) (n : Nat) : (s.setReserved b n).taps = { s.taps with reserved := put s.taps.reserved b n } := rfl
@[simp] theorem setReserved_journal (b : BankIx) (n : Nat) : (s.setReserved b n).journal = s.journal := rfl
@[simp] theorem setReserved_store (b : BankIx) (n : Nat) : (s.setReserved b n).store = s.store := rfl
@[simp] theorem setReserved_port (b : BankIx) (n : Nat) : (s.setReserved b n).port = s.port := rfl
@[simp] theorem setReserved_mgmt (b : BankIx) (n : Nat) : (s.setReserved b n).mgmt = s.mgmt := rfl
@[simp] theorem setReserved_chains (b : BankIx) (n : Nat) : (s.setReserved b n).chains = s.chains := rfl
@[simp] theorem setReserved_freeNext (b : BankIx) (n : Nat) : (s.setReserved b n).freeNext = s.freeNext := rfl
@[simp] theorem setReserved_pending (b : BankIx) (n : Nat) : (s.setReserved b n).pending = s.pending := rfl

/-! ### State.setActive -/

@[simp] theorem setActive_supply (a : Bool) : (s.setActive a).supply = s.supply := rfl
@[simp] theorem setActive_startUp (a : Bool) : (s.setActive a).startUp = s.startUp := rfl
@[simp] theorem setActive_restart (a : Bool) : (s.setActive a).restart = s.restart := rfl
@[simp] theorem setActive_clock (a : Bool) : (s.setActive a).clock = s.clock := rfl
@[simp] theorem setActive_inputs (a : Bool) : (s.setActive a).inputs = { s.inputs with active := a } := rfl
@[simp] theorem setActive_line (a : Bool) : (s.setActive a).line = s.line := rfl
@[simp] theorem setActive_notices (a : Bool) : (s.setActive a).notices = s.notices := rfl
@[simp] theorem setActive_tables (a : Bool) : (s.setActive a).tables = s.tables := rfl
@[simp] theorem setActive_summary (a : Bool) : (s.setActive a).summary = s.summary := rfl
@[simp] theorem setActive_load (a : Bool) : (s.setActive a).load = s.load := rfl
@[simp] theorem setActive_loadLate (a : Bool) : (s.setActive a).loadLate = s.loadLate := rfl
@[simp] theorem setActive_units (a : Bool) : (s.setActive a).units = s.units := rfl
@[simp] theorem setActive_bands (a : Bool) : (s.setActive a).bands = s.bands := rfl
@[simp] theorem setActive_timers (a : Bool) : (s.setActive a).timers = s.timers := rfl
@[simp] theorem setActive_engine (a : Bool) : (s.setActive a).engine = s.engine := rfl
@[simp] theorem setActive_drive (a : Bool) : (s.setActive a).drive = s.drive := rfl
@[simp] theorem setActive_banks (a : Bool) : (s.setActive a).banks = s.banks := rfl
@[simp] theorem setActive_observed (a : Bool) : (s.setActive a).observed = s.observed := rfl
@[simp] theorem setActive_identities (a : Bool) : (s.setActive a).identities = s.identities := rfl
@[simp] theorem setActive_tapMemory (a : Bool) : (s.setActive a).tapMemory = s.tapMemory := rfl
@[simp] theorem setActive_taps (a : Bool) : (s.setActive a).taps = s.taps := rfl
@[simp] theorem setActive_journal (a : Bool) : (s.setActive a).journal = s.journal := rfl
@[simp] theorem setActive_store (a : Bool) : (s.setActive a).store = s.store := rfl
@[simp] theorem setActive_port (a : Bool) : (s.setActive a).port = s.port := rfl
@[simp] theorem setActive_mgmt (a : Bool) : (s.setActive a).mgmt = s.mgmt := rfl
@[simp] theorem setActive_chains (a : Bool) : (s.setActive a).chains = s.chains := rfl
@[simp] theorem setActive_freeNext (a : Bool) : (s.setActive a).freeNext = s.freeNext := rfl
@[simp] theorem setActive_pending (a : Bool) : (s.setActive a).pending = s.pending := rfl

/-! ### State.setCond -/

@[simp] theorem setCond_supply (c : LineCond) : (s.setCond c).supply = s.supply := rfl
@[simp] theorem setCond_startUp (c : LineCond) : (s.setCond c).startUp = s.startUp := rfl
@[simp] theorem setCond_restart (c : LineCond) : (s.setCond c).restart = s.restart := rfl
@[simp] theorem setCond_clock (c : LineCond) : (s.setCond c).clock = s.clock := rfl
@[simp] theorem setCond_inputs (c : LineCond) : (s.setCond c).inputs = s.inputs := rfl
@[simp] theorem setCond_line (c : LineCond) : (s.setCond c).line = { s.line with cond := c } := rfl
@[simp] theorem setCond_notices (c : LineCond) : (s.setCond c).notices = s.notices := rfl
@[simp] theorem setCond_tables (c : LineCond) : (s.setCond c).tables = s.tables := rfl
@[simp] theorem setCond_summary (c : LineCond) : (s.setCond c).summary = s.summary := rfl
@[simp] theorem setCond_load (c : LineCond) : (s.setCond c).load = s.load := rfl
@[simp] theorem setCond_loadLate (c : LineCond) : (s.setCond c).loadLate = s.loadLate := rfl
@[simp] theorem setCond_units (c : LineCond) : (s.setCond c).units = s.units := rfl
@[simp] theorem setCond_bands (c : LineCond) : (s.setCond c).bands = s.bands := rfl
@[simp] theorem setCond_timers (c : LineCond) : (s.setCond c).timers = s.timers := rfl
@[simp] theorem setCond_engine (c : LineCond) : (s.setCond c).engine = s.engine := rfl
@[simp] theorem setCond_drive (c : LineCond) : (s.setCond c).drive = s.drive := rfl
@[simp] theorem setCond_banks (c : LineCond) : (s.setCond c).banks = s.banks := rfl
@[simp] theorem setCond_observed (c : LineCond) : (s.setCond c).observed = s.observed := rfl
@[simp] theorem setCond_identities (c : LineCond) : (s.setCond c).identities = s.identities := rfl
@[simp] theorem setCond_tapMemory (c : LineCond) : (s.setCond c).tapMemory = s.tapMemory := rfl
@[simp] theorem setCond_taps (c : LineCond) : (s.setCond c).taps = s.taps := rfl
@[simp] theorem setCond_journal (c : LineCond) : (s.setCond c).journal = s.journal := rfl
@[simp] theorem setCond_store (c : LineCond) : (s.setCond c).store = s.store := rfl
@[simp] theorem setCond_port (c : LineCond) : (s.setCond c).port = s.port := rfl
@[simp] theorem setCond_mgmt (c : LineCond) : (s.setCond c).mgmt = s.mgmt := rfl
@[simp] theorem setCond_chains (c : LineCond) : (s.setCond c).chains = s.chains := rfl
@[simp] theorem setCond_freeNext (c : LineCond) : (s.setCond c).freeNext = s.freeNext := rfl
@[simp] theorem setCond_pending (c : LineCond) : (s.setCond c).pending = s.pending := rfl

/-! ### State.setCmd -/

@[simp] theorem setCmd_supply (c : CmdState) : (s.setCmd c).supply = s.supply := rfl
@[simp] theorem setCmd_startUp (c : CmdState) : (s.setCmd c).startUp = s.startUp := rfl
@[simp] theorem setCmd_restart (c : CmdState) : (s.setCmd c).restart = s.restart := rfl
@[simp] theorem setCmd_clock (c : CmdState) : (s.setCmd c).clock = s.clock := rfl
@[simp] theorem setCmd_inputs (c : CmdState) : (s.setCmd c).inputs = s.inputs := rfl
@[simp] theorem setCmd_line (c : CmdState) : (s.setCmd c).line = s.line := rfl
@[simp] theorem setCmd_notices (c : CmdState) : (s.setCmd c).notices = s.notices := rfl
@[simp] theorem setCmd_tables (c : CmdState) : (s.setCmd c).tables = s.tables := rfl
@[simp] theorem setCmd_summary (c : CmdState) : (s.setCmd c).summary = s.summary := rfl
@[simp] theorem setCmd_load (c : CmdState) : (s.setCmd c).load = s.load := rfl
@[simp] theorem setCmd_loadLate (c : CmdState) : (s.setCmd c).loadLate = s.loadLate := rfl
@[simp] theorem setCmd_units (c : CmdState) : (s.setCmd c).units = s.units := rfl
@[simp] theorem setCmd_bands (c : CmdState) : (s.setCmd c).bands = s.bands := rfl
@[simp] theorem setCmd_timers (c : CmdState) : (s.setCmd c).timers = s.timers := rfl
@[simp] theorem setCmd_engine (c : CmdState) : (s.setCmd c).engine = s.engine := rfl
@[simp] theorem setCmd_drive (c : CmdState) : (s.setCmd c).drive = s.drive := rfl
@[simp] theorem setCmd_banks (c : CmdState) : (s.setCmd c).banks = s.banks := rfl
@[simp] theorem setCmd_observed (c : CmdState) : (s.setCmd c).observed = s.observed := rfl
@[simp] theorem setCmd_identities (c : CmdState) : (s.setCmd c).identities = s.identities := rfl
@[simp] theorem setCmd_tapMemory (c : CmdState) : (s.setCmd c).tapMemory = s.tapMemory := rfl
@[simp] theorem setCmd_taps (c : CmdState) : (s.setCmd c).taps = s.taps := rfl
@[simp] theorem setCmd_journal (c : CmdState) : (s.setCmd c).journal = s.journal := rfl
@[simp] theorem setCmd_store (c : CmdState) : (s.setCmd c).store = s.store := rfl
@[simp] theorem setCmd_port (c : CmdState) : (s.setCmd c).port = s.port := rfl
@[simp] theorem setCmd_mgmt (c : CmdState) : (s.setCmd c).mgmt = { s.mgmt with state := c } := rfl
@[simp] theorem setCmd_chains (c : CmdState) : (s.setCmd c).chains = s.chains := rfl
@[simp] theorem setCmd_freeNext (c : CmdState) : (s.setCmd c).freeNext = s.freeNext := rfl
@[simp] theorem setCmd_pending (c : CmdState) : (s.setCmd c).pending = s.pending := rfl

/-! ### State.beginLoad -/

@[simp] theorem beginLoad_supply (c : LoadCause) : (s.beginLoad c).supply = s.supply := rfl
@[simp] theorem beginLoad_startUp (c : LoadCause) : (s.beginLoad c).startUp = s.startUp := rfl
@[simp] theorem beginLoad_restart (c : LoadCause) : (s.beginLoad c).restart = s.restart := rfl
@[simp] theorem beginLoad_clock (c : LoadCause) : (s.beginLoad c).clock = s.clock := rfl
@[simp] theorem beginLoad_inputs (c : LoadCause) : (s.beginLoad c).inputs = s.inputs := rfl
@[simp] theorem beginLoad_line (c : LoadCause) : (s.beginLoad c).line = s.line := rfl
@[simp] theorem beginLoad_notices (c : LoadCause) : (s.beginLoad c).notices = s.notices := rfl
@[simp] theorem beginLoad_tables (c : LoadCause) : (s.beginLoad c).tables = s.tables := rfl
@[simp] theorem beginLoad_summary (c : LoadCause) : (s.beginLoad c).summary = s.summary := rfl
@[simp] theorem beginLoad_load (c : LoadCause) : (s.beginLoad c).load = some c := rfl
@[simp] theorem beginLoad_loadLate (c : LoadCause) : (s.beginLoad c).loadLate = [] := rfl
@[simp] theorem beginLoad_units (c : LoadCause) : (s.beginLoad c).units = s.units := rfl
@[simp] theorem beginLoad_bands (c : LoadCause) : (s.beginLoad c).bands = s.bands := rfl
@[simp] theorem beginLoad_timers (c : LoadCause) : (s.beginLoad c).timers = s.timers := rfl
@[simp] theorem beginLoad_engine (c : LoadCause) : (s.beginLoad c).engine = s.engine := rfl
@[simp] theorem beginLoad_drive (c : LoadCause) : (s.beginLoad c).drive = s.drive := rfl
@[simp] theorem beginLoad_banks (c : LoadCause) : (s.beginLoad c).banks = s.banks := rfl
@[simp] theorem beginLoad_observed (c : LoadCause) : (s.beginLoad c).observed = s.observed := rfl
@[simp] theorem beginLoad_identities (c : LoadCause) : (s.beginLoad c).identities = s.identities := rfl
@[simp] theorem beginLoad_tapMemory (c : LoadCause) : (s.beginLoad c).tapMemory = s.tapMemory := rfl
@[simp] theorem beginLoad_taps (c : LoadCause) : (s.beginLoad c).taps = s.taps := rfl
@[simp] theorem beginLoad_journal (c : LoadCause) : (s.beginLoad c).journal = s.journal := rfl
@[simp] theorem beginLoad_store (c : LoadCause) : (s.beginLoad c).store = s.store := rfl
@[simp] theorem beginLoad_port (c : LoadCause) : (s.beginLoad c).port = s.port := rfl
@[simp] theorem beginLoad_mgmt (c : LoadCause) : (s.beginLoad c).mgmt = s.mgmt := rfl
@[simp] theorem beginLoad_chains (c : LoadCause) : (s.beginLoad c).chains = s.chains := rfl
@[simp] theorem beginLoad_freeNext (c : LoadCause) : (s.beginLoad c).freeNext = s.freeNext := rfl
@[simp] theorem beginLoad_pending (c : LoadCause) : (s.beginLoad c).pending = s.pending := rfl

/-! ### State.programmedLate -/

@[simp] theorem programmedLate_supply (r : Ref) : (s.programmedLate r).supply = s.supply := rfl
@[simp] theorem programmedLate_startUp (r : Ref) : (s.programmedLate r).startUp = s.startUp := rfl
@[simp] theorem programmedLate_restart (r : Ref) : (s.programmedLate r).restart = s.restart := rfl
@[simp] theorem programmedLate_clock (r : Ref) : (s.programmedLate r).clock = s.clock := rfl
@[simp] theorem programmedLate_inputs (r : Ref) : (s.programmedLate r).inputs = s.inputs := rfl
@[simp] theorem programmedLate_line (r : Ref) : (s.programmedLate r).line = s.line := rfl
@[simp] theorem programmedLate_notices (r : Ref) : (s.programmedLate r).notices = s.notices := rfl
@[simp] theorem programmedLate_tables (r : Ref) : (s.programmedLate r).tables = s.tables := rfl
@[simp] theorem programmedLate_summary (r : Ref) : (s.programmedLate r).summary = s.summary := rfl
@[simp] theorem programmedLate_load (r : Ref) : (s.programmedLate r).load = s.load := rfl
@[simp] theorem programmedLate_loadLate (r : Ref) :
    (s.programmedLate r).loadLate = if s.load.isSome then s.loadLate ++ [r.addr] else s.loadLate := rfl
@[simp] theorem programmedLate_units (r : Ref) : (s.programmedLate r).units = s.units := rfl
@[simp] theorem programmedLate_bands (r : Ref) : (s.programmedLate r).bands = s.bands := rfl
@[simp] theorem programmedLate_timers (r : Ref) : (s.programmedLate r).timers = s.timers := rfl
@[simp] theorem programmedLate_engine (r : Ref) : (s.programmedLate r).engine = s.engine := rfl
@[simp] theorem programmedLate_drive (r : Ref) : (s.programmedLate r).drive = s.drive := rfl
@[simp] theorem programmedLate_banks (r : Ref) : (s.programmedLate r).banks = s.banks := rfl
@[simp] theorem programmedLate_observed (r : Ref) : (s.programmedLate r).observed = s.observed := rfl
@[simp] theorem programmedLate_identities (r : Ref) : (s.programmedLate r).identities = s.identities := rfl
@[simp] theorem programmedLate_tapMemory (r : Ref) : (s.programmedLate r).tapMemory = s.tapMemory := rfl
@[simp] theorem programmedLate_taps (r : Ref) : (s.programmedLate r).taps = s.taps := rfl
@[simp] theorem programmedLate_journal (r : Ref) : (s.programmedLate r).journal = s.journal := rfl
@[simp] theorem programmedLate_store (r : Ref) : (s.programmedLate r).store = s.store := rfl
@[simp] theorem programmedLate_port (r : Ref) : (s.programmedLate r).port = s.port := rfl
@[simp] theorem programmedLate_mgmt (r : Ref) : (s.programmedLate r).mgmt = s.mgmt := rfl
@[simp] theorem programmedLate_chains (r : Ref) : (s.programmedLate r).chains = s.chains := rfl
@[simp] theorem programmedLate_freeNext (r : Ref) : (s.programmedLate r).freeNext = s.freeNext := rfl
@[simp] theorem programmedLate_pending (r : Ref) : (s.programmedLate r).pending = s.pending := rfl

/-! ### post -/

@[simp] theorem post_supply (k : NoticeKind) (c : Nat) (u : Option UnitIx) (b : Option Band) (x : Nat) :
    (post s k c u b x).supply = s.supply := rfl
@[simp] theorem post_startUp (k : NoticeKind) (c : Nat) (u : Option UnitIx) (b : Option Band) (x : Nat) :
    (post s k c u b x).startUp = s.startUp := rfl
@[simp] theorem post_restart (k : NoticeKind) (c : Nat) (u : Option UnitIx) (b : Option Band) (x : Nat) :
    (post s k c u b x).restart = s.restart := rfl
@[simp] theorem post_clock (k : NoticeKind) (c : Nat) (u : Option UnitIx) (b : Option Band) (x : Nat) :
    (post s k c u b x).clock = s.clock := rfl
@[simp] theorem post_inputs (k : NoticeKind) (c : Nat) (u : Option UnitIx) (b : Option Band) (x : Nat) :
    (post s k c u b x).inputs = s.inputs := rfl
@[simp] theorem post_line (k : NoticeKind) (c : Nat) (u : Option UnitIx) (b : Option Band) (x : Nat) :
    (post s k c u b x).line = s.line := rfl
@[simp] theorem post_tables (k : NoticeKind) (c : Nat) (u : Option UnitIx) (b : Option Band) (x : Nat) :
    (post s k c u b x).tables = s.tables := rfl
@[simp] theorem post_summary (k : NoticeKind) (c : Nat) (u : Option UnitIx) (b : Option Band) (x : Nat) :
    (post s k c u b x).summary = s.summary := rfl
@[simp] theorem post_load (k : NoticeKind) (c : Nat) (u : Option UnitIx) (b : Option Band) (x : Nat) :
    (post s k c u b x).load = s.load := rfl
@[simp] theorem post_loadLate (k : NoticeKind) (c : Nat) (u : Option UnitIx) (b : Option Band) (x : Nat) :
    (post s k c u b x).loadLate = s.loadLate := rfl
@[simp] theorem post_units (k : NoticeKind) (c : Nat) (u : Option UnitIx) (b : Option Band) (x : Nat) :
    (post s k c u b x).units = s.units := rfl
@[simp] theorem post_bands (k : NoticeKind) (c : Nat) (u : Option UnitIx) (b : Option Band) (x : Nat) :
    (post s k c u b x).bands = s.bands := rfl
@[simp] theorem post_timers (k : NoticeKind) (c : Nat) (u : Option UnitIx) (b : Option Band) (x : Nat) :
    (post s k c u b x).timers = s.timers := rfl
@[simp] theorem post_engine (k : NoticeKind) (c : Nat) (u : Option UnitIx) (b : Option Band) (x : Nat) :
    (post s k c u b x).engine = s.engine := rfl
@[simp] theorem post_drive (k : NoticeKind) (c : Nat) (u : Option UnitIx) (b : Option Band) (x : Nat) :
    (post s k c u b x).drive = s.drive := rfl
@[simp] theorem post_banks (k : NoticeKind) (c : Nat) (u : Option UnitIx) (b : Option Band) (x : Nat) :
    (post s k c u b x).banks = s.banks := rfl
@[simp] theorem post_observed (k : NoticeKind) (c : Nat) (u : Option UnitIx) (b : Option Band) (x : Nat) :
    (post s k c u b x).observed = s.observed := rfl
@[simp] theorem post_identities (k : NoticeKind) (c : Nat) (u : Option UnitIx) (b : Option Band) (x : Nat) :
    (post s k c u b x).identities = s.identities := rfl
@[simp] theorem post_tapMemory (k : NoticeKind) (c : Nat) (u : Option UnitIx) (b : Option Band) (x : Nat) :
    (post s k c u b x).tapMemory = s.tapMemory := rfl
@[simp] theorem post_taps (k : NoticeKind) (c : Nat) (u : Option UnitIx) (b : Option Band) (x : Nat) :
    (post s k c u b x).taps = s.taps := rfl
@[simp] theorem post_journal (k : NoticeKind) (c : Nat) (u : Option UnitIx) (b : Option Band) (x : Nat) :
    (post s k c u b x).journal = s.journal := rfl
@[simp] theorem post_store (k : NoticeKind) (c : Nat) (u : Option UnitIx) (b : Option Band) (x : Nat) :
    (post s k c u b x).store = s.store := rfl
@[simp] theorem post_port (k : NoticeKind) (c : Nat) (u : Option UnitIx) (b : Option Band) (x : Nat) :
    (post s k c u b x).port = s.port := rfl
@[simp] theorem post_mgmt (k : NoticeKind) (c : Nat) (u : Option UnitIx) (b : Option Band) (x : Nat) :
    (post s k c u b x).mgmt = s.mgmt := rfl
@[simp] theorem post_chains (k : NoticeKind) (c : Nat) (u : Option UnitIx) (b : Option Band) (x : Nat) :
    (post s k c u b x).chains = s.chains := rfl
@[simp] theorem post_freeNext (k : NoticeKind) (c : Nat) (u : Option UnitIx) (b : Option Band) (x : Nat) :
    (post s k c u b x).freeNext = s.freeNext := rfl
@[simp] theorem post_pending (k : NoticeKind) (c : Nat) (u : Option UnitIx) (b : Option Band) (x : Nat) :
    (post s k c u b x).pending = s.pending := rfl

@[simp] theorem post_notices (k : NoticeKind) (c : Nat) (u : Option UnitIx) (b : Option Band) (x : Nat) :
    (post s k c u b x).notices =
      s.notices.post ⟨k, BitVec.ofNat 8 c, u, b, s.clock.sec, BitVec.ofNat 32 x⟩ := rfl

/-! ### Tables indexed by unit and bank -/

@[simp] theorem put_get_self {α : Type} {n : Nat} (v : Vector α n) (i : Fin n) (x : α) : (put v i x).get i = x := by
  simp [put, Vector.get_eq_getElem]

theorem put_get_other {α : Type} {n : Nat} (v : Vector α n) (i j : Fin n) (x : α) (h : j ≠ i) :
    (put v i x).get j = v.get j := by
  have : i.1 ≠ j.1 := fun e => h (Fin.ext e.symm)
  simp [put, Vector.get_eq_getElem, this]

@[simp] theorem tabulate_get {α : Type} (n : Nat) (f : Fin n → α) (i : Fin n) : (tabulate n f).get i = f i := by
  simp [tabulate, Vector.get_eq_getElem]

@[simp] theorem setUnit_unit_self (u : UnitIx) (r : UnitRec) : (s.setUnit u r).unit u = r := by
  simp [State.unit]

theorem setUnit_unit_other (u v : UnitIx) (r : UnitRec) (h : v ≠ u) : (s.setUnit u r).unit v = s.unit v := by
  simp [State.unit, put_get_other, h]

@[simp] theorem modUnit_unit_self (u : UnitIx) (f : UnitRec → UnitRec) : (s.modUnit u f).unit u = f (s.unit u) := by
  simp [State.modUnit]

theorem modUnit_unit_other (u v : UnitIx) (f : UnitRec → UnitRec) (h : v ≠ u) :
    (s.modUnit u f).unit v = s.unit v := by
  simp [State.modUnit, setUnit_unit_other, h]

@[simp] theorem setBank_bank_self (b : BankIx) (k : Bank) : (s.setBank b k).bank b = k := by simp [State.bank]

/-- The second of two updates of one bank stands. -/
@[simp] theorem setBank_setBank (b : BankIx) (k l : Bank) : (s.setBank b k).setBank b l = s.setBank b l := by
  simp [State.setBank, put]

theorem setBank_bank_other (b c : BankIx) (k : Bank) (h : c ≠ b) : (s.setBank b k).bank c = s.bank c := by
  simp [State.bank, put_get_other, h]

@[simp] theorem setChain_chain_self (b : BankIx) (ns : List Node) : (s.setChain b ns).chain b = ns := by
  simp [State.chain]

theorem setChain_chain_other (b c : BankIx) (ns : List Node) (h : c ≠ b) : (s.setChain b ns).chain c = s.chain c := by
  simp [State.chain, put_get_other, h]

end Sys2Proof.Machine
end

