-- ==== Sys2Proof/Laws/Store.lean ====
section
/-! SUPPORT. The store's canonical form: every operation on the store keeps it, and what a read gives after a write
or an erase. -/

namespace Sys2Proof.Machine

/-- The addresses of a store rise strictly, from one above lo. -/
def Store.above (lo : Nat) (m : Store) : Prop := ∀ e ∈ m, lo < e.1

theorem store_wf_iff (m : Store) :
    m.wf = true ↔ m.Pairwise (fun x y => x.1 < y.1) ∧ ∀ e ∈ m, e.2 ≠ Slot.erased := by
  simp [Store.wf]

@[simp] theorem store_wf_nil : Store.wf [] = true := by decide

theorem store_wf_cons (a : Nat) (x : Slot) (m : Store) :
    Store.wf ((a, x) :: m) = true ↔ x ≠ Slot.erased ∧ Store.above a m ∧ m.wf = true := by
  simp only [store_wf_iff, List.pairwise_cons, List.mem_cons, forall_eq_or_imp, Store.above]
  constructor
  · rintro ⟨⟨h1, h2⟩, h3, h4⟩; exact ⟨h3, h1, h2, h4⟩
  · rintro ⟨h3, h1, h2, h4⟩; exact ⟨⟨h1, h2⟩, h3, h4⟩

theorem store_write_above (m : Store) (lo a : Nat) (x : Slot) (h : Store.above lo m) (ha : lo < a) :
    Store.above lo (m.write a x) := by
  induction m with
  | nil => by_cases hx : x = Slot.erased <;> simp [Store.write, hx, Store.above, ha]
  | cons e rest ih =>
    obtain ⟨b, y⟩ := e
    have hb : lo < b := h (b, y) (by simp)
    have hr : Store.above lo rest := fun e he => h e (by simp [he])
    have ih := ih hr
    unfold Store.write
    have hc : ∀ m', Store.above lo m' → Store.above lo ((b, y) :: m') := fun m' hm e he =>
      (List.mem_cons.1 he).elim (fun h' => h' ▸ hb) (hm e)
    have hx : ∀ m', Store.above lo m' → Store.above lo ((a, x) :: m') := fun m' hm e he =>
      (List.mem_cons.1 he).elim (fun h' => h' ▸ ha) (hm e)
    split_ifs
    · exact hc _ ih
    · exact hr
    · exact hx _ hr
    · exact hc _ hr
    · exact hx _ (hc _ hr)

/-- A write keeps the canonical form. -/
theorem store_write_wf (m : Store) (a : Nat) (x : Slot) (h : m.wf = true) : (m.write a x).wf = true := by
  induction m with
  | nil => by_cases hx : x = Slot.erased <;> simp [Store.write, hx, store_wf_iff]
  | cons e rest ih =>
    obtain ⟨b, y⟩ := e
    obtain ⟨hy, hb, hr⟩ := (store_wf_cons b y rest).1 h
    unfold Store.write
    split_ifs with h1 h2 h3 h3
    · exact (store_wf_cons _ _ _).2 ⟨hy, store_write_above rest b a x hb h1, ih hr⟩
    · exact hr
    · exact (store_wf_cons _ _ _).2 ⟨h3, fun e he => h2 ▸ hb e he, hr⟩
    · exact h
    · refine (store_wf_cons _ _ _).2 ⟨h3, ?_, h⟩
      have hab : a < b := by omega
      intro e he
      rcases List.mem_cons.1 he with rfl | he
      · exact hab
      · exact hab.trans (hb e he)

/-- Taking entries away keeps the canonical form. -/
theorem store_filter_wf (m : Store) (p : Nat × Slot → Bool) (h : m.wf = true) : Store.wf (m.filter p) = true := by
  rw [store_wf_iff] at *
  exact ⟨h.1.filter p, fun e he => h.2 e (List.mem_of_mem_filter he)⟩

theorem store_erase_wf (m : Store) (seg : Nat) (h : m.wf = true) : (m.eraseSegment seg).wf = true :=
  store_filter_wf m _ h

theorem setSlot_wf (s : State) (r : Ref) (x : Slot) (h : s.store.wf = true) : (s.setSlot r x).store.wf = true :=
  store_write_wf _ _ _ h

theorem markSlot_wf (s : State) (r : Ref) (st : SlotState) (h : s.store.wf = true) :
    (s.markSlot r st).store.wf = true :=
  store_write_wf _ _ _ h

theorem cutProgram_wf (m : Store) (n : Nat) (p : Program) (h : m.wf = true) : (cutProgram m n p).wf = true := by
  unfold cutProgram
  split
  · exact store_write_wf _ _ _ h
  · split_ifs
    · exact store_write_wf _ _ _ h
    · exact h
  · split_ifs
    · exact store_write_wf _ _ _ h
    · exact h

theorem cutErase_wf (m : Store) (n : Nat) (e : Erase) (h : m.wf = true) : (cutErase m n e).wf = true := by
  unfold cutErase
  split_ifs
  · exact h
  · exact store_filter_wf m _ h

theorem cutStore_wf (s : State) (h : s.store.wf = true) : s.cutStore.wf = true := by
  have hm : (match s.port.program with | some p => cutProgram s.store s.freeNext p | none => s.store).wf = true := by
    split
    · exact cutProgram_wf _ _ _ h
    · exact h
  unfold State.cutStore
  cases s.port.erase with
  | none => exact hm
  | some e => exact cutErase_wf _ _ _ hm

theorem reset_store_wf : State.reset.store.wf = true := store_wf_nil

/-! ### Reading -/

@[simp] theorem store_read_nil (a : Nat) : Store.read [] a = Slot.erased := rfl

theorem store_read_cons (b : Nat) (y : Slot) (m : Store) (a : Nat) :
    Store.read ((b, y) :: m) a = if b = a then y else Store.read m a := by
  by_cases h : b = a
  · simp [Store.read, h]
  · have hb : (b == a) = false := by simpa using h
    simp [Store.read, List.find?, h, hb]

/-- Below every listed address a store reads as erased. -/
theorem store_read_above (m : Store) (a lo : Nat) (h : Store.above lo m) (ha : a ≤ lo) : m.read a = Slot.erased := by
  induction m with
  | nil => rfl
  | cons e rest ih =>
    obtain ⟨b, y⟩ := e
    have hb : lo < b := h (b, y) (by simp)
    rw [store_read_cons, if_neg (by omega), ih fun e he => h e (by simp [he])]

/-- A read after a write to the same address gives what was written. -/
theorem store_read_write_self (m : Store) (a : Nat) (x : Slot) (h : m.wf = true) : (m.write a x).read a = x := by
  induction m with
  | nil => by_cases hx : x = Slot.erased <;> simp [Store.write, hx, store_read_cons]
  | cons e rest ih =>
    obtain ⟨b, y⟩ := e
    obtain ⟨-, hb, hr⟩ := (store_wf_cons b y rest).1 h
    unfold Store.write
    split_ifs with h1 h2 h3 h3
    · rw [store_read_cons, if_neg (by omega), ih hr]
    · rw [h3, store_read_above rest a b hb (by omega)]
    · rw [store_read_cons, if_pos rfl]
    · rw [store_read_cons, if_neg (by omega), h3, store_read_above rest a b hb (by omega)]
    · rw [store_read_cons, if_pos rfl]

/-- A write leaves every other address as it reads. -/
theorem store_read_write_other (m : Store) (a c : Nat) (x : Slot) (h : c ≠ a) : (m.write a x).read c = m.read c := by
  induction m with
  | nil => by_cases hx : x = Slot.erased <;> simp [Store.write, hx, store_read_cons, Ne.symm h]
  | cons e rest ih =>
    obtain ⟨b, y⟩ := e
    unfold Store.write
    split_ifs with h1 h2 h3 h3
    · simp only [store_read_cons, ih]
    · rw [store_read_cons, if_neg (by omega)]
    · rw [store_read_cons, store_read_cons, if_neg (Ne.symm h), if_neg (by omega)]
    · rfl
    · rw [store_read_cons, if_neg (Ne.symm h)]

/-- A slot that is not erased reads as written, whatever the store's form. -/
theorem store_read_write_kept (m : Store) (a : Nat) (x : Slot) (h : x ≠ Slot.erased) : (m.write a x).read a = x := by
  induction m with
  | nil => simp [Store.write, h, store_read_cons]
  | cons e rest ih =>
    obtain ⟨b, y⟩ := e
    unfold Store.write
    split_ifs with h1 h2
    · rw [store_read_cons, if_neg (by omega), ih]
    · rw [store_read_cons, if_pos rfl]
    · rw [store_read_cons, if_pos rfl]

/-- After an erase every slot of the segment reads as erased, and every other as before. -/
theorem store_read_erase (m : Store) (seg a : Nat) :
    (m.eraseSegment seg).read a = if a / 128 = seg then Slot.erased else m.read a := by
  induction m with
  | nil => simp [Store.eraseSegment]
  | cons e rest ih =>
    obtain ⟨b, y⟩ := e
    unfold Store.eraseSegment at ih ⊢
    by_cases hb : b / 128 = seg
    · rw [List.filter_cons_of_neg (by simp [hb]), ih, store_read_cons]
      by_cases hab : b = a
      · subst hab; simp [hb]
      · simp [hab]
    · rw [List.filter_cons_of_pos (by simp [hb]), store_read_cons, store_read_cons, ih]
      by_cases hab : b = a
      · subst hab; simp [hb]
      · simp [hab]

end Sys2Proof.Machine
end

