-- ==== Sys2Proof/Laws/Port.lean ====
section
/-! SUPPORT. What the Journal Engine and the write port may do in the event of another block: pump_portFrame says it
once. -/

namespace Sys2Proof.Machine

/-- A choice of the Journal Engine or the arbiter that begins no program. -/
structure Quiet (s t : State) : Prop where
  frame : ∃ later reports, t = { s with
      journal := t.journal, port := t.port, mgmt := t.mgmt,
      notices := later.foldl NoticeQueue.post s.notices,
      engine := { s.engine with inbox := s.engine.inbox ++ reports } } ∧
    (∀ e ∈ reports, e = EngEvent.stall true) ∧ (∀ n ∈ later, n.kind = NoticeKind.storeDone) ∧
    (s.mgmt.state ≠ .programming → later = [] ∧ t.mgmt = s.mgmt)
  queue : t.journal.queue = s.journal.queue
  head : t.journal.head = s.journal.head
  headGen : t.journal.headGen = s.journal.headGen
  tail : t.journal.tail = s.journal.tail

theorem Quiet.store {s t : State} (h : Quiet s t) : t.store = s.store := by
  obtain ⟨later, reports, e, -⟩ := h.frame
  rw [e]

/-- A choice that changes only the journal and the port. -/
theorem Quiet.plain {s : State} (j : Journal) (p : Port) (hq : j.queue = s.journal.queue) (hh : j.head = s.journal.head)
    (hg : j.headGen = s.journal.headGen) (ht : j.tail = s.journal.tail) :
    Quiet s { s with journal := j, port := p } where
  frame := ⟨[], [], by simp, by simp, by simp, fun _ => ⟨rfl, rfl⟩⟩
  queue := hq
  head := hh
  headGen := hg
  tail := ht

theorem Quiet.refl (s : State) : Quiet s s := Quiet.plain s.journal s.port rfl rfl rfl rfl

theorem Quiet.trans {s m t : State} (h : Quiet s m) (k : Quiet m t) : Quiet s t where
  frame := by
    obtain ⟨l1, r1, e1, hr1, hn1, hm1⟩ := h.frame
    obtain ⟨l2, r2, e2, hr2, hn2, hm2⟩ := k.frame
    refine ⟨l1 ++ l2, r1 ++ r2, ?_, ?_, ?_, ?_⟩
    · rw [e2, e1]; simp
    · intro e he; rcases List.mem_append.1 he with he | he; exacts [hr1 e he, hr2 e he]
    · intro e he; rcases List.mem_append.1 he with he | he; exacts [hn1 e he, hn2 e he]
    · intro hp
      obtain ⟨a, b⟩ := hm1 hp
      obtain ⟨c, d⟩ := hm2 (by rw [b]; exact hp)
      exact ⟨by simp [a, c], d.trans b⟩
  queue := k.queue.trans h.queue
  head := k.head.trans h.head
  headGen := k.headGen.trans h.headGen
  tail := k.tail.trans h.tail

theorem Quiet.portFrame {s t : State} (h : Quiet s t) : PortFrame s t := by
  obtain ⟨later, reports, e, hr, hn, hm⟩ := h.frame
  refine ⟨⟨later, reports, ?_, hr, hn, hm⟩, h.queue, h.head, h.headGen, h.tail, fun a => .inl (by rw [h.store])⟩
  rw [e]

theorem portFrame_refl (s : State) : PortFrame s s := (Quiet.refl s).portFrame

/-- Quiet choices before what the port serves. -/
theorem Quiet.then {s m t : State} (h : Quiet s m) (k : PortFrame m t) : PortFrame s t := by
  obtain ⟨l1, r1, e1, hr1, hn1, hm1⟩ := h.frame
  obtain ⟨⟨l2, r2, e2, hr2, hn2, hm2⟩, kq, kh, kg, kt, ks⟩ := k
  refine ⟨⟨l1 ++ l2, r1 ++ r2, ?_, ?_, ?_, ?_⟩, kq.trans h.queue, kh.trans h.head, kg.trans h.headGen,
    kt.trans h.tail, ?_⟩
  · rw [e2, e1]; simp
  · intro e he; rcases List.mem_append.1 he with he | he; exacts [hr1 e he, hr2 e he]
  · intro e he; rcases List.mem_append.1 he with he | he; exacts [hn1 e he, hn2 e he]
  · intro hp
    obtain ⟨a, b⟩ := hm1 hp
    obtain ⟨c, d⟩ := hm2 (by rw [b]; exact hp)
    exact ⟨by simp [a, c], d.trans b⟩
  · intro a
    have := ks a
    rwa [h.store] at this

/-- A program begins: a body program in a BLANK slot, or a mark program. -/
theorem beginProgram_frame (s : State) (p : Program) (h : p.kind = .body → (s.store.read p.ref.addr).state = .blank) :
    PortFrame s (beginProgram s p) := by
  unfold beginProgram
  split_ifs with hk
  · refine ⟨⟨[], [], ?_, by simp, by simp, fun _ => ⟨rfl, rfl⟩⟩, rfl, rfl, rfl, rfl, ?_⟩
    · simp [State.markSlot, State.setSlot, State.setPort]
    · intro a
      by_cases ha : p.ref.addr = a
      · refine .inr ⟨p, by simp [State.markSlot], hk, ha, ha ▸ h hk, ?_⟩
        have hne : ({ (s.setPort { s.port with program := some p }).store.read p.ref.addr with
            state := SlotState.writing } : Slot) ≠ Slot.erased := fun e => by
          have := congrArg Slot.state e
          simp [Slot.erased] at this
        subst ha
        simp only [State.markSlot, setSlot_store]
        rw [store_read_write_kept _ _ _ hne]; rfl
      · refine .inl ?_
        simp only [State.markSlot, setSlot_store]
        rw [store_read_write_other _ _ _ _ (Ne.symm ha)]; rfl
  · exact (Quiet.plain s.journal _ rfl rfl rfl rfl).portFrame

theorem beginProgram_busy (s : State) (p : Program) : (beginProgram s p).port.program = some p := by
  unfold beginProgram
  split_ifs <;> simp [State.markSlot]

theorem openNext_quiet (s : State) (h : Nat) : Quiet s (openNext s h) := by
  unfold openNext
  split_ifs
  · exact Quiet.plain _ s.port rfl rfl rfl rfl
  · exact Quiet.refl s
  · exact ⟨⟨[], [.stall true], by simp [State.hand, State.setJournal], by simp, by simp, fun _ => ⟨rfl, rfl⟩⟩,
      rfl, rfl, rfl, rfl⟩

theorem advanceSlot_quiet (s : State) : Quiet s (advanceSlot s) := by
  have hq : Quiet s (s.setJournal { s.journal with next := s.journal.next + 1 }) :=
    Quiet.plain _ s.port rfl rfl rfl rfl
  unfold advanceSlot
  split
  · split_ifs
    · exact hq.trans (openNext_quiet _ _)
    · exact hq
  · exact hq

theorem openFirst_quiet (s : State) : Quiet s (openFirst s) := by
  unfold openFirst
  split_ifs
  · exact Quiet.plain _ s.port rfl rfl rfl rfl
  · exact Quiet.refl s

theorem startReclaim_quiet (s : State) : Quiet s (startReclaim s) := by
  unfold startReclaim
  split_ifs
  · exact Quiet.plain _ s.port rfl rfl rfl rfl
  · exact Quiet.refl s

theorem advanceScan_quiet (s : State) : Quiet s (advanceScan s) := by
  unfold advanceScan
  split_ifs
  · exact Quiet.refl s
  · split
    · split
      · exact Quiet.plain _ s.port rfl rfl rfl rfl
      · exact Quiet.plain _ _ rfl rfl rfl rfl
    · exact Quiet.refl s

theorem openRefused_quiet (s : State) : Quiet s (openRefused s) := by
  unfold openRefused
  dsimp only
  split_ifs
  · exact Quiet.plain _ s.port rfl rfl rfl rfl
  · exact ⟨⟨[], [.stall true], by simp [State.hand, State.setJournal], by simp, by simp, fun _ => ⟨rfl, rfl⟩⟩,
      rfl, rfl, rfl, rfl⟩

theorem writeRefused_quiet (s : State) (w : JWrite) : Quiet s (writeRefused s w) := by
  unfold writeRefused
  split
  · exact openRefused_quiet s
  · exact advanceSlot_quiet s

theorem erasePhase_quiet (s : State) (ph : ErasePhase) : Quiet s (s.erasePhase ph) :=
  Quiet.plain s.journal _ rfl rfl rfl rfl

@[simp] theorem erasePhase_store (s : State) (ph : ErasePhase) : (s.erasePhase ph).store = s.store := rfl

/-- A choice of the arbiter: quiet, or a program begins and the port is busy. -/
def Chooses (s t : State) : Prop := Quiet s t ∨ (PortFrame s t ∧ t.port.program.isSome)

theorem begin_chooses (s : State) (p : Program) (h : p.kind = .body → (s.store.read p.ref.addr).state = .blank) :
    Chooses s (beginProgram s p) :=
  .inr ⟨beginProgram_frame s p h, by simp [beginProgram_busy]⟩

theorem Chooses.after {s m t : State} (h : Quiet s m) (k : Chooses m t) : Chooses s t :=
  k.elim (fun k => .inl (h.trans k)) fun k => .inr ⟨h.then k.1, k.2⟩

theorem carryJournal_chooses (s : State) : Chooses s (carryJournal s) := by
  unfold carryJournal
  split
  · split_ifs
    · exact begin_chooses _ _ (by simp)
    · have hq : Quiet s (s.setJournal { s.journal with write := none }) := Quiet.plain _ s.port rfl rfl rfl rfl
      exact .inl (hq.trans (writeRefused_quiet _ _))
  · split
    · rename_i w content _
      split_ifs with hb
      · have hq : Quiet s (s.setJournal { s.journal with write := some w }) :=
          Quiet.plain _ s.port rfl rfl rfl rfl
        exact Chooses.after hq (begin_chooses _ ⟨.journal, .body, w.ref, content⟩ fun _ => hb)
      · exact .inl (writeRefused_quiet s _)
    · exact .inl (Quiet.refl s)

theorem carryRetiring_chooses (s : State) (seg : Nat) : Chooses s (carryRetiring s seg) := by
  have hq := erasePhase_quiet s (.retiring true)
  unfold carryRetiring
  dsimp only
  split
  · rename_i hb
    refine Chooses.after hq (begin_chooses _ _ fun _ => ?_)
    rw [erasePhase_store]
    exact hb
  · exact Chooses.after hq (begin_chooses _ _ fun h => nomatch h)
  · exact Chooses.after hq (begin_chooses _ _ fun h => nomatch h)
  · exact .inl (erasePhase_quiet s .active)

theorem postProgramDone_quiet (s : State) (ref : Ref) (hp : s.mgmt.state = .programming) :
    Quiet s (postProgramDone (endCommand s .failed .overwrite) .overwrite ref) where
  frame := ⟨[s.notice .storeDone (16 + StoreResult.overwrite.code) none none (ref.seg * 65536 + ref.slot)], [],
    by simp [postProgramDone, endCommand, post, State.notice], by simp, by simp [State.notice], fun h => absurd hp h⟩
  queue := rfl
  head := rfl
  headGen := rfl
  tail := rfl

theorem carryManagement_chooses (s : State) (x : Target) (hp : s.mgmt.state = .programming) :
    Chooses s (carryManagement s x) := by
  unfold carryManagement
  split_ifs with h1 h2
  · exact begin_chooses _ _ (by simp)
  · exact begin_chooses _ _ fun _ => by simpa [State.slotState] using h2.2
  · exact .inl (postProgramDone_quiet s x.ref hp)

theorem arbitrateOnce_chooses (s : State) : Chooses s (arbitrateOnce s).1 := by
  unfold arbitrateOnce
  by_cases h1 : s.port.program.isSome
  · rw [if_pos h1]; exact .inl (Quiet.refl s)
  rw [if_neg h1]
  by_cases h2 : s.journalWants
  · rw [if_pos h2]
    split
    · exact .inl (erasePhase_quiet s _)
    · exact .inl (Quiet.refl s)
    · exact carryJournal_chooses s
  rw [if_neg h2]
  split
  · split
    · exact carryRetiring_chooses s _
    · exact .inl (erasePhase_quiet s _)
    · exact .inl (Quiet.refl s)
  · split
    · rename_i x hx
      have hp : s.mgmt.state = .programming := by
        unfold State.wantsProgram at hx
        split_ifs at hx with hp
        exact hp
      exact carryManagement_chooses s x hp
    · split
      · exact .inl (Quiet.plain s.journal _ rfl rfl rfl rfl)
      · by_cases h3 : s.port.listErase
        · rw [if_pos h3]
          split
          · exact .inl (Quiet.plain s.journal _ rfl rfl rfl rfl)
          · exact .inl (Quiet.refl s)
        · rw [if_neg h3]; exact .inl (Quiet.refl s)

theorem arbitrateOnce_busy (s : State) (h : s.port.program.isSome) : arbitrateOnce s = (s, false) := by
  simp [arbitrateOnce, h]

theorem arbitrateLoop_busy (n : Nat) (s : State) (h : s.port.program.isSome) : arbitrateLoop n s = s := by
  cases n with
  | zero => rfl
  | succ n => simp [arbitrateLoop, arbitrateOnce_busy s h]

theorem arbitrateLoop_frame (n : Nat) (s : State) : PortFrame s (arbitrateLoop n s) := by
  induction n generalizing s with
  | zero => exact portFrame_refl s
  | succ n ih =>
    simp only [arbitrateLoop]
    have hc := arbitrateOnce_chooses s
    split_ifs
    · rcases hc with hq | ⟨hs, hb⟩
      · exact hq.then (ih _)
      · rw [arbitrateLoop_busy _ _ hb]; exact hs
    · rcases hc with hq | ⟨hs, -⟩
      · exact hq.portFrame
      · exact hs

/-- What follows at once from the state of the Journal Engine and the port touches nothing else. -/
theorem pump_portFrame (s : State) : PortFrame s (pump s) :=
  ((openFirst_quiet s).trans ((startReclaim_quiet _).trans (advanceScan_quiet _))).then (arbitrateLoop_frame 300 _)

/-- After pump the fields of other blocks are as they were. -/
theorem pump_frame (s : State) : ∃ (later : List Notice) (reports : List EngEvent), pump s = { s with
    journal := (pump s).journal, store := (pump s).store, port := (pump s).port, mgmt := (pump s).mgmt,
    notices := later.foldl NoticeQueue.post s.notices,
    engine := { s.engine with inbox := s.engine.inbox ++ reports } } := by
  obtain ⟨⟨later, reports, e, -⟩, -⟩ := pump_portFrame s
  exact ⟨later, reports, e⟩

@[simp] theorem pump_units (s : State) : (pump s).units = s.units := by obtain ⟨_, _, e⟩ := pump_frame s; rw [e]
@[simp] theorem pump_bands (s : State) : (pump s).bands = s.bands := by obtain ⟨_, _, e⟩ := pump_frame s; rw [e]
@[simp] theorem pump_timers (s : State) : (pump s).timers = s.timers := by obtain ⟨_, _, e⟩ := pump_frame s; rw [e]
@[simp] theorem pump_drive (s : State) : (pump s).drive = s.drive := by obtain ⟨_, _, e⟩ := pump_frame s; rw [e]
@[simp] theorem pump_banks (s : State) : (pump s).banks = s.banks := by obtain ⟨_, _, e⟩ := pump_frame s; rw [e]
@[simp] theorem pump_tables (s : State) : (pump s).tables = s.tables := by obtain ⟨_, _, e⟩ := pump_frame s; rw [e]
@[simp] theorem pump_taps (s : State) : (pump s).taps = s.taps := by obtain ⟨_, _, e⟩ := pump_frame s; rw [e]
@[simp] theorem pump_clock (s : State) : (pump s).clock = s.clock := by obtain ⟨_, _, e⟩ := pump_frame s; rw [e]
@[simp] theorem pump_pending (s : State) : (pump s).pending = s.pending := by obtain ⟨_, _, e⟩ := pump_frame s; rw [e]
@[simp] theorem pump_queue (s : State) : (pump s).journal.queue = s.journal.queue := (pump_portFrame s).2.1

end Sys2Proof.Machine
end

