-- ==== Sys2Proof/Laws/Arbiter.lean ====
section
/-! SUPPORT. The Journal Engine and the arbiter do what PortServes says: pump_serves, over one lemma for each of their
functions. -/

namespace Sys2Proof.Machine

/-! ### The ring and what is live -/

theorem segBlank_iff (s : State) (g : Nat) : s.segBlank g = true ↔ SegClear s g := by
  simp only [State.segBlank, SegClear, List.all_eq_true, Bool.or_eq_true, decide_eq_true_eq]
  exact forall₂_congr fun e _ => by tauto

theorem liveAt_iff (s : State) (r : Ref) (u : UnitIx) (isBind : Bool) :
    s.liveAt r = some (u, isBind) ↔ Live s r u isBind := by
  unfold State.liveAt Live
  dsimp only
  by_cases hv : (s.store.read r.addr).state = .valid
  · rw [if_pos hv]
    cases hj : jrec? (s.store.read r.addr).content with
    | none => simp [hv]
    | some j =>
      cases j with
      | bind v b c since =>
        by_cases hr : (s.unit v).journalRef = some r <;> cases isBind <;> simp [hv, hr]
        · rintro rfl; exact hr
        · rintro rfl; exact hr
      | state v k =>
        by_cases hr : (s.unit v).stateRef = some r <;> cases isBind <;> simp [hv, hr]
        · rintro rfl; exact hr
        · rintro rfl; exact hr
      | release v => simp [hv]
  · simp [hv]

theorem liveSlot_iff (s : State) (g i : Nat) : (s.liveAt ⟨g, i⟩).isSome = true ↔ LiveSlot s g i := by
  rw [Option.isSome_iff_exists]
  constructor
  · rintro ⟨⟨u, b⟩, h⟩; exact ⟨u, b, (liveAt_iff s _ u b).1 h⟩
  · rintro ⟨u, b, h⟩; exact ⟨(u, b), (liveAt_iff s _ u b).2 h⟩

theorem mem_liveFrom (s : State) (g p i : Nat) : i ∈ s.liveFrom g p ↔ p ≤ i ∧ i ≤ 127 ∧ LiveSlot s g i := by
  simp only [State.liveFrom, List.mem_filter, List.mem_range, Bool.and_eq_true, decide_eq_true_eq, liveSlot_iff]
  constructor
  · rintro ⟨h, h1, h2⟩; exact ⟨h1, by omega, h2⟩
  · rintro ⟨h1, h, h2⟩; exact ⟨by omega, h1, h2⟩

theorem liveFrom_nodup (s : State) (g p : Nat) : (s.liveFrom g p).Nodup := List.nodup_range.filter _

theorem liveFrom_sorted (s : State) (g p : Nat) : (s.liveFrom g p).Pairwise (· < ·) :=
  List.pairwise_lt_range.filter _

theorem recordFits_iff (s : State) (g p : Nat) : s.roomAfterRecord g p = true ↔ RecordFits s g p := by
  simp only [State.roomAfterRecord, decide_eq_true_eq, RecordFits]
  constructor
  · exact fun h => ⟨s.liveFrom g p, liveFrom_nodup s g p, mem_liveFrom s g p, h⟩
  · rintro ⟨l, hn, hm, h⟩
    have : l.Perm (s.liveFrom g p) := (List.perm_ext_iff_of_nodup hn (liveFrom_nodup s g p)).2 fun i => by
      rw [hm, mem_liveFrom]
    rwa [← this.length_eq]

theorem openNext_clear (s : State) (h : Nat) (hc : SegClear s (roundNext h)) : openNext s h =
    { s with journal := { s.journal with opening := some (roundNext h), blanks := s.journal.blanks - 1 } } := by
  unfold openNext
  rw [if_pos (show s.segBlank (ringNext h) = true from (segBlank_iff s _).2 hc)]
  rfl

theorem openNext_dirty (s : State) (h : Nat) (hc : ¬SegClear s (roundNext h)) : openNext s h = { s with
    journal := { s.journal with stalled := true }
    engine := { s.engine with
      inbox := if s.journal.stalled then s.engine.inbox else s.engine.inbox ++ [.stall true] } } := by
  unfold openNext
  rw [if_neg fun e : s.segBlank (ringNext h) = true => hc ((segBlank_iff s _).1 e)]
  by_cases hs : s.journal.stalled = true
  · rw [if_pos hs, if_pos hs, ← hs]
  · rw [if_neg hs, if_neg hs]; rfl

theorem advanceSlot_advances (s : State) : SlotAdvances s (advanceSlot s) := by
  have eq (h : Nat) (hh : s.journal.head = some h) (hn : s.journal.next + 1 = 128) :
      advanceSlot s = openNext (s.setJournal { s.journal with next := 128 }) h := by
    unfold advanceSlot
    rw [hh]
    dsimp only
    rw [if_pos hn, hn]
  refine ⟨fun h hf hc => ?_, fun h hf hc => ?_, fun hf => ?_⟩
  · exact (eq h hf.1 hf.2).trans (openNext_clear (s.setJournal { s.journal with next := 128 }) h hc)
  · exact (eq h hf.1 hf.2).trans (openNext_dirty (s.setJournal { s.journal with next := 128 }) h hc)
  · unfold advanceSlot
    cases hh : s.journal.head with
    | none => rfl
    | some h => exact if_neg fun e => hf h ⟨hh, e⟩

theorem writeRefused_refused (s : State) (w : JWrite) : WriteRefused s (writeRefused s w) w := by
  unfold WriteRefused writeRefused
  cases hw : w.what with
  | header =>
    refine ⟨fun h => absurd rfl h, fun _ h => ?_, fun _ h1 h2 => ?_⟩
    · unfold openRefused
      have : (s.journal.head.isNone || s.journal.stalled) = true := by
        rcases h with h | h <;> simp [h]
      simp [this, State.setJournal]
    · unfold openRefused
      have : (s.journal.head.isNone || s.journal.stalled) = false := by
        cases hh : s.journal.head with
        | none => exact absurd hh h1
        | some _ => simp [h2]
      simp [this, State.setJournal, State.hand]
  | queued => exact ⟨fun _ => advanceSlot_advances s, (fun h => nomatch h), (fun h => nomatch h)⟩
  | copy u b o c => exact ⟨fun _ => advanceSlot_advances s, (fun h => nomatch h), (fun h => nomatch h)⟩

/-! ### What the Journal Engine presents -/

/-- A copy is due exactly as nextRecord finds it. -/
theorem copyDue_iff (s : State) (u : UnitIx) (isBind : Bool) (orig : Ref) :
    CopyDue s u isBind orig ↔ s.journal.reclaim = .copying orig.slot ∧ s.journal.tail = some orig.seg ∧
      s.liveAt orig = some (u, isBind) ∧ (s.journal.queue = [] ∨
        ¬(s.roomAfterRecord orig.seg orig.slot = true ∧ s.journal.turn = some .copy)) := by
  unfold CopyDue
  rw [liveAt_iff, not_and_or, recordFits_iff]

theorem nextRecord_iff (s : State) (h : Nat) (w : JWrite) (content : List Byte) :
    nextRecord s h = some (w, content) ↔
      ((∃ u isBind orig, CopyDue s u isBind orig ∧ w = ⟨.copy u isBind orig false, ⟨h, s.journal.next⟩, false⟩ ∧
          content = (s.store.read orig.addr).content) ∨
        (∃ q more, s.journal.queue = q :: more ∧ (∀ u isBind orig, ¬CopyDue s u isBind orig) ∧
          w = ⟨.queued, ⟨h, s.journal.next⟩, false⟩ ∧ content = q.body.bytes)) := by
  simp only [copyDue_iff]
  have plain (hn : ∀ p t u b, s.journal.reclaim = .copying p → s.journal.tail = some t →
      s.liveAt ⟨t, p⟩ ≠ some (u, b)) :
      (s.journal.queue.head?.map fun q => ((⟨.queued, ⟨h, s.journal.next⟩, false⟩ : JWrite), q.body.bytes)) =
          some (w, content) ↔
        ((∃ u isBind orig, (s.journal.reclaim = .copying orig.slot ∧ s.journal.tail = some orig.seg ∧
            s.liveAt orig = some (u, isBind) ∧ (s.journal.queue = [] ∨
              ¬(s.roomAfterRecord orig.seg orig.slot = true ∧ s.journal.turn = some .copy))) ∧
            w = ⟨.copy u isBind orig false, ⟨h, s.journal.next⟩, false⟩ ∧
            content = (s.store.read orig.addr).content) ∨
          (∃ q more, s.journal.queue = q :: more ∧ (∀ u isBind (orig : Ref), ¬(s.journal.reclaim = .copying orig.slot ∧
            s.journal.tail = some orig.seg ∧ s.liveAt orig = some (u, isBind) ∧ (s.journal.queue = [] ∨
              ¬(s.roomAfterRecord orig.seg orig.slot = true ∧ s.journal.turn = some .copy)))) ∧
            w = ⟨.queued, ⟨h, s.journal.next⟩, false⟩ ∧ content = q.body.bytes)) := by
    constructor
    · intro e
      cases hq : s.journal.queue with
      | nil => simp [hq] at e
      | cons q more =>
        simp only [hq, List.head?_cons, Option.map_some, Option.some.injEq, Prod.mk.injEq] at e
        exact .inr ⟨q, more, rfl, fun u b o c => hn _ _ u b c.1 c.2.1 c.2.2.1, e.1.symm, e.2.symm⟩
    · rintro (⟨u, b, o, c, -⟩ | ⟨q, more, hq, -, rfl, rfl⟩)
      · exact absurd c.2.2.1 (hn _ _ u b c.1 c.2.1)
      · simp [hq]
  unfold nextRecord
  dsimp only
  split
  · rename_i p t hp ht
    cases hl : s.liveAt ⟨t, p⟩ with
    | none =>
      dsimp only
      refine plain fun p' t' u b e1 e2 => ?_
      rw [hp] at e1; rw [ht] at e2
      cases e1; cases e2
      simp [hl]
    | some x =>
      obtain ⟨u, b⟩ := x
      dsimp only
      have only (u' : UnitIx) (b' : Bool) (o : Ref) (e1 : s.journal.reclaim = .copying o.slot)
          (e2 : s.journal.tail = some o.seg) (e3 : s.liveAt o = some (u', b')) : o = ⟨t, p⟩ ∧ u' = u ∧ b' = b := by
        rw [hp] at e1; rw [ht] at e2
        obtain ⟨g, i⟩ := o
        cases e1; cases e2
        rw [hl] at e3
        cases e3
        exact ⟨rfl, rfl, rfl⟩
      cases hq : s.journal.queue with
      | nil =>
        simp only [List.head?_nil, Option.map_none, Option.some.injEq, Prod.mk.injEq]
        constructor
        · rintro ⟨rfl, rfl⟩
          exact .inl ⟨u, b, ⟨t, p⟩, ⟨hp, ht, hl, .inl trivial⟩, rfl, rfl⟩
        · rintro (⟨u', b', o, c, rfl, rfl⟩ | ⟨q, more, hq', -⟩)
          · obtain ⟨rfl, rfl, rfl⟩ := only u' b' o c.1 c.2.1 c.2.2.1
            exact ⟨rfl, rfl⟩
          · cases hq'
      | cons q more =>
        simp only [List.head?_cons, Option.map_some]
        split_ifs with hr
        · simp only [Option.some.injEq, Prod.mk.injEq]
          constructor
          · rintro ⟨rfl, rfl⟩
            refine .inr ⟨q, more, rfl, fun u' b' o c => ?_, rfl, rfl⟩
            obtain ⟨rfl, rfl, rfl⟩ := only u' b' o c.1 c.2.1 c.2.2.1
            rcases c.2.2.2 with c | c
            · cases c
            · exact c hr
          · rintro (⟨u', b', o, c, rfl, rfl⟩ | ⟨q', more', e, -, rfl, rfl⟩)
            · obtain ⟨rfl, rfl, rfl⟩ := only u' b' o c.1 c.2.1 c.2.2.1
              rcases c.2.2.2 with c | c
              · cases c
              · exact absurd hr c
            · cases e; exact ⟨rfl, rfl⟩
        · simp only [Option.some.injEq, Prod.mk.injEq]
          constructor
          · rintro ⟨rfl, rfl⟩
            exact .inl ⟨u, b, ⟨t, p⟩, ⟨hp, ht, hl, .inr hr⟩, rfl, rfl⟩
          · rintro (⟨u', b', o, c, rfl, rfl⟩ | ⟨q', more', e, hn, -⟩)
            · obtain ⟨rfl, rfl, rfl⟩ := only u' b' o c.1 c.2.1 c.2.2.1
              exact ⟨rfl, rfl⟩
            · exact absurd ⟨hp, ht, hl, .inr hr⟩ (hn u b ⟨t, p⟩)
  · rename_i hne
    exact plain fun p t u b e1 e2 _ => hne p t e1 e2

theorem nextWrite_iff (s : State) (w : JWrite) (content : List Byte) :
    s.journal.write = none ∧ nextWrite s = some (w, content) ↔ WriteDue s w content := by
  unfold WriteDue nextWrite
  refine and_congr_right fun _ => ?_
  cases ho : s.journal.opening with
  | some g =>
    simp only [Option.some.injEq, Prod.mk.injEq, reduceCtorEq, false_and, or_false]
    constructor
    · rintro ⟨rfl, rfl⟩; exact ⟨g, rfl, rfl, rfl⟩
    · rintro ⟨g', rfl, rfl, rfl⟩; exact ⟨rfl, rfl⟩
  | none =>
    simp only [reduceCtorEq, false_and, exists_const, true_and, false_or]
    cases hh : s.journal.head with
    | none => simp
    | some h =>
      simp only [Option.some.injEq, exists_eq_left']
      split_ifs with hn
      · rw [nextRecord_iff]; simp [hn]
      · simp [hn]

theorem journalWants_iff (s : State) : s.journalWants = true ↔ JournalPresents s := by
  unfold State.journalWants JournalPresents
  cases hw : s.journal.write with
  | some w => simp [WriteDue, hw]
  | none =>
    dsimp only
    rw [Option.isSome_iff_exists]
    constructor
    · rintro ⟨⟨w, c⟩, h⟩; exact .inr ⟨w, c, (nextWrite_iff s w c).1 ⟨hw, h⟩⟩
    · rintro (⟨w, h, -⟩ | ⟨w, c, h⟩)
      · exact nomatch h
      · exact ⟨(w, c), ((nextWrite_iff s w c).2 h).2⟩

/-! ### Getting ready -/

theorem liveFrom_first {s : State} {g p q : Nat} {l : List Nat} (h : s.liveFrom g p = q :: l) :
    p ≤ q ∧ q ≤ 127 ∧ LiveSlot s g q ∧ ∀ i, p ≤ i → i < q → ¬LiveSlot s g i := by
  obtain ⟨h1, h2, h3⟩ := (mem_liveFrom s g p q).1 (h ▸ List.mem_cons_self)
  refine ⟨h1, h2, h3, fun i hp hq hl => ?_⟩
  have hi : i ∈ q :: l := h ▸ (mem_liveFrom s g p i).2 ⟨hp, by omega, hl⟩
  have hs := h ▸ liveFrom_sorted s g p
  rcases List.mem_cons.1 hi with rfl | hi
  · omega
  · have := (List.pairwise_cons.1 hs).1 i hi; omega

theorem copyUnderWay_iff (s : State) : s.copyUnderWay = true ↔
    ∃ w u isBind orig cancel, s.journal.write = some w ∧ w.what = .copy u isBind orig cancel := by
  unfold State.copyUnderWay
  cases s.journal.write with
  | none => simp
  | some w =>
    cases hw : w.what with
    | queued => simp [hw]
    | header => simp [hw]
    | copy u b o c => simp only [hw, true_iff]; exact ⟨w, u, b, o, c, rfl, hw⟩

theorem advanceScan_still (s : State)
    (h : (∀ p, s.journal.reclaim ≠ .copying p) ∨ s.journal.tail = none ∨ s.copyUnderWay = true) :
    advanceScan s = s := by
  unfold advanceScan
  split_ifs with hc
  · rfl
  · split
    · rename_i p g hr ht
      rcases h with h | h | h
      · exact absurd hr (h p)
      · rw [ht] at h; exact nomatch h
      · exact absurd h hc
    · rfl

theorem advanceScan_next (s : State) {p g q : Nat} {l : List Nat} (hr : s.journal.reclaim = .copying p)
    (ht : s.journal.tail = some g) (hc : s.copyUnderWay = false) (hl : s.liveFrom g p = q :: l) :
    advanceScan s = s.setJournal { s.journal with reclaim := .copying q } := by
  unfold advanceScan
  rw [if_neg (by simp [hc])]
  split
  · rename_i p' g' hr' ht'
    rw [hr] at hr'; rw [ht] at ht'
    cases hr'; cases ht'
    rw [hl]
  · rename_i hne
    exact (hne p g hr ht).elim

theorem advanceScan_end (s : State) {p g : Nat} (hr : s.journal.reclaim = .copying p)
    (ht : s.journal.tail = some g) (hc : s.copyUnderWay = false) (hl : s.liveFrom g p = []) : advanceScan s =
      (s.setJournal { s.journal with reclaim := .erasePending }).setPort { s.port with journalErase := some g } := by
  unfold advanceScan
  rw [if_neg (by simp [hc])]
  split
  · rename_i p' g' hr' ht'
    rw [hr] at hr'; rw [ht] at ht'
    cases hr'; cases ht'
    rw [hl]
  · rename_i hne
    exact (hne p g hr ht).elim

/-- What the scan makes of a reclaim that is copying. -/
theorem advanceScan_scans (s : State) : let t := advanceScan s
    t = { s with
      journal := { s.journal with reclaim := t.journal.reclaim }
      port := { s.port with journalErase := t.port.journalErase } } ∧
    (∀ p g, s.journal.reclaim = .copying p → s.journal.tail = some g → s.copyUnderWay = false →
      (∀ q, p ≤ q → q ≤ 127 → LiveSlot s g q → (∀ i, p ≤ i → i < q → ¬LiveSlot s g i) →
        t.journal.reclaim = .copying q ∧ t.port.journalErase = s.port.journalErase) ∧
      ((∀ i, p ≤ i → i ≤ 127 → ¬LiveSlot s g i) →
        t.journal.reclaim = .erasePending ∧ t.port.journalErase = some g)) := by
  dsimp only
  by_cases h : (∀ p, s.journal.reclaim ≠ .copying p) ∨ s.journal.tail = none ∨ s.copyUnderWay = true
  · rw [advanceScan_still s h]
    refine ⟨rfl, fun p g hr ht hc => ?_⟩
    rcases h with h | h | h
    · exact absurd hr (h p)
    · rw [ht] at h; exact nomatch h
    · rw [hc] at h; exact nomatch h
  · simp only [not_or, not_forall, not_not, Bool.not_eq_true] at h
    obtain ⟨⟨p, hr⟩, ht, hc⟩ := h
    obtain ⟨g, ht⟩ := Option.ne_none_iff_exists'.1 ht
    cases hl : s.liveFrom g p with
    | nil =>
      rw [advanceScan_end s hr ht hc hl]
      refine ⟨rfl, fun p' g' hr' ht' _ => ?_⟩
      rw [hr] at hr'; rw [ht] at ht'
      cases hr'; cases ht'
      refine ⟨fun q h1 h2 h3 _ => ?_, fun _ => ⟨rfl, rfl⟩⟩
      have := (mem_liveFrom s g p q).2 ⟨h1, h2, h3⟩
      rw [hl] at this
      exact absurd this List.not_mem_nil
    | cons q l =>
      obtain ⟨h1, h2, h3, h4⟩ := liveFrom_first hl
      rw [advanceScan_next s hr ht hc hl]
      refine ⟨rfl, fun p' g' hr' ht' _ => ?_⟩
      rw [hr] at hr'; rw [ht] at ht'
      cases hr'; cases ht'
      refine ⟨fun q' k1 k2 k3 k4 => ?_, fun h => absurd h3 (h q h1 h2)⟩
      have : q' = q := by
        rcases Nat.lt_trichotomy q' q with hlt | heq | hgt
        · exact absurd k3 (h4 q' k1 hlt)
        · exact heq
        · exact absurd h3 (k4 q h1 hgt)
      rw [this]
      exact ⟨rfl, rfl⟩

/-- The fields of the Journal Engine that getting ready sets before the scan. -/
theorem reclaim_started (s : State) :
    let first : Prop :=
      s.journal.head = none ∧ s.journal.queue ≠ [] ∧ s.journal.opening = none ∧ s.journal.write = none
    ∃ o n rc tn, startReclaim (openFirst s) =
        s.setJournal { s.journal with opening := o, blanks := n, reclaim := rc, turn := tn } ∧
      (first → o = some 16 ∧ n = s.journal.blanks - 1) ∧ (¬first → o = s.journal.opening ∧ n = s.journal.blanks) ∧
      (let starts : Prop := s.startUp = .running ∧ n ≤ 3 ∧ s.journal.reclaim = .idle ∧ s.journal.tail ≠ none
       (starts → rc = .copying 1 ∧ tn = none) ∧ (¬starts → rc = s.journal.reclaim ∧ tn = s.journal.turn)) := by
  dsimp only
  have h1 : ∃ o n, openFirst s = s.setJournal { s.journal with opening := o, blanks := n } ∧
      ((s.journal.head = none ∧ s.journal.queue ≠ [] ∧ s.journal.opening = none ∧ s.journal.write = none) →
        o = some 16 ∧ n = s.journal.blanks - 1) ∧
      (¬(s.journal.head = none ∧ s.journal.queue ≠ [] ∧ s.journal.opening = none ∧ s.journal.write = none) →
        o = s.journal.opening ∧ n = s.journal.blanks) := by
    unfold openFirst
    split_ifs with h
    · exact ⟨some 16, s.journal.blanks - 1, rfl, fun _ => ⟨rfl, rfl⟩, fun k => absurd h k⟩
    · exact ⟨s.journal.opening, s.journal.blanks, rfl, fun k => absurd k h, fun _ => ⟨rfl, rfl⟩⟩
  obtain ⟨o, n, e, k1, k2⟩ := h1
  rw [e]
  unfold startReclaim
  have iff : ((s.setJournal { s.journal with opening := o, blanks := n }).startUp = .running ∧
      (s.setJournal { s.journal with opening := o, blanks := n }).journal.blanks ≤ Config.reclaimAt ∧
      (s.setJournal { s.journal with opening := o, blanks := n }).journal.reclaim = .idle ∧
      (s.setJournal { s.journal with opening := o, blanks := n }).journal.tail.isSome) ↔
      (s.startUp = .running ∧ n ≤ 3 ∧ s.journal.reclaim = .idle ∧ s.journal.tail ≠ none) := by
    simp [State.setJournal, Config.reclaimAt, Option.isSome_iff_ne_none]
  by_cases h : s.startUp = .running ∧ n ≤ 3 ∧ s.journal.reclaim = .idle ∧ s.journal.tail ≠ none
  · rw [if_pos (iff.2 h)]
    exact ⟨o, n, .copying 1, none, rfl, k1, k2, fun _ => ⟨rfl, rfl⟩, fun k => absurd h k⟩
  · rw [if_neg fun k => h (iff.1 k)]
    exact ⟨o, n, s.journal.reclaim, s.journal.turn, rfl, k1, k2, fun k => absurd k h, fun _ => ⟨rfl, rfl⟩⟩

theorem pump_ready (s : State) : JournalReady s (advanceScan (startReclaim (openFirst s))) := by
  obtain ⟨o, n, rc, tn, e, k1, k2, k3, k4⟩ := reclaim_started s
  rw [e]
  obtain ⟨frame, scan⟩ :=
    advanceScan_scans (s.setJournal { s.journal with opening := o, blanks := n, reclaim := rc, turn := tn })
  generalize ht : advanceScan (s.setJournal { s.journal with opening := o, blanks := n, reclaim := rc, turn := tn }) =
    t at frame scan ⊢
  have still := ht ▸ advanceScan_still
    (s.setJournal { s.journal with opening := o, blanks := n, reclaim := rc, turn := tn })
  have copying : (s.setJournal { s.journal with
        opening := o, blanks := n, reclaim := rc, turn := tn }).copyUnderWay = true ↔
      ∃ w u isBind orig cancel, s.journal.write = some w ∧ w.what = .copy u isBind orig cancel := copyUnderWay_iff _
  have hb : t.journal.blanks = n := by rw [frame]; rfl
  have ho : t.journal.opening = o := by rw [frame]; rfl
  have hn : t.journal.turn = tn := by rw [frame]; rfl
  have rcOf (p : Nat) (h : ((s.startUp = .running ∧ t.journal.blanks ≤ 3 ∧ s.journal.reclaim = .idle ∧
      s.journal.tail ≠ none) ∧ p = 1) ∨ s.journal.reclaim = .copying p) : rc = .copying p := by
    rw [hb] at h
    rcases h with ⟨h, rfl⟩ | h
    · exact (k3 h).1
    · exact (k4 fun k => by rw [h] at k; exact nomatch k.2.2.1).1.trans h
  refine ⟨?_, ?_, ?_, ?_, ?_, ?_, ?_, ?_⟩
  · refine frame.trans ?_
    rw [ho, hb, hn]
    rfl
  · intro h; rw [ho, hb]; exact k1 h
  · intro h; rw [ho, hb]; exact k2 h
  · intro h; rw [hb] at h; rw [hn]; exact (k3 h).2
  · intro h; rw [hb] at h; rw [hn]; exact (k4 h).2
  · intro p g hp hg hc
    exact scan p g (rcOf p hp) hg (by rw [← Bool.not_eq_true]; exact fun h => hc (copying.1 h))
  · intro p hp h
    have := still (.inr (h.imp id copying.2))
    rw [this]
    exact ⟨rcOf p hp, rfl⟩
  · intro h
    have hs : ¬(s.startUp = .running ∧ n ≤ 3 ∧ s.journal.reclaim = .idle ∧ s.journal.tail ≠ none) :=
      fun k => h 1 (.inl ⟨hb ▸ k, rfl⟩)
    have hr := (k4 hs).1
    have := still (.inl fun p hp => h p (.inr (hr ▸ hp)))
    rw [this]
    exact ⟨hr, rfl⟩

/-! ### The arbiter's choices -/

theorem beginProgram_begins (s : State) (p : Program) : Begins s (beginProgram s p) p := by
  unfold Begins beginProgram
  by_cases h : p.kind = .body
  · simp only [h, if_true]; rfl
  · simp only [h, if_false]; rfl

theorem erasePhase_eq (s : State) (e : Erase) (ph : ErasePhase) (h : s.port.erase = some e) :
    s.erasePhase ph = { s with port := { s.port with erase := some { e with phase := ph } } } := by
  simp [State.erasePhase, h, State.setPort]

theorem wantsProgram_iff (s : State) (x : Target) : s.wantsProgram = some x ↔ ProgramRequested s x := by
  unfold State.wantsProgram ProgramRequested
  split_ifs with h
  · simp [h, Option.filter_eq_some_iff]
  · simp [h]

theorem no_request (s : State) (h : s.wantsProgram = none) (x : Target) : ¬ProgramRequested s x := fun k => by
  rw [(wantsProgram_iff s x).2 k] at h; exact nomatch h

/-- With a program on the port there is no choice. -/
theorem rests_busy {s : State} (h : s.port.program ≠ none) (t : State) : ¬ArbiterTurn s t := fun k => by
  cases k <;> exact h ‹s.port.program = none›

/-- A choice of the arbiter, and whether it may have another. -/
def TurnOf (s : State) (r : State × Bool) : Prop :=
  ArbiterTurn s r.1 ∧ (r.2 = false → ∀ u, ¬ArbiterTurn r.1 u)

theorem carryJournal_turn (s : State) (hp : s.port.program = none) (hj : JournalPresents s) (he : ErasePaused s) :
    ArbiterTurn s (carryJournal s) := by
  unfold carryJournal
  cases hw : s.journal.write with
  | some w =>
    have hd : w.bodyDone = true := by
      rcases hj with ⟨w', h1, h2⟩ | ⟨w', c, h, -⟩
      · rw [hw] at h1; cases h1; exact h2
      · rw [hw] at h; exact nomatch h
    dsimp only
    split_ifs with h
    · exact .valid hp hw hd he h (beginProgram_begins _ _)
    · exact .validRefused hp hw hd he h (writeRefused_refused _ _)
  | none =>
    dsimp only
    cases hn : nextWrite s with
    | none =>
      rcases hj with ⟨w', h1, -⟩ | ⟨w', c, h⟩
      · rw [hw] at h1; exact nomatch h1
      · have := ((nextWrite_iff s w' c).2 h).2
        rw [hn] at this; exact nomatch this
    | some x =>
      obtain ⟨w, c⟩ := x
      have due := (nextWrite_iff s w c).1 ⟨hw, hn⟩
      dsimp only
      split_ifs with h
      · exact .body hp due he h (beginProgram_begins _ _)
      · exact .bodyRefused hp due he h (writeRefused_refused _ _)

theorem carryRetiring_turn (s : State) (e : Erase) (b : Bool) (hp : s.port.program = none) (hj : ¬JournalPresents s)
    (he : s.port.erase = some e) (hb : e.phase = .retiring b) : ArbiterTurn s (carryRetiring s e.seg) := by
  unfold carryRetiring
  dsimp only
  rw [erasePhase_eq s e _ he, erasePhase_eq s e _ he]
  split
  · exact .retiring hp hj he hb (by rw [‹s.slotState _ = _›]; exact ⟨rfl, rfl⟩) (beginProgram_begins _ _)
  · exact .retiring hp hj he hb (by rw [‹s.slotState _ = _›]; exact ⟨rfl, rfl⟩) (beginProgram_begins _ _)
  · exact .retiring hp hj he hb (by rw [‹s.slotState _ = _›]; exact ⟨rfl, rfl⟩) (beginProgram_begins _ _)
  · exact .proper hp hj he hb ‹_›

theorem carryManagement_turn (s : State) (x : Target) (hp : s.port.program = none) (hj : ¬JournalPresents s)
    (he : s.port.erase = none) (hx : ProgramRequested s x) : ArbiterTurn s (carryManagement s x) := by
  unfold carryManagement
  split_ifs with h1 h2
  · exact .management hp hj he hx (.inr ⟨h1.1, h1.2, rfl, rfl⟩) (beginProgram_begins _ _)
  · exact .management hp hj he hx (.inl ⟨by simpa using h2.1, h2.2, rfl, rfl⟩) (beginProgram_begins _ _)
  · refine .managementRefused hp hj he hx ?_
    cases hd : x.bodyDone
    · exact .inl ⟨rfl, fun k => h2 ⟨by simp [hd], k⟩⟩
    · exact .inr ⟨rfl, fun k => h1 ⟨hd, k⟩⟩

/-- The arbiter makes a turn, and where it stops there is no other; or it has none. -/
theorem arbitrateOnce_turn (s : State) : TurnOf s (arbitrateOnce s) ∨
    (arbitrateOnce s = (s, false) ∧ ∀ t, ¬ArbiterTurn s t) := by
  unfold arbitrateOnce
  by_cases hp : s.port.program = none
  swap
  · rw [if_pos (Option.isSome_iff_ne_none.2 hp)]
    exact .inr ⟨rfl, rests_busy hp⟩
  rw [if_neg (by simp [hp])]
  by_cases hw : s.journalWants = true
  · have hj := (journalWants_iff s).1 hw
    rw [if_pos hw]
    split
    · rename_i j g he
      refine .inl ⟨?_, fun _ u k => ?_⟩
      · dsimp only
        rw [erasePhase_eq s _ _ he]
        exact .suspend hp hj he rfl
      · dsimp only at k
        rw [erasePhase_eq s _ _ he] at k
        have hj' : JournalPresents { s with port := { s.port with erase := some ⟨j, g, .suspending⟩ } } := hj
        cases k with
        | suspend _ _ h h' => cases h; exact nomatch h'
        | valid _ _ _ h => exact (h _ rfl).2 rfl
        | validRefused _ _ _ h => exact (h _ rfl).2 rfl
        | body _ _ h => exact (h _ rfl).2 rfl
        | bodyRefused _ _ h => exact (h _ rfl).2 rfl
        | retiring _ h => exact h hj'
        | proper _ h => exact h hj'
        | resume _ h => exact h hj'
        | management _ h => exact h hj'
        | managementRefused _ h => exact h hj'
        | journalErase _ h => exact h hj'
        | listErase _ h => exact h hj'
    · rename_i j g he
      refine .inr ⟨rfl, fun u k => ?_⟩
      cases k with
      | suspend _ _ h h' => rw [he] at h; cases h; exact nomatch h'
      | valid _ _ _ h => exact (h _ he).2 rfl
      | validRefused _ _ _ h => exact (h _ he).2 rfl
      | body _ _ h => exact (h _ he).2 rfl
      | bodyRefused _ _ h => exact (h _ he).2 rfl
      | retiring _ h => exact h hj
      | proper _ h => exact h hj
      | resume _ h => exact h hj
      | management _ h => exact h hj
      | managementRefused _ h => exact h hj
      | journalErase _ h => exact h hj
      | listErase _ h => exact h hj
    · rename_i h1 h2
      refine .inl ⟨carryJournal_turn s hp hj fun e he => ⟨fun h => ?_, fun h => ?_⟩, fun h => nomatch h⟩
      · obtain ⟨j, g, ph⟩ := e; cases h; exact h1 j g he
      · obtain ⟨j, g, ph⟩ := e; cases h; exact h2 j g he
  · have hj : ¬JournalPresents s := fun h => hw ((journalWants_iff s).2 h)
    rw [if_neg hw]
    -- a state of the same journal, store and units presents nothing either
    cases he : s.port.erase with
    | some e =>
      dsimp only
      have idle {s' : State} {e' : Erase} (hj' : ¬JournalPresents s') (he' : s'.port.erase = some e')
          (h1 : ∀ b, e'.phase ≠ .retiring b) (h2 : e'.phase ≠ .suspended) (u : State) : ¬ArbiterTurn s' u := by
        intro k
        cases k with
        | suspend _ h => exact hj' h
        | valid _ h h' => exact hj' (.inl ⟨_, h, h'⟩)
        | validRefused _ h h' => exact hj' (.inl ⟨_, h, h'⟩)
        | body _ h => exact hj' (.inr ⟨_, _, h⟩)
        | bodyRefused _ h => exact hj' (.inr ⟨_, _, h⟩)
        | retiring _ _ h h' => rw [he'] at h; cases h; exact h1 _ h'
        | proper _ _ h h' => rw [he'] at h; cases h; exact h1 _ h'
        | resume _ _ h h' => rw [he'] at h; cases h; exact h2 h'
        | management _ _ h => rw [he'] at h; exact nomatch h
        | managementRefused _ _ h => rw [he'] at h; exact nomatch h
        | journalErase _ _ h => rw [he'] at h; exact nomatch h
        | listErase _ _ h => rw [he'] at h; exact nomatch h
      split
      · rename_i b hb
        exact .inl ⟨carryRetiring_turn s e b hp hj he hb, fun h => nomatch h⟩
      · rename_i hb
        refine .inl ⟨?_, fun _ => ?_⟩
        · dsimp only
          rw [erasePhase_eq s e _ he]
          exact .resume hp hj he hb
        · dsimp only
          rw [erasePhase_eq s e _ he]
          exact idle (s' := { s with port := { s.port with erase := some { e with phase := .active } } })
            (e' := { e with phase := .active }) hj rfl (fun b h => nomatch h) (fun h => nomatch h)
      · rename_i h1 h2
        exact .inr ⟨rfl, idle hj he (fun b h => h1 b h) h2⟩
    | none =>
      dsimp only
      have idle (h1 : s.wantsProgram = none) (h2 : s.port.journalErase = none)
          (h3 : s.port.listErase = true → s.mgmt.eraseList = []) (u : State) : ¬ArbiterTurn s u := by
        intro k
        cases k with
        | suspend _ h => exact hj h
        | valid _ h h' => exact hj (.inl ⟨_, h, h'⟩)
        | validRefused _ h h' => exact hj (.inl ⟨_, h, h'⟩)
        | body _ h => exact hj (.inr ⟨_, _, h⟩)
        | bodyRefused _ h => exact hj (.inr ⟨_, _, h⟩)
        | retiring _ _ h => rw [he] at h; exact nomatch h
        | proper _ _ h => rw [he] at h; exact nomatch h
        | resume _ _ h => rw [he] at h; exact nomatch h
        | management _ _ _ h => exact no_request s h1 _ h
        | managementRefused _ _ _ h => exact no_request s h1 _ h
        | journalErase _ _ _ _ h => rw [h2] at h; exact nomatch h
        | listErase _ _ _ _ _ h h' => rw [h3 h] at h'; exact nomatch h'
      cases hx : s.wantsProgram with
      | some x =>
        exact .inl ⟨carryManagement_turn s x hp hj he ((wantsProgram_iff s x).1 hx), fun h => nomatch h⟩
      | none =>
        dsimp only
        cases hg : s.port.journalErase with
        | some g => exact .inl ⟨.journalErase hp hj he (no_request s hx) hg, fun h => nomatch h⟩
        | none =>
          dsimp only
          by_cases hl : s.port.listErase = true
          · rw [if_pos hl]
            cases hm : s.mgmt.eraseList with
            | cons g more =>
              refine .inl ⟨?_, fun h => nomatch h⟩
              have k := ArbiterTurn.listErase hp hj he (no_request s hx) hg hl hm
              simp only [hg] at k
              exact k
            | nil => exact .inr ⟨rfl, idle hx hg fun _ => hm⟩
          · rw [if_neg hl]
            exact .inr ⟨rfl, idle hx hg fun h => absurd h hl⟩

/-! ### The choices end -/

/-- How much the arbiter can still choose at one moment. -/
def State.choices (s : State) : Nat :=
  if s.port.program.isSome then 0
  else 1 + s.journal.write.isSome.toNat + 2 * (128 - s.journal.next) + s.journal.opening.isSome.toNat +
    (if s.mgmt.state = .programming then 1 else 0) +
    (match s.port.erase with
      | none => 2
      | some e => match e.phase with | .retiring _ => 1 | _ => 0)

theorem choices_le (s : State) : s.choices ≤ 262 := by
  unfold State.choices
  have h1 := Bool.toNat_le s.journal.write.isSome
  have h2 := Bool.toNat_le s.journal.opening.isSome
  repeat' split
  all_goals omega

theorem choices_busy (s : State) (h : s.port.program.isSome = true) : s.choices = 0 := by simp [State.choices, h]

theorem choices_pos (s : State) (h : s.port.program = none) : 0 < s.choices := by
  simp only [State.choices, h, Option.isSome_none, Bool.false_eq_true, if_false]
  omega

/-- A slot passed over takes away at least what an opening may add. -/
theorem choices_advance (s : State) :
    (advanceSlot s).choices ≤ s.choices ∧
      (s.port.program = none → s.journal.next ≤ 127 → (advanceSlot s).choices < s.choices) := by
  obtain ⟨h1, h2, h3⟩ := advanceSlot_advances s
  have hb := Bool.toNat_le s.journal.opening.isSome
  by_cases hf : ∃ h, s.journal.head = some h ∧ s.journal.next + 1 = 128
  · obtain ⟨h, hf⟩ := hf
    have hn : s.journal.next = 127 := by have := hf.2; omega
    by_cases hc : SegClear s (roundNext h)
    · rw [h1 h hf hc]
      simp only [State.choices, hn, Option.isSome_some, Bool.toNat_true]
      constructor
      · split <;> omega
      · intro hp _
        simp only [hp, Option.isSome_none, Bool.false_eq_true, if_false]
        omega
    · rw [h2 h hf hc]
      simp only [State.choices, hn]
      constructor
      · split <;> omega
      · intro hp _
        simp only [hp, Option.isSome_none, Bool.false_eq_true, if_false]
        omega
  · rw [h3 fun h k => hf ⟨h, k⟩]
    simp only [State.choices]
    constructor
    · split <;> omega
    · intro hp _
      simp only [hp, Option.isSome_none, Bool.false_eq_true, if_false]
      omega

/-- A header refused is opened no more. -/
theorem choices_openRefused (s : State) :
    (openRefused s).choices ≤ s.choices ∧
      (s.port.program = none → s.journal.opening.isSome = true → (openRefused s).choices < s.choices) := by
  have e : (openRefused s).choices = { s with journal := { s.journal with opening := none } }.choices := by
    unfold openRefused
    dsimp only
    split_ifs <;> rfl
  rw [e]
  simp only [State.choices, Option.isSome_none, Bool.toNat_false]
  constructor
  · split <;> omega
  · intro hp ho
    simp only [hp, ho, Option.isSome_none, Bool.false_eq_true, if_false, Bool.toNat_true]
    omega

theorem choices_writeRefused (s : State) (w : JWrite) : (writeRefused s w).choices ≤ s.choices := by
  unfold writeRefused
  split
  · exact (choices_openRefused s).1
  · exact (choices_advance s).1

theorem nextWrite_next {s : State} {w : JWrite} {c : List Byte} (h : nextWrite s = some (w, c)) :
    (w.what = .header ∧ s.journal.opening.isSome = true) ∨ (w.what ≠ .header ∧ s.journal.next ≤ 127) := by
  unfold nextWrite at h
  cases ho : s.journal.opening with
  | some g =>
    rw [ho] at h
    simp only [Option.some.injEq, Prod.mk.injEq] at h
    exact .inl ⟨by rw [← h.1], rfl⟩
  | none =>
    rw [ho] at h
    dsimp only at h
    split at h
    · split_ifs at h with hn
      refine .inr ⟨?_, hn⟩
      rcases (nextRecord_iff s _ w c).1 h with ⟨u, b, o, -, rfl, -⟩ | ⟨q, more, -, -, rfl, -⟩
      · exact fun k => nomatch k
      · exact fun k => nomatch k
    · exact nomatch h

theorem choices_carryJournal (s : State) (hp : s.port.program = none) (hj : JournalPresents s) :
    (carryJournal s).choices < s.choices := by
  have begun (s' : State) (p : Program) : (beginProgram s' p).choices < s.choices := by
    rw [choices_busy _ (by simp [beginProgram_busy])]
    exact choices_pos s hp
  unfold carryJournal
  cases hw : s.journal.write with
  | some w =>
    dsimp only
    split_ifs with h
    · exact begun _ _
    · refine Nat.lt_of_le_of_lt (choices_writeRefused _ w) ?_
      show State.choices { s with journal := { s.journal with write := none } } < _
      simp only [State.choices, hp, hw, Option.isSome_none, Option.isSome_some, Bool.false_eq_true, if_false,
        Bool.toNat_true, Bool.toNat_false]
      omega
  | none =>
    dsimp only
    cases hn : nextWrite s with
    | none =>
      rcases hj with ⟨w', h1, -⟩ | ⟨w', c, h⟩
      · rw [hw] at h1; exact nomatch h1
      · have := ((nextWrite_iff s w' c).2 h).2
        rw [hn] at this; exact nomatch this
    | some x =>
      obtain ⟨w, c⟩ := x
      dsimp only
      split_ifs with h
      · exact begun _ _
      · unfold writeRefused
        rcases nextWrite_next hn with ⟨k, ho⟩ | ⟨k, hx⟩
        · rw [k]; exact (choices_openRefused s).2 hp ho
        · split
          · exact absurd ‹w.what = .header› k
          · exact (choices_advance s).2 hp hx

/-- A choice after which there may be another leaves fewer. -/
theorem arbitrateOnce_choices (s : State) (h : (arbitrateOnce s).2 = true) :
    (arbitrateOnce s).1.choices < s.choices := by
  have begun (hp : s.port.program = none) (s' : State) (p : Program) : (beginProgram s' p).choices < s.choices := by
    rw [choices_busy _ (by simp [beginProgram_busy])]
    exact choices_pos s hp
  unfold arbitrateOnce at h ⊢
  by_cases hp : s.port.program = none
  swap
  · rw [if_pos (Option.isSome_iff_ne_none.2 hp)] at h; exact nomatch h
  rw [if_neg (by simp [hp])] at h ⊢
  by_cases hw : s.journalWants = true
  · rw [if_pos hw] at h ⊢
    split at h
    · exact nomatch h
    · exact nomatch h
    · exact choices_carryJournal s hp ((journalWants_iff s).1 hw)
  · rw [if_neg hw] at h ⊢
    cases he : s.port.erase with
    | some e =>
      rw [he] at h
      dsimp only at h ⊢
      cases hf : e.phase with
      | retiring b =>
        dsimp only
        unfold carryRetiring
        dsimp only
        split
        · exact begun hp _ _
        · exact begun hp _ _
        · exact begun hp _ _
        · rw [erasePhase_eq s e _ he]
          simp only [State.choices, hp, he, hf, Option.isSome_none, Bool.false_eq_true, if_false]
          omega
      | active => rw [hf] at h; exact nomatch h
      | suspending => rw [hf] at h; exact nomatch h
      | suspended => rw [hf] at h; exact nomatch h
    | none =>
      rw [he] at h
      dsimp only at h ⊢
      cases hx : s.wantsProgram with
      | some x =>
        dsimp only
        unfold carryManagement
        split_ifs
        · exact begun hp _ _
        · exact begun hp _ _
        · have hs := ((wantsProgram_iff s x).1 hx).1
          simp only [State.choices, postProgramDone, endCommand, post, hp, hs, Option.isSome_none, Bool.false_eq_true,
            if_false, if_true, reduceCtorEq]
          omega
      | none =>
        rw [hx] at h
        dsimp only at h ⊢
        cases hg : s.port.journalErase with
        | some g =>
          simp only [State.choices, State.setPort, hp, he, Option.isSome_none, Bool.false_eq_true, if_false]
          omega
        | none =>
          rw [hg] at h
          dsimp only at h ⊢
          by_cases hl : s.port.listErase = true
          · rw [if_pos hl] at h ⊢
            cases hm : s.mgmt.eraseList with
            | cons g more =>
              simp only [State.choices, State.setPort, hp, he, Option.isSome_none, Bool.false_eq_true, if_false]
              omega
            | nil => rw [hm] at h; exact nomatch h
          · rw [if_neg hl] at h; exact nomatch h

theorem arbitrateLoop_runs (n : Nat) (s : State) (h : s.choices < n) : ArbiterRuns s (arbitrateLoop n s) := by
  induction n generalizing s with
  | zero => omega
  | succ n ih =>
    simp only [arbitrateLoop]
    rcases arbitrateOnce_turn s with ⟨turn, stop⟩ | ⟨e, rest⟩
    · by_cases hc : (arbitrateOnce s).2 = true
      · rw [if_pos hc]
        have := arbitrateOnce_choices s hc
        exact .turn turn (ih _ (by omega))
      · rw [if_neg hc]
        exact .turn turn (.rest (stop (by simpa using hc)))
    · rw [e]
      exact .rest rest

/-- What follows at once from the state of the Journal Engine and the port is what PortServes says. -/
theorem pump_serves (s : State) : PortServes s (pump s) :=
  ⟨⟨_, pump_ready s, arbitrateLoop_runs 300 _ (Nat.lt_of_le_of_lt (choices_le _) (by decide))⟩, pump_portFrame s⟩

/-! ### PortServes leaves nothing open -/

theorem slotAdvances_eq {s t : State} (h : SlotAdvances s t) : t = advanceSlot s := by
  obtain ⟨h1, h2, h3⟩ := h
  obtain ⟨k1, k2, k3⟩ := advanceSlot_advances s
  by_cases hf : ∃ h, s.journal.head = some h ∧ s.journal.next + 1 = 128
  · obtain ⟨h, hf⟩ := hf
    by_cases hc : SegClear s (roundNext h)
    · rw [h1 h hf hc, k1 h hf hc]
    · rw [h2 h hf hc, k2 h hf hc]
  · have hn : ∀ h, ¬(s.journal.head = some h ∧ s.journal.next + 1 = 128) := fun h k => hf ⟨h, k⟩
    rw [h3 hn, k3 hn]

theorem writeRefused_eq {s t : State} {w : JWrite} (h : WriteRefused s t w) : t = writeRefused s w := by
  obtain ⟨h1, h2, h3⟩ := h
  obtain ⟨k1, k2, k3⟩ := writeRefused_refused s w
  by_cases hw : w.what = .header
  · by_cases hs : s.journal.head = none ∨ s.journal.stalled = true
    · rw [h2 hw hs, k2 hw hs]
    · simp only [not_or, Bool.not_eq_true] at hs
      rw [h3 hw hs.1 hs.2, k3 hw hs.1 hs.2]
  · exact (slotAdvances_eq (h1 hw)).trans (slotAdvances_eq (k1 hw)).symm

theorem begins_eq {s t : State} {p : Program} (h : Begins s t p) : t = beginProgram s p :=
  h.trans (beginProgram_begins s p).symm

theorem arbitrateOnce_journal (s : State) (hp : s.port.program = none) (hj : JournalPresents s) (he : ErasePaused s) :
    arbitrateOnce s = (carryJournal s, true) := by
  unfold arbitrateOnce
  rw [if_neg (by simp [hp]), if_pos ((journalWants_iff s).2 hj)]
  split
  · rename_i h; exact absurd rfl (he _ h).1
  · rename_i h; exact absurd rfl (he _ h).2
  · rfl

theorem arbitrateOnce_quiet (s : State) (hp : s.port.program = none) (hj : ¬JournalPresents s) :
    arbitrateOnce s = (match s.port.erase with
    | some e =>
      match e.phase with
      | .retiring _ => (carryRetiring s e.seg, true)
      | .suspended => (s.erasePhase .active, false)
      | _ => (s, false)
    | none =>
      match s.wantsProgram with
      | some t => (carryManagement s t, true)
      | none =>
        match s.port.journalErase with
        | some seg =>
          (s.setPort { s.port with journalErase := none, erase := some ⟨true, seg, .retiring false⟩ }, true)
        | none =>
          if s.port.listErase then
            match s.mgmt.eraseList with
            | seg :: _ =>
              (s.setPort { s.port with listErase := false, erase := some ⟨false, seg, .retiring false⟩ }, true)
            | [] => (s, false)
          else (s, false)) := by
  unfold arbitrateOnce
  exact (if_neg (by simp [hp])).trans ((if_neg fun h => hj ((journalWants_iff s).1 h)).trans rfl)

/-- The arbiter's turns are those of arbitrateOnce. -/
theorem arbiterTurn_eq {s t : State} (h : ArbiterTurn s t) : t = (arbitrateOnce s).1 := by
  have none_of (h : ∀ x, ¬ProgramRequested s x) : s.wantsProgram = none := by
    cases hx : s.wantsProgram with
    | none => rfl
    | some x => exact absurd ((wantsProgram_iff s x).1 hx) (h x)
  cases h with
  | @suspend e hp hj he hf =>
    obtain ⟨j, g, ph⟩ := e
    cases hf
    unfold arbitrateOnce
    rw [if_neg (by simp [hp]), if_pos ((journalWants_iff s).2 hj), he]
    exact (erasePhase_eq s _ _ he).symm
  | @valid _ w hp hw hd hq hs hb =>
    rw [arbitrateOnce_journal s hp (.inl ⟨w, hw, hd⟩) hq, begins_eq hb]
    simp [carryJournal, hw, hs]
  | @validRefused _ w hp hw hd hq hs hr =>
    rw [arbitrateOnce_journal s hp (.inl ⟨w, hw, hd⟩) hq, writeRefused_eq hr]
    simp only [carryJournal, hw, hs, if_false]
    rfl
  | @body _ w c hp hw hq hs hb =>
    have k := (nextWrite_iff s w c).2 hw
    rw [arbitrateOnce_journal s hp (.inr ⟨w, c, hw⟩) hq, begins_eq hb]
    simp only [carryJournal, k.1, k.2, hs, if_true]
    rfl
  | @bodyRefused _ w c hp hw hq hs hr =>
    have k := (nextWrite_iff s w c).2 hw
    rw [arbitrateOnce_journal s hp (.inr ⟨w, c, hw⟩) hq, writeRefused_eq hr]
    simp only [carryJournal, k.1, k.2, hs, if_false]
  | @retiring _ e b k c hp hj he hf hn hb =>
    rw [arbitrateOnce_quiet s hp hj, he, begins_eq hb]
    dsimp only
    rw [hf]
    dsimp only
    unfold carryRetiring
    dsimp only
    rw [erasePhase_eq s e _ he, erasePhase_eq s e _ he]
    split
    · rename_i hs; rw [hs] at hn; rw [hn.1, hn.2]
    · rename_i hs; rw [hs] at hn; rw [hn.1, hn.2]
    · rename_i hs; rw [hs] at hn; rw [hn.1, hn.2]
    · rename_i hs; rw [hs] at hn; exact hn.elim
  | @proper e b hp hj he hf hs =>
    rw [arbitrateOnce_quiet s hp hj, he]
    dsimp only
    rw [hf]
    dsimp only
    unfold carryRetiring
    dsimp only
    rw [hs]
    exact (erasePhase_eq s e _ he).symm
  | @resume e hp hj he hf =>
    rw [arbitrateOnce_quiet s hp hj, he]
    dsimp only
    rw [hf]
    exact (erasePhase_eq s e _ he).symm
  | @management _ x k c hp hj he hx hs hb =>
    rw [arbitrateOnce_quiet s hp hj, he, (wantsProgram_iff s x).2 hx, begins_eq hb]
    dsimp only
    unfold carryManagement
    rcases hs with ⟨h1, h2, rfl, rfl⟩ | ⟨h1, h2, rfl, rfl⟩
    · simp [h1, h2]
    · simp [h1, h2]
  | @managementRefused x hp hj he hx hs =>
    rw [arbitrateOnce_quiet s hp hj, he, (wantsProgram_iff s x).2 hx]
    dsimp only
    unfold carryManagement
    rcases hs with ⟨h1, h2⟩ | ⟨h1, h2⟩
    · simp only [h1, h2, and_false, not_false_eq_true, if_false, Bool.false_eq_true, false_and]
      rfl
    · simp only [h1, h2, and_false, not_true_eq_false, if_false, false_and]
      rfl
  | @journalErase g hp hj he hx hg =>
    rw [arbitrateOnce_quiet s hp hj, he, none_of hx, hg]
    rfl
  | @listErase g more hp hj he hx hg hl hm =>
    rw [arbitrateOnce_quiet s hp hj, he, none_of hx, hg, hl, hm]
    simp only [if_true, State.setPort, hg]

theorem arbiterRuns_unique {s t u : State} (h : ArbiterRuns s t) (k : ArbiterRuns s u) : t = u := by
  induction h generalizing u with
  | rest hs =>
    cases k with
    | rest => rfl
    | turn k => exact absurd k (hs _)
  | turn h _ ih =>
    cases k with
    | rest ks => exact absurd h (ks _)
    | turn k ks =>
      have := (arbiterTurn_eq h).trans (arbiterTurn_eq k).symm
      subst this
      exact ih ks

/-- Getting ready has one outcome. -/
theorem journalReady_unique {s t u : State} (h : JournalReady s t) (k : JournalReady s u) : t = u := by
  obtain ⟨h0, h1, h2, h3, h4, h5, h6, h7⟩ := h
  obtain ⟨k0, k1, k2, k3, k4, k5, k6, k7⟩ := k
  have first : t.journal.opening = u.journal.opening ∧ t.journal.blanks = u.journal.blanks := by
    by_cases hf : s.journal.head = none ∧ s.journal.queue ≠ [] ∧ s.journal.opening = none ∧ s.journal.write = none
    · exact ⟨(h1 hf).1.trans (k1 hf).1.symm, (h1 hf).2.trans (k1 hf).2.symm⟩
    · exact ⟨(h2 hf).1.trans (k2 hf).1.symm, (h2 hf).2.trans (k2 hf).2.symm⟩
  rw [← first.2] at k3 k4 k5 k6 k7
  have turn : t.journal.turn = u.journal.turn := by
    by_cases hs : s.startUp = .running ∧ t.journal.blanks ≤ 3 ∧ s.journal.reclaim = .idle ∧ s.journal.tail ≠ none
    · exact (h3 hs).trans (k3 hs).symm
    · exact (h4 hs).trans (k4 hs).symm
  have scan : t.journal.reclaim = u.journal.reclaim ∧ t.port.journalErase = u.port.journalErase := by
    by_cases hp : ∃ p, ((s.startUp = .running ∧ t.journal.blanks ≤ 3 ∧ s.journal.reclaim = .idle ∧
        s.journal.tail ≠ none) ∧ p = 1) ∨ s.journal.reclaim = .copying p
    · obtain ⟨p, hp⟩ := hp
      by_cases hc : s.journal.tail = none ∨
          ∃ w u isBind orig cancel, s.journal.write = some w ∧ w.what = .copy u isBind orig cancel
      · exact ⟨(h6 p hp hc).1.trans (k6 p hp hc).1.symm, (h6 p hp hc).2.trans (k6 p hp hc).2.symm⟩
      · rw [not_or] at hc
        obtain ⟨g, hg⟩ := Option.ne_none_iff_exists'.1 hc.1
        obtain ⟨a1, a2⟩ := h5 p g hp hg hc.2
        obtain ⟨b1, b2⟩ := k5 p g hp hg hc.2
        cases hl : s.liveFrom g p with
        | nil =>
          have hn : ∀ i, p ≤ i → i ≤ 127 → ¬LiveSlot s g i := fun i i1 i2 i3 => by
            have := (mem_liveFrom s g p i).2 ⟨i1, i2, i3⟩
            rw [hl] at this
            exact List.not_mem_nil this
          exact ⟨(a2 hn).1.trans (b2 hn).1.symm, (a2 hn).2.trans (b2 hn).2.symm⟩
        | cons q l =>
          obtain ⟨q1, q2, q3, q4⟩ := liveFrom_first hl
          exact ⟨(a1 q q1 q2 q3 q4).1.trans (b1 q q1 q2 q3 q4).1.symm,
            (a1 q q1 q2 q3 q4).2.trans (b1 q q1 q2 q3 q4).2.symm⟩
    · have hn := fun p k => hp ⟨p, k⟩
      exact ⟨(h7 hn).1.trans (k7 hn).1.symm, (h7 hn).2.trans (k7 hn).2.symm⟩
  rw [h0, k0, first.1, first.2, turn, scan.1, scan.2]

/-- PortServes leaves no field open: pump s is the one state it holds of. -/
theorem portServes_iff (s t : State) : PortServes s t ↔ t = pump s := by
  constructor
  · rintro ⟨⟨m, hm, ht⟩, -⟩
    obtain ⟨⟨m', hm', ht'⟩, -⟩ := pump_serves s
    rw [journalReady_unique hm hm'] at ht
    exact arbiterRuns_unique ht ht'
  · rintro rfl
    exact pump_serves s

end Sys2Proof.Machine
end

