-- ==== Sys2Proof/Laws/Banks.lean ====
section
/-! SUPPORT. What a chain that becomes free does (R99). -/

namespace Sys2Proof.Machine

/-- chainFree frees the chain of its bank, and touches nothing but that bank and its chain. -/
theorem chainFree_freed (s : State) (b : BankIx) :
    ChainFreedFrom s (chainFree s b) b (s.bank b) (s.chain b) ∧
      chainFree s b = { s with banks := (chainFree s b).banks, chains := (chainFree s b).chains } ∧
      ∀ d, d ≠ b → (chainFree s b).bank d = s.bank d ∧ (chainFree s b).chain d = s.chain d := by
  cases ho : (s.bank b).owed with
  | none =>
    have e : chainFree s b = s.setBank b { s.bank b with activity := .idle } := by
      simp only [chainFree, ho, State.setActivity, State.modBank]
    rw [e]
    refine ⟨⟨⟨fun _ => ?_, fun _ h => absurd (ho.symm.trans h) nofun⟩, fun _ => ?_, fun h => absurd ho h⟩, rfl, fun d h => ?_⟩
    · simp
    · simp [State.chain]
    · simp [State.chain, setBank_bank_other, h]
  | some due =>
    by_cases hr : s.restart = none
    · have begins : ¬((s.bank b).owed = none ∨ s.restart ≠ none) := by simp [ho, hr]
      obtain ⟨k, hk⟩ : ∃ k : Bank, k = { s.bank b with
          activity := .statusMode (s.statusModes b), owed := none, cycleBegun := due, passCount := (s.bank b).passCount + 1 } :=
        ⟨_, rfl⟩
      have e : chainFree s b = (s.setBank b k).setChain b (chainEdges (s.chain b) [false, true]) := by
        simp only [chainFree, ho, hr, Option.isSome_none, Bool.false_eq_true, if_false, State.setActivity, State.modBank,
          beginStatus, beginMode, enterMode, setBank_bank_self, setBank_setBank]
        rw [hk]; rfl
      have bank : (chainFree s b).bank b = k := by rw [e]; exact setBank_bank_self s b k
      have nodes : (chainFree s b).chain b = chainEdges (s.chain b) [false, true] := by rw [e]; simp
      refine ⟨⟨⟨fun h => absurd h begins, fun d h _ => ?_⟩, fun h => absurd h begins, fun _ _ => ⟨?_, nodes⟩⟩,
        ?_, fun d h => ⟨?_, ?_⟩⟩
      · rw [bank, hk]; exact ⟨rfl, rfl, rfl, Option.some.inj (ho.symm.trans h)⟩
      · rw [bank, hk]
      · rw [e]; rfl
      · rw [e]; exact setBank_bank_other s b d k h
      · rw [e]; exact setChain_chain_other _ b d _ h
    · have e : chainFree s b = s.setBank b { s.bank b with activity := .idle } := by
        have : s.restart.isSome = true := Option.isSome_iff_ne_none.mpr hr
        simp only [chainFree, ho, this, if_true, State.setActivity, State.modBank]
      rw [e]
      refine ⟨⟨⟨fun _ => ?_, fun _ _ h => absurd h hr⟩, fun _ => ?_, fun _ h => absurd h hr⟩, rfl, fun d h => ?_⟩
      · simp
      · simp [State.chain]
      · simp [State.chain, setBank_bank_other, h]

end Sys2Proof.Machine
end

