-- ==== Sys2Proof/Laws/Drive.lean ====
section
/-! SUPPORT. What the Drive Scheduler may do when a movement is handed over, a place frees or the head is examined:
examine_acts and handOver_acts say what is left alone, handOver_handed where the movement stands. -/

namespace Sys2Proof.Machine

theorem DriveActs.refl (s : State) : DriveActs s s := ⟨rfl, rfl, List.prefix_rfl, fun _ _ => rfl⟩

theorem DriveActs.trans {s m t : State} (h : DriveActs s m) (k : DriveActs m t) : DriveActs s t := by
  obtain ⟨e1, g1, p1, o1⟩ := h
  obtain ⟨e2, g2, p2, o2⟩ := k
  refine ⟨?_, ?_, p1.trans p2, fun v hv => (o2 v hv).trans (o1 v hv)⟩
  · rw [e2, e1]
  · rw [g2, g1]

theorem DriveActs.kind {s t : State} (h : DriveActs s t) (u : UnitIx) : t.kind u = s.kind u := by
  rw [h.1]; rfl

theorem DriveActs.bank {s t : State} (h : DriveActs s t) (b : BankIx) : t.bank b = s.bank b := by
  rw [h.1]; rfl

theorem DriveActs.levelEvac {s t : State} (h : DriveActs s t) : t.levelEvac = s.levelEvac := by
  rw [h.1]; rfl

theorem DriveActs.canMove {s t : State} (h : DriveActs s t) {u : UnitIx} {op : BoltOp} (c : CanMove s u op) :
    CanMove t u op := by
  unfold CanMove
  rw [h.bank, h.levelEvac, h.kind]
  exact c

theorem setWaiting_acts (s : State) (l : List Actuation) : DriveActs s (s.setWaiting l) :=
  ⟨rfl, rfl, List.prefix_rfl, fun _ _ => rfl⟩

theorem hand_acts (s : State) (e : EngEvent) : DriveActs s (s.hand e) :=
  ⟨rfl, rfl, List.prefix_append _ _, fun _ _ => rfl⟩

theorem setDrive_acts (s : State) (d : Drive) : DriveActs s { s with drive := d } :=
  ⟨rfl, rfl, List.prefix_rfl, fun _ _ => rfl⟩

/-- A unit's deferred op replaced. -/
theorem defer_acts (s : State) (u : UnitIx) (d : Option (BoltOp × Urgency)) :
    DriveActs s (s.modUnit u fun r => { r with deferred := d }) := by
  refine ⟨rfl, rfl, List.prefix_rfl, fun v _ => ?_⟩
  by_cases h : v = u
  · subst h; rw [modUnit_unit_self]; rfl
  · rw [modUnit_unit_other _ _ _ _ h]

theorem refill_acts (s : State) : DriveActs s (refill s) := by
  unfold refill
  split
  · exact .refl s
  · exact (defer_acts s _ none).trans (setWaiting_acts _ _)

theorem grantHead_acts (s : State) (a : Actuation) (rest : List Actuation) : DriveActs s (grantHead s a rest) :=
  setDrive_acts s _

theorem examineLoop_acts (n : Nat) (s : State) : DriveActs s (examineLoop n s) := by
  induction n generalizing s with
  | zero => exact .refl s
  | succ n ih =>
    unfold examineLoop
    split_ifs
    · exact .refl s
    · split
      · exact .refl s
      · split_ifs
        · exact (((setWaiting_acts s _).trans (hand_acts _ _)).trans (refill_acts _)).trans (ih _)
        · exact (((setWaiting_acts s _).trans (hand_acts _ _)).trans (refill_acts _)).trans (ih _)
        · exact (grantHead_acts s _ _).trans (ih _)
        · exact .refl s

theorem examine_acts (s : State) : DriveActs s (examine s) := examineLoop_acts _ s

theorem enqueue_acts (s : State) (a : Actuation) : DriveActs s (enqueue s a) := by
  unfold enqueue
  split_ifs
  · exact (setWaiting_acts s _).trans (examine_acts _)
  · exact setWaiting_acts s _

theorem handOver_acts (s : State) (u : UnitIx) (op : BoltOp) (c : Urgency) : DriveActs s (handOver s u op c) := by
  unfold handOver
  split_ifs
  · exact enqueue_acts s _
  · exact defer_acts s u _

theorem placeFreed_acts (s : State) : DriveActs s (placeFreed s) := by
  unfold placeFreed
  dsimp only
  split_ifs
  · exact (refill_acts s).trans (examine_acts _)
  · exact refill_acts s

theorem raised_acts (s : State) (u : UnitIx) : DriveActs s (raised s u) := by
  unfold raised
  split
  · split_ifs
    · exact setWaiting_acts s _
    · exact .refl s
  · exact setDrive_acts s _

theorem promote_acts (s : State) (u : UnitIx) : DriveActs s (promote s u) := by
  unfold promote
  split_ifs
  · exact (raised_acts s u).trans (examine_acts _)
  · exact raised_acts s u

/-! ### A movement handed over -/

/-- The fresh actuation of a movement, granted or not. -/
def Stands (s : State) (u : UnitIx) (op : BoltOp) (c : Urgency) : Prop :=
  ∃ a ∈ s.drive.waiting ++ s.drive.granted,
    a.unit = u ∧ a.op = op ∧ a.urgency = c ∧ a.attempt = 1 ∧ a.delivered = false ∧ a.pulseEnd = none

theorem mem_joinWaiting (l : List Actuation) (a b : Actuation) : b ∈ joinWaiting l a ↔ b ∈ l ∨ b = a := by
  unfold joinWaiting
  split
  · simp
  · simp only [List.mem_append, List.mem_filter, List.mem_singleton]
    cases b.urgency <;> simp
    tauto

theorem refill_stands (s : State) (u : UnitIx) (op : BoltOp) (c : Urgency) (h : Stands s u op c) :
    Stands (refill s) u op c := by
  unfold refill
  split
  · exact h
  · obtain ⟨a, ha, hp⟩ := h
    refine ⟨a, ?_, hp⟩
    rcases List.mem_append.1 ha with ha | ha
    · exact List.mem_append.2 (.inl ((mem_joinWaiting _ _ _).2 (.inl ha)))
    · exact List.mem_append.2 (.inr ha)

/-- The examination leaves a movement that can be made, waiting or granted (R74). -/
theorem examineLoop_stands (n : Nat) (s : State) (u : UnitIx) (op : BoltOp) (c : Urgency) (hc : CanMove s u op)
    (h : Stands s u op c) : Stands (examineLoop n s) u op c := by
  induction n generalizing s with
  | zero => exact h
  | succ n ih =>
    unfold examineLoop
    split_ifs
    · exact h
    · split
      · exact h
      · rename_i x rest hw
        have drop : x.unit ≠ u ∨ x.op ≠ op → ∀ e, Stands (refill ((s.setWaiting rest).hand e)) u op c := by
          intro hx e
          obtain ⟨a, ha, hp⟩ := h
          apply refill_stands
          refine ⟨a, ?_, hp⟩
          rw [hw] at ha
          rcases List.mem_append.1 ha with ha | ha
          · rcases List.mem_cons.1 ha with rfl | ha
            · exact (hx.elim (fun k => k hp.1) fun k => k hp.2.1).elim
            · exact List.mem_append.2 (.inl ha)
          · exact List.mem_append.2 (.inr ha)
        have acts : ∀ e, DriveActs s (refill ((s.setWaiting rest).hand e)) := fun e =>
          ((setWaiting_acts s _).trans (hand_acts _ _)).trans (refill_acts _)
        split_ifs with h1 h2 h3
        · refine ih _ ((acts _).canMove hc) (drop (.inl fun hu => h1 ?_) _)
          rw [hu]; exact hc.1
        · refine ih _ ((acts _).canMove hc) (drop ?_ _)
          by_contra hx
          push Not at hx
          simp only [State.withheld, hx.1, hx.2, Bool.and_eq_true, decide_eq_true_eq] at h2
          exact hc.2 ⟨h2.1.1, h2.1.2, h2.2⟩
        · refine ih _ ((grantHead_acts s _ _).canMove hc) ?_
          obtain ⟨a, ha, hp⟩ := h
          rw [hw] at ha
          rcases List.mem_append.1 ha with ha | ha
          · rcases List.mem_cons.1 ha with rfl | ha
            · exact ⟨{ a with current := some (s.coil (bankOf a.unit)) }, by simp [grantHead], hp⟩
            · exact ⟨a, by simp [grantHead, ha], hp⟩
          · exact ⟨a, by simp [grantHead, ha], hp⟩
        · exact h

/-- A movement handed over stands in the Actuation Queue, or is the unit's deferred op (R25, R72, R74). -/
theorem handOver_handed (s : State) (u : UnitIx) (op : BoltOp) (c : Urgency) (hc : CanMove s u op) :
    Handed s (handOver s u op c) u op c := by
  constructor
  · intro hp
    have hst : Stands (s.setWaiting (joinWaiting s.drive.waiting (Actuation.fresh u op c))) u op c :=
      ⟨Actuation.fresh u op c, by simp [mem_joinWaiting], rfl, rfl, rfl, rfl, rfl, rfl⟩
    unfold handOver
    rw [if_pos hp]
    unfold enqueue
    split_ifs
    · exact examineLoop_stands _ _ _ _ _ ((setWaiting_acts s _).canMove hc) hst
    · exact hst
  · intro hp
    unfold handOver
    rw [if_neg (by omega)]
    simp

/-- While the Actuation Queue is full, a movement handed over touches no other unit (R25). -/
theorem handOver_full (s : State) (u : UnitIx) (op : BoltOp) (c : Urgency) (h : Config.actuationPlaces ≤ s.drive.used) :
    handOver s u op c = s.modUnit u fun r => { r with deferred := some (op, c) } := by
  unfold handOver
  rw [if_neg (by omega)]

end Sys2Proof.Machine
end

