-- ==== Sys2Proof/Laws/Held.lean ====
section
/-! SUPPORT. The order of events that wait (R24): what noting them as arrived and as held back does. -/

namespace Sys2Proof.Machine

theorem engineOn_iff (s : State) : s.engineOn = true ↔ Taking s := by simp [State.engineOn, Taking]

theorem journalRoom_iff (s : State) : s.journalRoom = true ↔ JournalRoom s := by
  simp [State.journalRoom, JournalRoom, Config.roomNeeded, Config.journalPlaces]

/-! ### What waits -/

theorem mem_unitsAt {r : Running} {st : Stage} {u : UnitIx} : u ∈ r.unitsAt st ↔ ⟨u, st⟩ ∈ r.items := by
  simp only [Running.unitsAt, List.mem_map, List.mem_filter, decide_eq_true_eq]
  constructor
  · rintro ⟨⟨v, x⟩, ⟨hi, rfl⟩, rfl⟩; exact hi
  · exact fun h => ⟨_, ⟨h, rfl⟩, rfl⟩

/-- The first unit at a stage. -/
theorem mem_take_unitsAt {r : Running} {st : Stage} {u : UnitIx} : u ∈ (r.unitsAt st).take 1 ↔
    ∃ before behind, r.items = before ++ ⟨u, st⟩ :: behind ∧ ∀ i ∈ before, i.stage ≠ st := by
  unfold Running.unitsAt
  induction r.items with
  | nil => simp
  | cons i l ih =>
    by_cases hi : i.stage = st
    · rw [List.filter_cons_of_pos (by simpa using hi)]
      simp only [List.map_cons, List.take_succ_cons, List.take_zero, List.mem_singleton]
      constructor
      · rintro rfl; exact ⟨[], l, by rw [← hi]; rfl, nofun⟩
      · rintro ⟨_ | ⟨b, before⟩, behind, h, hb⟩
        · rw [List.nil_append, List.cons.injEq] at h; rw [h.1]
        · rw [List.cons_append, List.cons.injEq] at h
          exact absurd (h.1 ▸ hi) (hb b (by simp))
    · rw [List.filter_cons_of_neg (by simpa using hi), ih]
      constructor
      · rintro ⟨before, behind, rfl, hb⟩
        exact ⟨i :: before, behind, rfl, fun x hx => (List.mem_cons.1 hx).elim (· ▸ hi) (hb x)⟩
      · rintro ⟨_ | ⟨b, before⟩, behind, h, hb⟩
        · rw [List.nil_append, List.cons.injEq] at h; exact absurd (by rw [h.1]) hi
        · rw [List.cons_append, List.cons.injEq] at h
          exact ⟨before, behind, h.2, fun x hx => hb x (by simp [hx])⟩

theorem waitingReports_eq (s : State) : s.waitingReports = s.lockerReports.map .report := rfl

/-- The list of what waits holds what waits. -/
theorem mem_waiting (s : State) (h : HeldEvent) : h ∈ s.waiting ↔ Waits s h := by
  unfold State.waiting State.waitingReports State.waitingIdles State.waitingAccept State.waitingSteps
  cases h with
  | report u =>
    simp only [List.mem_append, List.mem_map, Waits, State.lockerReports]
    constructor
    · rintro (((⟨v, hv, e⟩ | ⟨e, _, h⟩) | h) | h)
      · cases e; exact hv
      · cases h
      · split_ifs at h <;> simp at h
      · cases hr : s.engine.runningSlot <;> simp [hr] at h
    · exact fun h => .inl (.inl (.inl ⟨u, h, rfl⟩))
  | idle u due =>
    simp only [List.mem_append, List.mem_map, Waits, List.mem_filter, State.dueNow, Bool.and_eq_true, decide_eq_true_eq]
    constructor
    · rintro (((⟨v, hv, e⟩ | ⟨⟨d, v, k⟩, ⟨he, hd, hk⟩, h⟩) | h) | h)
      · cases e
      · cases h; cases hk; exact ⟨he, hd⟩
      · split_ifs at h <;> simp at h
      · cases hr : s.engine.runningSlot <;> simp [hr] at h
    · exact fun h => .inl (.inl (.inr ⟨_, ⟨h.1, h.2, rfl⟩, rfl⟩))
  | accept =>
    simp only [List.mem_append, List.mem_map, Waits, Bool.and_eq_true, Option.isNone_iff_eq_none, Option.isSome_iff_ne_none]
    constructor
    · rintro (((⟨v, hv, e⟩ | ⟨e, _, h⟩) | h) | h)
      · cases e
      · cases h
      · split_ifs at h with k
        · exact ⟨k.2, k.1⟩
        · cases h
      · cases hr : s.engine.runningSlot <;> simp [hr] at h
    · exact fun h => .inl (.inr (by rw [if_pos ⟨h.2, h.1⟩]; simp))
  | step u =>
    simp only [List.mem_append, List.mem_map, Waits]
    have key : ∀ r : Running, HeldEvent.step u ∈ r.nextSteps.map HeldEvent.step ↔ (⟨u, .again⟩ ∈ r.items ∨
        ∃ b before behind, r.action = .releaseBand b ∧ r.items = before ++ ⟨u, .due⟩ :: behind ∧
          ∀ i ∈ before, i.stage ≠ .due) := by
      intro r
      rw [List.mem_map_of_injective (fun a b h => by cases h; rfl), Running.nextSteps, List.mem_append, mem_unitsAt]
      refine or_congr_right ?_
      split
      · next b hb =>
        rw [mem_take_unitsAt]
        exact ⟨fun ⟨x, y, h⟩ => ⟨b, x, y, hb, h⟩, fun ⟨_, x, y, _, h⟩ => ⟨x, y, h⟩⟩
      · next hb =>
        exact ⟨fun h => absurd h (List.not_mem_nil), fun ⟨b, _, _, h, _⟩ => absurd h (hb b)⟩
    constructor
    · rintro (((⟨v, hv, e⟩ | ⟨e, _, h⟩) | h) | h)
      · cases e
      · cases h
      · split_ifs at h <;> simp at h
      · cases hr : s.engine.runningSlot with
        | none => simp [hr] at h
        | some r => rw [hr] at h; exact ⟨r, rfl, (key r).1 h⟩
    · rintro ⟨r, hr, h⟩
      exact .inr (by rw [hr]; exact (key r).2 h)

/-! ### The order of arrival -/

theorem arrivals_off (s : State) (h : ¬Taking s) : s.arrivals = s.engine.arrived := by
  rw [State.arrivals, if_neg (by rwa [engineOn_iff])]

theorem arrivals_on (s : State) (h : Taking s) : s.arrivals =
    s.engine.arrived.filter (s.waiting.contains ·) ++ s.waiting.filter (!s.engine.arrived.contains ·) := by
  rw [State.arrivals, if_pos ((engineOn_iff s).2 h)]

theorem mem_arrivals (s : State) (ht : Taking s) (h : HeldEvent) : h ∈ s.arrivals ↔ Waits s h := by
  rw [← mem_waiting, arrivals_on s ht]
  simp only [List.mem_append, List.mem_filter, List.contains_iff_mem, Bool.not_eq_true', ← Bool.not_eq_true]
  by_cases k : h ∈ s.engine.arrived <;> simp [k]

/-- arrivals is what waits in the order it arrived. -/
theorem arrivals_order (s : State) (ht : Taking s) : ArrivalOrder s s.arrivals := by
  refine ⟨mem_arrivals s ht, _, _, arrivals_on s ht, List.filter_sublist, ?_, ?_, ?_⟩
  · intro h ha hw
    exact List.mem_filter.2 ⟨ha, List.contains_iff_mem.2 ((mem_waiting s h).2 hw)⟩
  · intro h hn
    simpa using (List.mem_filter.1 hn).2
  · rw [State.waiting, List.append_assoc, List.append_assoc, List.filter_append]
    exact List.prefix_append _ _

/-! ### The events held back -/

/-- From s to t nothing but the events held back has changed, and those that still wait have kept their order. -/
theorem noteHeld_keeps (s : State) :
    s.noteHeld = s.holding s.noteHeld ∧ (s.engine.held.filter s.stillHeld).Sublist s.noteHeld.engine.held := by
  refine ⟨rfl, ?_⟩
  show List.Sublist _ s.heldNow
  unfold State.heldNow
  split_ifs
  · exact List.filter_sublist
  · exact List.sublist_append_left _ _

/-- What waits and would hand a record over is held back where there is no room, or where one held back before still
waits. -/
theorem mem_heldNow (s : State) (ht : Taking s)
    (hb : ¬JournalRoom s ∨ ∃ x ∈ s.engine.held, s.stillHeld x = true) (h : HeldEvent) (hw : Waits s h)
    (hs : s.stillHeld h = true) : h ∈ s.heldNow := by
  have on := (engineOn_iff s).2 ht
  have k : ¬(!s.engineOn || (s.journalRoom && !s.engine.held.any s.stillHeld)) = true := by
    rcases hb with hb | hb
    · have : s.journalRoom = false := by rw [← Bool.not_eq_true, journalRoom_iff]; exact hb
      simp [on, this]
    · have : s.engine.held.any s.stillHeld = true := List.any_eq_true.2 hb
      simp [on, this]
  rw [State.heldNow, if_neg k]
  by_cases c : h ∈ s.engine.held.filter s.stillHeld
  · exact List.mem_append_left _ c
  · refine List.mem_append_right _ (List.mem_filter.2 ⟨(mem_arrivals s ht h).2 hw, ?_⟩)
    rw [hs, Bool.true_and, Bool.not_eq_true', ← Bool.not_eq_true, List.contains_iff_mem]
    exact c

theorem report_still {s : State} {u : UnitIx} (h : u ∈ s.lockerReports) : s.stillHeld (.report u) = true := by
  obtain ⟨h, hk⟩ := List.mem_filter.1 h
  obtain ⟨e, he, hr⟩ := List.mem_filterMap.1 h
  have : e.isReport u = true := by cases e <;> simp_all [EngEvent.report?, EngEvent.isReport]
  simp only [State.stillHeld, Bool.and_eq_true, List.any_eq_true]
  exact ⟨hk, e, he, this⟩

/-- Without room, noteHeld leaves everything that R24 holds back noted, in the order it arrived. -/
theorem noteHeld_allNoted (s : State) (hr : ¬JournalRoom s) (ht : Taking s) : AllNoted s s.noteHeld.engine.held := by
  have hm := fun h => mem_heldNow s ht (.inl hr) h
  have off : s.journalRoom = false := by rw [← Bool.not_eq_true, journalRoom_iff]; exact hr
  have e : s.heldNow = s.engine.held.filter s.stillHeld ++
      s.arrivals.filter fun h => s.stillHeld h && !(s.engine.held.filter s.stillHeld).contains h := by
    rw [State.heldNow, if_neg (by simp [(engineOn_iff s).2 ht, off])]
  have tail : ∀ p l : List HeldEvent, p.Sublist l →
      (∀ h ∈ p, s.stillHeld h = true ∧ h ∉ s.engine.held) →
      p.Sublist (l.filter fun h => s.stillHeld h && !(s.engine.held.filter s.stillHeld).contains h) := by
    intro p l hp hh
    have := hp.filter fun h => s.stillHeld h && !(s.engine.held.filter s.stillHeld).contains h
    rwa [List.filter_eq_self.2 fun h hx => by
      rw [(hh h hx).1, Bool.true_and, Bool.not_eq_true', ← Bool.not_eq_true, List.contains_iff_mem]
      exact fun k => (hh h hx).2 (List.mem_filter.1 k).1] at this
  refine ⟨(noteHeld_keeps s).2, ?_, ⟨?_, ?_⟩, ?_, ?_, ?_⟩
  · intro p hp hh
    show p.Sublist s.heldNow
    rw [e]
    refine (tail p _ ?_ fun h hx => (hh h hx).2).trans (List.sublist_append_right _ _)
    rw [arrivals_on s ht]
    refine List.Sublist.trans ?_ (List.sublist_append_left _ _)
    have := hp.filter (s.waiting.contains ·)
    rwa [List.filter_eq_self.2 fun h hx => List.contains_iff_mem.2 ((mem_waiting s h).2 (hh h hx).1)] at this
  · exact fun u hu => hm _ hu (report_still hu)
  · intro _ hh
    show List.Sublist _ s.heldNow
    rw [e]
    refine (tail _ _ ?_ ?_).trans (List.sublist_append_right _ _)
    · rw [arrivals_on s ht]
      refine List.Sublist.trans ?_ (List.sublist_append_right _ _)
      have all : (s.lockerReports.map HeldEvent.report).filter (!s.engine.arrived.contains ·) =
          s.lockerReports.map HeldEvent.report := List.filter_eq_self.2 fun h hx => by
        obtain ⟨u, hu, rfl⟩ := List.mem_map.1 hx
        simpa using (hh u hu).2
      rw [State.waiting, List.append_assoc, List.append_assoc, List.filter_append, waitingReports_eq, all]
      exact List.sublist_append_left _ _
    · intro h hx
      obtain ⟨u, hu, rfl⟩ := List.mem_map.1 hx
      exact ⟨report_still hu, (hh u hu).1⟩
  · intro t he hk hd
    have : (⟨t.due, t.unit, .ajarIdle⟩ : TimerEntry) = t := by rw [← hk]
    refine hm _ ⟨this ▸ he, hd⟩ ?_
    simp only [State.stillHeld, List.contains_iff_mem]
    exact this ▸ he
  · intro a ha hx hf
    exact hm _ ⟨by rw [ha]; simp, hx⟩ (by simp [State.stillHeld, ha, hf])
  · intro r hrun i hi hs hh
    have : (⟨i.unit, .again⟩ : Item) = i := by rw [← hs]
    exact hm _ ⟨r, hrun, .inl (this ▸ hi)⟩ (by simp [State.stillHeld, hrun, hh])

end Sys2Proof.Machine
end

