-- ==== Sys2Proof/Tests/Slice0.lean ====
section
/-! SUPPORT. The model's own tests: the smoke test of WellFormed, the spec's worked numbers, small tests of single
commands, and for every statement with hypotheses a state that meets them. -/

namespace Sys2Proof.Tests

open Sys2Proof.Machine

set_option Elab.async false

/-! ### States -/

/-- Bank 0 with two nodes: unit 0 a locker, unit 1 a cabin of zone 0; bands 100 to 199 in class 1, band 8 blocked,
band 7 a master. -/
def tables0 : Tables := { Tables.default with
  unitMap := put (put Tables.default.unitMap 0 ⟨.locker, 0⟩) 1 ⟨.cabin, 0⟩
  banks := put Tables.default.banks 0 { BankRec.default with nodeCount := 2 }
  classes := put Tables.default.classes 1 ⟨1, 1, 1, false, 25, 10, 30, true⟩
  zones := put Tables.default.zones 0 ⟨1, 0, 60, 120, true⟩
  permits := [⟨100, 199, 1⟩]
  blocks := [8]
  masters := [7] }

/-- The part running with these tables, bank 0 RUNNING. -/
def live : State := { State.reset with
  startUp := .running
  tables := tables0
  banks := put State.reset.banks 0 { Bank.cold with state := .running } }

/-- The running part with one unit's record and last cell set. -/
def one (u : UnitIx) (r : UnitRec) (c : Cell) : State :=
  { live with units := put live.units u r, observed := put live.observed u c }

/-- The same with a band's tap at the unit waiting. -/
def tapAt (u : UnitIx) (r : UnitRec) (c : Cell) (b : Band) : State :=
  { one u r c with taps := ⟨[⟨u, b, 0⟩], live.taps.reserved⟩ }

/-- The same with the unit held by a band. -/
def heldAt (u : UnitIx) (r : UnitRec) (c : Cell) (b : Band) : State :=
  { tapAt u { r with holder := some 150 } c b with bands := [⟨150, 1, 0, [u]⟩] }

/-- A record in a state, with no holder. -/
def at' (st : UState) : UnitRec := { UnitRec.cold .off with state := st }

/-- Door shut, bolt withdrawn. -/
def shut : Cell := ⟨true, false, false, false, false, false⟩
/-- Door open, bolt withdrawn. -/
def ajarCell : Cell := ⟨false, false, false, false, false, false⟩
/-- Door shut, bolt thrown. -/
def thrown : Cell := ⟨true, true, false, false, false, false⟩

/-- An actuation of a unit, delivered with its pulse over at 100 ms. -/
def pulsed (u : UnitIx) (op : BoltOp) : Actuation := ⟨u, op, .normal, 1, some 500, true, some 100⟩

/-- The part as station 4 receiving a frame. -/
def receiving : State := { live with line := { Line.cold with cond := .receiving, station := 4 } }

/-- A frame of a kind and payload for station 4, its CRC right. -/
def frame4 (kind : Byte) (p : List Byte) : Frame := ⟨4, p, crc16 ([4, kind, BitVec.ofNat 8 p.length] ++ p)⟩

/-- The answer is a next state that meets p. -/
def after? (o : Host.Outcome State Fault Refusal) (p : State → Bool) : Bool :=
  match o with
  | .next t => p t
  | _ => false

/-! ### Lemmas on these states -/

theorem unit_one (u v : UnitIx) (r : UnitRec) (c : Cell) :
    (one u r c).unit v = if v = u then r else UnitRec.cold .off := by
  by_cases h : v = u
  · subst h; simp [one, State.unit]
  · simp [one, State.unit, put_get_other _ _ _ _ h, live, State.reset, Vector.get_eq_getElem, h]

theorem holdings_none (s : State) (hb : s.bands = []) (hu : ∀ u, (s.unit u).holder = none) : HoldingsOk s :=
  ⟨by simp [hb], by simp [hb], fun u b => by simp [hb, hu, heldBy, bandEntry]⟩

theorem holdings_one (s : State) (u : UnitIx) (b : Band) (hb : s.bands = [⟨b, 1, 0, [u]⟩])
    (hu : ∀ v, (s.unit v).holder = if v = u then some b else none) : HoldingsOk s := by
  refine ⟨by simp [hb], by simp [hb], fun v x => ?_⟩
  by_cases hx : b = x
  · subst hx; simp [hb, hu, heldBy, bandEntry]
  · simp [hb, hu, heldBy, bandEntry, hx]

theorem holdings_tapAt (u : UnitIx) (r : UnitRec) (c : Cell) (b : Band) (h : r.holder = none) :
    HoldingsOk (tapAt u r c b) := by
  refine holdings_none _ rfl fun v => ?_
  rw [show (tapAt u r c b).unit v = (one u r c).unit v from rfl, unit_one]
  split
  · exact h
  · rfl

theorem holdings_heldAt (u : UnitIx) (r : UnitRec) (c : Cell) (b : Band) : HoldingsOk (heldAt u r c b) := by
  refine holdings_one _ u 150 rfl fun v => ?_
  rw [show (heldAt u r c b).unit v = (one u { r with holder := some 150 } c).unit v from rfl, unit_one]
  split <;> rfl

theorem ready_tapAt (u : UnitIx) (r : UnitRec) (c : Cell) (b : Band) : TapReady (tapAt u r c b) u b [] :=
  ⟨⟨0, rfl⟩, ⟨rfl, rfl⟩, Nat.le_of_ble_eq_true rfl, Nat.le_of_ble_eq_true rfl, (fun h => nomatch h.1),
    (fun h => nomatch h.1), (fun _ h => nomatch h), (fun h => nomatch h)⟩

/-- With nothing in the Journal Queue and nothing held back, R24 lets every event through. -/
theorem through (s : State) (h : HeldEvent) (hq : s.journal.queue = []) (hh : s.engine.held = []) : LetThrough s h := by
  constructor
  · simp [JournalRoom, hq]
  · simp [hh]

theorem ready_heldAt (u : UnitIx) (r : UnitRec) (c : Cell) (b : Band) : TapReady (heldAt u r c b) u b [] :=
  ready_tapAt u { r with holder := some 150 } c b

theorem movements_live : MovementsOk live := by
  refine ⟨by decide, fun u => ?_⟩
  rw [State.movements, show live.unit u = UnitRec.cold .off by
    simp [live, State.reset, State.unit, Vector.get_eq_getElem]]
  simp [live, State.reset, Drive.units, UnitRec.cold, Engine.cold]

/-- One event that reports a movement of a unit waits, and nothing else moves. -/
theorem movements_told (u : UnitIx) (r : UnitRec) (c : Cell) (e : EngEvent) (hr : r.deferred = none)
    (he : ∀ v, e.movements v ≤ 1) : MovementsOk ((one u r c).setInbox [e]) := by
  refine ⟨Nat.le_of_ble_eq_true rfl, fun v => ?_⟩
  have hd : ((one u r c).unit v).deferred = none := by rw [unit_one]; split; exacts [hr, rfl]
  rw [State.movements, show ((one u r c).setInbox [e]).unit v = (one u r c).unit v from rfl, hd]
  have := he v
  simpa [State.setInbox, one, live, State.reset, Drive.units] using this

theorem arrives (kind : Byte) (p : List Byte) (h : p.length ≤ Config.payloadMax) :
    Arrives receiving kind (frame4 kind p) :=
  ⟨rfl, h, rfl, by decide, by decide, rfl⟩

/-! ### WellFormed refuses (R91, R108, R164, R167) -/

theorem test_wf_frame_too_long : (Instr.poll ⟨4, List.replicate 241 0, 0⟩).wellFormed = false := by decide +kernel
theorem test_wf_frame_longest : (Instr.poll ⟨4, List.replicate 240 0, 0⟩).wellFormed = true := by decide +kernel
theorem test_wf_discard_too_long : (Instr.frameDiscard 0x77 ⟨4, List.replicate 241 0, 0⟩).wellFormed = false := by decide +kernel
theorem test_wf_unknown_kind_known : (Instr.unknownKind 0x16 ⟨4, [], 0⟩).wellFormed = false := by decide +kernel
theorem test_wf_unknown_kind : (Instr.unknownKind 0x17 ⟨4, [], 0⟩).wellFormed = true := by decide +kernel
theorem test_wf_unknown_too_long : (Instr.unknownKind 0x17 ⟨4, List.replicate 241 0, 0⟩).wellFormed = false := by decide +kernel
theorem test_wf_noise_too_long : (Instr.enumerationPassEnd 0 ⟨List.replicate 1561 true, []⟩).wellFormed = false := by
  decide +kernel
theorem test_wf_node_kind_zero : (Instr.nodePowerUp 0 0 0 0 0).wellFormed = false := by decide +kernel

/-! ### Numbers the spec gives -/

/-- R165: the nine bytes 0x31 to 0x39. -/
theorem test_crc : crc16 [0x31, 0x32, 0x33, 0x34, 0x35, 0x36, 0x37, 0x38, 0x39] = 0x29B1#16 := by decide +kernel
/-- 11.4: the allowance with O = 6. -/
theorem test_allowance_six : allowanceOf 25 10 10 3 6 = 19 := by decide
/-- 11.4: the allowance with O = 7. -/
theorem test_allowance_seven : allowanceOf 25 10 10 3 7 = 17 := by decide
/-- 11.4: E 4141 with W 60 at 3001 s. -/
theorem test_warning_time : warningTime 4141 60 3001 = some 4081 := by decide
/-- R58: no warning time that is not later than now. -/
theorem test_no_warning_time : warningTime 4141 60 4081 = none := by decide
/-- R182: OP throw, pulse length 4, green. -/
theorem test_command_bits :
    commandBits 1 4 1 false = [false, true, false, true, false, false, false, false, true, false, false, false] := by
  decide
/-- R92: a pulse length of 0 is taken as 1, and the eighth lamp code is off. -/
theorem test_command_applied :
    ({ Node.fitted 1 0 0 true false false false with mode := .status, reg := commandBits 2 0 7 true }).applyCell.pulse =
      some (.withdraw, 1) := by decide
/-- R93: TAKEN with another SEQ leaves TAPPEND. -/
theorem test_taken_other_seq :
    (({ Node.fitted 1 0 0 true false false false with mode := .tap, seq := 3, tapPend := true }).applyTaken
      [true, false, false, true, false]).tapPend = true := by decide
/-- R124: generations compare modulo 2^32. -/
theorem test_generation_wraps : olderGen 0xFFFFFFFF#32 1#32 = true := by decide
/-- R185: a BIND of unit 3, band 41170, class 1 at 2000 s. -/
theorem test_bind_bytes :
    (JRec.bind 3 41170 1 2000).bytes.take 12 = [0x21, 0, 3, 0, 0, 0xA0, 0xD2, 1, 0, 0, 0x07, 0xD0] := by decide
/-- R2: an option whose presence mark is erased has its default. -/
theorem test_option_default : (optionsOf (0x01 :: 0xFF :: List.replicate 30 0xFF)).railLimit = 2000 := by decide
/-- R2: a rail limit of 299 mA is clamped to 300, one of 1507 taken as 1500. -/
theorem test_option_clamped :
    (optionsOf ([0x01, 0x00, 0x01, 0x2B] ++ List.replicate 28 0)).railLimit = 300 ∧
    (optionsOf ([0x01, 0x00, 0x05, 0xE3] ++ List.replicate 28 0)).railLimit = 1500 := by decide
/-- R53: the seconds count stops at its last value. -/
theorem test_clock_last_second : (Clock.tick ⟨0xFFFFFFFF#32, 4294967295, 999⟩) = ⟨0, 4294967295, 0⟩ := by decide
/-- R130: writing an erased slot's content removes the entry. -/
theorem test_store_erased_unlisted : Store.write [(5, ⟨.writing, []⟩)] 5 Slot.erased = [] := by decide

/-! ### Single commands -/

/-- R180: after a cold start the clock stands while the part is held. -/
theorem test_cold_start : after? (exec .coldStart live) (fun t => (idle t).clock == ⟨0, 0, 0⟩ && t.startUp == .held) = true := by
  decide +kernel
theorem test_reset_deasserted :
    after? (exec (.resetDeasserted true 4) State.reset) (fun t => t.line.station == 4 && t.load == some .cold) = true := by
  decide +kernel
/-- R163: station 0 answers nothing. -/
theorem test_station_zero : ({ receiving with line := { receiving.line with station := 0 } }).frameGood 0x01
    ⟨0, [0], crc16 [0, 1, 1, 0]⟩ = false := by decide +kernel
theorem test_line_quiet : after? (exec .lineQuiet live) (fun t => t.line.cond == .hunt) = true := by decide
theorem test_start_byte_only_in_hunt : after? (exec .startByte live) (fun t => t.line.cond == .quietWait) = true := by
  decide
/-- R183: a POLL with repeat mark 3 is answered NAK BAD_ARGUMENT. -/
theorem test_poll_mark_three :
    after? (exec (.poll (frame4 0x01 [3])) receiving)
      (fun t => t.line.reply.take 6 == [0xC5, 4, 0xF1, 2, 0x01, 3]) = true := by decide +kernel
/-- R184: the first fresh reply has number 1 and a payload of 50 bytes. -/
theorem test_poll_fresh :
    after? (exec (.poll (frame4 0x01 [0])) receiving)
      (fun t => t.line.reply.take 5 == [0xC5, 4, 0x81, 50, 1] && t.line.replyNumber == 1) = true := by decide +kernel
theorem test_unknown_kind :
    after? (exec (.unknownKind 0x20 (frame4 0x20 [])) receiving)
      (fun t => t.line.reply.take 6 == [0xC5, 4, 0xF1, 2, 0x20, 1]) = true := by decide +kernel
theorem test_read_unit_512 :
    after? (exec (.readUnit (frame4 0x02 [2, 0])) receiving)
      (fun t => t.line.reply.take 6 == [0xC5, 4, 0xF1, 2, 0x02, 3]) = true := by decide +kernel
theorem test_read_band_not_held :
    after? (exec (.readBand (frame4 0x03 [0, 0, 0, 150])) receiving)
      (fun t => t.line.reply.take 9 == [0xC5, 4, 0x83, 5, 0, 0, 0, 150, 0]) = true := by decide +kernel
/-- R18: the master list holds one id, and place 1 is EMPTY. -/
theorem test_read_table_master :
    after? (exec (.readTable (frame4 0x05 [8, 0, 0])) receiving)
      (fun t => t.line.reply.take 9 == [0xC5, 4, 0x85, 5, 1, 0, 0, 0, 7]) = true := by decide +kernel
theorem test_read_table_empty :
    after? (exec (.readTable (frame4 0x05 [8, 0, 1])) receiving)
      (fun t => t.line.reply.take 5 == [0xC5, 4, 0x85, 1, 0]) = true := by decide +kernel
/-- R149: EXTEND_CABIN with 31 minutes is refused BAD_ARGUMENT. -/
theorem test_action_minutes :
    after? (exec (.action (frame4 0x06 [7, 0, 1, 31])) receiving)
      (fun t => t.engine.pendingSlot == none && t.line.reply.take 6 == [0xC5, 4, 0xF1, 2, 0x06, 3]) = true := by
  decide +kernel
theorem test_action_taken :
    after? (exec (.action (frame4 0x06 [7, 0, 1, 30])) receiving)
      (fun t => t.engine.pendingSlot == some (.extendCabin 1 30)) = true := by decide +kernel
theorem test_cancel :
    after? (exec (.cancel (frame4 0x07 [])) { receiving with engine := { Engine.cold with pendingSlot := some .reloadTables } })
      (fun t => t.engine.pendingSlot == none && t.line.reply.take 6 == [0xC5, 4, 0x87, 2, 1, 10]) = true := by
  decide +kernel
theorem test_lamp_sixty :
    after? (exec (.lamp (frame4 0x08 [0, 0, 6, 60])) receiving)
      (fun t => (t.unit 0).lamp.transient == some (.amberFlash, 60000)) = true := by decide +kernel
theorem test_restart :
    after? (exec (.restart (frame4 0x09 [])) receiving) (fun t => t.restart == some .quiesce) = true := by
  decide +kernel
/-- 11.5: station 4 has step codes 4 and 251. -/
theorem test_store_unlock :
    after? (exec (.storeUnlock1 (frame4 0x10 [4])) receiving) (fun t => t.mgmt.state == .step1) = true := by
  decide +kernel
theorem test_store_unlock_second :
    after? (exec (.storeUnlock2 (frame4 0x11 [251])) { receiving with mgmt := { Mgmt.cold with state := .step1 } })
      (fun t => t.mgmt.state == .unlocked && t.mgmt.deadline == 2000) = true := by decide +kernel
/-- 11.5: STORE-ERASE 8 after 9 lists 8, 9 and restarts the window. -/
theorem test_store_erase :
    after? (exec (.storeErase (frame4 0x13 [8])) { receiving with
        clock := ⟨60, 0, 60⟩, mgmt := { Mgmt.cold with state := .eraseWindow, eraseList := [9] } })
      (fun t => t.mgmt.eraseList == [8, 9] && t.mgmt.deadline == 160) = true := by decide +kernel
/-- R138: segment 3 is protected by default; nothing is programmed. -/
theorem test_store_program_protected :
    after? (exec (.storeProgram (frame4 0x12 (3 :: 0 :: List.replicate 32 0)))
        { receiving with mgmt := { Mgmt.cold with state := .unlocked } })
      (fun t => t.mgmt.state == .programming && t.port.program == none) = true := by decide +kernel
/-- R131: an unprotected program makes its slot WRITING at once. -/
theorem test_store_program :
    after? (exec (.storeProgram (frame4 0x12 (4 :: 1 :: List.replicate 32 0)))
        { receiving with mgmt := { Mgmt.cold with state := .unlocked } })
      (fun t => (t.store.read 513).state == .writing) = true := by decide +kernel
theorem test_store_clear_in_failed :
    after? (exec (.storeClear (frame4 0x14 [])) { receiving with mgmt := { Mgmt.cold with state := .failed } })
      (fun t => t.mgmt.state == .ready) = true := by decide +kernel
/-- R143: the toggle is shown, then inverted, while an operation runs. -/
theorem test_store_status_toggles :
    after? (exec (.storeStatus (frame4 0x15 [])) { receiving with mgmt := { Mgmt.cold with state := .erasing } })
      (fun t => t.mgmt.toggle && t.line.reply[8]? == some 0) = true := by decide +kernel
theorem test_store_read_blank :
    after? (exec (.storeRead (frame4 0x16 [31, 127])) receiving)
      (fun t => t.line.reply.take 7 == [0xC5, 4, 0x96, 3, 31, 127, 1]) = true := by decide +kernel
/-- R137: the step timer runs out 2 s after the unlock step, not before. -/
theorem test_step_timer :
    after? (exec .stepTimerExpiry { live with
        clock := ⟨1999, 1, 999⟩, mgmt := { Mgmt.cold with state := .unlocked, deadline := 2000 } })
      (fun t => t.mgmt.state == .unlocked) = true := by decide +kernel
/-- R140: with segments 2 and 5 listed, 2 is skipped as protected and the erase of 5 begins. -/
theorem test_erase_window :
    after? (exec .eraseWindowExpiry { live with
        mgmt := { Mgmt.cold with state := .eraseWindow, eraseList := [2, 5] } })
      (fun t => t.mgmt.skipped == [2] && t.mgmt.eraseSet == [5] && t.port.erase.isSome) = true := by decide +kernel
/-- R115: the body of a header ends, and its valid mark is programmed next. -/
theorem test_body_end :
    after? (exec .bodyProgramEnd { live with
        journal := { Journal.cold with opening := some 16, write := some ⟨.header, ⟨16, 0⟩, false⟩ }
        port := ⟨some ⟨.journal, .body, ⟨16, 0⟩, headerBytes 1⟩, none, none, false⟩ })
      (fun t => t.port.program == some ⟨.journal, .valid, ⟨16, 0⟩, []⟩) = true := by decide +kernel
/-- R118: the header's valid mark makes segment 16 the head, generation 1, next slot 1. -/
theorem test_valid_end :
    after? (exec .validMarkProgramEnd { live with
        store := [(2048, ⟨.writing, headerBytes 1⟩)]
        journal := { Journal.cold with opening := some 16, write := some ⟨.header, ⟨16, 0⟩, true⟩ }
        port := ⟨some ⟨.journal, .valid, ⟨16, 0⟩, []⟩, none, none, false⟩ })
      (fun t => t.journal.head == some 16 && t.journal.headGen == 1 && t.journal.next == 1) = true := by decide +kernel
/-- R132: once slot 0 is RETIRED the erase proper begins. -/
theorem test_retired_end :
    after? (exec .retiredMarkProgramEnd { live with
        store := [(1024, ⟨.valid, []⟩)]
        mgmt := { Mgmt.cold with state := .erasing, eraseList := [8, 9], eraseSet := [8, 9] }
        port := ⟨some ⟨.retiring, .retired, ⟨8, 0⟩, []⟩, some ⟨false, 8, .retiring true⟩, none, false⟩ })
      (fun t => t.port.erase == some ⟨false, 8, .active⟩ && t.port.program == none) = true := by decide +kernel
/-- 11.5: segment 8 is BLANK and segment 9 begins as part of the same list. -/
theorem test_erase_end :
    after? (exec .eraseProperEnd { live with
        store := [(1024, ⟨.retired, []⟩)]
        mgmt := { Mgmt.cold with state := .erasing, eraseList := [8, 9], eraseSet := [8, 9] }
        port := ⟨none, some ⟨false, 8, .active⟩, none, false⟩ })
      (fun t => t.mgmt.eraseList == [9] && (t.port.erase.map (·.seg)) == some 9 && (t.store.read 1024).state == .blank)
        = true := by decide +kernel
theorem test_erase_suspended :
    after? (exec .eraseSuspended { live with port := ⟨none, some ⟨true, 20, .suspending⟩, none, false⟩ })
      (fun t => t.port.erase == some ⟨true, 20, .active⟩) = true := by decide +kernel
/-- R99: a status cycle that comes due while the chain is busy is owed. -/
theorem test_cycle_owed :
    after? (exec (.statusCycleDue 0) (live.modBank 0 fun k => { k with activity := .parked }))
      (fun t => (t.bank 0).owed == some 0 && (t.bank 0).cycleDue == 100) = true := by decide +kernel
/-- R98: on a chain with no node the bits come straight back, and the mode pass passes. -/
theorem test_mode_pass_empty_chain :
    after? (exec (.statusModePassEnd 0 Noise.none) (live.modBank 0 fun k => { k with
        activity := .statusMode [], failures := 2 }))
      (fun t => (t.bank 0).failures == 0) = true := by decide +kernel
/-- R98: the third failed pass in succession faults the bank. -/
theorem test_third_failure :
    after? (exec (.statusModePassEnd 0 ⟨[true], []⟩) (live.modBank 0 fun k => { k with
        activity := .statusMode [], failures := 2 }))
      (fun t => (t.bank 0).state == .faulted && (t.bank 0).faultCode == some .integrity) = true := by decide +kernel
theorem test_tap_reserve :
    after? (exec (.tapReserve 0) (live.modBank 0 fun k => { k with activity := .reserving [0, 1] }))
      (fun t => t.taps.reservations == 2 && (t.bank 0).activity == .fetchMode [.tap, .tap]) = true := by decide +kernel
/-- R74, R75: at a pulse end the head is granted with its bank's coil current. -/
theorem test_pulse_end_grants :
    after? (exec .pulseEnd { live with
        clock := ⟨100, 0, 100⟩, drive := ⟨[Actuation.fresh 1 .throw .normal], [pulsed 0 .throw], [], []⟩ })
      (fun t => t.drive.granted.map (fun a => (a.unit, a.current)) == [(1, some 500)]) = true := by decide +kernel
/-- R102: too few reservations: REFUSED, and none is left. -/
theorem test_tap_place_refused :
    after? (exec (.tapPlace 0) { live with
        taps := ⟨[], put live.taps.reserved 0 1⟩
        banks := put live.banks 0 { live.bank 0 with activity := .parked, place := some ⟨[⟨0, 150, 0⟩], 1, []⟩ } })
      (fun t => t.taps.records == [] && t.taps.reservations == 0) = true := by decide +kernel
theorem test_tap_release :
    after? (exec (.tapRelease 0) { live with
        taps := ⟨[], put live.taps.reserved 0 1⟩, banks := put live.banks 0 { live.bank 0 with release := 3 } })
      (fun t => t.taps.reservations == 0 && (t.bank 0).release == 0) = true := by decide +kernel
/-- R108: an empty chain where two nodes are expected: COUNT. -/
theorem test_enumeration_count :
    after? (exec (.enumerationPassEnd 0 Noise.none) (live.modBank 0 fun k => { k with
        state := .enumerating, activity := .enumerating }))
      (fun t => (t.bank 0).state == .faulted && (t.bank 0).faultCode == some .count) = true := by decide +kernel
/-- R93: a new read raises SEQ and sets TAPPEND. -/
theorem test_node_read :
    after? (exec (.nodeRead 0 0 150 5) (live.setChain 0 [{ Node.fitted 1 0 0 true false false false with seq := 15 }]))
      (fun t => (t.chain 0).map (fun n => (n.seq, n.tapPend, n.band)) == [(0, true, 150)]) = true := by decide +kernel
/-- R90: a node in CELL-HOLD stays there. -/
theorem test_node_stall :
    after? (exec (.nodeStallReturn 0 0) (live.setChain 0 [{ Node.fitted 1 0 0 true false false false with phase := .cellHold }]))
      (fun t => (t.chain 0).map (·.phase) == [.cellHold]) = true := by decide +kernel
/-- R91, R94: a blank node has no sensors. -/
theorem test_blank_node_sensors :
    after? (exec (.nodeSensorChange 0 0 true true true true) (live.setChain 0 [Node.fitted 3 0 0 false false false false]))
      (fun t => (t.chain 0).map (·.door) == [false]) = true := by decide +kernel
/-- A node fitted past the last joins the chain (log 6). -/
theorem test_node_joins :
    after? (exec (.nodePowerUp 0 0 1 2 3) live) (fun t => (t.chain 0).length == 1) = true := by decide +kernel
theorem test_node_pulse_end :
    after? (exec (.nodePulseEnd 0 0) ({ live with clock := ⟨200, 0, 200⟩ }.setChain 0
        [{ Node.fitted 1 0 0 true false false false with pulse := some (.throw, 4), pulseFrom := some 0 }]))
      (fun t => (t.chain 0).map (·.pulse) == [none]) = true := by decide +kernel
/-- R94: a pulse of length 4 lasts 200 ms. -/
theorem test_node_pulse_goes_on :
    after? (exec (.nodePulseEnd 0 0) ({ live with clock := ⟨199, 0, 199⟩ }.setChain 0
        [{ Node.fitted 1 0 0 true false false false with pulse := some (.throw, 4), pulseFrom := some 0 }]))
      (fun t => (t.chain 0).map (·.pulse) == [some (.throw, 4)]) = true := by decide +kernel
/-- R94: a pulse that a CELL-SET at the end of a mode pass begins is timed from there. -/
theorem test_mode_pass_times_pulse :
    ((leaveMode 7 [{ Node.fitted 1 0 0 true false false false with
        phase := .cellMove, mode := .status, reg := commandBits 1 4 0 false }]).map fun n => (n.pulse.isSome, n.pulseFrom))
      = [(true, some 7)] := by decide +kernel
/-- R91: a blank node carries no bolt. -/
theorem test_blank_node_op :
    ({ Node.fitted 3 0 0 true false false false with mode := .status, reg := commandBits 1 4 0 false }).applyCell.pulse =
      none := by decide
/-- R79: a pulse whose end has come awaits verify with no current. -/
theorem test_pulse_end :
    after? (exec .pulseEnd { live with clock := ⟨100, 0, 100⟩, drive := ⟨[], [pulsed 0 .throw], [], []⟩ })
      (fun t => t.drive.committed == 0 && t.drive.awaiting.length == 1) = true := by decide +kernel
/-- 11.2: a tap at a FREE locker with its door shut. -/
theorem test_tap_binds :
    after? (exec .takeTap (tapAt 0 (at' .free) shut 150))
      (fun t => (t.unit 0).state = .locking && t.drive.committed == 500 && t.bands == [⟨150, 1, 0, [0]⟩]) = true := by
  decide +kernel
/-- R30: a locker with its door open refuses DOOR_OPEN. -/
theorem test_tap_door_open :
    after? (exec .takeTap (tapAt 0 (at' .free) ajarCell 150))
      (fun t => (t.notices.list.map (·.code)) == [14]) = true := by decide +kernel
/-- R27, R150: a SET_OUT_OF_SERVICE held back behind the AJAR_IDLE of a locker, whose holder's tap closes it again. -/
def closingTap : State :=
  let s := heldAt 0 (at' .ajar) shut 150
  { s with
    tables := { tables0 with unitMap := put tables0.unitMap 2 ⟨.locker, 0⟩ }
    timers := [⟨0, 0, .ajarIdle⟩]
    taps := { s.taps with records := s.taps.records ++ s.taps.records }
    engine := { s.engine with pendingSlot := some (.setOutOfService 2), held := [.idle 0 0, .accept] } }
/-- R27, R150: before the tap the action cannot be accepted, after it the action goes before the second tap. -/
theorem test_tap_frees_action :
    closingTap.engine.pendingSlot.any closingTap.acceptable = false ∧
    after? (exec .takeTap closingTap) (fun t => (t.unit 0).state = .locking && t.taps.records.length == 1 &&
      t.engine.pendingSlot.any t.acceptable && t.taps.records.all (!t.tapTakeable ·)) = true := by decide +kernel
/-- R37: a HELD locker seen with its door open is FORCED. -/
theorem test_observation_forced :
    after? (exec .observation ((one 0 { at' .held with holder := some 150 } ajarCell).setInbox [.observed 0 thrown ajarCell]))
      (fun t => (t.unit 0).state == .forced && (t.notices.list.map (·.kind)) == [.doorForced]) = true := by
  decide +kernel
/-- R49: a FREE locker whose bolt is thrown gets a WITHDRAW. -/
theorem test_reconcile :
    after? (exec .reconcile ((one 0 (at' .free) thrown).setInbox [.reconcile 0 [(0, thrown)]]))
      (fun t => t.drive.granted.map (fun a => (a.unit, a.op)) == [(0, .withdraw)]) = true := by decide +kernel
/-- R35: a verified THROW in LOCKING with the door shut. -/
theorem test_verify_held :
    after? (exec .verifyResult ((one 0 (at' .locking) thrown).setInbox [.verified 0 .throw thrown]))
      (fun t => (t.unit 0).state == .held) = true := by decide +kernel
/-- R46: a cabin throw verified with the door open. -/
theorem test_verify_vacating :
    after? (exec .verifyResult ((one 1 (at' .closing) thrown).setInbox [.verified 1 .throw ajarCell]))
      (fun t => (t.unit 1).state == .vacating) = true := by decide +kernel
/-- R47: a fault report of a locker hands a STATE record. -/
theorem test_fault_report :
    after? (exec .faultReport ((one 0 (at' .locking) shut).setInbox [.faulted 0 .throw shut]))
      (fun t => (t.unit 0).state == .fault && t.journal.queue == [⟨.state 0 .fault, false⟩]) = true := by decide +kernel
/-- R24: with 15 records waiting a locker's fault report is held back. -/
theorem test_fault_report_held :
    after? (exec .faultReport { (one 0 (at' .locking) shut).setInbox [.faulted 0 .throw shut] with
        journal := { Journal.cold with queue := List.replicate 15 ⟨.release 0, false⟩ } })
      (fun t => (t.unit 0).state == .locking && t.engine.held == [.report 0]) = true := by decide +kernel
/-- R24: reports of lockers that wait for room keep the order in which they came, of both kinds. -/
theorem test_reports_keep_order :
    after? (exec .verifyResult { live.setInbox [.verified 0 .throw shut, .faulted 2 .throw shut, .verified 3 .throw shut] with
        tables := { tables0 with unitMap := Vector.replicate 512 ⟨.locker, 0⟩ }
        journal := { Journal.cold with queue := List.replicate 15 ⟨.release 0, false⟩ } })
      (fun t => t.engine.held == [.report 0, .report 2, .report 3]) = true := by decide +kernel
/-- R24: they keep that order too when a record written gives the room back. -/
theorem test_room_keeps_order :
    after? (exec .validMarkProgramEnd { live.setInbox [.verified 0 .throw shut, .faulted 2 .throw shut] with
        tables := { tables0 with unitMap := Vector.replicate 512 ⟨.locker, 0⟩ }
        port := ⟨some ⟨.journal, .valid, ⟨16, 3⟩, []⟩, none, none, false⟩
        journal := { Journal.cold with
          head := some 16, next := 3, queue := List.replicate 15 ⟨.release 0, false⟩, write := some ⟨.queued, ⟨16, 3⟩, true⟩ } })
      (fun t => t.journal.queue.length == 14 && t.engine.held == [.report 0, .report 2]) = true := by decide +kernel
/-- R24, R150, R61: SET_OUT_OF_SERVICE is posted while there is no room, and an AJAR_IDLE of 1 s falls due after it; the
acceptance stands before the AJAR_IDLE once the room returns. -/
theorem test_acceptance_before_idle :
    let full : State := { receiving with
      timers := [⟨1, 0, .ajarIdle⟩], clock := ⟨999, 0, 999⟩
      port := ⟨some ⟨.journal, .valid, ⟨16, 3⟩, []⟩, none, none, false⟩
      journal := { Journal.cold with
        head := some 16, next := 3, queue := List.replicate 15 ⟨.release 0, false⟩, write := some ⟨.queued, ⟨16, 3⟩, true⟩ } }
    after? (exec (.action (frame4 0x06 [4, 0, 0])) full) (fun t =>
      after? (exec .validMarkProgramEnd (idle t)) fun t => t.engine.held == [.accept, .idle 0 1]) = true := by
  decide +kernel
theorem test_actuation_removed :
    after? (exec .actuationRemoved ((one 0 (at' .locking) shut).setInbox [.removed [0] none]))
      (fun t => (t.unit 0).suspended) = true := by decide +kernel
theorem test_throw_displaced :
    after? (exec .throwDisplaced ((one 1 (at' .closing) shut).setInbox [.displaced 1]))
      (fun t => (t.unit 1).state == .evacOpen && t.drive.used == 0) = true := by decide +kernel
theorem test_stall_report :
    after? (exec .journalStallReport (live.setInbox [.stall true])) (fun t => t.engine.ringStalled) = true := by
  decide +kernel
/-- 11.4: a WARNING at 4081 s puts EXPIRY 4141 in the list. -/
theorem test_warning :
    after? (exec .warning { one 1 { at' .inUse with expiry := some 4141 } shut with
        clock := ⟨0, 4081, 0⟩, timers := [⟨4081, 1, .warning⟩] })
      (fun t => t.timers == [⟨4141, 1, .expiry⟩] && (t.notices.list.map (·.extra)) == [4141]) = true := by decide +kernel
/-- 11.4: an EXPIRY of a latched cabin. -/
theorem test_expiry :
    after? (exec .expiry { one 1 { at' .inUse with graceEnd := some 4261 } ⟨true, false, false, false, true, false⟩ with
        clock := ⟨0, 4141, 0⟩, timers := [⟨4141, 1, .expiry⟩] })
      (fun t => (t.unit 1).state == .expired && t.timers == [⟨4261, 1, .graceEnd⟩]) = true := by decide +kernel
/-- R64: a GRACE_END that finds LATCH 1 sets overstay. -/
theorem test_grace_end :
    after? (exec .graceEnd { one 1 (at' .expired) ⟨true, false, false, false, true, false⟩ with
        clock := ⟨0, 4261, 0⟩, timers := [⟨4261, 1, .graceEnd⟩] })
      (fun t => (t.unit 1).overstay && t.timers == []) = true := by decide +kernel
/-- R64, R69: it finds the latch engaged at either edge whose observation is not taken yet. -/
theorem test_grace_end_edges (was : Bool) :
    after? (exec .graceEnd { (one 1 (at' .expired) { shut with latch := !was }).setInbox
          [.observed 1 { shut with latch := was } { shut with latch := !was }] with
        clock := ⟨0, 4261, 0⟩, timers := [⟨4261, 1, .graceEnd⟩] })
      (fun t => (t.unit 1).overstay) = true := by revert was; decide +kernel
theorem test_ajar_idle :
    after? (exec .ajarIdle { heldAt 0 (at' .ajar) shut 150 with clock := ⟨0, 30, 0⟩, timers := [⟨30, 0, .ajarIdle⟩] })
      (fun t => (t.unit 0).state == .free && t.bands == [] && (t.notices.list.map (·.code)) == [3]) = true := by
  decide +kernel

/-- The state with an action waiting to be accepted. -/
def posted (s : State) (a : Action) : State := { s with engine := { s.engine with pendingSlot := some a } }

/-- R154: RELEASE_UNIT of an AJAR locker ends at once. -/
theorem test_release_unit :
    after? (exec .releaseUnit (posted (heldAt 0 (at' .ajar) shut 150) (.releaseUnit 0)))
      (fun t => t.bands == [] && t.engine.runningSlot == none && (t.notices.list.map (·.code)) == [4, 16]) = true := by
  decide +kernel
theorem test_release_band :
    after? (exec .releaseBand (posted live (.releaseBand 150))) (fun t => (t.notices.list.map (·.code)) == [33]) = true := by
  decide +kernel
theorem test_open_unit :
    after? (exec .openUnit (posted (one 1 (at' .free) thrown) (.openUnit 1)))
      (fun t => (t.unit 1).state == .serviceOpen && t.drive.granted.length == 1) = true := by decide +kernel
theorem test_set_out_of_service :
    after? (exec .setOutOfService (posted live (.setOutOfService 0)))
      (fun t => (t.unit 0).state == .outOfService && (t.unit 0).lamp.steady == .red && t.journal.queue.length == 1)
        = true := by decide +kernel
theorem test_return_to_service :
    after? (exec .returnToService (posted (one 1 (at' .outOfService) thrown) (.returnToService 1)))
      (fun t => (t.unit 1).state == .free && (t.notices.list.map (·.code)) == [80]) = true := by decide +kernel
theorem test_clear_fault_not_faulted :
    after? (exec .clearFault (posted live (.clearFault 0))) (fun t => (t.notices.list.map (·.code)) == [104]) = true := by
  decide +kernel
/-- R67: 10 minutes more from an expiry of 1000 s. -/
theorem test_extend_cabin :
    after? (exec .extendCabin (posted (one 1 { at' .inUse with expiry := some 1000 } shut) (.extendCabin 1 10)))
      (fun t => (t.unit 1).expiry == some 1600 && t.timers == [⟨1540, 1, .warning⟩]) = true := by decide +kernel
theorem test_bank_cleaning :
    after? (exec .bankCleaning (posted live (.bankCleaning 3 true))) (fun t => t.engine.cleaning.get 3) = true := by
  decide +kernel
theorem test_block_band_listed :
    after? (exec .blockBand (posted live (.blockBand 8))) (fun t => t.engine.overlay == []) = true := by decide +kernel
theorem test_reload_tables :
    after? (exec .reloadTables (posted live .reloadTables)) (fun t => t.load == some .reload) = true := by decide +kernel
/-- R161: an ABSENT bank ends at once, with its state in the extra word. -/
theorem test_reset_absent_bank :
    after? (exec .resetBank (posted live (.resetBank 5))) (fun t => (t.notices.list.map (·.extra)) == [1]) = true := by
  decide +kernel
theorem test_reset_bank_done :
    after? (exec .resetBankDone { live with engine := { Engine.cold with
        runningSlot := some ⟨.resetBank 0, [], 0⟩, inbox := [.resetDone 0 .faulted (some .count) 2] } })
      (fun t => (t.notices.list.map (·.extra)) == [5 + 2 * 256 + 2 * 65536]) = true := by decide +kernel
/-- R48, R161: RESET_BANK of a FAULTED bank loses the movements that wait for it. -/
theorem test_reset_faulted_bank :
    after? (exec .resetBank { posted (live.modBank 0 fun k => { k with state := .faulted }) (.resetBank 0) with
        drive := ⟨[Actuation.fresh 1 .throw .normal], [], [], []⟩ })
      (fun t => t.drive.waiting == [] && t.engine.inbox == [.removed [1] (some 0)]) = true := by decide +kernel
/-- R162: in LEVEL mode CLEAR_EVACUATION ends NOT_ACTIVE. -/
theorem test_clear_evacuation_level :
    after? (exec .clearEvacuation (posted live .clearEvacuation)) (fun t => (t.notices.list.map (·.code)) == [205]) = true := by
  decide +kernel
theorem test_clear_evacuation_step :
    after? (exec .clearEvacuationStep { one 1 (at' .evacOpen) shut with engine := { Engine.cold with
        runningSlot := some ⟨.clearEvacuation, [⟨1, .due⟩], 0⟩ } })
      (fun t => (t.unit 1).state == .closing && (t.notices.list.map (·.extra)) == [1]) = true := by decide +kernel
theorem test_action_outcome :
    after? (exec .actionOutcome { live with engine := { Engine.cold with
        runningSlot := some ⟨.openUnit 0, [⟨0, .outcome .fault⟩], 0⟩ } })
      (fun t => t.engine.runningSlot == none && (t.notices.list.map (·.code)) == [50]) = true := by decide +kernel
theorem test_restart_quiesced :
    after? (exec .restartQuiesced { live with restart := some .quiesce, drive := ⟨[], [pulsed 0 .throw], [], []⟩ })
      (fun t => t.restart == some .quiesce) = true := by decide +kernel
theorem test_restart_drained :
    after? (exec .restartJournalDrained { live with restart := some .drain }) (fun t => t.restart == some .store) = true := by
  decide +kernel
theorem test_supply_loss : after? (exec .supplyLoss live) (fun t => !t.supply && t.startUp == .held) = true := by
  decide +kernel
theorem test_evacuate_debounced :
    after? (exec (.evacuateDebounced true) live) (fun t => t.inputs.changes == [true] && !t.inputs.active) = true := by
  decide +kernel
theorem test_service_key : after? (exec (.serviceKeyDebounced true) live) (fun t => t.inputs.serviceKey) = true := by
  decide +kernel
/-- R179: the end of an EDGE-mode evacuation leaves the cabins. -/
theorem test_evacuation_end_edge :
    after? (exec .evacuationEnd { one 1 (at' .evacOpen) shut with
        inputs := ⟨false, false, true, [false]⟩
        tables := { tables0 with options := { Options.default with evacMode := .edge } } })
      (fun t => (t.unit 1).state == .evacOpen && !t.inputs.active) = true := by decide +kernel

/-- R74, R179: cabin 1's withdraw, taken away, leaves the head to cabin 64's, which is granted and so runs on. -/
theorem test_evacuation_end_frees_head :
    after? (exec .evacuationEnd { live with
        inputs := ⟨false, false, true, [false]⟩
        units := put (put live.units 1 (at' .evacOpen)) 64 (at' .evacOpen)
        banks := put live.banks 1 { Bank.cold with state := .running }
        drive := ⟨[Actuation.fresh 1 .withdraw .normal, Actuation.fresh 64 .withdraw .normal], [pulsed 0 .throw], [], []⟩
        tables := { tables0 with
          options := { Options.default with railLimit := 600 }
          unitMap := put tables0.unitMap 64 ⟨.cabin, 0⟩
          banks := put tables0.banks 1 { BankRec.default with nodeCount := 1, coilCurrent := 100 } } })
      (fun t => t.engine.follow == [(64, .toClose)] && (t.unit 1).state == .closing) = true := by decide +kernel

/-! ### Witnesses: for every statement with hypotheses, states and operands that meet them -/

theorem movements_one (u : UnitIx) (r : UnitRec) (c : Cell) (hr : r.deferred = none) : MovementsOk (one u r c) := by
  refine ⟨Nat.le_of_ble_eq_true rfl, fun v => ?_⟩
  have hd : ((one u r c).unit v).deferred = none := by rw [unit_one]; split; exacts [hr, rfl]
  rw [State.movements, hd]
  simp [one, live, State.reset, Drive.units, Engine.cold]

theorem movements_queued : MovementsOk { live with drive := ⟨[Actuation.fresh 0 .throw .normal], [], [], []⟩ } := by
  refine ⟨Nat.le_of_ble_eq_true rfl, fun v => ?_⟩
  rw [State.movements, show ({ live with drive := ⟨[Actuation.fresh 0 .throw .normal], [], [], []⟩ } : State).unit v =
    UnitRec.cold .off by simp [live, State.reset, State.unit, Vector.get_eq_getElem]]
  simp only [Drive.units, Actuation.fresh, UnitRec.cold, live, State.reset, Engine.cold, List.append_nil, List.map_cons,
    List.map_nil, List.count_cons, List.count_nil, Option.isSome_none, List.sum_nil]
  split <;> simp

theorem still_one (u : UnitIx) (r : UnitRec) (c : Cell) (hr : r.deferred = none) : (one u r c).inHand u = false := by
  rw [State.inHand, unit_one]
  simp [hr, State.actuating, State.reported, one, live, State.reset, Engine.cold]

theorem unit_self (u : UnitIx) (r : UnitRec) (c : Cell) : (one u r c).unit u = r := by simp [unit_one]

/-- Unit 0 is a locker, unit 1 a cabin, unit 2 neither; bands 150, 7, 8 and 250 are of class 1, master, blocked and
unknown. -/
theorem witness_units_and_bands (u : UnitIx) (r : UnitRec) (c : Cell) (b : Band) :
    let s := tapAt u r c b
    s.kind 0 = .locker ∧ s.kind 1 = .cabin ∧ s.kind 2 = .unused ∧ identify s 150 = .cls 1 ∧ identify s 7 = .master ∧
      identify s 8 = .blocked ∧ identify s 250 = .unknown ∧ s.engine.cleaning.get (bankOf u) = false ∧
      s.levelEvac = false ∧ (s.cls 1).zones.getLsbD 0 = true := by
  have hz : (tables0.classes.get 1).zones.getLsbD 0 = true := by decide +kernel
  refine ⟨rfl, rfl, rfl, rfl, rfl, rfl, rfl, ?_, rfl, hz⟩
  show (Vector.replicate 8 false).get _ = false
  simp [Vector.get_eq_getElem]

theorem witness_EveryCommandCompletes : ∃ (c : Instr) (s t : State), exec c s = .next t ∧ c ≠ .coldStart ∧
    c ≠ .supplyLoss ∧ c ≠ .tableLoadEnd ∧ s.load ≠ some .cold :=
  ⟨.lineQuiet, live, lineQuiet live, rfl, nofun, nofun, nofun, nofun⟩

/-- The invariants hold together in a running state whose next step is a bind. -/
theorem witness_invariants : ∃ s t : State, step s = .next t ∧ StoreOk s ∧ NoticesOk s ∧ TapsOk s ∧ JournalQueueOk s ∧
    OverlayOk s ∧ RailOk s ∧ MovementsOk s ∧ HoldingsOk s ∧ TimersOk s ∧ StoreHalvesOk s := by
  refine ⟨{ tapAt 0 (at' .free) shut 150 with pending := [.takeTap] }, _, rfl, store_wf_nil, by unfold NoticesOk; decide,
    by unfold TapsOk; decide, by unfold JournalQueueOk; decide, by unfold OverlayOk; decide, by unfold RailOk; decide +kernel,
    movements_one 0 (at' .free) shut rfl, holdings_tapAt 0 (at' .free) shut 150 rfl, by unfold TimersOk; decide, ?_⟩
  exact ⟨nofun, nofun, nofun, nofun, nofun, nofun, nofun, nofun, nofun⟩

theorem witness_ColdStart : (∃ s : State, s.supply = true) ∧ ∃ s : State, s.supply = false :=
  ⟨⟨live, rfl⟩, { live with supply := false }, rfl⟩

theorem witness_ColdStartCutsOffTheStore :
    (∀ k : ProgKind, ∃ (s : State) (p : Program), s.port.program = some p ∧ p.kind = k ∧ p.ref.addr = 2049 ∧
      s.port.erase = none) ∧
    ∃ (s : State) (e : Erase), s.port.erase = some e ∧ (∀ b, e.phase ≠ .retiring b) ∧ 2561 / 128 = e.seg ∧
      2561 % 128 ≠ 0 ∧ s.port.program = none :=
  ⟨fun k => ⟨{ live with port := ⟨some ⟨.journal, k, ⟨16, 1⟩, []⟩, none, none, false⟩ }, _, rfl, rfl, rfl, rfl⟩,
    { live with port := ⟨none, some ⟨true, 20, .active⟩, none, false⟩ }, _, rfl, nofun, rfl, by decide, rfl⟩

theorem witness_StrapsInputsAndClock :
    (State.reset.startUp = .held ∧ State.reset.supply = true) ∧ (live.startUp ≠ .held ∧ live.inputs.evacuate ≠ true) ∧
      (live.pending = [] ∧ live.clock.sub < 1000) ∧ (State.reset.pending = [] ∧ State.reset.startUp = .held) := by
  decide +kernel

theorem witness_LoadReadsValidSlots : StoreOk { live with store := [(0, ⟨.valid, [1]⟩), (5, ⟨.retired, []⟩)] } := by
  unfold StoreOk; decide +kernel

/-- A management program whose valid mark ends on slot 5 of segment 0, with a load under way or not. -/
def lateProgram (load : Option LoadCause) : State :=
  { live with
    load := load, store := [(0, ⟨.valid, [1]⟩), (5, ⟨.writing, [2]⟩)], port := ⟨some ⟨.management, .valid, ⟨0, 5⟩, []⟩, none, none, false⟩
    mgmt := { live.mgmt with state := .programming, target := some ⟨⟨0, 5⟩, [2], false, true⟩ } }

/-- Its record is passed over by the load under way, and comes into force at the first that begins after (R138). -/
theorem test_lateProgram :
    (∃ t, exec .validMarkProgramEnd (lateProgram (some .reload)) = .next t ∧ t.slotState ⟨0, 5⟩ = .valid ∧
      tableRecords t = [[1]] ∧ tableRecords (t.beginLoad .warm) = [[1], [2]]) ∧
    ∃ t, exec .validMarkProgramEnd (lateProgram none) = .next t ∧ tableRecords t = [[1], [2]] :=
  ⟨⟨_, rfl, by decide +kernel⟩, _, rfl, by decide +kernel⟩

theorem witness_LoadPassesLateProgram : (∃ (s : State) (p : Program), s.load ≠ none ∧ s.port.program = some p ∧
      p.kind = .valid ∧ p.owner = .management) ∧
    ∃ (s : State) (p : Program), s.load = none ∧ s.port.program = some p ∧ p.kind = .valid ∧ p.owner = .management :=
  ⟨⟨lateProgram (some .reload), ⟨.management, .valid, ⟨0, 5⟩, []⟩, nofun, rfl, rfl, rfl⟩,
    lateProgram none, ⟨.management, .valid, ⟨0, 5⟩, []⟩, rfl, rfl, rfl, rfl⟩

theorem witness_LoadedSetInRange : 300 ≤ Options.default.railLimit := by decide

theorem witness_loads : (∃ s : State, s.load = some .cold) ∧ ∃ s : State, s.load = some .warm :=
  ⟨⟨{ live with load := some .cold }, rfl⟩, { live with load := some .warm }, rfl⟩

/-- An empty store makes locker 0 UNUSED: in conflict while it is held, and not while nothing is. -/
theorem witness_ReloadEnds :
    (∃ (s : State) (r : Running), s.load = some .reload ∧ s.engine.runningSlot = some r ∧ r.action = .reloadTables ∧
      ((buildSet (tableRecords s) s.tables.options).tables.unitMap.get 0).kind ≠ s.kind 0 ∧
      (s.unit 0).holder.isSome = true) ∧
    ∃ (s : State) (r : Running), s.load = some .reload ∧ s.engine.runningSlot = some r ∧ r.action = .reloadTables ∧
      ∀ v : UnitIx, (s.unit v).holder = none ∧ (s.unit v).stateRef = none := by
  refine ⟨⟨{ heldAt 0 (at' .held) shut 150 with
      load := some .reload, engine := { Engine.cold with runningSlot := some ⟨.reloadTables, [], 0⟩ } }, _, rfl, rfl, rfl,
      by decide +kernel, by decide +kernel⟩,
    { live with load := some .reload, engine := { Engine.cold with runningSlot := some ⟨.reloadTables, [], 0⟩ } }, _, rfl,
      rfl, rfl, fun v => ?_⟩
  constructor <;> simp [live, State.reset, State.unit, Vector.get_eq_getElem, UnitRec.cold]

/-- The clauses of ReloadEnds on banks: an empty store takes a bank with a node away, where nothing is held. -/
theorem witness_reloadTakesABankAway :
    let s : State := { live with
      tables := { tables0 with banks := put tables0.banks 7 { tables0.banks.get 7 with nodeCount := 1 } }
      load := some .reload, engine := { Engine.cold with runningSlot := some ⟨.reloadTables, [], 0⟩ } }
    ((buildSet (tableRecords s) s.tables.options).tables.banks.get 7).nodeCount = 0 ∧ 0 < (s.bankRec 7).nodeCount := by
  decide +kernel

theorem witness_ReplayRestoresHoldings : ∃ s : State, s.startUp = .replay ∧ s.port.program = none ∧ s.port.erase = none ∧
    s.port.journalErase = none ∧ (∀ g, 16 ≤ g → g ≤ 31 → s.segDirty g = false) ∧ StoreOk s :=
  ⟨{ live with startUp := .replay }, rfl, rfl, rfl, rfl,
    (fun g _ _ => by simp [State.segDirty, State.segBlank, live, State.reset]), store_wf_nil⟩

theorem witness_RestartSteps :
    (∃ s : State, s.restart = some .quiesce ∧ (∀ a ∈ s.drive.granted, a.delivered = false) ∧ s.drive.detached = [] ∧
      ∀ b, (s.bank b).activity = .idle) ∧
    (∃ s : State, s.restart = some .drain ∧ s.journal.queue = []) ∧
    ∃ s : State, s.restart = some .store ∧ s.mgmt.state ≠ .programming ∧ s.mgmt.state ≠ .erasing ∧
      s.port = ⟨none, none, none, false⟩ ∧ s.journal.write = none ∧ s.journal.opening = none ∧
      s.engine.follow.find? (fun e => e.1 = 1) = some (1, .toOpen) :=
  ⟨⟨{ live with restart := some .quiesce }, rfl, by decide, rfl, by decide +kernel⟩,
    ⟨{ live with restart := some .drain }, rfl, rfl⟩,
    { live with restart := some .store, engine := { Engine.cold with follow := [(1, .toOpen)] } },
      rfl, by decide, by decide, rfl, rfl, rfl, rfl⟩

/-- A FREE cabin with nothing in hand, and one whose throw has been granted. -/
theorem witness_EvacuationStart :
    (∃ s : State, s.startUp = .running ∧ s.restart = none ∧ s.inputs.changes = [true] ∧ MovementsOk s ∧
      s.kind 1 = .cabin ∧ (s.unit 1).state = .free ∧ s.opInHand 1 ≠ some .withdraw ∧
      ¬((∃ a ∈ s.drive.granted ++ s.drive.awaiting, a.unit = 1) ∨ s.reported 1 = true)) ∧
    ∃ s : State, s.startUp = .running ∧ s.restart = none ∧ s.inputs.changes = [true] ∧ MovementsOk s ∧
      s.kind 1 = .cabin ∧ (s.unit 1).state = .closing ∧ s.opInHand 1 ≠ some .withdraw ∧ s.reported 1 = true := by
  refine ⟨⟨{ one 1 (at' .free) shut with inputs := ⟨true, false, false, [true]⟩ }, rfl, rfl, rfl,
      movements_one 1 (at' .free) shut rfl, rfl, by decide +kernel, by decide +kernel, by decide +kernel⟩,
    { (one 1 (at' .closing) shut).setInbox [.displaced 1] with inputs := ⟨true, false, false, [true]⟩ }, rfl, rfl, rfl,
      movements_told 1 (at' .closing) shut (.displaced 1) rfl (fun v => ?_), rfl, by decide +kernel, by decide +kernel,
      by decide +kernel⟩
  simp only [EngEvent.movements]; split <;> omega

theorem witness_EvacuationEnd :
    (∃ s : State, s.startUp = .running ∧ s.restart = none ∧ s.inputs.changes = [false] ∧ MovementsOk s ∧
      s.tables.options.evacMode = .edge) ∧
    ∃ s : State, s.startUp = .running ∧ s.restart = none ∧ s.inputs.changes = [false] ∧ MovementsOk s ∧
      s.tables.options.evacMode = .level ∧ s.kind 1 = .cabin ∧ (s.unit 1).state = .evacOpen ∧
      s.opInHand 1 ≠ some .throw ∧ ¬((∃ a ∈ s.drive.granted ++ s.drive.awaiting, a.unit = 1) ∨ s.reported 1 = true) :=
  ⟨⟨{ live with
      inputs := ⟨false, false, true, [false]⟩
      tables := { tables0 with options := { Options.default with evacMode := .edge } } }, rfl, rfl, rfl, movements_live, rfl⟩,
    { one 1 (at' .evacOpen) shut with inputs := ⟨false, false, true, [false]⟩ }, rfl, rfl, rfl,
      movements_one 1 (at' .evacOpen) shut rfl, rfl, rfl, by decide +kernel, by decide +kernel, by decide +kernel⟩

/-- Each receive condition, and frames discarded for their CRC, their station, and a part strapped to 0 or 31. -/
theorem witness_LineConditions :
    (∀ k : LineCond, ∃ s : State, s.line.cond = k ∧ s.startUp = .running) ∧
    (∃ (c : Instr) (f : Frame), frameOf c = some (0x01, f) ∧ c.wellFormed = true ∧ receiving.line.cond = .receiving ∧
      f.crc ≠ crc16 ([f.station, 0x01, BitVec.ofNat 8 f.payload.length] ++ f.payload)) ∧
    (∃ (c : Instr) (f : Frame), frameOf c = some (0x01, f) ∧ c.wellFormed = true ∧
      f.station ≠ receiving.line.station.zeroExtend 8) ∧
    ∀ n : BitVec 5, n = 0 ∨ n = 31 → ∃ s : State, s.line.cond = .receiving ∧ s.line.station = n :=
  ⟨fun k => ⟨live.setCond k, rfl, rfl⟩, ⟨.poll ⟨4, [0], 0⟩, _, rfl, rfl, rfl, by decide +kernel⟩,
    ⟨.poll ⟨5, [0], 0⟩, _, rfl, rfl, by decide⟩,
    fun n _ => ⟨{ receiving with line := { receiving.line with station := n } }, rfl, rfl⟩⟩

/-- A frame of every kind and payload that fits arrives; so each clause on a payload, and on a station, has its
frame. -/
theorem witness_frames (kind : Byte) (p : List Byte) (h : p.length ≤ 240) :
    ∃ (f : Frame) (s : State), Arrives s kind f ∧ f.payload = p ∧ s.restart = none ∧ s.line.pollCopy = none :=
  ⟨frame4 kind p, receiving, arrives kind p h, rfl, rfl, rfl⟩

theorem witness_PollReplies : ∃ (f : Frame) (s : State) (p : List Byte), Arrives s 0x01 f ∧ f.payload = [1] ∧
    s.line.pollCopy = some p :=
  ⟨frame4 0x01 [1], { receiving with line := { receiving.line with pollCopy := some [0] } }, [0],
    arrives 0x01 [1] (by decide), rfl, rfl⟩

/-- A band with an entry; slots of every state, a segment under erase, a body program under way. -/
theorem witness_reads :
    (∃ (s : State) (e : BandEntry), Arrives s 0x03 (frame4 0x03 (byte4 150)) ∧ s.bands.find? (fun e => e.band = 150) = some e) ∧
    (∀ x : SlotState, ∃ s : State, Arrives s 0x16 (frame4 0x16 [31, 127]) ∧ (s.store.read 4095).state = x ∧
      s.port.erase = none ∧ s.port.program = none) ∧
    (∃ s : State, Arrives s 0x16 (frame4 0x16 [20, 0]) ∧
      ∃ e, s.port.erase = some e ∧ e.seg = 20 ∧ e.phase ≠ .retiring false) ∧
    ∃ s : State, Arrives s 0x16 (frame4 0x16 [16, 0]) ∧ (s.store.read 2048).state = .writing ∧
      ∃ p, s.port.program = some p ∧ p.kind = .body ∧ p.ref = ⟨16, 0⟩ :=
  ⟨⟨{ receiving with bands := [⟨150, 1, 0, [0]⟩] }, _, arrives _ _ (by decide), rfl⟩,
    fun x => ⟨{ receiving with store := [(4095, ⟨x, []⟩)] }, arrives _ _ (by decide), rfl, rfl, rfl⟩,
    ⟨{ receiving with port := ⟨none, some ⟨true, 20, .active⟩, none, false⟩ }, arrives _ _ (by decide), _, rfl, rfl, nofun⟩,
    { receiving with
      store := [(2048, ⟨.writing, []⟩)], port := ⟨some ⟨.journal, .body, ⟨16, 0⟩, []⟩, none, none, false⟩ },
      arrives _ _ (by decide), rfl, _, rfl, rfl, rfl⟩

/-- The load summary is read after a load. -/
theorem witness_ReadTableReplies : ∃ (s : State) (m : LoadSummary), Arrives s 0x05 (frame4 0x05 (byte1 10 ++ byte2 0)) ∧
    s.summary = some m :=
  ⟨{ receiving with summary := some ⟨.cold, .ok, 0, 0, 0, ⟨false, false, false⟩, none⟩ }, _, arrives _ _ (by decide), rfl⟩

/-- Every action passes its check in some state: units 0 and 1, at 1 and at 30 minutes. -/
theorem witness_FormatsReadBack :
    (Action.releaseUnit 0).passes live = true ∧ (Action.openUnit 1).passes live = true ∧
    (Action.extendCabin 1 1).passes live = true ∧ (Action.extendCabin 1 30).passes live = true ∧
    (∀ b, (Action.releaseBand b).passes live = true) ∧ (∀ r b c, r = JRec.bind 511 b c 4294967295 → r.unit = 511) :=
  ⟨rfl, rfl, rfl, rfl, fun _ => rfl, fun _ _ _ h => by subst h; rfl⟩

/-- The cases of ACTION: a restart, no payload, kinds 0, 13, 1 and 12, an argument out of range, and a full slot. -/
theorem witness_ActionFrame :
    (∃ s : State, Arrives s 0x06 (frame4 0x06 [10]) ∧ s.restart ≠ none) ∧ field [0x00] 0 1 = 0 ∧ 12 < field [0x0D] 0 1 ∧
    action? receiving [2, 0, 0, 0, 150] = some (.releaseBand 150) ∧ action? receiving [12] = some .clearEvacuation ∧
    action? receiving [1, 2, 0] = none ∧
    ∃ s : State, Arrives s 0x06 (frame4 0x06 [10]) ∧ s.restart = none ∧ s.engine.pendingSlot ≠ none :=
  ⟨⟨{ receiving with restart := some .quiesce }, arrives _ _ (by decide), nofun⟩, rfl, by decide, by decide +kernel,
    by decide +kernel, by decide +kernel, posted receiving .reloadTables, arrives _ _ (by decide), rfl, nofun⟩

theorem witness_CancelFrame :
    (∃ s a, Arrives s 0x07 (frame4 0x07 []) ∧ s.engine.pendingSlot = some a) ∧
    ∃ s r, Arrives s 0x07 (frame4 0x07 []) ∧ s.engine.pendingSlot = none ∧ s.engine.runningSlot = some r :=
  ⟨⟨posted receiving .reloadTables, _, arrives _ _ (by decide), rfl⟩,
    { receiving with engine := { Engine.cold with runningSlot := some ⟨.reloadTables, [], 0⟩ } }, _,
      arrives _ _ (by decide), rfl, rfl⟩

/-- LAMP frames at both ends of the lamps and the seconds; RESTART with one in progress. -/
theorem witness_LampAndRestartFrames :
    (frame4 0x08 [0, 0, 0, 1]).payload = byte2 0 ++ byte1 0 ++ byte1 1 ∧
    (frame4 0x08 [0, 1, 6, 60]).payload = byte2 1 ++ byte1 6 ++ byte1 60 ∧ receiving.kind 0 = .locker ∧
    receiving.kind 1 = .cabin ∧ (frame4 0x08 [2, 0, 7, 61]).payload = byte2 512 ++ byte1 7 ++ byte1 61 ∧
    ∃ s : State, Arrives s 0x09 (frame4 0x09 []) ∧ s.restart ≠ none :=
  ⟨rfl, rfl, rfl, rfl, rfl, { receiving with restart := some .store }, arrives _ _ (by decide), nofun⟩

/-- Every store write frame arrives in every command state, with a list in order; and during a restart. -/
theorem witness_StoreCommandTable :
    storeWriteOf (.storeUnlock1 (frame4 0x10 [4])) = some (0x10, frame4 0x10 [4], .unlock1 4) ∧
    storeWriteOf (.storeUnlock2 (frame4 0x11 [251])) = some (0x11, frame4 0x11 [251], .unlock2 251) ∧
    (∀ l : List Byte, l.length = 32 → storeWriteOf (.storeProgram (frame4 0x12 (15 :: 127 :: l))) =
      some (0x12, frame4 0x12 (15 :: 127 :: l), .program 15 127 l)) ∧
    storeWriteOf (.storeErase (frame4 0x13 [15])) = some (0x13, frame4 0x13 [15], .erase 15) ∧
    storeWriteOf (.storeClear (frame4 0x14 [])) = some (0x14, frame4 0x14 [], .clear) ∧
    (∀ (c : CmdState) (kind : Byte) (p : List Byte), p.length ≤ 240 → ∃ s : State, Arrives s kind (frame4 kind p) ∧
      s.restart = none ∧ s.mgmt.state = c ∧ s.mgmt.eraseList = [8, 9]) ∧
    ∃ s : State, Arrives s 0x14 (frame4 0x14 []) ∧ s.restart ≠ none ∧ s.mgmt.state = .failed := by
  refine ⟨rfl, rfl, fun l h => ?_, rfl, rfl, fun c kind p h =>
      ⟨{ receiving with mgmt := { Mgmt.cold with state := c, eraseList := [8, 9] } }, arrives _ _ h, rfl, rfl, rfl⟩,
    { receiving with restart := some .quiesce, mgmt := { Mgmt.cold with state := .failed } }, arrives _ _ (by decide), nofun,
      rfl⟩
  simp [storeWriteOf, frame4, h, field, bytesNat]

theorem witness_StoreStatusAndReadReplies : (∃ s : State, Arrives s 0x15 (frame4 0x15 [])) ∧
    ∃ (c : Instr) (s t : State), exec c s = .next t ∧ c = .coldStart ∧ s.supply = true :=
  ⟨⟨receiving, arrives _ _ (by decide)⟩, .coldStart, live, _, rfl, rfl, rfl⟩

/-- Each timer of the store commands at the moment its time comes, and one before it. -/
theorem witness_StoreTimers :
    (∀ c : CmdState, ∃ s : State, s.mgmt.state = c ∧ (s.clock.ms - s.mgmt.deadline).toNat < 2147483648 ∧
      s.mgmt.eraseSet = [] ∧ s.restart = none) ∧
    (∃ s : State, ¬(s.clock.ms - s.mgmt.deadline).toNat < 2147483648 ∧ s.mgmt.state = .step1) ∧
    ∃ (s : State) (x : Target), s.mgmt.state = .programming ∧ s.mgmt.target = some x ∧ x.guarded = true ∧
      (s.clock.ms - s.mgmt.deadline).toNat < 2147483648 :=
  ⟨fun c => ⟨{ live with mgmt := { Mgmt.cold with state := c } }, rfl, (by decide : ((0 : BitVec 32) - 0).toNat < 2147483648), rfl, rfl⟩,
    ⟨{ live with mgmt := { Mgmt.cold with state := .step1, deadline := 1 } }, by decide +kernel, rfl⟩,
    { live with mgmt := { Mgmt.cold with state := .programming, target := some ⟨⟨3, 0⟩, [], true, false⟩ } }, _, rfl, rfl, rfl,
      by decide +kernel⟩

/-- A program of each owner and kind is under way, with the write, copy, queue and head the statements name. -/
theorem witness_programs (o : ProgOwner) (k : ProgKind) (w : JWhat) (c : Bool) :
    ∃ (s : State) (p : Program) (x : JWrite) (q : QRec), s.port.program = some p ∧ p.kind = k ∧ p.owner = o ∧
      s.journal.write = some x ∧ x.what = w ∧ x.ref = p.ref ∧ s.journal.queue = [q] ∧ q.void = c ∧
      s.journal.head = some 16 ∧ s.journal.reclaim = .copying 1 ∧ s.journal.next = 127 ∧
      ∃ t : Target, s.mgmt.target = some t :=
  ⟨{ live with
    port := ⟨some ⟨o, k, ⟨16, 127⟩, []⟩, none, none, false⟩
    journal := { Journal.cold with
      head := some 16, next := 127, reclaim := .copying 1, write := some ⟨w, ⟨16, 127⟩, true⟩, queue := [⟨.release 0, c⟩] }
    mgmt := { Mgmt.cold with target := some ⟨⟨4, 0⟩, [], false, false⟩ } }, _, _, _, rfl, rfl, rfl, rfl, rfl, rfl, rfl, rfl,
    rfl, rfl, rfl, _, rfl⟩

/-- An erase of each half in each phase is in progress, running and in replay, on a ring stalled or not. -/
theorem witness_erases (j : Bool) (g : Nat) (ph : ErasePhase) (st : StartUp) (on : Bool) :
    ∃ (s : State) (e : Erase), s.port.erase = some e ∧ e.phase = ph ∧ e.journal = j ∧ e.seg = g ∧ s.startUp = st ∧
      s.journal.stalled = on ∧ s.journal.opening = none ∧ s.journal.head = some 31 :=
  ⟨{ live with
    port := ⟨none, some ⟨j, g, ph⟩, none, false⟩, startUp := st
    journal := { Journal.cold with stalled := on, head := some 31 } }, _, rfl, rfl, rfl, rfl, rfl, rfl, rfl, rfl⟩

/-- The running part with a port, a management command, a store and a journal. -/
def served (p : Port) (m : Mgmt) (l : Store) (j : Journal) : State := { live with port := p, mgmt := m, store := l, journal := j }

/-- The port is free with nothing for the Journal Engine to do, in every command state and with a slot in every state: of a
segment that is not protected, of one that is, and in the cold load and in replay with a dirty segment. -/
theorem witness_port_free (c : CmdState) (st : SlotState) (up : StartUp) (l : Option LoadCause) :
    ∃ s : State, s.port = ⟨none, none, none, false⟩ ∧ s.journal.write = none ∧ s.journal.opening = none ∧
      s.journal.queue = [] ∧ s.journal.reclaim = .idle ∧ 3 < s.journal.blanks ∧ s.journal.head = none ∧
      s.journal.tail = none ∧ s.mgmt.state = c ∧ s.mgmt.eraseList = [4] ∧ s.slotState ⟨4, 0⟩ = st ∧ s.startUp = up ∧
      s.load = l ∧ s.restart = none ∧ (s.clock.ms - s.mgmt.deadline).toNat < 2147483648 ∧
      s.tables.options.protectedSet.getLsbD 4 = false ∧ s.tables.options.protectedSet.getLsbD 3 = true ∧
      s.inputs.serviceKey = false ∧ s.segDirty 16 = true ∧ s.segDirty 17 = false :=
  ⟨{ served ⟨none, none, none, false⟩ { Mgmt.cold with state := c, eraseList := [4] }
      [(512, ⟨st, []⟩), (2049, ⟨.valid, []⟩)] Journal.cold with startUp := up, load := l }, rfl, rfl, rfl, rfl, rfl,
    Nat.le_of_ble_eq_true rfl, rfl, rfl, rfl, rfl, rfl, rfl, rfl, rfl,
    (by decide : ((0 : BitVec 32) - 0).toNat < 2147483648),
    (by decide +kernel : tables0.options.protectedSet.getLsbD 4 = false),
    (by decide +kernel : tables0.options.protectedSet.getLsbD 3 = true), rfl,
    by simp [State.segDirty, State.segBlank, State.segInUse, State.segHeader, Store.read, Slot.erased, served],
    by simp [State.segDirty, State.segBlank, served]⟩

/-- The record of a full slot 126 leaves the queue behind a ring whose next segment is BLANK; and one of slot 5 with another
record waiting; with nothing reclaimed. -/
theorem witness_QueuedRecordWritten (i : Nat) (q : QRec) (rest : List QRec) :
    ∃ (s : State) (p : Program) (w : JWrite), s.port.program = some p ∧ p.kind = .valid ∧ p.owner = .journal ∧
      s.journal.write = some w ∧ w.what = .queued ∧ w.ref = p.ref ∧ p.ref = ⟨16, i⟩ ∧ s.journal.queue = q :: rest ∧
      s.journal.head = some 16 ∧ s.journal.next = i ∧ s.journal.reclaim = .idle ∧ 3 < s.journal.blanks - 1 ∧ ErasePaused s ∧
      s.journal.opening = none ∧ (∀ g, SegClear s g) ∧ s.slotState ⟨16, i + 1⟩ = .blank :=
  ⟨served ⟨some ⟨.journal, .valid, ⟨16, i⟩, []⟩, none, none, false⟩ Mgmt.cold []
      { Journal.cold with head := some 16, next := i, queue := q :: rest, write := some ⟨.queued, ⟨16, i⟩, true⟩ },
    _, _, rfl, rfl, rfl, rfl, rfl, rfl, rfl, rfl, rfl, rfl, rfl, Nat.le_of_ble_eq_true rfl, nofun, rfl,
    (fun _ _ h => absurd h (by simp [served])), rfl⟩

/-- With a retired-mark program ended the Journal Engine is ready with nothing to present, whatever erase, requests and
management program stand, and with slot 0 of segment 4 in every state. -/
theorem witness_arbiter_requests (e : Option Erase) (je : Option Nat) (l : Bool) (m : Mgmt) (st : SlotState) :
    let s := served ⟨some ⟨.retiring, .retired, ⟨20, 0⟩, []⟩, e, je, l⟩ m [(512, ⟨st, []⟩)] Journal.cold
    ∃ r : State, JournalReady { s with
        port := { s.port with program := none }
        store := s.store.write 2560 { s.store.read 2560 with state := .retired } } r ∧
      ¬JournalPresents r ∧ r.port = ⟨none, e, je, l⟩ ∧ r.mgmt = m ∧ r.slotState ⟨4, 0⟩ = st :=
  ⟨_, pump_ready _, (journalWants_iff _).not.mp (by intro h; cases h), rfl, rfl, rfl⟩

/-- It is ready with the valid mark of a body that has ended, or with the body of a queued record, to present, whatever
erase stands. -/
theorem witness_arbiter_presents (e : Option Erase) :
    (∃ s r : State, s.port.program = some ⟨.retiring, .retired, ⟨20, 0⟩, []⟩ ∧
      JournalReady { s with
        port := { s.port with program := none }
        store := s.store.write 2560 { s.store.read 2560 with state := .retired } } r ∧
      r.port.erase = e ∧ ∃ w, r.journal.write = some w ∧ w.bodyDone = true ∧ r.slotState w.ref = .writing) ∧
    ∃ s r : State, s.port.program = some ⟨.retiring, .retired, ⟨20, 0⟩, []⟩ ∧
      JournalReady { s with
        port := { s.port with program := none }
        store := s.store.write 2560 { s.store.read 2560 with state := .retired } } r ∧
      r.port.erase = e ∧ ∃ w c, WriteDue r w c ∧ r.slotState w.ref = .blank :=
  ⟨⟨served ⟨some ⟨.retiring, .retired, ⟨20, 0⟩, []⟩, e, none, false⟩ Mgmt.cold [(2049, ⟨.writing, []⟩)]
      { Journal.cold with head := some 16, write := some ⟨.queued, ⟨16, 1⟩, true⟩ }, _, rfl, pump_ready _, rfl, _, rfl, rfl,
      rfl⟩,
    served ⟨some ⟨.retiring, .retired, ⟨20, 0⟩, []⟩, e, none, false⟩ Mgmt.cold []
      { Journal.cold with head := some 16, queue := [⟨.release 0, false⟩] }, _, rfl, pump_ready _, rfl,
      ⟨.queued, ⟨16, 1⟩, false⟩, (JRec.release 0).bytes, (nextWrite_iff _ _ _).mp ⟨rfl, rfl⟩, rfl⟩

/-- In replay the erase of segment 16 ends with segment 17 still dirty, its slot 0 in every state, and with none dirty. -/
theorem witness_replay_erases (st : SlotState) (h : st ≠ .blank) :
    ∃ (s : State) (e : Erase), s.port.erase = some e ∧ e.phase = .active ∧ e.journal = true ∧ e.seg = 16 ∧
      s.startUp = .replay ∧ s.port.program = none ∧ s.mgmt.state ≠ .programming ∧ s.port.listErase = false ∧
      s.journal.head = none ∧ s.journal.tail = none ∧ s.journal.queue = [] ∧ s.journal.opening = none ∧
      s.journal.write = none ∧ s.slotState ⟨17, 0⟩ = st ∧ s.segBlank 17 = false := by
  refine ⟨{ served ⟨none, some ⟨true, 16, .active⟩, none, false⟩ Mgmt.cold [(2176, ⟨st, []⟩)] Journal.cold with
    startUp := .replay }, _, rfl, rfl, rfl, rfl, rfl, rfl, nofun, rfl, rfl, rfl, rfl, rfl, rfl, rfl, ?_⟩
  simp [State.segBlank, served, h]

/-- A copy of a BIND is under way while another record of its unit is handed over. -/
theorem witness_JournalQueueTakesRecord : ∃ (s : State) (w : JWrite) (o : Ref), s.journal.write = some w ∧
    w.what = .copy 0 true o false ∧ s.journal.queue = [⟨.bind 0 150 1 0, false⟩] :=
  ⟨{ live with journal := { Journal.cold with
    write := some ⟨.copy 0 true ⟨17, 1⟩ false, ⟨16, 5⟩, false⟩, queue := [⟨.bind 0 150 1 0, false⟩] } }, _, _, rfl, rfl, rfl⟩

/-- Nodes in every phase and mode, with a register, stand at a position. -/
theorem witness_NodesFollowTheirPhases (ph : Phase) (m : NodeMode) (kind : BitVec 2) (l : List Bool) :
    ∃ (s : State) (n : Node), (s.chain 0)[(0 : Position).1]? = some n ∧ n.phase = ph ∧ n.mode = m ∧ n.kind = kind ∧
      n.reg = l ∧ n.stage = [true, false] ∧ s.rstHeld 0 = false ∧ n.pulse = some (.throw, 15) ∧
      n.pulseFrom = some 0 := by
  let n : Node := { Node.fitted kind 0 0 true false false false with
    phase := ph, mode := m, reg := l, stage := [true, false], pulse := some (.throw, 15), pulseFrom := some 0 }
  refine ⟨live.setChain 0 [n], n, ?_, rfl, rfl, rfl, rfl, rfl, rfl, rfl, rfl⟩
  simp

/-- Positions without a node: just past the last node, and beyond it. -/
theorem witness_positionsWithoutNodes : ∃ s : State, (∃ p : Position, p.1 = (s.chain 0).length) ∧
    (∃ p : Position, (s.chain 0).length < p.1) ∧ s.rstHeld 0 = false :=
  ⟨live.setChain 0 [Node.fitted 1 0 0 true false false false], ⟨1, by simp⟩, ⟨2, by simp⟩, by decide +kernel⟩

theorem witness_BanksActAtDueTimes (st : BankState) (a : Activity) :
    ∃ s : State, (s.bank 0).state = st ∧ (s.bank 0).activity = a ∧ s.restart = none ∧
      (s.clock.ms - (s.bank 0).cycleDue).toNat < 2147483648 ∧
      (s.clock.ms - ((s.bank 0).resetAt + 10)).toNat < 2147483648 ∧
      (s.clock.ms - (s.bank 0).retryAt).toNat < 2147483648 := by
  refine ⟨{ live with clock := ⟨10, 0, 10⟩, banks := put live.banks 0 { Bank.cold with state := st, activity := a } }, ?_⟩
  simp [State.bank, Bank.cold, live, State.reset]

/-- A node at the start of a data pass in a mode, its cell captured. -/
def ready (kind : BitVec 2) (m : NodeMode) : Node :=
  let n : Node := { Node.fitted kind 0 0 true false false false with mode := m, phase := .cellTake }
  { n with reg := n.captured }

/-- The chain of bank 0 holds a locker's node and a cabin's, the passes as the statements ask. -/
def passing (a : Activity) (st : BankState) (m m' : NodeMode) : State :=
  (live.setChain 0 [ready 1 m, ready 2 m']).modBank 0 fun k => { k with state := st, activity := a }

theorem witness_EnumerationFindsNodes :
    let s := passing .enumerating .enumerating .ident .ident
    (s.bank 0).state = .enumerating ∧ (s.bank 0).activity = .enumerating ∧ (s.chain 0).length ≤ 64 ∧
      (∀ x ∈ s.chain 0, x.mode = .ident ∧ x.phase = .cellTake ∧ x.reg = x.captured) ∧
      (s.chain 0).length = (s.bankRec 0).nodeCount := by
  decide +kernel

/-- Either mode pass of a RUNNING bank with any failure count, in and outside a restart. -/
theorem witness_ModePassSetsModes (r : Option RestartStep) (status : Bool) (n : Nat) :
    ∃ s : State, s.restart = r ∧ (s.bank 0).state = .running ∧ (s.bank 0).failures = n ∧
      (s.bank 0).activity = (if status then .statusMode [.status, .pass] else .fetchMode [.status, .pass]) ∧
      (s.chain 0).length = 2 ∧ ∀ x ∈ s.chain 0, x.phase = .modeLoad ∧ x.stage = [true, false] := by
  refine ⟨{ (live.setChain 0 (enterMode [ready 1 .ident |>.inReset, ready 2 .ident |>.inReset])).modBank 0 fun k =>
    { k with
      state := .running, failures := n
      activity := if status then .statusMode [.status, .pass] else .fetchMode [.status, .pass] } with restart := r },
    rfl, ?_, ?_, ?_, ?_, ?_⟩
  · simp [State.bank, State.modBank, State.setBank]
  · simp [State.bank, State.modBank, State.setBank]
  · simp [State.bank, State.modBank, State.setBank]
  · exact rfl
  · show ∀ x ∈ enterMode [(ready 1 .ident).inReset, (ready 2 .ident).inReset], _
    decide

/-- Inside and outside a restart, with the Journal Queue in every state, a cycle owed or none, and a tap remembered of any
time. -/
theorem witness_StatusDataPassDelivers (w : Option RestartStep) (j : Journal) (due : Option Millis) (at' : Millis) :
    let l := [commandBits 1 4 1 false, [false]]
    let s : State := {
      (passing (.statusData [.status, .pass] l.reverse.flatten 0 [(0, 4)]) .running .status .pass).modBank 0
        (fun k => { k with owed := due }) with
      restart := w, journal := j, tapMemory := put live.tapMemory 0 ⟨some 150, some at', some 3⟩ }
    (s.bank 0).activity = .statusData [.status, .pass] l.reverse.flatten 0 [(0, 4)] ∧ (s.bank 0).owed = due ∧
      s.tapMemory.get 0 = ⟨some 150, some at', some 3⟩ ∧
      s.restart = w ∧ (s.bank 0).state = .running ∧ (s.chain 0).length = 2 ∧ s.startUp = .running ∧ s.journal = j ∧
      (∀ x ∈ (s.chain 0).zip [NodeMode.status, .pass], x.1.mode = x.2 ∧ x.1.phase = .cellTake ∧ x.1.reg = x.1.captured) ∧
      (∀ x ∈ l.zip [NodeMode.status, .pass], x.1.length = x.2.cellLength) ∧ MovementsOk s := by
  refine ⟨rfl, rfl, rfl, rfl, rfl, rfl, rfl, rfl, ?_, by decide +kernel, movements_live⟩
  show ∀ x ∈ [(ready 1 .status, NodeMode.status), (ready 2 .pass, NodeMode.pass)], _
  decide

theorem witness_FetchPassGathersTaps :
    let s := passing (.fetchData [.tap, .pass]) .running .tap .pass
    (s.bank 0).activity = .fetchData [.tap, .pass] ∧ (s.bank 0).state = .running ∧ (s.chain 0).length = 2 ∧
      ∀ x ∈ (s.chain 0).zip [NodeMode.tap, .pass], x.1.mode = x.2 ∧ x.1.phase = .cellTake ∧ x.1.reg = x.1.captured := by
  decide +kernel

/-- With a cycle owed or none, inside and outside a restart: a reservation request, a place event that the reservations cover exactly and one they do not. -/
theorem witness_TapQueueTakesEvents (w : Option RestartStep) (due : Option Millis) :
    (∃ s : State, (s.bank 0).activity = .reserving [0] ∧ (s.bank 0).place = none ∧ (s.bank 0).release = 0 ∧
      (s.bank 0).owed = due ∧ s.restart = w) ∧
    ∀ (n : Nat) (a : Activity), ∃ (s : State) (m : PlaceMsg), (s.bank 0).place = some m ∧ (s.bank 0).activity = a ∧
      (s.bank 0).owed = due ∧ s.restart = w ∧ m.records.length + m.dropped = 1 ∧ s.taps.reserved.get 0 = n := by
  refine ⟨⟨{ live.modBank 0 fun k => { k with activity := .reserving [0], owed := due } with restart := w }, ?_⟩, fun n a =>
    ⟨{ live.modBank 0 fun k => { k with activity := a, owed := due, place := some ⟨[⟨0, 150, 0⟩], 0, [(0, 1)]⟩ } with
      restart := w, taps := ⟨[], put live.taps.reserved 0 n⟩ }, ⟨[⟨0, 150, 0⟩], 0, [(0, 1)]⟩, ?_⟩⟩
  · simp [State.bank, State.modBank, State.setBank, live, State.reset, Bank.cold]
  · simp [State.bank, State.modBank, State.setBank, live, State.reset, Bank.cold]

/-- A pulse, and a detached pulse, each at the millisecond of its end, and a movement that then waits at the head. -/
theorem witness_PulseEnds :
    (∃ (s : State) (x : Actuation), MovementsOk s ∧ s.restart = none ∧ RailOk s ∧ s.drive.waiting = [x] ∧
      CanMove s x.unit x.op) ∧
    (∃ s : State, s.drive.granted = [] ++ pulsed 0 .throw :: [] ∧ (s.clock.ms - 100).toNat < 2147483648) ∧
    ∃ (s : State) (d : Detached), s.drive.granted = [] ∧ s.drive.detached = [] ++ d :: [] ∧
      (s.clock.ms - d.pulseEnd).toNat < 2147483648 :=
  ⟨⟨{ live with drive := ⟨[Actuation.fresh 0 .throw .normal], [], [], []⟩ }, _, movements_queued, rfl,
      Nat.le_of_ble_eq_true rfl, rfl, rfl, fun h => nomatch h.1⟩,
    ⟨{ live with clock := ⟨100, 0, 100⟩, drive := ⟨[], [pulsed 0 .throw], [], []⟩ }, rfl, by decide +kernel⟩,
    { live with clock := ⟨100, 0, 100⟩, drive := ⟨[], [], [], [⟨0, 500, 100⟩]⟩ }, ⟨0, 500, 100⟩, rfl, rfl, by decide +kernel⟩

/-- A tap that waits: while a table reload runs, while a queue lacks a place, while the ring is stalled, in each step of
a restart, behind an action that has waited behind a tap, and behind an evacuation change after a restart. -/
theorem witness_taps_wait (k : RestartStep) :
    (∃ s : State, s.engine.runningSlot = some ⟨.reloadTables, [], 0⟩) ∧ (∃ s : State, s.restart = some k) ∧
    (∃ s : State, s.journal.queue.length + 2 = 17) ∧ (∃ s : State, s.drive.used + 2 = 65) ∧
    (∃ s : State, s.engine.ringStalled = true ∧ s.taps.records = [⟨0, 150, 0⟩] ∧ s.kind 0 = .locker) ∧
    (∃ s : State, s.engine.tapAhead = true ∧ Acceptable s .reloadTables) ∧ ∃ s : State, EventsAhead s :=
  ⟨⟨{ live with engine := { Engine.cold with runningSlot := some ⟨.reloadTables, [], 0⟩ } }, rfl⟩,
    ⟨{ live with restart := some k }, rfl⟩,
    ⟨{ live with journal := { Journal.cold with queue := List.replicate 15 ⟨.release 0, false⟩ } }, rfl⟩,
    ⟨{ live with drive := ⟨[], [], List.replicate 63 (Actuation.fresh 0 .throw .normal), []⟩ }, rfl⟩,
    ⟨{ tapAt 0 (at' .free) shut 150 with engine := { Engine.cold with ringStalled := true } }, rfl, rfl, rfl⟩,
    ⟨{ live with engine := { Engine.cold with tapAhead := true, pendingSlot := some .reloadTables } }, rfl, ⟨rfl, rfl⟩, rfl,
      rfl, (fun h => nomatch h.1), fun h => nomatch h⟩,
    { live with engine := { Engine.cold with resuming := true }, inputs := ⟨true, false, false, [true]⟩ }, rfl, .inl nofun⟩

/-- A tap of any band waits at a unit with any record and cell, which gives every clause its state; a bank in cleaning,
and LEVEL-mode evacuation, besides. -/
theorem witness_TapsRefused (u : UnitIx) (r : UnitRec) (c : Cell) (b : Band) :
    (∃ s : State, TapReady s u b [] ∧ s.unit u = r ∧ s.cell u = c) ∧
    (∃ s : State, TapReady s u b [] ∧ s.unit u = r ∧ s.engine.cleaning.get (bankOf u) = true) ∧
    ∃ s : State, TapReady s u b [] ∧ s.unit u = r ∧ s.levelEvac = true := by
  have h := ready_tapAt u r c b
  refine ⟨⟨tapAt u r c b, h, unit_self u r c, by simp [tapAt, one, State.cell]⟩,
    ⟨{ tapAt u r c b with engine := { Engine.cold with cleaning := Vector.replicate 8 true } }, h, unit_self u r c, ?_⟩,
    { tapAt u r c b with inputs := ⟨true, false, true, []⟩ }, h, unit_self u r c, rfl⟩
  simp [Vector.get_eq_getElem]

/-- A tap that can be taken, though not the action it goes ahead of, which can be accepted once the tap is decided. -/
theorem witness_tap_examined : TapReady closingTap 0 150 [⟨0, 150, 0⟩] ∧
    (∀ a, ¬Acceptable closingTap a) ∧
    ∃ t, exec .takeTap closingTap = .next t ∧ Acceptable t (.setOutOfService 2) := by
  refine ⟨⟨⟨0, rfl⟩, ⟨rfl, rfl⟩, Nat.le_of_ble_eq_true rfl, Nat.le_of_ble_eq_true rfl, (fun h => nomatch h.1),
    (fun h => nomatch h.1), (fun _ h => nomatch h), (fun h => nomatch h)⟩, ?_, takeTap closingTap, rfl, ?_⟩
  · rintro a ⟨-, ha, -, -, h⟩
    obtain rfl : Action.setOutOfService 2 = a := Option.some.inj ha
    have k := (h (by decide +kernel)).2 (.idle 0 0) (by decide +kernel)
    exact absurd k (by decide +kernel)
  · unfold Acceptable Taking LetThrough JournalRoom
    have hr : (takeTap closingTap).engine.resuming = false := by decide +kernel
    exact ⟨by decide +kernel, by decide +kernel, by decide +kernel, fun h => absurd (hr ▸ h.1) Bool.false_ne_true,
      fun _ => by decide +kernel⟩

/-- Band 150 at a FREE locker with its door shut, and at a FREE cabin. -/
theorem witness_TapsBind (u : UnitIx) (h : u = 0 ∨ u = 1) :
    let s := tapAt u (at' .free) shut 150
    TapReady s u 150 [] ∧ HoldingsOk s ∧ identify s 150 = .cls 1 ∧ s.inHand u = false ∧ (s.unit u).suspended = false ∧
      (s.unit u).state = .free ∧ (s.unit u).holder = none ∧ s.engine.cleaning.get (bankOf u) = false ∧
      (s.tables.classes.get 1).zones.getLsbD (s.zone u).1 = true ∧ (s.cell u).door = true ∧
      ((heldBy s.bands 150).filter fun v => s.kind v = .locker).length < (s.tables.classes.get 1).lockerQuota ∧
      ((heldBy s.bands 150).filter fun v => s.kind v = .cabin).length < (s.tables.classes.get 1).cabinQuota := by
  refine ⟨ready_tapAt _ _ _ _, holdings_tapAt _ _ _ _ rfl, rfl, still_one u (at' .free) shut rfl, ?_⟩
  rcases h with rfl | rfl <;> decide +kernel

/-- A tap by the holder, and by the master, at a locker and a cabin in each state. -/
theorem witness_TapsByHolderAndMaster (u : UnitIx) (st : UState) (c : Cell) :
    (let s := heldAt u (at' st) c 150
     TapReady s u 150 [] ∧ HoldingsOk s ∧ identify s 150 = .cls 1 ∧ s.inHand u = false ∧ (s.unit u).suspended = false ∧
      (s.unit u).holder = some 150 ∧ (s.unit u).state = st ∧ s.cell u = c ∧ s.levelEvac = false) ∧
    (let s := heldAt u (at' st) c 7
     TapReady s u 7 [] ∧ HoldingsOk s ∧ identify s 7 = .master ∧ s.inHand u = false ∧ (s.unit u).suspended = false ∧
      (s.unit u).state = st ∧ (s.unit u).holder ≠ none ∧ s.levelEvac = false) ∧
    (let s := tapAt u (at' st) c 7
     TapReady s u 7 [] ∧ HoldingsOk s ∧ identify s 7 = .master ∧ s.inHand u = false ∧ (s.unit u).suspended = false ∧
      (s.unit u).state = st ∧ (s.unit u).holder = none ∧ s.levelEvac = false) := by
  have hu : (one u { at' st with holder := some 150 } c).unit u = { at' st with holder := some 150 } := unit_self u _ c
  have hv : (one u (at' st) c).unit u = at' st := unit_self u _ c
  have hc : (one u { at' st with holder := some 150 } c).cell u = c := by simp [one, State.cell]
  have e : ∀ b, (heldAt u (at' st) c b).unit u = { at' st with holder := some 150 } := fun _ => hu
  have e' : ∀ b, (tapAt u (at' st) c b).unit u = at' st := fun _ => hv
  refine ⟨⟨ready_heldAt _ _ _ _, holdings_heldAt _ _ _ _, rfl, still_one u _ c rfl, ?_, ?_, ?_, hc, rfl⟩,
    ⟨ready_heldAt _ _ _ _, holdings_heldAt _ _ _ _, rfl, still_one u _ c rfl, ?_, ?_, ?_, rfl⟩,
    ⟨ready_tapAt _ _ _ _, holdings_tapAt _ _ _ _ rfl, rfl, still_one u _ c rfl, ?_, ?_, ?_, rfl⟩⟩ <;>
    first | exact congrArg _ (e _) | exact congrArg _ (e' _) | (rw [e]; exact nofun)

/-- A unit held by band 150, with one event waiting at the engine. -/
def toldAt (u : UnitIx) (r : UnitRec) (c : Cell) (e : EngEvent) : State := (heldAt u r c 150).setInbox [e]

theorem unit_toldAt (u : UnitIx) (r : UnitRec) (c : Cell) (e : EngEvent) :
    (toldAt u r c e).unit u = { r with holder := some 150 } := unit_self u { r with holder := some 150 } c

theorem holdings_toldAt (u : UnitIx) (r : UnitRec) (c : Cell) (e : EngEvent) : HoldingsOk (toldAt u r c e) :=
  holdings_heldAt u r c 150

/-- A verify result of a unit in any state and with any purpose; one held back for want of room; one held back behind an
AJAR_IDLE with room; and one of a cabin with a follow-up entry. -/
theorem witness_VerifyResultsTaken (u : UnitIx) (r : UnitRec) (op : BoltOp) (c : Cell) (f : Follow) :
    (∃ s : State, Taking s ∧ LetThrough s (.report u) ∧ HoldingsOk s ∧
      s.engine.inbox = [] ++ .verified u op c :: [] ∧ (∀ e ∈ s.engine.follow, e.1 ≠ u) ∧
      s.unit u = { r with holder := some 150 }) ∧
    (∃ s : State, Taking s ∧ ¬JournalRoom s ∧ s.kind 0 = .locker ∧ EngEvent.verified 0 op c ∈ s.engine.inbox) ∧
    (∃ s : State, Taking s ∧ JournalRoom s ∧ s.kind 0 = .locker ∧ ¬LetThrough s (.report 0) ∧
      EngEvent.verified 0 op c ∈ s.engine.inbox) ∧
    ∃ s : State, Taking s ∧ MovementsOk s ∧ s.kind 1 = .cabin ∧ (s.bank (bankOf 1)).state = .running ∧
      s.engine.inbox = [] ++ .verified 1 op c :: [] ∧ s.engine.follow.find? (fun e => e.1 = 1) = some (1, f) ∧
      s.levelEvac = false := by
  refine ⟨⟨toldAt u r c (.verified u op c), ⟨rfl, rfl⟩, through _ _ rfl rfl, holdings_toldAt _ _ _ _, rfl, nofun,
      unit_toldAt _ _ _ _⟩,
    ⟨{ live.setInbox [.verified 0 op c] with
      journal := { Journal.cold with queue := List.replicate 15 ⟨.release 0, false⟩ } }, ⟨rfl, rfl⟩,
      by unfold JournalRoom; simp, rfl, by simp [State.setInbox]⟩,
    ⟨{ live with
      timers := [⟨0, 0, .ajarIdle⟩]
      engine := { Engine.cold with inbox := [.verified 0 op c], held := [.idle 0 0, .report 0] } },
      ⟨rfl, rfl⟩, Nat.le_of_ble_eq_true rfl, rfl,
      (fun h => Bool.noConfusion (h.2 (.idle 0 0) (by simp) : true = false)), by simp⟩,
    { (one 1 (at' .closing) c).setInbox [.verified 1 op c] with
      engine := { Engine.cold with inbox := [.verified 1 op c], follow := [(1, f)] } }, ⟨rfl, rfl⟩,
      movements_told 1 (at' .closing) c (.verified 1 op c) rfl (fun v => ?_), rfl, rfl, rfl, by simp, rfl⟩
  simp only [EngEvent.movements]; split <;> omega

/-- Each report, of a unit with any record and cell. -/
theorem witness_EngineReportsTaken (u : UnitIx) (r : UnitRec) (c : Cell) (e : EngEvent) :
    ∃ s : State, Taking s ∧ LetThrough s (.report u) ∧ s.engine.inbox = [] ++ e :: [] ∧ s.unit u = r ∧ s.cell u = c :=
  ⟨(one u r c).setInbox [e], ⟨rfl, rfl⟩, through _ _ rfl rfl, rfl, unit_self u r c,
    by simp [State.setInbox, one, State.cell]⟩

/-- An observation of a held unit in any state, with nothing else in hand. -/
theorem witness_ObservationsTaken (u : UnitIx) (r : UnitRec) (prev new : Cell) (hr : r.deferred = none) :
    ∃ s : State, Taking s ∧ HoldingsOk s ∧ s.engine.inbox = [] ++ .observed u prev new :: [] ∧ s.cell u = new ∧
      s.unit u = { r with holder := some 150 } ∧ (s.took [] s.engine.runningSlot).inHand u = false :=
  ⟨toldAt u r new (.observed u prev new), ⟨rfl, rfl⟩, holdings_toldAt _ _ _ _, rfl,
    by simp [toldAt, heldAt, tapAt, State.setInbox, one, State.cell], unit_toldAt _ _ _ _,
    still_one u { r with holder := some 150 } new hr⟩

/-- A request for one unit in any state but UNLOCKING; one that stays for want of room; and one for an UNLOCKING locker
whose holding it ends. -/
theorem witness_ReconcileComparesUnits (u : UnitIx) (r : UnitRec) (c : Cell) (hu : bankOf u = 0) (hr : r.deferred = none)
    (hs : r.state ≠ .unlocking) :
    (∃ s : State, Taking s ∧ s.engine.inbox = [] ++ .reconcile 0 [(u, c)] :: [] ∧ s.removalWaits 0 = false ∧
      ([(u, c)].map (·.1)).Nodup ∧ (∀ uc ∈ [(u, c)], bankOf uc.1 = 0) ∧ (s.bank 0).state = .running ∧ MovementsOk s ∧
      (∀ uc ∈ [(u, c)], s.reconcileHands uc.1 uc.2 = false) ∧ s.unit u = r ∧ s.inHand u = false) ∧
    (∃ s : State, Taking s ∧ s.engine.inbox = [] ++ .reconcile 0 [(0, shut)] :: [] ∧ s.removalWaits 0 = false ∧
      s.reconcileHands 0 shut = true ∧ ¬JournalRoom s) ∧
    ∃ s : State, Taking s ∧ s.engine.inbox = [] ++ .reconcile 0 [(0, shut)] :: [] ∧ s.removalWaits 0 = false ∧
      JournalRoom s ∧ HoldingsOk s ∧ s.inHand 0 = false ∧ (s.unit 0).state = .unlocking ∧
      (s.unit 0).purpose = some (.release .holder) := by
  have e : ((one u r c).setInbox [.reconcile 0 [(u, c)]]).unit u = r := unit_self u r c
  refine ⟨⟨(one u r c).setInbox [.reconcile 0 [(u, c)]], ⟨rfl, rfl⟩, rfl, rfl, by simp, by simp [hu], rfl,
      movements_told u r c _ hr (fun v => by simp [EngEvent.movements]), ?_, e, ?_⟩,
    ⟨{ (one 0 { at' .unlocking with purpose := some (.release .holder) } shut).setInbox [.reconcile 0 [(0, shut)]] with
      journal := { Journal.cold with queue := List.replicate 15 ⟨.release 0, false⟩ } }, ⟨rfl, rfl⟩, rfl, rfl,
      by decide +kernel, by unfold JournalRoom; decide +kernel⟩,
    toldAt 0 { at' .unlocking with purpose := some (.release .holder) } shut (.reconcile 0 [(0, shut)]), ⟨rfl, rfl⟩, rfl,
      rfl, Nat.le_of_ble_eq_true rfl, holdings_toldAt _ _ _ _, by decide +kernel, by decide +kernel, by decide +kernel⟩
  · simp [State.reconcileHands, e, hs]
  · rw [State.inHand, e]
    simp [hr, State.actuating, State.reported, EngEvent.reports, State.setInbox, one, live, State.reset]

/-- A due entry of each kind, in the second of its due time, of a unit with any record; one not due yet; one held back for
want of room; and one behind an evacuation change after a restart. -/
theorem witness_TimerEventsTaken (u : UnitIx) (r : UnitRec) (c : Cell) (k : TimerKind) :
    (∃ s : State, Taking s ∧ HoldingsOk s ∧ ¬(s.engine.resuming = true ∧ s.inputs.changes ≠ []) ∧
      s.timers = [] ++ ⟨30, u, k⟩ :: [] ∧ 30 ≤ s.clock.sec ∧ LetThrough s (.idle u 30) ∧
      s.unit u = { r with holder := some 150 }) ∧
    (∃ s : State, s.timers = ⟨31, u, k⟩ :: [] ∧ ∀ x ∈ s.timers, s.clock.sec < x.due) ∧
    (∃ s : State, Taking s ∧ s.timers = [⟨30, u, .ajarIdle⟩] ∧ 30 ≤ s.clock.sec ∧ ¬LetThrough s (.idle u 30)) ∧
    ∃ s : State, s.engine.resuming = true ∧ s.inputs.changes ≠ [] :=
  ⟨⟨{ heldAt u r c 150 with clock := ⟨0, 30, 0⟩, timers := [⟨30, u, k⟩] }, ⟨rfl, rfl⟩, holdings_heldAt u r c 150,
      (fun h => nomatch h.1), rfl, Nat.le_refl _, through _ _ rfl rfl, unit_self u _ c⟩,
    ⟨{ heldAt u r c 150 with clock := ⟨0, 30, 0⟩, timers := [⟨31, u, k⟩] }, rfl, by simp⟩,
    ⟨{ live with
      clock := ⟨0, 30, 0⟩, timers := [⟨30, u, .ajarIdle⟩]
      journal := { Journal.cold with queue := List.replicate 15 ⟨.release 0, false⟩ } }, ⟨rfl, rfl⟩, rfl, Nat.le_refl _,
      fun h => absurd h.1 (by unfold JournalRoom; simp)⟩,
    { live with engine := { Engine.cold with resuming := true }, inputs := ⟨true, false, false, [true]⟩ }, rfl, nofun⟩

/-- Every action waits acceptable, its unit with any record and no holder, or held. -/
theorem witness_actions (a : Action) (u : UnitIx) (r : UnitRec) (c : Cell) :
    (∃ s : State, Acceptable s a ∧ s.unit u = r ∧ s.cell u = c ∧ (r.holder = none → HoldingsOk s)) ∧
    ∃ s : State, Acceptable s a ∧ s.unit u = { r with holder := some 150 } ∧ HoldingsOk s :=
  ⟨⟨posted (one u r c) a, ⟨⟨rfl, rfl⟩, rfl, rfl, (fun h => nomatch h.1), fun _ => through _ _ rfl rfl⟩, unit_self u r c,
      by simp [posted, one, State.cell], fun h => holdings_tapAt u r c 150 h⟩,
    posted (heldAt u r c 150) a, ⟨⟨rfl, rfl⟩, rfl, rfl, (fun h => nomatch h.1), fun _ => through _ _ rfl rfl⟩,
      unit_self u _ c, holdings_heldAt u r c 150⟩

/-- An acceptance that would hand a record over, held back for want of room. -/
theorem witness_acceptance_held : ∃ s : State, Taking s ∧ s.engine.pendingSlot = some (.setOutOfService 0) ∧
    s.engine.runningSlot = none ∧ ¬EventsAhead s ∧ (Action.setOutOfService 0).firstHands s = true ∧
    ¬LetThrough s .accept :=
  ⟨{ posted live (.setOutOfService 0) with
    journal := { Journal.cold with queue := List.replicate 15 ⟨.release 0, false⟩ } }, ⟨rfl, rfl⟩, rfl, rfl,
    (fun h => nomatch h.1), by decide +kernel, fun h => absurd h.1 (by unfold JournalRoom; simp)⟩

/-- Every action names units that pass its check, and units that do not. -/
theorem witness_ActionsEndAtAcceptance (s : State) (h : s.tables = tables0) :
    (Action.setOutOfService 0).passes s = true ∧ (Action.returnToService 1).passes s = true ∧
      (Action.extendCabin 1 30).passes s = true ∧ (Action.extendCabin 0 1).passes s = false ∧
      (Action.clearFault 511).passes s = false := by
  simp only [Action.passes, State.kind, h]
  decide +kernel

/-- Every action runs with its units at any stage; and a HELD locker of band 150 is still. -/
theorem witness_ReleasesAndOpenings (a : Action) (items : List Item) (n : Nat) :
    (∃ s : State, Taking s ∧ s.engine.runningSlot = some ⟨a, items, n⟩ ∧ s.kind 0 = .locker ∧ s.kind 1 = .cabin ∧
      s.inHand 1 = false) ∧
    ∃ s : State, Taking s ∧ s.engine.runningSlot = some ⟨a, items, n⟩ ∧ HoldingsOk s ∧ s.kind 0 = .locker ∧
      s.inHand 0 = false ∧ s.unit 0 = { at' .held with holder := some 150 } :=
  ⟨⟨{ one 1 (at' .free) shut with engine := { Engine.cold with runningSlot := some ⟨a, items, n⟩ } }, ⟨rfl, rfl⟩,
      rfl, rfl, rfl, still_one 1 (at' .free) shut rfl⟩,
    { heldAt 0 (at' .held) thrown 150 with engine := { Engine.cold with runningSlot := some ⟨a, items, n⟩ } }, ⟨rfl, rfl⟩,
      rfl, holdings_heldAt 0 (at' .held) thrown 150, rfl,
      still_one 0 { at' .held with holder := some 150 } thrown rfl, unit_self 0 _ thrown⟩

/-- The bank RESET_BANK names in any state; its report; a cabin whose step is due, in any state. -/
theorem witness_ReloadResetAndClear (st : BankState) (r : UnitRec) :
    (∃ s : State, Acceptable s (.resetBank 0) ∧ (s.bank 0).state = st) ∧
    (∃ s : State, Taking s ∧ s.engine.runningSlot = some ⟨.resetBank 0, [], 0⟩ ∧
      s.engine.inbox = [] ++ .resetDone 0 st none 0 :: []) ∧
    (∃ s : State, Acceptable s .clearEvacuation ∧ s.tables.options.evacMode = .edge ∧ s.kind 1 = .cabin ∧ s.unit 1 = r) ∧
    ∃ s : State, Taking s ∧ s.engine.runningSlot = some ⟨.clearEvacuation, [] ++ ⟨1, .due⟩ :: [], 0⟩ ∧ s.kind 1 = .cabin ∧
      s.unit 1 = r := by
  refine ⟨⟨posted (live.modBank 0 fun k => { k with state := st }) (.resetBank 0), ⟨⟨rfl, rfl⟩, rfl, rfl, (fun h => nomatch h.1), nofun⟩, ?_⟩,
    ⟨{ live with engine := { Engine.cold with
        runningSlot := some ⟨.resetBank 0, [], 0⟩, inbox := [.resetDone 0 st none 0] } }, ⟨rfl, rfl⟩, rfl, rfl⟩,
    ⟨posted { one 1 r shut with tables := { tables0 with options := { Options.default with evacMode := .edge } } }
        .clearEvacuation, ⟨⟨rfl, rfl⟩, rfl, rfl, (fun h => nomatch h.1), nofun⟩, rfl, rfl, unit_self 1 r shut⟩,
    { one 1 r shut with engine := { Engine.cold with runningSlot := some ⟨.clearEvacuation, [⟨1, .due⟩], 0⟩ } },
      ⟨rfl, rfl⟩, rfl, rfl, unit_self 1 r shut⟩
  simp [posted, State.bank, State.modBank, State.setBank]

end Sys2Proof.Tests
end

/-! ## Bounds and frame: what every command leaves, and the bounds it keeps

`Keeps n s t` says once what an operation may do to the queues and lists of fixed size; one lemma for each operation
follows, in the order of the model's definitions, and `exec_safe` collects them. -/

section
namespace Sys2Proof.Machine

/-! ### The relation -/

/-- From s to t no time passes and no free value is used, the waiting commands and the working set stay, and the
Notice Queue, the Tap Queue and the block overlay keep their bounds. -/
structure Bounded (s t : State) : Prop where
  pending : t.pending = s.pending
  clock : t.clock = s.clock
  freeNext : t.freeNext = s.freeNext
  supply : t.supply = s.supply
  tables : t.tables = s.tables
  notices : NoticesOk s → NoticesOk t
  taps : TapsOk s → TapsOk t
  overlay : OverlayOk s → OverlayOk t

/-- The same, with at most n records handed to the Journal Queue. -/
structure Keeps (n : Nat) (s t : State) : Prop extends Bounded s t where
  queue : t.journal.queue.length ≤ s.journal.queue.length + n

/-- The same of a whole command: the Journal Queue keeps its bound. -/
structure Safe (s t : State) : Prop extends Bounded s t where
  queue : JournalQueueOk s → JournalQueueOk t

variable {s m t : State} {n : Nat} {u : UnitIx} {b : BankIx}

/-- An operation on the Tap Queue and on fields that have no bound here. -/
theorem Keeps.sameBut
    (h : (t.pending, t.clock, t.freeNext, t.supply, t.tables, t.notices, t.engine.overlay, t.journal.queue) =
      (s.pending, s.clock, s.freeNext, s.supply, s.tables, s.notices, s.engine.overlay, s.journal.queue))
    (k : TapsOk s → TapsOk t) : Keeps 0 s t := by
  simp only [Prod.mk.injEq] at h
  obtain ⟨hp, hc, hf, hs, ht, hn, ho, hj⟩ := h
  exact ⟨⟨hp, hc, hf, hs, ht, by simp [NoticesOk, hn], k, by simp [OverlayOk, ho]⟩, by simp [hj]⟩

/-- An operation on fields that have no bound here. -/
theorem Keeps.same
    (h : (t.pending, t.clock, t.freeNext, t.supply, t.tables, t.notices, t.taps, t.engine.overlay, t.journal.queue) =
      (s.pending, s.clock, s.freeNext, s.supply, s.tables, s.notices, s.taps, s.engine.overlay, s.journal.queue)) :
    Keeps 0 s t := by
  simp only [Prod.mk.injEq] at h
  obtain ⟨hp, hc, hf, hs, ht, hn, hq, ho, hj⟩ := h
  exact .sameBut (by simp [*]) (by simp [TapsOk, hq])

theorem Keeps.refl (s : State) : Keeps 0 s s := .same rfl

theorem Bounded.trans (h : Bounded s m) (k : Bounded m t) : Bounded s t where
  pending := k.pending.trans h.pending
  clock := k.clock.trans h.clock
  freeNext := k.freeNext.trans h.freeNext
  supply := k.supply.trans h.supply
  tables := k.tables.trans h.tables
  notices := k.notices ∘ h.notices
  taps := k.taps ∘ h.taps
  overlay := k.overlay ∘ h.overlay

/-- An operation that hands no record, made on what others have left. -/
theorem Keeps.of (k : Keeps 0 m t) (h : Keeps n s m) : Keeps n s t :=
  ⟨h.toBounded.trans k.toBounded, k.queue.trans h.queue⟩

theorem Keeps.after (h : Keeps n s m) (k : Keeps 0 m t) : Keeps n s t := k.of h

/-- An operation that hands n records, made on what others that hand none have left. -/
theorem Keeps.on (k : Keeps n m t) (h : Keeps 0 s m) : Keeps n s t :=
  ⟨h.toBounded.trans k.toBounded, k.queue.trans (Nat.add_le_add_right h.queue n)⟩

theorem Keeps.mono {k : Nat} (h : Keeps n s t) (hk : n ≤ k) : Keeps k s t :=
  ⟨h.toBounded, h.queue.trans (Nat.add_le_add_left hk _)⟩

theorem Keeps.one (h : Keeps 0 s t) : Keeps 1 s t := h.mono (by decide)

theorem Keeps.safe (h : Keeps 0 s t) : Safe s t := ⟨h.toBounded, fun hs => h.queue.trans hs⟩

/-- A record handed where the Journal Queue has room keeps its bound (R24, R116). -/
theorem Keeps.safe_of_room (h : Keeps 1 s t) (hr : s.journalRoom = true) : Safe s t where
  toBounded := h.toBounded
  queue _ := by
    have hr := (journalRoom_iff s).1 hr
    have hq := h.queue
    unfold JournalRoom at hr
    unfold JournalQueueOk Config.journalPlaces
    omega

theorem Safe.refl (s : State) : Safe s s := (Keeps.refl s).safe

theorem Safe.of (k : Safe m t) (h : Safe s m) : Safe s t :=
  ⟨h.toBounded.trans k.toBounded, k.queue ∘ h.queue⟩

/-- A list taken element by element. -/
theorem Keeps.foldl {α : Type} {f : State → α → State} (l : List α) (h : ∀ s x, Keeps 0 s (f s x)) (s : State) :
    Keeps 0 s (l.foldl f s) := by
  induction l generalizing s with
  | nil => exact .refl s
  | cons x l ih => exact (ih _).of (h s x)

/-- The same, with a count carried along. -/
theorem Keeps.foldlCount {α : Type} {f : State × Nat → α → State × Nat} (l : List α)
    (h : ∀ a x, Keeps 0 a.1 (f a x).1) (a : State × Nat) : Keeps 0 a.1 (l.foldl f a).1 := by
  induction l generalizing a with
  | nil => exact .refl a.1
  | cons x l ih => exact (ih _).of (h a x)

theorem Keeps.ite {c : Prop} [Decidable c] {x y : State} (h : c → Keeps n s x) (k : ¬c → Keeps n s y) :
    Keeps n s (if c then x else y) := by
  split_ifs with hc
  exacts [h hc, k hc]

theorem Safe.ite {c : Prop} [Decidable c] {x y : State} (h : c → Safe s x) (k : ¬c → Safe s y) :
    Safe s (if c then x else y) := by
  split_ifs with hc
  exacts [h hc, k hc]

/-! ### The shared operations -/

theorem NoticeQueue.post_length (q : NoticeQueue) (x : Notice) (h : q.list.length ≤ Config.noticePlaces) :
    (q.post x).list.length ≤ Config.noticePlaces := by
  unfold NoticeQueue.post
  split_ifs with hq
  · simpa using hq
  · exact h

theorem foldl_post_length (l : List Notice) (q : NoticeQueue) (h : q.list.length ≤ Config.noticePlaces) :
    (l.foldl NoticeQueue.post q).list.length ≤ Config.noticePlaces := by
  induction l generalizing q with
  | nil => exact h
  | cons x l ih => exact ih _ (q.post_length x h)

theorem post_keeps {k : NoticeKind} {c x : Nat} {v : Option UnitIx} {d : Option Band} :
    Keeps 0 s (post s k c v d x) :=
  ⟨⟨rfl, rfl, rfl, rfl, rfl, NoticeQueue.post_length _ _, id, id⟩, le_rfl⟩

theorem PortFrame.keeps (h : PortFrame s t) : Keeps 0 s t := by
  obtain ⟨⟨later, reports, e, -⟩, hq, -⟩ := h
  refine ⟨?_, hq ▸ le_rfl⟩
  rw [e]
  exact ⟨rfl, rfl, rfl, rfl, rfl, foldl_post_length later s.notices, id, id⟩

theorem pump_keeps : Keeps 0 s (pump s) := (pump_portFrame s).keeps

theorem Quiet.keeps (h : Quiet s t) : Keeps 0 s t := h.portFrame.keeps

theorem DriveActs.keeps (h : DriveActs s t) : Keeps 0 s t := by
  obtain ⟨e, g, -⟩ := h
  have ho : t.engine.overlay = s.engine.overlay := by rw [g]
  rw [e]
  exact .same (by simp only [ho])

theorem handOver_keeps {op : BoltOp} {c : Urgency} : Keeps 0 s (handOver s u op c) := (handOver_acts s u op c).keeps
theorem examine_keeps : Keeps 0 s (examine s) := (examine_acts s).keeps
theorem placeFreed_keeps : Keeps 0 s (placeFreed s) := (placeFreed_acts s).keeps
theorem enqueue_keeps {a : Actuation} : Keeps 0 s (enqueue s a) := (enqueue_acts s a).keeps
theorem promote_keeps : Keeps 0 s (promote s u) := (promote_acts s u).keeps

theorem modUnit_keeps {f : UnitRec → UnitRec} : Keeps 0 s (s.modUnit u f) := .same rfl
theorem modBank_keeps {f : Bank → Bank} : Keeps 0 s (s.modBank b f) := .same rfl
theorem setChain_keeps {ns : List Node} : Keeps 0 s (s.setChain b ns) := .same rfl
theorem hand_keeps {e : EngEvent} : Keeps 0 s (s.hand e) := .same rfl
theorem setInbox_keeps {l : List EngEvent} : Keeps 0 s (s.setInbox l) := .same rfl
theorem unhold_keeps {h : HeldEvent} : Keeps 0 s (s.unhold h) := .same rfl
theorem noteHeld_leaves : Keeps 0 s s.noteHeld := .same rfl
theorem noTimer_keeps : Keeps 0 s (s.noTimer u) := .same rfl
theorem withTimer_keeps {k : TimerKind} {d : Nat} : Keeps 0 s (s.withTimer u k d) := .same rfl
theorem setRunning_keeps {r : Option Running} : Keeps 0 s (s.setRunning r) := .same rfl
theorem setFollow_keeps {l : List (UnitIx × Follow)} : Keeps 0 s (s.setFollow l) := .same rfl
theorem enter_keeps {st : UState} : Keeps 0 s (enter s u st) := .same rfl
theorem transient_keeps {l : Lamp} {ms : Nat} : Keeps 0 s (transient s u l ms) := .same rfl
theorem beep_keeps : Keeps 0 s (beep s u) := .same rfl
theorem green_keeps : Keeps 0 s (green s u) := .same rfl
theorem setPurpose_keeps {p : Option Purpose} : Keeps 0 s (setPurpose s u p) := .same rfl

/-- A record joins the Journal Queue (R116). -/
theorem handJournal_keeps {r : JRec} : Keeps 1 s (handJournal s r) :=
  ⟨⟨rfl, rfl, rfl, rfl, rfl, id, id, id⟩, by simp [handJournal]⟩

/-! ### The Drive Scheduler -/

theorem removeWaiting_keeps : Keeps 0 s (removeWaiting s u) :=
  examine_keeps.of ((refill_acts _).keeps.of (.same rfl))

theorem endPulse_keeps : Keeps 0 s (endPulse s) := by
  unfold endPulse
  split
  · exact examine_keeps.of (.same rfl)
  · split
    · exact examine_keeps.of (.same rfl)
    · exact .refl s

theorem verifyOne_keeps {a : Actuation} : Keeps 0 s (verifyOne s a) :=
  .ite (fun _ => placeFreed_keeps.of (hand_keeps.of (.same rfl))) fun _ =>
    .ite (fun _ => enqueue_keeps.of (.same rfl)) fun _ => placeFreed_keeps.of (hand_keeps.of (.same rfl))

theorem verifyBank_keeps {began : Millis} : Keeps 0 s (verifyBank s b began) :=
  (Keeps.foldl _ (fun _ _ => verifyOne_keeps) _).of (.same rfl)

theorem placesFreed_keeps : Keeps 0 s (placesFreed n s) := by
  induction n generalizing s with
  | zero => exact .refl s
  | succ n ih => exact ih.of placeFreed_keeps

theorem driveLeaves_keeps : Keeps 0 s (driveLeaves s b) :=
  examine_keeps.of (placesFreed_keeps.of (hand_keeps.of (.same rfl)))

/-! ### Units and holdings -/

theorem clearHolder_keeps : Keeps 0 s (clearHolder s u) := by
  unfold clearHolder
  dsimp only
  split <;> exact .same rfl

theorem setHolder_keeps {d : Band} {c : ClassIx} : Keeps 0 s (setHolder s u d c) := .same rfl

theorem postReleased_keeps {why : Reason} {d : Option Band} {since : Nat} :
    Keeps 0 s (postReleased s u why d since) := post_keeps

/-- A locker's release hands one record over (R36). -/
theorem releaseLocker_keeps {why : Reason} : Keeps 1 s (releaseLocker s u why) :=
  postReleased_keeps.of (handJournal_keeps.on (modUnit_keeps.of (enter_keeps.of clearHolder_keeps)))

/-- A return hands one record over where a STATE stands (R39). -/
theorem handReturn_keeps : Keeps (if s.returnHands u then 1 else 0) s (handReturn s u) := by
  unfold handReturn
  split_ifs
  · exact handJournal_keeps.on modUnit_keeps
  · exact .refl s

theorem closeCabin_keeps : Keeps 0 s (closeCabin s u) :=
  .ite (fun _ => .ite (fun _ => handOver_keeps.of enter_keeps) fun _ => enter_keeps) fun _ =>
    handOver_keeps.of enter_keeps

theorem closeSilently_keeps : Keeps 0 s (closeSilently s u) := .ite (fun _ => enter_keeps) fun _ => enter_keeps

theorem releaseCabin_keeps {why : Reason} {silent : Bool} : Keeps 0 s (releaseCabin s u why silent) := by
  have h : Keeps 0 s (postReleased (((clearHolder s u).noTimer u).modUnit u fun r =>
      { r with latchSeen := false, overstay := false }) u why (s.unit u).holder (s.unit u).boundAt) :=
    postReleased_keeps.of (modUnit_keeps.of (noTimer_keeps.of clearHolder_keeps))
  exact .ite (fun _ => .ite (fun _ => closeSilently_keeps.of h) fun _ => closeCabin_keeps.of h) fun _ =>
    enter_keeps.of h

theorem setTimes_keeps {e : Nat} : Keeps 0 s (setTimes s u e) := by
  unfold setTimes
  dsimp only
  split <;> exact withTimer_keeps.of modUnit_keeps

theorem admitCabin_keeps : Keeps 0 s (admitCabin s u) := setTimes_keeps.of (modUnit_keeps.of enter_keeps)

/-- A verified movement of a locker hands one record over at most (R36). -/
theorem verifiedLocker_keeps {op : BoltOp} {door : Bool} : Keeps 1 s (verifiedLocker s u op door) := by
  unfold verifiedLocker
  dsimp only
  split
  · exact .ite (fun _ => enter_keeps.one) fun _ =>
      (beep_keeps.of (transient_keeps.of (handOver_keeps.of (setPurpose_keeps.of enter_keeps)))).one
  · split
    · exact releaseLocker_keeps
    · exact (withTimer_keeps.of (setPurpose_keeps.of enter_keeps)).one
    · exact (setPurpose_keeps.of enter_keeps).one
    · exact (Keeps.refl s).one
  · exact (Keeps.refl s).one

/-- A locker's verified movement that is no release hands nothing over. -/
theorem verifiedLocker_keeps_other {op : BoltOp} {door : Bool}
    (h : ∀ why, op = .withdraw → (s.unit u).state = .unlocking → (s.unit u).purpose ≠ some (.release why)) :
    Keeps 0 s (verifiedLocker s u op door) := by
  unfold verifiedLocker
  dsimp only
  split
  · exact .ite (fun _ => enter_keeps) fun _ =>
      beep_keeps.of (transient_keeps.of (handOver_keeps.of (setPurpose_keeps.of enter_keeps)))
  · split
    · exact absurd ‹_› (h _ rfl ‹_›)
    · exact withTimer_keeps.of (setPurpose_keeps.of enter_keeps)
    · exact setPurpose_keeps.of enter_keeps
    · exact .refl s
  · exact .refl s

theorem verifiedCabin_keeps {op : BoltOp} {door : Bool} : Keeps 0 s (verifiedCabin s u op door) := by
  unfold verifiedCabin
  split
  · exact admitCabin_keeps
  · exact .ite (fun _ => enter_keeps) fun _ => handOver_keeps.of enter_keeps
  · exact .ite (fun _ => enter_keeps) fun _ => handOver_keeps.of enter_keeps
  · exact .refl s

/-- A verified movement hands one record over at most, and only of a locker (R36). -/
theorem verifiedUnit_keeps {op : BoltOp} {door : Bool} :
    Keeps (if s.kind u = .locker then 1 else 0) s (verifiedUnit s u op door) := by
  unfold verifiedUnit
  cases s.kind u with
  | locker => exact verifiedLocker_keeps
  | cabin => exact verifiedCabin_keeps
  | blank => exact .refl s
  | unused => exact .refl s

theorem forceOpen_keeps : Keeps 0 s (forceOpen s u) := post_keeps.of enter_keeps

theorem rederive_keeps {op : BoltOp} {bolt : Bool} : Keeps 0 s (rederive s u op bolt) :=
  .ite (fun _ => .ite (fun _ => handOver_keeps.of enter_keeps) fun _ => enter_keeps) fun _ =>
    .ite (fun _ => handOver_keeps) fun _ => handOver_keeps

theorem compareUnit_keeps {c : Cell} : Keeps 0 s (compareUnit s u c) := by
  unfold compareUnit
  split
  case h_2 => split_ifs; exacts [forceOpen_keeps, .refl s, rederive_keeps.of enter_keeps]
  case h_5 => split_ifs; exacts [.refl s, rederive_keeps]
  case h_11 => exact .refl s
  all_goals split_ifs; exacts [rederive_keeps, .refl s]

/-- A unit reconciled hands one record over where it is a locker to be released, and none otherwise (R36, R49). -/
theorem reconcileUnit_keeps {c : Cell} :
    Keeps (if s.reconcileHands u c then 1 else 0) s (reconcileUnit s u c) := by
  have hs : Keeps 0 s (s.modUnit u fun r => { r with suspended := false }) := modUnit_keeps
  have verified : ∀ op, (c.bolt = true ↔ op = BoltOp.throw) → s.inHand u = false →
      Keeps (if s.reconcileHands u c then 1 else 0) s
        (verifiedUnit (s.modUnit u fun r => { r with suspended := false }) u op c.door) := by
    intro op hop hin
    by_cases hh : s.reconcileHands u c = true
    · rw [if_pos hh]
      exact (verifiedUnit_keeps.mono (by split_ifs <;> decide)).on hs
    · rw [if_neg hh]
      refine Keeps.on ?_ hs
      unfold verifiedUnit
      split
      · rename_i hk
        refine verifiedLocker_keeps_other fun why ho hst hp => hh ?_
        rw [modUnit_unit_self] at hst hp
        dsimp only at hst hp
        subst ho
        have hk' : s.kind u = .locker := hk
        have hb : c.bolt = false := by simpa using hop
        simp [State.reconcileHands, hin, hk', hst, hb, hp]
      · exact verifiedCabin_keeps
      · exact .refl _
  have plain : ∀ {x}, Keeps 0 s x → Keeps (if s.reconcileHands u c then 1 else 0) s x := fun h => h.mono (Nat.zero_le _)
  generalize (if s.reconcileHands u c then 1 else 0) = n at verified plain ⊢
  unfold reconcileUnit
  dsimp only
  refine .ite (fun _ => plain (.refl s)) fun hin => .ite (fun _ => plain (compareUnit_keeps.of hs)) fun _ => ?_
  split
  · exact plain (compareUnit_keeps.of hs)
  · exact .ite (fun _ => plain (compareUnit_keeps.of hs)) fun _ =>
      .ite (fun h => verified _ (by simpa using h) (by simpa using hin)) fun _ => plain (rederive_keeps.of hs)

/-- A unit returned to service hands one record over where a STATE stands (R39, R159). -/
theorem returnUnit_keeps : Keeps (if s.returnHands u then 1 else 0) s (returnUnit s u) := by
  have hr : Keeps (if s.returnHands u then 1 else 0) s
      (handReturn (s.modUnit u fun r => { r with suspended := false }) u) := by
    have he : (s.modUnit u fun r => { r with suspended := false }).returnHands u = s.returnHands u := by
      simp only [State.returnHands, modUnit_unit_self]
      rfl
    have h := handReturn_keeps (s := s.modUnit u fun r => { r with suspended := false }) (u := u)
    rw [he] at h
    exact h.on modUnit_keeps
  have hm : ∀ {x}, Keeps 0 (handReturn (s.modUnit u fun r => { r with suspended := false }) u) x →
      Keeps (if s.returnHands u then 1 else 0) s x := fun k => k.of hr
  have hb : Keeps (if s.returnHands u then 1 else 0) s
      (if (s.unit u).holder.isNone then
        enter (handReturn (s.modUnit u fun r => { r with suspended := false }) u) u .free
      else if s.kind u = .locker then
        enter (handReturn (s.modUnit u fun r => { r with suspended := false }) u) u .held
      else postReleased (enter (clearHolder (handReturn (s.modUnit u fun r => { r with suspended := false }) u) u) u
        .vacating) u .fault (s.unit u).holder (s.unit u).boundAt) :=
    .ite (fun _ => hm enter_keeps) fun _ => .ite (fun _ => hm enter_keeps) fun _ =>
      hm (postReleased_keeps.of (enter_keeps.of clearHolder_keeps))
  exact .ite (fun _ => compareUnit_keeps.of hb) fun _ => hb

theorem movementLeft_keeps {how : Leave} {cleared : Bool} : Keeps 0 s (movementLeft s u how cleared) := by
  unfold movementLeft
  split
  · exact .refl s
  · exact setRunning_keeps

theorem followUp_keeps {how : Leave} : Keeps 0 s (followUp s u how) := by
  unfold followUp
  split
  · exact .refl s
  · dsimp only
    split
    · split
      · exact handOver_keeps.of (enter_keeps.of setFollow_keeps)
      · split
        · exact modUnit_keeps.of setFollow_keeps
        · exact promote_keeps.of setFollow_keeps
      · exact setFollow_keeps
    · exact enter_keeps.of setFollow_keeps
    · exact .ite (fun _ => handOver_keeps.of (enter_keeps.of setFollow_keeps)) fun _ => setFollow_keeps
    · exact enter_keeps.of setFollow_keeps
    · exact setFollow_keeps

theorem takeAway_keeps {op : BoltOp} : Keeps 0 s (takeAway op s u) :=
  .ite (fun _ => movementLeft_keeps.of (.ite (fun _ => removeWaiting_keeps.of (.same rfl)) fun _ => .same rfl))
    fun _ => .refl s

theorem evacuateCabin_keeps {a : State × Nat} : Keeps 0 a.1 (evacuateCabin a u).1 := by
  have h : Keeps 0 a.1 (takeAway .throw a.1 u) := takeAway_keeps
  unfold evacuateCabin
  dsimp only
  generalize takeAway .throw a.1 u = m at h
  have free : Keeps 0 m (match m.opInHand u with
      | some .throw => (m.setFollow (insertFollow m.engine.follow u .toOpen), a.2)
      | some .withdraw =>
        (promote ((enter m u .evacOpen).modUnit u fun r =>
          { r with deferred := r.deferred.map fun d : BoltOp × Urgency => (d.1, .urgent) }) u, a.2 + 1)
      | none =>
        if m.reported u = true then (m.setFollow (insertFollow m.engine.follow u .toOpen), a.2)
        else if (m.unit u).suspended = true then (enter m u .evacOpen, a.2 + 1)
        else (handOver (enter m u .evacOpen) u .withdraw .urgent, a.2 + 1)).1 := by
    split
    · exact setFollow_keeps
    · exact promote_keeps.of (modUnit_keeps.of enter_keeps)
    · split_ifs
      exacts [setFollow_keeps, enter_keeps, handOver_keeps.of enter_keeps]
  refine Keeps.of ?_ h
  split
  · exact free
  · exact free
  · split
    · exact .same rfl
    · split_ifs
      exacts [promote_keeps, .refl m]
  · exact .refl m

theorem relockCabin_keeps {a : State × Nat} : Keeps 0 a.1 (relockCabin a u).1 := by
  have h : Keeps 0 a.1 (takeAway .withdraw a.1 u) := takeAway_keeps
  unfold relockCabin
  dsimp only
  split_ifs
  exacts [h, setFollow_keeps.of h, enter_keeps.of h, handOver_keeps.of (enter_keeps.of h)]

end Sys2Proof.Machine
end

section
namespace Sys2Proof.Machine

variable {s m t : State} {n : Nat} {u : UnitIx} {b : BankIx}

/-! ### The bank chains -/

theorem beginMode_keeps {a : Activity} : Keeps 0 s (beginMode s b a) := .same rfl
theorem beginData_keeps {a : Activity} : Keeps 0 s (beginData s b a) := .same rfl
theorem beginStatus_keeps {due : Millis} : Keeps 0 s (beginStatus s b due) := .same rfl

theorem chainFree_keeps : Keeps 0 s (chainFree s b) := by
  unfold chainFree
  dsimp only
  split
  · exact .ite (fun _ => modBank_keeps) fun _ => beginStatus_keeps.of (modBank_keeps.of modBank_keeps)
  · exact modBank_keeps

theorem statusDue_keeps : Keeps 0 s (statusDue s b) :=
  .ite (fun _ => .ite (fun _ => beginStatus_keeps.of modBank_keeps) fun _ => modBank_keeps.of modBank_keeps) fun _ => .refl s

theorem moveBank_keeps {st : BankState} : Keeps 0 s (moveBank s b st) :=
  .ite (fun _ => driveLeaves_keeps.of modBank_keeps) fun _ => modBank_keeps

theorem resetNodes_keeps : Keeps 0 s (resetNodes s b) := setChain_keeps

theorem enterResetting_keeps : Keeps 0 s (enterResetting s b) := by
  have h : Keeps 0 s (resetNodes (moveBank s b .resetting) b) := resetNodes_keeps.of moveBank_keeps
  unfold enterResetting
  refine Keeps.of modBank_keeps (h.after ?_)
  exact .same rfl

theorem makeAbsent_keeps : Keeps 0 s (makeAbsent s b) := setChain_keeps.of moveBank_keeps

theorem reportReset_keeps {st : BankState} {code : Option FaultCode} : Keeps 0 s (reportReset s b st code n) :=
  .ite (fun _ => hand_keeps) fun _ => .refl s

theorem enterFaulted_keeps {code : FaultCode} {v : Option UnitIx} : Keeps 0 s (enterFaulted s b code n v) :=
  .ite (fun _ => modBank_keeps.of moveBank_keeps) fun _ => post_keeps.of (modBank_keeps.of moveBank_keeps)

theorem passFailed_keeps {next : State → State} (h : ∀ m, Keeps 0 m (next m)) : Keeps 0 s (passFailed s b next) :=
  .ite (fun _ => (h _).of modBank_keeps) fun _ => enterFaulted_keeps.of modBank_keeps

theorem enterRunning_keeps : Keeps 0 s (enterRunning s b) := by
  unfold enterRunning
  dsimp only
  refine .ite (fun _ => post_keeps.of (modBank_keeps.of (reportReset_keeps.of ?_))) fun _ => reportReset_keeps.of ?_
  all_goals exact .ite (fun _ => modBank_keeps) fun _ => beginStatus_keeps.of modBank_keeps

theorem retry_keeps : Keeps 0 s (retry s b) := .ite (fun _ => enterResetting_keeps) fun _ => .refl s

theorem resetEnd_keeps : Keeps 0 s (resetEnd s b) := .ite (fun _ => setChain_keeps.of modBank_keeps) fun _ => .refl s

theorem enumerated_keeps {ids : List Identity} : Keeps 0 s (enumerated s b ids) := by
  unfold enumerated
  dsimp only
  refine .ite (fun _ => reportReset_keeps.of enterFaulted_keeps) fun _ => ?_
  split
  · exact reportReset_keeps.of enterFaulted_keeps
  · refine enterRunning_keeps.of ?_
    exact .same rfl

theorem enumerationEnd_keeps {line : Noise} : Keeps 0 s (enumerationEnd s b line) :=
  .ite (fun _ => enumerated_keeps.of setChain_keeps) fun _ => .refl s

theorem beginStatusData_keeps {modes : List NodeMode} : Keeps 0 s (beginStatusData s b modes) :=
  beginData_keeps.of (Keeps.foldl _ (fun _ _ => modUnit_keeps) s)

theorem modePass_keeps {modes : List NodeMode} {line : Noise} : Keeps 0 s (modePass s b modes line).1 := setChain_keeps

theorem statusModeEnd_keeps {line : Noise} : Keeps 0 s (statusModeEnd s b line) := by
  unfold statusModeEnd
  split
  · have h := fun modes => modePass_keeps (s := s) (b := b) (modes := modes) (line := line)
    exact .ite (fun _ => .ite (fun _ => modBank_keeps.of (modBank_keeps.of (h _))) fun _ => beginStatusData_keeps.of
      (modBank_keeps.of (h _))) fun _ => (passFailed_keeps fun _ => chainFree_keeps).of (h _)
  · exact .refl s

theorem postTamper_keeps {fresh : Bool} {cells : List (UnitIx × Cell)} : Keeps 0 s (postTamper s b fresh cells) :=
  Keeps.foldl _ (fun _ _ => post_keeps) s

theorem handCells_keeps {fresh : Bool} {cells : List (UnitIx × Cell)} {prev : UnitIx → Cell} :
    Keeps 0 s (handCells s b fresh cells prev) :=
  .ite (fun _ => hand_keeps.of modBank_keeps) fun _ => Keeps.foldl _ (fun _ _ => hand_keeps) s

theorem statusPassed_keeps {began : Millis} {cells : List (UnitIx × Cell)} :
    Keeps 0 s (statusPassed s b began cells) := by
  have h : ∀ x : Vector TapMemory 512, Keeps 0 s
      { observeCells (postTamper s b (s.bank b).fresh cells) cells with tapMemory := x } := fun x =>
    Keeps.after postTamper_keeps (.same rfl)
  unfold statusPassed
  dsimp only
  split
  · refine chainFree_keeps.of ?_
    exact .ite (fun _ => h _) fun _ => handCells_keeps.of (verifyBank_keeps.of (h _))
  · refine modBank_keeps.of ?_
    exact .ite (fun _ => h _) fun _ => handCells_keeps.of (verifyBank_keeps.of (h _))

theorem clearBeeps_keeps {us : List UnitIx} : Keeps 0 s (clearBeeps s us) := Keeps.foldl _ (fun _ _ => modUnit_keeps) s

theorem statusDataEnd_keeps {line : Noise} : Keeps 0 s (statusDataEnd s b line) := by
  unfold statusDataEnd
  split
  · rename_i modes cells began ops _
    have h : ∀ x : List Node, Keeps 0 s (clearBeeps (deliverOps (s.setChain b x) ops) (unitsIn b modes .status)) :=
      fun x => clearBeeps_keeps.of (.same rfl)
    exact .ite (fun _ => statusPassed_keeps.of (modBank_keeps.of (h _))) fun _ =>
      (passFailed_keeps fun _ => chainFree_keeps).of (h _)
  · exact .refl s

/-! ### The Tap Queue (R102) -/

theorem list_sum_set (l : List Nat) (i x : Nat) (h : i < l.length) : (l.set i x).sum + l[i] = l.sum + x := by
  induction l generalizing i with
  | nil => simp at h
  | cons y l ih =>
    cases i with
    | zero => simp; omega
    | succ i =>
      have := ih i (by simpa using h)
      simp only [List.set_cons_succ, List.sum_cons, List.getElem_cons_succ]
      omega

/-- What all controllers hold, once one holds x instead of what it held. -/
theorem reservations_put (q : TapQueue) (x : Nat) :
    (⟨q.records, put q.reserved b x⟩ : TapQueue).reservations + q.reserved.get b = q.reservations + x := by
  have h := list_sum_set q.reserved.toList b.1 x (by simp)
  have hb : q.reserved.toList[b.1]'(by simp) = q.reserved.get b := by simp [Vector.get_eq_getElem]
  rw [hb] at h
  simpa [TapQueue.reservations, put, Vector.toList_set, -Vector.sum_toList] using h

/-- A controller holds no more than before. -/
theorem setReserved_keeps (h : n ≤ s.taps.reserved.get b) : Keeps 0 s (s.setReserved b n) :=
  .sameBut rfl fun k => by
    have := reservations_put (b := b) s.taps n
    simp only [TapsOk, State.setReserved] at k ⊢
    omega

theorem reserve_keeps : Keeps 0 s (reserve s b) := by
  unfold reserve
  split
  · rename_i us _
    refine .ite (fun _ => .refl s) fun _ => ?_
    have h : Keeps 0 s ((s.setReserved b (s.taps.reserved.get b + (us.take s.taps.free).length)).modBank b fun k =>
        { k with granted := us.take s.taps.free }) := by
      refine modBank_keeps.of (.sameBut rfl fun k => ?_)
      have := reservations_put (b := b) s.taps (s.taps.reserved.get b + (us.take s.taps.free).length)
      have hl : (us.take s.taps.free).length ≤ s.taps.free := List.length_take_le _ _
      have hf : s.taps.free = 32 - s.taps.records.length - s.taps.reservations := rfl
      simp only [TapsOk, State.setReserved, Config.tapPlaces] at k ⊢
      omega
    exact .ite (fun _ => chainFree_keeps.of h) fun _ =>
      .ite (fun _ => modBank_keeps.of h) fun _ => beginMode_keeps.of h
  · exact .refl s

theorem fetchModeEnd_keeps {line : Noise} : Keeps 0 s (fetchModeEnd s b line) := by
  unfold fetchModeEnd
  split
  · exact .ite (fun _ => .ite (fun _ => modBank_keeps.of (modBank_keeps.of modePass_keeps)) fun _ =>
      beginData_keeps.of (modBank_keeps.of modePass_keeps)) fun _ =>
      (passFailed_keeps fun _ => chainFree_keeps.of modBank_keeps).of modePass_keeps
  · exact .refl s

theorem fetchDataEnd_keeps {line : Noise} : Keeps 0 s (fetchDataEnd s b line) := by
  unfold fetchDataEnd
  split
  · exact .ite (fun _ => modBank_keeps.of (modBank_keeps.of setChain_keeps)) fun _ =>
      (passFailed_keeps fun _ => chainFree_keeps.of (setChain_keeps.of modBank_keeps)).of setChain_keeps
  · exact .refl s

/-- What a place event stores, its controller no longer holds (R102). -/
theorem place_keeps : Keeps 0 s (place s b) := by
  unfold place
  split
  · exact .refl s
  · rename_i x _
    dsimp only
    refine .ite (fun hu => ?_) fun _ => (setReserved_keeps (Nat.zero_le _)).of modBank_keeps
    have hk : TapsOk s → ((s.taps.records ++ x.records).length +
        (put s.taps.reserved b (s.taps.reserved.get b - (x.records.length + x.dropped))).toList.sum) ≤ 32 := by
      intro k
      have := reservations_put (b := b) s.taps (s.taps.reserved.get b - (x.records.length + x.dropped))
      simp only [TapsOk, TapQueue.reservations, Config.tapPlaces, List.length_append] at k this ⊢
      omega
    refine .ite (fun _ => chainFree_keeps.of (setChain_keeps.of ?_)) fun _ => ?_
    all_goals exact .sameBut rfl hk

theorem release_keeps : Keeps 0 s (release s b) := modBank_keeps.of (setReserved_keeps (Nat.sub_le _ _))

theorem modNode_keeps {p : Position} {f : Node → Node} : Keeps 0 s (s.modNode b p f) := setChain_keeps

theorem nodeUp_keeps {p : Position} {kind : BitVec 2} {revision : BitVec 5} {serial : BitVec 16} :
    Keeps 0 s (nodeUp s b p kind revision serial) := .ite (fun _ => setChain_keeps) fun _ => modNode_keeps

end Sys2Proof.Machine
end

section
namespace Sys2Proof.Machine

variable {s m t : State} {n : Nat} {u : UnitIx} {b : BankIx} {d : Band} {c : ClassIx}

/-! ### The tap decision -/

theorem refuse_keeps {why : Refusing} : Keeps 0 s (refuse s u d why) := by
  refine beep_keeps.of ?_
  exact .ite (fun _ => transient_keeps.of post_keeps) fun _ => transient_keeps.of post_keeps

/-- A locker's bind hands one record over (R32). -/
theorem bindLocker_keeps : Keeps 1 s (bindLocker s u d c) :=
  green_keeps.of (post_keeps.of (handOver_keeps.of (handJournal_keeps.on (enter_keeps.of setHolder_keeps))))

theorem bindCabin_keeps : Keeps 0 s (bindCabin s u d c) :=
  green_keeps.of (post_keeps.of (handOver_keeps.of (enter_keeps.of setHolder_keeps)))

theorem tapNew_keeps : Keeps 1 s (tapNew s u d c) := by
  unfold tapNew
  split
  · split
    · exact refuse_keeps.one
    · exact .ite (fun _ => bindLocker_keeps) fun _ => bindCabin_keeps.one
  · exact refuse_keeps.one
  · exact refuse_keeps.one

theorem tapReclose_keeps : Keeps 0 s (tapReclose s u d) :=
  .ite (fun _ => green_keeps.of (handOver_keeps.of (enter_keeps.of noTimer_keeps))) fun _ => refuse_keeps

theorem tapOpen_keeps : Keeps 0 s (tapOpen s u c) :=
  green_keeps.of (handOver_keeps.of (setPurpose_keeps.of enter_keeps))

theorem tapHolder_keeps : Keeps 0 s (tapHolder s u d c) := by
  unfold tapHolder
  split
  exacts [tapOpen_keeps, tapReclose_keeps, tapReclose_keeps, releaseCabin_keeps, releaseCabin_keeps, .refl s]

/-- A locker opened out of FAULT hands one record over where a STATE stands (R39, R41). -/
theorem openLocker_keeps :
    Keeps (if (s.unit u).state = .fault ∧ s.returnHands u then 1 else 0) s (openLocker s u) := by
  have h : Keeps (if (s.unit u).state = .fault ∧ s.returnHands u then 1 else 0) s
      (if (s.unit u).state = .fault then handReturn s u else s) := by
    by_cases hf : (s.unit u).state = .fault
    · simpa [hf] using handReturn_keeps (s := s) (u := u)
    · simpa [hf] using Keeps.refl s
  exact .ite (fun _ => enter_keeps.of (noTimer_keeps.of h)) fun _ => .ite (fun _ => enter_keeps.of h) fun _ =>
    .ite (fun _ => handOver_keeps.of (enter_keeps.of h)) fun _ =>
      handOver_keeps.of (setPurpose_keeps.of (enter_keeps.of h))

theorem openFaultCabin_keeps {why : Reason} : Keeps 0 s (openFaultCabin s u why) := by
  have h : Keeps 0 s (if (s.unit u).holder.isSome then
      postReleased (clearHolder s u) u why (s.unit u).holder (s.unit u).boundAt else s) :=
    .ite (fun _ => postReleased_keeps.of clearHolder_keeps) fun _ => .refl s
  exact .ite (fun _ => handOver_keeps.of (enter_keeps.of h)) fun _ => enter_keeps.of h

theorem masterActs_keeps {e : MasterEffect} : Keeps 1 s (masterActs s u e) := by
  unfold masterActs
  split
  · exact .ite (fun _ => openLocker_keeps.mono (by split_ifs <;> decide)) fun _ =>
      .ite (fun _ => (handOver_keeps.of enter_keeps).one) fun _ => openFaultCabin_keeps.one
  · exact .ite (fun _ => (handOver_keeps.of enter_keeps).one) fun _ =>
      .ite (fun _ => (handOver_keeps.of enter_keeps).one) fun _ => enter_keeps.one
  · exact releaseCabin_keeps.one
  · exact (Keeps.refl s).one
  · exact (Keeps.refl s).one

theorem tapMaster_keeps : Keeps 1 s (tapMaster s u d) := by
  have h : Keeps 1 s (masterActs (post s .masterTap (s.masterEffect u).code (some u) (some d)
      ((s.unit u).state.code (s.kind u))) u (s.masterEffect u)) := masterActs_keeps.on post_keeps
  unfold tapMaster
  dsimp only
  split
  exacts [green_keeps.of h, green_keeps.of h, green_keeps.of h, beep_keeps.of (transient_keeps.of h), h]

theorem tapClass_keeps : Keeps 1 s (tapClass s u d c) := by
  have h : Keeps 0 s { s with bands := writeClass s.bands d c } := .same rfl
  unfold tapClass
  dsimp only
  split
  · exact .ite (fun _ => (tapHolder_keeps.of h).one) fun _ => (refuse_keeps.of h).one
  · exact tapNew_keeps.on h

/-- A tap's decision hands one record over at most (R24). -/
theorem decideTap_keeps : Keeps 1 s (decideTap s u d) := by
  unfold decideTap
  refine .ite (fun _ => refuse_keeps.one) fun _ => ?_
  dsimp only
  split
  · exact refuse_keeps.one
  · refine .ite (fun _ => refuse_keeps.one) fun _ => .ite (fun _ => refuse_keeps.one) fun _ => ?_
    split
    exacts [refuse_keeps.one, tapMaster_keeps, refuse_keeps.one, tapClass_keeps]

theorem takeTap_safe : Safe s (takeTap s) := by
  unfold takeTap
  split
  · exact .refl s
  · rename_i x rest hr
    refine .ite (fun hx => ?_) fun _ => .refl s
    have h : Keeps 0 s { s with
        taps := { s.taps with records := rest }
        engine := { s.engine with tapAhead := s.tapPasses, resuming := false } } :=
      .sameBut rfl fun k => by
        simp only [TapsOk, TapQueue.reservations, hr, List.length_cons] at k ⊢
        omega
    refine Keeps.safe_of_room (pump_keeps.of ?_) (by simp_all [State.tapTakeable])
    exact .ite (fun _ => decideTap_keeps.on h) fun _ => h.one

/-! ### The engine's events -/

theorem takeVerified_keeps {op : BoltOp} {x : Cell} :
    Keeps (if s.kind u = .locker then 1 else 0) s (takeVerified s u op x) :=
  movementLeft_keeps.of (followUp_keeps.of verifiedUnit_keeps)

theorem takeFaulted_keeps {op : BoltOp} {x : Cell} :
    Keeps (if s.kind u = .locker then 1 else 0) s (takeFaulted s u op x) := by
  have h : Keeps 0 s (post (((setPurpose (enter s u .fault) u none).noTimer u)) .unitFault op.code (some u)
      (s.unit u).holder x.faultBits) := post_keeps.of (noTimer_keeps.of (setPurpose_keeps.of enter_keeps))
  refine movementLeft_keeps.of (followUp_keeps.of ?_)
  by_cases hk : s.kind u = .locker
  · rw [if_pos hk]
    exact .ite (fun _ => handJournal_keeps.on h) fun _ => h.one
  · rw [if_neg hk]
    exact .ite (fun hk' => absurd hk' hk) fun _ => h

theorem takeFirst_some {α : Type} {p : α → Bool} {l rest : List α} {x : α} (h : takeFirst p l = some (x, rest)) :
    p x = true := by
  induction l generalizing rest with
  | nil => simp [takeFirst] at h
  | cons y l ih =>
    unfold takeFirst at h
    split_ifs at h with hy
    · cases h; exact hy
    · cases hl : takeFirst p l with
      | none => simp [hl] at h
      | some r =>
        simp only [hl, Option.map_some, Option.some.injEq, Prod.mk.injEq] at h
        exact ih (rest := r.2) (by rw [hl, ← h.1])

/-- Where a report of a locker is taken, the Journal Queue has room (R24). -/
theorem takeReport_room {p : EngEvent → Bool} {e : EngEvent} {rest : List EngEvent}
    (h : s.takeReport p = some (e, rest)) (hu : e.report? = some u) (hk : s.kind u = .locker) :
    s.journalRoom = true := by
  have := takeFirst_some h
  simp only [State.reportHeld, State.holdsBack, hu, Option.any_some, hk] at this
  simp_all

/-- A report taken with the effect f, which hands one record over at most, and only of a locker. -/
theorem takeReport_safe {p : EngEvent → Bool} {e : EngEvent} {rest : List EngEvent} {f : State → State}
    (h : s.noteHeld.takeReport p = some (e, rest)) (hu : e.report? = some u)
    (hf : ∀ m : State, Keeps (if m.kind u = .locker then 1 else 0) m (f m)) :
    Safe s (pump (f ((s.noteHeld.setInbox rest).unhold (.report u)))) := by
  have hs : Keeps 0 s ((s.noteHeld.setInbox rest).unhold (.report u)) :=
    unhold_keeps.of (setInbox_keeps.of noteHeld_leaves)
  have hp := pump_keeps.of ((hf _).on hs)
  by_cases hk : s.kind u = .locker
  · have hr := takeReport_room h hu hk
    exact Keeps.safe_of_room (hp.mono (by split_ifs <;> decide)) hr
  · exact Keeps.safe (by rwa [show ((s.noteHeld.setInbox rest).unhold (.report u)).kind u = s.kind u from rfl,
      if_neg hk] at hp)

theorem verifyResult_safe : Safe s (verifyResult s) := by
  unfold verifyResult
  refine .ite (fun _ => .refl s) fun _ => ?_
  dsimp only
  split
  · exact takeReport_safe (f := fun m => takeVerified m _ _ _) ‹_› rfl fun _ => takeVerified_keeps
  · exact noteHeld_leaves.safe

theorem faultReport_safe : Safe s (faultReport s) := by
  unfold faultReport
  refine .ite (fun _ => .refl s) fun _ => ?_
  dsimp only
  split
  · exact takeReport_safe (f := fun m => takeFaulted m _ _ _) ‹_› rfl fun _ => takeFaulted_keeps
  · exact noteHeld_leaves.safe

theorem suspendUnit_keeps : Keeps 0 s (suspendUnit s u) := movementLeft_keeps.of (followUp_keeps.of modUnit_keeps)

theorem actuationRemoved_keeps : Keeps 0 s (actuationRemoved s) := by
  unfold actuationRemoved
  refine .ite (fun _ => .refl s) fun _ => ?_
  split
  · rename_i us left rest _
    have h : Keeps 0 s (us.foldl suspendUnit (s.setInbox rest)) :=
      (Keeps.foldl _ (fun _ _ => suspendUnit_keeps) _).of setInbox_keeps
    dsimp only
    split
    · exact (Keeps.foldl _ (fun _ _ => suspendUnit_keeps) _).of h
    · exact h
  · exact .refl s

theorem takeDisplaced_keeps : Keeps 0 s (takeDisplaced s u) := by
  refine movementLeft_keeps.of (followUp_keeps.of ?_)
  exact .ite (fun _ => .ite (fun _ => handOver_keeps.of enter_keeps) fun _ => enter_keeps) fun _ => .refl s

theorem throwDisplaced_keeps : Keeps 0 s (throwDisplaced s) := by
  unfold throwDisplaced
  refine .ite (fun _ => .refl s) fun _ => ?_
  split
  · exact takeDisplaced_keeps.of setInbox_keeps
  · exact .refl s

theorem observeEdges_keeps {x y : Cell} : Keeps 0 s (observeEdges s u x y) := by
  unfold observeEdges
  refine .ite (fun _ => releaseCabin_keeps.of ?_) fun _ => ?_
  all_goals exact .ite (fun _ => modUnit_keeps) fun _ => .refl s

theorem observeLevels_keeps {x : Cell} : Keeps 0 s (observeLevels s u x) :=
  .ite (fun _ => .refl s) fun _ => .ite (fun _ => forceOpen_keeps) fun _ =>
    .ite (fun _ => closeCabin_keeps) fun _ => .refl s

theorem observation_keeps : Keeps 0 s (observation s) := by
  unfold observation
  refine .ite (fun _ => .refl s) fun _ => ?_
  split
  · exact observeLevels_keeps.of (observeEdges_keeps.of setInbox_keeps)
  · exact .refl s

/-- Each unit of a reconcile request that would hand a record over finds room for it (R24, R49). -/
theorem reconcileUnits_safe (l : List (UnitIx × Cell)) : Safe s (reconcileUnits s l).1 := by
  induction l generalizing s with
  | nil => exact .refl s
  | cons x l ih =>
    obtain ⟨u, c⟩ := x
    unfold reconcileUnits
    split_ifs with h
    · exact .refl s
    · refine ih.of ?_
      have hk := reconcileUnit_keeps (s := s) (u := u) (c := c)
      by_cases hh : s.reconcileHands u c = true
      · rw [if_pos hh] at hk
        exact hk.safe_of_room (by simpa [hh] using h)
      · rw [if_neg hh] at hk
        exact hk.safe

theorem reconcile_safe : Safe s (reconcile s) := by
  unfold reconcile
  refine .ite (fun _ => .refl s) fun _ => ?_
  split
  · rename_i cells rest _
    refine .ite (fun _ => .refl s) fun _ => ?_
    dsimp only
    refine Safe.of pump_keeps.safe ?_
    have h : Safe s (reconcileUnits (s.setInbox rest) cells).1 := (reconcileUnits_safe _).of setInbox_keeps.safe
    exact .ite (fun _ => h) fun _ => Safe.of setInbox_keeps.safe h
  · exact .refl s

theorem stallReport_keeps : Keeps 0 s (stallReport s) := by
  unfold stallReport
  refine .ite (fun _ => .refl s) fun _ => ?_
  split
  · exact .same rfl
  · exact .refl s

theorem takeExpiry_keeps : Keeps 0 s (takeExpiry s u) := by
  refine .ite (fun _ => releaseCabin_keeps.of ?_) fun _ => ?_
  all_goals exact withTimer_keeps.of (post_keeps.of enter_keeps)

theorem takeGraceEnd_keeps : Keeps 0 s (takeGraceEnd s u) :=
  .ite (fun _ => noTimer_keeps.of (post_keeps.of modUnit_keeps)) fun _ => releaseCabin_keeps

theorem warningDue_keeps : Keeps 0 s (warningDue s) := by
  unfold warningDue
  split
  · refine withTimer_keeps.of ?_
    exact post_keeps.after (.same rfl)
  · exact .refl s

theorem expiryDue_keeps : Keeps 0 s (expiryDue s) := by
  unfold expiryDue
  split
  · exact takeExpiry_keeps
  · exact .refl s

theorem graceEndDue_keeps : Keeps 0 s (graceEndDue s) := by
  unfold graceEndDue
  split
  · exact takeGraceEnd_keeps
  · exact .refl s

/-- An AJAR_IDLE event that is next is not held back, so that the Journal Queue has room (R24, R61). -/
theorem dueUnit_room (h : s.dueUnit .ajarIdle = some u) : s.journalRoom = true := by
  unfold State.dueUnit at h
  split_ifs at h
  split at h
  · rename_i e he
    have := List.find?_some he
    split_ifs at h with hk
    simp_all [State.holdsBack]
  · cases h

theorem ajarIdleDue_safe : Safe s (ajarIdleDue s) := by
  unfold ajarIdleDue
  refine .ite (fun _ => .refl s) fun _ => ?_
  dsimp only
  split
  · exact Keeps.safe_of_room (pump_keeps.of (releaseLocker_keeps.on (noTimer_keeps.of noteHeld_leaves)))
      (dueUnit_room (s := s.noteHeld) ‹_›)
  · exact noteHeld_leaves.safe

theorem startEvacuation_keeps : Keeps 0 s (startEvacuation s) := by
  refine post_keeps.of ?_
  refine (Keeps.foldlCount _ (fun _ _ => evacuateCabin_keeps) (_, 0)).of ?_
  exact .same rfl

theorem endEvacuation_keeps : Keeps 0 s (endEvacuation s) := by
  unfold endEvacuation
  dsimp only
  split
  · refine post_keeps.of ?_
    exact .same rfl
  · refine post_keeps.of ?_
    refine (Keeps.foldlCount _ (fun _ _ => relockCabin_keeps) (_, 0)).of ?_
    exact .same rfl

theorem takeChange_keeps {on : Bool} {f : State → State} (hf : ∀ m, Keeps 0 m (f m)) : Keeps 0 s (takeChange s on f) := by
  unfold takeChange
  split
  · exact .ite (fun _ => (hf _).of (.same rfl)) fun _ => .refl s
  · exact .refl s

theorem evacuateChange_keeps {on : Bool} : Keeps 0 s (evacuateChange s on) := .ite (fun _ => .refl s) fun _ => .same rfl
theorem serviceKeyChange_keeps {on : Bool} : Keeps 0 s (serviceKeyChange s on) := .ite (fun _ => .refl s) fun _ => .same rfl

end Sys2Proof.Machine
end

section
namespace Sys2Proof.Machine

variable {s m t : State} {n : Nat} {u : UnitIx} {b : BankIx} {d : Band} {a : Action} {r : Running}

/-! ### Actions -/

theorem endAction_keeps {why : Result} {x : Nat} : Keeps 0 s (endAction s why x) := by
  unfold endAction
  split
  · exact .refl s
  · exact post_keeps.of setRunning_keeps

theorem finish_keeps : Keeps 0 s (finish s) := by
  unfold finish
  split
  · exact .refl s
  · exact .ite (fun _ => endAction_keeps) fun _ => .refl s

theorem record_keeps {e : StepEnd} {counted : Nat} (h : Keeps n s e.state) : Keeps n s (record u counted e) := by
  unfold record
  split
  · exact h
  · exact finish_keeps.of (setRunning_keeps.of h)

theorem listUnits_keeps {us : List UnitIx} : Keeps 0 s (listUnits s us) := by
  unfold listUnits
  split
  · exact .refl s
  · exact setRunning_keeps

theorem unlockForRelease_keeps : Keeps 0 s (unlockForRelease s u).state := by
  unfold unlockForRelease
  dsimp only
  split_ifs
  · exact setPurpose_keeps.of enter_keeps
  · exact handOver_keeps.of (setPurpose_keeps.of enter_keeps)

theorem freeForRelease_keeps : Keeps 1 s (freeForRelease s u).state := releaseLocker_keeps.on noTimer_keeps

/-- A release step on a locker hands one record over where it frees the locker at once (R154). -/
theorem releaseLockerStep_keeps (hk : s.kind u = .locker) :
    Keeps (if s.releaseHands u then 1 else 0) s (releaseLockerStep s u).state := by
  have plain : ∀ {x}, Keeps 0 s x → Keeps (if s.releaseHands u then 1 else 0) s x := fun h => h.mono (Nat.zero_le _)
  have free : s.releaseHands u = true → Keeps (if s.releaseHands u then 1 else 0) s (freeForRelease s u).state :=
    fun h => by rw [if_pos h]; exact freeForRelease_keeps
  have hands : ¬(s.unit u).holder.isNone → s.inHand u = false →
      ((s.unit u).state = .ajar ∨ (((s.unit u).state = .forced ∨ (s.unit u).state = .serviceOpen) ∧
        ¬(s.cell u).bolt = true)) → s.releaseHands u = true := by
    intro h1 h2 h3
    simp only [Option.isNone_iff_eq_none, ← Option.isSome_iff_ne_none] at h1
    simpa [State.releaseHands, hk, h1, h2] using h3
  generalize (if s.releaseHands u then 1 else 0) = n at plain free ⊢
  unfold releaseLockerStep
  by_cases hn : (s.unit u).holder.isNone = true
  · rw [if_pos hn]
    exact plain (.refl s)
  · rw [if_neg hn]
    split
    · exact plain setPurpose_keeps
    · exact plain (.refl s)
    · exact plain (.refl s)
    · exact free (hands hn ‹_› (.inl ‹_›))
    · split_ifs with hb
      exacts [plain unlockForRelease_keeps, free (hands hn ‹_› (.inr ⟨.inl ‹_›, hb⟩))]
    · split_ifs with hb
      exacts [plain unlockForRelease_keeps, free (hands hn ‹_› (.inr ⟨.inr ‹_›, hb⟩))]
    · exact plain unlockForRelease_keeps

theorem releaseCabinStep_keeps : Keeps 0 s (releaseCabinStep s u).state := by
  unfold releaseCabinStep
  by_cases hn : (s.unit u).holder.isNone = true
  · rw [if_pos hn]
    exact .refl s
  · rw [if_neg hn]
    split
    · exact .refl s
    · split_ifs
      exacts [.refl s, postReleased_keeps.of (enter_keeps.of clearHolder_keeps)]
    · exact releaseCabin_keeps

theorem releaseOne_keeps : Keeps (if s.releaseHands u then 1 else 0) s (releaseOne s u) := by
  refine record_keeps ?_
  unfold releaseStep
  by_cases hk : s.kind u = .locker
  · rw [if_pos hk]
    exact releaseLockerStep_keeps hk
  · rw [if_neg hk]
    exact releaseCabinStep_keeps.mono (Nat.zero_le _)

theorem releaseOfBand_keeps :
    Keeps (if (s.unit u).holder = some d ∧ s.releaseHands u then 1 else 0) s (releaseOfBand s d u) := by
  unfold releaseOfBand
  by_cases h : (s.unit u).holder = some d
  · simpa [h] using releaseOne_keeps (s := s) (u := u)
  · rw [if_neg h]
    exact (record_keeps (.refl s)).mono (Nat.zero_le _)

/-- The step of OPEN_UNIT hands one record over where it takes a locker out of FAULT (R39, R157). -/
theorem openOne_keeps : Keeps (if (Action.openUnit u).hands s u then 1 else 0) s (openOne s u) := by
  refine record_keeps ?_
  have plain : ∀ {x}, Keeps 0 s x → Keeps (if (Action.openUnit u).hands s u then 1 else 0) s x :=
    fun h => h.mono (Nat.zero_le _)
  have locker : ¬(s.inHand u || (s.unit u).suspended || (s.unit u).state.transitional) = true →
      Keeps (if (Action.openUnit u).hands s u then 1 else 0) s (openLocker s u) := by
    intro h
    simp only [Bool.or_eq_true, not_or, Bool.not_eq_true] at h
    have he : (Action.openUnit u).hands s u = decide ((s.unit u).state = .fault ∧ s.returnHands u = true) := by
      simp [Action.hands, h.1.1, h.1.2]
    simpa [he] using openLocker_keeps (s := s) (u := u)
  generalize (if (Action.openUnit u).hands s u then 1 else 0) = n at plain locker ⊢
  unfold openStep
  dsimp only
  by_cases h : (s.inHand u || (s.unit u).suspended || (s.unit u).state.transitional) = true
  · rw [if_pos h]
    exact plain (.refl s)
  · rw [if_neg h]
    split
    · exact locker h
    · exact locker h
    · exact locker h
    · exact locker h
    · exact plain (handOver_keeps.of enter_keeps)
    · exact plain openFaultCabin_keeps
    · exact plain (.ite (fun _ => handOver_keeps) fun _ => .refl s)
    · exact plain (.refl s)

theorem clearOne_keeps : Keeps 0 s (clearOne s u) := by
  refine record_keeps ?_
  unfold clearStep
  dsimp only
  split_ifs
  exacts [.refl s, .refl s, enter_keeps, handOver_keeps.of enter_keeps]

theorem hands_releaseUnit (v : UnitIx) : (Action.releaseUnit v).hands s u = s.releaseHands u := rfl

theorem hands_releaseBand :
    (Action.releaseBand d).hands s u = decide ((s.unit u).holder = some d ∧ s.releaseHands u = true) := by
  simp [Action.hands]

/-- A repeated step hands one record over where the action says so (R24, R153). -/
theorem repeatStep_keeps : Keeps (if a.hands s u then 1 else 0) s (repeatStep s a u) := by
  cases a with
  | releaseUnit v => rw [hands_releaseUnit]; exact releaseOne_keeps
  | releaseBand d =>
    rw [hands_releaseBand]
    show Keeps _ s (releaseOfBand s d u)
    simpa using releaseOfBand_keeps (s := s) (u := u) (d := d)
  | openUnit v => exact openOne_keeps
  | clearEvacuation => exact clearOne_keeps.mono (Nat.zero_le _)
  | _ => exact (Keeps.refl s).mono (Nat.zero_le _)

theorem unhold_hands (h : HeldEvent) : a.hands (s.unhold h) u = a.hands s u := by cases a <;> rfl

/-- A step that is not held back either hands no record over or finds room for it (R24). -/
theorem stepHeld_room {st : Stage} (hst : st = .due ∨ st = .again) (hi : u ∈ r.unitsAt st)
    (h : r.stepHeld s u = false) : r.action.hands s u = false ∨ s.journalRoom = true := by
  have hany : (r.items.any fun i => i.unit = u && (i.stage = .due || i.stage = .again)) = true := by
    rw [mem_unitsAt] at hi
    exact List.any_eq_true.2 ⟨_, hi, by rcases hst with rfl | rfl <;> simp⟩
  simp only [Running.stepHeld, Running.stepHands, hany, Bool.true_and, State.holdsBack, Bool.and_eq_false_iff,
    Bool.or_eq_false_iff, Bool.not_eq_false'] at h
  exact h.imp id And.left

/-- A step that hands a record over as its action says, taken where it is not held back. -/
theorem step_safe {f : State → State} {st : Stage} (hst : st = .due ∨ st = .again) (hi : u ∈ r.unitsAt st)
    (h : r.stepHeld s.noteHeld u = false) (hf : ∀ m, Keeps (if r.action.hands m u then 1 else 0) m (f m)) :
    Safe s (pump (f (s.noteHeld.unhold (.step u)))) := by
  have hs : Keeps 0 s (s.noteHeld.unhold (.step u)) := unhold_keeps.of noteHeld_leaves
  have hk := pump_keeps.of ((hf _).on hs)
  rw [unhold_hands] at hk
  rcases stepHeld_room hst hi h with hn | hr
  · rw [if_neg (by simp [hn])] at hk
    exact hk.safe
  · exact (hk.mono (by split_ifs <;> decide)).safe_of_room hr

theorem releaseBandStep_safe : Safe s (releaseBandStep s) := by
  unfold releaseBandStep
  refine .ite (fun _ => .refl s) fun _ => ?_
  split
  · rename_i r _
    split
    · rename_i d hd
      refine .ite (fun _ => .refl s) fun _ => ?_
      dsimp only
      split
      · rename_i u hu
        simp only [Running.firstDue, Option.filter_eq_some_iff, Bool.not_eq_true'] at hu
        refine step_safe (f := fun m => releaseOfBand m d u) (.inl rfl) (List.mem_of_mem_head? hu.1) hu.2 fun m => ?_
        simpa [hd, Action.hands] using releaseOfBand_keeps (s := m) (u := u) (d := d)
      · exact noteHeld_leaves.safe
    · exact .refl s
  · exact .refl s

end Sys2Proof.Machine
end

section
namespace Sys2Proof.Machine

variable {s m t : State} {n : Nat} {u : UnitIx} {b : BankIx} {d : Band} {a : Action} {r : Running}

theorem stepRepeat_safe : Safe s (stepRepeat s) := by
  unfold stepRepeat
  refine .ite (fun _ => .refl s) fun _ => ?_
  split
  · rename_i r _
    refine .ite (fun _ => .refl s) fun _ => ?_
    dsimp only
    split
    · rename_i u hu
      have hh : r.stepHeld s.noteHeld u = false := by simpa using List.find?_some hu
      exact step_safe (f := fun m => repeatStep m r.action u) (.inr rfl) (List.mem_of_find?_eq_some hu) hh
        fun _ => repeatStep_keeps
    · exact noteHeld_leaves.safe
  · exact .refl s

theorem releaseUnitFirst_keeps (ha : a.unit? = some u) :
    Keeps (if a.hands s u then 1 else 0) s (releaseUnitFirst a s) := by
  unfold releaseUnitFirst
  cases a with
  | releaseUnit v =>
    obtain rfl : v = u := by simpa [Action.unit?] using ha
    have h : (listUnits s [v]).releaseHands v = s.releaseHands v := by
      unfold listUnits
      split <;> rfl
    have k := releaseOne_keeps (s := listUnits s [v]) (u := v)
    rw [h] at k
    rw [hands_releaseUnit]
    exact k.on listUnits_keeps
  | _ => exact (Keeps.refl s).mono (Nat.zero_le _)

theorem openUnitFirst_keeps (ha : a.unit? = some u) :
    Keeps (if a.hands s u then 1 else 0) s (openUnitFirst a s) := by
  unfold openUnitFirst
  cases a with
  | openUnit v =>
    obtain rfl : v = u := by simpa [Action.unit?] using ha
    have h : (Action.openUnit v).hands (listUnits s [v]) v = (Action.openUnit v).hands s v := by
      unfold listUnits
      split <;> rfl
    have k := openOne_keeps (s := listUnits s [v]) (u := v)
    rw [h] at k
    exact k.on listUnits_keeps
  | _ => exact (Keeps.refl s).mono (Nat.zero_le _)

theorem outOfServiceFirst_keeps (ha : a.unit? = some u) :
    Keeps (if a.hands s u then 1 else 0) s (outOfServiceFirst a s) := by
  unfold outOfServiceFirst
  cases a with
  | setOutOfService v =>
    obtain rfl : v = u := by simpa [Action.unit?] using ha
    have plain : ∀ {x}, Keeps 0 s x → Keeps (if (Action.setOutOfService v).hands s v then 1 else 0) s x :=
      fun h => h.mono (Nat.zero_le _)
    have hand : ¬(s.unit v).holder.isSome = true → (s.unit v).state = .free →
        ¬(s.inHand v || (s.unit v).suspended) = true → s.kind v = .locker →
        ∀ {x}, Keeps 1 s x → Keeps (if (Action.setOutOfService v).hands s v then 1 else 0) s x := by
      intro h1 h2 h3 h4 x h
      rwa [if_pos (by simp_all [Action.hands])]
    generalize (if (Action.setOutOfService v).hands s v then 1 else 0) = n at plain hand ⊢
    refine .ite (fun _ => plain endAction_keeps) fun hh => ?_
    split
    · refine .ite (fun _ => plain endAction_keeps) fun hi => endAction_keeps.of ?_
      exact .ite (fun hk => hand hh ‹_› hi hk (handJournal_keeps.on enter_keeps)) fun _ => plain enter_keeps
    · exact plain endAction_keeps
    · exact plain endAction_keeps
  | _ => exact (Keeps.refl s).mono (Nat.zero_le _)

/-- Returning the unit ends an action that hands a record over where a STATE stands (R39, R159). -/
theorem returnUnit_ends {p : Prop} [Decidable p] {x : Bool} (h : p → x = s.returnHands u) {why w2 : Result} :
    Keeps (if x then 1 else 0) s
      (if p then endAction (returnUnit s u) why 0 else endAction s w2 0) := by
  generalize hn : (if x then 1 else 0) = n
  refine .ite (fun hp => endAction_keeps.of ?_) fun _ => endAction_keeps.mono (Nat.zero_le _)
  rw [← hn, h hp]
  exact returnUnit_keeps

theorem returnFirst_keeps (ha : a.unit? = some u) : Keeps (if a.hands s u then 1 else 0) s (returnFirst a s) := by
  unfold returnFirst
  cases a with
  | returnToService v =>
    obtain rfl : v = u := by simpa [Action.unit?] using ha
    exact returnUnit_ends fun h => by simp [Action.hands, h]
  | _ => exact (Keeps.refl s).mono (Nat.zero_le _)

theorem clearFaultFirst_keeps (ha : a.unit? = some u) :
    Keeps (if a.hands s u then 1 else 0) s (clearFaultFirst a s) := by
  unfold clearFaultFirst
  cases a with
  | clearFault v =>
    obtain rfl : v = u := by simpa [Action.unit?] using ha
    exact returnUnit_ends fun h => by simp [Action.hands, h]
  | _ => exact (Keeps.refl s).mono (Nat.zero_le _)

theorem releaseBandFirst_keeps : Keeps 0 s (releaseBandFirst a s) := by
  unfold releaseBandFirst
  split
  · split
    exacts [endAction_keeps, listUnits_keeps]
  · exact .refl s

theorem extendFirst_keeps : Keeps 0 s (extendFirst a s) := by
  unfold extendFirst
  split
  · refine .ite (fun _ => .ite (fun _ => endAction_keeps) fun _ => ?_) fun _ => endAction_keeps
    exact endAction_keeps.of (modUnit_keeps.of (setTimes_keeps.of enter_keeps))
  · exact .refl s

theorem cleaningFirst_keeps : Keeps 0 s (cleaningFirst a s) := by
  unfold cleaningFirst
  split
  · refine endAction_keeps.of ?_
    exact .same rfl
  · exact .refl s

/-- An id joins the overlay where it has a place and is not in it (R10). -/
theorem overlay_append_keeps (hn : d ∉ s.engine.overlay) (hl : s.engine.overlay.length < Config.overlayPlaces) :
    Keeps 0 s { s with engine := { s.engine with overlay := s.engine.overlay ++ [d] } } where
  pending := rfl
  clock := rfl
  freeNext := rfl
  supply := rfl
  tables := rfl
  notices := id
  taps := id
  overlay h := ⟨by simpa using hl, h.2.append (List.nodup_singleton d) (by simpa using hn)⟩
  queue := le_rfl

theorem blockFirst_keeps : Keeps 0 s (blockFirst a s) := by
  unfold blockFirst
  split
  · refine .ite (fun _ => endAction_keeps) fun hn => .ite (fun hl => endAction_keeps.of ?_) fun _ => endAction_keeps
    exact overlay_append_keeps (by simp_all) hl
  · exact .refl s

theorem reloadFirst_keeps : Keeps 0 s (reloadFirst a s) := by
  unfold reloadFirst
  split
  exacts [.same rfl, .refl s]

theorem resetBankFirst_keeps : Keeps 0 s (resetBankFirst a s) := by
  unfold resetBankFirst
  split
  · exact .ite (fun _ => endAction_keeps) fun _ => enterResetting_keeps
  · exact .refl s

theorem clearEvacuationFirst_keeps : Keeps 0 s (clearEvacuationFirst a s) := by
  unfold clearEvacuationFirst
  split
  · exact .ite (fun _ => endAction_keeps.of setFollow_keeps) fun _ => listUnits_keeps.of setFollow_keeps
  · exact .refl s

theorem moveToRunning_hands : a.hands (moveToRunning s a) u = a.hands s u := by cases a <;> rfl

theorem firstHands_eq {u : UnitIx} (h : a.unit? = some u) : a.firstHands s = (a.passes s && a.hands s u) := by
  simp [Action.firstHands, h]

/-- What an acceptance keeps, where its first step hands a record over only as the action says (R24, R150). -/
theorem accept_safe {k : Nat} {first : Action → State → State}
    (hf : ∀ a m, a.code = k → ∃ n, Keeps n m (first a m) ∧ n ≤ 1 ∧
      (n = 0 ∨ ∃ u, a.unit? = some u ∧ n = if a.hands m u then 1 else 0)) :
    Safe s (accept s k first) := by
  unfold accept
  split
  · exact .refl s
  · rename_i a _
    refine .ite (fun hc => ?_) fun _ => .ite (fun _ => noteHeld_leaves.safe) fun _ => .refl s
    simp only [Bool.and_eq_true, decide_eq_true_eq] at hc
    have hm : Keeps 0 s (moveToRunning s a) := .same rfl
    dsimp only
    refine Safe.of pump_keeps.safe (.ite (fun hp => ?_) fun _ => (endAction_keeps.of hm).safe)
    obtain ⟨n, hn, hn1, h0⟩ := hf a (moveToRunning s a) hc.1
    have hk := hn.on hm
    rcases h0 with rfl | ⟨u, hu, rfl⟩
    · exact hk.safe
    · rw [moveToRunning_hands] at hk
      by_cases hh : a.hands s u = true
      · have hr : s.journalRoom = true := by
          have := hc.2
          simp only [State.acceptable, firstHands_eq hu, hp, hh, State.holdsBack] at this
          simp_all
        exact (hk.mono (by split_ifs; decide)).safe_of_room hr
      · rw [if_neg hh] at hk
        exact hk.safe

/-- An acceptance whose first step hands no record over. -/
theorem accept_safe_plain {k : Nat} {first : Action → State → State} (hf : ∀ a m, Keeps 0 m (first a m)) :
    Safe s (accept s k first) :=
  accept_safe fun a m _ => ⟨0, hf a m, Nat.zero_le _, .inl rfl⟩

/-- An acceptance whose first step hands a record over as the action says of the unit it names. -/
theorem accept_safe_unit {k : Nat} {first : Action → State → State} (hk : ∀ a : Action, a.code = k → a.unit?.isSome)
    (hf : ∀ {a : Action} {m : State} {u : UnitIx}, a.unit? = some u → Keeps (if a.hands m u then 1 else 0) m (first a m)) :
    Safe s (accept s k first) :=
  accept_safe fun a m ha => by
    obtain ⟨u, hu⟩ := Option.isSome_iff_exists.1 (hk a ha)
    exact ⟨_, hf hu, by split_ifs; exacts [le_rfl, Nat.zero_le _], .inr ⟨u, hu, rfl⟩⟩

theorem resetBankDone_keeps : Keeps 0 s (resetBankDone s) := by
  unfold resetBankDone
  refine .ite (fun _ => .refl s) fun _ => ?_
  split
  · split
    · split
      · exact endAction_keeps.of setInbox_keeps
      · exact .refl s
    · exact .refl s
  · exact .refl s

theorem clearEvacuationStep_keeps : Keeps 0 s (clearEvacuationStep s) := by
  unfold clearEvacuationStep
  refine .ite (fun _ => .refl s) fun _ => ?_
  split
  · split
    · exact clearOne_keeps
    · exact .refl s
  · exact .refl s

theorem actionOutcome_keeps : Keeps 0 s (actionOutcome s) := by
  unfold actionOutcome
  refine .ite (fun _ => .refl s) fun _ => ?_
  split
  · split
    · exact record_keeps (.refl s)
    · exact .refl s
  · exact .refl s

/-! ### The write port and the store commands -/

theorem advanceSlot_keeps : Keeps 0 s (advanceSlot s) := (advanceSlot_quiet s).keeps

theorem writeOver_keeps {x : Turn} : Keeps 0 s (writeOver s x) := advanceSlot_keeps.of (.same rfl)

theorem scanOn_keeps : Keeps 0 s (scanOn s) := by
  unfold scanOn
  split
  exacts [.same rfl, .refl s]

theorem journalBodyEnd_keeps : Keeps 0 s (journalBodyEnd s) := by
  unfold journalBodyEnd
  split
  · split
    · exact .ite (fun _ => scanOn_keeps.of writeOver_keeps) fun _ => .same rfl
    · exact .same rfl
  · exact .refl s

theorem setRef_keeps {q : QRec} {x : Ref} : Keeps 0 s (setRef s q x) := by
  unfold setRef
  refine .ite (fun _ => .refl s) fun _ => ?_
  split
  exacts [modUnit_keeps, .refl s, .refl s, modUnit_keeps]

theorem moveRef_keeps {k cancel : Bool} {x y : Ref} : Keeps 0 s (moveRef s u k x y cancel) :=
  .ite (fun _ => .refl s) fun _ => .ite (fun _ => modUnit_keeps) fun _ => modUnit_keeps

theorem headerValid_keeps {g : Nat} : Keeps 0 s (headerValid s g) := by
  refine .ite (fun _ => hand_keeps.of ?_) fun _ => ?_
  all_goals exact .same rfl

/-- The record at the head of the Journal Queue leaves it (R117). -/
theorem dequeue_keeps {q : QRec} {rest : List QRec} (h : s.journal.queue = q :: rest) :
    Keeps 0 s (s.setJournal { s.journal with queue := rest }) :=
  ⟨⟨rfl, rfl, rfl, rfl, rfl, id, id, id⟩, by simp [h]⟩

theorem setRef_journal {q : QRec} {x : Ref} : (setRef s q x).journal = s.journal := by
  unfold setRef
  split_ifs
  · rfl
  · split <;> rfl

/-- What waits for room takes its place before the record written leaves the queue (R24). -/
theorem noteFor_keeps : Keeps 0 s (if s.journalRoom then s else s.noteHeld) :=
  .ite (fun _ => .refl s) fun _ => noteHeld_leaves

theorem noteFor_journal : (if s.journalRoom then s else s.noteHeld).journal = s.journal := by split_ifs <;> rfl

theorem journalValidEnd_keeps : Keeps 0 s (journalValidEnd s) := by
  unfold journalValidEnd
  split
  · split
    · split
      · rename_i q rest hq
        dsimp only
        refine writeOver_keeps.of ?_
        have h : ∀ x, Keeps 0 s ((setRef (if s.journalRoom then s else s.noteHeld) q x).setJournal
            { (setRef (if s.journalRoom then s else s.noteHeld) q x).journal with queue := rest }) := fun x =>
          (dequeue_keeps (q := q) (by rw [setRef_journal, noteFor_journal, hq])).of (setRef_keeps.of noteFor_keeps)
        simp only [setRef_journal, noteFor_journal] at h
        exact h _
      · exact writeOver_keeps
    · exact scanOn_keeps.of (writeOver_keeps.of moveRef_keeps)
    · exact headerValid_keeps
  · exact .refl s

theorem endBody_keeps {p : Program} : Keeps 0 s (endBody s p) := by
  unfold endBody
  dsimp only
  split
  · exact journalBodyEnd_keeps.of (.same rfl)
  · exact .same rfl
  · exact .same rfl

theorem endValid_keeps {p : Program} : Keeps 0 s (endValid s p) := by
  unfold endValid
  dsimp only
  split
  · exact journalValidEnd_keeps.of (.same rfl)
  · exact post_keeps.of (.same rfl)
  · exact .same rfl

theorem endRetired_keeps {p : Program} : Keeps 0 s (endRetired s p) := .same rfl

theorem programEnd_keeps {k : ProgKind} {f : State → Program → State} (hf : ∀ p, Keeps 0 s (f s p)) :
    Keeps 0 s (programEnd s k f) := by
  unfold programEnd
  split
  · exact .ite (fun _ => pump_keeps.of (hf _)) fun _ => .refl s
  · exact .refl s

theorem reclaimDone_keeps {g : Nat} : Keeps 0 s (reclaimDone s g) := by
  unfold reclaimDone
  dsimp only
  split
  · refine .ite (fun _ => (openNext_quiet _ _).keeps.of ?_) fun _ => ?_
    all_goals exact .same rfl
  · exact .same rfl

theorem listErased_keeps {g : Nat} : Keeps 0 s (listErased s g) := by
  unfold listErased
  dsimp only
  split
  · exact .same rfl
  · exact post_keeps.of (.same rfl)

theorem eraseProperEnd_keeps : Keeps 0 s (eraseProperEnd s) := by
  unfold eraseProperEnd
  split
  · refine .ite (fun _ => pump_keeps.of ?_) fun _ => .refl s
    refine .ite (fun _ => .ite (fun _ => reclaimDone_keeps.of ?_) fun _ => ?_) fun _ => listErased_keeps.of ?_
    all_goals exact .same rfl
  · exact .refl s

theorem eraseSuspended_keeps : Keeps 0 s (eraseSuspended s) := by
  unfold eraseSuspended
  split
  · exact .ite (fun _ => pump_keeps.of (.same rfl)) fun _ => .refl s
  · exact .refl s

theorem stepExpiry_keeps : Keeps 0 s (stepExpiry s) := .ite (fun _ => .same rfl) fun _ => .refl s

theorem windowExpiry_keeps : Keeps 0 s (windowExpiry s) := by
  refine .ite (fun _ => pump_keeps.of ?_) fun _ => .refl s
  refine .ite (fun _ => ?_) fun _ => ?_
  all_goals exact .same rfl

theorem guardedProgramDone_keeps : Keeps 0 s (guardedProgramDone s) := by
  unfold guardedProgramDone
  split
  · exact .ite (fun _ => post_keeps.of (.same rfl)) fun _ => .refl s
  · exact .refl s

theorem guardedEraseDone_keeps : Keeps 0 s (guardedEraseDone s) :=
  .ite (fun _ => post_keeps.of (.same rfl)) fun _ => .refl s

end Sys2Proof.Machine
end

section
namespace Sys2Proof.Machine

variable {s m t : State} {n : Nat} {u : UnitIx} {b : BankIx}

/-! ### The site line -/

theorem sendReply_keeps {k : Byte} {a : Answer} : Keeps 0 s (sendReply s k a) := .same rfl

/-- A frame is handled whole in its event (R166). -/
theorem takeFrame_keeps {k : Byte} {f : Sys2Proof.Frame} {handle : State → List Byte → State × Answer}
    (h : ∀ m p, Keeps 0 m (handle m p).1) : Keeps 0 s (takeFrame s k f handle) :=
  .ite (fun _ => .refl s) fun _ => .ite (fun _ => .same rfl) fun _ =>
    .ite (fun _ => sendReply_keeps.of ((h _ _).of (.same rfl))) fun _ => .same rfl

theorem withLength_keeps {k : Nat} {handle : State → List Byte → State × Answer}
    (h : ∀ m p, Keeps 0 m (handle m p).1) (m : State) (p : List Byte) : Keeps 0 m (withLength k handle m p).1 := by
  unfold withLength
  split_ifs
  exacts [h m p, .refl m]

theorem readOnly_keeps {read : State → List Byte → Answer} (m : State) (p : List Byte) :
    Keeps 0 m (readOnly read m p).1 := .refl m

/-- A fresh STATUS-REPLY takes the notices it carries (R169). -/
theorem freshPoll_keeps : Keeps 0 s (freshPoll s).1 where
  pending := rfl
  clock := rfl
  freeNext := rfl
  supply := rfl
  tables := rfl
  notices h := by
    simp only [NoticesOk, freshPoll, List.length_drop] at h ⊢
    omega
  taps := id
  overlay := id
  queue := le_rfl

theorem handlePoll_keeps (m : State) (p : List Byte) : Keeps 0 m (handlePoll m p).1 := by
  unfold handlePoll
  split
  exacts [freshPoll_keeps, freshPoll_keeps, .refl m, .refl m]

theorem Keeps.itePair {α : Type} {c : Prop} [Decidable c] {x y : State × α} (h : c → Keeps n s x.1)
    (k : ¬c → Keeps n s y.1) : Keeps n s (if c then x else y).1 := by
  split_ifs with hc
  exacts [h hc, k hc]

theorem handleAction_keeps (m : State) (p : List Byte) : Keeps 0 m (handleAction m p).1 := by
  unfold handleAction
  refine .itePair (fun _ => .refl m) fun _ => .itePair (fun _ => .refl m) fun _ => .itePair (fun _ => .refl m)
    fun _ => .itePair (fun _ => .refl m) fun _ => ?_
  split
  · exact .refl m
  · exact .itePair (fun _ => .refl m) fun _ => .same rfl

theorem handleCancel_keeps (m : State) (p : List Byte) : Keeps 0 m (handleCancel m p).1 := by
  unfold handleCancel
  split
  exacts [.same rfl, .refl m, .refl m]

theorem handleLamp_keeps (m : State) (p : List Byte) : Keeps 0 m (handleLamp m p).1 := by
  unfold handleLamp
  split
  · split_ifs
    exacts [transient_keeps, .refl m]
  · exact .refl m

theorem handleRestart_keeps (m : State) (p : List Byte) : Keeps 0 m (handleRestart m p).1 := by
  unfold handleRestart
  split_ifs
  exacts [.refl m, .same rfl]

theorem storeWrite_keeps {w : StoreWrite} : Keeps 0 s (storeWrite s w).1 := by
  unfold storeWrite
  split
  case h_1 | h_3 => split_ifs <;> exact .same rfl
  all_goals exact .same rfl

theorem takeStore_keeps {w : StoreWrite} : Keeps 0 s (takeStore s w).1 := by
  unfold takeStore
  split_ifs
  · exact .refl s
  · exact .ite (fun _ => pump_keeps.of storeWrite_keeps) fun _ => storeWrite_keeps

theorem handleUnlock1_keeps (m : State) (p : List Byte) : Keeps 0 m (handleUnlock1 m p).1 := by
  unfold handleUnlock1
  split_ifs
  exacts [.refl m, takeStore_keeps]

theorem handleUnlock2_keeps (m : State) (p : List Byte) : Keeps 0 m (handleUnlock2 m p).1 := by
  unfold handleUnlock2
  split_ifs
  exacts [.refl m, takeStore_keeps]

theorem handleProgram_keeps (m : State) (p : List Byte) : Keeps 0 m (handleProgram m p).1 := by
  unfold handleProgram
  dsimp only
  split_ifs
  exacts [.refl m, .refl m, .refl m, takeStore_keeps]

theorem handleErase_keeps (m : State) (p : List Byte) : Keeps 0 m (handleErase m p).1 := by
  unfold handleErase
  dsimp only
  split_ifs
  exacts [.refl m, .refl m, .refl m, takeStore_keeps]

theorem handleClear_keeps (m : State) (p : List Byte) : Keeps 0 m (handleClear m p).1 := by
  unfold handleClear
  split_ifs
  exacts [.refl m, takeStore_keeps]

theorem handleStatus_keeps (m : State) (p : List Byte) : Keeps 0 m (handleStatus m p).1 := .same rfl

/-! ### Loads -/

theorem replaceBank_keeps {old : Tables} : Keeps 0 s (replaceBank old s b) :=
  .ite (fun _ => enterResetting_keeps) fun _ => .ite (fun _ => makeAbsent_keeps) fun _ =>
    .ite (fun _ => modBank_keeps) fun _ => .refl s

theorem reportLoad_keeps {k : LoadCause} {r : LoadResult} {x : Built} {c : Option UnitIx} :
    Keeps 0 s (reportLoad s k r x c) := post_keeps.of (.same rfl)

/-- A change of the fields without bounds here, with the overlay emptied. -/
theorem Keeps.overlayEmptied (ho : t.engine.overlay = [])
    (h : (t.pending, t.clock, t.freeNext, t.supply, t.tables, t.notices, t.taps, t.journal.queue) =
      (s.pending, s.clock, s.freeNext, s.supply, s.tables, s.notices, s.taps, s.journal.queue)) : Keeps 0 s t := by
  simp only [Prod.mk.injEq] at h
  obtain ⟨hp, hc, hf, hs, ht, hn, hq, hj⟩ := h
  exact ⟨⟨hp, hc, hf, hs, ht, by simp [NoticesOk, hn], by simp [TapsOk, hq], fun _ => by simp [OverlayOk, ho]⟩,
    by simp [hj]⟩

/-- A replacement puts the new set in force, and keeps the rest (R16). -/
theorem replaceSet_keeps {new : Tables} : Keeps 0 { s with tables := new } (replaceSet s new) := by
  have h : ∀ v l (e : Engine), e.overlay = [] → Keeps 0 { s with tables := new }
      { s with tables := new, units := v, timers := l, engine := e } := fun v l e he => .overlayEmptied he rfl
  refine setInbox_keeps.of ((Keeps.foldl _ (fun _ _ => replaceBank_keeps) _).of ?_)
  dsimp only [freshUnits]
  exact h _ _ _ rfl

theorem firstSet_keeps {new : Tables} : Keeps 0 { s with tables := new } (firstSet s new) := by
  have h : ∀ v, Keeps 0 { s with tables := new }
      { s with tables := new, units := v, bands := [], timers := [], drive := ⟨[], [], [], []⟩,
               engine := { s.engine with overlay := [] } } := fun v => .overlayEmptied rfl rfl
  exact h _

/-- A load that is judged leaves the set in force, or puts in force the set it built. -/
theorem judgeLoad_keeps {k : LoadCause} {x : Built} :
    ∃ new, (new = s.tables ∨ new = x.tables) ∧ Keeps 0 { s with tables := new } (judgeLoad s k x).1 := by
  unfold judgeLoad
  split
  · exact ⟨s.tables, .inl rfl, reportLoad_keeps⟩
  · exact ⟨x.tables, .inr rfl, reportLoad_keeps.of replaceSet_keeps⟩

theorem restartBanks_keeps : Keeps 0 s (restartBanks s) := by
  have h : Keeps 0 s (allBanks.foldl
      (fun t b => if 0 < (t.bankRec b).nodeCount then enterResetting t b else makeAbsent t b) s) :=
    Keeps.foldl _ (fun _ _ => .ite (fun _ => enterResetting_keeps) fun _ => makeAbsent_keeps) s
  unfold restartBanks
  generalize allBanks.foldl _ s = m at h
  exact h.after (.same rfl)

/-- The set a load other than the cold one builds carries the option values (R2). -/
theorem built_options {k : LoadCause} (h : k ≠ .cold) : (s.built k).tables.options = s.tables.options := by
  unfold State.built
  dsimp only
  rw [if_neg h]
  rfl

/-- The end of a load puts a set in force, of the same option values but at the cold load (R2, R13). -/
theorem loadEnd_keeps :
    ∃ new, (s.load ≠ some .cold → new.options = s.tables.options) ∧ Keeps 0 { s with tables := new } (loadEnd s) := by
  have judged : ∀ k ≠ LoadCause.cold, ∃ new : Tables, new.options = s.tables.options ∧
      Keeps 0 { s with tables := new } (judgeLoad s k (s.built k)).1 := by
    intro k hk
    obtain ⟨new, hn, h⟩ := judgeLoad_keeps (s := s) (k := k) (x := s.built k)
    refine ⟨new, ?_, h⟩
    rcases hn with rfl | rfl
    exacts [rfl, built_options hk]
  unfold loadEnd
  split
  · exact ⟨s.tables, fun _ => rfl, .refl s⟩
  · rename_i hl
    refine ⟨(s.built .cold).tables, fun h => absurd hl h, pump_keeps.of ?_⟩
    have h := (reportLoad_keeps (k := .cold) (r := (s.built .cold).cuts.result) (x := s.built .cold) (c := none)).of
      (firstSet_keeps (s := s) (new := (s.built .cold).tables))
    exact h.after (.same rfl)
  · obtain ⟨new, hn, h⟩ := judged .warm (by decide)
    exact ⟨new, fun _ => hn, pump_keeps.of (restartBanks_keeps.of h)⟩
  · obtain ⟨new, hn, h⟩ := judged .reload (by decide)
    exact ⟨new, fun _ => hn, pump_keeps.of (endAction_keeps.of h)⟩

/-! ### Start-up and restart -/

theorem deassert_keeps {rate : Bool} {addr : BitVec 5} : Keeps 0 s (deassert s rate addr) :=
  .ite (fun _ => .same rfl) fun _ => .refl s

/-- Replay leaves the Journal Queue empty (R126). -/
theorem replay_keeps : Keeps 0 s (replay s) := by
  unfold replay
  refine .ite (fun _ => .refl s) fun _ => ?_
  dsimp only
  refine pump_keeps.of ((Keeps.foldl _ (fun _ _ => .ite (fun _ => enterResetting_keeps) fun _ => .refl _) _).of ?_)
  have h : ∀ v l, Keeps 0 s { s with units := v, bands := l, journal := s.replayedJournal, startUp := .running } :=
    fun v l => ⟨⟨rfl, rfl, rfl, rfl, rfl, id, id, id⟩, Nat.zero_le _⟩
  split
  · exact .ite (fun _ => (openNext_quiet _ _).keeps.of (h _ _)) fun _ => h _ _
  · exact h _ _

theorem quiesce_keeps : Keeps 0 s (quiesce s) := .ite (fun _ => .same rfl) fun _ => .refl s
theorem drained_keeps : Keeps 0 s (drained s) := .ite (fun _ => .same rfl) fun _ => .refl s

theorem abortPending_keeps : Keeps 0 s (abortPending s) := by
  unfold abortPending
  split
  · exact .refl s
  · exact post_keeps.of (.same rfl)

theorem clearing_keeps : Keeps 0 s (clearing s) := by
  have h : ∀ k v x i, Keeps 0 s { s with
      taps := ⟨[], Vector.replicate 8 0⟩, banks := k, units := v, drive := x
      engine := { s.engine with inbox := i, held := [], arrived := [], tapAhead := false } } := fun k v x i =>
    .sameBut rfl fun _ => by
      show 0 + (Vector.replicate 8 0).toList.sum ≤ 32
      decide
  exact abortPending_keeps.of (endAction_keeps.of ((Keeps.foldl _ (fun _ _ => followUp_keeps) _).of (h _ _ _ _)))

theorem settle_keeps : Keeps 0 s (settle s) := by
  have h : Keeps 0 s (clearing { s with mgmt := s.mgmt.settled }) := clearing_keeps.of (.same rfl)
  exact .ite (fun _ => h.after (.same rfl)) fun _ => .refl s

/-! ### The site line's own events -/

theorem lineQuiet_keeps : Keeps 0 s (lineQuiet s) := .ite (fun _ => .same rfl) fun _ => .refl s
theorem startByte_keeps : Keeps 0 s (startByte s) := .ite (fun _ => .same rfl) fun _ => .refl s
theorem frameAbandon_keeps : Keeps 0 s (frameAbandon s) := .ite (fun _ => .same rfl) fun _ => .refl s
theorem replySent_keeps : Keeps 0 s (replySent s) := .ite (fun _ => .same rfl) fun _ => .refl s

/-- A frame for another station, or one that fails its check, is dropped (R165). -/
theorem frameDiscard_safe (kind : Byte) (f : Frame) : ∃ t, execFrameDiscard kind f s = .next t ∧ Safe s t :=
  ⟨_, rfl, .ite (fun _ => Keeps.safe (.same rfl)) fun _ => .refl s⟩

/-! ### The commands -/

theorem Action.unit?_isSome_of_code (a : Action) (h : a.code ∈ [1, 3, 4, 5, 6, 7]) : a.unit?.isSome := by
  cases a with
  | releaseUnit | openUnit | setOutOfService | returnToService | clearFault | extendCabin => rfl
  | _ => simp [Action.code] at h

/-- What every command but a cold start, a loss of supply and the end of a load keeps. -/
theorem exec_safe (i : Instr) (s : State) (h1 : i ≠ .coldStart) (h2 : i ≠ .supplyLoss) (h3 : i ≠ .tableLoadEnd) :
    ∃ t, exec i s = .next t ∧ Safe s t := by
  cases i with
  | coldStart => exact absurd rfl h1
  | supplyLoss => exact absurd rfl h2
  | tableLoadEnd => exact absurd rfl h3
  | resetDeasserted => exact ⟨_, rfl, deassert_keeps.safe⟩
  | journalReplay => exact ⟨_, rfl, replay_keeps.safe⟩
  | evacuateDebounced => exact ⟨_, rfl, evacuateChange_keeps.safe⟩
  | serviceKeyDebounced => exact ⟨_, rfl, serviceKeyChange_keeps.safe⟩
  | evacuationStart => exact ⟨_, rfl, (takeChange_keeps fun _ => startEvacuation_keeps).safe⟩
  | evacuationEnd => exact ⟨_, rfl, (takeChange_keeps fun _ => endEvacuation_keeps).safe⟩
  | lineQuiet => exact ⟨_, rfl, lineQuiet_keeps.safe⟩
  | startByte => exact ⟨_, rfl, startByte_keeps.safe⟩
  | frameAbandon => exact ⟨_, rfl, frameAbandon_keeps.safe⟩
  | frameDiscard kind f => exact frameDiscard_safe kind f
  | replySent => exact ⟨_, rfl, replySent_keeps.safe⟩
  | unknownKind =>
    exact ⟨_, rfl, (Keeps.ite (fun _ => .refl s) fun _ => takeFrame_keeps fun m _ => .refl m).safe⟩
  | poll => exact ⟨_, rfl, (takeFrame_keeps (withLength_keeps handlePoll_keeps)).safe⟩
  | readUnit => exact ⟨_, rfl, (takeFrame_keeps (withLength_keeps readOnly_keeps)).safe⟩
  | readBand => exact ⟨_, rfl, (takeFrame_keeps (withLength_keeps readOnly_keeps)).safe⟩
  | readZone => exact ⟨_, rfl, (takeFrame_keeps (withLength_keeps readOnly_keeps)).safe⟩
  | readTable => exact ⟨_, rfl, (takeFrame_keeps (withLength_keeps readOnly_keeps)).safe⟩
  | action => exact ⟨_, rfl, (takeFrame_keeps handleAction_keeps).safe⟩
  | cancel => exact ⟨_, rfl, (takeFrame_keeps (withLength_keeps handleCancel_keeps)).safe⟩
  | lamp => exact ⟨_, rfl, (takeFrame_keeps (withLength_keeps handleLamp_keeps)).safe⟩
  | restart => exact ⟨_, rfl, (takeFrame_keeps (withLength_keeps handleRestart_keeps)).safe⟩
  | storeUnlock1 => exact ⟨_, rfl, (takeFrame_keeps handleUnlock1_keeps).safe⟩
  | storeUnlock2 => exact ⟨_, rfl, (takeFrame_keeps handleUnlock2_keeps).safe⟩
  | storeProgram => exact ⟨_, rfl, (takeFrame_keeps handleProgram_keeps).safe⟩
  | storeErase => exact ⟨_, rfl, (takeFrame_keeps handleErase_keeps).safe⟩
  | storeClear => exact ⟨_, rfl, (takeFrame_keeps handleClear_keeps).safe⟩
  | storeStatus => exact ⟨_, rfl, (takeFrame_keeps (withLength_keeps handleStatus_keeps)).safe⟩
  | storeRead => exact ⟨_, rfl, (takeFrame_keeps (withLength_keeps readOnly_keeps)).safe⟩
  | stepTimerExpiry => exact ⟨_, rfl, stepExpiry_keeps.safe⟩
  | eraseWindowExpiry => exact ⟨_, rfl, windowExpiry_keeps.safe⟩
  | protectedProgramDone => exact ⟨_, rfl, guardedProgramDone_keeps.safe⟩
  | protectedEraseDone => exact ⟨_, rfl, guardedEraseDone_keeps.safe⟩
  | bodyProgramEnd => exact ⟨_, rfl, (programEnd_keeps fun _ => endBody_keeps).safe⟩
  | validMarkProgramEnd => exact ⟨_, rfl, (programEnd_keeps fun _ => endValid_keeps).safe⟩
  | retiredMarkProgramEnd => exact ⟨_, rfl, (programEnd_keeps fun _ => endRetired_keeps).safe⟩
  | eraseProperEnd => exact ⟨_, rfl, eraseProperEnd_keeps.safe⟩
  | eraseSuspended => exact ⟨_, rfl, eraseSuspended_keeps.safe⟩
  | statusCycleDue => exact ⟨_, rfl, statusDue_keeps.safe⟩
  | statusModePassEnd => exact ⟨_, rfl, statusModeEnd_keeps.safe⟩
  | statusDataPassEnd => exact ⟨_, rfl, statusDataEnd_keeps.safe⟩
  | tapReserve => exact ⟨_, rfl, reserve_keeps.safe⟩
  | fetchModePassEnd => exact ⟨_, rfl, fetchModeEnd_keeps.safe⟩
  | fetchDataPassEnd => exact ⟨_, rfl, fetchDataEnd_keeps.safe⟩
  | tapPlace => exact ⟨_, rfl, place_keeps.safe⟩
  | tapRelease => exact ⟨_, rfl, release_keeps.safe⟩
  | bankResetEnd => exact ⟨_, rfl, resetEnd_keeps.safe⟩
  | enumerationPassEnd => exact ⟨_, rfl, enumerationEnd_keeps.safe⟩
  | bankRetry => exact ⟨_, rfl, retry_keeps.safe⟩
  | nodeRead => exact ⟨_, rfl, (Keeps.ite (fun _ => .refl s) fun _ => modNode_keeps).safe⟩
  | nodeStallReturn => exact ⟨_, rfl, modNode_keeps.safe⟩
  | nodePulseEnd => exact ⟨_, rfl, modNode_keeps.safe⟩
  | pulseEnd => exact ⟨_, rfl, endPulse_keeps.safe⟩
  | takeTap => exact ⟨_, rfl, takeTap_safe⟩
  | observation => exact ⟨_, rfl, observation_keeps.safe⟩
  | reconcile => exact ⟨_, rfl, reconcile_safe⟩
  | verifyResult => exact ⟨_, rfl, verifyResult_safe⟩
  | faultReport => exact ⟨_, rfl, faultReport_safe⟩
  | actuationRemoved => exact ⟨_, rfl, actuationRemoved_keeps.safe⟩
  | throwDisplaced => exact ⟨_, rfl, throwDisplaced_keeps.safe⟩
  | journalStallReport => exact ⟨_, rfl, stallReport_keeps.safe⟩
  | warning => exact ⟨_, rfl, warningDue_keeps.safe⟩
  | expiry => exact ⟨_, rfl, expiryDue_keeps.safe⟩
  | graceEnd => exact ⟨_, rfl, graceEndDue_keeps.safe⟩
  | ajarIdle => exact ⟨_, rfl, ajarIdleDue_safe⟩
  | releaseUnit =>
    exact ⟨_, rfl, accept_safe_unit (fun a h => a.unit?_isSome_of_code (by simp [h])) releaseUnitFirst_keeps⟩
  | releaseBand => exact ⟨_, rfl, accept_safe_plain fun _ _ => releaseBandFirst_keeps⟩
  | releaseBandStep => exact ⟨_, rfl, releaseBandStep_safe⟩
  | openUnit => exact ⟨_, rfl, accept_safe_unit (fun a h => a.unit?_isSome_of_code (by simp [h])) openUnitFirst_keeps⟩
  | setOutOfService =>
    exact ⟨_, rfl, accept_safe_unit (fun a h => a.unit?_isSome_of_code (by simp [h])) outOfServiceFirst_keeps⟩
  | returnToService =>
    exact ⟨_, rfl, accept_safe_unit (fun a h => a.unit?_isSome_of_code (by simp [h])) returnFirst_keeps⟩
  | clearFault => exact ⟨_, rfl, accept_safe_unit (fun a h => a.unit?_isSome_of_code (by simp [h])) clearFaultFirst_keeps⟩
  | extendCabin => exact ⟨_, rfl, accept_safe_plain fun _ _ => extendFirst_keeps⟩
  | bankCleaning => exact ⟨_, rfl, accept_safe_plain fun _ _ => cleaningFirst_keeps⟩
  | blockBand => exact ⟨_, rfl, accept_safe_plain fun _ _ => blockFirst_keeps⟩
  | reloadTables => exact ⟨_, rfl, accept_safe_plain fun _ _ => reloadFirst_keeps⟩
  | resetBank => exact ⟨_, rfl, accept_safe_plain fun _ _ => resetBankFirst_keeps⟩
  | resetBankDone => exact ⟨_, rfl, resetBankDone_keeps.safe⟩
  | clearEvacuation => exact ⟨_, rfl, accept_safe_plain fun _ _ => clearEvacuationFirst_keeps⟩
  | clearEvacuationStep => exact ⟨_, rfl, clearEvacuationStep_keeps.safe⟩
  | actionStepRepeat => exact ⟨_, rfl, stepRepeat_safe⟩
  | actionOutcome => exact ⟨_, rfl, actionOutcome_keeps.safe⟩
  | restartQuiesced => exact ⟨_, rfl, quiesce_keeps.safe⟩
  | restartJournalDrained => exact ⟨_, rfl, drained_keeps.safe⟩
  | restartStoreSettled => exact ⟨_, rfl, settle_keeps.safe⟩
  | nodeSensorChange => exact ⟨_, rfl, modNode_keeps.safe⟩
  | nodePowerUp => exact ⟨_, rfl, nodeUp_keeps.safe⟩

end Sys2Proof.Machine
end

section
namespace Sys2Proof.Machine

/-! ### The bounds of every step (R10, R102, R116, R171) -/

/-- A cold start and a loss of supply leave every queue and list empty (R180). -/
theorem coldState_bounds (s : State) (supply : Bool) :
    NoticesOk (coldState s supply) ∧ TapsOk (coldState s supply) ∧ JournalQueueOk (coldState s supply) ∧
      OverlayOk (coldState s supply) := by
  refine ⟨Nat.zero_le _, ?_, Nat.zero_le _, Nat.zero_le _, List.nodup_nil⟩
  show 0 + (Vector.replicate 8 0).toList.sum ≤ 32
  decide

/-- The bounds of one state that another keeps. -/
def KeepsBounds (s t : State) : Prop :=
  (NoticesOk s → NoticesOk t) ∧ (TapsOk s → TapsOk t) ∧ (JournalQueueOk s → JournalQueueOk t) ∧
    (OverlayOk s → OverlayOk t)

theorem Safe.keepsBounds {s t : State} (h : Safe s t) : KeepsBounds s t := ⟨h.notices, h.taps, h.queue, h.overlay⟩

theorem coldState_keepsBounds (s m : State) (supply : Bool) : KeepsBounds m (coldState s supply) := by
  obtain ⟨hn, ht, hj, ho⟩ := coldState_bounds s supply
  exact ⟨fun _ => hn, fun _ => ht, fun _ => hj, fun _ => ho⟩

theorem loadEnd_keepsBounds (s : State) : KeepsBounds s (loadEnd s) := by
  obtain ⟨new, -, h⟩ := loadEnd_keeps (s := s)
  exact h.safe.keepsBounds

theorem exec_keepsBounds (i : Instr) (s t : State) (h : exec i s = .next t) : KeepsBounds s t := by
  by_cases h1 : i = .coldStart
  · subst h1
    cases h
    exact coldState_keepsBounds s s true
  by_cases h2 : i = .supplyLoss
  · subst h2
    cases h
    unfold supplyLoss
    split_ifs
    exacts [coldState_keepsBounds s s false, (Safe.refl s).keepsBounds]
  by_cases h3 : i = .tableLoadEnd
  · subst h3
    cases h
    exact loadEnd_keepsBounds s
  · obtain ⟨x, hx, hs⟩ := exec_safe i s h1 h2 h3
    obtain rfl : t = x := by simpa [h] using hx
    exact hs.keepsBounds

/-- A millisecond touches the clock and the order of arrival (R53). -/
theorem idle_keepsBounds (s : State) : KeepsBounds s (idle s) := by
  unfold idle
  split_ifs
  · exact (Safe.refl s).keepsBounds
  · exact ⟨id, id, id, id⟩

/-- Settles O4: each command hands at most one record at a time to a Journal Queue that has room for it, posts notices,
reserves only what is free, and extends the overlay only by an id not in it; `exec_safe` over the commands. -/
theorem stepKeepsBounds : Obligations.StepKeepsBounds := by
  unfold Obligations.StepKeepsBounds
  intro s t h
  unfold step at h
  split at h
  · cases h
    exact idle_keepsBounds s
  · rename_i i rest _
    exact exec_keepsBounds i { s with pending := rest } t h

/-- Settles O2: `exec_safe` for all but three commands; a cold start, a loss of supply and the end of a load apart. -/
theorem everyCommandCompletes : Obligations.EveryCommandCompletes := by
  unfold Obligations.EveryCommandCompletes
  constructor
  · intro i s
    by_cases h1 : i = .coldStart
    · exact ⟨coldState s true, h1 ▸ rfl, rfl, fun h => absurd h1 h⟩
    by_cases h2 : i = .supplyLoss
    · refine ⟨supplyLoss s, h2 ▸ rfl, ?_, fun _ h => absurd h2 h⟩
      unfold supplyLoss
      split_ifs <;> rfl
    by_cases h3 : i = .tableLoadEnd
    · obtain ⟨new, -, h⟩ := loadEnd_keeps (s := s)
      exact ⟨loadEnd s, h3 ▸ rfl, h.pending, fun _ _ => ⟨h.clock, h.freeNext, h.supply⟩⟩
    · obtain ⟨t, ht, h⟩ := exec_safe i s h1 h2 h3
      exact ⟨t, ht, h.pending, fun _ _ => ⟨h.clock, h.freeNext, h.supply⟩⟩
  · intro i s t ht h1 h2
    by_cases h3 : i = .tableLoadEnd
    · subst h3
      cases ht
      obtain ⟨new, hn, h⟩ := loadEnd_keeps (s := s)
      exact ⟨fun h => absurd rfl h, fun hl => by rw [h.tables]; exact hn hl⟩
    · obtain ⟨x, hx, h⟩ := exec_safe i s h1 h2 h3
      obtain rfl : t = x := by simpa [ht] using hx
      exact ⟨fun _ => h.tables, fun _ => by rw [h.tables]⟩

end Sys2Proof.Machine
end


/-! ## Frames: the reply to a frame that arrives whole -/

section
namespace Sys2Proof.Machine

variable {s : State} {kind : Byte} {f : Sys2Proof.Frame} {n : Nat}

/-! ### Numbers in payloads -/

theorem bytesNat_byte1 (h : n < 256) : bytesNat (byte1 n) = n := by
  simp [bytesNat, byte1, Nat.mod_eq_of_lt h]

theorem bytesNat_byte2 (h : n < 65536) : bytesNat (byte2 n) = n := by
  simp only [bytesNat, byte2, List.foldl_cons, List.foldl_nil, BitVec.toNat_ofNat]
  omega

/-! ### The frame as a whole -/

theorem Arrives.frameGood (h : Arrives s kind f) : s.frameGood kind f = true := by
  obtain ⟨_, _, hstation, h0, h31, hcrc⟩ := h
  simp only [State.frameGood, Bool.and_eq_true, decide_eq_true_eq]
  exact ⟨⟨⟨hcrc, hstation⟩, h0⟩, h31⟩

/-- A frame that arrives is handled, and answered (R166). -/
theorem Arrives.takeFrame (h : Arrives s kind f) (handle : State → List Byte → State × Answer) :
    takeFrame s kind f handle = sendReply (handle (fillBuffer s kind f) f.payload).1 kind
      (handle (fillBuffer s kind f) f.payload).2 := by
  have hg := h.frameGood
  obtain ⟨hcond, hlen, _⟩ := h
  have hl : ¬Config.payloadMax < f.payload.length := by omega
  simp only [Machine.takeFrame, hcond, hg, if_neg hl, ne_eq, not_true_eq_false, if_false, if_true]

/-- The length check passes a payload of its length (R167). -/
theorem withLength_of_length {p : List Byte} (handle : State → List Byte → State × Answer) (h : p.length = n) :
    withLength n handle s p = handle s p := if_pos h

theorem sendReply_fillBuffer_nak (why : Nak) :
    sendReply (fillBuffer s kind f) kind (.nak why) = { s with line := s.line.naks kind f why } := rfl

theorem sendReply_fillBuffer_reply (p : List Byte) :
    sendReply (fillBuffer s kind f) kind (.reply p) =
      { s with line := s.line.replying kind f (kind + 0x80#8) p } := rfl

/-! ### Arguments -/

theorem unitIx?_val (u : UnitIx) : unitIx? u.1 = some u := dif_pos u.2
theorem bankIx?_val (b : BankIx) : bankIx? b.1 = some b := dif_pos b.2
theorem ix16?_val (c : Fin 16) : ix16? c.1 = some c := dif_pos c.2
theorem unitIx?_none (h : 512 ≤ n) : unitIx? n = none := dif_neg (by omega)
theorem bankIx?_none (h : 8 ≤ n) : bankIx? n = none := dif_neg (by omega)
theorem ix16?_none (h : 16 ≤ n) : ix16? n = none := dif_neg (by omega)

/-- A unit argument names a unit of kind LOCKER or CABIN (R149). -/
theorem unitArg?_eq_some {u : UnitIx} : unitArg? s n = some u ↔ n = u.1 ∧ (s.kind u = .locker ∨ s.kind u = .cabin) := by
  have hv : unitIx? n = some u ↔ n = u.1 := by
    constructor
    · intro h
      unfold unitIx? at h
      split_ifs at h
      exact congrArg Fin.val (Option.some.inj h)
    · rintro rfl
      exact unitIx?_val u
  simp [unitArg?, Option.filter_eq_some_iff, hv]

/-- The seven lamps, in the order of their codes (R183). -/
theorem lamp?_eq_getElem? (k : Nat) :
    lamp? k = [Lamp.off, .green, .red, .amber, .greenFlash, .redFlash, .amberFlash][k]? := by
  match k with
  | 0 | 1 | 2 | 3 | 4 | 5 | 6 => rfl
  | _ + 7 => rfl

/-! ### LAMP and RESTART -/

/-- LAMP of a unit, a lamp and a time that are right (R168). -/
theorem handleLamp_ack {p : List Byte} {u : UnitIx} {l : Lamp} (hu : unitArg? s (field p 0 2) = some u)
    (hl : lamp? (field p 2 1) = some l) (ht : 1 ≤ field p 3 1 ∧ field p 3 1 ≤ 60) :
    handleLamp s p = (transient s u l (1000 * field p 3 1), .ack) := by
  simp [handleLamp, hu, hl, ht]

/-- LAMP with an argument that is wrong (R168). -/
theorem handleLamp_nak {p : List Byte} (h : unitArg? s (field p 0 2) = none ∨ lamp? (field p 2 1) = none ∨
    ¬(1 ≤ field p 3 1 ∧ field p 3 1 ≤ 60)) : handleLamp s p = (s, .nak .badArgument) := by
  unfold handleLamp
  split
  · rename_i hu hl
    rw [hu, hl] at h
    simp only [reduceCtorEq, false_or] at h
    exact if_neg h
  · rfl

/-- The transient lamp is set apart from the buffer of the frame. -/
theorem sendReply_transient {u : UnitIx} {l : Lamp} {ms : Nat} :
    sendReply (transient (fillBuffer s kind f) u l ms) kind .ack =
      { s.setUnit u { s.unit u with lamp := { (s.unit u).lamp with
          transient := some (l, s.clock.ms + BitVec.ofNat 32 ms) } } with line := s.line.acks kind f } := rfl

/-- Settles O32, by the checks of each frame in turn. -/
theorem lampAndRestartFrames : Obligations.LampAndRestartFrames := by
  unfold Obligations.LampAndRestartFrames
  refine ⟨fun f s n k sec ha hn hk hs hp => ?_, fun f s ha hp => ?_⟩
  · have hf0 : field f.payload 0 2 = n := by rw [hp]; exact bytesNat_byte2 hn
    have hf2 : field f.payload 2 1 = k := by rw [hp]; exact bytesNat_byte1 hk
    have hf3 : field f.payload 3 1 = sec := by rw [hp]; exact bytesNat_byte1 hs
    have he : exec (.lamp f) s = .next (sendReply (handleLamp (fillBuffer s 0x08 f) f.payload).1 0x08
        (handleLamp (fillBuffer s 0x08 f) f.payload).2) := by
      refine congrArg Host.Outcome.next ((ha.takeFrame _).trans ?_)
      rw [withLength_of_length]
      rw [hp]; rfl
    refine ⟨fun u l hu hkind hl h1 h60 => ?_, fun hbad => ?_⟩
    · have hack : handleLamp (fillBuffer s 0x08 f) f.payload =
          (transient (fillBuffer s 0x08 f) u l (1000 * field f.payload 3 1), .ack) :=
        handleLamp_ack (unitArg?_eq_some.2 ⟨hf0.trans hu, hkind⟩) (by rw [hf2, lamp?_eq_getElem?, hl]) (by omega)
      rw [he, hack, hf3]
      exact congrArg Host.Outcome.next sendReply_transient
    · have hnak : handleLamp (fillBuffer s 0x08 f) f.payload = (fillBuffer s 0x08 f, .nak .badArgument) := by
        refine handleLamp_nak ?_
        rw [hf0, hf2, hf3]
        rcases hbad with hunit | h7 | hsec
        · refine .inl (Option.eq_none_iff_forall_ne_some.2 fun u hu => ?_)
          obtain ⟨hu, hkind⟩ := unitArg?_eq_some.1 hu
          obtain ⟨hl, hc⟩ := hunit u hu
          exact hkind.elim hl hc
        · refine .inr (.inl ?_)
          rw [lamp?_eq_getElem?]
          exact List.getElem?_eq_none h7
        · exact .inr (.inr (by omega))
      rw [he, hnak]
      exact congrArg Host.Outcome.next (sendReply_fillBuffer_nak _)
  · have he : exec (.restart f) s = .next (sendReply (handleRestart (fillBuffer s 0x09 f) f.payload).1 0x09
        (handleRestart (fillBuffer s 0x09 f) f.payload).2) := by
      refine congrArg Host.Outcome.next ((ha.takeFrame _).trans ?_)
      rw [withLength_of_length]
      rw [hp]; rfl
    have hr : (fillBuffer s 0x09 f).restart = s.restart := rfl
    refine ⟨fun h => ?_, fun h => ?_⟩
    · rw [he, handleRestart, hr, h]
      rfl
    · rw [he, handleRestart, hr, if_pos (Option.isSome_iff_ne_none.2 h)]
      exact congrArg Host.Outcome.next (sendReply_fillBuffer_nak _)

end Sys2Proof.Machine
end


/-! ## READ-TABLE -/

section
namespace Sys2Proof.Machine

variable {s : State} {f : Sys2Proof.Frame} {p : List Byte} {i : Nat}

/-- READ-TABLE reads the part as it was before the frame. -/
theorem readTable_replies {a : Answer} (h : Arrives s 0x05 f) (hl : f.payload.length = 3)
    (ha : answerTable s f.payload = a) :
    exec (.readTable f) s = .next (sendReply (fillBuffer s 0x05 f) 0x05 a) := by
  refine congrArg Host.Outcome.next ((h.takeFrame _).trans ?_)
  rw [withLength_of_length _ hl, ← ha]
  rfl

theorem evacMode_code (m : EvacMode) : m.code = if m = .edge then 1 else 2 := by cases m <;> rfl

/-- A list place within the capacity (R18). -/
theorem listItem_of_lt {α : Type} {cap : Nat} {l : List α} {g : α → List Byte} (h : i < cap) :
    listItem cap i l g = .reply (optBytes l[i]? g) := if_pos h

theorem listItem_of_le {α : Type} {cap : Nat} {l : List α} {g : α → List Byte} (h : cap ≤ i) :
    listItem cap i l g = .nak .badArgument := if_neg (by omega)

/-- The items of single values (R18). -/
theorem answerTable_options (h : field p 0 1 = 1) : answerTable s p = .reply s.tables.options.bytes := by
  simp only [answerTable, h]

theorem answerTable_class (h : field p 0 1 = 2) : answerTable s p =
    (ix16? (field p 1 2)).elim (.nak .badArgument) fun c => .reply (s.tables.classes.get c).bytes := by
  simp only [answerTable, h]
  cases ix16? (field p 1 2) <;> rfl

theorem answerTable_zone (h : field p 0 1 = 3) : answerTable s p =
    (ix16? (field p 1 2)).elim (.nak .badArgument) fun z => .reply (s.tables.zones.get z).bytes := by
  simp only [answerTable, h]
  cases ix16? (field p 1 2) <;> rfl

theorem answerTable_bank (h : field p 0 1 = 4) : answerTable s p =
    (bankIx? (field p 1 2)).elim (.nak .badArgument) fun b => .reply (s.tables.banks.get b).bytes := by
  simp only [answerTable, h]
  cases bankIx? (field p 1 2) <;> rfl

theorem answerTable_unit (h : field p 0 1 = 5) : answerTable s p =
    (unitIx? (field p 1 2)).elim (.nak .badArgument) fun u => .reply (byte1 (s.kind u).code ++ byte1 (s.zone u).1) := by
  simp only [answerTable, h]
  cases unitIx? (field p 1 2) <;> rfl

/-- The lists (R18). -/
theorem answerTable_permits (h : field p 0 1 = 6) : answerTable s p = listItem Config.permitPlaces (field p 1 2)
    s.tables.permits fun r => bandBytes r.low ++ bandBytes r.high ++ byte1 r.cls.1 := by simp only [answerTable, h]

theorem answerTable_blocks (h : field p 0 1 = 7) :
    answerTable s p = listItem Config.blockPlaces (field p 1 2) s.tables.blocks bandBytes := by
  simp only [answerTable, h]

theorem answerTable_masters (h : field p 0 1 = 8) :
    answerTable s p = listItem Config.masterPlaces (field p 1 2) s.tables.masters bandBytes := by
  simp only [answerTable, h]

theorem answerTable_overlay (h : field p 0 1 = 9) :
    answerTable s p = listItem Config.overlayPlaces (field p 1 2) s.engine.overlay bandBytes := by
  simp only [answerTable, h]

theorem answerTable_summary (h : field p 0 1 = 10) : answerTable s p = .reply (summaryItem s.summary) := by
  simp only [answerTable, h]

theorem answerTable_none (h : field p 0 1 = 0 ∨ 10 < field p 0 1) : answerTable s p = .nak .badArgument := by
  unfold answerTable
  dsimp only
  split
  case h_11 => rfl
  all_goals omega

/-- An item or an index outside its range (R18). -/
theorem answerTable_outside (h : field p 0 1 = 0 ∨ 10 < field p 0 1 ∨
    ((field p 0 1 = 2 ∨ field p 0 1 = 3) ∧ 16 ≤ field p 1 2) ∨ (field p 0 1 = 4 ∧ 8 ≤ field p 1 2) ∨
    (field p 0 1 = 5 ∧ 512 ≤ field p 1 2) ∨ (field p 0 1 = 6 ∧ 64 ≤ field p 1 2) ∨
    (field p 0 1 = 7 ∧ 1024 ≤ field p 1 2) ∨ ((field p 0 1 = 8 ∨ field p 0 1 = 9) ∧ 32 ≤ field p 1 2)) :
    answerTable s p = .nak .badArgument := by
  rcases h with h | h | ⟨h | h, hi⟩ | ⟨h, hi⟩ | ⟨h, hi⟩ | ⟨h, hi⟩ | ⟨h, hi⟩ | ⟨h | h, hi⟩
  · exact answerTable_none (.inl h)
  · exact answerTable_none (.inr h)
  · rw [answerTable_class h, ix16?_none hi]; rfl
  · rw [answerTable_zone h, ix16?_none hi]; rfl
  · rw [answerTable_bank h, bankIx?_none hi]; rfl
  · rw [answerTable_unit h, unitIx?_none hi]; rfl
  · exact (answerTable_permits h).trans (listItem_of_le hi)
  · exact (answerTable_blocks h).trans (listItem_of_le hi)
  · exact (answerTable_masters h).trans (listItem_of_le hi)
  · exact (answerTable_overlay h).trans (listItem_of_le hi)

/-- The load summary, its lists cut as the bits of one byte (R18). -/
theorem summaryItem_some (m : LoadSummary) : summaryItem (some m) =
    byte1 m.cause.code ++ byte1 m.result.code ++ byte1 m.permits ++ byte2 m.blocks ++ byte1 m.masters ++
      byte1 (m.cuts.permits.toNat + 2 * m.cuts.blocks.toNat + 4 * m.cuts.masters.toNat) ++
      (match m.conflict with | some u => 1#8 :: byte2 u.1 | none => [0#8]) := by
  obtain ⟨cause, result, permits, blocks, masters, ⟨c1, c2, c3⟩, conflict⟩ := m
  have hc : bitAt 0 c1 + bitAt 1 c2 + bitAt 2 c3 = c1.toNat + 2 * c2.toNat + 4 * c3.toNat := by
    cases c1 <;> cases c2 <;> cases c3 <;> rfl
  simp only [summaryItem, hc]
  cases conflict <;> rfl

/-- Settles O28, item by item. -/
theorem readTableReplies : Obligations.ReadTableReplies := by
  unfold Obligations.ReadTableReplies
  intro f s item i h hitem hi hp
  have h0 : field f.payload 0 1 = item := by rw [hp]; exact bytesNat_byte1 hitem
  have h1 : field f.payload 1 2 = i := by rw [hp]; exact bytesNat_byte2 hi
  have hl : f.payload.length = 3 := by rw [hp]; rfl
  intro answers place flag o
  have reply : ∀ {p}, answerTable s f.payload = .reply p → answers p := fun ha =>
    (readTable_replies h hl ha).trans (congrArg Host.Outcome.next (sendReply_fillBuffer_reply _))
  have place_eq : ∀ l, optBytes l[i]? bandBytes = place l := by
    intro l
    simp only [place]
    cases l[i]? <;> rfl
  refine ⟨?_, ?_, ?_, ?_, ?_, ?_, ?_, ?_, ?_, ?_, ?_, ?_⟩
  · rintro rfl
    refine reply ((answerTable_options h0).trans ?_)
    rw [Options.bytes, evacMode_code]
  · rintro c rfl rfl
    exact reply (by rw [answerTable_class h0, h1, ix16?_val]; rfl)
  · rintro z rfl rfl
    exact reply (by rw [answerTable_zone h0, h1, ix16?_val]; rfl)
  · rintro b rfl rfl
    exact reply (by rw [answerTable_bank h0, h1, bankIx?_val]; rfl)
  · rintro u rfl rfl
    exact reply (by rw [answerTable_unit h0, h1, unitIx?_val]; rfl)
  · rintro rfl hi
    refine reply ?_
    rw [answerTable_permits h0, h1, listItem_of_lt (cap := Config.permitPlaces) hi]
    cases s.tables.permits[i]? <;> rfl
  · rintro rfl hi
    exact reply (by rw [answerTable_blocks h0, h1, listItem_of_lt (cap := Config.blockPlaces) hi, place_eq])
  · rintro rfl hi
    exact reply (by rw [answerTable_masters h0, h1, listItem_of_lt (cap := Config.masterPlaces) hi, place_eq])
  · rintro rfl hi
    exact reply (by rw [answerTable_overlay h0, h1, listItem_of_lt (cap := Config.overlayPlaces) hi, place_eq])
  · rintro m rfl hm
    exact reply (by rw [answerTable_summary h0, hm]; exact congrArg _ (summaryItem_some m))
  · rintro rfl hm
    exact reply (by rw [answerTable_summary h0, hm]; rfl)
  · intro hout
    refine (readTable_replies h hl (answerTable_outside ?_)).trans (congrArg Host.Outcome.next ?_)
    · rw [h0, h1]
      exact hout
    · exact sendReply_fillBuffer_nak _

end Sys2Proof.Machine
end


/-! ## When an action can be accepted, and a tap taken -/

section
namespace Sys2Proof.Machine

variable {s : State} {a : Action} {k : Nat} {first : Action → State → State}

/-- What R24 does not hold back is let through. -/
theorem holdsBack_iff (h : HeldEvent) : s.holdsBack h = false ↔ LetThrough s h := by
  simp only [State.holdsBack, LetThrough, Bool.or_eq_false_iff, Bool.not_eq_false', journalRoom_iff, List.any_eq_false,
    Bool.not_eq_true]

theorem resumeAhead_iff : s.resumeAhead = true ↔ EventsAhead s := by
  have hdue : s.nextDue.isSome = true ↔
      ∃ e ∈ s.timers, e.due ≤ s.clock.sec ∧ (e.kind = .ajarIdle → LetThrough s (.idle e.unit e.due)) := by
    simp only [State.nextDue, List.find?_isSome, Bool.and_eq_true, Bool.or_eq_true, decide_eq_true_eq, State.dueNow,
      Bool.not_eq_true', holdsBack_iff, ne_eq, or_iff_not_imp_left, not_not]
  simp only [State.resumeAhead, EventsAhead, Bool.and_eq_true, Bool.or_eq_true, decide_eq_true_eq, hdue]

theorem examined_iff : s.examined = true ↔ Taking s ∧ s.engine.runningSlot = none ∧ ¬EventsAhead s := by
  simp only [State.examined, Bool.and_eq_true, engineOn_iff, Option.isNone_iff_eq_none, Bool.not_eq_true',
    ← resumeAhead_iff, Bool.not_eq_true, and_assoc]

/-- The pending action is accepted where it is examined and R24 lets it through (R150). -/
theorem acceptable_iff (hp : s.engine.pendingSlot = some a) : s.acceptable a = true ↔ Acceptable s a := by
  have hb : (a.firstHands s && s.holdsBack .accept) = false ↔ (a.firstHands s = true → LetThrough s .accept) := by
    rw [← holdsBack_iff, Bool.and_eq_false_iff, ← Bool.not_eq_true, or_iff_not_imp_left, not_not]
  simp only [State.acceptable, Bool.and_eq_true, examined_iff, Bool.not_eq_true', hb, Acceptable, hp, true_and, and_assoc]

theorem Acceptable.pending (h : Acceptable s a) : s.engine.pendingSlot = some a := h.2.1

theorem Acceptable.acceptable (h : Acceptable s a) : s.acceptable a = true := (acceptable_iff h.pending).2 h

/-- An action accepted takes its first step, or ends BAD_ARGUMENT, and the port serves what it left (R149, R150). -/
theorem Acceptable.accept (h : Acceptable s a) (hk : a.code = k) :
    accept s k first = pump (if a.passes s then first a (moveToRunning s a)
      else endAction (moveToRunning s a) .badArgument 0) := by
  unfold Machine.accept
  rw [h.pending]
  dsimp only
  rw [if_pos (by simp [hk, h.acceptable])]

theorem Acceptable.accept_passing (h : Acceptable s a) (hk : a.code = k) (hu : a.passes s = true) :
    Machine.accept s k first = pump (first a (moveToRunning s a)) := by
  rw [h.accept hk, if_pos hu]

/-- An action held back by R24 stays pending, and what has arrived is noted (R24). -/
theorem accept_held (hp : s.engine.pendingSlot = some a) (hk : a.code = k) (he : s.examined = true)
    (hb : s.acceptable a = false) : Machine.accept s k first = s.noteHeld := by
  unfold Machine.accept
  rw [hp]
  dsimp only
  rw [if_neg (by simp [hb]), if_pos (by simp [hk, he])]

end Sys2Proof.Machine
end


/-! ## What a load reads -/

section
namespace Sys2Proof.Machine

variable {s : State} {α : Type}

/-- What the listed slots of a store give in order is what its slots give address by address, where an erased slot gives
nothing. -/
theorem store_filterMap (g : Nat → Slot → Option α) (hg : ∀ a, g a .erased = none) (n lo : Nat) (m : Store)
    (hm : m.wf = true) (hlo : ∀ e ∈ m, lo ≤ e.1) (hn : ∀ a x, lo + n ≤ a → g a x = none) :
    m.filterMap (fun e => g e.1 e.2) = (List.range' lo n).filterMap fun a => g a (m.read a) := by
  induction n generalizing lo m with
  | zero =>
    rw [List.range'_zero, List.filterMap_nil, List.filterMap_eq_nil_iff]
    exact fun e he => hn _ _ (hlo e he)
  | succ n ih =>
    rw [List.range'_succ, List.filterMap_cons]
    have hn' : ∀ a x, lo + 1 + n ≤ a → g a x = none := fun a x h => hn a x (by omega)
    have higher : ∀ m : Store, m.wf = true → (∀ e ∈ m, lo + 1 ≤ e.1) →
        (match g lo (m.read lo) with
          | none => (List.range' (lo + 1) n).filterMap fun a => g a (m.read a)
          | some b => b :: (List.range' (lo + 1) n).filterMap fun a => g a (m.read a)) =
          m.filterMap fun e => g e.1 e.2 := by
      intro m hm h
      rw [store_read_above m lo lo (fun e he => h e he) le_rfl, hg]
      exact (ih (lo + 1) m hm h hn').symm
    cases m with
    | nil => exact (higher [] hm (by simp)).symm
    | cons e rest =>
      obtain ⟨b, y⟩ := e
      obtain ⟨hy, habove, hrest⟩ := (store_wf_cons b y rest).1 hm
      by_cases hb : b = lo
      · subst hb
        have htail : (List.range' (b + 1) n).filterMap (fun a => g a (Store.read ((b, y) :: rest) a)) =
            (List.range' (b + 1) n).filterMap fun a => g a (Store.read rest a) := by
          refine List.filterMap_congr fun a ha => ?_
          have : b + 1 ≤ a := (List.mem_range'_1.1 ha).1
          rw [store_read_cons, if_neg (by omega)]
        rw [htail, ← ih (b + 1) rest hrest (fun e he => habove e he) hn', store_read_cons, if_pos rfl,
          List.filterMap_cons]
      · have hlt : lo < b := lt_of_le_of_ne (hlo (b, y) (by simp)) (Ne.symm hb)
        refine (higher ((b, y) :: rest) hm fun e he => ?_).symm
        rcases List.mem_cons.1 he with rfl | he
        · exact hlt
        · exact hlt.trans (habove e he)

/-- The addresses of the slots of n segments, segment by segment. -/
theorem range_segments (n : Nat) :
    List.range (n * 128) = (List.range n).flatMap fun seg => (List.range 128).map (seg * 128 + ·) := by
  induction n with
  | zero => rfl
  | succ n ih => rw [Nat.succ_mul, List.range_add, ih, List.range_succ (n := n), List.flatMap_append, List.flatMap_singleton]

/-- What a load takes of the slot at an address (R12, R138). -/
def State.loadTakes (s : State) (a : Nat) (x : Slot) : Option (List Byte) :=
  if a < 2048 ∧ x.state = .valid ∧ a ∉ s.loadLate ∧ s.slotState ⟨a / 128, 0⟩ ≠ .retired then some x.content else none

theorem tableRecords_eq_filterMap : tableRecords s = s.store.filterMap fun e => s.loadTakes e.1 e.2 := by
  unfold tableRecords
  rw [← List.filterMap_eq_filter, ← List.filterMap_eq_map, List.filterMap_filterMap]
  refine List.filterMap_congr fun e _ => ?_
  simp only [State.loadTakes, Option.guard, Bool.and_eq_true, decide_eq_true_eq, Bool.not_eq_true', and_assoc,
    List.contains_eq_mem, decide_eq_false_iff_not]
  split_ifs <;> rfl

/-- The slots of a segment a load reads (R12). -/
theorem loadTakes_segment {seg : Nat} (h : seg < 16) :
    ((List.range 128).map (seg * 128 + ·)).filterMap (fun a => s.loadTakes a (s.store.read a)) =
      if s.slotState ⟨seg, 0⟩ = .retired then []
      else (List.range 128).filterMap fun slot =>
        if s.slotState ⟨seg, slot⟩ = .valid ∧ seg * 128 + slot ∉ s.loadLate
        then some (s.store.read (seg * 128 + slot)).content else none := by
  rw [List.filterMap_map]
  have hslot : ∀ slot ∈ List.range 128, ((fun a => s.loadTakes a (s.store.read a)) ∘ (seg * 128 + ·)) slot =
      if s.slotState ⟨seg, 0⟩ = .retired then none
      else if s.slotState ⟨seg, slot⟩ = .valid ∧ seg * 128 + slot ∉ s.loadLate
        then some (s.store.read (seg * 128 + slot)).content else none := by
    intro slot hs
    have hs := List.mem_range.1 hs
    have hd : (seg * 128 + slot) / 128 = seg := by omega
    have ha : seg * 128 + slot < 2048 := by omega
    show (if seg * 128 + slot < 2048 ∧ s.slotState ⟨seg, slot⟩ = .valid ∧ seg * 128 + slot ∉ s.loadLate ∧
      s.slotState ⟨(seg * 128 + slot) / 128, 0⟩ ≠ .retired then _ else _) = _
    rw [hd]
    split_ifs <;> simp_all
  rw [List.filterMap_congr hslot]
  split_ifs
  · simp
  · rfl

/-- Where a management program's valid mark ends, a load under way passes its slot over (R138). -/
theorem endValid_load {p : Program} (h : p.owner = .management) :
    (endValid s p).load = s.load ∧
      (endValid s p).loadLate = if s.load.isSome then s.loadLate ++ [p.ref.addr] else s.loadLate := by
  unfold endValid
  rw [h]
  exact ⟨rfl, rfl⟩

theorem pump_load : (pump s).load = s.load ∧ (pump s).loadLate = s.loadLate := by
  obtain ⟨⟨_, _, e, _⟩, _⟩ := pump_portFrame s
  rw [e]
  exact ⟨rfl, rfl⟩

/-- Settles O14: the store is read address by address, and what a program and a new load put aside is as endValid and
beginLoad say. -/
theorem loadReadsValidSlots : Obligations.LoadReadsValidSlots := by
  unfold Obligations.LoadReadsValidSlots
  refine ⟨fun s hs => ?_, fun s p hp hk ho => ?_, fun s h => ?_⟩
  · rw [tableRecords_eq_filterMap, store_filterMap s.loadTakes ?_ 2048 0 s.store hs (by simp) ?_,
      ← List.range_eq_range', range_segments 16, List.filterMap_flatMap]
    · exact List.flatMap_congr fun seg hseg => loadTakes_segment (List.mem_range.1 hseg)
    · exact fun a => if_neg (by simp [Slot.erased])
    · exact fun a x ha => if_neg (by omega)
  · refine ⟨_, rfl, ?_⟩
    have he : programEnd s .valid endValid = pump (endValid s p) := by
      unfold programEnd
      rw [hp]
      exact if_pos hk
    obtain ⟨hl, hlate⟩ := pump_load (s := endValid s p)
    obtain ⟨kl, klate⟩ := endValid_load (s := s) ho
    rw [he, hl, hlate, kl, klate]
    refine ⟨rfl, fun h => by simp [h], fun h a => ?_⟩
    rw [if_pos (Option.isSome_iff_ne_none.2 h), List.mem_append, List.mem_singleton]
  · refine ⟨_, rfl, ?_⟩
    have ha : accept s 10 reloadFirst = _ := h.accept_passing rfl rfl
    rw [ha]
    exact pump_load

end Sys2Proof.Machine
end


/-! ## A bank that moves to another state: what it loses, and what else is touched -/

section
namespace Sys2Proof.Machine

variable {s m t : State} {b d : BankIx} {u : UnitIx} {st : BankState}

/-! ### What freed places and examinations grant (R74, R84) -/

/-- From s to t the Drive Scheduler grants actuations of RUNNING banks alone, and takes none away that is granted,
awaiting verify or detached. -/
structure Grants (s t : State) : Prop where
  acts : DriveActs s t
  awaiting : t.drive.awaiting = s.drive.awaiting
  detached : t.drive.detached = s.drive.detached
  granted : ∃ new, t.drive.granted = s.drive.granted ++ new ∧ ∀ a ∈ new, (s.bank (bankOf a.unit)).state = .running

theorem Grants.of_eq (acts : DriveActs s t) (hg : t.drive.granted = s.drive.granted)
    (ha : t.drive.awaiting = s.drive.awaiting) (hd : t.drive.detached = s.drive.detached) : Grants s t :=
  ⟨acts, ha, hd, [], by simp [hg], by simp⟩

theorem Grants.refl (s : State) : Grants s s := .of_eq (.refl s) rfl rfl rfl

theorem Grants.trans (h : Grants s m) (k : Grants m t) : Grants s t := by
  obtain ⟨n1, e1, r1⟩ := h.granted
  obtain ⟨n2, e2, r2⟩ := k.granted
  refine ⟨h.acts.trans k.acts, k.awaiting.trans h.awaiting, k.detached.trans h.detached, n1 ++ n2, ?_, ?_⟩
  · rw [e2, e1, List.append_assoc]
  · intro a ha
    rcases List.mem_append.1 ha with ha | ha
    · exact r1 a ha
    · rw [← h.acts.bank]
      exact r2 a ha

theorem setWaiting_grants (l : List Actuation) : Grants s (s.setWaiting l) := .of_eq (setWaiting_acts s l) rfl rfl rfl
theorem hand_grants (e : EngEvent) : Grants s (s.hand e) := .of_eq (hand_acts s e) rfl rfl rfl

theorem refill_grants (s : State) : Grants s (refill s) := by
  refine .of_eq (refill_acts s) ?_ ?_ ?_
  all_goals
    unfold refill
    split <;> rfl

theorem grantHead_grants {a : Actuation} {rest : List Actuation} (h : (s.bank (bankOf a.unit)).state = .running) :
    Grants s (grantHead s a rest) :=
  ⟨grantHead_acts s a rest, rfl, rfl, _, rfl, by simpa using h⟩

theorem examineLoop_grants (n : Nat) (s : State) : Grants s (examineLoop n s) := by
  induction n generalizing s with
  | zero => exact .refl s
  | succ n ih =>
    have left : ∀ rest e, Grants s (examineLoop n (refill ((s.setWaiting rest).hand e))) := fun rest e =>
      (((setWaiting_grants rest).trans (hand_grants e)).trans (refill_grants _)).trans (ih _)
    unfold examineLoop
    split_ifs
    · exact .refl s
    · split
      · exact .refl s
      · split_ifs with hrun
        · exact left _ _
        · exact left _ _
        · exact (grantHead_grants (not_not.1 hrun)).trans (ih _)
        · exact .refl s

theorem examine_grants (s : State) : Grants s (examine s) := examineLoop_grants _ s

theorem placesFreed_grants (n : Nat) (s : State) : Grants s (placesFreed n s) := by
  induction n generalizing s with
  | zero => exact .refl s
  | succ n ih =>
    refine Grants.trans ?_ (ih _)
    unfold placeFreed
    dsimp only
    split_ifs
    · exact (refill_grants s).trans (examine_grants _)
    · exact refill_grants s

/-! ### A bank's movements are lost (R84) -/

/-- The Drive Scheduler without the actuations of a bank, its delivered pulses detached. -/
def State.withoutBank (s : State) (b : BankIx) : State :=
  { s with drive :=
    { waiting := s.drive.waiting.filter fun a => !decide (bankOf a.unit = b)
      granted := s.drive.granted.filter fun a => !decide (bankOf a.unit = b)
      awaiting := s.drive.awaiting.filter fun a => !decide (bankOf a.unit = b)
      detached := s.drive.detached ++
        (s.drive.granted.filter fun a => decide (bankOf a.unit = b) && a.delivered).map Actuation.detach } }

/-- The units whose actuations a bank loses. -/
def State.lostOf (s : State) (b : BankIx) : List UnitIx :=
  (s.drive.waiting.filter (fun a => decide (bankOf a.unit = b)) ++
    s.drive.granted.filter (fun a => decide (bankOf a.unit = b)) ++
    s.drive.awaiting.filter fun a => decide (bankOf a.unit = b)).map (·.unit)

theorem mem_lostOf {v : UnitIx} : v ∈ s.lostOf b ↔
    ∃ x ∈ s.drive.waiting ++ s.drive.granted ++ s.drive.awaiting, x.unit = v ∧ bankOf v = b := by
  simp only [State.lostOf, ← List.filter_append, List.mem_map, List.mem_filter, decide_eq_true_eq]
  constructor
  · rintro ⟨x, ⟨hx, hb⟩, rfl⟩
    exact ⟨x, hx, rfl, hb⟩
  · rintro ⟨x, hx, rfl, hb⟩
    exact ⟨x, ⟨hx, hb⟩, rfl⟩

theorem driveLeaves_grants (s : State) (b : BankIx) :
    Grants ((s.withoutBank b).hand (.removed (s.lostOf b) (some b))) (driveLeaves s b) :=
  (placesFreed_grants _ _).trans (examine_grants _)

theorem driveLeaves_acts (s : State) (b : BankIx) : DriveActs s (driveLeaves s b) :=
  ((setDrive_acts s _).trans (hand_acts _ _)).trans (driveLeaves_grants s b).acts

/-- A pulse of a bank goes on detached with its current and its end. -/
theorem detached_of_bank (l : List Actuation) (b : BankIx) :
    (l.filter fun a => decide (bankOf a.unit = b) && a.delivered).map Actuation.detach =
      (l.filter fun x => bankOf x.unit = b ∧ x.delivered = true).map fun x =>
        (⟨b, x.current.getD 0, x.pulseEnd.getD 0⟩ : Detached) := by
  have hf : (fun a : Actuation => decide (bankOf a.unit = b) && a.delivered) =
      fun x => decide (bankOf x.unit = b ∧ x.delivered = true) := by
    funext x
    simp
  rw [hf]
  refine List.map_congr_left fun a ha => ?_
  obtain ⟨hb, _⟩ := of_decide_eq_true (List.mem_filter.1 ha).2
  rw [Actuation.detach, hb]

/-- A bank that is not RUNNING any more loses its movements (R84). -/
theorem driveLeaves_loses (h : (s.bank b).state ≠ .running) :
    (∀ x ∈ (driveLeaves s b).drive.granted ++ (driveLeaves s b).drive.awaiting, bankOf x.unit ≠ b) ∧
    (∀ x ∈ s.drive.granted, bankOf x.unit ≠ b → x ∈ (driveLeaves s b).drive.granted) ∧
    (driveLeaves s b).drive.awaiting = s.drive.awaiting.filter (fun x => bankOf x.unit ≠ b) ∧
    (driveLeaves s b).drive.detached = s.drive.detached ++
      ((s.drive.granted.filter fun x => bankOf x.unit = b ∧ x.delivered = true).map fun x =>
        (⟨b, x.current.getD 0, x.pulseEnd.getD 0⟩ : Detached)) ∧
    ∃ us, EngEvent.removed us (some b) ∈ (driveLeaves s b).engine.inbox ∧
      ∀ v, v ∈ us ↔ ∃ x ∈ s.drive.waiting ++ s.drive.granted ++ s.drive.awaiting, x.unit = v ∧ bankOf v = b := by
  obtain ⟨⟨_, _, hinbox, _⟩, hawait, hdet, new, hgrant, hrun⟩ := driveLeaves_grants s b
  have hg : (driveLeaves s b).drive.granted =
      (s.drive.granted.filter fun a => !decide (bankOf a.unit = b)) ++ new := hgrant
  have ha : (driveLeaves s b).drive.awaiting = s.drive.awaiting.filter fun a => !decide (bankOf a.unit = b) := hawait
  refine ⟨fun x hx => ?_, fun x hx hb => ?_, ?_, ?_, s.lostOf b, ?_, fun v => mem_lostOf⟩
  · rw [hg, ha] at hx
    rcases List.mem_append.1 hx with hx | hx
    · rcases List.mem_append.1 hx with hx | hx
      · simpa using (List.mem_filter.1 hx).2
      · exact fun hb => h (hb ▸ hrun x hx)
    · simpa using (List.mem_filter.1 hx).2
  · rw [hg]
    exact List.mem_append.2 (.inl (List.mem_filter.2 ⟨hx, by simpa using hb⟩))
  · rw [ha]
    exact List.filter_congr fun x _ => by simp
  · rw [← detached_of_bank]
    exact hdet
  · exact hinbox.subset (List.mem_append.2 (.inr (List.mem_singleton.2 rfl)))

/-! ### The move itself (R48, R84, R107, R161) -/

/-- A bank that moves changes its record as leave says, and the Drive Scheduler acts. -/
theorem moveBank_acts (s : State) (b : BankIx) (st : BankState) :
    DriveActs (s.modBank b fun k => k.leave st) (moveBank s b st) := by
  unfold moveBank
  dsimp only
  split_ifs
  · exact driveLeaves_acts _ b
  · exact .refl _

/-- A bank that was not RUNNING and has no movement left leaves the Drive Scheduler alone. -/
theorem moveBank_still (h : (s.bank b).state ≠ .running) (hm : s.bankMoves b = false) :
    moveBank s b st = s.modBank b fun k => k.leave st := by
  unfold moveBank
  dsimp only
  rw [if_neg (by simp [h, hm])]

theorem moveBank_loses (h : st ≠ .running) : BankLoses s (moveBank s b st) b := by
  obtain ⟨_, _, hinbox, hkept⟩ := moveBank_acts s b st
  refine ⟨hkept, hinbox, fun hl => ?_, fun hr hm => ?_⟩
  · have he : moveBank s b st = driveLeaves (s.modBank b fun k => k.leave st) b := if_pos hl
    rw [he]
    exact driveLeaves_loses (s := s.modBank b fun k => k.leave st) (by simpa [State.modBank, Bank.leave] using h)
  · rw [moveBank_still hr hm]
    exact ⟨rfl, rfl⟩

/-- BankLoses speaks of the units, the Drive Scheduler and what waits at the Binding Engine alone. -/
theorem BankLoses.congr {s' t' : State} (h : BankLoses s t b) (hu : t'.units = t.units) (hd : t'.drive = t.drive)
    (hi : t'.engine.inbox = t.engine.inbox) (su : s'.units = s.units) (sd : s'.drive = s.drive)
    (sb : s'.bank b = s.bank b) (si : s'.engine.inbox = s.engine.inbox) : BankLoses s' t' b := by
  have hm : s'.bankMoves b = s.bankMoves b := by
    unfold State.bankMoves State.deferredOf State.unit
    rw [sd, su]
  unfold BankLoses OthersKept State.unit at *
  rw [hu, hd, hi, su, sd, sb, si, hm]
  exact h

/-! ### Banks one after another -/

/-- From s to t banks of a kind move, and with them the Drive Scheduler acts; the other banks keep their records, their
chains and their tap memory. -/
structure BankActs (T : BankIx → Prop) (s t : State) : Prop where
  frame : t = { s with
    units := t.units, drive := t.drive, engine := { s.engine with inbox := t.engine.inbox }, banks := t.banks
    chains := t.chains, tapMemory := t.tapMemory }
  inbox : s.engine.inbox <+: t.engine.inbox
  kept : OthersKept s t []
  bank : ∀ d, ¬T d → t.bank d = s.bank d
  chain : ∀ d, ¬T d → t.chain d = s.chain d
  tapMemory : ∀ u, ¬T (bankOf u) → t.tapMemory.get u = s.tapMemory.get u

variable {T T' : BankIx → Prop}

theorem BankActs.refl (T : BankIx → Prop) (s : State) : BankActs T s s :=
  ⟨rfl, List.prefix_rfl, fun _ _ => rfl, fun _ _ => rfl, fun _ _ => rfl, fun _ _ => rfl⟩

theorem BankActs.trans (h : BankActs T s m) (k : BankActs T m t) : BankActs T s t where
  frame := by rw [k.frame, h.frame]
  inbox := h.inbox.trans k.inbox
  kept v hv := (k.kept v hv).trans (h.kept v hv)
  bank d hd := (k.bank d hd).trans (h.bank d hd)
  chain d hd := (k.chain d hd).trans (h.chain d hd)
  tapMemory u hu := (k.tapMemory u hu).trans (h.tapMemory u hu)

theorem BankActs.mono (h : BankActs T s t) (hT : ∀ d, T d → T' d) : BankActs T' s t :=
  ⟨h.frame, h.inbox, h.kept, fun d hd => h.bank d fun k => hd (hT d k), fun d hd => h.chain d fun k => hd (hT d k),
    fun u hu => h.tapMemory u fun k => hu (hT _ k)⟩

theorem DriveActs.bankActs (h : DriveActs s t) : BankActs T s t := by
  have hk := h.bank
  obtain ⟨e, g, p, o⟩ := h
  have hc : t.chains = s.chains := by rw [e]
  have hm : t.tapMemory = s.tapMemory := by rw [e]
  refine ⟨?_, p, o, fun d _ => hk d, fun d _ => by rw [State.chain, hc]; rfl, fun u _ => by rw [hm]⟩
  rw [← g]
  exact e.trans (by rw [e])

theorem modBank_bankActs {f : Bank → Bank} : BankActs (· = b) s (s.modBank b f) :=
  ⟨rfl, List.prefix_rfl, fun _ _ => rfl, fun d hd => setBank_bank_other _ b d _ hd, fun _ _ => rfl, fun _ _ => rfl⟩

theorem setChain_bankActs {ns : List Node} : BankActs (· = b) s (s.setChain b ns) :=
  ⟨rfl, List.prefix_rfl, fun _ _ => rfl, fun _ _ => rfl, fun d hd => setChain_chain_other _ b d _ hd, fun _ _ => rfl⟩

/-- The tap memory of a bank cleared. -/
def State.forgetTaps (s : State) (b : BankIx) : State :=
  { s with tapMemory := onBank s.tapMemory b fun _ _ => ⟨none, none, none⟩ }

theorem forgetTaps_get (u : UnitIx) : (s.forgetTaps b).tapMemory.get u =
    if bankOf u = b then ⟨none, none, none⟩ else s.tapMemory.get u := by
  unfold State.forgetTaps onBank
  dsimp only
  rw [tabulate_get]

theorem setTapMemory_bankActs {v : Vector TapMemory 512}
    (h : ∀ u, ¬T (bankOf u) → v.get u = s.tapMemory.get u) : BankActs T s { s with tapMemory := v } :=
  ⟨rfl, List.prefix_rfl, fun _ _ => rfl, fun _ _ => rfl, fun _ _ => rfl, h⟩

theorem forgetTaps_bankActs : BankActs (· = b) s (s.forgetTaps b) := by
  refine setTapMemory_bankActs fun u hu => ?_
  have h := forgetTaps_get (s := s) (b := b) u
  rw [if_neg hu] at h
  exact h

theorem forgetTaps_bank : (s.forgetTaps b).bank d = s.bank d := by
  unfold State.forgetTaps
  generalize onBank _ _ _ = v
  rfl

theorem moveBank_bankActs : BankActs (· = b) s (moveBank s b st) :=
  modBank_bankActs.trans (moveBank_acts s b st).bankActs

theorem makeAbsent_bankActs : BankActs (· = b) s (makeAbsent s b) := moveBank_bankActs.trans setChain_bankActs

theorem enterResetting_eq (s : State) (b : BankIx) : enterResetting s b =
    ((resetNodes (moveBank s b .resetting) b).forgetTaps b).modBank b fun k => { k with resetAt := s.clock.ms } := rfl

theorem enterResetting_bankActs : BankActs (· = b) s (enterResetting s b) := by
  rw [enterResetting_eq]
  exact ((moveBank_bankActs.trans setChain_bankActs).trans forgetTaps_bankActs).trans modBank_bankActs

/-- The record of a bank that is reset (R107). -/
theorem enterResetting_bank (s : State) (b : BankIx) :
    (enterResetting s b).bank b = { (s.bank b).leave .resetting with resetAt := s.clock.ms } := by
  have h : (moveBank s b .resetting).bank b = (s.bank b).leave .resetting :=
    ((moveBank_acts s b .resetting).bank b).trans (setBank_bank_self _ b _)
  rw [enterResetting_eq, State.modBank, setBank_bank_self, forgetTaps_bank]
  exact congrArg (fun k : Bank => { k with resetAt := s.clock.ms }) h

theorem moveBank_chain (s : State) (b d : BankIx) (st : BankState) : (moveBank s b st).chain d = s.chain d := by
  have h := (moveBank_acts s b st).1
  rw [State.chain, h]
  rfl

/-- Its nodes are in reset (R95). -/
theorem enterResetting_chain (s : State) (b : BankIx) :
    (enterResetting s b).chain b = (s.chain b).map Node.inReset := by
  have h : (enterResetting s b).chain b = ((moveBank s b .resetting).chain b).map Node.inReset :=
    setChain_chain_self _ b _
  rw [h, moveBank_chain]

/-- Its tap memory is empty (R107). -/
theorem enterResetting_tapMemory (s : State) (b : BankIx) (u : UnitIx) : (enterResetting s b).tapMemory.get u =
    if bankOf u = b then ⟨none, none, none⟩ else s.tapMemory.get u := by
  have h : (moveBank s b .resetting).tapMemory = s.tapMemory := by rw [(moveBank_acts s b .resetting).1]; rfl
  have hg : (enterResetting s b).tapMemory.get u =
      if bankOf u = b then ⟨none, none, none⟩ else (moveBank s b .resetting).tapMemory.get u :=
    forgetTaps_get (s := resetNodes (moveBank s b .resetting) b) u
  rw [hg, h]

theorem enterResetting_loses (s : State) (b : BankIx) : BankLoses s (enterResetting s b) b :=
  (moveBank_loses (s := s) (b := b) (st := .resetting) (by decide)).congr rfl rfl rfl rfl rfl rfl rfl

/-- The record and the nodes of a bank that becomes ABSENT (R106). -/
theorem makeAbsent_bank (s : State) (b : BankIx) : (makeAbsent s b).bank b = (s.bank b).leave .absent :=
  ((moveBank_acts s b .absent).bank b).trans (setBank_bank_self _ b _)

theorem makeAbsent_chain (s : State) (b : BankIx) : (makeAbsent s b).chain b = (s.chain b).map Node.inReset := by
  have h : (makeAbsent s b).chain b = ((moveBank s b .absent).chain b).map Node.inReset := setChain_chain_self _ b _
  rw [h, moveBank_chain]

end Sys2Proof.Machine
end


/-! ## Actions: their ends, and the reloads, resets and clearings -/

section
namespace Sys2Proof.Machine

variable {s m t : State} {a : Action} {u : UnitIx} {b : BankIx} {op : BoltOp} {c : Urgency} {k : Nat}
  {first : Action → State → State}

/-! ### Acceptance and ending -/

/-- The running action ends with its notice (R150, R184). -/
theorem endAction_eq {r : Running} {why : Result} {extra : Nat} (h : s.engine.runningSlot = some r) :
    endAction s why extra =
      { s.setRunning none with notices := s.notices.post (s.doneNotice r.action why extra) } := by
  unfold endAction
  rw [h]
  rfl

/-- An action accepted that passes its check takes its first step, and the port serves what that leaves. -/
theorem Acceptable.serves (h : Acceptable s a) (hk : a.code = k) (hp : a.passes s = true)
    (he : first a (moveToRunning s a) = m) : PortServes m (Machine.accept s k first) := by
  rw [h.accept_passing hk hp, he]
  exact pump_serves m

/-- The running slot of an action with one unit in question, once the step on that unit has been recorded. -/
theorem record_eq {before behind : List Item} {x st : Stage} {n counted : Nat}
    (h : m.engine.runningSlot = some ⟨a, before ++ ⟨u, x⟩ :: behind, n⟩) (hu : ∀ i ∈ before ++ behind, i.unit ≠ u) :
    record u counted ⟨m, st⟩ = finish (m.setRunning (some ⟨a, before ++ ⟨u, st⟩ :: behind, n + counted⟩)) := by
  have same : ∀ l : List Item, (∀ i ∈ l, i ∈ before ++ behind) →
      l.map (fun i => if i.unit = u then ⟨u, st⟩ else i) = l := fun l hl =>
    (List.map_congr_left fun i hi => if_neg (hu i (hl i hi))).trans (List.map_id l)
  unfold record
  dsimp only
  rw [h]
  dsimp only
  rw [List.map_append, List.map_cons, if_pos rfl, same before fun i hi => List.mem_append.2 (.inl hi),
    same behind fun i hi => List.mem_append.2 (.inr hi)]

theorem isDone_iff (st : Stage) : st.isDone = true ↔ ∃ y, st = .done y := by cases st <;> simp [Stage.isDone]

/-- An action with a unit left goes on. -/
theorem finish_goes {r : Running} (h : s.engine.runningSlot = some r) (hr : ∃ i ∈ r.items, i.stage.isDone = false) :
    finish s = s := by
  unfold finish
  rw [h]
  exact if_neg (by simpa using hr)

/-- An action whose units all have their outcomes ends. -/
theorem finish_ends {r : Running} (h : s.engine.runningSlot = some r) (hr : ∀ i ∈ r.items, i.stage.isDone = true) :
    finish s = { s.setRunning none with notices := s.notices.post (s.doneNotice r.action r.result r.extra) } := by
  unfold finish
  rw [h]
  exact (if_pos (List.all_eq_true.2 hr)).trans (endAction_eq h)

/-! ### A movement handed over within an action -/

theorem handOver_movesOn (s : State) (u : UnitIx) (op : BoltOp) (c : Urgency) :
    MovesOn s (handOver s u op c) u op c := ⟨handOver_acts s u op c, handOver_handed s u op c⟩

/-- What the running slot and the Notice Queue come to hold does not bear on a movement. -/
theorem MovesOn.reported (h : MovesOn s t u op c) (r : Option Running) (q : NoticeQueue) :
    MovesOn { s.setRunning r with notices := q } { t.setRunning r with notices := q } u op c := by
  obtain ⟨⟨e, g, p, o⟩, hm⟩ := h
  refine ⟨⟨?_, ?_, p, o⟩, hm⟩
  · generalize hu : t.units = v at e
    generalize hd : t.drive = d at e
    rw [e]
    rfl
  · show { t.engine with runningSlot := r } = _
    rw [g]
    rfl

/-! ### RESET_BANK (R107, R161) -/

/-- The first event that meets a condition is taken out. -/
theorem takeFirst_append {α : Type} {p : α → Bool} {x : α} (before behind : List α)
    (hb : ∀ e ∈ before, p e = false) (hx : p x = true) :
    takeFirst p (before ++ x :: behind) = some (x, before ++ behind) := by
  induction before with
  | nil => simp [takeFirst, hx]
  | cons y l ih => simp [takeFirst, hb y (by simp), ih fun e he => hb e (by simp [he])]

/-- A bank without movements that was not RUNNING is reset without a report. -/
theorem enterResetting_still (h : (s.bank b).state ≠ .running) (hm : s.bankMoves b = false) :
    (enterResetting s b).engine.inbox = s.engine.inbox := by
  have hi : (enterResetting s b).engine.inbox = (moveBank s b .resetting).engine.inbox := rfl
  rw [hi, moveBank_still h hm]
  rfl

/-- RESET_BANK of a bank that is not ABSENT takes it into RESETTING, and its movements leave (R161). -/
theorem resetBank_begins (h : Acceptable s (.resetBank b)) (hb : (s.bank b).state ≠ .absent) :
    PortServes (enterResetting (moveToRunning s (.resetBank b)) b) (accept s 11 resetBankFirst) :=
  h.serves rfl rfl (if_neg hb)

/-- The controller's report ends RESET_BANK (R161). -/
theorem resetBankDone_eq {items : List Item} {n count : Nat} {before behind : List EngEvent} {st : BankState}
    {code : Option FaultCode} (hon : Taking s) (hr : s.engine.runningSlot = some ⟨.resetBank b, items, n⟩)
    (hi : s.engine.inbox = before ++ .resetDone b st code count :: behind)
    (hb : ∀ e ∈ before, e.isResetDone b = false) :
    resetBankDone s = { s.took (before ++ behind) none with
      notices := s.notices.post (s.doneNotice (.resetBank b) .ok
        (st.code + ((code.map FaultCode.code).getD 0) * 256 + count * 65536)) } := by
  have ht : takeFirst (EngEvent.isResetDone b) s.engine.inbox =
      some (.resetDone b st code count, before ++ behind) := by
    rw [hi]
    exact takeFirst_append before behind hb (decide_eq_true rfl)
  unfold resetBankDone
  rw [if_neg (by simp [(engineOn_iff s).2 hon]), hr]
  dsimp only
  rw [ht]
  exact endAction_eq (r := ⟨.resetBank b, items, n⟩) hr

/-! ### CLEAR_EVACUATION (R162) -/

/-- CLEAR_EVACUATION with nothing to close ends NOT_ACTIVE, without the OPEN follow-up entries (R162, R177). -/
theorem clearEvacuation_ends (h : Acceptable s .clearEvacuation)
    (he : s.tables.options.evacMode = .level ∨ s.evacOpenCabins = []) :
    PortServes { s.accepted none with
      engine := { (s.accepted none).engine with follow := s.engine.follow.filter fun e => e.2 = .toClose }
      notices := s.notices.post (s.doneNotice .clearEvacuation .notActive 0) }
      (accept s 12 clearEvacuationFirst) :=
  h.serves rfl rfl ((if_pos he).trans (endAction_eq (r := ⟨.clearEvacuation, [], 0⟩) rfl))

/-- CLEAR_EVACUATION with cabins in EVAC_OPEN lists them (R162). -/
theorem clearEvacuation_lists (h : Acceptable s .clearEvacuation)
    (he : ¬(s.tables.options.evacMode = .level ∨ s.evacOpenCabins = [])) :
    PortServes { s.accepted (some ⟨.clearEvacuation, s.evacOpenCabins.map fun u => ⟨u, .due⟩, 0⟩) with
      engine := { (s.accepted (some ⟨.clearEvacuation, s.evacOpenCabins.map fun u => ⟨u, .due⟩, 0⟩)).engine with
        follow := s.engine.follow.filter fun e => e.2 = .toClose } }
      (accept s 12 clearEvacuationFirst) :=
  h.serves rfl rfl (if_neg he)

theorem evacOpenCabins_eq :
    s.evacOpenCabins = allUnits.filter fun u => s.kind u = .cabin ∧ (s.unit u).state = .evacOpen := by
  simp only [State.evacOpenCabins, State.cabins, List.filter_filter, Bool.decide_and, Bool.and_comm]

/-- The next step of CLEAR_EVACUATION is that of the first unit whose step is due. -/
theorem clearEvacuationStep_eq {before behind : List Item} {n : Nat} (hon : Taking s)
    (hr : s.engine.runningSlot = some ⟨.clearEvacuation, before ++ ⟨u, .due⟩ :: behind, n⟩)
    (hb : ∀ i ∈ before, i.stage ≠ .due) : clearEvacuationStep s = clearOne s u := by
  have hd : Running.firstDue s ⟨.clearEvacuation, before ++ ⟨u, .due⟩ :: behind, n⟩ = some u := by
    have hf : before.filter (fun i => decide (i.stage = .due)) = [] :=
      List.filter_eq_nil_iff.2 fun i hi => by simpa using hb i hi
    simp [Running.firstDue, Running.unitsAt, Running.stepHeld, Running.stepHands, Action.hands, List.filter_append, hf]
  unfold clearEvacuationStep
  rw [if_neg (by simp [(engineOn_iff s).2 hon]), hr]
  dsimp only
  rw [hd]

/-! The step of CLEAR_EVACUATION on a cabin whose place in the running slot is known: what the action comes to once the
step has been recorded. -/

section
variable {before behind : List Item} {n : Nat}

/-- The step is recorded and the action goes on with other cabins. -/
theorem record_goes {st : Stage} {counted : Nat}
    (hr : m.engine.runningSlot = some ⟨a, before ++ ⟨u, .due⟩ :: behind, n⟩) (hu : ∀ i ∈ before ++ behind, i.unit ≠ u)
    (hl : st.isDone = false ∨ ¬∀ i ∈ before ++ behind, ∃ y, i.stage = .done y) :
    record u counted ⟨m, st⟩ = m.setRunning (some ⟨a, before ++ ⟨u, st⟩ :: behind, n + counted⟩) := by
  rw [record_eq hr hu]
  refine finish_goes rfl ?_
  rcases hl with hst | hl
  · exact ⟨⟨u, st⟩, by simp, hst⟩
  · push Not at hl
    obtain ⟨i, hi, hs⟩ := hl
    refine ⟨i, ?_, Bool.eq_false_iff.2 fun hd => ?_⟩
    swap
    · obtain ⟨y, hy⟩ := (isDone_iff _).1 hd
      exact hs y hy
    rcases List.mem_append.1 hi with hi | hi
    · exact List.mem_append.2 (.inl hi)
    · exact List.mem_append.2 (.inr (List.mem_cons_of_mem _ hi))

/-- The step is recorded and CLEAR_EVACUATION ends with its count. -/
theorem record_ends {y : Result} {counted : Nat}
    (hr : m.engine.runningSlot = some ⟨.clearEvacuation, before ++ ⟨u, .due⟩ :: behind, n⟩)
    (hu : ∀ i ∈ before ++ behind, i.unit ≠ u) (hl : ∀ i ∈ before ++ behind, ∃ y, i.stage = .done y) :
    record u counted ⟨m, .done y⟩ =
      { m.setRunning none with
        notices := m.notices.post (m.doneNotice .clearEvacuation .ok (n + counted)) } := by
  rw [record_eq hr hu]
  refine (finish_ends (r := ⟨.clearEvacuation, before ++ ⟨u, .done y⟩ :: behind, n + counted⟩) rfl fun i hi => ?_).trans
    rfl
  rw [isDone_iff]
  rcases List.mem_append.1 hi with hi | hi
  · exact hl i (List.mem_append.2 (.inl hi))
  · rcases List.mem_cons.1 hi with rfl | hi
    · exact ⟨y, rfl⟩
    · exact hl i (List.mem_append.2 (.inr hi))

/-- A cabin that is not in EVAC_OPEN needs no step. -/
theorem clearOne_other (h : (s.unit u).state ≠ .evacOpen) : clearOne s u = record u 0 ⟨s, .done .ok⟩ := by
  simp [clearOne, clearStep, h]

/-- A cabin with a movement in hand is watched. -/
theorem clearOne_watched (h : (s.unit u).state = .evacOpen) (hi : s.inHand u = true) :
    clearOne s u = record u 0 ⟨s, .watchFinish⟩ := by
  simp [clearOne, clearStep, h, hi]

/-- A suspended cabin closes silently. -/
theorem clearOne_silent (h : (s.unit u).state = .evacOpen) (hi : s.inHand u = false)
    (hs : (s.unit u).suspended = true) : clearOne s u = record u 1 ⟨enter s u .closing, .done .ok⟩ := by
  simp [clearOne, clearStep, h, hi, hs]

/-- Any other cabin in EVAC_OPEN closes. -/
theorem clearOne_closes (h : (s.unit u).state = .evacOpen) (hi : s.inHand u = false)
    (hs : (s.unit u).suspended = false) :
    clearOne s u = record u 1 ⟨handOver (enter s u .closing) u .throw .normal, .done .ok⟩ := by
  simp [clearOne, clearStep, h, hi, hs]

/-- A movement handed over leaves the running slot, the notices and the clock alone. -/
theorem DriveActs.running (h : DriveActs s t) :
    t.engine.runningSlot = s.engine.runningSlot ∧ t.notices = s.notices ∧ t.clock = s.clock := by
  obtain ⟨e, g, _⟩ := h
  exact ⟨by rw [g], by rw [e], by rw [e]⟩

theorem MovesOn.setRunning (h : MovesOn s t u op c) (r : Option Running) :
    MovesOn (s.setRunning r) (t.setRunning r) u op c := by
  have hq := h.reported r t.notices
  have hs : { s.setRunning r with notices := t.notices } = s.setRunning r := by rw [h.1.running.2.1]; rfl
  rw [hs] at hq
  exact hq

theorem enter_eq (st : UState) :
    enter s u st = { s with units := put s.units u ((s.unit u).enters (s.kind u) st) } := rfl

end

/-- Settles O60, action by action: the acceptances, the report that ends a reset, and the steps of a clearing. -/
theorem reloadResetAndClear : Obligations.ReloadResetAndClear := by
  unfold Obligations.ReloadResetAndClear
  refine ⟨fun s a h => ?_, fun s b items n before behind st code count hon hr hi hb =>
    congrArg Host.Outcome.next (resetBankDone_eq hon hr hi hb), fun s u before behind n hon hr hu hb hk => ?_⟩
  · intro ends runs
    refine ⟨?_, ?_, ?_, ?_⟩
    · rintro rfl
      exact ⟨_, rfl, h.serves rfl rfl rfl⟩
    · rintro b rfl hb
      exact ⟨_, rfl, h.serves rfl rfl ((if_pos hb).trans (endAction_eq (r := ⟨.resetBank b, [], 0⟩) rfl))⟩
    · rintro b rfl hb
      have acts := enterResetting_bankActs (s := moveToRunning s (.resetBank b)) (b := b)
      have bank := enterResetting_bank (moveToRunning s (.resetBank b)) b
      have chain := enterResetting_chain (moveToRunning s (.resetBank b)) b
      have loses := enterResetting_loses (moveToRunning s (.resetBank b)) b
      have taps := enterResetting_tapMemory (moveToRunning s (.resetBank b)) b
      refine ⟨_, _, rfl, resetBank_begins h hb, acts.frame, acts.kept,
        fun d hd => ⟨acts.bank d hd, acts.chain d hd⟩, ?_⟩
      rw [bank, chain]
      refine ⟨rfl, rfl, rfl, rfl, rfl, rfl, ?_, fun x hx => ?_, taps, loses.congr rfl rfl rfl rfl rfl rfl rfl,
        fun hr hm => enterResetting_still hr hm⟩
      · rw [State.rstHeld, bank]
        simp [Bank.leave]
      · obtain ⟨y, _, rfl⟩ := List.mem_map.1 hx
        exact ⟨rfl, rfl, rfl, rfl, rfl⟩
    · rintro rfl cabins cut
      have hc : s.evacOpenCabins = cabins := evacOpenCabins_eq
      refine ⟨fun hl => ⟨_, rfl, clearEvacuation_ends h (.inl hl)⟩, fun hl he => ⟨_, rfl, ?_⟩,
        fun hl he => ⟨_, rfl, ?_⟩⟩
      · exact clearEvacuation_ends h (.inr (hc.trans he))
      · rw [← hc]
        exact clearEvacuation_lists h (by simp [hl, hc, he])
  · intro r last after' ended closing
    have he : exec .clearEvacuationStep s = .next (clearOne s u) :=
      congrArg Host.Outcome.next (clearEvacuationStep_eq hon hr hb)
    have hE : enter s u .closing = { s with units := put s.units u (r.enters .cabin .closing) } := by
      rw [enter_eq, hk]
    have hrE : (enter s u .closing).engine.runningSlot = some ⟨.clearEvacuation, before ++ ⟨u, .due⟩ :: behind, n⟩ := hr
    refine ⟨fun hs hi => ?_, fun hs hi hsus => ?_, fun hs hi hsus => ?_, fun hs => ?_⟩
    · rw [he, clearOne_watched hs hi, record_goes hr hu (.inl rfl)]
      rfl
    · rw [he, clearOne_silent hs hi hsus]
      refine ⟨fun hl => ?_, fun hl => ?_⟩
      · rw [record_goes hrE hu (.inr hl), hE]
        rfl
      · rw [record_ends hrE hu hl, hE]
        rfl
    · have hm := handOver_movesOn (enter s u .closing) u .throw .normal
      obtain ⟨hrM, hnM, hcM⟩ := hm.1.running
      refine ⟨_, he, fun hl => ?_, fun hl => ?_⟩
      · rw [clearOne_closes hs hi hsus, record_goes (hrM.trans hrE) hu (.inr hl)]
        have hq := hm.setRunning (some ⟨.clearEvacuation, before ++ ⟨u, .done .ok⟩ :: behind, n + 1⟩)
        rw [hE] at hq ⊢
        exact hq
      · rw [clearOne_closes hs hi hsus, record_ends (hrM.trans hrE) hu hl]
        have hd : State.doneNotice (handOver (enter s u .closing) u .throw .normal) .clearEvacuation .ok (n + 1) =
            s.doneNotice .clearEvacuation .ok (n + 1) := by
          unfold State.doneNotice State.notice
          rw [hcM]
          rfl
        have hq := hm.reported none (s.notices.post (s.doneNotice .clearEvacuation .ok (n + 1)))
        rw [hd, hnM]
        rw [hE] at hq ⊢
        exact hq
    · rw [he, clearOne_other hs]
      refine ⟨fun hl => record_goes hr hu (.inr hl) ▸ rfl, fun hl => record_ends hr hu hl ▸ rfl⟩

end Sys2Proof.Machine
end


/-! ## Holders, comparisons and returns of one unit -/

section
namespace Sys2Proof.Machine

variable {s m t : State} {u v : UnitIx} {b x : Band} {l : List BandEntry} {c : Cell} {st : UState}

/-! ### The Band Index (R21) -/

theorem heldBy_cons (e : BandEntry) (l : List BandEntry) (x : Band) :
    heldBy (e :: l) x = if e.band = x then e.held else heldBy l x := by
  by_cases h : e.band = x <;> simp [heldBy, bandEntry, h]

theorem heldBy_eq_nil (h : ∀ e ∈ l, e.band ≠ x) : heldBy l x = [] := by
  induction l with
  | nil => rfl
  | cons e l ih =>
    rw [heldBy_cons, if_neg (h e (by simp))]
    exact ih fun e he => h e (by simp [he])

theorem unbindUnit_cons (e : BandEntry) (l : List BandEntry) (b : Band) (u : UnitIx) :
    unbindUnit (e :: l) b u =
      if (if e.band = b then { e with held := e.held.filter (· ≠ u) } else e).held ≠ [] then
        (if e.band = b then { e with held := e.held.filter (· ≠ u) } else e) :: unbindUnit l b u
      else unbindUnit l b u := by
  simp only [unbindUnit, List.map_cons, List.filter_cons, decide_eq_true_eq]

theorem band_of_mem_unbindUnit {e : BandEntry} (h : e ∈ unbindUnit l b u) : ∃ e' ∈ l, e'.band = e.band := by
  obtain ⟨e', he', rfl⟩ := List.mem_map.1 (List.mem_filter.1 h).1
  exact ⟨e', he', by split_ifs <;> rfl⟩

/-- A unit leaves the held list of its band, and the other bands' lists stay (R21). -/
theorem heldBy_unbindUnit (hd : l.Pairwise fun e e' => e.band ≠ e'.band) (hn : ∀ e ∈ l, e.held ≠ []) :
    heldBy (unbindUnit l b u) x = if b = x then (heldBy l x).filter (· ≠ u) else heldBy l x := by
  induction l with
  | nil => simp [unbindUnit, heldBy, bandEntry]
  | cons e l ih =>
    obtain ⟨hde, hdl⟩ := List.pairwise_cons.1 hd
    have ih := ih hdl fun e he => hn e (by simp [he])
    have tail : e.band = x → heldBy (unbindUnit l b u) x = [] := by
      rintro rfl
      refine heldBy_eq_nil fun e' he' => ?_
      obtain ⟨e'', hm, hb⟩ := band_of_mem_unbindUnit he'
      rw [← hb]
      exact (hde e'' hm).symm
    rw [unbindUnit_cons, heldBy_cons]
    set e' : BandEntry := if e.band = b then { e with held := e.held.filter (· ≠ u) } else e with he'
    have hband : e'.band = e.band := by rw [he']; split_ifs <;> rfl
    by_cases hx : e.band = x
    · have hheld : heldBy (if e'.held ≠ [] then e' :: unbindUnit l b u else unbindUnit l b u) x = e'.held := by
        split_ifs with h
        · rw [heldBy_cons, if_pos (hband.trans hx)]
        · rw [tail hx, not_not.1 h]
      rw [hheld, if_pos hx, he', hx]
      by_cases hb : x = b
      · rw [if_pos hb, if_pos hb.symm]
      · rw [if_neg hb, if_neg (Ne.symm hb)]
    · have hheld : heldBy (if e'.held ≠ [] then e' :: unbindUnit l b u else unbindUnit l b u) x =
          heldBy (unbindUnit l b u) x := by
        split_ifs
        · rw [heldBy_cons, if_neg (hband ▸ hx)]
        · rfl
      rw [hheld, if_neg hx, ih]

/-- The bands of the Band Index differ, and each has a unit in its list (R21). -/
theorem HoldingsOk.bands (h : HoldingsOk s) :
    (s.bands.Pairwise fun e e' => e.band ≠ e'.band) ∧ ∀ e ∈ s.bands, e.held ≠ [] :=
  ⟨h.1.imp fun hlt he => by simp [he] at hlt, fun e he => (h.2.1 e he).1⟩

/-! ### A unit's record -/

theorem put_put {α : Type} {n : Nat} (w : Vector α n) (i : Fin n) (y z : α) : put (put w i y) i z = put w i z := by
  simp [put]

theorem modUnit_modUnit (f g : UnitRec → UnitRec) :
    (s.modUnit u f).modUnit u g = s.modUnit u fun r => g (f r) := by
  rw [State.modUnit, modUnit_unit_self]
  show { s with units := put (put s.units u _) u _ } = _
  rw [put_put]
  rfl

theorem unit_put (r : UnitRec) : (put s.units u r).get u = r := put_get_self _ _ _

/-- A holder is cleared (R20, R21, R58). -/
theorem clearHolder_eq : clearHolder s u = { s with
    bands := (s.unit u).holder.elim s.bands fun b => unbindUnit s.bands b u
    units := put s.units u (s.unit u).unheld } := by
  unfold clearHolder
  dsimp only
  split
  · rename_i h; rw [h]; rfl
  · rename_i h; rw [h]; rfl

/-- The holder's band loses the unit (R21). -/
theorem unbind_bandLeft (h : HoldingsOk s) (o : Option Band) :
    BandLeft s (o.elim s.bands fun b => unbindUnit s.bands b u) u o := by
  obtain ⟨hd, hn⟩ := h.bands
  intro x
  cases o with
  | none => rfl
  | some b =>
    simp only [Option.some.injEq]
    exact heldBy_unbindUnit hd hn

/-- A unit enters a state (R50). -/
theorem enter_unit_self : (enter s u st).unit u = (s.unit u).enters (s.kind u) st := unit_put _

theorem enter_unit_other (h : v ≠ u) : (enter s u st).unit v = s.unit v := modUnit_unit_other _ _ _ _ h

/-! ### Movements re-derived, and the comparison (R49) -/

/-- A movement that neither R178 replaces nor an EVAC_OPEN cabin makes URGENT is NORMAL. -/
theorem rederive_plain {op : BoltOp} {bolt : Bool} (h : ¬(op = .throw ∧ s.kind u = .cabin ∧ s.levelEvac = true))
    (hs : (s.unit u).state ≠ .evacOpen) : rederive s u op bolt = handOver s u op .normal := by
  unfold rederive
  rw [if_neg h, if_neg fun k => hs k.2.1]

theorem compareUnit_freeLocker (hk : s.kind u = .locker) (hs : (s.unit u).state = .free) :
    compareUnit s u c = if c.bolt then handOver s u .withdraw .normal else s := by
  unfold compareUnit
  rw [hk, hs]
  dsimp only
  rw [rederive_plain (by simp) (by simp [hs])]

theorem compareUnit_heldLocker (hk : s.kind u = .locker) (hs : (s.unit u).state = .held) :
    compareUnit s u c = if c.door = false then forceOpen s u else if c.bolt then s
      else handOver (enter s u .locking) u .throw .normal := by
  have hk' : (enter s u .locking).kind u = .locker := hk
  unfold compareUnit
  rw [hk, hs]
  dsimp only
  rw [rederive_plain (by simp [hk']) (by rw [enter_unit_self]; simp [UnitRec.enters])]
  simp

theorem compareUnit_vacatingCabin (hk : s.kind u = .cabin) (hs : (s.unit u).state = .vacating) :
    compareUnit s u c = if c.bolt then handOver s u .withdraw .normal else s := by
  unfold compareUnit
  rw [hk, hs]
  dsimp only
  rw [rederive_plain (by simp) (by simp [hs])]

/-- A FREE cabin while LEVEL-mode evacuation does not hold. -/
theorem compareUnit_freeCabin (hk : s.kind u = .cabin) (hs : (s.unit u).state = .free) (he : s.levelEvac = false) :
    compareUnit s u c = if c.bolt then s else handOver s u .throw .normal := by
  unfold compareUnit
  rw [hk, hs]
  dsimp only
  rw [rederive_plain (by simp [he]) (by simp [hs])]
  simp [he]

/-- A FREE cabin under LEVEL-mode evacuation (R178). -/
theorem compareUnit_freeCabin_evac (hk : s.kind u = .cabin) (hs : (s.unit u).state = .free)
    (he : s.levelEvac = true) :
    compareUnit s u c = if c.bolt then handOver (enter s u .evacOpen) u .withdraw .urgent else enter s u .evacOpen := by
  unfold compareUnit
  rw [hk, hs]
  dsimp only
  rw [if_neg (by simp [he])]
  exact if_pos ⟨rfl, hk, he⟩

/-! ### A return to service (R39, R49, R159) -/

/-- The unit back in service, before it is compared. -/
def returnedUnit (s : State) (u : UnitIx) : State :=
  let t := handReturn (s.modUnit u fun r => { r with suspended := false }) u
  if (s.unit u).holder.isNone then enter t u .free
  else if s.kind u = .locker then enter t u .held
  else postReleased (enter (clearHolder t u) u .vacating) u .fault (s.unit u).holder (s.unit u).boundAt

theorem returnUnit_eq : returnUnit s u =
    if (s.bank (bankOf u)).state = .running ∧ !s.inHand u then compareUnit (returnedUnit s u) u (s.cell u)
    else returnedUnit s u := rfl

theorem returnHands_iff : s.returnHands u = true ↔
    s.kind u = .locker ∧ ((s.unit u).stateRef ≠ none ∨ s.stateWaits u = true) := by
  simp only [State.returnHands, Bool.and_eq_true, decide_eq_true_eq, Bool.or_eq_true, Option.isSome_iff_ne_none]

/-- STATE RETURN is handed over where a STATE stands (R39). -/
theorem handReturn_eq : handReturn (s.modUnit u fun r => { r with suspended := false }) u = { s with
    units := put s.units u { s.unit u with
      suspended := false, stateRef := if s.returnHands u then none else (s.unit u).stateRef }
    journal := if s.returnHands u then (handJournal s (.state u .returned)).journal else s.journal } := by
  have hh : (s.modUnit u fun r => { r with suspended := false }).returnHands u = s.returnHands u := by
    simp only [State.returnHands, modUnit_unit_self]
    rfl
  unfold handReturn
  rw [hh]
  split_ifs with h
  · rw [modUnit_modUnit]
    rfl
  · rfl

/-- What the record of a unit back in service holds (R39, R49, R159). -/
structure BackInService (s m : State) (u : UnitIx) : Prop where
  suspended : (m.unit u).suspended = false
  stateRef : s.returnHands u = true → (m.unit u).stateRef = none
  free : (s.unit u).holder = none → (m.unit u).state = .free ∧ (m.unit u).holder = none
  held : (s.unit u).holder ≠ none → s.kind u = .locker → (m.unit u).state = .held ∧ (m.unit u).holder = (s.unit u).holder
  vacating : (s.unit u).holder ≠ none → s.kind u ≠ .locker → (m.unit u).state = .vacating ∧ (m.unit u).holder = none
  lamp : (m.unit u).lamp.steady = steadyLamp (s.kind u) (m.unit u).state

/-- What a return to service touches: the unit's record, the Journal Queue, the Band Index, and a cabin's RELEASED. -/
structure ReturnTouches (s m : State) (u : UnitIx) : Prop where
  frame : m = { s with
    units := m.units, journal := m.journal, bands := m.bands
    notices := if s.kind u ≠ .locker ∧ (s.unit u).holder ≠ none
      then s.notices.post (s.notice .released 9 (some u) (s.unit u).holder (s.unit u).boundAt) else s.notices }
  journal : m.journal = if s.returnHands u then (handJournal s (.state u .returned)).journal else s.journal
  bands : HoldingsOk s → BandLeft s m.bands u (if s.kind u = .locker then none else (s.unit u).holder)
  others : ∀ v, v ≠ u → m.unit v = s.unit v

theorem bandLeft_none : BandLeft s s.bands u none := fun _ => rfl

/-- The record that a return to service starts from: the mark gone, and the ref with it where STATE RETURN is handed. -/
def State.returning (s : State) (u : UnitIx) : UnitRec :=
  { s.unit u with suspended := false, stateRef := if s.returnHands u then none else (s.unit u).stateRef }

/-- The same state before the unit enters FREE, HELD or VACATING. -/
def State.returnStart (s : State) (u : UnitIx) : State := { s with
  units := put s.units u (s.returning u)
  journal := if s.returnHands u then (handJournal s (.state u .returned)).journal else s.journal }

theorem returnStart_unit : (s.returnStart u).unit u = s.returning u := unit_put _

theorem returnStart_other (h : v ≠ u) : (s.returnStart u).unit v = s.unit v := put_get_other _ _ _ _ h

theorem returning_stateRef (h : s.returnHands u = true) : (s.returning u).stateRef = none := if_pos h

theorem returnedUnit_of_none (h : (s.unit u).holder = none) :
    returnedUnit s u = enter (s.returnStart u) u .free := by
  unfold returnedUnit
  rw [handReturn_eq, h]
  rfl

theorem returnedUnit_of_locker (h : (s.unit u).holder ≠ none) (hk : s.kind u = .locker) :
    returnedUnit s u = enter (s.returnStart u) u .held := by
  unfold returnedUnit
  rw [handReturn_eq, if_neg (by simpa using h), if_pos hk]
  rfl

theorem returnedUnit_of_cabin (h : (s.unit u).holder ≠ none) (hk : s.kind u ≠ .locker) :
    returnedUnit s u = postReleased (enter (clearHolder (s.returnStart u) u) u .vacating) u .fault (s.unit u).holder
      (s.unit u).boundAt := by
  unfold returnedUnit
  rw [handReturn_eq, if_neg (by simpa using h), if_neg hk]
  rfl

theorem returnedUnit_touches (s : State) (u : UnitIx) : ReturnTouches s (returnedUnit s u) u := by
  by_cases h : (s.unit u).holder = none
  · rw [returnedUnit_of_none h]
    refine ⟨?_, rfl, fun _ => ?_, fun v hv => (enter_unit_other hv).trans (returnStart_other hv)⟩
    · rw [if_neg fun k => k.2 h]
      rfl
    · rw [h, ite_self]
      exact bandLeft_none
  · by_cases hk : s.kind u = .locker
    · rw [returnedUnit_of_locker h hk]
      refine ⟨?_, rfl, fun _ => ?_, fun v hv => (enter_unit_other hv).trans (returnStart_other hv)⟩
      · rw [if_neg fun k => k.1 hk]
        rfl
      · rw [if_pos hk]
        exact bandLeft_none
    · rw [returnedUnit_of_cabin h hk]
      have hc := clearHolder_eq (s := s.returnStart u) (u := u)
      refine ⟨?_, ?_, fun hok => ?_, fun v hv => ?_⟩
      · rw [if_pos ⟨hk, h⟩, hc]
        rfl
      · rw [hc]
        rfl
      · rw [if_neg hk, hc, returnStart_unit]
        exact unbind_bandLeft hok _
      · refine (enter_unit_other (s := clearHolder (s.returnStart u) u) hv).trans ?_
        rw [hc]
        exact (put_get_other _ _ _ _ hv).trans (returnStart_other hv)

theorem returnedUnit_backInService (s : State) (u : UnitIx) : BackInService s (returnedUnit s u) u := by
  by_cases h : (s.unit u).holder = none
  · have hu : (returnedUnit s u).unit u = (s.returning u).enters (s.kind u) .free := by
      rw [returnedUnit_of_none h, enter_unit_self, returnStart_unit]
      rfl
    refine ⟨?_, fun hh => ?_, fun _ => ?_, fun k => absurd h k, fun k => absurd h k, ?_⟩
    all_goals rw [hu]
    exacts [rfl, returning_stateRef hh, ⟨rfl, h⟩, rfl]
  · by_cases hk : s.kind u = .locker
    · have hu : (returnedUnit s u).unit u = (s.returning u).enters (s.kind u) .held := by
        rw [returnedUnit_of_locker h hk, enter_unit_self, returnStart_unit]
        rfl
      refine ⟨?_, fun hh => ?_, fun k => absurd k h, fun _ _ => ?_, fun _ k => absurd hk k, ?_⟩
      all_goals rw [hu]
      exacts [rfl, returning_stateRef hh, ⟨rfl, rfl⟩, rfl]
    · have hu : (returnedUnit s u).unit u = (s.returning u).unheld.enters (s.kind u) .vacating := by
        rw [returnedUnit_of_cabin h hk]
        refine (enter_unit_self (s := clearHolder (s.returnStart u) u)).trans ?_
        have hc : (clearHolder (s.returnStart u) u).unit u = (s.returning u).unheld := by
          rw [clearHolder_eq, ← returnStart_unit]
          exact unit_put _
        have hkind : (clearHolder (s.returnStart u) u).kind u = s.kind u := by rw [clearHolder_eq]; rfl
        rw [hc, hkind]
      refine ⟨?_, fun hh => ?_, fun k => absurd k h, fun _ k => absurd k hk, fun _ _ => ?_, ?_⟩
      all_goals rw [hu]
      exacts [rfl, returning_stateRef hh, ⟨rfl, rfl⟩, rfl]

end Sys2Proof.Machine
end


/-! ## The actions that end in the event of their acceptance -/

section
namespace Sys2Proof.Machine

variable {s m t : State} {a : Action} {u : UnitIx} {op : BoltOp} {urg : Urgency} {k extra : Nat} {why : Result}
  {first : Action → State → State}

/-! ### Acceptances held back (R24) -/

/-- An event that R24 does not let through, and that would hand a record over, is held back. -/
theorem accept_noted (hon : Taking s) (hp : s.engine.pendingSlot = some a) (hr : s.engine.runningSlot = none)
    (hh : a.firstHands s = true) (hl : ¬LetThrough s .accept) : HeldEvent.accept ∈ s.noteHeld.engine.held := by
  have hb : ¬JournalRoom s ∨ ∃ x ∈ s.engine.held, s.stillHeld x = true := by
    by_contra hno
    push Not at hno
    refine hl ⟨hno.1, fun x hx => Bool.eq_false_iff.2 (hno.2 x ((List.takeWhile_sublist _).subset hx))⟩
  exact mem_heldNow s hon hb .accept ⟨by simp [hp], hr⟩ (by simp [State.stillHeld, hp, hh])

/-- What is held back and what has arrived keep their places while an acceptance is held back. -/
theorem noteHeld_keepsHeld (x : HeldEvent) : KeepsHeld s s.noteHeld x := by
  refine ⟨List.Sublist.trans ?_ (noteHeld_keeps s).2, List.filter_sublist, List.Sublist.refl _⟩
  rw [← List.filter_filter]
  exact List.filter_sublist

theorem accept_holds (hon : Taking s) (hp : s.engine.pendingSlot = some a) (hr : s.engine.runningSlot = none)
    (hahead : ¬EventsAhead s) (hh : a.firstHands s = true) (hl : ¬LetThrough s .accept) (hk : a.code = k) :
    accept s k first = s.noteHeld := by
  refine accept_held hp hk (examined_iff.2 ⟨hon, hr, hahead⟩) (Bool.eq_false_iff.2 fun hacc => hl ?_)
  obtain ⟨_, _, _, _, hlet⟩ := (acceptable_iff hp).1 hacc
  exact hlet hh

/-! ### How an acceptance ends -/

/-- A first step that ends the action. -/
theorem Acceptable.ends (h : Acceptable s a) (hk : a.code = k) (hp : a.passes s = true)
    (hm : m.engine.runningSlot = some ⟨a, [], 0⟩) (hc : m.clock = s.clock)
    (he : first a (moveToRunning s a) = endAction m why extra) :
    PortServes { m.setRunning none with notices := m.notices.post (s.doneNotice a why extra) }
      (Machine.accept s k first) := by
  refine h.serves hk hp (he.trans ((endAction_eq hm).trans ?_))
  rw [State.doneNotice, State.notice, hc]
  rfl

/-- A first step that hands a movement over and ends the action. -/
theorem Acceptable.moves (h : Acceptable s a) (hk : a.code = k) (hp : a.passes s = true)
    (hm : m.engine.runningSlot = some ⟨a, [], 0⟩) (hc : m.clock = s.clock)
    (he : first a (moveToRunning s a) = endAction (handOver m u op urg) .ok 0) :
    ∃ x, MovesOn (m.setRunning none) x u op urg ∧
      PortServes { x with notices := x.notices.post (s.doneNotice a .ok 0) } (Machine.accept s k first) := by
  have hmove := handOver_movesOn m u op urg
  obtain ⟨hrun, _, hclock⟩ := hmove.1.running
  exact ⟨_, hmove.setRunning none, h.ends hk hp (hrun.trans hm) (hclock.trans hc) he⟩

/-- A unit of another kind by now (R149). -/
theorem Acceptable.badArgument (h : Acceptable s a) (hk : a.code = k) (hp : a.passes s = false) :
    PortServes { s.accepted none with notices := s.notices.post (s.doneNotice a .badArgument 0) }
      (Machine.accept s k first) := by
  rw [h.accept hk, if_neg (by simp [hp])]
  have he : endAction (moveToRunning s a) .badArgument 0 =
      { s.accepted none with notices := s.notices.post (s.doneNotice a .badArgument 0) } :=
    endAction_eq (r := ⟨a, [], 0⟩) rfl
  rw [he]
  exact pump_serves _

/-! ### SET_OUT_OF_SERVICE (R158) -/

theorem outOfServiceFirst_held (h : (s.unit u).holder ≠ none) :
    outOfServiceFirst (.setOutOfService u) s = endAction s .held 0 :=
  if_pos (Option.isSome_iff_ne_none.2 h)

theorem outOfServiceFirst_noHolder (h : (s.unit u).holder = none) : outOfServiceFirst (.setOutOfService u) s =
    if (s.unit u).state = .free then
      if s.inHand u || (s.unit u).suspended then endAction s .busy 0
      else endAction (if s.kind u = .locker then handJournal (enter s u .outOfService) (.state u .outOfService)
        else enter s u .outOfService) .ok 0
    else if (s.unit u).state = .outOfService then endAction s .ok 0
    else endAction s .notFree 0 := by
  unfold outOfServiceFirst
  dsimp only
  rw [h, if_neg (by simp)]
  cases (s.unit u).state <;> rfl

/-- A FREE unit goes OUT_OF_SERVICE, a locker with a STATE record (R39, R158). -/
theorem outOfService_eq : (if s.kind u = .locker then handJournal (enter s u .outOfService) (.state u .outOfService)
      else enter s u .outOfService) = { s with
    units := put s.units u ((s.unit u).enters (s.kind u) .outOfService)
    journal := if s.kind u = .locker then (handJournal s (.state u .outOfService)).journal else s.journal } := by
  split_ifs <;> rfl

/-! ### EXTEND_CABIN (R66 to R68) -/

theorem warningTime_eq (expiry lead now : Nat) :
    warningTime expiry lead now = if 1 ≤ lead ∧ now < expiry - lead then some (expiry - lead) else none := by
  unfold warningTime
  refine if_congr ?_ rfl rfl
  omega

/-- A new expiry brings its warning, grace end and timer entry (R58, R68). -/
theorem extendTo_eq {e : Nat} {w : Option Nat}
    (hw : warningTime e (s.tables.zones.get (s.zone u)).warningLead s.clock.sec = w) : extendTo s u e = { s with
      units := put s.units u { ((s.unit u).enters (s.kind u) .inUse) with
        expiry := some e
        warningAt := w
        graceEnd := some (min (e + (s.tables.zones.get (s.zone u)).grace) 4294967295)
        overstay := false }
      timers := w.elim (setTimer s.timers u .expiry e) fun d => setTimer s.timers u .warning d } := by
  have timer : ∀ (m : State) k d (g : UnitRec → UnitRec), (m.withTimer u k d).modUnit u g =
    (m.modUnit u g).withTimer u k d := fun _ _ _ _ => rfl
  have hw' : warningTime e ((enter s u .inUse).tables.zones.get ((enter s u .inUse).zone u)).warningLead
      (enter s u .inUse).clock.sec = w := hw
  unfold extendTo setTimes
  dsimp only
  rw [hw']
  clear hw hw'
  cases w with
  | none =>
    dsimp only
    rw [timer, enter, modUnit_modUnit, modUnit_modUnit]
    rfl
  | some w =>
    dsimp only
    rw [timer, enter, modUnit_modUnit, modUnit_modUnit]
    rfl

/-! ### RETURN_TO_SERVICE and CLEAR_FAULT (R159) -/

/-- Both return the unit where its state suits them. -/
def ReturnsBy (c : Instr) (k : Nat) (first : Action → State → State) (a : Action) (u : UnitIx) : Prop :=
  (∀ s, exec c s = .next (accept s k first)) ∧ a.code = k ∧
  ∀ m, first a m =
    if (m.unit u).state = .fault ∨ ((m.unit u).state = .outOfService ∧ a = .returnToService u) then
      endAction (returnUnit m u) .ok 0
    else endAction m (if a = .returnToService u then .notOutOfService else .notFaulted) 0

theorem returnsBy {c : Instr} (h : (a = .returnToService u ∧ c = .returnToService) ∨ (a = .clearFault u ∧ c = .clearFault)) :
    ∃ k first, ReturnsBy c k first a u := by
  rcases h with ⟨rfl, rfl⟩ | ⟨rfl, rfl⟩
  · refine ⟨5, returnFirst, fun _ => rfl, rfl, fun m => ?_⟩
    simp [returnFirst, or_comm]
  · refine ⟨6, clearFaultFirst, fun _ => rfl, rfl, fun m => ?_⟩
    simp [clearFaultFirst]

theorem cleaningFirst_eq (b : BankIx) (on : Bool) : cleaningFirst (.bankCleaning b on) s =
    endAction { s with engine := { s.engine with cleaning := put s.engine.cleaning b on } } .ok 0 := rfl

/-- What compares a unit that has been returned to service: the state it is compared in, and what the comparison ends
with. -/
theorem returnUnit_still (h : (s.bank (bankOf u)).state ≠ .running ∨ s.inHand u = true) :
    returnUnit s u = returnedUnit s u := by
  rw [returnUnit_eq, if_neg]
  rintro ⟨hr, hi⟩
  rcases h with h | h
  · exact h hr
  · simp [h] at hi

theorem returnUnit_compared (h : (s.bank (bankOf u)).state = .running) (hi : s.inHand u = false) :
    returnUnit s u = compareUnit (returnedUnit s u) u (s.cell u) := by
  rw [returnUnit_eq, if_pos ⟨h, by simp [hi]⟩]

theorem forceOpen_eq : forceOpen s u = { s with
    units := put s.units u ((s.unit u).enters (s.kind u) .forced)
    notices := s.notices.post (s.notice .doorForced 0 (some u) (s.unit u).holder 0) } := rfl

section
variable {c : Instr}

/-- The unit suits the action's return: in FAULT, or OUT_OF_SERVICE for RETURN_TO_SERVICE. -/
def Suits (s : State) (a : Action) (u : UnitIx) : Prop :=
  (s.unit u).state = .fault ∨ ((s.unit u).state = .outOfService ∧ a = .returnToService u)

/-- A return that ends without a movement. -/
theorem Acceptable.returns (h : Acceptable s a) (hb : ReturnsBy c k first a u) (hp : a.passes s = true)
    (hs : Suits s a u) (hx : returnUnit (moveToRunning s a) u = m)
    (hm : m.engine.runningSlot = some ⟨a, [], 0⟩) (hc : m.clock = s.clock) :
    ∃ t, exec c s = .next t ∧
      PortServes { m.setRunning none with notices := m.notices.post (s.doneNotice a .ok 0) } t := by
  obtain ⟨he, hk, hf⟩ := hb
  refine ⟨_, he s, h.ends hk hp hm hc ((hf _).trans ((if_pos hs).trans ?_))⟩
  rw [hx]

/-- A return that hands a movement over. -/
theorem Acceptable.returnsMoving (h : Acceptable s a) (hb : ReturnsBy c k first a u) (hp : a.passes s = true)
    (hs : Suits s a u) (hx : returnUnit (moveToRunning s a) u = handOver m u op urg)
    (hm : m.engine.runningSlot = some ⟨a, [], 0⟩) (hc : m.clock = s.clock) :
    ∃ x t, exec c s = .next t ∧ MovesOn (m.setRunning none) x u op urg ∧
      PortServes { x with notices := x.notices.post (s.doneNotice a .ok 0) } t := by
  obtain ⟨he, hk, hf⟩ := hb
  obtain ⟨x, hmove, hserve⟩ := h.moves hk hp hm hc ((hf _).trans ((if_pos hs).trans (by rw [hx])))
  exact ⟨x, _, he s, hmove, hserve⟩

end

/-! ### The actions one by one -/

/-- An accepted action ends in the event of its acceptance, from a state that was reached by its first step. -/
def Ends (s : State) (a : Action) (c : Instr) (m : State) (why : Result) (extra : Nat) : Prop :=
  ∃ t, exec c s = .next t ∧ PortServes { m with notices := m.notices.post (s.doneNotice a why extra) } t

/-- The same, with a movement handed over. -/
def EndsMoving (s : State) (a : Action) (c : Instr) (m : State) (u : UnitIx) (op : BoltOp) (urgency : Urgency) : Prop :=
  ∃ x t, exec c s = .next t ∧ MovesOn m x u op urgency ∧
    PortServes { x with notices := x.notices.post (s.doneNotice a .ok 0) } t

/-- An acceptance is held back, and noted. -/
theorem accept_heldBack (hon : Taking s) (hp : s.engine.pendingSlot = some a) (hr : s.engine.runningSlot = none)
    (hahead : ¬EventsAhead s) (hh : a.firstHands s = true) (hl : ¬LetThrough s .accept) (hk : a.code = k) :
    accept s k first = s.holding (accept s k first) ∧ HeldEvent.accept ∈ (accept s k first).engine.held ∧
      KeepsHeld s (accept s k first) .accept := by
  rw [accept_holds hon hp hr hahead hh hl hk]
  exact ⟨(noteHeld_keeps s).1, accept_noted hon hp hr hh hl, noteHeld_keepsHeld _⟩

/-- SET_OUT_OF_SERVICE (R158). -/
theorem Acceptable.setOutOfService (h : Acceptable s (.setOutOfService u))
    (hp : (Action.setOutOfService u).passes s = true) :
    ((s.unit u).holder ≠ none → Ends s (.setOutOfService u) .setOutOfService (s.accepted none) .held 0) ∧
    ((s.unit u).holder = none → (s.unit u).state = .free → ¬(s.inHand u = false ∧ (s.unit u).suspended = false) →
      Ends s (.setOutOfService u) .setOutOfService (s.accepted none) .busy 0) ∧
    ((s.unit u).holder = none → (s.unit u).state = .free → s.inHand u = false ∧ (s.unit u).suspended = false →
      Ends s (.setOutOfService u) .setOutOfService { s.accepted none with
        units := put s.units u ((s.unit u).enters (s.kind u) .outOfService)
        journal := if s.kind u = .locker then (handJournal s (.state u .outOfService)).journal else s.journal } .ok 0) ∧
    ((s.unit u).holder = none → (s.unit u).state = .outOfService →
      Ends s (.setOutOfService u) .setOutOfService (s.accepted none) .ok 0) ∧
    ((s.unit u).holder = none → (s.unit u).state ≠ .free → (s.unit u).state ≠ .outOfService →
      Ends s (.setOutOfService u) .setOutOfService (s.accepted none) .notFree 0) := by
  have ended : ∀ {w x}, endAction (moveToRunning s (.setOutOfService u)) w x =
      { s.accepted none with notices := s.notices.post (s.doneNotice (.setOutOfService u) w x) } :=
    endAction_eq (r := ⟨.setOutOfService u, [], 0⟩) rfl
  have hidle : (s.inHand u = false ∧ (s.unit u).suspended = false) ↔ (s.inHand u || (s.unit u).suspended) = false :=
    (Bool.or_eq_false_iff ..).symm
  have free := outOfServiceFirst_noHolder (s := moveToRunning s (.setOutOfService u)) (u := u)
  refine ⟨fun hh => ⟨_, rfl, ?_⟩, fun hh hs hi => ⟨_, rfl, ?_⟩, fun hh hs hi => ⟨_, rfl, ?_⟩,
    fun hh hs => ⟨_, rfl, ?_⟩, fun hh hs hs' => ⟨_, rfl, ?_⟩⟩
  · exact h.serves rfl hp ((outOfServiceFirst_held (s := moveToRunning s (.setOutOfService u)) hh).trans ended)
  · refine h.serves rfl hp ((free hh).trans ((if_pos hs).trans ((if_pos ?_).trans ended)))
    rw [← Bool.not_eq_false]
    exact hi ∘ hidle.2
  · refine h.serves rfl hp ((free hh).trans ((if_pos hs).trans ((if_neg ?_).trans ?_)))
    · rw [Bool.not_eq_true]
      exact hidle.1 hi
    · rw [outOfService_eq]
      exact endAction_eq (r := ⟨.setOutOfService u, [], 0⟩) rfl
  · refine h.serves rfl hp ((free hh).trans ((if_neg ?_).trans ((if_pos hs).trans ended)))
    exact fun k => absurd (hs.symm.trans k) (by decide)
  · exact h.serves rfl hp ((free hh).trans ((if_neg hs).trans ((if_neg hs').trans ended)))

/-- The comparison of a unit that has been returned to service, kind by kind (R49, R159). -/
theorem Acceptable.compares {c : Instr} {M : State} {cell : Cell} (h : Acceptable s a) (hb : ReturnsBy c k first a u)
    (hp : a.passes s = true) (hs : Suits s a u) (hcmp : returnUnit (moveToRunning s a) u = compareUnit M u cell)
    (back : BackInService (moveToRunning s a) M u) (hrun : M.engine.runningSlot = some ⟨a, [], 0⟩)
    (hclk : M.clock = s.clock) (hMkind : M.kind u = s.kind u) (hevac : M.levelEvac = s.levelEvac) :
    let r := s.unit u
    let m := M.setRunning none
    let as (st : UState) : State := { m with units := put m.units u ((m.unit u).enters (s.kind u) st) }
    (s.kind u = .locker → r.holder = none →
      if cell.bolt then EndsMoving s a c m u .withdraw .normal else Ends s a c m .ok 0) ∧
    (s.kind u = .locker → r.holder ≠ none →
      (cell.door = false → Ends s a c { as .forced with
        notices := m.notices.post (s.notice .doorForced 0 (some u) r.holder 0) } .ok 0) ∧
      (cell.door = true → cell.bolt = true → Ends s a c m .ok 0) ∧
      (cell.door = true → cell.bolt = false → EndsMoving s a c (as .locking) u .throw .normal)) ∧
    (s.kind u = .cabin → r.holder ≠ none →
      if cell.bolt then EndsMoving s a c m u .withdraw .normal else Ends s a c m .ok 0) ∧
    (s.kind u = .cabin → r.holder = none → s.levelEvac = false →
      if cell.bolt then Ends s a c m .ok 0 else EndsMoving s a c m u .throw .normal) ∧
    (s.kind u = .cabin → r.holder = none → s.levelEvac = true →
      if cell.bolt then EndsMoving s a c (as .evacOpen) u .withdraw .urgent
      else Ends s a c (as .evacOpen) .ok 0) := by
  intro r m as
  have ended : ∀ {X}, compareUnit M u cell = X → X.engine.runningSlot = some ⟨a, [], 0⟩ → X.clock = s.clock →
      Ends s a c (X.setRunning none) .ok 0 := fun hX hr hc => h.returns hb hp hs (hcmp.trans hX) hr hc
  have moved : ∀ {X op urg}, compareUnit M u cell = handOver X u op urg →
      X.engine.runningSlot = some ⟨a, [], 0⟩ → X.clock = s.clock → EndsMoving s a c (X.setRunning none) u op urg :=
    fun hX hr hc => h.returnsMoving hb hp hs (hcmp.trans hX) hr hc
  have entered : ∀ st, (enter M u st).setRunning none = as st := fun st => by
    rw [enter_eq, hMkind]
    rfl
  refine ⟨fun hk hh => ?_, fun hk hh => ⟨fun hd => ?_, fun hd hbolt => ?_, fun hd hbolt => ?_⟩, fun hk hh => ?_,
    fun hk hh he => ?_, fun hk hh he => ?_⟩
  · have hx := compareUnit_freeLocker (c := cell) (hMkind.trans hk) (back.free hh).1
    split_ifs with hbolt
    · exact moved (hx.trans (if_pos hbolt)) hrun hclk
    · exact ended (hx.trans (if_neg hbolt)) hrun hclk
  · have hx := compareUnit_heldLocker (c := cell) (hMkind.trans hk) (back.held hh hk).1
    have hf : (forceOpen M u).setRunning none = { as .forced with
        notices := (M.setRunning none).notices.post (s.notice .doorForced 0 (some u) r.holder 0) } := by
      have hnote : M.notice .doorForced 0 (some u) (M.unit u).holder 0 =
          s.notice .doorForced 0 (some u) r.holder 0 := by
        rw [State.notice, hclk, (back.held hh hk).2]
        rfl
      rw [forceOpen_eq, hnote, hMkind]
      rfl
    rw [← hf]
    exact ended (hx.trans (if_pos hd)) hrun hclk
  · have hx := compareUnit_heldLocker (c := cell) (hMkind.trans hk) (back.held hh hk).1
    exact ended (hx.trans ((if_neg (by simp [hd])).trans (if_pos hbolt))) hrun hclk
  · have hx := compareUnit_heldLocker (c := cell) (hMkind.trans hk) (back.held hh hk).1
    rw [← entered]
    exact moved (hx.trans ((if_neg (by simp [hd])).trans (if_neg (by simp [hbolt])))) hrun hclk
  · have hcabin : s.kind u ≠ .locker := by simp [hk]
    have hx := compareUnit_vacatingCabin (c := cell) (hMkind.trans hk) (back.vacating hh hcabin).1
    split_ifs with hbolt
    · exact moved (hx.trans (if_pos hbolt)) hrun hclk
    · exact ended (hx.trans (if_neg hbolt)) hrun hclk
  · have hx := compareUnit_freeCabin (c := cell) (hMkind.trans hk) (back.free hh).1 (hevac.trans he)
    split_ifs with hbolt
    · exact ended (hx.trans (if_pos hbolt)) hrun hclk
    · exact moved (hx.trans (if_neg hbolt)) hrun hclk
  · have hx := compareUnit_freeCabin_evac (c := cell) (hMkind.trans hk) (back.free hh).1 (hevac.trans he)
    rw [← entered]
    split_ifs with hbolt
    · exact moved (hx.trans (if_pos hbolt)) hrun hclk
    · exact ended (hx.trans (if_neg hbolt)) hrun hclk

/-- Settles O58, action by action. -/
theorem actionsEndAtAcceptance : Obligations.ActionsEndAtAcceptance := by
  unfold Obligations.ActionsEndAtAcceptance
  refine ⟨fun s a hon hp hr hahead hh hl c hc => ?_, fun s a h hok => ?_⟩
  · have noted : ∀ k first, a.code = k → ∃ t, (.next (accept s k first) : Host.Outcome State Fault Refusal) = .next t ∧
        t = s.holding t ∧ HeldEvent.accept ∈ t.engine.held ∧ KeepsHeld s t .accept :=
      fun k first hk => ⟨_, rfl, accept_heldBack hon hp hr hahead hh hl hk⟩
    simp only [List.mem_cons, Prod.mk.injEq, List.not_mem_nil, or_false] at hc
    rcases hc with ⟨rfl, hk⟩ | ⟨rfl, hk⟩ | ⟨rfl, hk⟩ | ⟨rfl, hk⟩ | ⟨rfl, hk⟩
    all_goals exact noted _ _ hk
  · intro ends moves s0
    refine ⟨fun c hc hp => ?_, ?_, ?_, ?_, ?_, ?_⟩
    · have bad : ∀ k first, a.code = k → ∃ t, (.next (accept s k first) : Host.Outcome State Fault Refusal) = .next t ∧
          PortServes { s0 with notices := s0.notices.post (s.doneNotice a .badArgument 0) } t := fun k first hk =>
        ⟨_, rfl, h.badArgument hk hp⟩
      simp only [List.mem_cons, Prod.mk.injEq, List.not_mem_nil, or_false] at hc
      rcases hc with ⟨rfl, hk⟩ | ⟨rfl, hk⟩ | ⟨rfl, hk⟩ | ⟨rfl, hk⟩ | ⟨rfl, hk⟩ | ⟨rfl, hk⟩
      all_goals exact bad _ _ hk
    · rintro u rfl hp r idle
      exact h.setOutOfService hp
    · rintro u c hc hp r suits standing j
      obtain ⟨k, first, hb⟩ := returnsBy hc
      have hkind : s.kind u = .locker ∨ s.kind u = .cabin := by
        rcases hc with ⟨rfl, _⟩ | ⟨rfl, _⟩
        all_goals simpa [Action.passes] using hp
      have hcabin : s.kind u ≠ .locker ↔ s.kind u = .cabin := by
        rcases hkind with hk | hk <;> simp [hk]
      refine ⟨fun hs => ?_, fun hs => ?_⟩
      · obtain ⟨he, hk, hf⟩ := hb
        exact ⟨_, he s, h.serves hk hp ((hf _).trans ((if_neg hs).trans (endAction_eq (r := ⟨a, [], 0⟩) rfl)))⟩
      have touches := returnedUnit_touches (moveToRunning s a) u
      have back := returnedUnit_backInService (moveToRunning s a) u
      have still := returnUnit_still (s := moveToRunning s a) (u := u)
      have compared := returnUnit_compared (s := moveToRunning s a) (u := u)
      generalize returnedUnit (moveToRunning s a) u = M at touches back still compared
      have hframe := touches.frame
      have hrun : M.engine.runningSlot = some ⟨a, [], 0⟩ := by rw [hframe]; rfl
      have hclk : M.clock = s.clock := by rw [hframe]; rfl
      have hMkind : M.kind u = s.kind u := by rw [hframe]; rfl
      have hevac : M.levelEvac = s.levelEvac := by rw [hframe]; rfl
      have hstand : s.returnHands u = true ↔ standing := returnHands_iff
      refine ⟨M.setRunning none, ⟨fun hst => ?_, fun hst => ?_⟩, touches.bands hok, ?_, touches.others,
        back.suspended, fun hst => back.stateRef (hstand.2 hst), back.free, back.held,
        fun hh hk => back.vacating hh (hcabin.2 hk), back.lamp, fun hq => h.returns hb hp hs (still hq) hrun hclk,
        fun hrunning hidle => ?_⟩
      · exact touches.journal.trans (if_pos (hstand.2 hst))
      · exact touches.journal.trans (if_neg (hst ∘ hstand.1))
      · have hn : (if (moveToRunning s a).kind u ≠ .locker ∧ ((moveToRunning s a).unit u).holder ≠ none
            then (moveToRunning s a).notices.post ((moveToRunning s a).notice .released 9 (some u)
              ((moveToRunning s a).unit u).holder ((moveToRunning s a).unit u).boundAt)
            else (moveToRunning s a).notices) =
            if s.kind u = .cabin ∧ r.holder ≠ none
              then s.notices.post (s.notice .released 9 (some u) r.holder r.boundAt) else s.notices :=
          if_congr (and_congr_left' hcabin) rfl rfl
        rw [hn] at hframe
        exact congrArg (fun m => State.setRunning m none) hframe
      · exact h.compares hb hp hs (compared hrunning hidle) back hrun hclk hMkind hevac
    · rintro u minutes rfl hp r inside old new stored z warning
      have ended : ∀ {w x}, endAction (moveToRunning s (.extendCabin u minutes)) w x =
          { s0 with notices := s.notices.post (s.doneNotice (.extendCabin u minutes) w x) } :=
        endAction_eq (r := ⟨.extendCabin u minutes, [], 0⟩) rfl
      refine ⟨fun hi => ⟨_, rfl, h.serves rfl hp ((if_neg hi).trans ended)⟩, fun hi hn => ⟨_, rfl, ?_⟩,
        fun hi hn hc => ⟨_, rfl, ?_⟩⟩
      · exact h.serves rfl hp ((if_pos hi).trans ((if_pos hn).trans ended))
      · refine h.serves rfl hp ((if_pos hi).trans ((if_neg (by exact not_or.2 ⟨Nat.not_le.2 hn, Nat.not_le.2 hc⟩)).trans ?_))
        have hw : warningTime stored z.warningLead s.clock.sec = warning := warningTime_eq _ _ _
        have he := extendTo_eq (s := moveToRunning s (.extendCabin u minutes)) (u := u) hw
        clear_value warning
        refine (congrArg (fun m => endAction m .ok stored) he).trans ?_
        refine (endAction_eq (r := ⟨.extendCabin u minutes, [], 0⟩) rfl).trans ?_
        cases warning <;> rfl
    · rintro b on rfl
      exact ⟨_, rfl, h.serves rfl rfl ((cleaningFirst_eq b on).trans (endAction_eq (r := ⟨.bankCleaning b on, [], 0⟩) rfl))⟩
    · rintro b rfl known
      have hk : known ↔ (s.engine.overlay.contains b || s.tables.blocks.contains b) = true := by
        simp only [known, Bool.or_eq_true, List.contains_iff_mem]
      have ended : ∀ {w x}, endAction (moveToRunning s (.blockBand b)) w x =
          { s0 with notices := s.notices.post (s.doneNotice (.blockBand b) w x) } :=
        endAction_eq (r := ⟨.blockBand b, [], 0⟩) rfl
      refine ⟨fun hb => ⟨_, rfl, h.serves rfl rfl ((if_pos (hk.1 hb)).trans ended)⟩, fun hb hl => ⟨_, rfl, ?_⟩,
        fun hb hl => ⟨_, rfl, ?_⟩⟩
      · exact h.serves rfl rfl ((if_neg (hb ∘ hk.2)).trans ((if_pos hl).trans
          (endAction_eq (r := ⟨.blockBand b, [], 0⟩) rfl)))
      · exact h.serves rfl rfl ((if_neg (hb ∘ hk.2)).trans ((if_neg (by exact Nat.not_lt.2 hl)).trans ended))

end Sys2Proof.Machine
end


/-! ## Taps: when one is taken, and when it is refused -/

section
namespace Sys2Proof.Machine

variable {s m t : State} {u : UnitIx} {b x : Band} {rest : List Tap} {why : Refusing} {c : ClassIx}

/-! ### When the oldest tap is taken (R27) -/

theorem reloading_iff : s.reloading = true ↔ ∃ r, s.engine.runningSlot = some r ∧ r.action = .reloadTables := by
  unfold State.reloading
  cases s.engine.runningSlot with
  | none => simp
  | some r => simp

theorem pending_acceptable_iff : s.engine.pendingSlot.any s.acceptable = true ↔ ∃ a, Acceptable s a := by
  constructor
  · intro h
    obtain ⟨a, ha, hacc⟩ := (Option.any_eq_true _ _).1 h
    exact ⟨a, (acceptable_iff ha).1 hacc⟩
  · rintro ⟨a, h⟩
    exact (Option.any_eq_true _ _).2 ⟨a, h.pending, h.acceptable⟩

theorem driveRoom_iff : s.driveRoom = true ↔ s.drive.used + 2 ≤ 64 := by
  simp [State.driveRoom, Config.roomNeeded, Config.actuationPlaces]

theorem tapTakeable_iff (y : Tap) : s.tapTakeable y = true ↔ Taking s ∧
    (¬∃ r, s.engine.runningSlot = some r ∧ r.action = .reloadTables) ∧ JournalRoom s ∧ s.drive.used + 2 ≤ 64 ∧
    ¬(s.engine.ringStalled = true ∧ s.kind y.unit = .locker) ∧ ¬EventsAhead s ∧
    ¬(s.engine.tapAhead = true ∧ ∃ a, Acceptable s a) := by
  simp only [State.tapTakeable, Bool.and_eq_true, engineOn_iff, Bool.not_eq_true', journalRoom_iff, driveRoom_iff,
    ← reloading_iff, ← resumeAhead_iff, ← pending_acceptable_iff, Bool.and_eq_false_iff, decide_eq_false_iff_not,
    not_and_or, Bool.not_eq_true, and_assoc]

/-- Where the oldest tap cannot be taken, nothing happens. -/
theorem takeTap_waits (h : ∀ y ∈ s.taps.records.head?, s.tapTakeable y = false) : takeTap s = s := by
  unfold takeTap
  split
  · rfl
  · rename_i y l hl
    rw [if_neg (by simp [h y (by simp [hl])])]

/-- The oldest tap is taken, and decided where its unit is a LOCKER or CABIN (R27). -/
theorem TapReady.takeTap (h : TapReady s u b rest) : takeTap s =
    pump (if s.kind u = .locker ∨ s.kind u = .cabin then decideTap (s.tapTaken rest) u b else s.tapTaken rest) := by
  obtain ⟨⟨time, hr⟩, hon, hj, hd, hacc, hahead, hreload, hring⟩ := h
  have ht : s.tapTakeable ⟨u, b, time⟩ = true :=
    (tapTakeable_iff _).2 ⟨hon, fun ⟨r, k, e⟩ => hreload r k e, hj, hd, fun ⟨k, e⟩ => hring k e, hahead, hacc⟩
  unfold Machine.takeTap
  rw [hr]
  dsimp only
  rw [if_pos ht]
  rfl

/-! ### A refusal (R31) -/

theorem refuse_eq : refuse s u b why = { s with
    units := put s.units u (if why = .busy then ((s.unit u).lit .amber (s.clock.ms + 1000)).beeps
      else ((s.unit u).lit .red (s.clock.ms + 2000)).beeps)
    notices := s.notices.post
      (s.notice .refused why.code (some u) (some b) ((s.unit u).state.code (s.kind u))) } := by
  unfold refuse beep transient
  dsimp only
  split_ifs
  all_goals
    rw [modUnit_modUnit]
    rfl

/-! ### Who the band is (R11) -/

theorem identify_blocked (h : b ∈ s.engine.overlay ∨ b ∈ s.tables.blocks) : identify s b = .blocked := by
  unfold identify
  split_ifs with h1 h2
  · rfl
  · rfl
  · simp_all
  · simp_all

theorem identify_of_not_blocked (h : ¬(b ∈ s.engine.overlay ∨ b ∈ s.tables.blocks)) : identify s b =
    if b ∈ s.tables.masters then .master
    else (s.tables.permits.find? fun p => p.low.toNat ≤ b.toNat ∧ b.toNat ≤ p.high.toNat).elim .unknown
      fun p => .cls p.cls := by
  obtain ⟨ho, hb⟩ := not_or.1 h
  unfold identify
  rw [if_neg (by simpa using ho), if_neg (by simpa using hb)]
  refine if_congr (by simp) rfl ?_
  cases s.tables.permits.find? _ <;> rfl

theorem identify_master_iff : identify s b = .master ↔
    ¬(b ∈ s.engine.overlay ∨ b ∈ s.tables.blocks) ∧ b ∈ s.tables.masters := by
  by_cases h : b ∈ s.engine.overlay ∨ b ∈ s.tables.blocks
  · simp [identify_blocked h, h]
  · rw [identify_of_not_blocked h]
    split_ifs with hm
    · simp [h, hm]
    · simp only [h, hm, and_false, iff_false]
      cases s.tables.permits.find? _ <;> simp

/-! ### The ordered checks (R28, R29) -/

theorem decideTap_busy (h : s.inHand u = true ∨ (s.unit u).suspended = true) :
    decideTap s u b = refuse s u b .busy := by
  unfold decideTap
  rw [if_pos (by simpa using h)]

theorem decideTap_service (h : ¬(s.inHand u = true ∨ (s.unit u).suspended = true)) (hm : identify s b ≠ .master)
    (hw : (s.unit u).state.serviceRefusal = some why) : decideTap s u b = refuse s u b why := by
  unfold decideTap
  rw [if_neg (by simpa using h)]
  dsimp only
  rw [if_neg hm, hw]

/-- The checks from the band's own on (R29). -/
def decideBand (s : State) (u : UnitIx) (b : Band) : Ident → State
  | .blocked => refuse s u b .blocked
  | .master => tapMaster s u b
  | .unknown => refuse s u b .unknownBand
  | .cls c => tapClass s u b c

/-- The checks after the unit's own. -/
theorem decideTap_serves (h : ¬(s.inHand u = true ∨ (s.unit u).suspended = true))
    (hs : identify s b = .master ∨ (s.unit u).state.serviceRefusal = none) : decideTap s u b =
    if s.engine.cleaning.get (bankOf u) = true ∧ identify s b ≠ .master then refuse s u b .cleaning
    else if s.kind u = .cabin ∧ s.levelEvac = true then refuse s u b .evacuation
    else decideBand s u b (identify s b) := by
  have hn : (if identify s b = .master then none else (s.unit u).state.serviceRefusal) = none := by
    split_ifs with hm
    · rfl
    · exact hs.resolve_left hm
  unfold decideTap
  rw [if_neg (by simpa using h)]
  dsimp only
  rw [hn]
  cases identify s b <;> rfl

/-- A unit that passes its own checks leaves the decision to the band's (R28, R29). -/
theorem decideTap_band (h : ¬(s.inHand u = true ∨ (s.unit u).suspended = true))
    (he : ¬(s.kind u = .cabin ∧ s.levelEvac = true))
    (hs : (s.unit u).state.serviceRefusal = none) (hc : ¬s.engine.cleaning.get (bankOf u) = true) :
    decideTap s u b = decideBand s u b (identify s b) := by
  rw [decideTap_serves h (.inr hs), if_neg fun k => hc k.1, if_neg he]

/-! ### A band with a class (R29, R30) -/

theorem heldBy_writeClass (l : List BandEntry) (b x : Band) (c : ClassIx) :
    heldBy (writeClass l b c) x = heldBy l x := by
  induction l with
  | nil => rfl
  | cons e l ih =>
    have hband : (if e.band = b then { e with cls := c } else e).band = e.band := by split_ifs <;> rfl
    have hheld : (if e.band = b then { e with cls := c } else e).held = e.held := by split_ifs <;> rfl
    show heldBy ((if e.band = b then { e with cls := c } else e) :: writeClass l b c) x = _
    rw [heldBy_cons, heldBy_cons, hband, hheld, ih]

/-- The state with the class left in the band's entry (R22). -/
def State.classWritten (s : State) (b : Band) (c : ClassIx) : State := { s with bands := writeClass s.bands b c }

theorem heldOf_classWritten (k : UnitKind) : (s.classWritten b c).heldOf x k = s.heldOf x k :=
  congrArg (fun l : List UnitIx => (l.filter fun u => s.kind u = k).length) (heldBy_writeClass s.bands b x c)

theorem tapClass_wrongBand (hh : (s.unit u).holder = some x) (hx : x ≠ b) :
    tapClass s u b c = refuse (s.classWritten b c) u b .wrongBand := by
  unfold tapClass
  dsimp only
  rw [hh]
  exact if_neg hx

theorem tapClass_new (hh : (s.unit u).holder = none) : tapClass s u b c = tapNew (s.classWritten b c) u b c := by
  unfold tapClass
  dsimp only
  rw [hh]
  rfl

theorem tapNew_evacuation (hs : (s.unit u).state = .evacOpen) : tapNew s u b c = refuse s u b .evacuation := by
  unfold tapNew
  rw [hs]

theorem tapNew_notAvailable (he : (s.unit u).state ≠ .evacOpen) (hf : (s.unit u).state ≠ .free) :
    tapNew s u b c = refuse s u b .notAvailable := by
  unfold tapNew
  split
  · exact absurd ‹_› hf
  · exact absurd ‹_› he
  · rfl

theorem tapNew_refused (hs : (s.unit u).state = .free) (hr : s.bindRefusal u b c = some why) :
    tapNew s u b c = refuse s u b why := by
  unfold tapNew
  rw [hs]
  dsimp only
  rw [hr]

theorem bindRefusal_zone (hz : (s.cls c).zones.getLsbD (s.zone u).1 = false) :
    s.bindRefusal u b c = some .zone := by
  unfold State.bindRefusal
  dsimp only
  rw [if_pos (by rw [hz]; rfl)]

/-- Within the class's zones, the quotas and the door decide (R30). -/
theorem bindRefusal_inZone (hz : (s.cls c).zones.getLsbD (s.zone u).1 = true) : s.bindRefusal u b c =
    if s.kind u = .locker ∧ (s.cls c).lockerQuota ≤ s.heldOf b .locker then some .quotaLocker
    else if s.kind u = .cabin ∧ (s.cls c).cabinQuota ≤ s.heldOf b .cabin then some .quotaCabin
    else if s.kind u = .locker ∧ (s.cell u).door = false then some .doorOpen
    else none := by
  unfold State.bindRefusal
  dsimp only
  rw [if_neg (by rw [hz]; decide)]

/-! ### What a tap decision leaves to later events -/

/-- The Binding Engine keeps all but what waits at it, and the Tap Queue stays. -/
structure LeavesEngine (s t : State) : Prop where
  engine : t.engine = { s.engine with inbox := t.engine.inbox }
  taps : t.taps = s.taps

theorem LeavesEngine.same (he : t.engine = s.engine) (ht : t.taps = s.taps) : LeavesEngine s t := ⟨by rw [he], ht⟩

theorem LeavesEngine.refl (s : State) : LeavesEngine s s := .same rfl rfl

theorem LeavesEngine.trans (h : LeavesEngine s m) (k : LeavesEngine m t) : LeavesEngine s t :=
  ⟨by rw [k.engine, h.engine], k.taps.trans h.taps⟩

/-- The same, the later operation first. -/
theorem LeavesEngine.of (k : LeavesEngine m t) (h : LeavesEngine s m) : LeavesEngine s t := h.trans k

theorem DriveActs.leavesEngine (h : DriveActs s t) : LeavesEngine s t := ⟨h.2.1, by rw [h.1]⟩

theorem pump_leavesEngine : LeavesEngine s (pump s) := by
  obtain ⟨⟨_, _, e, _⟩, _⟩ := pump_portFrame s
  exact ⟨by rw [e], by rw [e]⟩

theorem handOver_leaves {op : BoltOp} {urg : Urgency} : LeavesEngine s (handOver s u op urg) :=
  (handOver_acts s u op urg).leavesEngine

theorem enter_leaves {st : UState} : LeavesEngine s (enter s u st) := .same rfl rfl
theorem beep_leaves : LeavesEngine s (beep s u) := .same rfl rfl
theorem transient_leaves {l : Lamp} {ms : Nat} : LeavesEngine s (transient s u l ms) := .same rfl rfl
theorem green_leaves : LeavesEngine s (green s u) := .same rfl rfl
theorem setPurpose_leaves {p : Option Purpose} : LeavesEngine s (setPurpose s u p) := .same rfl rfl
theorem modUnit_leaves {f : UnitRec → UnitRec} : LeavesEngine s (s.modUnit u f) := .same rfl rfl
theorem noTimer_leaves : LeavesEngine s (s.noTimer u) := .same rfl rfl
theorem handJournal_leaves {r : JRec} : LeavesEngine s (handJournal s r) := .same rfl rfl
theorem setHolder_leaves : LeavesEngine s (setHolder s u b c) := .same rfl rfl
theorem postBound_leaves : LeavesEngine s (postBound s u b c) := .same rfl rfl
theorem postReleased_leaves {w : Reason} {d : Option Band} {n : Nat} :
    LeavesEngine s (postReleased s u w d n) := .same rfl rfl
theorem clearHolder_leaves : LeavesEngine s (clearHolder s u) := by
  rw [clearHolder_eq]
  exact .same rfl rfl

theorem refuse_leaves : LeavesEngine s (refuse s u b why) := by
  rw [refuse_eq]
  exact .same rfl rfl

theorem handReturn_leaves : LeavesEngine s (handReturn s u) := by
  unfold handReturn
  split_ifs
  · exact handJournal_leaves.of modUnit_leaves
  · exact .refl s

theorem bindLocker_leaves : LeavesEngine s (bindLocker s u b c) :=
  green_leaves.of (postBound_leaves.of (handOver_leaves.of (handJournal_leaves.of (enter_leaves.of setHolder_leaves))))

theorem bindCabin_leaves : LeavesEngine s (bindCabin s u b c) :=
  green_leaves.of (postBound_leaves.of (handOver_leaves.of (enter_leaves.of setHolder_leaves)))

theorem tapNew_leaves : LeavesEngine s (tapNew s u b c) := by
  unfold tapNew
  split
  · split
    · exact refuse_leaves
    · split_ifs
      exacts [bindLocker_leaves, bindCabin_leaves]
  · exact refuse_leaves
  · exact refuse_leaves

theorem closeCabin_leaves : LeavesEngine s (closeCabin s u) := by
  unfold closeCabin
  split_ifs
  exacts [handOver_leaves.of enter_leaves, enter_leaves, handOver_leaves.of enter_leaves]

theorem releaseCabin_leaves {w : Reason} {silent : Bool} : LeavesEngine s (releaseCabin s u w silent) := by
  have h : LeavesEngine s (postReleased (((clearHolder s u).noTimer u).modUnit u fun r =>
      { r with latchSeen := false, overstay := false }) u w (s.unit u).holder (s.unit u).boundAt) :=
    postReleased_leaves.of (modUnit_leaves.of (noTimer_leaves.of clearHolder_leaves))
  unfold releaseCabin
  dsimp only
  split_ifs
  · unfold closeSilently
    split_ifs
    all_goals exact enter_leaves.of h
  · exact closeCabin_leaves.of h
  · exact enter_leaves.of h

theorem tapReclose_leaves : LeavesEngine s (tapReclose s u b) := by
  unfold tapReclose
  split_ifs
  · exact green_leaves.of (handOver_leaves.of (enter_leaves.of noTimer_leaves))
  · exact refuse_leaves

theorem tapHolder_leaves : LeavesEngine s (tapHolder s u b c) := by
  unfold tapHolder
  split
  · exact green_leaves.of (handOver_leaves.of (setPurpose_leaves.of enter_leaves))
  · exact tapReclose_leaves
  · exact tapReclose_leaves
  · exact releaseCabin_leaves
  · exact releaseCabin_leaves
  · exact .refl s

theorem openLocker_leaves : LeavesEngine s (openLocker s u) := by
  have h : LeavesEngine s (if (s.unit u).state = .fault then handReturn s u else s) := by
    split_ifs
    exacts [handReturn_leaves, .refl s]
  unfold openLocker
  dsimp only
  generalize (if (s.unit u).state = .fault then handReturn s u else s) = m at h
  split_ifs
  · exact enter_leaves.of (noTimer_leaves.of h)
  · exact enter_leaves.of h
  · exact handOver_leaves.of (enter_leaves.of h)
  · exact handOver_leaves.of (setPurpose_leaves.of (enter_leaves.of h))

theorem openFaultCabin_leaves {w : Reason} : LeavesEngine s (openFaultCabin s u w) := by
  have h : LeavesEngine s (if (s.unit u).holder.isSome then
      postReleased (clearHolder s u) u w (s.unit u).holder (s.unit u).boundAt else s) := by
    split_ifs
    exacts [postReleased_leaves.of clearHolder_leaves, .refl s]
  unfold openFaultCabin
  dsimp only
  generalize (if (s.unit u).holder.isSome then
      postReleased (clearHolder s u) u w (s.unit u).holder (s.unit u).boundAt else s) = m at h
  split_ifs
  · exact handOver_leaves.of (enter_leaves.of h)
  · exact enter_leaves.of h

theorem masterActs_leaves {e : MasterEffect} : LeavesEngine s (masterActs s u e) := by
  unfold masterActs
  split
  · split_ifs
    exacts [openLocker_leaves, handOver_leaves.of enter_leaves, openFaultCabin_leaves]
  · split_ifs
    exacts [handOver_leaves.of enter_leaves, handOver_leaves.of enter_leaves, enter_leaves]
  · exact releaseCabin_leaves
  · exact .refl s
  · exact .refl s

theorem tapMaster_leaves : LeavesEngine s (tapMaster s u b) := by
  have h : LeavesEngine s (masterActs (post s .masterTap (s.masterEffect u).code (some u) (some b)
      ((s.unit u).state.code (s.kind u))) u (s.masterEffect u)) := masterActs_leaves.of (.same rfl rfl)
  unfold tapMaster
  dsimp only
  split
  · exact green_leaves.of h
  · exact green_leaves.of h
  · exact green_leaves.of h
  · exact beep_leaves.of (transient_leaves.of h)
  · exact h

theorem tapClass_leaves : LeavesEngine s (tapClass s u b c) := by
  have hb : LeavesEngine s { s with bands := writeClass s.bands b c } := .same rfl rfl
  unfold tapClass
  dsimp only
  split
  · split_ifs
    exacts [tapHolder_leaves.of hb, refuse_leaves.of hb]
  · exact tapNew_leaves.of hb

theorem decideBand_leaves (i : Ident) : LeavesEngine s (decideBand s u b i) := by
  cases i
  exacts [refuse_leaves, tapMaster_leaves, tapClass_leaves, refuse_leaves]

theorem decideTap_leaves : LeavesEngine s (decideTap s u b) := by
  by_cases hb : s.inHand u = true ∨ (s.unit u).suspended = true
  · rw [decideTap_busy hb]
    exact refuse_leaves
  · by_cases hs : identify s b = .master ∨ (s.unit u).state.serviceRefusal = none
    · rw [decideTap_serves hb hs]
      split_ifs
      exacts [refuse_leaves, refuse_leaves, decideBand_leaves _]
    · obtain ⟨hm, hn⟩ := not_or.1 hs
      obtain ⟨why, hw⟩ := Option.ne_none_iff_exists'.1 hn
      rw [decideTap_service hb hm hw]
      exact refuse_leaves

end Sys2Proof.Machine
end


section
namespace Sys2Proof.Machine

variable {s t : State} {u : UnitIx} {b : Band} {rest : List Tap} {why : Refusing} {c : ClassIx}

/-- The state after a refused tap, with the class left in the band's entry where the checks got that far (R22, R31). -/
def State.refusedTap (s : State) (u : UnitIx) (b : Band) (rest : List Tap) (why : Refusing) (bands : List BandEntry) :
    State := { s.tapTaken rest with
  bands := bands
  units := put s.units u (if why = .busy then ((s.unit u).lit .amber (s.clock.ms + 1000)).beeps
    else ((s.unit u).lit .red (s.clock.ms + 2000)).beeps)
  notices := s.notices.post
    (s.notice .refused why.code (some u) (some b) ((s.unit u).state.code (s.kind u))) }

theorem refuse_tapTaken (l : List BandEntry) :
    refuse { s.tapTaken rest with bands := l } u b why = s.refusedTap u b rest why l := refuse_eq

/-- A tap decided: what the port is left to serve. -/
theorem TapReady.decided (h : TapReady s u b rest) (hk : s.kind u = .locker ∨ s.kind u = .cabin) {m : State}
    (hd : decideTap (s.tapTaken rest) u b = m) : PortServes m (Machine.takeTap s) := by
  rw [h.takeTap, if_pos hk, hd]
  exact pump_serves m

/-- A refusal before the class is written. -/
theorem TapReady.refused (h : TapReady s u b rest) (hk : s.kind u = .locker ∨ s.kind u = .cabin)
    (hd : decideTap (s.tapTaken rest) u b = refuse (s.tapTaken rest) u b why) :
    ∃ t, exec .takeTap s = .next t ∧ PortServes (s.refusedTap u b rest why s.bands) t :=
  ⟨_, rfl, h.decided hk (hd.trans (refuse_tapTaken s.bands))⟩

/-- A refusal after the class is written. -/
theorem TapReady.refusedClass (h : TapReady s u b rest) (hk : s.kind u = .locker ∨ s.kind u = .cabin)
    (hd : decideTap (s.tapTaken rest) u b = tapClass (s.tapTaken rest) u b c)
    (hc : tapClass (s.tapTaken rest) u b c = refuse ((s.tapTaken rest).classWritten b c) u b why) :
    ∃ t, exec .takeTap s = .next t ∧ PortServes (s.refusedTap u b rest why (writeClass s.bands b c)) t :=
  ⟨_, rfl, h.decided hk (hd.trans (hc.trans (refuse_tapTaken _)))⟩

/-- A tap is the one a pending action waits behind, where the running slot is empty (R150). -/
theorem TapReady.leaves (h : TapReady s u b rest) : LeavesEngine (s.tapTaken rest) (Machine.takeTap s) := by
  rw [h.takeTap]
  refine pump_leavesEngine.of ?_
  split_ifs
  exacts [decideTap_leaves, .refl _]

/-- The next tap waits for an action that can be accepted and has waited behind one (R27, R150). -/
theorem takeTap_waits_of_acceptable (hahead : s.engine.tapAhead = true) {a : Action} (h : Acceptable s a) :
    takeTap s = s :=
  takeTap_waits fun y _ => Bool.eq_false_iff.2 fun hy => by
    obtain ⟨_, _, _, _, _, _, hno⟩ := (tapTakeable_iff y).1 hy
    exact hno ⟨hahead, a, h⟩

/-- The oldest tap waits (R27, R181). -/
theorem takeTap_waits_of (h : s.taps.records = [] ∨ s.startUp ≠ .running ∨ s.restart ≠ none ∨
      (∃ items n, s.engine.runningSlot = some ⟨.reloadTables, items, n⟩) ∨ 16 < s.journal.queue.length + 2 ∨
      64 < s.drive.used + 2 ∨
      (s.engine.ringStalled = true ∧ ∃ x more, s.taps.records = x :: more ∧ s.kind x.unit = .locker) ∨
      (s.engine.tapAhead = true ∧ ∃ a, Acceptable s a) ∨ EventsAhead s) : takeTap s = s := by
  refine takeTap_waits fun y hy => Bool.eq_false_iff.2 fun ht => ?_
  obtain ⟨⟨hstart, hrestart⟩, hreload, hroom, hdrive, hring, hahead, hacc⟩ := (tapTakeable_iff y).1 ht
  rcases h with h | h | h | ⟨items, n, h⟩ | h | h | ⟨h, x, more, hx, hk⟩ | h | h
  · simp [h] at hy
  · exact h hstart
  · exact h hrestart
  · exact hreload ⟨_, h, rfl⟩
  · unfold JournalRoom at hroom
    omega
  · omega
  · have : x = y := by simpa [hx] using hy
    exact hring ⟨h, this ▸ hk⟩
  · exact hacc h
  · exact hahead h

/-- Settles O50, check by check. -/
theorem tapsRefused : Obligations.TapsRefused := by
  unfold Obligations.TapsRefused
  refine ⟨fun s h => congrArg Host.Outcome.next (takeTap_waits_of h), fun s u b rest h => ?_⟩
  intro r blocked master permit busy cleaning evac refusing
  have hmaster : identify s b = .master ↔ master := identify_master_iff
  refine ⟨fun hl hc => ⟨_, rfl, ?_⟩, fun hk => ?_, ⟨_, rfl, ?_⟩⟩
  · rw [h.takeTap, if_neg (not_or.2 ⟨hl, hc⟩)]
    exact pump_serves _
  · have service : ∀ {why}, ¬busy → ¬master → r.state.serviceRefusal = some why → refusing why s.bands :=
      fun hb hm hw => h.refused hk (decideTap_service (s := s.tapTaken rest) hb (hm ∘ hmaster.1) hw)
    have serves := fun hb hs => decideTap_serves (s := s.tapTaken rest) (u := u) (b := b) hb hs
    refine ⟨fun hb => h.refused hk (decideTap_busy (s := s.tapTaken rest) hb),
      fun hb hm hs => service hb hm (congrArg _ hs), fun hb hm hs => service hb hm (congrArg _ hs),
      fun hb hm hs => service hb hm (congrArg _ hs), fun hb hm hs hc => ?_, fun hb he hs => ?_,
      fun hb he hm hs hc => ?_⟩
    · exact h.refused hk ((serves hb (.inr hs)).trans (if_pos ⟨hc, hm ∘ hmaster.1⟩))
    · refine h.refused hk ((serves hb (hs.imp hmaster.2 And.left)).trans ((if_neg ?_).trans (if_pos he)))
      rintro ⟨hc, hm⟩
      exact hs.elim (fun k => hm (hmaster.2 k)) fun k => k.2 hc
    · have band := decideTap_band (s := s.tapTaken rest) (b := b) hb he hs hc
      refine ⟨fun hblock => ?_, fun hblock hp => ?_, fun p hblock hp => ?_⟩
      · exact h.refused hk (band.trans (congrArg (decideBand _ u b) (identify_blocked hblock)))
      · have hi : identify s b = .unknown := by
          rw [identify_of_not_blocked hblock, if_neg fun k => hm ⟨hblock, k⟩]
          exact congrArg (fun o : Option Permit => o.elim Ident.unknown fun p => .cls p.cls) hp
        exact h.refused hk (band.trans (congrArg (decideBand _ u b) hi))
      · have hi : identify s b = .cls p.cls := by
          rw [identify_of_not_blocked hblock, if_neg fun k => hm ⟨hblock, k⟩]
          exact congrArg (fun o : Option Permit => o.elim Ident.unknown fun p => .cls p.cls) hp
        intro k bands holds
        have hd : decideTap (s.tapTaken rest) u b = tapClass (s.tapTaken rest) u b p.cls :=
          band.trans (congrArg (decideBand _ u b) hi)
        have quota : ∀ kind, ((s.tapTaken rest).classWritten b p.cls).heldOf b kind = holds kind := fun kind =>
          heldOf_classWritten (s := s.tapTaken rest) kind
        have new : ∀ {why}, r.holder = none →
            tapNew ((s.tapTaken rest).classWritten b p.cls) u b p.cls =
              refuse ((s.tapTaken rest).classWritten b p.cls) u b why → refusing why bands :=
          fun hh hn => h.refusedClass hk hd ((tapClass_new (s := s.tapTaken rest) hh).trans hn)
        refine ⟨fun d hh hne => h.refusedClass hk hd (tapClass_wrongBand (s := s.tapTaken rest) hh hne),
          fun hh hst => new hh (tapNew_evacuation (s := (s.tapTaken rest).classWritten b p.cls) hst),
          fun hh he hf => new hh (tapNew_notAvailable (s := (s.tapTaken rest).classWritten b p.cls) he hf),
          fun hh hf hz => new hh (tapNew_refused (s := (s.tapTaken rest).classWritten b p.cls) hf (bindRefusal_zone hz)),
          fun hh hf hz => ?_⟩
        have inZone := bindRefusal_inZone (s := (s.tapTaken rest).classWritten b p.cls) (b := b) hz
        rw [quota, quota] at inZone
        refine ⟨fun hl hq => ?_, fun hc hq => ?_, fun hl hq hdoor => ?_⟩
        all_goals refine new hh (tapNew_refused (s := (s.tapTaken rest).classWritten b p.cls) hf (inZone.trans ?_))
        · exact if_pos ⟨hl, hq⟩
        · refine (if_neg fun hlq => ?_).trans (if_pos ⟨hc, hq⟩)
          exact absurd (hlq.1.symm.trans hc) (by decide)
        · refine (if_neg fun hlq => ?_).trans ((if_neg fun hcq => ?_).trans (if_pos ⟨hl, hdoor⟩))
          · exact absurd hlq.2 (Nat.not_le.2 hq)
          · exact absurd (hcq.1.symm.trans hl) (by decide)
  · obtain ⟨hengine, htaps⟩ := h.leaves
    have hahead : (takeTap s).engine.tapAhead = true ↔
        s.engine.pendingSlot ≠ none ∧ s.engine.runningSlot = none := by
      rw [hengine]
      simp [State.tapTaken, Option.isSome_iff_ne_none]
    refine ⟨by rw [htaps]; rfl, by rw [hengine]; rfl, hahead, fun a ha => congrArg Host.Outcome.next ?_⟩
    refine takeTap_waits_of_acceptable (hahead.2 ?_) ha
    obtain ⟨_, hp, hr, _⟩ := ha
    rw [hengine] at hp hr
    exact ⟨by rw [show s.engine.pendingSlot = some a from hp]; simp, hr⟩

end Sys2Proof.Machine
end


/-! ## The end of the cold load -/

section
namespace Sys2Proof.Machine

variable {s t : State} {k : LoadCause} {r : LoadResult} {x : Built} {g : Nat}

/-- The lowest element that meets a condition is found first. -/
theorem find?_lowest {α : Type} {lt : α → α → Prop} {p : α → Bool} {l : List α} {a : α} (hl : l.Pairwise lt)
    (ha : a ∈ l) (hp : p a = true) (hlow : ∀ b ∈ l, lt b a → p b = false) : l.find? p = some a := by
  induction l with
  | nil => simp at ha
  | cons y l ih =>
    obtain ⟨hy, hl⟩ := List.pairwise_cons.1 hl
    rcases List.mem_cons.1 ha with rfl | ha
    · simp [hp]
    · rw [List.find?_cons, hlow y (by simp) (hy a ha)]
      exact ih hl ha fun b hb => hlow b (by simp [hb])

/-- The number of TABLES_LOADED's extra word for the lists cut (R184). -/
def Cuts.number (c : Cuts) : Nat := c.permits.toNat + 2 * c.blocks.toNat + 4 * c.masters.toNat

/-- The summary of a load (R18). -/
def Built.summary (x : Built) (k : LoadCause) (r : LoadResult) (c : Option UnitIx) : LoadSummary :=
  ⟨k, r, x.tables.permits.length, x.tables.blocks.length, x.tables.masters.length, x.cuts, c⟩

/-- A load's report (R13, R184). -/
theorem reportLoad_ok : reportLoad s k r x none = { s with
    summary := some (x.summary k r none), load := none
    notices := s.notices.post (s.notice .tablesLoaded (k.code * 16 + r.code) none none x.cuts.number) } := rfl

theorem built_cold : s.built .cold = buildSet (tableRecords s) (loadOptions (tableRecords s)) := rfl

theorem built_warm (h : k ≠ .cold) : s.built k = buildSet (tableRecords s) s.tables.options := by
  unfold State.built
  dsimp only
  rw [if_neg h]

/-- The state the cold load leaves, before the port takes up what replay requests (R13, R17, R124). -/
def State.coldLoaded (s : State) (x : Built) : State := { s with
  startUp := .replay
  load := none
  tables := x.tables
  units := tabulate 512 (fun u => UnitRec.cold (steadyLamp (x.tables.unitMap.get u).kind .free))
  bands := []
  timers := []
  drive := ⟨[], [], [], []⟩
  engine := { s.engine with overlay := [] }
  summary := some (x.summary .cold x.cuts.result none)
  notices := s.notices.post (s.notice .tablesLoaded (16 + x.cuts.result.code) none none x.cuts.number)
  port := { s.port with journalErase := (List.range' 16 16).find? fun g => s.segDirty g } }

theorem loadEnd_cold (h : s.load = some .cold) : loadEnd s = pump (s.coldLoaded (s.built .cold)) := by
  unfold loadEnd
  rw [h]
  dsimp only
  generalize s.built .cold = x
  rw [reportLoad_ok]
  unfold firstSet requestReplayErase State.coldLoaded
  generalize tabulate 512 _ = v
  rfl

/-! ### The port after the cold load (R124, R132, R133) -/

/-- The Journal Engine has nothing to write, as a cold start leaves it. -/
structure JournalEmpty (s : State) : Prop where
  head : s.journal.head = none
  tail : s.journal.tail = none
  queue : s.journal.queue = []
  opening : s.journal.opening = none
  write : s.journal.write = none

theorem JournalEmpty.journalWants (h : JournalEmpty s) : s.journalWants = false := by
  simp [State.journalWants, h.write, nextWrite, h.opening, h.head]

/-- Before the part runs, an empty Journal Engine leaves the port to the arbiter. -/
theorem pump_of_empty (h : JournalEmpty s) (hr : s.startUp ≠ .running) : pump s = arbitrateLoop 300 s := by
  have ho : openFirst s = s := if_neg fun k => k.2.1 h.queue
  have hc : startReclaim s = s := if_neg fun k => hr k.1
  unfold pump
  rw [ho, hc, advanceScan_still s (.inr (.inl h.tail))]

/-- With nothing to write for the Journal Engine and the store commands, a journal erase requested begins (R133). -/
theorem arbitrateOnce_erase (h : JournalEmpty s) (hm : s.mgmt.state ≠ .programming)
    (hp : s.port = ⟨none, none, some g, false⟩) :
    arbitrateOnce s = (s.setPort ⟨none, some ⟨true, g, .retiring false⟩, none, false⟩, true) := by
  unfold arbitrateOnce
  rw [h.journalWants, hp]
  simp [State.wantsProgram, hm]

/-- With no erase requested either, the port stays as it is. -/
theorem arbitrateOnce_idle (h : JournalEmpty s) (hm : s.mgmt.state ≠ .programming)
    (hp : s.port = ⟨none, none, none, false⟩) : arbitrateOnce s = (s, false) := by
  unfold arbitrateOnce
  rw [h.journalWants, hp]
  simp [State.wantsProgram, hm]

/-- The erase in progress has its segment retired first (R132). -/
theorem arbitrateOnce_retiring (h : JournalEmpty s)
    (hp : s.port = ⟨none, some ⟨true, g, .retiring false⟩, none, false⟩) :
    arbitrateOnce s = (carryRetiring s g, true) := by
  unfold arbitrateOnce
  rw [h.journalWants, hp]
  simp

/-- An erase proper under way goes on (R133). -/
theorem arbitrateOnce_active (h : JournalEmpty s) (hp : s.port = ⟨none, some ⟨true, g, .active⟩, none, false⟩) :
    arbitrateOnce s = (s, false) := by
  unfold arbitrateOnce
  rw [h.journalWants, hp]
  simp

/-- A program that begins is the port's, and leaves the journal to the Journal Engine. -/
theorem beginProgram_port (s : State) (p : Program) :
    (beginProgram s p).port = { s.port with program := some p } := by
  unfold beginProgram
  split_ifs <;> rfl

/-- The erase of a RETIRED segment goes on to the erase proper (R132). -/
theorem carryRetiring_retired (hs : s.slotState ⟨g, 0⟩ = .retired) : carryRetiring s g = s.erasePhase .active := by
  unfold carryRetiring
  dsimp only
  rw [hs]

/-- Any other segment gets the retiring program its slot 0 lacks (R132). -/
theorem carryRetiring_program {k : ProgKind} {c : List Byte} (hs : RetiringNext (s.slotState ⟨g, 0⟩) k c) :
    carryRetiring s g = beginProgram (s.erasePhase (.retiring true)) ⟨.retiring, k, ⟨g, 0⟩, c⟩ := by
  unfold carryRetiring
  dsimp only
  generalize s.slotState ⟨g, 0⟩ = st at hs
  cases st
  case retired => exact hs.elim
  all_goals
    obtain ⟨rfl, rfl⟩ := hs
    rfl

/-- What becomes of the port: the erase of the segment is in progress. -/
theorem pump_erases (h : JournalEmpty s) (hr : s.startUp ≠ .running) (hm : s.mgmt.state ≠ .programming)
    (hp : s.port = ⟨none, none, some g, false⟩) :
    (s.slotState ⟨g, 0⟩ = .retired → (pump s).port = ⟨none, some ⟨true, g, .active⟩, none, false⟩) ∧
    ∀ k c, RetiringNext (s.slotState ⟨g, 0⟩) k c →
      (pump s).port = ⟨some ⟨.retiring, k, ⟨g, 0⟩, c⟩, some ⟨true, g, .retiring true⟩, none, false⟩ := by
  set m := s.setPort ⟨none, some ⟨true, g, .retiring false⟩, none, false⟩ with hmdef
  have hme : JournalEmpty m := ⟨h.head, h.tail, h.queue, h.opening, h.write⟩
  have two : pump s = arbitrateLoop 298 (carryRetiring m g) := by
    rw [pump_of_empty h hr, arbitrateLoop, arbitrateOnce_erase h hm hp]
    dsimp only
    rw [if_pos rfl, arbitrateLoop, arbitrateOnce_retiring hme rfl]
    exact if_pos rfl
  refine ⟨fun hs => ?_, fun k c hs => ?_⟩
  · have he : JournalEmpty (m.erasePhase .active) := ⟨h.head, h.tail, h.queue, h.opening, h.write⟩
    rw [two, carryRetiring_retired (s := m) hs, arbitrateLoop, arbitrateOnce_active (g := g) he rfl]
    rfl
  · have hport := beginProgram_port (m.erasePhase (.retiring true)) ⟨.retiring, k, ⟨g, 0⟩, c⟩
    rw [two, carryRetiring_program (s := m) hs, arbitrateLoop_busy _ _ (by rw [hport]; rfl), hport]
    rfl

theorem pump_rests (h : JournalEmpty s) (hr : s.startUp ≠ .running) (hm : s.mgmt.state ≠ .programming)
    (hp : s.port = ⟨none, none, none, false⟩) : pump s = s := by
  rw [pump_of_empty h hr, arbitrateLoop, arbitrateOnce_idle h hm hp]
  rfl

/-- Settles O16: the cold load's own state, and the arbiter's first choices. -/
theorem coldLoadEnds : Obligations.ColdLoadEnds := by
  unfold Obligations.ColdLoadEnds
  intro s hload recs b cut result cuts
  have hb : s.built .cold = b := built_cold
  have he : loadEnd s = pump (s.coldLoaded b) := hb ▸ loadEnd_cold hload
  refine ⟨_, rfl, ?_, fun hport hm hhead htail hq ho hw => ?_⟩
  · rw [he]
    exact pump_serves _
  · rw [he]
    have hempty : JournalEmpty (s.coldLoaded b) := ⟨hhead, htail, hq, ho, hw⟩
    have hrun : (s.coldLoaded b).startUp ≠ .running := by simp [State.coldLoaded]
    have hnew : ∀ o, (List.range' 16 16).find? (fun g => s.segDirty g) = o →
        (s.coldLoaded b).port = ⟨none, none, o, false⟩ := fun o ho => by
      rw [State.coldLoaded, hport, ho]
    refine ⟨fun g h16 h31 hd hlow => ?_, fun hclean => ?_⟩
    · have hf : (List.range' 16 16).find? (fun g => s.segDirty g) = some g :=
        find?_lowest List.pairwise_lt_range' (List.mem_range'_1.2 ⟨h16, by omega⟩) hd
          fun h hh hlt => hlow h (List.mem_range'_1.1 hh).1 hlt
      exact pump_erases hempty hrun hm (hnew _ hf)
    · have hf : (List.range' 16 16).find? (fun g => s.segDirty g) = none :=
        List.find?_eq_none.2 fun g hg => by
          have := List.mem_range'_1.1 hg
          simp [hclean g this.1 (by omega)]
      rw [pump_rests hempty hrun hm (hnew _ hf), hnew _ hf, hport]

end Sys2Proof.Machine
end


/-! ## The replacement of the working set -/

section
namespace Sys2Proof.Machine

variable {s m t : State} {new old : Tables} {b d k : BankIx} {u v : UnitIx} {T : BankIx → Prop}

/-! ### Banks one after another -/

/-- Banks taken one after another, each once: every bank is taken in a state in which it is still as it was, and what is
done to the others does not touch it. -/
theorem banks_foldl {f : State → BankIx → State} (hf : ∀ s b, BankActs (· = b) s (f s b)) (l : List BankIx)
    (hl : l.Nodup) (s : State) : BankActs (· ∈ l) s (l.foldl f s) ∧
      ∀ d ∈ l, ∃ m, BankActs (· ≠ d) s m ∧ BankActs (· ≠ d) (f m d) (l.foldl f s) := by
  induction l generalizing s with
  | nil => exact ⟨.refl _ s, by simp⟩
  | cons b l ih =>
    obtain ⟨hb, hl⟩ := List.nodup_cons.1 hl
    obtain ⟨hall, heach⟩ := ih hl (f s b)
    refine ⟨((hf s b).mono fun d hd => ?_).trans (hall.mono fun d hd => List.mem_cons_of_mem b hd), fun d hd => ?_⟩
    · exact hd ▸ List.mem_cons_self
    · rcases List.mem_cons.1 hd with rfl | hd
      · exact ⟨s, .refl _ s, hall.mono fun e he hne => hb (hne ▸ he)⟩
      · obtain ⟨m, h1, h2⟩ := heach d hd
        exact ⟨m, ((hf s b).mono fun e (he : e = b) (hed : e = d) => hb (he ▸ hed ▸ hd)).trans h1, h2⟩

theorem BankActs.tables (h : BankActs T s t) : t.tables = s.tables := by rw [h.frame]
theorem BankActs.clock (h : BankActs T s t) : t.clock = s.clock := by rw [h.frame]
theorem BankActs.startUp (h : BankActs T s t) : t.startUp = s.startUp := by rw [h.frame]

theorem mem_unitsOf : v ∈ unitsOf b ↔ bankOf v = b := by
  simp only [unitsOf, List.mem_map, List.mem_finRange, true_and]
  constructor
  · rintro ⟨p, rfl⟩
    apply Fin.ext
    simp only [bankOf, unitAt]
    omega
  · rintro rfl
    refine ⟨posOf v, Fin.ext ?_⟩
    simp only [bankOf, unitAt, posOf]
    omega

/-! ### What a replacement does to one bank (R16) -/

/-- A new set resets the bank: it has nodes, and their count or kinds change. -/
def BankResets (s : State) (new : Tables) (k : BankIx) : Prop :=
  0 < (new.banks.get k).nodeCount ∧
    ((new.banks.get k).nodeCount ≠ (s.bankRec k).nodeCount ∨ ∃ v, bankOf v = k ∧ (new.unitMap.get v).kind ≠ s.kind v)

/-- A new set makes the bank ABSENT: its count has become 0. -/
def BankGoes (s : State) (new : Tables) (k : BankIx) : Prop :=
  (new.banks.get k).nodeCount = 0 ∧ 0 < (s.bankRec k).nodeCount

theorem bankResets_iff (ht : t.tables = new) :
    (0 < (t.bankRec k).nodeCount ∧ ((t.bankRec k).nodeCount ≠ (s.tables.banks.get k).nodeCount ∨
      (unitsOf k).any fun u => t.kind u ≠ (s.tables.unitMap.get u).kind)) ↔ BankResets s new k := by
  simp only [BankResets, State.bankRec, State.kind, ht, List.any_eq_true, mem_unitsOf, decide_eq_true_eq]

theorem replaceBank_resets (ht : t.tables = new) (h : BankResets s new k) :
    replaceBank s.tables t k = enterResetting t k := if_pos ((bankResets_iff ht).2 h)

theorem replaceBank_goes (ht : t.tables = new) (h : BankGoes s new k) :
    replaceBank s.tables t k = makeAbsent t k := by
  have hc : (t.bankRec k).nodeCount = 0 := by rw [State.bankRec, ht, h.1]
  unfold replaceBank
  dsimp only
  rw [if_neg fun hp => by omega, if_pos ⟨hc, h.2⟩]

/-- Any other bank takes over its new sweep period (R16). -/
theorem replaceBank_stays (ht : t.tables = new) (hr : ¬BankResets s new k) (hg : ¬BankGoes s new k) :
    replaceBank s.tables t k = if (new.banks.get k).sweep ≠ (s.bankRec k).sweep then
      t.modBank k fun x => { x with cycleDue := after x.cycleBegun (new.banks.get k).sweep } else t := by
  unfold replaceBank
  dsimp only
  rw [if_neg fun h => hr ((bankResets_iff ht).1 h), if_neg, State.bankRec, ht]
  · rfl
  · rw [State.bankRec, ht]
    exact hg

theorem replaceBank_bankActs (old : Tables) (s : State) (b : BankIx) : BankActs (· = b) s (replaceBank old s b) := by
  unfold replaceBank
  dsimp only
  split_ifs
  exacts [enterResetting_bankActs, makeAbsent_bankActs, modBank_bankActs, .refl _ s]

/-! ### A Drive Scheduler at rest -/

/-- The Drive Scheduler is empty and no movement is deferred. -/
structure DriveEmpty (s : State) : Prop where
  drive : s.drive = ⟨[], [], [], []⟩
  deferred : ∀ u, (s.unit u).deferred = none

theorem DriveEmpty.congr (h : DriveEmpty s) (hd : t.drive = s.drive) (hu : t.units = s.units) : DriveEmpty t :=
  ⟨hd.trans h.drive, fun u => by rw [State.unit, hu]; exact h.deferred u⟩

theorem examine_empty (h : s.drive.waiting = []) : examine s = s := by
  unfold examine examineLoop
  split_ifs
  · rfl
  · rw [h]

/-- A bank that moves leaves it at rest (R84). -/
theorem moveBank_driveEmpty {st : BankState} (h : DriveEmpty s) : DriveEmpty (moveBank s b st) := by
  unfold moveBank
  dsimp only
  split_ifs
  · have hd : (s.modBank b fun k => k.leave st).drive = ⟨[], [], [], []⟩ := h.drive
    have hl : driveLeaves (s.modBank b fun k => k.leave st) b =
        { (s.modBank b fun k => k.leave st).hand (.removed [] (some b)) with drive := ⟨[], [], [], []⟩ } := by
      unfold driveLeaves
      rw [hd]
      exact examine_empty rfl
    rw [hl]
    exact h.congr h.drive.symm rfl
  · exact h.congr rfl rfl

theorem enterResetting_driveEmpty (h : DriveEmpty s) : DriveEmpty (enterResetting s b) :=
  (moveBank_driveEmpty (b := b) (st := .resetting) h).congr rfl rfl

theorem makeAbsent_driveEmpty (h : DriveEmpty s) : DriveEmpty (makeAbsent s b) :=
  (moveBank_driveEmpty (b := b) (st := .absent) h).congr rfl rfl

theorem replaceBank_driveEmpty (h : DriveEmpty s) : DriveEmpty (replaceBank old s b) := by
  unfold replaceBank
  dsimp only
  split_ifs
  exacts [enterResetting_driveEmpty h, makeAbsent_driveEmpty h, h.congr rfl rfl, h]

/-! ### The replacement as a whole (R16) -/

/-- The state with the fresh records and the new set, before the banks are taken. -/
def State.renewed (s : State) (new : Tables) : State := { freshUnits s new with tables := new }

/-- All banks taken. -/
def State.rebanked (s : State) (new : Tables) : State := allBanks.foldl (replaceBank s.tables) (s.renewed new)

theorem replaceSet_eq : replaceSet s new = (s.rebanked new).setInbox
    ((s.rebanked new).engine.inbox.filterMap (EngEvent.without (s.kindChanges new))) := by
  unfold replaceSet State.rebanked State.renewed
  rfl

theorem renewed_unit : (s.renewed new).unit v =
    if s.kindChanges new v then UnitRec.cold (steadyLamp (new.unitMap.get v).kind .free) else s.unit v := by
  unfold State.renewed freshUnits State.unit
  dsimp only
  rw [tabulate_get]

theorem kindChanges_iff : s.kindChanges new v = true ↔ (new.unitMap.get v).kind ≠ s.kind v := decide_eq_true_iff

/-- The state with the fresh records and the new set, field by field. -/
theorem renewed_frame : s.renewed new = { s with
    tables := new
    units := (s.renewed new).units
    timers := s.timers.filter (fun e => !s.kindChanges new e.unit)
    engine := { s.engine with
      overlay := []
      follow := s.engine.follow.filter (fun e => !s.kindChanges new e.1)
      held := s.engine.held.filter (HeldEvent.stays (s.kindChanges new))
      arrived := s.engine.arrived.filter (HeldEvent.stays (s.kindChanges new)) } } := by
  unfold State.renewed freshUnits
  generalize tabulate 512 _ = v
  rfl

theorem renewed_bank : (s.renewed new).bank k = s.bank k := by rw [renewed_frame]; rfl
theorem renewed_chain : (s.renewed new).chain k = s.chain k := by rw [renewed_frame]; rfl
theorem renewed_tables : (s.renewed new).tables = new := by rw [renewed_frame]
theorem renewed_clock : (s.renewed new).clock = s.clock := by rw [renewed_frame]
theorem renewed_drive : (s.renewed new).drive = s.drive := by rw [renewed_frame]
theorem renewed_tapMemory : (s.renewed new).tapMemory = s.tapMemory := by rw [renewed_frame]

theorem rebanked_bankActs (s : State) (new : Tables) : BankActs (fun _ => True) (s.renewed new) (s.rebanked new) :=
  (banks_foldl (replaceBank_bankActs s.tables) allBanks (List.nodup_finRange 8) (s.renewed new)).1.mono fun _ _ =>
    trivial

/-- Each bank is taken as it was, under the new set. -/
theorem rebanked_bank (s : State) (new : Tables) (k : BankIx) : ∃ m, BankActs (· ≠ k) (s.renewed new) m ∧
    m.tables = new ∧ m.bank k = s.bank k ∧ m.chain k = s.chain k ∧ m.clock = s.clock ∧
    (∀ u, bankOf u = k → m.tapMemory.get u = s.tapMemory.get u) ∧
    BankActs (· ≠ k) (replaceBank s.tables m k) (s.rebanked new) := by
  obtain ⟨m, h1, h2⟩ := (banks_foldl (replaceBank_bankActs s.tables) allBanks (List.nodup_finRange 8)
    (s.renewed new)).2 k (List.mem_finRange k)
  refine ⟨m, h1, h1.tables.trans renewed_tables, (h1.bank k (not_not.2 rfl)).trans renewed_bank,
    (h1.chain k (not_not.2 rfl)).trans renewed_chain, h1.clock.trans renewed_clock, fun u hu => ?_, h2⟩
  rw [h1.tapMemory u (not_not.2 hu), renewed_tapMemory]

theorem makeAbsent_tapMemory : (makeAbsent s b).tapMemory = s.tapMemory := by
  have h : (makeAbsent s b).tapMemory = (moveBank s b .absent).tapMemory := rfl
  rw [h, (moveBank_acts s b .absent).1]
  rfl

/-- A bank that is reset (R16, R107). -/
theorem rebanked_resets (h : BankResets s new k) :
    (s.rebanked new).bank k = { (s.bank k).leave .resetting with resetAt := s.clock.ms } ∧
    (s.rebanked new).chain k = (s.chain k).map Node.inReset ∧
    ∀ u, bankOf u = k → (s.rebanked new).tapMemory.get u = ⟨none, none, none⟩ := by
  obtain ⟨m, _, ht, hb, hc, hclk, _, hlast⟩ := rebanked_bank s new k
  rw [replaceBank_resets ht h] at hlast
  refine ⟨?_, ?_, fun u hu => ?_⟩
  · rw [hlast.bank k (not_not.2 rfl), enterResetting_bank, hb, hclk]
  · rw [hlast.chain k (not_not.2 rfl), enterResetting_chain, hc]
  · rw [hlast.tapMemory u (not_not.2 hu), enterResetting_tapMemory, if_pos hu]

/-- A bank that becomes ABSENT (R16, R106). -/
theorem rebanked_goes (h : BankGoes s new k) :
    (s.rebanked new).bank k = (s.bank k).leave .absent ∧
    (s.rebanked new).chain k = (s.chain k).map Node.inReset ∧
    ∀ u, bankOf u = k → (s.rebanked new).tapMemory.get u = s.tapMemory.get u := by
  obtain ⟨m, _, ht, hb, hc, _, htap, hlast⟩ := rebanked_bank s new k
  rw [replaceBank_goes ht h] at hlast
  refine ⟨?_, ?_, fun u hu => ?_⟩
  · rw [hlast.bank k (not_not.2 rfl), makeAbsent_bank, hb]
  · rw [hlast.chain k (not_not.2 rfl), makeAbsent_chain, hc]
  · rw [hlast.tapMemory u (not_not.2 hu), makeAbsent_tapMemory, htap u hu]

/-- Any other bank goes on (R16). -/
theorem rebanked_stays (hr : ¬BankResets s new k) (hg : ¬BankGoes s new k) :
    (s.rebanked new).bank k = { s.bank k with
      cycleDue := if (new.banks.get k).sweep = (s.bankRec k).sweep then (s.bank k).cycleDue
        else (s.bank k).cycleBegun + BitVec.ofNat 32 (new.banks.get k).sweep } ∧
    (s.rebanked new).chain k = s.chain k ∧
    ∀ u, bankOf u = k → (s.rebanked new).tapMemory.get u = s.tapMemory.get u := by
  obtain ⟨m, _, ht, hb, hc, _, htap, hlast⟩ := rebanked_bank s new k
  rw [replaceBank_stays ht hr hg] at hlast
  have hbank := hlast.bank k (not_not.2 rfl)
  have hchain := hlast.chain k (not_not.2 rfl)
  have htaps := fun u hu => hlast.tapMemory u (not_not.2 hu)
  by_cases hsw : (new.banks.get k).sweep = (s.bankRec k).sweep
  · rw [if_neg (not_not.2 hsw)] at hbank hchain htaps
    rw [if_pos hsw, hbank, hchain]
    exact ⟨hb, hc, fun u hu => (htaps u hu).trans (htap u hu)⟩
  · rw [if_pos hsw] at hbank hchain htaps
    rw [if_neg hsw, hbank, hchain, State.modBank, setBank_bank_self, hb]
    exact ⟨rfl, hc, fun u hu => (htaps u hu).trans (htap u hu)⟩

/-- Where every bank goes on, the Drive Scheduler is as it was. -/
theorem rebanked_drive (h : ∀ k, ¬BankResets s new k ∧ ¬BankGoes s new k) : (s.rebanked new).drive = s.drive := by
  have one : ∀ (t : State) b, t.tables = new → (replaceBank s.tables t b).drive = t.drive := fun t b ht => by
    rw [replaceBank_stays ht (h b).1 (h b).2]
    split_ifs <;> rfl
  have all : ∀ (l : List BankIx) (t : State), t.tables = new → (l.foldl (replaceBank s.tables) t).drive = t.drive := by
    intro l
    induction l with
    | nil => exact fun _ _ => rfl
    | cons b l ih => exact fun t ht => (ih _ ((replaceBank_bankActs s.tables t b).tables.trans ht)).trans (one t b ht)
  exact (all allBanks _ renewed_tables).trans renewed_drive

/-- A Drive Scheduler at rest stays so. -/
theorem rebanked_driveEmpty (h : DriveEmpty s) : DriveEmpty (s.rebanked new) := by
  have start : DriveEmpty (s.renewed new) := by
    refine ⟨renewed_drive.trans h.drive, fun u => ?_⟩
    rw [renewed_unit]
    split_ifs
    exacts [rfl, h.deferred u]
  have all : ∀ (l : List BankIx) (t : State), DriveEmpty t → DriveEmpty (l.foldl (replaceBank s.tables) t) := by
    intro l
    induction l with
    | nil => exact fun _ h => h
    | cons b l ih => exact fun t h => ih _ (replaceBank_driveEmpty h)
  exact all allBanks _ start

/-- A unit of an unchanged kind keeps its record, a deferred op apart; any other is FREE of its new kind (R16). -/
theorem rebanked_unit (v : UnitIx) : ((s.rebanked new).unit v).rest =
    if s.kindChanges new v then UnitRec.cold (steadyLamp (new.unitMap.get v).kind .free) else (s.unit v).rest := by
  rw [(rebanked_bankActs s new).kept v (by simp), renewed_unit]
  split_ifs <;> rfl

/-- The replaced state, field by field, and what waits at the Binding Engine (R16). -/
theorem replaceSet_frame (s : State) (new : Tables) : replaceSet s new = { s with
    tables := new
    units := (s.rebanked new).units
    timers := s.timers.filter (fun e => !s.kindChanges new e.unit)
    drive := (s.rebanked new).drive
    banks := (s.rebanked new).banks
    chains := (s.rebanked new).chains
    tapMemory := (s.rebanked new).tapMemory
    engine := { s.engine with
      overlay := []
      follow := s.engine.follow.filter (fun e => !s.kindChanges new e.1)
      held := s.engine.held.filter (HeldEvent.stays (s.kindChanges new))
      arrived := s.engine.arrived.filter (HeldEvent.stays (s.kindChanges new))
      inbox := (s.rebanked new).engine.inbox.filterMap (EngEvent.without (s.kindChanges new)) } } := by
  have hf := (rebanked_bankActs s new).frame
  rw [renewed_frame] at hf
  rw [replaceSet_eq]
  generalize s.rebanked new = t at hf
  generalize (s.renewed new).units = w at hf
  rw [hf]
  rfl

theorem rebanked_inbox (s : State) (new : Tables) :
    ∃ reports, (s.rebanked new).engine.inbox = s.engine.inbox ++ reports := by
  obtain ⟨reports, h⟩ := (rebanked_bankActs s new).inbox
  rw [renewed_frame] at h
  exact ⟨reports, h.symm⟩

end Sys2Proof.Machine
end


/-! ## The end of a reload -/

section
namespace Sys2Proof.Machine

variable {s m t : State} {new : Tables} {u v : UnitIx} {k : LoadCause} {x : Built}

/-! ### The conflict check (R15) -/

/-- A unit whose kind would change is in conflict where it is held, or is a locker with a STATE standing (R15). -/
def InConflict (s : State) (new : Tables) (v : UnitIx) : Prop :=
  (new.unitMap.get v).kind ≠ s.kind v ∧
    ((s.unit v).holder.isSome ∨ (s.kind v = .locker ∧ (s.unit v).stateRef.isSome))

theorem inConflict_iff : (s.kindChanges new v &&
    ((s.unit v).holder.isSome || (decide (s.kind v = .locker) && (s.unit v).stateRef.isSome))) = true ↔
      InConflict s new v := by
  simp only [InConflict, Bool.and_eq_true, Bool.or_eq_true, kindChanges_iff, decide_eq_true_eq]

theorem conflict_lowest (h : InConflict s new u) (hlow : ∀ v : UnitIx, v.1 < u.1 → ¬InConflict s new v) :
    s.conflict new = some u :=
  find?_lowest (lt := fun v u : UnitIx => v.1 < u.1) (List.sortedLT_finRange 512).pairwise (List.mem_finRange u)
    (inConflict_iff.2 h) fun v _ hv => Bool.eq_false_iff.2 fun hp => hlow v hv (inConflict_iff.1 hp)

theorem conflict_none (h : ∀ v, ¬InConflict s new v) : s.conflict new = none :=
  List.find?_eq_none.2 fun v _ hp => h v (inConflict_iff.1 hp)

/-! ### What a load that is judged leaves -/

theorem Cuts.result_code (c : Cuts) : c.result.toResult.code = if c.result = .ok then 0 else 11 := by
  have h : c.result = .ok ∨ c.result = .truncated := by
    unfold Cuts.result
    split_ifs
    exacts [.inr rfl, .inl rfl]
  rcases h with h | h
  all_goals
    rw [h]
    rfl

theorem judgeLoad_conflict (h : s.conflict x.tables = some u) :
    judgeLoad s k x = (reportLoad s k .conflict x (some u), .conflict) := by
  unfold judgeLoad
  rw [h]

/-- The state with a new set in force and the load reported, the banks taken as R16 says. -/
def State.replaced (s : State) (k : LoadCause) (x : Built) : State := { s with
  load := none
  tables := x.tables
  summary := some (x.summary k x.cuts.result none)
  notices := s.notices.post (s.notice .tablesLoaded (k.code * 16 + x.cuts.result.code) none none x.cuts.number)
  units := (s.rebanked x.tables).units
  timers := s.timers.filter (fun e => !s.kindChanges x.tables e.unit)
  drive := (s.rebanked x.tables).drive
  banks := (s.rebanked x.tables).banks
  chains := (s.rebanked x.tables).chains
  tapMemory := (s.rebanked x.tables).tapMemory
  engine := { s.engine with
    overlay := []
    follow := s.engine.follow.filter (fun e => !s.kindChanges x.tables e.1)
    held := s.engine.held.filter (HeldEvent.stays (s.kindChanges x.tables))
    arrived := s.engine.arrived.filter (HeldEvent.stays (s.kindChanges x.tables))
    inbox := (s.rebanked x.tables).engine.inbox.filterMap (EngEvent.without (s.kindChanges x.tables)) } }

theorem replaced_running : (s.replaced k x).engine.runningSlot = s.engine.runningSlot := by
  unfold State.replaced
  generalize s.rebanked x.tables = R
  rfl

theorem judgeLoad_replaced (h : s.conflict x.tables = none) :
    judgeLoad s k x = (s.replaced k x, x.cuts.result) := by
  unfold judgeLoad
  rw [h]
  dsimp only
  rw [replaceSet_frame]
  unfold State.replaced
  generalize s.rebanked x.tables = R
  rw [reportLoad_ok]
  rfl

theorem loadEnd_reload (h : s.load = some .reload) {r : LoadResult}
    (hr : judgeLoad s .reload (s.built .reload) = (m, r)) :
    loadEnd s = pump (endAction m r.toResult 0) := by
  unfold loadEnd
  rw [h]
  dsimp only
  rw [hr]

theorem loadEnd_warm (h : s.load = some .warm) {r : LoadResult}
    (hr : judgeLoad s .warm (s.built .warm) = (m, r)) : loadEnd s = pump (restartBanks m) := by
  unfold loadEnd
  rw [h]
  dsimp only
  rw [hr]

/-- RSTn is held while a bank is in reset or ABSENT (R95). -/
theorem rstHeld_of_resetting {j : BankIx} (h : (s.bank j).state = .resetting) : s.rstHeld j = true := by
  simp [State.rstHeld, h]

theorem rstHeld_of_absent {j : BankIx} (h : (s.bank j).state = .absent) : s.rstHeld j = true := by
  simp [State.rstHeld, h]

theorem mem_filter_kindChanges {α : Type} {l : List α} {f : α → UnitIx} {e : α} :
    e ∈ l.filter (fun e => !s.kindChanges new (f e)) ↔ e ∈ l ∧ ¬(new.unitMap.get (f e)).kind ≠ s.kind (f e) := by
  rw [List.mem_filter, Bool.not_eq_true', ← Bool.not_eq_true, kindChanges_iff]

/-- Settles O17: the conflict check, and the replacement bank by bank. -/
theorem reloadEnds : Obligations.ReloadEnds := by
  unfold Obligations.ReloadEnds
  refine ⟨fun s r u => ?_, fun s r => ?_⟩
  · intro b inConflict hload hrun hact hu hlow
    have hb : s.built .reload = b := built_warm (by decide)
    clear_value b
    have he : loadEnd s = pump (endAction (reportLoad s .reload .conflict b (some u)) .conflict 0) :=
      loadEnd_reload hload (r := .conflict) (by rw [hb]; exact judgeLoad_conflict (conflict_lowest hu hlow))
    refine ⟨_, rfl, ?_⟩
    have hend : endAction (reportLoad s .reload .conflict b (some u)) .conflict 0 = _ :=
      endAction_eq (r := r) hrun
    rw [he, hend, hact]
    exact pump_serves _
  · intro b new changed result cuts ends hload hrun hact hfree gone differs isReset goesAbsent
    have hb : s.built .reload = b := built_warm (by decide)
    clear_value b
    have hnone : s.conflict new = none := by
      refine conflict_none fun v hv => ?_
      obtain ⟨hc, hh | ⟨hk, hs⟩⟩ := hv
      · rw [(hfree v hc).1] at hh
        simp at hh
      · rw [(hfree v hc).2 hk] at hs
        simp at hs
    have he : loadEnd s = pump (endAction (s.replaced .reload b) b.cuts.result.toResult 0) :=
      loadEnd_reload hload (by rw [hb]; exact judgeLoad_replaced hnone)
    have hend : endAction (s.replaced .reload b) b.cuts.result.toResult 0 = _ :=
      endAction_eq (r := r) (replaced_running.trans hrun)
    have hcode : 10 * 16 + b.cuts.result.toResult.code = 160 + ends := by
      show _ = 160 + if b.cuts.result = .ok then 0 else 11
      rw [Cuts.result_code]
    have hresets : ∀ j, isReset j ↔ BankResets s new j := fun _ => Iff.rfl
    have hgoes : ∀ j, goesAbsent j ↔ BankGoes s new j := fun _ => Iff.rfl
    have hdrive := rebanked_drive (s := s) (new := new)
    have hunit := rebanked_unit (s := s) (new := new)
    have hinbox := rebanked_inbox s new
    have bankR := fun j => rebanked_resets (s := s) (new := new) (k := j)
    have bankG := fun j => rebanked_goes (s := s) (new := new) (k := j)
    have bankS := fun j => rebanked_stays (s := s) (new := new) (k := j)
    rw [hact] at hend
    have hnote : (s.replaced .reload b).doneNotice .reloadTables b.cuts.result.toResult 0 =
        s.notice .actionDone (160 + ends) none none 0 := by
      rw [← hcode]
      unfold State.replaced
      generalize s.rebanked b.tables = R
      rfl
    rw [hnote] at hend
    generalize endAction (s.replaced .reload b) b.cuts.result.toResult 0 = m at he hend
    refine ⟨m, _, congrArg Host.Outcome.next he, pump_serves m, ?_⟩
    unfold State.replaced at hend
    generalize hR : s.rebanked b.tables = R at hend
    replace hR : s.rebanked new = R := hR
    rw [hR] at hdrive hunit hinbox bankR bankG bankS
    obtain ⟨reports, hinbox⟩ := hinbox
    subst hend
    refine ⟨rfl, ⟨reports, congrArg (List.filterMap _) hinbox⟩, rfl, rfl, fun v hv => ?_, fun v hv => ?_, fun e => ?_,
      fun e => ?_, fun h => ?_, fun u => ⟨fun h => ?_, fun h => ?_⟩, fun j => ⟨fun h => ?_, fun h => ?_, fun h => ?_,
      fun hr hg => ?_⟩⟩
    · exact (hunit v).trans (if_neg (hv ∘ kindChanges_iff.1))
    · exact (hunit v).trans (if_pos (kindChanges_iff.2 hv))
    · exact mem_filter_kindChanges
    · exact mem_filter_kindChanges (f := Prod.fst)
    · exact hdrive h
    · exact (bankR _ h).2.2 u rfl
    · by_cases hg : goesAbsent (bankOf u)
      · exact (bankG _ hg).2.2 u rfl
      · exact (bankS _ h hg).2.2 u rfl
    · have hst : (R.bank j).state = .resetting := congrArg Bank.state (bankR j h).1
      exact ⟨hst, congrArg Bank.resetAt (bankR j h).1, rstHeld_of_resetting hst⟩
    · have hst : (R.bank j).state = .absent := congrArg Bank.state (bankG j h).1
      exact ⟨hst, rstHeld_of_absent hst⟩
    · exact h.elim (fun hr => (bankR j hr).2.1) fun hg => (bankG j hg).2.1
    · obtain ⟨hbank, hchain, _⟩ := bankS j hr hg
      refine ⟨hchain, ?_, congrArg Bank.cycleDue hbank⟩
      show R.bank j = { s.bank j with cycleDue := (R.bank j).cycleDue }
      rw [hbank]

end Sys2Proof.Machine
end


/-! ## The end of the warm load -/

section
namespace Sys2Proof.Machine

variable {s m t : State} {new : Tables} {u v : UnitIx} {b k : BankIx} {x : Built}

/-! ### Step 6 of the restart (R111, R181) -/

/-- What step 6 does to one bank. -/
def restartBank (s : State) (b : BankIx) : State :=
  if 0 < (s.bankRec b).nodeCount then enterResetting s b else makeAbsent s b

/-- What it does to all. -/
def State.restarted (s : State) : State := allBanks.foldl restartBank s

theorem restartBanks_eq : restartBanks s =
    { s.restarted with restart := none, engine := { s.restarted.engine with resuming := true } } := by
  unfold restartBanks State.restarted restartBank
  rfl

theorem restartBank_bankActs (s : State) (b : BankIx) : BankActs (· = b) s (restartBank s b) := by
  unfold restartBank
  split_ifs
  exacts [enterResetting_bankActs, makeAbsent_bankActs]

theorem restartBank_driveEmpty (h : DriveEmpty s) : DriveEmpty (restartBank s b) := by
  unfold restartBank
  split_ifs
  exacts [enterResetting_driveEmpty h, makeAbsent_driveEmpty h]

theorem restarted_bankActs (s : State) : BankActs (fun _ => True) s s.restarted :=
  (banks_foldl restartBank_bankActs allBanks (List.nodup_finRange 8) s).1.mono fun _ _ => trivial

theorem restarted_driveEmpty (h : DriveEmpty s) : DriveEmpty s.restarted := by
  have all : ∀ (l : List BankIx) (t : State), DriveEmpty t → DriveEmpty (l.foldl restartBank t) := by
    intro l
    induction l with
    | nil => exact fun _ h => h
    | cons b l ih => exact fun t h => ih _ (restartBank_driveEmpty h)
  exact all allBanks s h

/-- Every bank with nodes is reset, and every other one ABSENT (R111). -/
theorem restarted_bank (s : State) (k : BankIx) : s.restarted.bank k =
    if 0 < (s.bankRec k).nodeCount then { (s.bank k).leave .resetting with resetAt := s.clock.ms }
    else (s.bank k).leave .absent := by
  obtain ⟨m, h1, h2⟩ := (banks_foldl restartBank_bankActs allBanks (List.nodup_finRange 8) s).2 k (List.mem_finRange k)
  have hb : m.bank k = s.bank k := h1.bank k (not_not.2 rfl)
  have hn : m.bankRec k = s.bankRec k := by rw [State.bankRec, h1.tables]; rfl
  have hlast : s.restarted.bank k = (restartBank m k).bank k := h2.bank k (not_not.2 rfl)
  rw [hlast, restartBank, hn]
  split_ifs
  · rw [enterResetting_bank, hb, h1.clock]
  · rw [makeAbsent_bank, hb]

/-! ### What the judgement leaves as it was -/

/-- A judged load leaves the clock, the Band Index, the store's side, the Tap Queue, the inputs, the line and the action
slots as they were. -/
structure JudgedFrame (s m : State) : Prop where
  load : m.load = none
  clock : m.clock = s.clock
  rest : (m.bands, m.journal, m.store, m.port, m.mgmt, m.taps, m.inputs, m.line, m.observed) =
    (s.bands, s.journal, s.store, s.port, s.mgmt, s.taps, s.inputs, s.line, s.observed)
  engine : (m.engine.pendingSlot, m.engine.runningSlot, m.engine.cleaning, m.engine.ringStalled) =
    (s.engine.pendingSlot, s.engine.runningSlot, s.engine.cleaning, s.engine.ringStalled)
  drive : DriveEmpty s → DriveEmpty m

theorem replaced_frame (s : State) (k : LoadCause) (x : Built) : JudgedFrame s (s.replaced k x) := by
  have hd := rebanked_driveEmpty (s := s) (new := x.tables)
  unfold State.replaced
  generalize s.rebanked x.tables = R at hd ⊢
  exact ⟨rfl, rfl, rfl, rfl, fun h => (hd h).congr rfl rfl⟩

theorem conflicting_frame (s : State) (k : LoadCause) (x : Built) (u : UnitIx) :
    JudgedFrame s (reportLoad s k .conflict x (some u)) :=
  ⟨rfl, rfl, rfl, rfl, fun h => h.congr rfl rfl⟩

/-- The records are those of the replacement. -/
theorem replaced_unit (s : State) (k : LoadCause) (x : Built) (v : UnitIx) : ((s.replaced k x).unit v).rest =
    if s.kindChanges x.tables v then UnitRec.cold (steadyLamp (x.tables.unitMap.get v).kind .free)
    else (s.unit v).rest := by
  have h := rebanked_unit (s := s) (new := x.tables) v
  unfold State.replaced
  generalize s.rebanked x.tables = R at h ⊢
  exact h

/-- What the restart's end keeps of a judged load: everything but the banks, and what their movements touch. -/
theorem restartBanks_keeps_fields (s : State) : (restartBanks s).restart = none ∧
    (restartBanks s).engine.resuming = true ∧ (restartBanks s).tables = s.tables ∧
    (restartBanks s).engine.overlay = s.engine.overlay ∧ (restartBanks s).timers = s.timers ∧
    (restartBanks s).engine.follow = s.engine.follow ∧ (restartBanks s).summary = s.summary ∧
    (restartBanks s).notices = s.notices ∧ OthersKept s (restartBanks s) [] := by
  have hacts := restarted_bankActs s
  have hf := hacts.frame
  have hk := hacts.kept
  rw [restartBanks_eq]
  generalize s.restarted = R at hf hk
  refine ⟨rfl, rfl, ?_, ?_, ?_, ?_, ?_, ?_, hk⟩
  all_goals
    rw [hf]

theorem restartBanks_frame {s0 : State} (h : JudgedFrame s0 s) : JudgedFrame s0 (restartBanks s) := by
  obtain ⟨hl, hc, hr, he, hd⟩ := h
  have hf := (restarted_bankActs s).frame
  have hd' := restarted_driveEmpty (s := s)
  rw [restartBanks_eq]
  generalize s.restarted = R at hf hd'
  refine ⟨?_, ?_, ?_, ?_, fun k => (hd' (hd k)).congr rfl rfl⟩
  · rw [hf]; exact hl
  · rw [hf]; exact hc
  · rw [hf]; exact hr
  · rw [hf]; exact he

theorem restartBanks_bank (s : State) (k : BankIx) : (restartBanks s).rstHeld k = true ∧
    if 0 < ((restartBanks s).bankRec k).nodeCount
    then ((restartBanks s).bank k).state = .resetting ∧ ((restartBanks s).bank k).resetAt = s.clock.ms ∧
      ((restartBanks s).bank k).activity = .idle
    else ((restartBanks s).bank k).state = .absent := by
  have hb := restarted_bank s k
  have hn : (restartBanks s).bankRec k = s.bankRec k := by
    rw [State.bankRec, (restartBanks_keeps_fields s).2.2.1]
    rfl
  have hbank : (restartBanks s).bank k = s.restarted.bank k := by
    rw [restartBanks_eq]
    generalize s.restarted = R
    rfl
  rw [hn, hbank, hb]
  split_ifs with h
  · rw [if_pos h, ← hbank] at hb
    exact ⟨rstHeld_of_resetting (congrArg Bank.state hb), rfl, rfl, rfl⟩
  · rw [if_neg h, ← hbank] at hb
    exact ⟨rstHeld_of_absent (congrArg Bank.state hb), rfl⟩

/-- A judged load followed by step 6 of the restart. -/
structure WarmEnd (s m1 m : State) : Prop where
  judged : JudgedFrame s m1
  ended : m = restartBanks m1

/-- What O21 says of every warm load, in conflict or not. -/
theorem WarmEnd.common {m1 : State} (h : WarmEnd s m1 m) : m.load = none ∧ m.restart = none ∧
    m.engine.resuming = true ∧
    (∀ k : BankIx, m.rstHeld k = true ∧
      if 0 < (m.bankRec k).nodeCount
      then (m.bank k).state = .resetting ∧ (m.bank k).resetAt = s.clock.ms ∧ (m.bank k).activity = .idle
      else (m.bank k).state = .absent) ∧
    (s.drive = ⟨[], [], [], []⟩ → (∀ u, (s.unit u).deferred = none) → m.drive = s.drive) ∧
    (m.bands = s.bands ∧ m.journal = s.journal ∧ m.store = s.store ∧ m.port = s.port ∧ m.mgmt = s.mgmt ∧
      m.taps = s.taps ∧ m.inputs = s.inputs ∧ m.line = s.line ∧ m.observed = s.observed ∧
      m.engine.pendingSlot = s.engine.pendingSlot ∧ m.engine.runningSlot = s.engine.runningSlot ∧
      m.engine.cleaning = s.engine.cleaning ∧ m.engine.ringStalled = s.engine.ringStalled) := by
  obtain ⟨hj, rfl⟩ := h
  obtain ⟨hl, -, hr, he, hd⟩ := restartBanks_frame hj
  obtain ⟨hrestart, hresume, -⟩ := restartBanks_keeps_fields m1
  simp only [Prod.mk.injEq] at hr he
  obtain ⟨h1, h2, h3, h4, h5, h6, h7, h8, h9⟩ := hr
  obtain ⟨e1, e2, e3, e4⟩ := he
  refine ⟨hl, hrestart, hresume, fun k => ?_, fun hempty hdef => ?_, h1, h2, h3, h4, h5, h6, h7, h8, h9, e1, e2, e3, e4⟩
  · rw [← hj.clock]
    exact restartBanks_bank m1 k
  · exact (hd ⟨hempty, hdef⟩).drive.trans hempty.symm

/-- Settles O21: the judgement of the load, and the banks as step 6 takes them. -/
theorem warmLoadEndsRestart : Obligations.WarmLoadEndsRestart := by
  unfold Obligations.WarmLoadEndsRestart
  intro s hload b new changed inConflict result cuts
  have hb : s.built .warm = b := built_warm (by decide)
  clear_value b
  have hdef : ∀ v, inConflict v ↔ InConflict s new v := fun _ => Iff.rfl
  rcases hc : s.conflict new with _ | u
  case some =>
    have hend : WarmEnd s (reportLoad s .warm .conflict b (some u)) _ := ⟨conflicting_frame s .warm b u, rfl⟩
    have he : loadEnd s = pump (restartBanks (reportLoad s .warm .conflict b (some u))) :=
      loadEnd_warm hload (r := .conflict) (by rw [hb]; exact judgeLoad_conflict hc)
    obtain ⟨-, -, htab, hov, htim, hfol, hsum, hnot, hkept⟩ :=
      restartBanks_keeps_fields (reportLoad s .warm .conflict b (some u))
    obtain ⟨c1, c2, c3, c4, c5, c6⟩ := hend.common
    refine ⟨_, _, congrArg Host.Outcome.next he, pump_serves _, c1, c2, c3, fun w hw hlow => ?_, fun hfree => ?_,
      c4, c5, c6⟩
    · obtain rfl : u = w := Option.some.inj (hc.symm.trans (conflict_lowest ((hdef _).1 hw) fun v hv => hlow v hv))
      exact ⟨htab, hov, hkept, htim, hfol, hsum, hnot⟩
    · rw [conflict_none hfree] at hc
      cases hc
  case none =>
    have hend : WarmEnd s (s.replaced .warm b) _ := ⟨replaced_frame s .warm b, rfl⟩
    have he : loadEnd s = pump (restartBanks (s.replaced .warm b)) :=
      loadEnd_warm hload (by rw [hb]; exact judgeLoad_replaced hc)
    obtain ⟨-, -, htab, hov, htim, hfol, hsum, hnot, hkept⟩ := restartBanks_keeps_fields (s.replaced .warm b)
    obtain ⟨c1, c2, c3, c4, c5, c6⟩ := hend.common
    have hunit := replaced_unit s .warm b
    generalize restartBanks (s.replaced .warm b) = m at *
    refine ⟨m, _, congrArg Host.Outcome.next he, pump_serves _, c1, c2, c3, fun w hw hlow => ?_, fun _ => ?_,
      c4, c5, c6⟩
    · rw [conflict_lowest ((hdef _).1 hw) fun v hv => hlow v hv] at hc
      cases hc
    · have hrest : ∀ v, (m.unit v).rest = _ := fun v => (hkept v (by simp)).trans (hunit v)
      unfold State.replaced at htab hov htim hfol hsum hnot
      generalize s.rebanked b.tables = R at htab hov htim hfol hsum hnot
      refine ⟨htab, hov, fun v hv => ?_, fun v hv => ?_, fun e => ?_, fun e => ?_, hsum, hnot⟩
      · exact (hrest v).trans (if_neg (hv ∘ kindChanges_iff.1))
      · exact (hrest v).trans (if_pos (kindChanges_iff.2 hv))
      · rw [htim]
        exact mem_filter_kindChanges
      · rw [hfol]
        exact mem_filter_kindChanges (f := Prod.fst)

end Sys2Proof.Machine
end


/-! ## The lists the Table Loader builds -/

section
namespace Sys2Proof.Machine

variable {α β : Type} {p : α → Prop} {l : List α} {r : α} {recs : List (List Byte)} {x : List Byte} {k n : Nat}

/-! ### The last record of a kind (R12) -/

/-- The last of a list's members with a property. -/
def IsLast (p : α → Prop) (l : List α) (r : α) : Prop :=
  p r ∧ ∃ before after, l = before ++ r :: after ∧ ∀ x ∈ after, ¬p x

theorem IsLast.find [DecidablePred p] (h : IsLast p l r) : l.reverse.find? (fun x => p x) = some r := by
  obtain ⟨hp, before, after, rfl, hafter⟩ := h
  rw [List.find?_eq_some_iff_append]
  refine ⟨decide_eq_true hp, after.reverse, before.reverse, by simp, fun a ha => ?_⟩
  simpa using hafter a (List.mem_reverse.1 ha)

theorem find_none [DecidablePred p] (h : ∀ x ∈ l, ¬p x) : l.reverse.find? (fun x => p x) = none := by
  rw [List.find?_eq_none]
  intro a ha
  simpa using h a (List.mem_reverse.1 ha)

/-- A record is of a kind, and for a number (R185). -/
def Names (k n : Nat) (r : List Byte) : Prop := field r 0 1 = k ∧ field r 1 1 = n

theorem lastFor_eq : lastFor recs k n = recs.reverse.find? fun r => decide (field r 0 1 = k ∧ field r 1 1 = n) := by
  unfold lastFor ofKind
  rw [← List.filter_reverse, List.find?_filter]
  simp only [decide_eq_true_eq]

theorem lastFor_some (h : IsLast (Names k n) recs x) : lastFor recs k n = some x :=
  lastFor_eq.trans (IsLast.find (p := fun r => field r 0 1 = k ∧ field r 1 1 = n) h)

theorem lastFor_none (h : ∀ r ∈ recs, ¬Names k n r) : lastFor recs k n = none :=
  lastFor_eq.trans (find_none (p := fun r => field r 0 1 = k ∧ field r 1 1 = n) h)

/-- What overwrites a value with each member that has a property leaves what the last of them wrote. -/
theorem foldl_overwrite [DecidablePred p] (g : α → β) (e : β) (l : List α) :
    l.foldl (fun e r => if p r then g r else e) e = (l.reverse.find? fun r => p r).elim e g := by
  induction l using List.reverseRecOn with
  | nil => rfl
  | append_singleton l r ih =>
    rw [List.foldl_append, List.foldl_cons, List.foldl_nil, ih, List.reverse_append, List.reverse_singleton,
      List.singleton_append, List.find?_cons]
    by_cases h : p r
    · simp [h]
    · simp [h]

/-! ### Ids in order of first appearance (R8) -/

theorem distinct_eq_eraseDups (l : List Band) : distinct l = l.eraseDups := by
  have all : ∀ (l acc : List Band), (l.foldl (fun acc b => if acc.contains b then acc else b :: acc) acc).reverse =
      List.eraseDupsBy.loop (· == ·) l acc := by
    intro l
    induction l with
    | nil => exact fun _ => rfl
    | cons b l ih =>
      intro acc
      rw [List.foldl_cons, ih, List.eraseDupsBy.loop, List.any_beq]
      cases acc.contains b <;> rfl
  exact all l []

theorem distinct_nodup (l : List Band) : (distinct l).Nodup := by
  have all : ∀ (l acc : List Band), acc.Nodup →
      (l.foldl (fun acc b => if acc.contains b then acc else b :: acc) acc).Nodup := by
    intro l
    induction l with
    | nil => exact fun _ h => h
    | cons b l ih =>
      intro acc h
      rw [List.foldl_cons]
      refine ih _ ?_
      split_ifs with hb
      · exact h
      · exact List.nodup_cons.2 ⟨by simpa using hb, h⟩
  exact List.nodup_reverse.2 (all l [] List.nodup_nil)

/-! ### Ids in ascending order (R8) -/

/-- Ids strictly ascending. -/
def Ascending (l : List Band) : Prop := l.Pairwise fun x y => x.toNat < y.toNat

theorem mem_insertBand {l : List Band} {a b : Band} : a ∈ insertBand l b ↔ a = b ∨ a ∈ l := by
  induction l with
  | nil => simp [insertBand]
  | cons x l ih =>
    rw [insertBand]
    split_ifs
    · rw [List.mem_cons, ih, List.mem_cons]
      exact or_left_comm
    · rw [List.mem_cons]

theorem insertBand_ascending {l : List Band} {b : Band} (h : Ascending l) (hb : b ∉ l) : Ascending (insertBand l b) := by
  induction l with
  | nil => exact List.pairwise_singleton _ _
  | cons x l ih =>
    obtain ⟨hx, hl⟩ := List.pairwise_cons.1 h
    obtain ⟨hbx, hbl⟩ := List.ne_and_not_mem_of_not_mem_cons hb
    rw [insertBand]
    split_ifs with hlt
    · refine List.pairwise_cons.2 ⟨fun y hy => ?_, ih hl hbl⟩
      rcases mem_insertBand.1 hy with rfl | hy
      exacts [hlt, hx y hy]
    · have hne : b.toNat ≠ x.toNat := fun he => hbx (BitVec.eq_of_toNat_eq he)
      have hbx : b.toNat < x.toNat := by omega
      refine List.pairwise_cons.2 ⟨fun y hy => ?_, h⟩
      rcases List.mem_cons.1 hy with rfl | hy
      exacts [hbx, hbx.trans (hx y hy)]

theorem sortBands_spec {l : List Band} (h : l.Nodup) : Ascending (sortBands l) ∧ ∀ a, a ∈ sortBands l ↔ a ∈ l := by
  have all : ∀ (l acc : List Band), l.Nodup → Ascending acc → (∀ b ∈ l, b ∉ acc) →
      Ascending (l.foldl insertBand acc) ∧ ∀ a, a ∈ l.foldl insertBand acc ↔ a ∈ l ∨ a ∈ acc := by
    intro l
    induction l with
    | nil => exact fun acc _ h _ => ⟨h, fun a => by simp⟩
    | cons b l ih =>
      intro acc hl hacc hnew
      obtain ⟨hb, hl⟩ := List.nodup_cons.1 hl
      obtain ⟨hasc, hmem⟩ := ih (insertBand acc b) hl (insertBand_ascending hacc (hnew b List.mem_cons_self))
        fun c hc hci => (mem_insertBand.1 hci).elim (fun he => hb (he ▸ hc)) (hnew c (List.mem_cons_of_mem b hc))
      refine ⟨hasc, fun a => ?_⟩
      rw [List.foldl_cons, hmem, mem_insertBand, List.mem_cons]
      tauto
  obtain ⟨hasc, hmem⟩ := all l [] h List.Pairwise.nil fun _ _ => List.not_mem_nil
  exact ⟨hasc, fun a => (hmem a).trans (by simp)⟩

/-! ### The values of fields -/

theorem bytesNat_lt (l : List Byte) : bytesNat l < 256 ^ l.length := by
  induction l using List.reverseRecOn with
  | nil => decide
  | append_singleton l b ih =>
    have hb := b.isLt
    have hstep : bytesNat (l ++ [b]) = bytesNat l * 256 + b.toNat := by
      unfold bytesNat
      rw [List.foldl_append]
      rfl
    rw [hstep, List.length_append, List.length_singleton, Nat.pow_succ]
    omega

theorem field_lt (r : List Byte) (i len : Nat) : field r i len < 256 ^ len :=
  (bytesNat_lt _).trans_le (Nat.pow_le_pow_right (by decide) (List.length_take_le _ _))

/-- A vector's members are those its places hold. -/
theorem toList_eq_map_get {m : Nat} (v : Vector α m) : v.toList = (List.finRange m).map v.get := by
  refine List.ext_getElem (by simp) fun i h1 h2 => ?_
  simp [Vector.get_eq_getElem]

end Sys2Proof.Machine
end


/-! ## The working set in its ranges -/

section
namespace Sys2Proof.Machine

variable {recs : List (List Byte)} {r : List Byte} {o : Options} {c : ClassIx} {z : ZoneIx} {k : BankIx} {u : UnitIx}
  {b : BankIx} {p : Position} {m : Vector MapEntry 512}

/-! ### Options (R2) -/

theorem loadOptions_some (h : IsLast (fun x => field x 0 1 = 1) recs r) : loadOptions recs = optionsOf r := by
  have hr : (ofKind recs 1).reverse.head? = some r := by
    rw [ofKind, ← List.filter_reverse, List.head?_filter]
    exact h.find
  obtain ⟨rest, hr⟩ := List.head?_eq_some_iff.1 hr
  unfold loadOptions
  rw [hr]

theorem loadOptions_none (h : ∀ r ∈ recs, field r 0 1 ≠ 1) : loadOptions recs = .default := by
  have hr : ofKind recs 1 = [] := List.filter_eq_nil_iff.2 fun r hr => by simpa using h r hr
  unfold loadOptions
  rw [hr]
  rfl

theorem optionsOf_eq (r : List Byte) : optionsOf r =
    { railLimit := if !(field r 1 1).testBit 0 then
        clampTo 300 6000 (field r 2 2) - clampTo 300 6000 (field r 2 2) % 10 else 2000
      repeatWindow := if !(field r 1 1).testBit 1 then min 5000 (field r 4 2) else 1500
      qualityMin := if !(field r 1 1).testBit 2 then min 7 (field r 6 1) else 2
      evacMode := if (!(field r 1 1).testBit 3) = true ∧ field r 7 1 = 1 then .edge else .level
      protectedSet := if !(field r 1 1).testBit 4 then BitVec.ofNat 16 (field r 8 2) else 0x000F#16 } := by
  have hrail : clampTo 300 6000 (field r 2 2) / 10 * 10 =
      clampTo 300 6000 (field r 2 2) - clampTo 300 6000 (field r 2 2) % 10 := by omega
  unfold optionsOf optionField
  rw [hrail]
  congr 1
  · cases (field r 1 1).testBit 0 <;> rfl
  · cases (field r 1 1).testBit 1
    · exact Nat.zero_max _
    · rfl
  · cases (field r 1 1).testBit 2
    · exact Nat.zero_max _
    · rfl
  · cases (field r 1 1).testBit 3 <;> simp
  · cases (field r 1 1).testBit 4 <;> rfl

/-- Option values in their ranges (R2). -/
def Options.InRange (o : Options) : Prop :=
  300 ≤ o.railLimit ∧ o.railLimit ≤ 6000 ∧ o.railLimit % 10 = 0 ∧ o.repeatWindow ≤ 5000 ∧ o.qualityMin ≤ 7

theorem optionsOf_inRange (r : List Byte) : (optionsOf r).InRange := by
  unfold Options.InRange
  rw [optionsOf_eq, clampTo]
  dsimp only
  refine ⟨?_, ?_, ?_, ?_, ?_⟩ <;> split_ifs <;> omega

theorem loadOptions_inRange (recs : List (List Byte)) : (loadOptions recs).InRange := by
  unfold loadOptions
  split
  · exact optionsOf_inRange _
  · unfold Options.InRange
    decide

/-! ### Classes, zones and banks (R3 to R5) -/

theorem loadClass_some (h : IsLast (Names 2 c.1) recs r) : loadClass recs c =
    { lockerQuota := min 4 (field r 2 1), cabinQuota := min 1 (field r 3 1), zones := BitVec.ofNat 16 (field r 4 2),
      keep := field r 6 1 = 1, base := clampTo 1 60 (field r 7 1),
      floor := min (clampTo 1 60 (field r 7 1)) (clampTo 1 60 (field r 8 1)), ajarIdle := clampTo 30 600 (field r 9 2),
      supplied := true } := by
  unfold loadClass
  rw [lastFor_some h]
  dsimp only
  rw [clampTo, clampTo, Nat.zero_max, Nat.zero_max]

theorem loadClass_none (h : ∀ r ∈ recs, ¬Names 2 c.1 r) : loadClass recs c = .default := by
  unfold loadClass
  rw [lastFor_none h]

theorem loadClass_inRange (recs : List (List Byte)) (c : ClassIx) :
    (loadClass recs c).lockerQuota ≤ 4 ∧ (loadClass recs c).cabinQuota ≤ 1 ∧ 1 ≤ (loadClass recs c).floor ∧
    (loadClass recs c).floor ≤ (loadClass recs c).base ∧ (loadClass recs c).base ≤ 60 ∧
    30 ≤ (loadClass recs c).ajarIdle ∧ (loadClass recs c).ajarIdle ≤ 600 := by
  unfold loadClass
  split
  · decide
  · dsimp only [clampTo]
    omega

theorem loadZone_some (h : IsLast (Names 3 z.1) recs r) : loadZone recs m z =
    ⟨cabinCount m z, min (cabinCount m z) (min 511 (field r 2 2)), min 300 (field r 4 2), min 600 (field r 6 2), true⟩ := by
  unfold loadZone
  rw [lastFor_some h]
  dsimp only
  simp only [clampTo, Nat.zero_max]

theorem loadZone_none (h : ∀ r ∈ recs, ¬Names 3 z.1 r) : loadZone recs m z =
    ⟨cabinCount m z, min (cabinCount m z) 511, 60, 120, false⟩ := by
  unfold loadZone
  rw [lastFor_none h]
  rfl

theorem loadZone_inRange (recs : List (List Byte)) (m : Vector MapEntry 512) (z : ZoneIx) :
    (loadZone recs m z).threshold ≤ (loadZone recs m z).cabins ∧ (loadZone recs m z).threshold ≤ 511 ∧
    (loadZone recs m z).warningLead ≤ 300 ∧ (loadZone recs m z).grace ≤ 600 := by
  unfold loadZone
  dsimp only
  split
  · dsimp only [ZoneRec.default]
    omega
  · dsimp only [clampTo]
    omega

theorem loadBank_some (h : IsLast (Names 4 k.1) recs r) : loadBank recs o k =
    { nodeCount := min 64 (field r 2 1), pulseLength := clampTo 1 15 (field r 3 1),
      coilCurrent := min o.railLimit (clampTo 50 2000 (field r 4 2)), sweep := clampTo 50 500 (field r 6 2),
      supplied := true } := by
  unfold loadBank
  rw [lastFor_some h]
  dsimp only
  rw [clampTo, Nat.zero_max]

theorem loadBank_none (h : ∀ r ∈ recs, ¬Names 4 k.1 r) : loadBank recs o k =
    ⟨0, 4, min o.railLimit 500, 100, false⟩ := by
  unfold loadBank
  rw [lastFor_none h]
  rfl

theorem loadBank_inRange (recs : List (List Byte)) (k : BankIx) (ho : 300 ≤ o.railLimit) :
    (loadBank recs o k).nodeCount ≤ 64 ∧ 1 ≤ (loadBank recs o k).pulseLength ∧ (loadBank recs o k).pulseLength ≤ 15 ∧
    50 ≤ (loadBank recs o k).coilCurrent ∧ (loadBank recs o k).coilCurrent ≤ 2000 ∧
    (loadBank recs o k).coilCurrent ≤ o.railLimit ∧ 50 ≤ (loadBank recs o k).sweep ∧ (loadBank recs o k).sweep ≤ 500 := by
  unfold loadBank
  split
  · dsimp only [BankRec.default]
    omega
  · dsimp only [clampTo]
    omega

/-! ### The unit map (R6) -/

/-- A UNITMAP record covers a position. -/
def Covers (b : BankIx) (p : Position) (r : List Byte) : Prop :=
  Names 5 b.1 r ∧ 1 ≤ field r 4 1 ∧ field r 4 1 ≤ 3 ∧ field r 2 1 ≤ p.1 ∧ p.1 < field r 2 1 + clampTo 1 16 (field r 3 1)


/-- The entry it sets. -/
def mapEntryOf (r : List Byte) : MapEntry :=
  ⟨if field r 4 1 = 1 then .locker else if field r 4 1 = 2 then .cabin else .blank, ⟨min 15 (field r 5 1), by omega⟩⟩

open scoped Classical in
/-- A record sets the entries of the positions it covers, and no other. -/
theorem applyMap_eq (e : MapEntry) : (if field r 0 1 = 5 then applyMap b p e r else e) =
    if Covers b p r then mapEntryOf r else e := by
  have hp := p.isLt
  by_cases hc : Covers b p r
  · obtain ⟨⟨h5, hb⟩, h1, h3, hlo, hhi⟩ := hc
    rw [if_pos h5, if_pos ⟨⟨h5, hb⟩, h1, h3, hlo, hhi⟩]
    have hfirst : field r 2 1 ≤ 63 := by omega
    have hin : field r 1 1 = b.1 ∧ field r 2 1 ≤ 63 ∧ field r 2 1 ≤ p.1 ∧
      p.1 < field r 2 1 + clampTo 1 16 (field r 3 1) := ⟨hb, hfirst, hlo, hhi⟩
    have hkind : mapKind? (field r 4 1) = some (mapEntryOf r).kind := by
      unfold mapEntryOf
      dsimp only
      generalize field r 4 1 = n at h1 h3
      interval_cases n <;> rfl
    unfold applyMap
    rw [hkind]
    exact if_pos hin
  · rw [if_neg hc]
    split_ifs with h5
    · unfold applyMap
      cases hk : mapKind? (field r 4 1) with
      | none => rfl
      | some kind =>
        refine if_neg fun ⟨hb, _, hlo, hhi⟩ => hc ⟨⟨h5, hb⟩, ?_, ?_, hlo, hhi⟩
        all_goals
          by_contra hn
          rw [mapKind?.eq_4 _ (by omega) (by omega) (by omega)] at hk
          cases hk
    · rfl

open scoped Classical in
theorem loadEntry_below {n : Nat} (h : p.1 < n) : loadEntry (ofKind recs 5) n b p =
    (recs.reverse.find? fun r => Covers b p r).elim ⟨.blank, 0⟩ mapEntryOf := by
  unfold loadEntry ofKind
  rw [if_pos h, List.foldl_filter, ← foldl_overwrite]
  congr 1
  funext e r
  simp only [decide_eq_true_eq]
  exact applyMap_eq e

theorem loadEntry_above {n : Nat} (h : ¬p.1 < n) : loadEntry recs n b p = ⟨.unused, 0⟩ := if_neg h

theorem loadEntry_covered {n : Nat} (h : p.1 < n) (hr : IsLast (Covers b p) recs r) :
    loadEntry (ofKind recs 5) n b p = mapEntryOf r := by
  classical
  rw [loadEntry_below h, hr.find]
  rfl

theorem loadEntry_uncovered {n : Nat} (h : p.1 < n) (hr : ∀ r ∈ recs, ¬Covers b p r) :
    loadEntry (ofKind recs 5) n b p = ⟨.blank, 0⟩ := by
  classical
  rw [loadEntry_below h, find_none hr]
  rfl

theorem loadEntry_unused_iff {n : Nat} : (loadEntry (ofKind recs 5) n b p).kind = .unused ↔ n ≤ p.1 := by
  classical
  by_cases h : p.1 < n
  · rw [loadEntry_below h]
    refine iff_of_false ?_ (by omega)
    cases recs.reverse.find? fun r => Covers b p r with
    | none => nofun
    | some r =>
      show (if field r 4 1 = 1 then UnitKind.locker else if field r 4 1 = 2 then .cabin else .blank) ≠ .unused
      split_ifs <;> nofun
  · rw [loadEntry_above h]
    exact iff_of_true rfl (by omega)

/-! ### Permit ranges and lists (R7, R8) -/

/-- A record gives a permit range: it is not turned round, and names a class (R7). -/
def GivesRange (r : List Byte) : Bool := field r 0 1 = 6 ∧ field r 1 4 ≤ field r 5 4 ∧ field r 9 1 ≤ 15

/-- The range it gives. -/
def rangeOf (r : List Byte) : Nat × Nat × Nat := (field r 1 4, field r 5 4, field r 9 1)

theorem permit?_map (h : field r 0 1 = 6) : (permit? r).map (fun p => (p.low.toNat, p.high.toNat, p.cls.1)) =
    if GivesRange r then some (rangeOf r) else none := by
  unfold permit? ix16? GivesRange rangeOf
  by_cases hle : field r 1 4 ≤ field r 5 4
  · by_cases hc : field r 9 1 < 16
    · have hlow := field_lt r 1 4
      have hhigh := field_lt r 5 4
      simp only [Nat.reducePow] at hlow hhigh
      simp [h, hle, hc, hlow, hhigh, Nat.le_of_lt_succ hc]
    · have : ¬field r 9 1 ≤ 15 := by omega
      simp [hle, hc, this]
  · simp [hle]

theorem permits_map (recs : List (List Byte)) :
    ((ofKind recs 6).filterMap permit?).map (fun p => (p.low.toNat, p.high.toNat, p.cls.1)) =
      (recs.filter GivesRange).map rangeOf := by
  unfold ofKind
  rw [List.map_filterMap, ← List.filterMap_eq_map, ← List.filterMap_eq_filter, ← List.filterMap_eq_filter,
    List.filterMap_filterMap, List.filterMap_filterMap]
  refine List.filterMap_congr fun r _ => ?_
  by_cases h : field r 0 1 = 6
  · have hr := permit?_map h
    cases hg : GivesRange r <;> simp [Option.guard, h, hg, hr]
  · have hg : GivesRange r = false := by simp [GivesRange, h]
    simp [Option.guard, h, hg]

/-- The ids of the records of a kind, in order of first appearance (R8). -/
theorem distinct_ids (recs : List (List Byte)) (k : Nat) : distinct ((ofKind recs k).flatMap recordIds) =
    (recs.flatMap fun r => if field r 0 1 = k then recordIds r else []).eraseDups := by
  rw [distinct_eq_eraseDups]
  congr 1
  unfold ofKind
  induction recs with
  | nil => rfl
  | cons r recs ih =>
    rw [List.flatMap_cons]
    split_ifs with h
    · rw [List.filter_cons_of_pos (by simpa using h), List.flatMap_cons, ih]
    · rw [List.filter_cons_of_neg (by simpa using h), ih, List.nil_append]

/-! ### The set as built (R13) -/

theorem buildSet_class (recs : List (List Byte)) (o : Options) (c : ClassIx) :
    (buildSet recs o).tables.classes.get c = loadClass recs c := tabulate_get _ _ _

theorem buildSet_bank (recs : List (List Byte)) (o : Options) (k : BankIx) :
    (buildSet recs o).tables.banks.get k = loadBank recs o k := tabulate_get _ _ _

theorem buildSet_zone (recs : List (List Byte)) (o : Options) (z : ZoneIx) :
    (buildSet recs o).tables.zones.get z = loadZone recs (buildSet recs o).tables.unitMap z := tabulate_get _ _ _

theorem buildSet_unit (recs : List (List Byte)) (o : Options) (u : UnitIx) :
    (buildSet recs o).tables.unitMap.get u =
      loadEntry (ofKind recs 5) ((buildSet recs o).tables.banks.get (bankOf u)).nodeCount (bankOf u) (posOf u) :=
  tabulate_get _ _ _

/-- The cabins of a zone, counted from the map (R4). -/
theorem cabinCount_eq (m : Vector MapEntry 512) (z : ZoneIx) :
    (allUnits.filter fun u => (m.get u).kind = .cabin ∧ (m.get u).zone = z).length = cabinCount m z := by
  unfold cabinCount allUnits
  rw [toList_eq_map_get, List.filter_map, List.length_map]
  rfl

/-- The block list: the first ids kept, ascending (R8). -/
theorem sorted_blocks (l : List Band) (n : Nat) : Ascending (sortBands ((distinct l).take n)) ∧
    ∀ a, a ∈ sortBands ((distinct l).take n) ↔ a ∈ (distinct l).take n :=
  sortBands_spec ((distinct_nodup l).sublist (List.take_sublist n _))

/-- Settles O15: entry by entry, each as the last record that names it says. -/
theorem loadedSetInRange : Obligations.LoadedSetInRange := by
  unfold Obligations.LoadedSetInRange
  intro recs clamp names last
  refine ⟨fun r hr => (loadOptions_some hr).trans (optionsOf_eq r), loadOptions_none, fun o ho => ?_⟩
  intro b t
  refine ⟨rfl, fun c r hr => ?_, fun c hc => ?_, fun z => ?_, fun k r hr => ?_, fun k hk => ?_, fun u => ?_,
    ?_, ?_, fun c => ?_, fun z => ?_, fun k => ?_, fun u => ?_, loadOptions_inRange recs⟩
  · exact (buildSet_class recs o c).trans (loadClass_some hr)
  · exact (buildSet_class recs o c).trans (loadClass_none hc)
  · intro n
    have hn : n = cabinCount t.unitMap z := cabinCount_eq t.unitMap z
    rw [hn]
    exact ⟨fun r hr => (buildSet_zone recs o z).trans (loadZone_some hr),
      fun hz => (buildSet_zone recs o z).trans (loadZone_none hz)⟩
  · exact (buildSet_bank recs o k).trans (loadBank_some hr)
  · exact (buildSet_bank recs o k).trans (loadBank_none hk)
  · intro below covers
    have hu := buildSet_unit recs o u
    refine ⟨fun h => hu.trans (loadEntry_above h), fun h hr => hu.trans (loadEntry_uncovered h hr), fun r h hr => ?_⟩
    have he : t.unitMap.get u = mapEntryOf r := hu.trans (loadEntry_covered h hr)
    rw [he]
    exact ⟨rfl, rfl⟩
  · intro ranges
    have hmap := permits_map recs
    have hlen : ((ofKind recs 6).filterMap permit?).length = ranges.length := by
      have h := congrArg List.length hmap
      rw [List.length_map, List.length_map] at h
      exact h
    refine ⟨?_, ?_⟩
    · rw [List.map_take]
      show (((ofKind recs 6).filterMap permit?).take 64).map _ = _
      rw [List.map_take, hmap]
      rfl
    · rw [← hlen]
      exact decide_eq_true_iff
  · intro ids
    have hids : ∀ k, distinct ((ofKind recs k).flatMap recordIds) = ids k := distinct_ids recs
    have hblocks := sorted_blocks ((ofKind recs 7).flatMap recordIds) 1024
    refine ⟨hblocks.1, ?_, ?_, ?_, ?_⟩
    · rw [← hids]
      exact hblocks.2
    · rw [← hids]
      exact decide_eq_true_iff
    · rw [← hids]
      rfl
    · rw [← hids]
      exact decide_eq_true_iff
  · intro k
    have hk : k = loadClass recs c := buildSet_class recs o c
    rw [hk]
    exact loadClass_inRange recs c
  · intro k
    have hk : k = loadZone recs t.unitMap z := buildSet_zone recs o z
    rw [hk]
    exact loadZone_inRange recs _ z
  · intro e
    have he : e = loadBank recs o k := buildSet_bank recs o k
    rw [he]
    exact loadBank_inRange recs k ho
  · rw [buildSet_unit recs o u]
    exact loadEntry_unused_iff

end Sys2Proof.Machine
end

/-! ## Movements and holdings: what every command may bring into hand, and whom it may leave a holder

`Calm s t` says that an operation brings no movement into hand and keeps the Band Index in step with the holders;
`Admits u s t` allows one movement of a unit more. One lemma for each operation follows, in the order of the model's
definitions, and `exec_upholds` collects them. -/

section
namespace Sys2Proof.Machine

variable {s m t : State} {u v : UnitIx} {b : BankIx}

/-! ### Counting movements -/

/-- How many actuations of a unit a list holds. -/
def unitCount (l : List Actuation) (v : UnitIx) : Nat := (l.map (·.unit)).count v

/-- How many movements of a unit the reports that wait name. -/
def State.reports (s : State) (v : UnitIx) : Nat := (s.engine.inbox.map (EngEvent.movements v)).sum

/-- 1 where the unit holds a deferred op. -/
def State.deferrals (s : State) (v : UnitIx) : Nat := if (s.unit v).deferred.isSome then 1 else 0

theorem movements_eq (s : State) (v : UnitIx) : s.movements v =
    unitCount s.drive.waiting v + unitCount s.drive.granted v + unitCount s.drive.awaiting v +
      s.deferrals v + s.reports v := by
  simp [State.movements, Drive.units, unitCount, State.deferrals, State.reports, Nat.add_assoc]

@[simp] theorem unitCount_nil : unitCount [] v = 0 := rfl

theorem unitCount_cons (a : Actuation) (l : List Actuation) :
    unitCount (a :: l) v = unitCount l v + if a.unit = v then 1 else 0 := by
  simp [unitCount, List.count_cons]

theorem unitCount_append (l k : List Actuation) : unitCount (l ++ k) v = unitCount l v + unitCount k v := by
  simp [unitCount]

theorem unitCount_perm {l k : List Actuation} (h : l.Perm k) : unitCount l v = unitCount k v :=
  (h.map _).count_eq v

theorem unitCount_map {f : Actuation → Actuation} (hf : ∀ a, (f a).unit = a.unit) (l : List Actuation) :
    unitCount (l.map f) v = unitCount l v := by
  simp [unitCount, Function.comp_def, hf]

theorem unitCount_filter_le (p : Actuation → Bool) (l : List Actuation) : unitCount (l.filter p) v ≤ unitCount l v :=
  (List.filter_sublist.map _).count_le v

/-- What a filter leaves and what it takes away, together. -/
theorem unitCount_filter_add (p : Actuation → Bool) (l : List Actuation) :
    unitCount (l.filter p) v + unitCount (l.filter fun a => !p a) v = unitCount l v := by
  rw [← unitCount_append]
  exact unitCount_perm (List.filter_append_perm p l)

theorem unitCount_pos {l : List Actuation} : 0 < unitCount l v ↔ ∃ a ∈ l, a.unit = v := by
  simp [unitCount, List.count_pos_iff]

theorem unitCount_without (l : List Actuation) (u : UnitIx) :
    unitCount (l.filter fun a => a.unit ≠ u) u = 0 := by
  refine Nat.eq_zero_of_not_pos fun h => ?_
  obtain ⟨a, ha, hu⟩ := unitCount_pos.1 h
  simp [hu] at ha

theorem unitCount_without_other (l : List Actuation) (h : v ≠ u) :
    unitCount (l.filter fun a => a.unit ≠ u) v = unitCount l v := by
  have hz : unitCount (l.filter fun a => !decide (a.unit ≠ u)) v = 0 := by
    refine Nat.eq_zero_of_not_pos fun hp => ?_
    obtain ⟨a, ha, hv⟩ := unitCount_pos.1 hp
    simp only [decide_not, Bool.not_not, List.mem_filter, decide_eq_true_eq] at ha
    exact h (hv ▸ ha.2)
  have := unitCount_filter_add (v := v) (fun a => decide (a.unit ≠ u)) l
  omega

/-- A list that holds an actuation of the unit is longer than what is left without the unit. -/
theorem length_without_lt {l : List Actuation} (h : ∃ a ∈ l, a.unit = u) :
    (l.filter fun a => a.unit ≠ u).length < l.length := by
  obtain ⟨a, ha, hu⟩ := h
  exact List.length_filter_lt_length_iff_exists.2 ⟨a, ha, by simp [hu]⟩

/-- The list joined holds one actuation more, at whatever place (R72). -/
theorem joinWaiting_perm (l : List Actuation) (a : Actuation) : (joinWaiting l a).Perm (a :: l) := by
  unfold joinWaiting
  split
  · exact List.perm_append_singleton a l
  · have hn : (l.filter fun x => decide (x.urgency = .normal)) = l.filter fun x => !decide (x.urgency = .urgent) :=
      List.filter_congr fun x _ => by cases x.urgency <;> rfl
    rw [hn, List.append_assoc]
    exact List.perm_middle.trans ((List.filter_append_perm _ l).cons a)

theorem reports_hand (e : EngEvent) : (s.hand e).reports v = s.reports v + e.movements v := by
  simp [State.reports, State.hand]

/-- The unit has a movement in hand exactly where one is counted (R25, R26). -/
theorem inHand_iff : s.inHand u = false ↔ s.movements u = 0 := by
  have ha : ∀ l : List Actuation, (l.any fun a => decide (a.unit = u)) = false ↔ unitCount l u = 0 := by
    intro l
    rw [← not_iff_not, ← ne_eq (unitCount l u), ← Nat.pos_iff_ne_zero, unitCount_pos]
    simp
  have hr : s.reported u = false ↔ s.reports u = 0 := by
    unfold State.reported State.reports
    induction s.engine.inbox with
    | nil => simp
    | cons e l ih =>
      have he : e.reports u = false ↔ e.movements u = 0 := by
        cases e <;> simp [EngEvent.reports, EngEvent.movements, List.count_eq_zero]
      simp [ih, he]
  have hd : (s.unit u).deferred.isSome = false ↔ s.deferrals u = 0 := by
    simp [State.deferrals]
  rw [movements_eq]
  simp only [State.inHand, State.actuating, Bool.or_eq_false_iff, ha, hr, hd]
  omega

/-! ### The relations -/

/-- From s to t no movement of any unit comes into hand, the Actuation Queue keeps within its places, and the Band Index
and the holders stay one relation. -/
structure Calm (s t : State) : Prop where
  used : s.drive.used ≤ 64 → t.drive.used ≤ 64
  count : ∀ v, t.movements v ≤ s.movements v
  holdings : HoldingsOk s → HoldingsOk t

/-- The same, but that one movement of a unit may come into hand. -/
structure Admits (u : UnitIx) (s t : State) : Prop where
  used : s.drive.used ≤ 64 → t.drive.used ≤ 64
  count : ∀ v, t.movements v ≤ s.movements v + if v = u then 1 else 0
  holdings : HoldingsOk s → HoldingsOk t

/-- The two invariants from s to t. -/
structure Upholds (s t : State) : Prop where
  movements : MovementsOk s → MovementsOk t
  holdings : HoldingsOk s → HoldingsOk t

theorem Calm.trans (h : Calm s m) (k : Calm m t) : Calm s t where
  used := k.used ∘ h.used
  count v := (k.count v).trans (h.count v)
  holdings := k.holdings ∘ h.holdings

/-- A calm operation, made on what others have left. -/
theorem Calm.of (k : Calm m t) (h : Calm s m) : Calm s t := h.trans k

theorem Calm.admits (h : Calm s t) : Admits u s t := ⟨h.used, fun v => (h.count v).trans (Nat.le_add_right _ _), h.holdings⟩

/-- A calm operation, made on what one that brings a movement into hand has left. -/
theorem Calm.after (k : Calm m t) (h : Admits u s m) : Admits u s t where
  used := k.used ∘ h.used
  count v := (k.count v).trans (h.count v)
  holdings := k.holdings ∘ h.holdings

/-- An operation that brings a movement into hand, made on what calm ones have left. -/
theorem Admits.on (k : Admits u m t) (h : Calm s m) : Admits u s t where
  used := k.used ∘ h.used
  count v := (k.count v).trans (Nat.add_le_add_right (h.count v) _)
  holdings := k.holdings ∘ h.holdings

theorem Calm.upholds (h : Calm s t) : Upholds s t :=
  ⟨fun hm => ⟨h.used hm.1, fun v => (h.count v).trans (hm.2 v)⟩, h.holdings⟩

/-- A unit with nothing in hand may come to one movement. -/
theorem Admits.upholds (h : Admits u s t) (hu : s.inHand u = false) : Upholds s t where
  movements hm := by
    refine ⟨h.used hm.1, fun v => (h.count v).trans ?_⟩
    have := hm.2 v
    split_ifs with hv
    · rw [hv, inHand_iff.1 hu]
    · exact this
  holdings := h.holdings

theorem Upholds.trans (h : Upholds s m) (k : Upholds m t) : Upholds s t :=
  ⟨k.movements ∘ h.movements, k.holdings ∘ h.holdings⟩

theorem Upholds.of (k : Upholds m t) (h : Upholds s m) : Upholds s t := h.trans k

theorem Calm.ite {c : Prop} [Decidable c] {x y : State} (h : c → Calm s x) (k : ¬c → Calm s y) :
    Calm s (if c then x else y) := by
  split_ifs with hc
  exacts [h hc, k hc]

theorem Admits.ite {c : Prop} [Decidable c] {x y : State} (h : c → Admits u s x) (k : ¬c → Admits u s y) :
    Admits u s (if c then x else y) := by
  split_ifs with hc
  exacts [h hc, k hc]

theorem Upholds.ite {c : Prop} [Decidable c] {x y : State} (h : c → Upholds s x) (k : ¬c → Upholds s y) :
    Upholds s (if c then x else y) := by
  split_ifs with hc
  exacts [h hc, k hc]

/-- A list taken element by element. -/
theorem Calm.foldl {α : Type} {f : State → α → State} (l : List α) (h : ∀ s x, Calm s (f s x)) (s : State) :
    Calm s (l.foldl f s) := by
  induction l generalizing s with
  | nil => exact ⟨id, fun _ => le_rfl, id⟩
  | cons x l ih => exact (ih _).of (h s x)

/-- The same of operations that uphold the invariants, with a count carried along. -/
theorem Upholds.foldlCount {α : Type} {f : State × Nat → α → State × Nat} (l : List α)
    (h : ∀ a x, Upholds a.1 (f a x).1) (a : State × Nat) : Upholds a.1 (l.foldl f a).1 := by
  induction l generalizing a with
  | nil => exact ⟨id, id⟩
  | cons x l ih => exact (ih _).of (h a x)

/-! ### Operations that touch neither -/

/-- The Band Index and the holders are what they were. -/
theorem holdingsOk_congr (hb : t.bands = s.bands) (hu : ∀ v, (t.unit v).holder = (s.unit v).holder) (h : HoldingsOk s) :
    HoldingsOk t := by
  unfold HoldingsOk at *
  simp only [hb, hu]
  exact h

/-- An operation that leaves the Drive Scheduler, the Band Index, holders and deferred ops alone, and brings no report. -/
theorem Calm.of_eq (hd : t.drive = s.drive) (hb : t.bands = s.bands)
    (hu : ∀ v, (t.unit v).holder = (s.unit v).holder ∧ (t.unit v).deferred = (s.unit v).deferred)
    (hi : ∀ v, t.reports v ≤ s.reports v) : Calm s t where
  used := by rw [hd]; exact id
  count v := by
    rw [movements_eq, movements_eq, State.deferrals, State.deferrals, hd, (hu v).2]
    exact Nat.add_le_add_left (hi v) _
  holdings := holdingsOk_congr hb fun v => (hu v).1

/-- An operation on none of the fields concerned. -/
theorem Calm.same (h : (t.drive, t.bands, t.units, t.engine.inbox) = (s.drive, s.bands, s.units, s.engine.inbox)) :
    Calm s t := by
  simp only [Prod.mk.injEq] at h
  obtain ⟨hd, hb, hu, hi⟩ := h
  exact .of_eq hd hb (fun v => by simp [State.unit, hu]) fun v => by simp [State.reports, hi]

theorem Calm.refl (s : State) : Calm s s := .same rfl

theorem Upholds.refl (s : State) : Upholds s s := (Calm.refl s).upholds

/-- A unit's record changed, its holder and its deferred op apart. -/
theorem modUnit_calm {f : UnitRec → UnitRec} (h : ∀ r, (f r).holder = r.holder ∧ (f r).deferred = r.deferred) :
    Calm s (s.modUnit u f) := by
  refine .of_eq rfl rfl (fun v => ?_) fun _ => le_rfl
  by_cases hv : v = u
  · subst hv
    rw [modUnit_unit_self]
    exact h _
  · rw [modUnit_unit_other _ _ _ _ hv]
    exact ⟨rfl, rfl⟩

theorem hand_calm {e : EngEvent} (h : ∀ v, e.movements v = 0) : Calm s (s.hand e) :=
  .of_eq rfl rfl (fun _ => ⟨rfl, rfl⟩) fun v => by rw [reports_hand, h v]; exact le_rfl

/-- What the Drive Scheduler does leaves holders alone. -/
theorem DriveActs.holdings (h : DriveActs s t) : HoldingsOk s → HoldingsOk t := by
  obtain ⟨e, -, -, ho⟩ := h
  refine holdingsOk_congr (by rw [e]) fun v => ?_
  have := congrArg UnitRec.holder (ho v (by simp))
  exact this

theorem modBank_calm {f : Bank → Bank} : Calm s (s.modBank b f) := .same rfl
theorem setChain_calm {ns : List Node} : Calm s (s.setChain b ns) := .same rfl
theorem unhold_calm {h : HeldEvent} : Calm s (s.unhold h) := .same rfl
theorem noteHeld_calm : Calm s s.noteHeld := .same rfl
theorem noteArrivals_calm : Calm s s.noteArrivals := .same rfl
theorem noTimer_calm : Calm s (s.noTimer u) := .same rfl
theorem withTimer_calm {k : TimerKind} {d : Nat} : Calm s (s.withTimer u k d) := .same rfl
theorem setRunning_calm {r : Option Running} : Calm s (s.setRunning r) := .same rfl
theorem setFollow_calm {l : List (UnitIx × Follow)} : Calm s (s.setFollow l) := .same rfl
theorem post_calm {k : NoticeKind} {c x : Nat} {v : Option UnitIx} {d : Option Band} : Calm s (post s k c v d x) := .same rfl
theorem handJournal_calm {r : JRec} : Calm s (handJournal s r) := .same rfl
theorem enter_calm {st : UState} : Calm s (enter s u st) := modUnit_calm fun _ => ⟨rfl, rfl⟩
theorem transient_calm {l : Lamp} {ms : Nat} : Calm s (transient s u l ms) := modUnit_calm fun _ => ⟨rfl, rfl⟩
theorem green_calm : Calm s (green s u) := transient_calm
theorem beep_calm : Calm s (beep s u) := modUnit_calm fun _ => ⟨rfl, rfl⟩
theorem setPurpose_calm {p : Option Purpose} : Calm s (setPurpose s u p) := modUnit_calm fun _ => ⟨rfl, rfl⟩
theorem postReleased_calm {why : Reason} {d : Option Band} {n : Nat} : Calm s (postReleased s u why d n) := post_calm

/-- What the Journal Engine and the write port may do is calm: a stall report names no movement. -/
theorem PortFrame.calm (h : PortFrame s t) : Calm s t := by
  obtain ⟨⟨later, reports, e, hr, -⟩, -⟩ := h
  refine .of_eq (by rw [e]) (by rw [e]) (fun v => by simp [State.unit, congrArg State.units e]) fun v => ?_
  have hz : (reports.map (EngEvent.movements v)).sum = 0 := by
    refine List.sum_eq_zero fun n hn => ?_
    obtain ⟨x, hx, rfl⟩ := List.mem_map.1 hn
    rw [hr x hx]
    rfl
  rw [State.reports, e]
  simp [State.reports, hz]

theorem pump_calm : Calm s (pump s) := (pump_portFrame s).calm

theorem Quiet.calm (h : Quiet s t) : Calm s t := h.portFrame.calm

end Sys2Proof.Machine
end

section
namespace Sys2Proof.Machine

variable {s m t : State} {u v : UnitIx} {b : BankIx}

/-! ### The Drive Scheduler -/

/-- From s to t at most k more places of the Actuation Queue are held, and no movement comes into hand. -/
structure Fills (k : Nat) (s t : State) : Prop where
  used : t.drive.used ≤ s.drive.used + k
  count : ∀ v, t.movements v ≤ s.movements v

theorem Fills.refl (s : State) : Fills 0 s s := ⟨le_rfl, fun _ => le_rfl⟩

theorem Fills.trans {j k : Nat} (h : Fills j s m) (g : Fills k m t) : Fills (j + k) s t :=
  ⟨by have := h.used; have := g.used; omega, fun v => (g.count v).trans (h.count v)⟩

theorem Fills.calm (h : Fills 0 s t) (k : DriveActs s t) : Calm s t := ⟨h.used.trans, h.count, k.holdings⟩

/-- The movements of a unit, from what the parts of the state are known to be. -/
theorem movements_of {d : Drive} {n k : Nat} (hd : t.drive = d) (hn : t.deferrals v = n) (hk : t.reports v = k) :
    t.movements v = unitCount d.waiting v + unitCount d.granted v + unitCount d.awaiting v + n + k := by
  rw [movements_eq, hd, hn, hk]

/-- The movements and the places held, of a state that differs in its waiting list. -/
theorem setWaiting_count (l : List Actuation) :
    (s.setWaiting l).movements v + unitCount s.drive.waiting v = s.movements v + unitCount l v := by
  rw [movements_eq s, movements_of (t := s.setWaiting l) (v := v) rfl rfl rfl]
  have hk : (s.setWaiting l).deferrals v = s.deferrals v ∧ (s.setWaiting l).reports v = s.reports v := ⟨rfl, rfl⟩
  have hd : (s.setWaiting l).drive = { s.drive with waiting := l } := rfl
  rw [hd]
  dsimp only
  omega

theorem setWaiting_used (l : List Actuation) :
    (s.setWaiting l).drive.used + s.drive.waiting.length = s.drive.used + l.length := by
  simp only [Drive.used, State.setWaiting]
  omega

theorem hand_count (e : EngEvent) : (s.hand e).movements v = s.movements v + e.movements v := by
  rw [movements_eq s, movements_of (t := s.hand e) (d := s.drive) (n := s.deferrals v) rfl rfl (reports_hand e)]
  omega

theorem mem_of_find_or_head {α : Type} {p : α → Bool} {l : List α} {x : α} (h : (l.find? p <|> l.head?) = some x) :
    x ∈ l := by
  rcases (Option.orElse_eq_some _ _ _).1 h with h | ⟨-, h⟩
  · exact List.mem_of_find?_eq_some h
  · exact List.mem_of_head? h

theorem nextDeferred_some {d : UnitIx × BoltOp × Urgency} (h : s.nextDeferred = some d) :
    (s.unit d.1).deferred = some d.2 := by
  have hm : d ∈ allUnits.filterMap fun u => (s.unit u).deferred.map fun d => (u, d.1, d.2) := by
    exact mem_of_find_or_head h
  obtain ⟨u, -, hu⟩ := List.mem_filterMap.1 hm
  obtain ⟨x, hx, rfl⟩ := Option.map_eq_some_iff.1 hu
  exact hx

theorem deferrals_eq {r : UnitRec} (h : t.unit v = r) : t.deferrals v = if r.deferred.isSome then 1 else 0 := by
  rw [State.deferrals, h]

/-- A unit whose deferred op is given, or given up. -/
theorem setDeferred_count (u : UnitIx) (o : Option (BoltOp × Urgency)) :
    (s.modUnit u fun r => { r with deferred := o }).movements v + (if u = v then s.deferrals u else 0) =
      s.movements v + if u = v then (if o.isSome then 1 else 0) else 0 := by
  by_cases hv : u = v
  · subst hv
    rw [movements_of (t := s.modUnit u fun r => { r with deferred := o }) (d := s.drive) (k := s.reports u) rfl
      (deferrals_eq (modUnit_unit_self _ _ _)) rfl, movements_eq s, if_pos rfl, if_pos rfl]
    dsimp only
    omega
  · rw [movements_of (t := s.modUnit u fun r => { r with deferred := o }) (d := s.drive) (k := s.reports v) rfl
      (deferrals_eq (modUnit_unit_other _ _ _ _ (Ne.symm hv))) rfl, movements_eq s, if_neg hv, if_neg hv]
    rfl

/-- A deferred op that takes a place stays one movement (R25). -/
theorem refill_fills : Fills 1 s (refill s) := by
  unfold refill
  split
  · exact ⟨Nat.le_add_right _ _, fun _ => le_rfl⟩
  · rename_i u op c h
    have hd : (s.unit u).deferred = some (op, c) := nextDeferred_some h
    have hj := joinWaiting_perm s.drive.waiting (Actuation.fresh u op c)
    constructor
    · have := setWaiting_used (s := s.modUnit u fun r => { r with deferred := none })
        (joinWaiting s.drive.waiting (Actuation.fresh u op c))
      have hl := hj.length_eq
      simp only [List.length_cons, State.modUnit, setUnit_drive] at this hl ⊢
      omega
    · intro v
      have h1 := setWaiting_count (s := s.modUnit u fun r => { r with deferred := none }) (v := v)
        (joinWaiting s.drive.waiting (Actuation.fresh u op c))
      have h2 := setDeferred_count (s := s) (v := v) u none
      have h3 : s.deferrals u = 1 := by rw [deferrals_eq rfl, hd]; rfl
      have h4 : (s.modUnit u fun r => { r with deferred := none }).drive = s.drive := rfl
      have h5 : (Actuation.fresh u op c).unit = u := rfl
      rw [unitCount_perm hj, unitCount_cons, h4, h5] at h1
      simp only [h3, Option.isSome_none, Bool.false_eq_true, if_false] at h2
      split_ifs at h1 h2 with hv <;> omega

/-- The head leaves the waiting list with a report on its movement, and a deferred op takes its place (R74). -/
theorem headLeaves_fills {a : Actuation} {rest : List Actuation} {e : EngEvent} (hw : s.drive.waiting = a :: rest)
    (he : ∀ v, e.movements v = if a.unit = v then 1 else 0) : Fills 0 s (refill ((s.setWaiting rest).hand e)) := by
  have hr := refill_fills (s := (s.setWaiting rest).hand e)
  constructor
  · have h1 := hr.used
    have h2 := setWaiting_used (s := s) rest
    rw [hw, List.length_cons] at h2
    have h3 : ((s.setWaiting rest).hand e).drive = (s.setWaiting rest).drive := rfl
    rw [h3] at h1
    omega
  · intro v
    have h1 := hr.count v
    have h2 := setWaiting_count (s := s) (v := v) rest
    rw [hw, unitCount_cons] at h2
    rw [hand_count, he] at h1
    omega

theorem grantHead_fills {a : Actuation} {rest : List Actuation} (hw : s.drive.waiting = a :: rest) :
    Fills 0 s (grantHead s a rest) := by
  constructor
  · simp only [Drive.used, grantHead, hw, List.length_append, List.length_cons, List.length_nil]
    omega
  · intro v
    rw [movements_eq, movements_eq, hw, unitCount_cons]
    show unitCount rest v + unitCount (s.drive.granted ++ [_]) v + _ + s.deferrals v + s.reports v ≤ _
    rw [unitCount_append, unitCount_cons, unitCount_nil]
    simp only [grantHead]
    omega

theorem examineLoop_fills (n : Nat) (s : State) : Fills 0 s (examineLoop n s) := by
  induction n generalizing s with
  | zero => exact .refl s
  | succ n ih =>
    unfold examineLoop
    split_ifs
    · exact .refl s
    · split
      · exact .refl s
      · rename_i a rest hw
        split_ifs
        · have h1 : Fills 0 s (refill ((s.setWaiting rest).hand (.removed [a.unit] none))) :=
            headLeaves_fills hw fun v => by simp [EngEvent.movements, List.count_cons]
          exact h1.trans (ih _)
        · have h1 : Fills 0 s (refill ((s.setWaiting rest).hand (.displaced a.unit))) :=
            headLeaves_fills hw fun _ => rfl
          exact h1.trans (ih _)
        · have h1 : Fills 0 s (grantHead s a rest) := grantHead_fills hw
          exact h1.trans (ih _)
        · exact .refl s

theorem examine_fills : Fills 0 s (examine s) := examineLoop_fills _ s

theorem placeFreed_fills : Fills 1 s (placeFreed s) := by
  unfold placeFreed
  dsimp only
  split_ifs
  · exact refill_fills.trans examine_fills
  · exact refill_fills

theorem placesFreed_fills (n : Nat) (s : State) : Fills n s (placesFreed n s) := by
  induction n generalizing s with
  | zero => exact .refl s
  | succ n ih =>
    have h := (placeFreed_fills (s := s)).trans (ih (placeFreed s))
    rwa [Nat.add_comm] at h

/-- An actuation that joins the waiting list takes a place, and is one movement of its unit. -/
theorem enqueue_count (a : Actuation) : (enqueue s a).drive.used ≤ s.drive.used + 1 ∧
    ∀ v, (enqueue s a).movements v ≤ s.movements v + if a.unit = v then 1 else 0 := by
  have hj := joinWaiting_perm s.drive.waiting a
  have hu : (s.setWaiting (joinWaiting s.drive.waiting a)).drive.used = s.drive.used + 1 := by
    have := setWaiting_used (s := s) (joinWaiting s.drive.waiting a)
    rw [hj.length_eq, List.length_cons] at this
    omega
  have hc : ∀ v, (s.setWaiting (joinWaiting s.drive.waiting a)).movements v =
      s.movements v + if a.unit = v then 1 else 0 := by
    intro v
    have := setWaiting_count (s := s) (v := v) (joinWaiting s.drive.waiting a)
    rw [unitCount_perm hj, unitCount_cons] at this
    omega
  have key : Fills 0 (s.setWaiting (joinWaiting s.drive.waiting a)) (enqueue s a) := by
    unfold enqueue
    dsimp only
    split_ifs
    · exact examine_fills
    · exact .refl _
  exact ⟨hu ▸ key.used, fun v => hc v ▸ key.count v⟩

/-- A movement handed over is one movement of its unit, as an actuation or deferred (R25, R72). -/
theorem handOver_admits {op : BoltOp} {c : Urgency} : Admits u s (handOver s u op c) := by
  refine ⟨?_, ?_, (handOver_acts s u op c).holdings⟩ <;> unfold handOver <;> split_ifs with h
  · have hp : s.drive.used < 64 := h
    have := (enqueue_count (s := s) (Actuation.fresh u op c)).1
    intro
    omega
  · exact id
  · intro v
    have h1 := (enqueue_count (s := s) (Actuation.fresh u op c)).2 v
    have h2 : (Actuation.fresh u op c).unit = u := rfl
    rw [h2] at h1
    by_cases hv : v = u
    · rw [if_pos hv.symm] at h1
      rwa [if_pos hv]
    · rw [if_neg (Ne.symm hv)] at h1
      rwa [if_neg hv]
  · intro v
    have h1 := setDeferred_count (s := s) (v := v) u (some (op, c))
    simp only [Option.isSome_some, if_true] at h1
    by_cases hv : v = u
    · rw [if_pos hv.symm, if_pos hv.symm] at h1
      rw [if_pos hv]
      omega
    · rw [if_neg (Ne.symm hv), if_neg (Ne.symm hv)] at h1
      rw [if_neg hv]
      omega

/-- A unit's waiting actuation taken away leaves a place for a deferred op (R73). -/
theorem removeWaiting_calm (h : s.isWaiting u = true) : Calm s (removeWaiting s u) := by
  have hw : ∃ a ∈ s.drive.waiting, a.unit = u := by simpa [State.isWaiting] using h
  have key := refill_fills.trans (examine_fills
    (s := refill (s.setWaiting (s.drive.waiting.filter fun a => a.unit ≠ u))))
  refine ⟨?_, fun v => ?_, (DriveActs.trans (setWaiting_acts _ _) (.trans (refill_acts _) (examine_acts _))).holdings⟩
  · have h1 := key.used
    have h2 := setWaiting_used (s := s) (s.drive.waiting.filter fun a => a.unit ≠ u)
    have h3 := length_without_lt hw
    intro
    unfold removeWaiting
    omega
  · have h1 := key.count v
    have h2 := setWaiting_count (s := s) (v := v) (s.drive.waiting.filter fun a => a.unit ≠ u)
    have h3 := unitCount_filter_le (v := v) (fun a => a.unit ≠ u) s.drive.waiting
    unfold removeWaiting
    omega

/-- A unit's actuation that leaves the waiting list and joins it again takes no place. -/
theorem rejoins_fills {c : Actuation} (h : ∃ a ∈ s.drive.waiting, a.unit = u) (hc : c.unit = u) :
    Fills 0 s (s.setWaiting (joinWaiting (s.drive.waiting.filter fun x => x.unit ≠ u) c)) := by
  have hj := joinWaiting_perm (s.drive.waiting.filter fun x => x.unit ≠ u) c
  constructor
  · have h1 := setWaiting_used (s := s) (joinWaiting (s.drive.waiting.filter fun x => x.unit ≠ u) c)
    have h2 := length_without_lt h
    rw [hj.length_eq, List.length_cons] at h1
    omega
  · intro v
    have h1 := setWaiting_count (s := s) (v := v) (joinWaiting (s.drive.waiting.filter fun x => x.unit ≠ u) c)
    rw [unitCount_perm hj, unitCount_cons, hc] at h1
    by_cases hv : u = v
    · subst hv
      have h2 := unitCount_without s.drive.waiting u
      have h3 := unitCount_pos.2 h
      rw [if_pos rfl] at h1
      omega
    · have h2 := unitCount_without_other s.drive.waiting (Ne.symm hv)
      rw [if_neg hv] at h1
      omega

theorem raised_fills : Fills 0 s (raised s u) := by
  unfold raised
  dsimp only
  split
  · rename_i a ha
    have hm := List.mem_of_find?_eq_some ha
    have hu : a.unit = u := by simpa using List.find?_some ha
    split_ifs
    · have key : ∀ c : Actuation, c.unit = u →
          Fills 0 s (s.setWaiting (joinWaiting (s.drive.waiting.filter fun x => x.unit ≠ u) c)) := fun c hc =>
        rejoins_fills ⟨a, hm, hu⟩ hc
      exact key _ hu
    · exact .refl s
  · have hf : ∀ a : Actuation, (if a.unit = u then { a with urgency := .urgent } else a).unit = a.unit := by
      intro a
      split_ifs <;> rfl
    constructor
    · simp [Drive.used]
    · intro v
      rw [movements_eq, movements_eq]
      simp only [unitCount_map hf]
      exact le_rfl

theorem promote_calm : Calm s (promote s u) := by
  refine Fills.calm ?_ (promote_acts s u)
  unfold promote
  split_ifs
  · exact raised_fills.trans examine_fills
  · exact raised_fills

/-- What is taken first out of a list, and what is left, make up the list. -/
theorem takeFirst_perm {α : Type} {p : α → Bool} {l rest : List α} {x : α} (h : takeFirst p l = some (x, rest)) :
    l.Perm (x :: rest) := by
  induction l generalizing rest with
  | nil => simp [takeFirst] at h
  | cons y l ih =>
    unfold takeFirst at h
    split_ifs at h
    · simp only [Option.some.injEq, Prod.mk.injEq] at h
      obtain ⟨rfl, rfl⟩ := h
      exact .refl _
    · obtain ⟨⟨z, k⟩, hk, he⟩ := Option.map_eq_some_iff.1 h
      simp only [Prod.mk.injEq] at he
      obtain ⟨rfl, rfl⟩ := he
      exact ((ih hk).cons y).trans (.swap _ _ _)

/-- A pulse end moves one actuation from the granted to those awaiting verify (R79). -/
theorem endPulse_calm : Calm s (endPulse s) := by
  unfold endPulse
  split
  · rename_i a rest h
    have hp := takeFirst_perm h
    have key : Fills 0 s { s with drive := { s.drive with
        granted := rest, awaiting := s.drive.awaiting ++ [{ a with current := none }] } } := by
      constructor
      · have := hp.length_eq
        simp only [Drive.used, List.length_append, List.length_cons, List.length_nil] at this ⊢
        omega
      · intro v
        rw [movements_eq, movements_eq, unitCount_perm (v := v) hp, unitCount_cons]
        show unitCount s.drive.waiting v + unitCount rest v + unitCount (s.drive.awaiting ++ [_]) v +
          s.deferrals v + s.reports v ≤ _
        rw [unitCount_append, unitCount_cons, unitCount_nil]
        dsimp only
        omega
    exact (key.trans examine_fills).calm ((setDrive_acts s _).trans (examine_acts _))
  · split
    · rename_i x rest h
      have key : Fills 0 s { s with drive := { s.drive with detached := rest } } := ⟨le_rfl, fun v => le_rfl⟩
      exact (key.trans examine_fills).calm ((setDrive_acts s _).trans (examine_acts _))
    · exact .refl s

theorem deliverOps_calm {ops : List (UnitIx × Nat)} : Calm s (deliverOps s ops) := by
  have hf : ∀ a, (Actuation.deliver s.clock.ms ops a).unit = a.unit := by
    intro a
    unfold Actuation.deliver
    split_ifs
    · rfl
    · split <;> rfl
  refine Fills.calm ⟨by simp [Drive.used, deliverOps], fun v => ?_⟩ (setDrive_acts s _)
  rw [movements_eq, movements_eq]
  simp only [deliverOps, unitCount_map hf]
  exact le_rfl

theorem enqueue_awaiting (a : Actuation) : (enqueue s a).drive.awaiting = s.drive.awaiting := by
  unfold enqueue
  dsimp only
  split_ifs
  · exact (examine_grants _).awaiting
  · rfl

/-- The state without the actuations of a unit that await verify. -/
def State.unawaited (s : State) (u : UnitIx) : State :=
  { s with drive := { s.drive with awaiting := s.drive.awaiting.filter fun x => x.unit ≠ u } }

theorem unawaited_used (h : ∃ x ∈ s.drive.awaiting, x.unit = u) : (s.unawaited u).drive.used + 1 ≤ s.drive.used := by
  have := length_without_lt h
  simp only [State.unawaited, Drive.used]
  omega

theorem unawaited_count (h : ∃ x ∈ s.drive.awaiting, x.unit = u) (v : UnitIx) :
    (s.unawaited u).movements v + (if u = v then 1 else 0) ≤ s.movements v := by
  rw [movements_of (t := s.unawaited u) (v := v) (n := s.deferrals v) (k := s.reports v) rfl rfl rfl, movements_eq s]
  have h0 : (s.unawaited u).drive =
    { s.drive with awaiting := s.drive.awaiting.filter fun x => x.unit ≠ u } := rfl
  rw [h0]
  dsimp only
  by_cases hv : u = v
  · subst hv
    have h1 := unitCount_without s.drive.awaiting u
    have h2 := unitCount_pos.2 h
    rw [if_pos rfl]
    omega
  · have h1 := unitCount_without_other s.drive.awaiting (Ne.symm hv)
    rw [if_neg hv]
    omega

/-- The check of an actuation that awaits verify is a report on it, whose place frees, or a retry, which takes it. -/
theorem verifyOne_cases (s : State) (a : Actuation) :
    (∃ e : EngEvent, (∀ v, e.movements v = if a.unit = v then 1 else 0) ∧
      verifyOne s a = placeFreed ((s.unawaited a.unit).hand e)) ∨
    verifyOne s a = enqueue (s.unawaited a.unit) a.retried := by
  unfold verifyOne
  dsimp only
  split_ifs
  · exact .inl ⟨_, fun _ => rfl, rfl⟩
  · exact .inr rfl
  · exact .inl ⟨_, fun _ => rfl, rfl⟩

theorem placeFreed_grants (s : State) : Grants s (placeFreed s) := placesFreed_grants 1 s

theorem unawaited_acts (s : State) (u : UnitIx) : DriveActs s (s.unawaited u) := setDrive_acts s _

theorem verifyOne_acts (s : State) (a : Actuation) : DriveActs s (verifyOne s a) := by
  rcases verifyOne_cases s a with ⟨e, -, h⟩ | h <;> rw [h]
  · exact (unawaited_acts s _).trans ((hand_acts _ e).trans (placeFreed_acts _))
  · exact (unawaited_acts s _).trans (enqueue_acts _ _)

theorem verifyOne_awaiting (s : State) (a : Actuation) :
    (verifyOne s a).drive.awaiting = s.drive.awaiting.filter fun x => x.unit ≠ a.unit := by
  rcases verifyOne_cases s a with ⟨e, -, h⟩ | h <;> rw [h]
  · rw [(placeFreed_grants _).awaiting]
    rfl
  · rw [enqueue_awaiting]
    rfl

/-- One check of an actuation that awaits verify (R81 to R83): it leaves those that await, and is reported or waits
again. -/
theorem verifyOne_calm {a : Actuation} (h : ∃ x ∈ s.drive.awaiting, x.unit = a.unit) : Calm s (verifyOne s a) := by
  refine ⟨?_, ?_, (verifyOne_acts s a).holdings⟩ <;> rcases verifyOne_cases s a with ⟨e, he, hv⟩ | hv <;> rw [hv]
  · have h1 := (placeFreed_fills (s := (s.unawaited a.unit).hand e)).used
    have h2 := unawaited_used h
    have h3 : ((s.unawaited a.unit).hand e).drive = (s.unawaited a.unit).drive := rfl
    rw [h3] at h1
    omega
  · have h1 := (enqueue_count (s := s.unawaited a.unit) a.retried).1
    have h2 := unawaited_used h
    omega
  · intro v
    have h1 := (placeFreed_fills (s := (s.unawaited a.unit).hand e)).count v
    have h2 := unawaited_count h v
    rw [hand_count, he] at h1
    omega
  · intro v
    have h1 : (enqueue (s.unawaited a.unit) a.retried).movements v ≤
      (s.unawaited a.unit).movements v + if a.unit = v then 1 else 0 := (enqueue_count a.retried).2 v
    have h2 := unawaited_count h v
    omega

/-- Distinct units among those that await are checked one after another. -/
theorem verifyOne_foldl_calm (l : List Actuation) (hd : (l.map (·.unit)).Nodup)
    (hl : ∀ a ∈ l, ∃ x ∈ s.drive.awaiting, x.unit = a.unit) : Calm s (l.foldl verifyOne s) := by
  induction l generalizing s with
  | nil => exact .refl s
  | cons a l ih =>
    obtain ⟨hn, hd⟩ := List.nodup_cons.1 hd
    refine (ih hd fun c hc => ?_).of (verifyOne_calm (hl a (by simp)))
    obtain ⟨x, hx, hxu⟩ := hl c (by simp [hc])
    refine ⟨x, ?_, hxu⟩
    rw [verifyOne_awaiting, List.mem_filter]
    refine ⟨hx, ?_⟩
    have hne : c.unit ≠ a.unit := fun e => hn (List.mem_map.2 ⟨c, hc, e⟩)
    simpa [hxu] using hne

/-- With one movement at most to a unit, its actuations that await are of distinct units. -/
theorem MovementsOk.awaiting_nodup (h : MovementsOk s) : (s.drive.awaiting.map (·.unit)).Nodup := by
  refine List.nodup_iff_count_le_one.2 fun v => ?_
  have := h.2 v
  rw [movements_eq] at this
  show unitCount s.drive.awaiting v ≤ 1
  omega

theorem verifyBank_acts (s : State) (began : Millis) : DriveActs s.noteArrivals (verifyBank s b began) := by
  have key : ∀ (l : List Actuation) (m : State), DriveActs m (l.foldl verifyOne m) := by
    intro l
    induction l with
    | nil => exact .refl
    | cons a l ih =>
      intro m
      exact (verifyOne_acts m a).trans (ih _)
  exact key _ _

theorem verifyBank_upholds {began : Millis} : Upholds s (verifyBank s b began) where
  movements h := by
    have hn : MovementsOk s.noteArrivals := noteArrivals_calm.upholds.movements h
    refine (verifyOne_foldl_calm _ ?_ fun a ha => ⟨a, (List.mem_filter.1 ha).1, rfl⟩).upholds.movements hn
    exact (List.filter_sublist.map _).nodup h.awaiting_nodup
  holdings := (verifyBank_acts s began).holdings ∘ noteArrivals_calm.holdings

/-- A bank's movements are lost with one report that names each (R84), and as many places free. -/
theorem driveLeaves_calm : Calm s (driveLeaves s b) := by
  refine Fills.calm ?_ (driveLeaves_acts s b)
  have hl : (s.lostOf b).length = (s.drive.waiting.filter (fun a => decide (bankOf a.unit = b)) ++
      s.drive.granted.filter (fun a => decide (bankOf a.unit = b)) ++
      s.drive.awaiting.filter fun a => decide (bankOf a.unit = b)).length := List.length_map _
  have key := (placesFreed_fills (s.lostOf b).length ((s.withoutBank b).hand (.removed (s.lostOf b) (some b)))).trans
    examine_fills
  have he : driveLeaves s b =
      examine (placesFreed (s.lostOf b).length ((s.withoutBank b).hand (.removed (s.lostOf b) (some b)))) := by
    rw [hl]
    rfl
  rw [he]
  have split : ∀ l : List Actuation, (l.filter fun a => decide (bankOf a.unit = b)).length +
      (l.filter fun a => !decide (bankOf a.unit = b)).length = l.length := fun l => by
    simpa using (List.filter_append_perm (fun a => decide (bankOf a.unit = b)) l).length_eq
  constructor
  · have h1 := key.used
    have h2 : ((s.withoutBank b).hand (.removed (s.lostOf b) (some b))).drive = (s.withoutBank b).drive := rfl
    rw [h2] at h1
    have h3 := split s.drive.waiting
    have h4 := split s.drive.granted
    have h5 := split s.drive.awaiting
    simp only [Drive.used, State.withoutBank, hl, List.length_append] at h1 h3 h4 h5 ⊢
    omega
  · intro v
    have h1 := key.count v
    have h2 : EngEvent.movements v (.removed (s.lostOf b) (some b)) =
        unitCount (s.drive.waiting.filter (fun a => decide (bankOf a.unit = b)) ++
          s.drive.granted.filter (fun a => decide (bankOf a.unit = b)) ++
          s.drive.awaiting.filter fun a => decide (bankOf a.unit = b)) v := rfl
    rw [hand_count, h2, unitCount_append, unitCount_append,
      movements_of (t := s.withoutBank b) (n := s.deferrals v) (k := s.reports v) rfl rfl rfl] at h1
    have h3 := unitCount_filter_add (v := v) (fun a => decide (bankOf a.unit = b)) s.drive.waiting
    have h4 := unitCount_filter_add (v := v) (fun a => decide (bankOf a.unit = b)) s.drive.granted
    have h5 := unitCount_filter_add (v := v) (fun a => decide (bankOf a.unit = b)) s.drive.awaiting
    rw [movements_eq s]
    have h6 : (s.withoutBank b).drive.waiting = s.drive.waiting.filter (fun a => !decide (bankOf a.unit = b)) ∧
      (s.withoutBank b).drive.granted = s.drive.granted.filter (fun a => !decide (bankOf a.unit = b)) ∧
      (s.withoutBank b).drive.awaiting = s.drive.awaiting.filter fun a => !decide (bankOf a.unit = b) := ⟨rfl, rfl, rfl⟩
    rw [h6.1, h6.2.1, h6.2.2] at h1
    omega

end Sys2Proof.Machine
end

section
namespace Sys2Proof.Machine

variable {s m t : State} {u v : UnitIx} {b : BankIx} {d : Band} {c : Cell}

/-! ### The Band Index and the holders (R20, R21) -/

theorem bandEntry_cons (e : BandEntry) (l : List BandEntry) (x : Band) :
    bandEntry (e :: l) x = if e.band = x then some e else bandEntry l x := by
  by_cases h : e.band = x <;> simp [bandEntry, h]

theorem bandEntry_eq_none {l : List BandEntry} {x : Band} : bandEntry l x = none ↔ ∀ e ∈ l, e.band ≠ x := by
  simp [bandEntry]

theorem mem_insertEntry {l : List BandEntry} {e x : BandEntry} : x ∈ insertEntry l e ↔ x = e ∨ x ∈ l := by
  induction l with
  | nil => simp [insertEntry]
  | cons y l ih =>
    unfold insertEntry
    split_ifs
    · simp [ih, or_left_comm]
    · simp

/-- A new band takes its place in ascending order. -/
theorem insertEntry_ascending {l : List BandEntry} {e : BandEntry}
    (h : l.Pairwise fun x y => x.band.toNat < y.band.toNat) (hn : ∀ x ∈ l, x.band ≠ e.band) :
    (insertEntry l e).Pairwise fun x y => x.band.toNat < y.band.toNat := by
  induction l with
  | nil => simp [insertEntry]
  | cons y l ih =>
    obtain ⟨hy, hl⟩ := List.pairwise_cons.1 h
    unfold insertEntry
    split_ifs with hlt
    · refine List.pairwise_cons.2 ⟨fun x hx => ?_, ih hl fun x hx => hn x (by simp [hx])⟩
      rcases mem_insertEntry.1 hx with rfl | hx
      exacts [hlt, hy x hx]
    · have hle : e.band.toNat < y.band.toNat := by
        have : y.band.toNat ≠ e.band.toNat := fun k => hn y (by simp) (BitVec.eq_of_toNat_eq k)
        omega
      refine List.pairwise_cons.2 ⟨fun x hx => ?_, h⟩
      rcases List.mem_cons.1 hx with rfl | hx
      exacts [hle, hle.trans (hy x hx)]

theorem bandEntry_insertEntry {l : List BandEntry} {e : BandEntry} (hn : ∀ x ∈ l, x.band ≠ e.band) (x : Band) :
    bandEntry (insertEntry l e) x = if e.band = x then some e else bandEntry l x := by
  induction l with
  | nil => simp [insertEntry, bandEntry_cons]
  | cons y l ih =>
    have hy := hn y (by simp)
    unfold insertEntry
    split_ifs with hlt hx hx
    · rw [bandEntry_cons, if_neg (hx ▸ hy), ih fun z hz => hn z (by simp [hz]), if_pos hx]
    · rw [bandEntry_cons, bandEntry_cons, ih fun z hz => hn z (by simp [hz]), if_neg hx]
    · rw [bandEntry_cons, if_pos hx]
    · rw [bandEntry_cons, if_neg hx]

/-- An entry changed, its band kept. -/
theorem bandEntry_map {f : BandEntry → BandEntry} (hf : ∀ e, (f e).band = e.band) (l : List BandEntry) (x : Band) :
    bandEntry (l.map f) x = (bandEntry l x).map f := by
  induction l with
  | nil => rfl
  | cons e l ih =>
    rw [List.map_cons, bandEntry_cons, bandEntry_cons, hf, ih]
    split_ifs <;> rfl

theorem bindUnit_changes (d : Band) (u : UnitIx) (e : BandEntry) :
    (if e.band = d then { e with held := e.held ++ [u] } else e).band = e.band := by
  split_ifs <;> rfl

theorem writeClass_changes (d : Band) (c : ClassIx) (e : BandEntry) :
    (if e.band = d then { e with cls := c } else e).band = e.band := by
  split_ifs <;> rfl

/-- The entry of a band once a unit has joined (R21). -/
theorem bandEntry_bindUnit (l : List BandEntry) (d : Band) (u : UnitIx) (c : ClassIx) (now : Nat) (x : Band) :
    bandEntry (bindUnit l d u c now) x = if d = x then
      some (((bandEntry l d).map fun e => { e with held := e.held ++ [u] }).getD ⟨d, c, now, [u]⟩) else bandEntry l x := by
  unfold bindUnit
  cases h : bandEntry l d with
  | none =>
    dsimp only
    rw [bandEntry_insertEntry (bandEntry_eq_none.1 h)]
    rfl
  | some e =>
    dsimp only
    rw [bandEntry_map (bindUnit_changes d u)]
    have hb : ∀ y e, bandEntry l y = some e → e.band = y := fun y e he => by simpa using List.find?_some he
    by_cases hx : d = x
    · subst hx
      rw [h, if_pos rfl, Option.map_some, if_pos (hb _ _ h)]
      rfl
    · rw [if_neg hx]
      cases hy : bandEntry l x with
      | none => rfl
      | some e' => rw [Option.map_some, if_neg fun k => hx (k.symm.trans (hb _ _ hy))]

theorem heldBy_bindUnit (l : List BandEntry) (d : Band) (u : UnitIx) (c : ClassIx) (now : Nat) (x : Band) :
    heldBy (bindUnit l d u c now) x = if d = x then heldBy l x ++ [u] else heldBy l x := by
  rw [heldBy, bandEntry_bindUnit]
  split_ifs with h
  · subst h
    cases he : bandEntry l d <;> simp [heldBy, he]
  · rfl

theorem mem_heldBy_of_mem {l : List BandEntry} (h : l.Pairwise fun x y => x.band.toNat < y.band.toNat) {e : BandEntry}
    (he : e ∈ l) : heldBy l e.band = e.held := by
  induction l with
  | nil => simp at he
  | cons y l ih =>
    obtain ⟨hy, hl⟩ := List.pairwise_cons.1 h
    rw [heldBy_cons]
    rcases List.mem_cons.1 he with rfl | he
    · rw [if_pos rfl]
    · rw [if_neg fun k => ?_, ih hl he]
      have := hy e he
      rw [k] at this
      exact lt_irrefl _ this

/-- A Band Index and the holders that units have are one relation (R21). -/
def IndexOk (l : List BandEntry) (holder : UnitIx → Option Band) : Prop :=
  l.Pairwise (fun x y => x.band.toNat < y.band.toNat) ∧ (∀ e ∈ l, e.held ≠ [] ∧ e.held.Nodup) ∧
    ∀ u b, holder u = some b ↔ u ∈ heldBy l b

theorem holdingsOk_iff : HoldingsOk s ↔ IndexOk s.bands fun u => (s.unit u).holder := .rfl

/-- A unit without a holder that joins a band has it for its holder (R21). -/
theorem IndexOk.bind {l : List BandEntry} {holder : UnitIx → Option Band} {c : ClassIx} {now : Nat}
    (hs : IndexOk l holder) (h : holder u = none) :
    IndexOk (bindUnit l d u c now) (Function.update holder u (some d)) := by
  obtain ⟨hsort, hheld, hrel⟩ := hs
  have hnot : ∀ x, u ∉ heldBy l x := fun x hx => by simpa [h] using (hrel u x).2 hx
  refine ⟨?_, fun e he => ?_, fun v x => ?_⟩
  · unfold bindUnit
    split
    · exact List.pairwise_map.2 (hsort.imp fun {x y} hxy => by rwa [bindUnit_changes, bindUnit_changes])
    · exact insertEntry_ascending hsort (bandEntry_eq_none.1 ‹_›)
  · unfold bindUnit at he
    split at he
    · obtain ⟨y, hy, rfl⟩ := List.mem_map.1 he
      split_ifs
      · refine ⟨by simp, List.nodup_append.2 ⟨(hheld y hy).2, by simp, ?_⟩⟩
        rintro a ha _ hb rfl
        rw [List.mem_singleton] at hb
        subst hb
        exact hnot y.band (by rwa [mem_heldBy_of_mem hsort hy])
      · exact hheld y hy
    · rcases mem_insertEntry.1 he with rfl | he
      exacts [⟨by simp, by simp⟩, hheld e he]
  · rw [heldBy_bindUnit]
    by_cases hv : v = u
    · subst hv
      rw [Function.update_self, Option.some.injEq]
      split_ifs with hx
      · simp [hx]
      · simp [hx, hnot x]
    · rw [Function.update_of_ne hv, hrel v x]
      split_ifs <;> simp [hv]

/-- A unit that joins a band takes it for its holder (R21, R32, R43). -/
theorem setHolder_holdings {c : ClassIx} (h : (s.unit u).holder = none) (hs : HoldingsOk s) :
    HoldingsOk (setHolder s u d c) := by
  have key := (holdingsOk_iff.1 hs).bind (d := d) (c := c) (now := s.clock.sec) h
  refine holdingsOk_iff.2 ?_
  have hf : (fun v => ((setHolder s u d c).unit v).holder) = Function.update (fun v => (s.unit v).holder) u (some d) := by
    funext v
    by_cases hv : v = u
    · subst hv
      rw [Function.update_self]
      exact congrArg UnitRec.holder (modUnit_unit_self _ _ _)
    · rw [Function.update_of_ne hv]
      exact congrArg UnitRec.holder (modUnit_unit_other _ _ _ _ hv)
  rw [hf]
  exact key

theorem clearHolder_unit_self : (clearHolder s u).unit u = (s.unit u).unheld := by
  rw [clearHolder_eq]
  exact unit_put _

theorem clearHolder_unit_other (h : v ≠ u) : (clearHolder s u).unit v = s.unit v := by
  rw [clearHolder_eq]
  exact put_get_other _ _ _ _ h

theorem clearHolder_bands :
    (clearHolder s u).bands = (s.unit u).holder.elim s.bands fun b => unbindUnit s.bands b u := by
  rw [clearHolder_eq]

/-- A unit that loses its holder leaves its band's list (R20, R21). -/
theorem clearHolder_holdings (h : HoldingsOk s) : HoldingsOk (clearHolder s u) := by
  have hb := h.bands
  obtain ⟨hsort, hheld, hrel⟩ := h
  cases ho : (s.unit u).holder with
  | none =>
    refine holdingsOk_congr (s := s) (by rw [clearHolder_bands, ho]; rfl) (fun v => ?_) ⟨hsort, hheld, hrel⟩
    by_cases hv : v = u
    · subst hv
      rw [clearHolder_unit_self, ho]
      rfl
    · rw [clearHolder_unit_other hv]
  | some b =>
    unfold HoldingsOk
    rw [clearHolder_bands, ho, Option.elim_some]
    refine ⟨?_, fun e he => ?_, fun v x => ?_⟩
    · refine List.Pairwise.sublist List.filter_sublist (List.pairwise_map.2 (hsort.imp fun {x y} hxy => ?_))
      split_ifs <;> exact hxy
    · obtain ⟨hm, hn⟩ := List.mem_filter.1 he
      obtain ⟨y, hy, rfl⟩ := List.mem_map.1 hm
      refine ⟨by simpa using hn, ?_⟩
      split_ifs
      · exact (hheld y hy).2.filter _
      · exact (hheld y hy).2
    · rw [heldBy_unbindUnit hb.1 hb.2]
      by_cases hv : v = u
      · subst hv
        have hx : v ∈ heldBy s.bands x ↔ b = x := by rw [← hrel v x, ho, Option.some.injEq]
        rw [clearHolder_unit_self]
        split_ifs with h
        · simp [UnitRec.unheld]
        · simp [UnitRec.unheld, hx, h]
      · rw [clearHolder_unit_other hv, hrel v x]
        split_ifs <;> simp [hv]

theorem clearHolder_calm : Calm s (clearHolder s u) := by
  refine ⟨?_, fun v => ?_, clearHolder_holdings⟩
  · rw [clearHolder_eq]
    exact id
  · have hd : (clearHolder s u).deferrals v = s.deferrals v := by
      by_cases hv : v = u
      · subst hv
        rw [deferrals_eq clearHolder_unit_self]
        rfl
      · exact deferrals_eq (clearHolder_unit_other hv)
    rw [movements_of (t := clearHolder s u) (d := s.drive) (k := s.reports v) (by rw [clearHolder_eq]) hd
      (by rw [clearHolder_eq]; rfl), movements_eq]

theorem writeClass_holdings {c : ClassIx} (h : HoldingsOk s) : HoldingsOk { s with bands := writeClass s.bands d c } := by
  obtain ⟨hsort, hheld, hrel⟩ := h
  refine ⟨List.pairwise_map.2 (hsort.imp fun {x y} hxy => by rwa [writeClass_changes, writeClass_changes]),
    fun e he => ?_, fun v x => ?_⟩
  · obtain ⟨y, hy, rfl⟩ := List.mem_map.1 he
    split_ifs <;> exact hheld y hy
  · rw [heldBy_writeClass]
    exact hrel v x

/-- A unit's record changed, its holder apart, with no deferred op where there was none. -/
theorem modUnit_calm_of {f : UnitRec → UnitRec} (hh : (f (s.unit u)).holder = (s.unit u).holder)
    (hd : (f (s.unit u)).deferred.isSome → (s.unit u).deferred.isSome) : Calm s (s.modUnit u f) := by
  refine ⟨id, fun v => ?_, holdingsOk_congr rfl fun v => ?_⟩
  · have hle : (s.modUnit u f).deferrals v ≤ s.deferrals v := by
      by_cases hv : v = u
      · subst hv
        rw [deferrals_eq (modUnit_unit_self _ _ _), deferrals_eq rfl]
        split_ifs with h1 h2
        exacts [le_rfl, absurd (hd h1) h2, Nat.zero_le _, le_rfl]
      · exact (deferrals_eq (modUnit_unit_other _ _ _ _ hv)).le
    rw [movements_of (t := s.modUnit u f) (d := s.drive) (k := s.reports v) rfl rfl rfl, movements_eq]
    omega
  · by_cases hv : v = u
    · subst hv
      rw [modUnit_unit_self]
      exact hh
    · rw [modUnit_unit_other _ _ _ _ hv]

/-! ### Units -/

theorem steady_calm {l : Lamp} : Calm s (steady s u l) := modUnit_calm fun _ => ⟨rfl, rfl⟩

theorem releaseLocker_calm {why : Reason} : Calm s (releaseLocker s u why) :=
  postReleased_calm.of (handJournal_calm.of (.of (modUnit_calm fun _ => ⟨rfl, rfl⟩) (enter_calm.of clearHolder_calm)))

theorem handReturn_calm : Calm s (handReturn s u) :=
  .ite (fun _ => handJournal_calm.of (modUnit_calm fun _ => ⟨rfl, rfl⟩)) fun _ => .refl s

theorem closeCabin_admits : Admits u s (closeCabin s u) :=
  .ite (fun _ => .ite (fun _ => handOver_admits.on enter_calm) fun _ => enter_calm.admits)
    fun _ => handOver_admits.on enter_calm

theorem closeSilently_calm : Calm s (closeSilently s u) := .ite (fun _ => enter_calm) fun _ => enter_calm

/-- What the holder release of a cabin does ahead of closing it (R45). -/
theorem releaseCabin_calmly {why : Reason} :
    Calm s (postReleased (((clearHolder s u).noTimer u).modUnit u fun r => { r with latchSeen := false, overstay := false })
      u why (s.unit u).holder (s.unit u).boundAt) :=
  postReleased_calm.of (.of (modUnit_calm fun _ => ⟨rfl, rfl⟩) (noTimer_calm.of clearHolder_calm))

theorem releaseCabin_silent_calm {why : Reason} : Calm s (releaseCabin s u why true) :=
  .ite (fun _ => .of (.ite (fun _ => closeSilently_calm) fun h => absurd rfl h) releaseCabin_calmly)
    fun _ => enter_calm.of releaseCabin_calmly

/-- A cabin released is handed a movement with nothing in hand alone (R45). -/
theorem releaseCabin_upholds {why : Reason} {silent : Bool} : Upholds s (releaseCabin s u why silent) := by
  refine .ite (fun h => ?_) fun _ => (enter_calm.of releaseCabin_calmly).upholds
  have hu : s.inHand u = false := by
    simp only [Bool.and_eq_true, Bool.not_eq_true'] at h
    exact h.1.1
  refine .ite (fun _ => (closeSilently_calm.of releaseCabin_calmly).upholds) fun _ => ?_
  exact (closeCabin_admits.on releaseCabin_calmly).upholds hu

theorem setTimes_calm {e : Nat} : Calm s (setTimes s u e) := by
  unfold setTimes
  dsimp only
  split
  · exact withTimer_calm.of (modUnit_calm fun _ => ⟨rfl, rfl⟩)
  · exact withTimer_calm.of (modUnit_calm fun _ => ⟨rfl, rfl⟩)

theorem admitCabin_calm : Calm s (admitCabin s u) :=
  setTimes_calm.of (.of (modUnit_calm fun _ => ⟨rfl, rfl⟩) enter_calm)

theorem handOver_state {op : BoltOp} {k : Urgency} (v : UnitIx) : ((handOver s u op k).unit v).state = (s.unit v).state := by
  obtain ⟨-, -, -, ho⟩ := handOver_acts s u op k
  have h : ((handOver s u op k).unit v).rest.state = (s.unit v).rest.state := by rw [ho v (by simp)]
  exact h

/-- Where a verified movement hands another over, the unit is UNLOCKING or VACATING (R35, R46). -/
theorem verifiedUnit_cases {op : BoltOp} {door : Bool} : Calm s (verifiedUnit s u op door) ∨
    Admits u s (verifiedUnit s u op door) ∧
      (((verifiedUnit s u op door).unit u).state = .unlocking ∨ ((verifiedUnit s u op door).unit u).state = .vacating) := by
  have vacates : Admits u s (handOver (enter s u .vacating) u .withdraw .normal) ∧
      (((handOver (enter s u .vacating) u .withdraw .normal).unit u).state = .unlocking ∨
        ((handOver (enter s u .vacating) u .withdraw .normal).unit u).state = .vacating) :=
    ⟨handOver_admits.on enter_calm, .inr (by rw [handOver_state, enter_unit_self]; rfl)⟩
  unfold verifiedUnit
  split
  · unfold verifiedLocker
    dsimp only
    split
    · split_ifs
      · exact .inl enter_calm
      · refine .inr ⟨beep_calm.after (transient_calm.after (handOver_admits.on (setPurpose_calm.of enter_calm))), .inl ?_⟩
        simp only [beep, transient, modUnit_unit_self, handOver_state, setPurpose, enter_unit_self]
        rfl
    · split
      · exact .inl releaseLocker_calm
      · exact .inl (withTimer_calm.of (setPurpose_calm.of enter_calm))
      · exact .inl (setPurpose_calm.of enter_calm)
      · exact .inl (.refl s)
    · exact .inl (.refl s)
  · unfold verifiedCabin
    split
    · exact .inl admitCabin_calm
    · split_ifs
      exacts [.inl enter_calm, .inr vacates]
    · split_ifs
      exacts [.inl enter_calm, .inr vacates]
    · exact .inl (.refl s)
  · exact .inl (.refl s)

theorem verifiedUnit_admits {op : BoltOp} {door : Bool} : Admits u s (verifiedUnit s u op door) := by
  rcases verifiedUnit_cases with h | ⟨h, -⟩
  exacts [h.admits, h]

theorem forceOpen_calm : Calm s (forceOpen s u) := post_calm.of enter_calm

theorem rederive_admits {op : BoltOp} {bolt : Bool} : Admits u s (rederive s u op bolt) :=
  .ite (fun _ => .ite (fun _ => handOver_admits.on enter_calm) fun _ => enter_calm.admits)
    fun _ => .ite (fun _ => handOver_admits) fun _ => handOver_admits

theorem compareUnit_admits : Admits u s (compareUnit s u c) := by
  have stays : Admits u s s := (Calm.refl s).admits
  have drawn : Admits u s (if c.bolt then rederive s u .withdraw c.bolt else s) :=
    .ite (fun _ => rederive_admits) fun _ => stays
  unfold compareUnit
  split
  case h_2 =>
    exact .ite (fun _ => forceOpen_calm.admits) fun _ => .ite (fun _ => stays) fun _ => rederive_admits.on enter_calm
  case h_5 => exact .ite (fun _ => stays) fun _ => rederive_admits
  all_goals first | exact drawn | exact stays

/-- A unit is reconciled with nothing in hand alone (R49). -/
theorem reconcileUnit_upholds : Upholds s (reconcileUnit s u c) := by
  unfold reconcileUnit
  refine .ite (fun _ => .refl s) fun hu => ?_
  have hi : s.inHand u = false := by simpa using hu
  have hm : Calm s (s.modUnit u fun r => { r with suspended := false }) := modUnit_calm fun _ => ⟨rfl, rfl⟩
  refine .ite (fun _ => (compareUnit_admits.on hm).upholds hi) fun _ => ?_
  split
  · exact (compareUnit_admits.on hm).upholds hi
  · refine Admits.upholds (.ite (fun _ => compareUnit_admits.on hm) fun _ => ?_) hi
    exact .ite (fun _ => verifiedUnit_admits.on hm) fun _ => rederive_admits.on hm

theorem returnUnit_upholds : Upholds s (returnUnit s u) := by
  unfold returnUnit
  dsimp only
  have hr : Calm s (handReturn (s.modUnit u fun r => { r with suspended := false }) u) :=
    handReturn_calm.of (modUnit_calm fun _ => ⟨rfl, rfl⟩)
  have hc : Calm s (if (s.unit u).holder.isNone then
        enter (handReturn (s.modUnit u fun r => { r with suspended := false }) u) u .free
      else if s.kind u = .locker then enter (handReturn (s.modUnit u fun r => { r with suspended := false }) u) u .held
      else postReleased (enter (clearHolder (handReturn (s.modUnit u fun r => { r with suspended := false }) u) u) u .vacating)
        u .fault (s.unit u).holder (s.unit u).boundAt) :=
    .ite (fun _ => enter_calm.of hr) fun _ => .ite (fun _ => enter_calm.of hr)
      fun _ => postReleased_calm.of (enter_calm.of (clearHolder_calm.of hr))
  refine .ite (fun h => ?_) fun _ => hc.upholds
  have hi : s.inHand u = false := by simpa using h.2
  exact (compareUnit_admits.on hc).upholds hi

/-! ### Watches, follow-up entries and evacuation -/

theorem movementLeft_calm {how : Leave} {cleared : Bool} : Calm s (movementLeft s u how cleared) := by
  unfold movementLeft
  split
  · exact .refl s
  · exact setRunning_calm

/-- A follow-up entry acted on hands a movement over at the verify of a FREE or EVAC_OPEN cabin alone (R177). -/
theorem followUp_calm {how : Leave} (h : how = .verify → (s.unit u).state ≠ .free ∧ (s.unit u).state ≠ .evacOpen) :
    Calm s (followUp s u how) := by
  unfold followUp
  split
  · exact .refl s
  · rename_i f _
    dsimp only
    have ht : Calm s (s.setFollow (s.engine.follow.filter fun e => e.1 ≠ u)) := setFollow_calm
    split
    · split
      · rename_i hs
        exact absurd hs (h rfl).1
      · split
        · rename_i hd
          exact (modUnit_calm_of rfl fun _ => by rw [hd]; rfl).of ht
        · exact promote_calm.of ht
      · exact ht
    · exact enter_calm.of ht
    · rw [if_neg]
      · exact ht
      · exact (h rfl).2
    · exact enter_calm.of ht
    · exact ht

theorem followUp_admits : Admits u s (followUp s u .verify) := by
  unfold followUp
  split
  · exact (Calm.refl s).admits
  · rename_i f _
    dsimp only
    have ht : Calm s (s.setFollow (s.engine.follow.filter fun e => e.1 ≠ u)) := setFollow_calm
    cases f with
    | toOpen =>
      dsimp only
      split
      · exact handOver_admits.on (enter_calm.of ht)
      · split
        · rename_i hd
          exact ((modUnit_calm_of rfl fun _ => by rw [hd]; rfl).of ht).admits
        · exact (promote_calm.of ht).admits
      · exact ht.admits
    | toClose => exact .ite (fun _ => handOver_admits.on (enter_calm.of ht)) fun _ => ht.admits

/-- Undo of the deferred op. -/
theorem undefer_calm : Calm s (s.modUnit u fun r => { r with deferred := none }) := modUnit_calm_of rfl fun h => by simp at h

theorem takeAway_calm {op : BoltOp} : Calm s (takeAway op s u) := by
  unfold takeAway
  refine .ite (fun _ => ?_) fun _ => .refl s
  have ht : Calm s ((s.modUnit u fun r => { r with deferred := none }).setFollow
      ((s.modUnit u fun r => { r with deferred := none }).engine.follow.filter fun e => e.1 ≠ u)) :=
    setFollow_calm.of undefer_calm
  exact movementLeft_calm.of (.ite (fun h => (removeWaiting_calm h).of ht) fun _ => ht)

/-- A unit of whose op nothing is known, and of which no report waits, has nothing in hand. -/
theorem inHand_of_none (ho : s.opInHand u = none) (hr : ¬s.reported u = true) : s.inHand u = false := by
  unfold State.opInHand at ho
  simp only [Option.orElse_eq_none, Option.map_eq_none_iff, List.find?_eq_none, List.mem_append,
    decide_eq_true_eq] at ho
  obtain ⟨ha, hd, -⟩ := ho
  have hact : s.actuating u = false := by simpa [State.actuating, or_imp, forall_and, and_assoc] using ha
  simpa [State.inHand, hact, hd] using hr

/-- A cabin is handed a WITHDRAW at an evacuation start with nothing in hand alone (R176). -/
theorem evacuateCabin_upholds {a : State × Nat} : Upholds a.1 (evacuateCabin a u).1 := by
  unfold evacuateCabin
  dsimp only
  have ht : Calm a.1 (takeAway .throw a.1 u) := takeAway_calm
  generalize takeAway .throw a.1 u = m at ht
  refine .of ?_ ht.upholds
  split
  case h_1 | h_2 =>
    split
    · exact setFollow_calm.upholds
    · refine (promote_calm.of ?_).upholds
      exact .of (modUnit_calm_of rfl fun h => by simpa using h) enter_calm
    · split_ifs with h1
      · exact setFollow_calm.upholds
      · exact enter_calm.upholds
      · exact (handOver_admits.on enter_calm).upholds (inHand_of_none ‹_› h1)
  case h_3 =>
    split
    · rename_i hd
      dsimp only
      refine Calm.upholds ?_
      exact modUnit_calm_of rfl fun _ => by rw [hd]; rfl
    · split_ifs
      exacts [promote_calm.upholds, .refl m]
  case h_4 => exact .refl m

theorem relockCabin_upholds {a : State × Nat} : Upholds a.1 (relockCabin a u).1 := by
  unfold relockCabin
  dsimp only
  have ht : Calm a.1 (takeAway .withdraw a.1 u) := takeAway_calm
  generalize takeAway .withdraw a.1 u = m at ht
  refine .of ?_ ht.upholds
  split_ifs with h1 h2
  · exact .refl m
  · exact setFollow_calm.upholds
  · exact enter_calm.upholds
  · exact (handOver_admits.on enter_calm).upholds (by simpa using h2)

end Sys2Proof.Machine
end

section
namespace Sys2Proof.Machine

variable {s m t : State} {n : Nat} {u v : UnitIx} {b : BankIx} {d : Band} {c : ClassIx}

/-! ### The bank chains and the Tap Queue -/

theorem beginMode_calm {a : Activity} : Calm s (beginMode s b a) := .same rfl
theorem beginData_calm {a : Activity} : Calm s (beginData s b a) := .same rfl
theorem beginStatus_calm {due : Millis} : Calm s (beginStatus s b due) := .same rfl
theorem setReserved_calm : Calm s (s.setReserved b n) := .same rfl

theorem chainFree_calm : Calm s (chainFree s b) := by
  unfold chainFree
  dsimp only
  split
  · exact .ite (fun _ => modBank_calm) fun _ => beginStatus_calm.of (modBank_calm.of modBank_calm)
  · exact modBank_calm

theorem statusDue_calm : Calm s (statusDue s b) :=
  .ite (fun _ => .ite (fun _ => beginStatus_calm.of modBank_calm) fun _ => modBank_calm.of modBank_calm) fun _ => .refl s

theorem moveBank_calm {st : BankState} : Calm s (moveBank s b st) :=
  .ite (fun _ => driveLeaves_calm.of modBank_calm) fun _ => modBank_calm

theorem resetNodes_calm : Calm s (resetNodes s b) := setChain_calm

theorem enterResetting_calm : Calm s (enterResetting s b) := by
  have h : Calm s (resetNodes (moveBank s b .resetting) b) := resetNodes_calm.of moveBank_calm
  unfold enterResetting
  refine modBank_calm.of (h.trans ?_)
  exact .same rfl

theorem makeAbsent_calm : Calm s (makeAbsent s b) := setChain_calm.of moveBank_calm

theorem reportReset_calm {st : BankState} {code : Option FaultCode} : Calm s (reportReset s b st code n) :=
  .ite (fun _ => hand_calm fun _ => rfl) fun _ => .refl s

theorem enterFaulted_calm {code : FaultCode} {v : Option UnitIx} : Calm s (enterFaulted s b code n v) :=
  .ite (fun _ => modBank_calm.of moveBank_calm) fun _ => post_calm.of (modBank_calm.of moveBank_calm)

theorem passFailed_calm {next : State → State} (h : ∀ m, Calm m (next m)) : Calm s (passFailed s b next) :=
  .ite (fun _ => (h _).of modBank_calm) fun _ => enterFaulted_calm.of modBank_calm

theorem enterRunning_calm : Calm s (enterRunning s b) := by
  unfold enterRunning
  dsimp only
  refine .ite (fun _ => post_calm.of (modBank_calm.of (reportReset_calm.of ?_))) fun _ => reportReset_calm.of ?_
  all_goals exact .ite (fun _ => modBank_calm) fun _ => beginStatus_calm.of modBank_calm

theorem retry_calm : Calm s (retry s b) := .ite (fun _ => enterResetting_calm) fun _ => .refl s

theorem resetEnd_calm : Calm s (resetEnd s b) := .ite (fun _ => setChain_calm.of modBank_calm) fun _ => .refl s

theorem enumerated_calm {ids : List Identity} : Calm s (enumerated s b ids) := by
  unfold enumerated
  dsimp only
  refine .ite (fun _ => reportReset_calm.of enterFaulted_calm) fun _ => ?_
  split
  · exact reportReset_calm.of enterFaulted_calm
  · refine enterRunning_calm.of ?_
    exact .same rfl

theorem enumerationEnd_calm {line : Noise} : Calm s (enumerationEnd s b line) :=
  .ite (fun _ => enumerated_calm.of setChain_calm) fun _ => .refl s

theorem beginStatusData_calm {modes : List NodeMode} : Calm s (beginStatusData s b modes) := by
  refine beginData_calm.of (Calm.foldl _ (fun m u => ?_) s)
  exact modUnit_calm fun _ => ⟨rfl, rfl⟩

theorem modePass_calm {modes : List NodeMode} {line : Noise} : Calm s (modePass s b modes line).1 := setChain_calm

theorem statusModeEnd_calm {line : Noise} : Calm s (statusModeEnd s b line) := by
  unfold statusModeEnd
  split
  · have h := fun modes => modePass_calm (s := s) (b := b) (modes := modes) (line := line)
    exact .ite (fun _ => .ite (fun _ => modBank_calm.of (modBank_calm.of (h _))) fun _ => beginStatusData_calm.of
      (modBank_calm.of (h _))) fun _ => (passFailed_calm fun _ => chainFree_calm).of (h _)
  · exact .refl s

theorem postTamper_calm {fresh : Bool} {cells : List (UnitIx × Cell)} : Calm s (postTamper s b fresh cells) :=
  Calm.foldl _ (fun _ _ => post_calm) s

theorem handCells_calm {fresh : Bool} {cells : List (UnitIx × Cell)} {prev : UnitIx → Cell} :
    Calm s (handCells s b fresh cells prev) :=
  .ite (fun _ => (hand_calm fun _ => rfl).of modBank_calm) fun _ => Calm.foldl _ (fun _ _ => hand_calm fun _ => rfl) s

/-- A passed status data pass may take a movement back for a retry, of a unit whose actuation awaited verify (R81, R82). -/
theorem statusPassed_upholds {began : Millis} {cells : List (UnitIx × Cell)} :
    Upholds s (statusPassed s b began cells) := by
  have h : ∀ x : Vector TapMemory 512, Upholds s
      { observeCells (postTamper s b (s.bank b).fresh cells) cells with tapMemory := x } := fun x => by
    refine (Calm.trans (postTamper_calm (b := b) (fresh := (s.bank b).fresh) (cells := cells)) ?_).upholds
    exact .same rfl
  unfold statusPassed
  dsimp only
  split
  · refine chainFree_calm.upholds.of ?_
    exact .ite (fun _ => h _) fun _ => handCells_calm.upholds.of (verifyBank_upholds.of (h _))
  · refine modBank_calm.upholds.of ?_
    exact .ite (fun _ => h _) fun _ => handCells_calm.upholds.of (verifyBank_upholds.of (h _))

theorem clearBeeps_calm {us : List UnitIx} : Calm s (clearBeeps s us) := by
  refine Calm.foldl _ (fun m u => ?_) s
  exact modUnit_calm fun _ => ⟨rfl, rfl⟩

theorem statusDataEnd_upholds {line : Noise} : Upholds s (statusDataEnd s b line) := by
  unfold statusDataEnd
  split
  · rename_i modes cells began ops _
    have h : ∀ x : List Node, Calm s (clearBeeps (deliverOps (s.setChain b x) ops) (unitsIn b modes .status)) :=
      fun x => clearBeeps_calm.of (deliverOps_calm.of setChain_calm)
    exact .ite (fun _ => statusPassed_upholds.of (modBank_calm.of (h _)).upholds) fun _ =>
      ((passFailed_calm fun _ => chainFree_calm).of (h _)).upholds
  · exact .refl s

theorem reserve_calm : Calm s (reserve s b) := by
  unfold reserve
  split
  · rename_i us _
    refine .ite (fun _ => .refl s) fun _ => ?_
    have h : Calm s ((s.setReserved b (s.taps.reserved.get b + (us.take s.taps.free).length)).modBank b fun k =>
        { k with granted := us.take s.taps.free }) := modBank_calm.of setReserved_calm
    exact .ite (fun _ => chainFree_calm.of h) fun _ =>
      .ite (fun _ => modBank_calm.of h) fun _ => beginMode_calm.of h
  · exact .refl s

theorem fetchModeEnd_calm {line : Noise} : Calm s (fetchModeEnd s b line) := by
  unfold fetchModeEnd
  split
  · exact .ite (fun _ => .ite (fun _ => modBank_calm.of (modBank_calm.of modePass_calm)) fun _ =>
      beginData_calm.of (modBank_calm.of modePass_calm)) fun _ =>
      (passFailed_calm fun _ => chainFree_calm.of modBank_calm).of modePass_calm
  · exact .refl s

theorem fetchDataEnd_calm {line : Noise} : Calm s (fetchDataEnd s b line) := by
  unfold fetchDataEnd
  split
  · exact .ite (fun _ => modBank_calm.of (modBank_calm.of setChain_calm)) fun _ =>
      (passFailed_calm fun _ => chainFree_calm.of (setChain_calm.of modBank_calm)).of setChain_calm
  · exact .refl s

theorem place_calm : Calm s (place s b) := by
  unfold place
  split
  · exact .refl s
  · refine .ite (fun _ => ?_) fun _ => setReserved_calm.of modBank_calm
    refine .ite (fun _ => chainFree_calm.of (setChain_calm.of ?_)) fun _ => ?_
    all_goals exact .same rfl

theorem release_calm : Calm s (release s b) := modBank_calm.of setReserved_calm

theorem modNode_calm {p : Position} {f : Node → Node} : Calm s (s.modNode b p f) := setChain_calm

theorem nodeUp_calm {p : Position} {kind : BitVec 2} {revision : BitVec 5} {serial : BitVec 16} :
    Calm s (nodeUp s b p kind revision serial) := .ite (fun _ => setChain_calm) fun _ => modNode_calm

/-! ### The tap decision -/

theorem setHolder_calm (h : (s.unit u).holder = none) : Calm s (setHolder s u d c) := by
  refine ⟨id, fun v => ?_, setHolder_holdings h⟩
  have hd : (setHolder s u d c).deferrals v = s.deferrals v := by
    by_cases hv : v = u
    · subst hv
      exact (deferrals_eq (modUnit_unit_self _ _ _)).trans rfl
    · exact (deferrals_eq (modUnit_unit_other _ _ _ _ hv)).trans rfl
  rw [movements_of (t := setHolder s u d c) (d := s.drive) (k := s.reports v) rfl hd rfl, movements_eq]

theorem writeClass_calm : Calm s { s with bands := writeClass s.bands d c } := ⟨id, fun _ => le_rfl, writeClass_holdings⟩

theorem refuse_calm {why : Refusing} : Calm s (refuse s u d why) := by
  refine beep_calm.of ?_
  exact .ite (fun _ => transient_calm.of post_calm) fun _ => transient_calm.of post_calm

theorem bindLocker_admits (h : (s.unit u).holder = none) : Admits u s (bindLocker s u d c) :=
  green_calm.after (post_calm.after (handOver_admits.on (handJournal_calm.of (enter_calm.of (setHolder_calm h)))))

theorem bindCabin_admits (h : (s.unit u).holder = none) : Admits u s (bindCabin s u d c) :=
  green_calm.after (post_calm.after (handOver_admits.on (enter_calm.of (setHolder_calm h))))

theorem tapNew_admits (h : (s.unit u).holder = none) : Admits u s (tapNew s u d c) := by
  unfold tapNew
  split
  · split
    · exact refuse_calm.admits
    · exact .ite (fun _ => bindLocker_admits h) fun _ => bindCabin_admits h
  · exact refuse_calm.admits
  · exact refuse_calm.admits

theorem tapReclose_admits : Admits u s (tapReclose s u d) :=
  .ite (fun _ => green_calm.after (handOver_admits.on (enter_calm.of noTimer_calm))) fun _ => refuse_calm.admits

theorem tapOpen_admits : Admits u s (tapOpen s u c) :=
  green_calm.after (handOver_admits.on (setPurpose_calm.of enter_calm))

theorem tapHolder_upholds (h : s.inHand u = false) : Upholds s (tapHolder s u d c) := by
  unfold tapHolder
  split
  exacts [tapOpen_admits.upholds h, tapReclose_admits.upholds h, tapReclose_admits.upholds h, releaseCabin_upholds,
    releaseCabin_upholds, .refl s]

theorem openLocker_admits : Admits u s (openLocker s u) := by
  have h : Calm s (if (s.unit u).state = .fault then handReturn s u else s) :=
    .ite (fun _ => handReturn_calm) fun _ => .refl s
  exact .ite (fun _ => (enter_calm.of (noTimer_calm.of h)).admits) fun _ => .ite (fun _ => (enter_calm.of h).admits)
    fun _ => .ite (fun _ => handOver_admits.on (enter_calm.of h)) fun _ =>
      handOver_admits.on (setPurpose_calm.of (enter_calm.of h))

theorem openFaultCabin_admits {why : Reason} : Admits u s (openFaultCabin s u why) := by
  have h : Calm s (if (s.unit u).holder.isSome then
      postReleased (clearHolder s u) u why (s.unit u).holder (s.unit u).boundAt else s) :=
    .ite (fun _ => postReleased_calm.of clearHolder_calm) fun _ => .refl s
  exact .ite (fun _ => handOver_admits.on (enter_calm.of h)) fun _ => (enter_calm.of h).admits

theorem masterActs_upholds {e : MasterEffect} (h : s.inHand u = false) : Upholds s (masterActs s u e) := by
  unfold masterActs
  split
  · exact .ite (fun _ => openLocker_admits.upholds h) fun _ =>
      .ite (fun _ => (handOver_admits.on enter_calm).upholds h) fun _ => openFaultCabin_admits.upholds h
  · exact .ite (fun _ => (handOver_admits.on enter_calm).upholds h) fun _ =>
      .ite (fun _ => (handOver_admits.on enter_calm).upholds h) fun _ => enter_calm.upholds
  · exact releaseCabin_upholds
  · exact .refl s
  · exact .refl s

theorem tapMaster_upholds (h : s.inHand u = false) : Upholds s (tapMaster s u d) := by
  have hm : Upholds s (masterActs (post s .masterTap (s.masterEffect u).code (some u) (some d)
      ((s.unit u).state.code (s.kind u))) u (s.masterEffect u)) :=
    (masterActs_upholds (s := post s .masterTap (s.masterEffect u).code (some u) (some d)
      ((s.unit u).state.code (s.kind u))) h).of post_calm.upholds
  unfold tapMaster
  dsimp only
  split
  exacts [green_calm.upholds.of hm, green_calm.upholds.of hm, green_calm.upholds.of hm,
    (beep_calm.of transient_calm).upholds.of hm, hm]

theorem tapClass_upholds (h : s.inHand u = false) : Upholds s (tapClass s u d c) := by
  have hw : Upholds s { s with bands := writeClass s.bands d c } := writeClass_calm.upholds
  unfold tapClass
  dsimp only
  split
  · exact .ite (fun _ => (tapHolder_upholds (s := { s with bands := writeClass s.bands d c }) h).of hw)
      fun _ => refuse_calm.upholds.of hw
  · exact ((tapNew_admits (s := { s with bands := writeClass s.bands d c }) ‹_›).upholds h).of hw

/-- Check 1 of R28: a tap is refused at a unit with a movement in hand. -/
theorem decideTap_upholds : Upholds s (decideTap s u d) := by
  unfold decideTap
  refine .ite (fun _ => refuse_calm.upholds) fun h => ?_
  have hu : s.inHand u = false := by
    simp only [Bool.or_eq_true, not_or, Bool.not_eq_true] at h
    exact h.1
  dsimp only
  split
  · exact refuse_calm.upholds
  · refine .ite (fun _ => refuse_calm.upholds) fun _ => .ite (fun _ => refuse_calm.upholds) fun _ => ?_
    split
    exacts [refuse_calm.upholds, tapMaster_upholds hu, refuse_calm.upholds, tapClass_upholds hu]

theorem takeTap_upholds : Upholds s (takeTap s) := by
  unfold takeTap
  split
  · exact .refl s
  · rename_i x rest _
    refine .ite (fun _ => pump_calm.upholds.of ?_) fun _ => .refl s
    have h : Calm s { s with
        taps := { s.taps with records := rest }
        engine := { s.engine with tapAhead := s.tapPasses, resuming := false } } := .same rfl
    exact .ite (fun _ => decideTap_upholds.of h.upholds) fun _ => h.upholds

/-! ### The engine's events -/

theorem setInbox_count (l : List EngEvent) :
    (s.setInbox l).movements v + s.reports v = s.movements v + (l.map (EngEvent.movements v)).sum := by
  rw [movements_of (t := s.setInbox l) (d := s.drive) (n := s.deferrals v) (k := (l.map (EngEvent.movements v)).sum)
    rfl rfl rfl, movements_eq s]
  omega

/-- The event taken out of those that wait no longer counts. -/
theorem taken_count {p : EngEvent → Bool} {e : EngEvent} {rest : List EngEvent}
    (h : takeFirst p s.engine.inbox = some (e, rest)) (v : UnitIx) :
    (s.setInbox rest).movements v + e.movements v = s.movements v := by
  have hp := ((takeFirst_perm h).map (EngEvent.movements v)).sum_eq
  have hs := setInbox_count (s := s) (v := v) rest
  rw [List.map_cons, List.sum_cons] at hp
  rw [State.reports] at hs
  omega

theorem taken_calm {p : EngEvent → Bool} {e : EngEvent} {rest : List EngEvent}
    (h : takeFirst p s.engine.inbox = some (e, rest)) : Calm s (s.setInbox rest) :=
  ⟨id, fun v => by have := taken_count h v; omega, holdingsOk_congr rfl fun _ => rfl⟩

/-- A report taken lets its unit have a movement in hand. -/
theorem Admits.taken {p : EngEvent → Bool} {e : EngEvent} {rest : List EngEvent}
    (k : Admits u (s.setInbox rest) t) (h : takeFirst p s.engine.inbox = some (e, rest))
    (he : ∀ v, e.movements v = if u = v then 1 else 0) : Calm s t where
  used := k.used
  count v := by
    have h1 := k.count v
    have h2 := taken_count h v
    rw [he] at h2
    by_cases hv : v = u
    · subst hv
      rw [if_pos rfl] at h1 h2
      omega
    · rw [if_neg hv] at h1
      rw [if_neg (Ne.symm hv)] at h2
      omega
  holdings := k.holdings

theorem takeVerified_admits {op : BoltOp} {x : Cell} : Admits u s (takeVerified s u op x) := by
  unfold takeVerified
  dsimp only
  refine movementLeft_calm.after ?_
  rcases verifiedUnit_cases (s := s) (u := u) (op := op) (door := x.door) with h | ⟨h, hs⟩
  · exact followUp_admits.on h
  · refine (followUp_calm fun _ => ?_).after h
    rcases hs with hs | hs <;> simp [hs]

theorem takeFaulted_calm {op : BoltOp} {x : Cell} : Calm s (takeFaulted s u op x) := by
  have h : Calm s (post (((setPurpose (enter s u .fault) u none).noTimer u)) .unitFault op.code (some u)
      (s.unit u).holder x.faultBits) := post_calm.of (noTimer_calm.of (setPurpose_calm.of enter_calm))
  refine movementLeft_calm.of ((followUp_calm fun h => by cases h).of ?_)
  exact .ite (fun _ => handJournal_calm.of h) fun _ => h

theorem verifyResult_upholds : Upholds s (verifyResult s) := by
  unfold verifyResult
  refine .ite (fun _ => .refl s) fun _ => ?_
  dsimp only
  split
  · rename_i u op c rest h
    have hk : Admits u (s.noteHeld.setInbox rest) (takeVerified ((s.noteHeld.setInbox rest).unhold (.report u)) u op c) :=
      takeVerified_admits.on unhold_calm
    exact (pump_calm.of ((hk.taken h fun _ => rfl).of noteHeld_calm)).upholds
  · exact noteHeld_calm.upholds

theorem faultReport_calm : Calm s (faultReport s) := by
  unfold faultReport
  refine .ite (fun _ => .refl s) fun _ => ?_
  dsimp only
  split
  · rename_i h
    exact pump_calm.of (takeFaulted_calm.of (unhold_calm.of ((taken_calm h).of noteHeld_calm)))
  · exact noteHeld_calm

theorem suspendUnit_calm : Calm s (suspendUnit s u) :=
  movementLeft_calm.of ((followUp_calm fun h => by cases h).of (modUnit_calm_of rfl fun h => by simp at h))

theorem actuationRemoved_calm : Calm s (actuationRemoved s) := by
  unfold actuationRemoved
  refine .ite (fun _ => .refl s) fun _ => ?_
  split
  · rename_i us left rest hr
    have h : Calm s (us.foldl suspendUnit (s.setInbox rest)) :=
      (Calm.foldl _ (fun _ _ => suspendUnit_calm) _).of (taken_calm hr)
    dsimp only
    split
    · exact (Calm.foldl _ (fun _ _ => suspendUnit_calm) _).of h
    · exact h
  · exact .refl s

theorem takeDisplaced_admits : Admits u s (takeDisplaced s u) := by
  refine movementLeft_calm.after ((followUp_calm fun h => by cases h).after ?_)
  exact .ite (fun _ => .ite (fun _ => handOver_admits.on enter_calm) fun _ => enter_calm.admits)
    fun _ => (Calm.refl s).admits

theorem throwDisplaced_calm : Calm s (throwDisplaced s) := by
  unfold throwDisplaced
  refine .ite (fun _ => .refl s) fun _ => ?_
  split
  · exact takeDisplaced_admits.taken ‹_› fun _ => rfl
  · exact .refl s

theorem observeEdges_upholds {x y : Cell} : Upholds s (observeEdges s u x y) := by
  have h : Calm s (if s.kind u = .cabin ∧ (((s.unit u).state = .inUse || (s.unit u).state = .expired) ∨
      (s.unit u).state = .admitting) ∧ x.latch = false ∧ y.latch = true then
      s.modUnit u fun r => { r with latchSeen := true } else s) :=
    .ite (fun _ => modUnit_calm fun _ => ⟨rfl, rfl⟩) fun _ => .refl s
  exact .ite (fun _ => releaseCabin_upholds.of h.upholds) fun _ => h.upholds

/-- The levels of an observation are taken of a unit with nothing in hand alone (R26). -/
theorem observeLevels_upholds {x : Cell} : Upholds s (observeLevels s u x) := by
  refine .ite (fun _ => .refl s) fun h => .ite (fun _ => forceOpen_calm.upholds) fun _ => .ite (fun _ => ?_) fun _ => .refl s
  exact closeCabin_admits.upholds (by simpa using h)

theorem observation_upholds : Upholds s (observation s) := by
  unfold observation
  refine .ite (fun _ => .refl s) fun _ => ?_
  split
  · rename_i h
    exact observeLevels_upholds.of (observeEdges_upholds.of (taken_calm h).upholds)
  · exact .refl s

theorem reconcileUnits_upholds (l : List (UnitIx × Cell)) : Upholds s (reconcileUnits s l).1 := by
  induction l generalizing s with
  | nil => exact .refl s
  | cons x l ih =>
    obtain ⟨u, c⟩ := x
    unfold reconcileUnits
    split_ifs
    · exact .refl s
    · exact ih.of reconcileUnit_upholds

theorem reconcile_upholds : Upholds s (reconcile s) := by
  unfold reconcile
  refine .ite (fun _ => .refl s) fun _ => ?_
  split
  · rename_i cells rest hr
    refine .ite (fun _ => .refl s) fun _ => ?_
    dsimp only
    refine pump_calm.upholds.of ?_
    have h : Upholds s (reconcileUnits (s.setInbox rest) cells).1 := (reconcileUnits_upholds _).of (taken_calm hr).upholds
    refine .ite (fun _ => h) fun _ => Upholds.of (Calm.upholds ?_) h
    exact .of_eq rfl rfl (fun _ => ⟨rfl, rfl⟩) fun v => by simp [State.reports, State.setInbox, EngEvent.movements]
  · exact .refl s

theorem stallReport_calm : Calm s (stallReport s) := by
  unfold stallReport
  refine .ite (fun _ => .refl s) fun _ => ?_
  split
  · rename_i h
    refine (taken_calm h).trans ?_
    exact .same rfl
  · exact .refl s

theorem takeExpiry_upholds : Upholds s (takeExpiry s u) := by
  refine .ite (fun _ => releaseCabin_upholds.of (Calm.upholds ?_)) fun _ => Calm.upholds ?_
  all_goals exact withTimer_calm.of (post_calm.of enter_calm)

theorem takeGraceEnd_upholds : Upholds s (takeGraceEnd s u) := by
  refine .ite (fun _ => Calm.upholds (noTimer_calm.of (post_calm.of ?_))) fun _ => releaseCabin_upholds
  exact modUnit_calm fun _ => ⟨rfl, rfl⟩

theorem warningDue_calm : Calm s (warningDue s) := by
  unfold warningDue
  split
  · exact withTimer_calm.of (steady_calm.of post_calm)
  · exact .refl s

theorem expiryDue_upholds : Upholds s (expiryDue s) := by
  unfold expiryDue
  split
  · exact takeExpiry_upholds
  · exact .refl s

theorem graceEndDue_upholds : Upholds s (graceEndDue s) := by
  unfold graceEndDue
  split
  · exact takeGraceEnd_upholds
  · exact .refl s

theorem ajarIdleDue_calm : Calm s (ajarIdleDue s) := by
  unfold ajarIdleDue
  refine .ite (fun _ => .refl s) fun _ => ?_
  dsimp only
  split
  · exact pump_calm.of (releaseLocker_calm.of (noTimer_calm.of noteHeld_calm))
  · exact noteHeld_calm

theorem startEvacuation_upholds : Upholds s (startEvacuation s) := by
  refine post_calm.upholds.of ?_
  refine (Upholds.foldlCount _ (fun _ _ => evacuateCabin_upholds) (_, 0)).of (Calm.upholds ?_)
  exact .same rfl

theorem endEvacuation_upholds : Upholds s (endEvacuation s) := by
  unfold endEvacuation
  dsimp only
  split
  · refine (post_calm.of ?_).upholds
    exact .same rfl
  · refine post_calm.upholds.of ?_
    refine (Upholds.foldlCount _ (fun _ _ => relockCabin_upholds) (_, 0)).of (Calm.upholds ?_)
    exact .same rfl

theorem takeChange_upholds {on : Bool} {f : State → State} (hf : ∀ m, Upholds m (f m)) : Upholds s (takeChange s on f) := by
  unfold takeChange
  split
  · exact .ite (fun _ => (hf _).of (Calm.upholds (.same rfl))) fun _ => .refl s
  · exact .refl s

theorem evacuateChange_calm {on : Bool} : Calm s (evacuateChange s on) := .ite (fun _ => .refl s) fun _ => .same rfl
theorem serviceKeyChange_calm {on : Bool} : Calm s (serviceKeyChange s on) := .ite (fun _ => .refl s) fun _ => .same rfl

end Sys2Proof.Machine
end

section
namespace Sys2Proof.Machine

variable {s m t : State} {n : Nat} {u v : UnitIx} {b : BankIx} {d : Band} {a : Action} {r : Running}

/-! ### Actions -/

theorem endAction_calm {why : Result} {x : Nat} : Calm s (endAction s why x) := by
  unfold endAction
  split
  · exact .refl s
  · exact post_calm.of setRunning_calm

theorem finish_calm : Calm s (finish s) := by
  unfold finish
  split
  · exact .refl s
  · exact .ite (fun _ => endAction_calm) fun _ => .refl s

theorem record_calm {stage : Stage} {counted : Nat} : Calm s (record u counted ⟨s, stage⟩) := by
  unfold record
  split
  · exact .refl _
  · exact finish_calm.of setRunning_calm

theorem listUnits_calm {us : List UnitIx} : Calm s (listUnits s us) := by
  unfold listUnits
  split
  · exact .refl s
  · exact setRunning_calm

theorem unlockForRelease_admits : Admits u s (unlockForRelease s u).state := by
  have h : Calm s (setPurpose (enter s u .unlocking) u (some (.release .action))) := setPurpose_calm.of enter_calm
  unfold unlockForRelease
  dsimp only
  split_ifs
  · exact h.admits
  · exact handOver_admits.on h

theorem freeForRelease_calm : Calm s (freeForRelease s u).state := releaseLocker_calm.of noTimer_calm

/-- A release step unlocks a locker with nothing in hand alone (R154). -/
theorem releaseLockerStep_upholds : Upholds s (releaseLockerStep s u).state := by
  unfold releaseLockerStep
  by_cases hn : (s.unit u).holder.isNone = true
  · rw [if_pos hn]
    exact .refl s
  · rw [if_neg hn]
    split
    · exact setPurpose_calm.upholds
    · exact .refl s
    · exact .refl s
    · exact freeForRelease_calm.upholds
    · split_ifs
      exacts [unlockForRelease_admits.upholds ‹_›, freeForRelease_calm.upholds]
    · split_ifs
      exacts [unlockForRelease_admits.upholds ‹_›, freeForRelease_calm.upholds]
    · exact unlockForRelease_admits.upholds ‹_›

theorem releaseCabinStep_upholds : Upholds s (releaseCabinStep s u).state := by
  unfold releaseCabinStep
  by_cases hn : (s.unit u).holder.isNone = true
  · rw [if_pos hn]
    exact .refl s
  · rw [if_neg hn]
    split
    · exact .refl s
    · split_ifs
      exacts [.refl s, (postReleased_calm.of (enter_calm.of clearHolder_calm)).upholds]
    · exact releaseCabin_upholds

theorem releaseStep_upholds : Upholds s (releaseStep s u).state := by
  unfold releaseStep
  by_cases hk : s.kind u = .locker
  · rw [if_pos hk]
    exact releaseLockerStep_upholds
  · rw [if_neg hk]
    exact releaseCabinStep_upholds

theorem releaseOne_upholds : Upholds s (releaseOne s u) := record_calm.upholds.of releaseStep_upholds

theorem releaseOfBand_upholds : Upholds s (releaseOfBand s d u) :=
  .ite (fun _ => releaseOne_upholds) fun _ => record_calm.upholds

theorem openStep_upholds : Upholds s (openStep s u).state := by
  unfold openStep
  dsimp only
  by_cases h : (s.inHand u || (s.unit u).suspended || (s.unit u).state.transitional) = true
  · rw [if_pos h]
    exact .refl s
  · have hu : s.inHand u = false := by
      simp only [Bool.or_eq_true, not_or, Bool.not_eq_true] at h
      exact h.1.1
    rw [if_neg h]
    split
    case h_1 | h_2 | h_3 | h_4 => exact openLocker_admits.upholds hu
    · exact (handOver_admits.on enter_calm).upholds hu
    · exact openFaultCabin_admits.upholds hu
    · exact .ite (fun _ => handOver_admits.upholds hu) fun _ => .refl s
    · exact .refl s

theorem openOne_upholds : Upholds s (openOne s u) := record_calm.upholds.of openStep_upholds

theorem clearStep_upholds : Upholds s (clearStep s u).state := by
  unfold clearStep
  dsimp only
  split_ifs with h1 h2
  exacts [.refl s, .refl s, enter_calm.upholds, (handOver_admits.on enter_calm).upholds (by simpa using h2)]

theorem clearOne_upholds : Upholds s (clearOne s u) := record_calm.upholds.of clearStep_upholds

theorem repeatStep_upholds : Upholds s (repeatStep s a u) := by
  cases a with
  | releaseUnit => exact releaseOne_upholds
  | releaseBand => exact releaseOfBand_upholds
  | openUnit => exact openOne_upholds
  | clearEvacuation => exact clearOne_upholds
  | _ => exact .refl s

theorem releaseBandStep_upholds : Upholds s (releaseBandStep s) := by
  unfold releaseBandStep
  refine .ite (fun _ => .refl s) fun _ => ?_
  split
  · split
    · refine .ite (fun _ => .refl s) fun _ => ?_
      dsimp only
      split
      · exact pump_calm.upholds.of (releaseOfBand_upholds.of (unhold_calm.of noteHeld_calm).upholds)
      · exact noteHeld_calm.upholds
    · exact .refl s
  · exact .refl s

theorem stepRepeat_upholds : Upholds s (stepRepeat s) := by
  unfold stepRepeat
  refine .ite (fun _ => .refl s) fun _ => ?_
  split
  · refine .ite (fun _ => .refl s) fun _ => ?_
    dsimp only
    split
    · exact pump_calm.upholds.of (repeatStep_upholds.of (unhold_calm.of noteHeld_calm).upholds)
    · exact noteHeld_calm.upholds
  · exact .refl s

theorem releaseUnitFirst_upholds : Upholds s (releaseUnitFirst a s) := by
  unfold releaseUnitFirst
  split
  exacts [releaseOne_upholds.of listUnits_calm.upholds, .refl s]

theorem openUnitFirst_upholds : Upholds s (openUnitFirst a s) := by
  unfold openUnitFirst
  split
  exacts [openOne_upholds.of listUnits_calm.upholds, .refl s]

theorem outOfServiceFirst_calm : Calm s (outOfServiceFirst a s) := by
  unfold outOfServiceFirst
  split
  · refine .ite (fun _ => endAction_calm) fun _ => ?_
    split
    · refine .ite (fun _ => endAction_calm) fun _ => endAction_calm.of ?_
      exact .ite (fun _ => handJournal_calm.of enter_calm) fun _ => enter_calm
    · exact endAction_calm
    · exact endAction_calm
  · exact .refl s

theorem returnFirst_upholds : Upholds s (returnFirst a s) := by
  unfold returnFirst
  split
  · exact .ite (fun _ => endAction_calm.upholds.of returnUnit_upholds) fun _ => endAction_calm.upholds
  · exact .refl s

theorem clearFaultFirst_upholds : Upholds s (clearFaultFirst a s) := by
  unfold clearFaultFirst
  split
  · exact .ite (fun _ => endAction_calm.upholds.of returnUnit_upholds) fun _ => endAction_calm.upholds
  · exact .refl s

theorem releaseBandFirst_calm : Calm s (releaseBandFirst a s) := by
  unfold releaseBandFirst
  split
  · split
    exacts [endAction_calm, listUnits_calm]
  · exact .refl s

theorem extendTo_calm : Calm s (extendTo s u n) :=
  .of (modUnit_calm fun _ => ⟨rfl, rfl⟩) (setTimes_calm.of enter_calm)

theorem extendFirst_calm : Calm s (extendFirst a s) := by
  unfold extendFirst
  split
  · exact .ite (fun _ => .ite (fun _ => endAction_calm) fun _ => endAction_calm.of extendTo_calm) fun _ => endAction_calm
  · exact .refl s

theorem cleaningFirst_calm : Calm s (cleaningFirst a s) := by
  unfold cleaningFirst
  split
  · refine endAction_calm.of ?_
    exact .same rfl
  · exact .refl s

theorem blockFirst_calm : Calm s (blockFirst a s) := by
  unfold blockFirst
  split
  · refine .ite (fun _ => endAction_calm) fun _ => .ite (fun _ => endAction_calm.of ?_) fun _ => endAction_calm
    exact .same rfl
  · exact .refl s

theorem reloadFirst_calm : Calm s (reloadFirst a s) := by
  unfold reloadFirst
  split
  exacts [.same rfl, .refl s]

theorem resetBankFirst_calm : Calm s (resetBankFirst a s) := by
  unfold resetBankFirst
  split
  · exact .ite (fun _ => endAction_calm) fun _ => enterResetting_calm
  · exact .refl s

theorem clearEvacuationFirst_calm : Calm s (clearEvacuationFirst a s) := by
  unfold clearEvacuationFirst
  split
  · exact .ite (fun _ => endAction_calm.of setFollow_calm) fun _ => listUnits_calm.of setFollow_calm
  · exact .refl s

theorem moveToRunning_calm : Calm s (moveToRunning s a) := .same rfl

theorem accept_upholds {k : Nat} {first : Action → State → State} (hf : ∀ a m, Upholds m (first a m)) :
    Upholds s (accept s k first) := by
  unfold accept
  split
  · exact .refl s
  · refine .ite (fun _ => pump_calm.upholds.of ?_) fun _ => .ite (fun _ => noteHeld_calm.upholds) fun _ => .refl s
    exact .ite (fun _ => (hf _ _).of moveToRunning_calm.upholds)
      fun _ => (endAction_calm.of moveToRunning_calm).upholds

theorem resetBankDone_calm : Calm s (resetBankDone s) := by
  unfold resetBankDone
  refine .ite (fun _ => .refl s) fun _ => ?_
  split
  · split
    · split
      · rename_i h
        exact endAction_calm.of (taken_calm h)
      · exact .refl s
    · exact .refl s
  · exact .refl s

theorem clearEvacuationStep_upholds : Upholds s (clearEvacuationStep s) := by
  unfold clearEvacuationStep
  refine .ite (fun _ => .refl s) fun _ => ?_
  split
  · split
    · exact clearOne_upholds
    · exact .refl s
  · exact .refl s

theorem actionOutcome_calm : Calm s (actionOutcome s) := by
  unfold actionOutcome
  refine .ite (fun _ => .refl s) fun _ => ?_
  split
  · split
    · exact record_calm
    · exact .refl s
  · exact .refl s

/-! ### The write port and the store commands -/

theorem advanceSlot_calm : Calm s (advanceSlot s) := (advanceSlot_quiet s).calm

theorem writeOver_calm {x : Turn} : Calm s (writeOver s x) := advanceSlot_calm.of (.same rfl)

theorem scanOn_calm : Calm s (scanOn s) := by
  unfold scanOn
  split
  exacts [.same rfl, .refl s]

theorem journalBodyEnd_calm : Calm s (journalBodyEnd s) := by
  unfold journalBodyEnd
  split
  · split
    · exact .ite (fun _ => scanOn_calm.of writeOver_calm) fun _ => .same rfl
    · exact .same rfl
  · exact .refl s

theorem setRef_calm {q : QRec} {x : Ref} : Calm s (setRef s q x) := by
  unfold setRef
  refine .ite (fun _ => .refl s) fun _ => ?_
  split
  exacts [modUnit_calm fun _ => ⟨rfl, rfl⟩, .refl s, .refl s, modUnit_calm fun _ => ⟨rfl, rfl⟩]

theorem moveRef_calm {k cancel : Bool} {x y : Ref} : Calm s (moveRef s u k x y cancel) :=
  .ite (fun _ => .refl s) fun _ => .ite (fun _ => modUnit_calm fun _ => ⟨rfl, rfl⟩)
    fun _ => modUnit_calm fun _ => ⟨rfl, rfl⟩

theorem headerValid_calm {g : Nat} : Calm s (headerValid s g) := by
  refine .ite (fun _ => .of (hand_calm fun _ => rfl) ?_) fun _ => ?_
  all_goals exact .same rfl

theorem noteFor_calm : Calm s (if s.journalRoom then s else s.noteHeld) :=
  .ite (fun _ => .refl s) fun _ => noteHeld_calm

theorem setJournal_calm {j : Journal} : Calm s (s.setJournal j) := .same rfl

theorem journalValidEnd_calm : Calm s (journalValidEnd s) := by
  unfold journalValidEnd
  split
  · split
    · split
      · exact writeOver_calm.of (setJournal_calm.of (setRef_calm.of noteFor_calm))
      · exact writeOver_calm
    · exact scanOn_calm.of (writeOver_calm.of moveRef_calm)
    · exact headerValid_calm
  · exact .refl s

theorem endBody_calm {p : Program} : Calm s (endBody s p) := by
  unfold endBody
  dsimp only
  split
  · exact journalBodyEnd_calm.of (.same rfl)
  · exact .same rfl
  · exact .same rfl

theorem endValid_calm {p : Program} : Calm s (endValid s p) := by
  unfold endValid
  dsimp only
  split
  · exact journalValidEnd_calm.of (.same rfl)
  · exact post_calm.of (.same rfl)
  · exact .same rfl

theorem endRetired_calm {p : Program} : Calm s (endRetired s p) := .same rfl

theorem programEnd_calm {k : ProgKind} {f : State → Program → State} (hf : ∀ p, Calm s (f s p)) :
    Calm s (programEnd s k f) := by
  unfold programEnd
  split
  · exact .ite (fun _ => pump_calm.of (hf _)) fun _ => .refl s
  · exact .refl s

theorem reclaimDone_calm {g : Nat} : Calm s (reclaimDone s g) := by
  unfold reclaimDone
  dsimp only
  split
  · refine .ite (fun _ => (openNext_quiet _ _).calm.of ?_) fun _ => ?_
    all_goals exact .same rfl
  · exact .same rfl

theorem listErased_calm {g : Nat} : Calm s (listErased s g) := by
  unfold listErased
  dsimp only
  split
  · exact .same rfl
  · exact post_calm.of (.same rfl)

theorem eraseProperEnd_calm : Calm s (eraseProperEnd s) := by
  unfold eraseProperEnd
  split
  · refine .ite (fun _ => pump_calm.of ?_) fun _ => .refl s
    refine .ite (fun _ => .ite (fun _ => reclaimDone_calm.of ?_) fun _ => ?_) fun _ => listErased_calm.of ?_
    all_goals exact .same rfl
  · exact .refl s

theorem eraseSuspended_calm : Calm s (eraseSuspended s) := by
  unfold eraseSuspended
  split
  · exact .ite (fun _ => pump_calm.of (.same rfl)) fun _ => .refl s
  · exact .refl s

theorem stepExpiry_calm : Calm s (stepExpiry s) := .ite (fun _ => .same rfl) fun _ => .refl s

theorem windowExpiry_calm : Calm s (windowExpiry s) := by
  refine .ite (fun _ => pump_calm.of ?_) fun _ => .refl s
  refine .ite (fun _ => ?_) fun _ => ?_
  all_goals exact .same rfl

theorem guardedProgramDone_calm : Calm s (guardedProgramDone s) := by
  unfold guardedProgramDone
  split
  · exact .ite (fun _ => post_calm.of (.same rfl)) fun _ => .refl s
  · exact .refl s

theorem guardedEraseDone_calm : Calm s (guardedEraseDone s) :=
  .ite (fun _ => post_calm.of (.same rfl)) fun _ => .refl s

/-! ### The site line -/

theorem sendReply_calm {k : Byte} {x : Answer} : Calm s (sendReply s k x) := .same rfl

theorem takeFrame_calm {k : Byte} {f : Sys2Proof.Frame} {handle : State → List Byte → State × Answer}
    (h : ∀ m p, Calm m (handle m p).1) : Calm s (takeFrame s k f handle) :=
  .ite (fun _ => .refl s) fun _ => .ite (fun _ => .same rfl) fun _ =>
    .ite (fun _ => sendReply_calm.of ((h _ _).of (.same rfl))) fun _ => .same rfl

theorem withLength_calm {k : Nat} {handle : State → List Byte → State × Answer}
    (h : ∀ m p, Calm m (handle m p).1) (m : State) (p : List Byte) : Calm m (withLength k handle m p).1 := by
  unfold withLength
  split_ifs
  exacts [h m p, .refl m]

theorem readOnly_calm {read : State → List Byte → Answer} (m : State) (p : List Byte) :
    Calm m (readOnly read m p).1 := .refl m

theorem handlePoll_calm (m : State) (p : List Byte) : Calm m (handlePoll m p).1 := by
  unfold handlePoll
  split
  exacts [.same rfl, .same rfl, .refl m, .refl m]

theorem Calm.itePair {α : Type} {c : Prop} [Decidable c] {x y : State × α} (h : c → Calm s x.1)
    (k : ¬c → Calm s y.1) : Calm s (if c then x else y).1 := by
  split_ifs with hc
  exacts [h hc, k hc]

theorem handleAction_calm (m : State) (p : List Byte) : Calm m (handleAction m p).1 := by
  unfold handleAction
  refine .itePair (fun _ => .refl m) fun _ => .itePair (fun _ => .refl m) fun _ => .itePair (fun _ => .refl m)
    fun _ => .itePair (fun _ => .refl m) fun _ => ?_
  split
  · exact .refl m
  · exact .itePair (fun _ => .refl m) fun _ => .same rfl

theorem handleCancel_calm (m : State) (p : List Byte) : Calm m (handleCancel m p).1 := by
  unfold handleCancel
  split
  exacts [.same rfl, .refl m, .refl m]

theorem handleLamp_calm (m : State) (p : List Byte) : Calm m (handleLamp m p).1 := by
  unfold handleLamp
  split
  · split_ifs
    exacts [transient_calm, .refl m]
  · exact .refl m

theorem handleRestart_calm (m : State) (p : List Byte) : Calm m (handleRestart m p).1 := by
  unfold handleRestart
  split_ifs
  exacts [.refl m, .same rfl]

theorem storeWrite_calm {w : StoreWrite} : Calm s (storeWrite s w).1 := by
  unfold storeWrite
  split
  case h_1 | h_3 => split_ifs <;> exact .same rfl
  all_goals exact .same rfl

theorem takeStore_calm {w : StoreWrite} : Calm s (takeStore s w).1 := by
  unfold takeStore
  split_ifs
  · exact .refl s
  · exact .ite (fun _ => pump_calm.of storeWrite_calm) fun _ => storeWrite_calm

theorem handleUnlock1_calm (m : State) (p : List Byte) : Calm m (handleUnlock1 m p).1 := by
  unfold handleUnlock1
  split_ifs
  exacts [.refl m, takeStore_calm]

theorem handleUnlock2_calm (m : State) (p : List Byte) : Calm m (handleUnlock2 m p).1 := by
  unfold handleUnlock2
  split_ifs
  exacts [.refl m, takeStore_calm]

theorem handleProgram_calm (m : State) (p : List Byte) : Calm m (handleProgram m p).1 := by
  unfold handleProgram
  dsimp only
  split_ifs
  exacts [.refl m, .refl m, .refl m, takeStore_calm]

theorem handleErase_calm (m : State) (p : List Byte) : Calm m (handleErase m p).1 := by
  unfold handleErase
  dsimp only
  split_ifs
  exacts [.refl m, .refl m, .refl m, takeStore_calm]

theorem handleClear_calm (m : State) (p : List Byte) : Calm m (handleClear m p).1 := by
  unfold handleClear
  split_ifs
  exacts [.refl m, takeStore_calm]

theorem handleStatus_calm (m : State) (p : List Byte) : Calm m (handleStatus m p).1 := .same rfl

theorem lineQuiet_calm : Calm s (lineQuiet s) := .ite (fun _ => .same rfl) fun _ => .refl s
theorem startByte_calm : Calm s (startByte s) := .ite (fun _ => .same rfl) fun _ => .refl s
theorem frameAbandon_calm : Calm s (frameAbandon s) := .ite (fun _ => .same rfl) fun _ => .refl s
theorem replySent_calm : Calm s (replySent s) := .ite (fun _ => .same rfl) fun _ => .refl s

theorem frameDiscard_calm (kind : Byte) (f : Frame) : ∃ t, execFrameDiscard kind f s = .next t ∧ Calm s t :=
  ⟨_, rfl, .ite (fun _ => .same rfl) fun _ => .refl s⟩

/-! ### Loads -/

theorem replaceBank_calm {old : Tables} : Calm s (replaceBank old s b) :=
  .ite (fun _ => enterResetting_calm) fun _ => .ite (fun _ => makeAbsent_calm) fun _ =>
    .ite (fun _ => modBank_calm) fun _ => .refl s

theorem reportLoad_calm {k : LoadCause} {w : LoadResult} {x : Built} {c : Option UnitIx} :
    Calm s (reportLoad s k w x c) := post_calm.of (.same rfl)

/-- Reports of units that go with their records are reports no longer (R16). -/
theorem movements_without (gone : UnitIx → Bool) (e : EngEvent) :
    ((e.without gone).toList.map (EngEvent.movements v)).sum ≤ e.movements v := by
  cases e with
  | verified w _ _ | faulted w _ _ | displaced w => cases hg : gone w <;> simp [EngEvent.without, EngEvent.movements, hg]
  | removed us _ =>
    simp only [EngEvent.without, EngEvent.movements, Option.toList_some, List.map_cons, List.map_nil, List.sum_cons,
      List.sum_nil, Nat.add_zero]
    exact List.filter_sublist.count_le v
  | observed w _ _ => cases hg : gone w <;> simp [EngEvent.without, EngEvent.movements, hg]
  | reconcile | stall | resetDone => simp [EngEvent.without, EngEvent.movements]

theorem movements_filterMap_without (gone : UnitIx → Bool) (l : List EngEvent) :
    ((l.filterMap (EngEvent.without gone)).map (EngEvent.movements v)).sum ≤ (l.map (EngEvent.movements v)).sum := by
  induction l with
  | nil => exact le_rfl
  | cons e l ih =>
    have he := movements_without (v := v) gone e
    rw [List.filterMap_cons]
    split <;> simp_all <;> omega

/-- Without a conflict no unit whose kind changes has a holder (R15). -/
theorem holder_of_conflict_none {new : Tables} (h : s.conflict new = none) (hc : s.kindChanges new u = true) :
    (s.unit u).holder = none := by
  have := List.find?_eq_none.1 h u (List.mem_finRange u)
  simp only [hc, Bool.true_and, Bool.not_eq_true, Bool.or_eq_false_iff] at this
  simpa using this.1

theorem freshUnits_unit (new : Tables) (v : UnitIx) : (freshUnits s new).unit v =
    if s.kindChanges new v then UnitRec.cold (steadyLamp (new.unitMap.get v).kind .free) else s.unit v :=
  tabulate_get _ _ _

theorem freshUnits_kept (new : Tables) : (freshUnits s new).drive = s.drive ∧ (freshUnits s new).bands = s.bands ∧
    ∀ v, (freshUnits s new).reports v = s.reports v := by
  unfold freshUnits State.reports
  exact ⟨rfl, rfl, fun _ => rfl⟩

theorem freshUnits_calm {new : Tables} (h : s.conflict new = none) : Calm s (freshUnits s new) := by
  have hu := freshUnits_unit (s := s) new
  obtain ⟨hd, hb, hr⟩ := freshUnits_kept (s := s) new
  refine ⟨by rw [hd]; exact id, fun v => ?_, holdingsOk_congr hb fun v => ?_⟩
  · have hf : (freshUnits s new).deferrals v ≤ s.deferrals v := by
      rw [deferrals_eq (hu v)]
      by_cases hc : s.kindChanges new v = true
      · simp [hc, UnitRec.cold]
      · rw [if_neg hc, deferrals_eq rfl]
    rw [movements_of hd rfl (hr v), movements_eq s]
    omega
  · rw [hu v]
    by_cases hc : s.kindChanges new v = true
    · rw [if_pos hc, holder_of_conflict_none h hc]
      rfl
    · rw [if_neg hc]

theorem setInbox_calm {l : List EngEvent} (h : ∀ v, (l.map (EngEvent.movements v)).sum ≤ s.reports v) :
    Calm s (s.setInbox l) :=
  .of_eq rfl rfl (fun _ => ⟨rfl, rfl⟩) h

theorem withTables_calm {new : Tables} : Calm s { s with tables := new } := .same rfl

/-- A replacement is made without a conflict, so that no holder goes (R15, R16). -/
theorem replaceSet_calm {new : Tables} (h : s.conflict new = none) : Calm s (replaceSet s new) := by
  have hf : Calm s (s.renewed new) := (freshUnits_calm h).trans withTables_calm
  have hb : Calm s (s.rebanked new) := (Calm.foldl allBanks (fun _ _ => replaceBank_calm) (s.renewed new)).of hf
  rw [replaceSet_eq]
  exact (setInbox_calm fun v => movements_filterMap_without _ _).of hb

theorem judgeLoad_calm {k : LoadCause} {x : Built} : Calm s (judgeLoad s k x).1 := by
  unfold judgeLoad
  split
  · exact reportLoad_calm
  · exact reportLoad_calm.of (replaceSet_calm ‹_›)

theorem restartBanks_calm : Calm s (restartBanks s) := by
  have h : Calm s (allBanks.foldl
      (fun t b => if 0 < (t.bankRec b).nodeCount then enterResetting t b else makeAbsent t b) s) :=
    Calm.foldl _ (fun _ _ => .ite (fun _ => enterResetting_calm) fun _ => makeAbsent_calm) s
  unfold restartBanks
  generalize allBanks.foldl _ s = m at h
  exact h.trans (.same rfl)

/-- A state whose Actuation Queue is empty, and whose units hold no deferred op, has what is reported in hand alone. -/
theorem movements_of_cleared (hd : t.drive = ⟨[], [], [], []⟩) (hu : (t.unit v).deferred = none) :
    t.movements v = t.reports v := by
  rw [movements_of hd (deferrals_eq rfl) rfl, hu]
  simp

/-- Nobody holds a unit, and the Band Index is empty. -/
theorem holdingsOk_of_empty (hb : t.bands = []) (hu : ∀ v, (t.unit v).holder = none) : HoldingsOk t := by
  refine ⟨by simp [hb], by simp [hb], fun v x => ?_⟩
  rw [hu, hb]
  simp [heldBy, bandEntry]

theorem firstSet_unit (new : Tables) (v : UnitIx) : (firstSet s new).unit v =
    UnitRec.cold (steadyLamp (new.unitMap.get v).kind .free) :=
  tabulate_get _ _ _

theorem firstSet_kept (new : Tables) : (firstSet s new).drive = ⟨[], [], [], []⟩ ∧ (firstSet s new).bands = [] ∧
    ∀ v, (firstSet s new).reports v = s.reports v := by
  unfold firstSet State.reports
  exact ⟨rfl, rfl, fun _ => rfl⟩

theorem firstSet_calm {new : Tables} : Calm s (firstSet s new) := by
  have hu := firstSet_unit (s := s) new
  obtain ⟨hd, hb, hr⟩ := firstSet_kept (s := s) new
  refine ⟨fun _ => by rw [hd]; exact Nat.zero_le _, fun v => ?_, fun _ => holdingsOk_of_empty hb fun v => by rw [hu]; rfl⟩
  rw [movements_of_cleared hd (by rw [hu]; rfl), movements_eq, hr]
  exact Nat.le_add_left _ _

theorem loadEnd_calm : Calm s (loadEnd s) := by
  unfold loadEnd
  split
  · exact .refl s
  · refine pump_calm.of ?_
    have h := (reportLoad_calm (k := .cold) (w := (s.built .cold).cuts.result) (x := s.built .cold) (c := none)).of
      (firstSet_calm (s := s) (new := (s.built .cold).tables))
    exact h.trans (.same rfl)
  · exact pump_calm.of (restartBanks_calm.of judgeLoad_calm)
  · exact pump_calm.of (endAction_calm.of judgeLoad_calm)

/-! ### Start-up and restart -/

theorem deassert_calm {rate : Bool} {addr : BitVec 5} : Calm s (deassert s rate addr) :=
  .ite (fun _ => .same rfl) fun _ => .refl s

/-- Units bound one after another, in any order, are in the Band Index as they have holders (R126). -/
theorem IndexOk.index (holder : UnitIx → Option Band) {us : List UnitIx} (hn : us.Nodup) {l : List BandEntry}
    {g : UnitIx → Option Band} (hg : ∀ u ∈ us, g u = none) (h : IndexOk l g) :
    IndexOk (us.foldl (fun l u => match holder u with
      | some b => bindUnit l b u 0 0
      | none => l) l) fun u => if u ∈ us then holder u else g u := by
  induction us generalizing l g with
  | nil => simpa using h
  | cons u us ih =>
    obtain ⟨hu, hn⟩ := List.nodup_cons.1 hn
    have tail : ∀ f : UnitIx → Option Band, f u = holder u → (∀ v, v ≠ u → f v = g v) →
        (fun v => if v ∈ u :: us then holder v else g v) = fun v => if v ∈ us then holder v else f v := by
      intro f hfu hfo
      funext v
      by_cases hv : v = u
      · subst hv
        simp [hu, hfu]
      · simp [hv, hfo v hv]
    rw [List.foldl_cons]
    cases hb : holder u with
    | none =>
      rw [tail g (by rw [hb, hg u (by simp)]) fun _ _ => rfl]
      exact ih hn (fun w hw => hg w (by simp [hw])) h
    | some b =>
      rw [tail (Function.update g u (some b)) (by simp [hb]) fun v hv => by simp [hv]]
      refine ih hn (fun w hw => ?_) (h.bind (hg u (by simp)))
      rw [Function.update_of_ne (fun (e : w = u) => hu (e ▸ hw)), hg w (by simp [hw])]

/-- The Band Index of a set of units is one relation with their holders (R126). -/
theorem indexOf_indexOk (units : Vector UnitRec 512) : IndexOk (indexOf units) fun u => (units.get u).holder := by
  have h := IndexOk.index (l := []) (fun u => (units.get u).holder) (List.nodup_finRange 512)
    (g := fun _ => none) (fun _ _ => rfl) ⟨.nil, by simp, by simp [heldBy, bandEntry]⟩
  have hf : (fun u : UnitIx => if u ∈ List.finRange 512 then (units.get u).holder else none) =
      fun u => (units.get u).holder := by
    funext u
    rw [if_pos (List.mem_finRange u)]
  rw [hf] at h
  exact h

theorem restoreUnit_deferred (x : UnitRec) (k : Restored) : (restoreUnit x k).deferred = x.deferred := by
  unfold restoreUnit
  dsimp only
  split <;> rfl

/-- An operation that leaves the Drive Scheduler and deferred ops alone, and brings no report. -/
theorem Calm.of_units (hd : t.drive = s.drive) (hu : ∀ v, (t.unit v).deferred = (s.unit v).deferred)
    (hi : ∀ v, t.reports v ≤ s.reports v) (hh : HoldingsOk s → HoldingsOk t) : Calm s t where
  used := by rw [hd]; exact id
  count v := by
    rw [movements_eq, movements_eq, State.deferrals, State.deferrals, hd, hu v]
    exact Nat.add_le_add_left (hi v) _
  holdings := hh

/-- Replay makes the Band Index of the holders it restores (R125, R126). -/
theorem restored_calm {units : Vector UnitRec 512} {j : Journal} {x : StartUp}
    (hd : ∀ v, (units.get v).deferred = (s.unit v).deferred) :
    Calm s { s with units := units, bands := indexOf units, journal := j, startUp := x } := by
  have hi := indexOf_indexOk units
  generalize indexOf units = l at hi
  exact .of_units rfl hd (fun _ => le_rfl) fun _ => holdingsOk_iff.2 hi

theorem startBanks_calm : Calm s (startBanks s) :=
  Calm.foldl _ (fun _ _ => .ite (fun _ => enterResetting_calm) fun _ => .refl _) s

theorem replay_calm : Calm s (replay s) := by
  have hd : ∀ v, ((tabulate 512 fun u => if s.kind u = .locker then restoreUnit (s.unit u) (s.restored.get u)
      else s.unit u).get v).deferred = (s.unit v).deferred := by
    intro v
    rw [tabulate_get]
    split_ifs
    exacts [restoreUnit_deferred _ _, rfl]
  unfold replay
  refine .ite (fun _ => .refl s) fun _ => ?_
  dsimp only
  refine pump_calm.of (startBanks_calm.of ?_)
  split
  · exact .ite (fun _ => (openNext_quiet _ _).calm.of (restored_calm hd)) fun _ => restored_calm hd
  · exact restored_calm hd

theorem quiesce_calm : Calm s (quiesce s) := .ite (fun _ => .same rfl) fun _ => .refl s
theorem drained_calm : Calm s (drained s) := .ite (fun _ => .same rfl) fun _ => .refl s

theorem abortPending_calm : Calm s (abortPending s) := by
  unfold abortPending
  split
  · exact .refl s
  · exact post_calm.of (.same rfl)

theorem clearTaps_calm : Calm s (clearTaps s) := .same rfl

theorem clearMovements_unit (v : UnitIx) :
    (clearMovements s).unit v = (s.unit v).cleared (s.cutUnits.contains v) :=
  tabulate_get _ _ _

theorem clearMovements_kept : (clearMovements s).drive = ⟨[], [], [], []⟩ ∧ (clearMovements s).bands = s.bands ∧
    (clearMovements s).engine.inbox = s.engine.inbox.filter EngEvent.isStall := by
  unfold clearMovements
  exact ⟨rfl, rfl, rfl⟩

/-- The clearing step leaves nothing in hand (R85, R181). -/
theorem clearMovements_calm : Calm s (clearMovements s) := by
  have hu := clearMovements_unit (s := s)
  obtain ⟨hd, hb, hi⟩ := clearMovements_kept (s := s)
  refine ⟨fun _ => by rw [hd]; exact Nat.zero_le _, fun v => ?_, holdingsOk_congr hb fun v => by rw [hu]; rfl⟩
  rw [movements_of_cleared hd (by rw [hu]; rfl), movements_eq]
  have hr : (clearMovements s).reports v ≤ s.reports v := by
    rw [State.reports, hi]
    exact List.Sublist.sum_le_sum (List.filter_sublist.map _) fun _ _ => Nat.zero_le _
  omega

theorem clearing_calm : Calm s (clearing s) :=
  abortPending_calm.of (endAction_calm.of ((Calm.foldl _ (fun _ _ => followUp_calm fun h => by cases h) _).of
    (clearMovements_calm.of clearTaps_calm)))

theorem settle_calm : Calm s (settle s) := by
  have h : Calm s (clearing { s with mgmt := s.mgmt.settled }) := clearing_calm.of (.same rfl)
  exact .ite (fun _ => h.trans (.same rfl)) fun _ => .refl s

theorem coldState_calm {supply : Bool} : Calm s (coldState s supply) := by
  have hu : ∀ v, (coldState s supply).unit v = UnitRec.cold .off := fun v => Vector.get_replicate _ _ v
  refine ⟨fun _ => Nat.zero_le _, fun v => ?_, fun _ => holdingsOk_of_empty rfl fun v => by rw [hu]; rfl⟩
  rw [movements_of_cleared rfl (by rw [hu]; rfl)]
  exact Nat.zero_le _

theorem supplyLoss_calm : Calm s (supplyLoss s) := .ite (fun _ => coldState_calm) fun _ => .refl s

/-! ### The commands -/

/-- Every command keeps one movement at most for each unit, and the Band Index in step with the holders. -/
theorem exec_upholds (i : Instr) (s : State) : ∃ t, exec i s = .next t ∧ Upholds s t := by
  cases i with
  | coldStart => exact ⟨_, rfl, coldState_calm.upholds⟩
  | supplyLoss => exact ⟨_, rfl, supplyLoss_calm.upholds⟩
  | tableLoadEnd => exact ⟨_, rfl, loadEnd_calm.upholds⟩
  | resetDeasserted => exact ⟨_, rfl, deassert_calm.upholds⟩
  | journalReplay => exact ⟨_, rfl, replay_calm.upholds⟩
  | evacuateDebounced => exact ⟨_, rfl, evacuateChange_calm.upholds⟩
  | serviceKeyDebounced => exact ⟨_, rfl, serviceKeyChange_calm.upholds⟩
  | evacuationStart => exact ⟨_, rfl, (takeChange_upholds fun _ => startEvacuation_upholds)⟩
  | evacuationEnd => exact ⟨_, rfl, (takeChange_upholds fun _ => endEvacuation_upholds)⟩
  | lineQuiet => exact ⟨_, rfl, lineQuiet_calm.upholds⟩
  | startByte => exact ⟨_, rfl, startByte_calm.upholds⟩
  | frameAbandon => exact ⟨_, rfl, frameAbandon_calm.upholds⟩
  | frameDiscard kind f =>
    obtain ⟨t, ht, h⟩ := frameDiscard_calm kind f
    exact ⟨t, ht, h.upholds⟩
  | replySent => exact ⟨_, rfl, replySent_calm.upholds⟩
  | unknownKind => exact ⟨_, rfl, (Calm.ite (fun _ => .refl s) fun _ => takeFrame_calm fun m _ => .refl m).upholds⟩
  | poll => exact ⟨_, rfl, (takeFrame_calm (withLength_calm handlePoll_calm)).upholds⟩
  | readUnit => exact ⟨_, rfl, (takeFrame_calm (withLength_calm readOnly_calm)).upholds⟩
  | readBand => exact ⟨_, rfl, (takeFrame_calm (withLength_calm readOnly_calm)).upholds⟩
  | readZone => exact ⟨_, rfl, (takeFrame_calm (withLength_calm readOnly_calm)).upholds⟩
  | readTable => exact ⟨_, rfl, (takeFrame_calm (withLength_calm readOnly_calm)).upholds⟩
  | action => exact ⟨_, rfl, (takeFrame_calm handleAction_calm).upholds⟩
  | cancel => exact ⟨_, rfl, (takeFrame_calm (withLength_calm handleCancel_calm)).upholds⟩
  | lamp => exact ⟨_, rfl, (takeFrame_calm (withLength_calm handleLamp_calm)).upholds⟩
  | restart => exact ⟨_, rfl, (takeFrame_calm (withLength_calm handleRestart_calm)).upholds⟩
  | storeUnlock1 => exact ⟨_, rfl, (takeFrame_calm handleUnlock1_calm).upholds⟩
  | storeUnlock2 => exact ⟨_, rfl, (takeFrame_calm handleUnlock2_calm).upholds⟩
  | storeProgram => exact ⟨_, rfl, (takeFrame_calm handleProgram_calm).upholds⟩
  | storeErase => exact ⟨_, rfl, (takeFrame_calm handleErase_calm).upholds⟩
  | storeClear => exact ⟨_, rfl, (takeFrame_calm handleClear_calm).upholds⟩
  | storeStatus => exact ⟨_, rfl, (takeFrame_calm (withLength_calm handleStatus_calm)).upholds⟩
  | storeRead => exact ⟨_, rfl, (takeFrame_calm (withLength_calm readOnly_calm)).upholds⟩
  | stepTimerExpiry => exact ⟨_, rfl, stepExpiry_calm.upholds⟩
  | eraseWindowExpiry => exact ⟨_, rfl, windowExpiry_calm.upholds⟩
  | protectedProgramDone => exact ⟨_, rfl, guardedProgramDone_calm.upholds⟩
  | protectedEraseDone => exact ⟨_, rfl, guardedEraseDone_calm.upholds⟩
  | bodyProgramEnd => exact ⟨_, rfl, (programEnd_calm fun _ => endBody_calm).upholds⟩
  | validMarkProgramEnd => exact ⟨_, rfl, (programEnd_calm fun _ => endValid_calm).upholds⟩
  | retiredMarkProgramEnd => exact ⟨_, rfl, (programEnd_calm fun _ => endRetired_calm).upholds⟩
  | eraseProperEnd => exact ⟨_, rfl, eraseProperEnd_calm.upholds⟩
  | eraseSuspended => exact ⟨_, rfl, eraseSuspended_calm.upholds⟩
  | statusCycleDue => exact ⟨_, rfl, statusDue_calm.upholds⟩
  | statusModePassEnd => exact ⟨_, rfl, statusModeEnd_calm.upholds⟩
  | statusDataPassEnd => exact ⟨_, rfl, statusDataEnd_upholds⟩
  | tapReserve => exact ⟨_, rfl, reserve_calm.upholds⟩
  | fetchModePassEnd => exact ⟨_, rfl, fetchModeEnd_calm.upholds⟩
  | fetchDataPassEnd => exact ⟨_, rfl, fetchDataEnd_calm.upholds⟩
  | tapPlace => exact ⟨_, rfl, place_calm.upholds⟩
  | tapRelease => exact ⟨_, rfl, release_calm.upholds⟩
  | bankResetEnd => exact ⟨_, rfl, resetEnd_calm.upholds⟩
  | enumerationPassEnd => exact ⟨_, rfl, enumerationEnd_calm.upholds⟩
  | bankRetry => exact ⟨_, rfl, retry_calm.upholds⟩
  | nodeRead => exact ⟨_, rfl, (Calm.ite (fun _ => .refl s) fun _ => modNode_calm).upholds⟩
  | nodeStallReturn => exact ⟨_, rfl, modNode_calm.upholds⟩
  | nodePulseEnd => exact ⟨_, rfl, modNode_calm.upholds⟩
  | pulseEnd => exact ⟨_, rfl, endPulse_calm.upholds⟩
  | takeTap => exact ⟨_, rfl, takeTap_upholds⟩
  | observation => exact ⟨_, rfl, observation_upholds⟩
  | reconcile => exact ⟨_, rfl, reconcile_upholds⟩
  | verifyResult => exact ⟨_, rfl, verifyResult_upholds⟩
  | faultReport => exact ⟨_, rfl, faultReport_calm.upholds⟩
  | actuationRemoved => exact ⟨_, rfl, actuationRemoved_calm.upholds⟩
  | throwDisplaced => exact ⟨_, rfl, throwDisplaced_calm.upholds⟩
  | journalStallReport => exact ⟨_, rfl, stallReport_calm.upholds⟩
  | warning => exact ⟨_, rfl, warningDue_calm.upholds⟩
  | expiry => exact ⟨_, rfl, expiryDue_upholds⟩
  | graceEnd => exact ⟨_, rfl, graceEndDue_upholds⟩
  | ajarIdle => exact ⟨_, rfl, ajarIdleDue_calm.upholds⟩
  | releaseUnit => exact ⟨_, rfl, accept_upholds fun _ _ => releaseUnitFirst_upholds⟩
  | releaseBand => exact ⟨_, rfl, accept_upholds fun _ _ => releaseBandFirst_calm.upholds⟩
  | releaseBandStep => exact ⟨_, rfl, releaseBandStep_upholds⟩
  | openUnit => exact ⟨_, rfl, accept_upholds fun _ _ => openUnitFirst_upholds⟩
  | setOutOfService => exact ⟨_, rfl, accept_upholds fun _ _ => outOfServiceFirst_calm.upholds⟩
  | returnToService => exact ⟨_, rfl, accept_upholds fun _ _ => returnFirst_upholds⟩
  | clearFault => exact ⟨_, rfl, accept_upholds fun _ _ => clearFaultFirst_upholds⟩
  | extendCabin => exact ⟨_, rfl, accept_upholds fun _ _ => extendFirst_calm.upholds⟩
  | bankCleaning => exact ⟨_, rfl, accept_upholds fun _ _ => cleaningFirst_calm.upholds⟩
  | blockBand => exact ⟨_, rfl, accept_upholds fun _ _ => blockFirst_calm.upholds⟩
  | reloadTables => exact ⟨_, rfl, accept_upholds fun _ _ => reloadFirst_calm.upholds⟩
  | resetBank => exact ⟨_, rfl, accept_upholds fun _ _ => resetBankFirst_calm.upholds⟩
  | resetBankDone => exact ⟨_, rfl, resetBankDone_calm.upholds⟩
  | clearEvacuation => exact ⟨_, rfl, accept_upholds fun _ _ => clearEvacuationFirst_calm.upholds⟩
  | clearEvacuationStep => exact ⟨_, rfl, clearEvacuationStep_upholds⟩
  | actionStepRepeat => exact ⟨_, rfl, stepRepeat_upholds⟩
  | actionOutcome => exact ⟨_, rfl, actionOutcome_calm.upholds⟩
  | restartQuiesced => exact ⟨_, rfl, quiesce_calm.upholds⟩
  | restartJournalDrained => exact ⟨_, rfl, drained_calm.upholds⟩
  | restartStoreSettled => exact ⟨_, rfl, settle_calm.upholds⟩
  | nodeSensorChange => exact ⟨_, rfl, modNode_calm.upholds⟩
  | nodePowerUp => exact ⟨_, rfl, nodeUp_calm.upholds⟩

theorem idle_calm : Calm s (idle s) := .ite (fun _ => .refl s) fun _ => .same rfl

theorem step_upholds (h : step s = .next t) : Upholds s t := by
  unfold step at h
  split at h
  · cases h
    exact idle_calm.upholds
  · rename_i i rest _
    obtain ⟨x, hx, hu⟩ := exec_upholds i { s with pending := rest }
    obtain rfl : t = x := by simpa [h] using hx
    exact hu.of (Calm.upholds (.same rfl))

/-- Settles O6: a movement is handed over for a unit with nothing in hand alone, or in the place of one whose report has
just been taken, and a place is held by what takes it alone; `exec_upholds` over the commands. -/
theorem stepKeepsOneMovement : Obligations.StepKeepsOneMovement := by
  unfold Obligations.StepKeepsOneMovement
  exact fun s t h ht => (step_upholds ht).movements h

/-- Settles O7: a unit joins a band's list as it takes the band for its holder, leaves it as it loses its holder, and the
index is made anew from the holders replay restores; `exec_upholds` over the commands. -/
theorem stepKeepsHoldings : Obligations.StepKeepsHoldings := by
  unfold Obligations.StepKeepsHoldings
  exact fun s t h ht => (step_upholds ht).holdings h

end Sys2Proof.Machine
end

/-! ## Straps, inputs and the clock -/

section
namespace Sys2Proof.Machine

variable {s : State} {n : Nat} {a : List HeldEvent} {c : Clock}

/-! ### A second of the clock (R53) -/

/-- A clock n milliseconds on, n at most 1000. -/
def Clock.later (c : Clock) (n : Nat) : Clock :=
  ⟨c.ms + BitVec.ofNat 32 n, if c.sub + n < 1000 then c.sec else min (c.sec + 1) Config.secondsMax,
    if c.sub + n < 1000 then c.sub + n else c.sub + n - 1000⟩

theorem Clock.later_zero (hs : c.sub < 1000) : c.later 0 = c := by
  simp [Clock.later, hs]

theorem Clock.tick_later (hs : c.sub < 1000) (hn : n < 1000) : (c.later n).tick = c.later (n + 1) := by
  have hms : c.ms + BitVec.ofNat 32 n + 1 = c.ms + BitVec.ofNat 32 (n + 1) := by
    rw [BitVec.add_assoc, BitVec.ofNat_add]
    rfl
  unfold Clock.later Clock.tick
  dsimp only
  rw [hms]
  by_cases h1 : c.sub + n < 1000
  · by_cases h2 : c.sub + n + 1 = 1000
    · have h3 : ¬c.sub + (n + 1) < 1000 := by omega
      simp only [h1, h2, h3, if_true, if_false, Clock.mk.injEq, true_and]
      omega
    · have h3 : c.sub + (n + 1) < 1000 := by omega
      simp only [h1, h2, h3, if_true, if_false, Clock.mk.injEq, true_and]
      omega
  · have h2 : ¬c.sub + n - 1000 + 1 = 1000 := by omega
    have h3 : ¬c.sub + (n + 1) < 1000 := by omega
    simp only [h1, h2, h3, if_false, Clock.mk.injEq, true_and]
    omega

/-! ### Milliseconds in a row -/

/-- The state with another clock and another order of arrival. -/
def State.clocked (s : State) (c : Clock) (a : List HeldEvent) : State :=
  { s with clock := c, engine := { s.engine with arrived := a } }

theorem idle_clocked (hs : s.startUp ≠ .held) : idle (s.clocked c a) = s.clocked c.tick (s.clocked c a).arrivals := by
  have hs' : (s.clocked c a).startUp ≠ .held := hs
  rw [idle, if_neg hs']
  rfl

/-- After n of 1000 milliseconds the clock has counted them, and nothing but the order of arrival has changed besides. -/
theorem iterate_idle (hs : s.startUp ≠ .held) (hsub : s.clock.sub < 1000) (hn : n ≤ 1000) :
    ∃ a, idle^[n] s = s.clocked (s.clock.later n) a := by
  induction n with
  | zero => exact ⟨s.engine.arrived, by rw [Clock.later_zero hsub]; rfl⟩
  | succ n ih =>
    obtain ⟨a, ha⟩ := ih (Nat.le_of_succ_le hn)
    refine ⟨(s.clocked (s.clock.later n) a).arrivals, ?_⟩
    rw [Function.iterate_succ_apply', ha, idle_clocked hs, Clock.tick_later hsub hn]

theorem run_of_step {M : Host.Core} {x y : M.State} (h : M.step x = .next y) : M.run (n + 1) x = M.run n y := by
  conv_lhs => unfold Host.Core.run
  rw [h]

/-- On an empty queue the core lets milliseconds pass. -/
theorem run_idle (hp : s.pending = []) : Host.Core.run Sys2Proof.core n s = .next (idle^[n] s) := by
  induction n generalizing s with
  | zero => rfl
  | succ n ih =>
    have hstep : Sys2Proof.core.step s = .next (idle s) := by
      show step s = _
      unfold step
      split
      · rfl
      · rename_i h
        cases hp.symm.trans h
    have hp' : (idle s).pending = [] := by
      unfold idle
      split_ifs
      exacts [hp, hp]
    rw [Function.iterate_succ_apply, ← ih hp']
    exact run_of_step hstep

/-- A part that takes events, its seconds count beyond its last value, with an AJAR_IDLE event due at that count and a
second about to end. -/
def beyondLast : State :=
  { State.reset with
    startUp := .running, clock := ⟨0, 4294967300, 500⟩, timers := [⟨4294967300, 0, .ajarIdle⟩] }

/-- Refutes O13: of a clock that stands beyond the last value of the seconds count, as no run's does, the next second is
that last value; an AJAR_IDLE event that was due, and noted to have arrived, is due no longer, and its arrival is
forgotten at the milliseconds that follow. -/
theorem not_strapsInputsAndClock : ¬Obligations.StrapsInputsAndClock := by
  unfold Obligations.StrapsInputsAndClock
  rintro ⟨-, -, h⟩
  have hup : beyondLast.startUp ≠ .held := nofun
  obtain ⟨t, hrun, -, -, harr⟩ := (h beyondLast rfl).1 hup (by decide)
  obtain ⟨l, more, hl, ⟨hmem, -⟩, -⟩ := harr ⟨rfl, rfl⟩
  obtain ⟨a, ha⟩ := iterate_idle (s := beyondLast) (n := 999) hup (by decide) (by decide)
  obtain rfl : t = idle (beyondLast.clocked (beyondLast.clock.later 999) a) := by
    rw [run_idle rfl, Function.iterate_succ_apply', ha] at hrun
    exact (Host.Outcome.next.inj hrun).symm
  have hdue : HeldEvent.idle 0 4294967300 ∈ l := (hmem _).2 ⟨List.mem_singleton.2 rfl, le_refl 4294967300⟩
  have harrived : HeldEvent.idle 0 4294967300 ∈ (beyondLast.clocked (beyondLast.clock.later 999) a).arrivals := by
    rw [idle_clocked hup] at hl
    have hmore := List.mem_append_left more hdue
    rwa [← hl] at hmore
  obtain ⟨-, hle⟩ := (mem_arrivals _ ⟨rfl, rfl⟩ _).1 harrived
  have hsec : (beyondLast.clock.later 999).sec = 4294967295 := by decide
  have hlt : 4294967300 ≤ (beyondLast.clock.later 999).sec := hle
  omega

end Sys2Proof.Machine
end

/-! ## ACTION -/

section
namespace Sys2Proof.Machine

variable {s : State} {f : Sys2Proof.Frame} {p : List Byte} {n k : Nat}

/-- The payload lengths of the twelve kinds, in the order of their codes (R183). -/
theorem actionLength_eq (h1 : 1 ≤ k) :
    ([3, 5, 3, 3, 3, 3, 4, 3, 5, 1, 2, 1] : List Nat)[k - 1]? = if k ≤ 12 then some (actionLength k) else none := by
  match k, h1 with
  | 1, _ | 2, _ | 3, _ | 4, _ | 5, _ | 6, _ | 7, _ | 8, _ | 9, _ | 10, _ | 11, _ | 12, _ => rfl
  | _ + 13, _ => simp

theorem actionLength_eq_zero : actionLength k = 0 ↔ k = 0 ∨ 12 < k := by
  match k with
  | 0 | 1 | 2 | 3 | 4 | 5 | 6 | 7 | 8 | 9 | 10 | 11 | 12 => decide
  | _ + 13 => simp [actionLength]

theorem bankIx?_eq_none : bankIx? n = none ↔ 7 < n := by
  unfold bankIx?
  split_ifs with h <;> simp <;> omega

theorem unitIx?_eq_some {u : UnitIx} : unitIx? n = some u ↔ n = u.1 := by
  constructor
  · intro h
    unfold unitIx? at h
    split_ifs at h
    exact congrArg Fin.val (Option.some.inj h)
  · rintro rfl
    exact unitIx?_val u

theorem unitArg?_eq_none : unitArg? s n = none ↔ ∀ u : UnitIx, n = u.1 → s.kind u ≠ .locker ∧ s.kind u ≠ .cabin := by
  simp only [Option.eq_none_iff_forall_ne_some, ne_eq, unitArg?_eq_some, not_and, not_or]

/-- The arguments that fail their check (R149). -/
theorem action?_eq_none (h1 : 1 ≤ field p 0 1) (h12 : field p 0 1 ≤ 12) : action? s p = none ↔
    (field p 0 1 ∈ [1, 3, 4, 5, 6] ∧ ∀ u : UnitIx, field p 1 2 = u.1 → s.kind u ≠ .locker ∧ s.kind u ≠ .cabin) ∨
    (field p 0 1 = 7 ∧ ((∀ u : UnitIx, field p 1 2 = u.1 → s.kind u ≠ .cabin) ∨ field p 3 1 = 0 ∨ 30 < field p 3 1)) ∨
    (field p 0 1 = 8 ∧ (7 < field p 1 1 ∨ 1 < field p 2 1)) ∨ (field p 0 1 = 11 ∧ 7 < field p 1 1) := by
  have named : ∀ {g : UnitIx → Action}, (unitArg? s (field p 1 2)).map g = none ↔
      ∀ u : UnitIx, field p 1 2 = u.1 → s.kind u ≠ .locker ∧ s.kind u ≠ .cabin := by
    intro g
    rw [Option.map_eq_none_iff, unitArg?_eq_none]
  have extends_ : (if 1 ≤ field p 3 1 ∧ field p 3 1 ≤ 30 then
        ((unitIx? (field p 1 2)).filter fun u => s.kind u = .cabin).map fun u => Action.extendCabin u (field p 3 1)
      else none) = none ↔
      (∀ u : UnitIx, field p 1 2 = u.1 → s.kind u ≠ .cabin) ∨ field p 3 1 = 0 ∨ 30 < field p 3 1 := by
    split_ifs with hm
    · rw [Option.map_eq_none_iff, Option.filter_eq_none_iff]
      simp only [unitIx?_eq_some, decide_eq_true_eq]
      constructor
      · exact .inl
      · rintro (h | h | h)
        exacts [h, by omega, by omega]
    · simp only [true_iff]
      omega
  unfold action?
  generalize field p 0 1 = k at h1 h12 ⊢
  match k, h1, h12 with
  | 1, _, _ | 3, _, _ | 4, _, _ | 5, _, _ | 6, _, _ => simpa [-Option.map_eq_none_iff] using @named _
  | 7, _, _ => simpa using extends_
  | 8, _, _ =>
    match field p 2 1 with
    | 0 | 1 => simp [bankIx?_eq_none]
    | _ + 2 => simp
  | 11, _, _ => simpa using bankIx?_eq_none
  | 2, _, _ | 9, _, _ | 10, _, _ | 12, _, _ => simp

/-- ACTION as the cases of R148, in order. -/
theorem handleAction_busy (h : s.restart ≠ none) : handleAction s p = (s, .nak .busy) :=
  if_pos (Option.isSome_iff_ne_none.2 h)

theorem handleAction_empty (h : s.restart = none) (hp : p = []) : handleAction s p = (s, .nak .badLength) := by
  simp [handleAction, h, hp]

theorem handleAction_unknown (h : s.restart = none) (hp : p ≠ []) (hk : field p 0 1 = 0 ∨ 12 < field p 0 1) :
    handleAction s p = (s, .nak .badArgument) := by
  simp [handleAction, h, hp, actionLength_eq_zero.2 hk]

theorem handleAction_length (h : s.restart = none) (hp : p ≠ []) (hk : actionLength (field p 0 1) ≠ 0)
    (hl : p.length ≠ actionLength (field p 0 1)) : handleAction s p = (s, .nak .badLength) := by
  simp [handleAction, h, hp, hk, hl]

theorem handleAction_argument (h : s.restart = none) (hk : actionLength (field p 0 1) ≠ 0)
    (hl : p.length = actionLength (field p 0 1)) (ha : action? s p = none) :
    handleAction s p = (s, .nak .badArgument) := by
  have hp : p ≠ [] := fun e => hk (by rw [← hl, e]; rfl)
  simp [handleAction, h, hp, hk, hl, ha]

theorem handleAction_pending {a : Action} (h : s.restart = none) (hk : actionLength (field p 0 1) ≠ 0)
    (hl : p.length = actionLength (field p 0 1)) (ha : action? s p = some a) (hs : s.engine.pendingSlot ≠ none) :
    handleAction s p = (s, .nak .busy) := by
  have hp : p ≠ [] := fun e => hk (by rw [← hl, e]; rfl)
  simp [handleAction, h, hp, hk, hl, ha, Option.isSome_iff_ne_none.2 hs]

theorem handleAction_accepted {a : Action} (h : s.restart = none) (hk : actionLength (field p 0 1) ≠ 0)
    (hl : p.length = actionLength (field p 0 1)) (ha : action? s p = some a) (hs : s.engine.pendingSlot = none) :
    handleAction s p = ({ s with engine := { s.engine with
      pendingSlot := some a, tapAhead := false, held := s.engine.held.filter (· ≠ .accept), arrived := s.arrivals } },
      .ack) := by
  have hp : p ≠ [] := fun e => hk (by rw [← hl, e]; rfl)
  unfold handleAction
  rw [if_neg (by simp [h]), if_neg hp, if_neg hk, if_neg (not_not.2 hl), ha]
  exact if_neg (by simp [hs])

/-- Settles O30, by the cases of R148 in order. -/
theorem actionFrame : Obligations.ActionFrame := by
  unfold Obligations.ActionFrame
  intro f s ha p kind n lengths refused
  have he : exec (.action f) s = .next (sendReply (handleAction (fillBuffer s 0x06 f) p).1 0x06
      (handleAction (fillBuffer s 0x06 f) p).2) :=
    congrArg Host.Outcome.next (ha.takeFrame _)
  have naks : ∀ {why}, handleAction (fillBuffer s 0x06 f) p = (fillBuffer s 0x06 f, .nak why) → refused why := by
    intro why h
    show exec (.action f) s = _
    rw [he, h]
    exact congrArg Host.Outcome.next (sendReply_fillBuffer_nak why)
  have hlen : 1 ≤ kind → lengths[kind - 1]? = some p.length →
      kind ≤ 12 ∧ actionLength kind ≠ 0 ∧ p.length = actionLength kind := by
    intro h1 hl
    rw [actionLength_eq h1] at hl
    split_ifs at hl with h12
    refine ⟨h12, ?_, (Option.some.inj hl).symm⟩
    rw [ne_eq, actionLength_eq_zero]
    omega
  refine ⟨fun h => naks (handleAction_busy h), fun h hp => naks (handleAction_empty h hp),
    fun h hp hk => naks (handleAction_unknown h hp hk), fun h hp h1 h12 hl => naks (handleAction_length h hp ?_ ?_),
    fun h h1 hl => ?_, fun a h h1 hl hact => ?_⟩
  · rw [ne_eq, actionLength_eq_zero]
    omega
  · intro e
    refine hl ?_
    rw [actionLength_eq h1, if_pos h12, e]
  · obtain ⟨h12, hk, hl⟩ := hlen h1 hl
    exact ⟨fun hn => naks (handleAction_argument h hk hl hn), action?_eq_none h1 h12⟩
  · obtain ⟨-, hk, hl⟩ := hlen h1 hl
    refine ⟨fun hs => naks (handleAction_pending h hk hl hact hs), fun hs => ?_⟩
    refine ⟨s.arrivals, arrivals_order s, arrivals_off s, ?_⟩
    rw [he, handleAction_accepted (s := fillBuffer s 0x06 f) h hk hl hact hs]
    rfl

end Sys2Proof.Machine
end

/-! ## READ-UNIT, READ-BAND and READ-ZONE -/

section
namespace Sys2Proof.Machine

variable {s : State} {f : Sys2Proof.Frame} {u : UnitIx} {a : Actuation} {b : Band}

/-! ### The actuation of a unit (R87) -/

theorem actuationBytes_waiting (h : s.drive.waiting.find? (·.unit = u) = some a) : s.actuationBytes u =
    byte1 a.op.code ++ byte1 a.urgency.code ++ byte1 a.attempt ++ byte1 1 ++ (1 :: byte1 (s.drive.position u)) ++
      [0, 0, 0] := by
  unfold State.actuationBytes
  rw [h]
  simp [optBytes, flagByte]

theorem actuationBytes_granted (hw : s.drive.waiting.find? (·.unit = u) = none)
    (h : s.drive.granted.find? (·.unit = u) = some a) : s.actuationBytes u =
    byte1 a.op.code ++ byte1 a.urgency.code ++ byte1 a.attempt ++ byte1 2 ++ [0] ++ flagByte a.delivered ++
      optBytes a.current byte2 ++
      optBytes (if a.delivered then a.pulseEnd else none) fun t => byte4 (Millis.left s.clock.ms t) := by
  unfold State.actuationBytes
  rw [hw, h]
  simp [optBytes]

theorem actuationBytes_awaiting (hw : s.drive.waiting.find? (·.unit = u) = none)
    (hg : s.drive.granted.find? (·.unit = u) = none) (h : s.drive.awaiting.find? (·.unit = u) = some a) :
    s.actuationBytes u =
      byte1 a.op.code ++ byte1 a.urgency.code ++ byte1 a.attempt ++ byte1 3 ++ [0, 0, 0, 0] := by
  unfold State.actuationBytes
  rw [hw, hg, h]
  simp [optBytes, flagByte]

theorem actuationBytes_none (h : s.actuating u = false) : s.actuationBytes u = [0, 0, 0, 0, 0, 0, 0, 0] := by
  have hn : ∀ l : List Actuation, (l.any fun x => decide (x.unit = u)) = false →
      (l.find? fun x => decide (x.unit = u)) = none := by
    intro l hl
    rw [List.find?_eq_none]
    simpa using hl
  simp only [State.actuating, Bool.or_eq_false_iff] at h
  unfold State.actuationBytes
  rw [hn _ h.1.1, hn _ h.1.2, hn _ h.2]

/-- The unit's actuation is the first of it in the waiting list, and what stands ahead of it is its place (R87). -/
theorem find_waiting {before behind : List Actuation} (h : s.drive.waiting = before ++ a :: behind) (ha : a.unit = u)
    (hb : ∀ x ∈ before, x.unit ≠ u) :
    s.drive.waiting.find? (·.unit = u) = some a ∧ s.drive.position u = before.length := by
  have htake : before.takeWhile (fun x => decide (x.unit ≠ u)) = before :=
    List.takeWhile_eq_self_iff.2 fun x hx => by simpa using hb x hx
  refine ⟨?_, ?_⟩
  · rw [h, List.find?_append, List.find?_eq_none.2 fun x hx => by simpa using hb x hx]
    simp [ha]
  · unfold Drive.position
    rw [h, List.takeWhile_append, htake, if_pos rfl]
    simp [ha]

/-! ### The frames -/

theorem readUnit_replies {x : Answer} (h : Arrives s 0x02 f) (hl : f.payload.length = 2) (ha : answerUnit s f.payload = x) :
    exec (.readUnit f) s = .next (sendReply (fillBuffer s 0x02 f) 0x02 x) := by
  refine congrArg Host.Outcome.next ((h.takeFrame _).trans ?_)
  rw [withLength_of_length _ hl, ← ha]
  rfl

theorem readBand_replies {x : Answer} (h : Arrives s 0x03 f) (hl : f.payload.length = 4) (ha : answerBand s f.payload = x) :
    exec (.readBand f) s = .next (sendReply (fillBuffer s 0x03 f) 0x03 x) := by
  refine congrArg Host.Outcome.next ((h.takeFrame _).trans ?_)
  rw [withLength_of_length _ hl, ← ha]
  rfl

theorem readZone_replies {x : Answer} (h : Arrives s 0x04 f) (hl : f.payload.length = 1) (ha : answerZone s f.payload = x) :
    exec (.readZone f) s = .next (sendReply (fillBuffer s 0x04 f) 0x04 x) := by
  refine congrArg Host.Outcome.next ((h.takeFrame _).trans ?_)
  rw [withLength_of_length _ hl, ← ha]
  rfl

theorem bytesNat_byte4 (b : Band) : bytesNat (byte4 b.toNat) = b.toNat := by
  have := b.isLt
  simp only [bytesNat, byte4, byte2, List.cons_append, List.nil_append, List.foldl_cons, List.foldl_nil,
    BitVec.toNat_ofNat]
  omega

theorem Urgency.code_eq (c : Urgency) : c.code = if c = .urgent then 1 else 2 := by cases c <;> rfl

theorem BoltOp.code_eq (o : BoltOp) : o.code = if o = .throw then 1 else 2 := by cases o <;> rfl

theorem optBytes_map {α : Type} (x : Option α) (g : α → List Byte) :
    optBytes x g = match x.map g with | some l => 1 :: l | none => [0] := by cases x <;> rfl

theorem Reason.code_eq (why : Reason) : why.code = 1 + ([.holder, .doorOpen, .idle, .action, .master, .vacated, .expiry,
    .grace, .fault] : List Reason).idxOf why := by cases why <;> rfl

theorem field_band (hp : f.payload = byte4 b.toNat) : BitVec.ofNat 32 (field f.payload 0 4) = b := by
  have hf : field f.payload 0 4 = b.toNat := by
    rw [hp]
    exact bytesNat_byte4 b
  rw [hf, BitVec.ofNat_toNat, BitVec.setWidth_eq]

theorem field_byte {x : Byte} (hp : f.payload = [x]) : field f.payload 0 1 = x.toNat := by
  rw [hp]
  simp [field, bytesNat]

/-- Settles O27: each part of the replies in its order, and the actuation by where it stands. -/
theorem unitBandAndZoneReplies : Obligations.UnitBandAndZoneReplies := by
  unfold Obligations.UnitBandAndZoneReplies
  refine ⟨fun f s ha hl => ⟨fun u hu => ?_, fun hu => ?_⟩, fun f s b ha hp => ⟨fun hn => ?_, fun e he => ?_⟩,
    fun f s x ha hp => ⟨fun z hz => ?_, fun hx => ?_⟩⟩
  · intro r k c flag opt op urgency ref first record cell times m chain moves at' answers
    have hopt : ∀ {α : Type} (x : Option α) (g : α → List Byte), optBytes x g = opt (x.map g) := fun x g => by
      cases x <;> rfl
    have hop : ∀ o : BoltOp, o.code = op o := BoltOp.code_eq
    have hurgency : ∀ x : Urgency, x.code = urgency x := Urgency.code_eq
    have hflag : ∀ x : Bool, flagByte x = flag x := fun _ => rfl
    have hrecord : s.recordBytes u = first ++ record ++ cell := by
      have hpurpose : ((r.purpose.map (·.code)).getD 0 = match r.purpose with
          | none => 0 | some (.release _) => 1 | some .keep => 2 | some .service => 3) := by
        rcases r.purpose with _ | _ | _ | _ <;> rfl
      have hreason : ((r.purpose.map (·.reasonCode)).getD 0 = match r.purpose with
          | some (.release why) => 1 + ([.holder, .doorOpen, .idle, .action, .master, .vacated, .expiry, .grace,
              .fault] : List Reason).idxOf why
          | _ => 0) := by
        rcases r.purpose with _ | why | _ | _
        exacts [rfl, Reason.code_eq why, rfl, rfl]
      have hdeferred : ∀ tail, byte1 ((r.deferred.map (·.1.code)).getD 0) ++
          (byte1 ((r.deferred.map (·.2.code)).getD 0) ++ tail) =
          (match r.deferred with | some d => byte1 (op d.1) ++ byte1 (urgency d.2) | none => [0, 0]) ++ tail := fun tail => by
        rw [← List.append_assoc]
        rcases r.deferred with _ | ⟨o, x⟩
        · rfl
        · show byte1 o.code ++ byte1 x.code ++ tail = _
          rw [hop, hurgency]
      unfold State.recordBytes
      simp only [hopt, hflag, List.append_assoc, first, record, cell]
      rw [hpurpose, hreason, hdeferred]
      rfl
    have htimes : s.timeBytes u = times := by
      have hkind : ∀ e : TimerEntry, e.kind.code = match e.kind with
          | .warning => 1 | .expiry => 2 | .graceEnd => 3 | .ajarIdle => 4 := fun e => by cases e.kind <;> rfl
      unfold State.timeBytes
      simp only [hopt, hkind]
      rfl
    have hchain : s.chainBytes u = chain := by
      unfold State.chainBytes
      simp only [hopt, hflag]
      rfl
    have key : ∀ l, s.actuationBytes u = l → answers l := by
      intro l hact
      have hanswer : answerUnit s f.payload = .reply (first ++ record ++ cell ++ times ++ l ++ chain) := by
        rw [answerUnit, hu, unitIx?_val, ← hrecord, ← htimes, ← hact, ← hchain]
      exact (readUnit_replies ha hl hanswer).trans rfl
    have hmoves : ∀ (a : Actuation) (n : Nat),
        byte1 a.op.code ++ byte1 a.urgency.code ++ byte1 a.attempt ++ byte1 n = moves a n := fun a n => by
      rw [hop, hurgency]
    refine ⟨fun before a behind hw hau hb => key _ ?_, fun a hw hg => key _ ?_, fun a hw hg hv => key _ ?_,
      fun hn => key _ (actuationBytes_none hn)⟩
    · obtain ⟨hfind, hpos⟩ := find_waiting hw hau hb
      rw [actuationBytes_waiting hfind, hmoves, hpos]
      rfl
    · rw [actuationBytes_granted hw hg, hmoves, hopt]
      cases hdel : a.delivered with
      | true => cases hend : a.pulseEnd <;> simp [optBytes, flagByte, flag, Millis.left, reached]
      | false => simp [optBytes, flagByte, flag]
    · rw [actuationBytes_awaiting hw hg hv, hmoves]
  · refine (readUnit_replies ha hl (x := .nak .badArgument) ?_).trans (congrArg Host.Outcome.next (sendReply_fillBuffer_nak _))
    rw [answerUnit, unitIx?_none hu]
  · have hanswer : answerBand s f.payload = .reply (byte4 b.toNat ++ [0]) := by
      rw [answerBand, field_band hp, bandEntry_eq_none.2 hn]
    exact (readBand_replies ha (by rw [hp]; rfl) hanswer).trans rfl
  · intro p
    have hanswer : answerBand s f.payload = .reply p := by
      have hentry : bandEntry s.bands b = some e := by
        rw [← he]
        exact congrArg (s.bands.find? ·) (funext fun e => beq_eq_decide _ _)
      rw [answerBand, field_band hp, hentry]
      rfl
    exact (readBand_replies ha (by rw [hp]; rfl) hanswer).trans rfl
  · intro occupied p
    have hanswer : answerZone s f.payload = .reply p := by
      rw [answerZone, field_byte hp, hz, ix16?_val]
      show Answer.reply _ = .reply ([x] ++ _ ++ _ ++ _)
      have hx : byte1 z.1 = [x] := by
        rw [← hz, byte1, BitVec.ofNat_toNat, BitVec.setWidth_eq]
      have hocc : s.occupancy z = occupied := by
        rw [State.occupancy, State.cabins, List.filter_filter]
        refine congrArg List.length (List.filter_congr fun v _ => ?_)
        exact (Bool.and_comm _ _).trans (Bool.decide_and _ _).symm
      rw [hx, hocc]
    exact (readZone_replies ha (by rw [hp]; rfl) hanswer).trans rfl
  · refine (readZone_replies ha (by rw [hp]; rfl) (x := .nak .badArgument) ?_).trans
      (congrArg Host.Outcome.next (sendReply_fillBuffer_nak _))
    rw [answerZone, field_byte hp, ix16?_none (by omega)]

end Sys2Proof.Machine
end

/-! ## What the bank controllers do at due times -/

section
namespace Sys2Proof.Machine

variable {s : State} {b : BankIx} {f g : Bank → Bank}

theorem modBank_modBank : (s.modBank b f).modBank b g = s.modBank b fun k => g (f k) := by
  simp [State.modBank]

theorem modBank_bank_self : (s.modBank b f).bank b = f (s.bank b) := setBank_bank_self s b _

/-- A status cycle begins (R96, R99, R100): the pass counter, the activity and the nodes. -/
theorem beginStatus_eq (s : State) (b : BankIx) (due : Millis) : beginStatus s b due =
    (s.modBank b fun k => { k with
      cycleBegun := due, passCount := k.passCount + 1, activity := .statusMode (s.statusModes b) }).setChain b
        (chainEdges (s.chain b) [false, true]) := by
  unfold beginStatus beginMode
  rw [modBank_modBank]
  rfl

theorem reached_iff {m t : Millis} : reached m t = true ↔ (m - t).toNat < 2147483648 := decide_eq_true_iff

/-- STATUS_CYCLE_DUE of a RUNNING bank with its chain idle (R99). -/
theorem statusDue_begins (hr : (s.bank b).state = .running) (hn : s.restart = none)
    (hd : (s.clock.ms - (s.bank b).cycleDue).toNat < 2147483648) (hi : (s.bank b).activity = .idle) :
    statusDue s b = (s.setBank b { s.bank b with
      cycleDue := after (s.bank b).cycleDue (s.bankRec b).sweep, cycleBegun := (s.bank b).cycleDue
      passCount := (s.bank b).passCount + 1, activity := .statusMode (s.statusModes b) }).setChain b
        (chainEdges (s.chain b) [false, true]) := by
  unfold statusDue
  dsimp only
  rw [if_pos ⟨hr, hn, reached_iff.mpr hd⟩, if_pos hi, beginStatus_eq, modBank_modBank]
  rfl

/-- STATUS_CYCLE_DUE of a RUNNING bank with its chain busy (R99). -/
theorem statusDue_owes (hr : (s.bank b).state = .running) (hn : s.restart = none)
    (hd : (s.clock.ms - (s.bank b).cycleDue).toNat < 2147483648) (hi : (s.bank b).activity ≠ .idle) :
    statusDue s b = s.setBank b { s.bank b with
      cycleDue := after (s.bank b).cycleDue (s.bankRec b).sweep
      owed := some ((s.bank b).owed.getD (s.bank b).cycleDue) } := by
  unfold statusDue
  dsimp only
  rw [if_pos ⟨hr, hn, reached_iff.mpr hd⟩, if_neg hi, modBank_modBank]
  rfl

/-- BANK_RESET_END (R107, R108). -/
theorem resetEnd_enumerates (hr : (s.bank b).state = .resetting) (hn : s.restart = none)
    (hd : (s.clock.ms - ((s.bank b).resetAt + 10)).toNat < 2147483648) :
    resetEnd s b = (s.setBank b { s.bank b with state := .enumerating, activity := .enumerating }).setChain b
      (chainEdges (s.chain b) [false, false]) := by
  unfold resetEnd
  dsimp only
  rw [if_pos ⟨hr, hn, reached_iff.mpr hd⟩]
  rfl

theorem mem_map_inReset {l : List Node} {n : Node} (h : n ∈ l.map Node.inReset) :
    n.phase = .rest ∧ n.mode = .ident ∧ n.pulse = none ∧ n.pulseFrom = none ∧ n.lamp = .off ∧
      n.tapPend = false ∧ n.seq = 0 ∧ n.band = 0 ∧ n.quality = 0 := by
  obtain ⟨m, -, rfl⟩ := List.mem_map.mp h
  exact ⟨rfl, rfl, rfl, rfl, rfl, rfl, rfl, rfl, rfl⟩

/-- Settles O43. -/
theorem banksActAtDueTimes : Obligations.BanksActAtDueTimes := by
  intro s b k come due modes
  refine ⟨fun hr hn hd => ⟨fun hi => ?_, fun hi => ?_⟩, fun h => ?_, fun hr hn hd => ?_, fun h => ?_,
    fun hf hn hd => ?_, fun h => ?_⟩
  · exact congrArg Host.Outcome.next (statusDue_begins hr hn hd hi)
  · exact congrArg Host.Outcome.next (statusDue_owes hr hn hd hi)
  · exact congrArg Host.Outcome.next (if_neg fun ⟨hr, hn, hd⟩ => h ⟨hr, hn, reached_iff.mp hd⟩)
  · exact congrArg Host.Outcome.next (resetEnd_enumerates hr hn hd)
  · exact congrArg Host.Outcome.next (if_neg fun ⟨hr, hn, hd⟩ => h ⟨hr, hn, reached_iff.mp hd⟩)
  · have acts := enterResetting_bankActs (s := s) (b := b)
    have bank := enterResetting_bank s b
    have chain := enterResetting_chain s b
    have left : (s.bank b).state ≠ .running := fun e => by
      have hf : (s.bank b).state = .faulted := hf
      rw [hf] at e
      exact absurd e (by decide)
    have goes : exec (.bankRetry b) s = .next (enterResetting s b) :=
      congrArg Host.Outcome.next (if_pos ⟨hf, hn, reached_iff.mpr hd⟩)
    refine ⟨enterResetting s b, goes, ?_, enterResetting_loses s b, enterResetting_still left, bank,
      fun c hc => ⟨acts.bank c hc, acts.chain c hc⟩, ?_, fun n hn => ?_, enterResetting_tapMemory s b⟩
    · exact acts.frame
    · unfold State.rstHeld
      rw [bank]
      simp [Bank.leave]
    · rw [chain] at hn
      exact mem_map_inReset hn
  · exact congrArg Host.Outcome.next (if_neg fun ⟨hr, hn, hd⟩ => h ⟨hr, hn, reached_iff.mp hd⟩)

end Sys2Proof.Machine
end

/-! ## Releases, and the observations the engine takes -/

section
namespace Sys2Proof.Machine

variable {s : State} {u : UnitIx} {why : Reason} {silent : Bool} {prev new : Cell}

/-! ### Entering a state -/

theorem enter_state (st : UState) : ((enter s u st).unit u).state = st := by rw [enter_unit_self]; rfl

/-! ### The closing of a cabin (R178) -/

/-- Under LEVEL-mode evacuation a closing cabin takes EVAC_OPEN, at once where its bolt is withdrawn. -/
theorem closeCabin_evac (he : s.levelEvac = true) (hb : (s.cell u).bolt = false) :
    closeCabin s u = enter s u .evacOpen := by
  unfold closeCabin
  rw [if_pos he, hb]
  rfl

theorem closeCabin_evacThrown (he : s.levelEvac = true) (hb : (s.cell u).bolt = true) :
    closeCabin s u = handOver (enter s u .evacOpen) u .withdraw .urgent := by
  unfold closeCabin
  rw [if_pos he, if_pos hb]

theorem closeCabin_throws (he : s.levelEvac = false) : closeCabin s u = handOver (enter s u .closing) u .throw .normal := by
  unfold closeCabin
  rw [if_neg (by simp [he])]

/-- A closing cabin is in CLOSING or EVAC_OPEN. -/
theorem closeCabin_state :
    ((closeCabin s u).unit u).state = .closing ∨ ((closeCabin s u).unit u).state = .evacOpen := by
  unfold closeCabin
  split
  · split
    · exact .inr (by rw [handOver_state, enter_state])
    · exact .inr (enter_state _)
  · exact .inl (by rw [handOver_state, enter_state])

/-! ### Releases (R36, R45) -/

/-- A locker's holding ends (R36). -/
theorem releaseLocker_released (h : HoldingsOk s) : LockerReleased s (releaseLocker s u why) u why := by
  have e : releaseLocker s u why = { s with
      units := put s.units u { ((s.unit u).unheld.enters (s.kind u) .free) with purpose := none, journalRef := none }
      bands := (s.unit u).holder.elim s.bands fun b => unbindUnit s.bands b u
      journal := (handJournal s (.release u)).journal
      notices := s.notices.post (s.notice .released why.code (some u) (s.unit u).holder (s.unit u).boundAt) } := by
    unfold releaseLocker
    rw [clearHolder_eq, enter_eq]
    simp only [State.modUnit, State.setUnit, State.unit, put_get_self, put_put]
    rfl
  rw [e]
  exact ⟨unbind_bandLeft h _, rfl⟩

/-- A cabin once its holder has left, before its door is seen to (R45). -/
def State.vacated (s : State) (u : UnitIx) (why : Reason) : State := { s with
  units := put s.units u { (s.unit u).unheld with latchSeen := false, overstay := false }
  bands := (s.unit u).holder.elim s.bands fun b => unbindUnit s.bands b u
  timers := s.timers.filter fun e => e.unit ≠ u
  notices := s.notices.post (s.notice .released why.code (some u) (s.unit u).holder (s.unit u).boundAt) }

/-- The cabin is shut and unlatched, with nothing in hand (R45). -/
def State.shutStill (s : State) (u : UnitIx) : Bool := !s.inHand u && (s.cell u).door && !(s.cell u).latch

theorem releaseCabin_eq : releaseCabin s u why silent =
    if s.shutStill u then
      if silent then closeSilently (s.vacated u why) u else closeCabin (s.vacated u why) u
    else enter (s.vacated u why) u .vacating := by
  have e : postReleased (((clearHolder s u).noTimer u).modUnit u fun r =>
      { r with latchSeen := false, overstay := false }) u why (s.unit u).holder (s.unit u).boundAt =
      s.vacated u why := by
    rw [clearHolder_eq]
    simp only [State.noTimer, State.modUnit, State.setUnit, State.unit, put_get_self, put_put]
    rfl
  unfold releaseCabin
  dsimp only
  rw [e]
  rfl

/-- What the vacated cabin enters (R45): its record, and what else the release has changed. -/
theorem vacated_enter (st : UState) : enter (s.vacated u why) u st = { s with
    units := put s.units u { ((s.unit u).unheld.enters (s.kind u) st) with latchSeen := false, overstay := false }
    bands := (s.unit u).holder.elim s.bands fun b => unbindUnit s.bands b u
    timers := s.timers.filter fun e => e.unit ≠ u
    notices := s.notices.post (s.notice .released why.code (some u) (s.unit u).holder (s.unit u).boundAt) } := by
  rw [enter_eq]
  unfold State.vacated
  simp only [State.unit, put_get_self, put_put]
  rfl

/-- A cabin's holding ends (R45, R178). -/
theorem releaseCabin_released (h : HoldingsOk s) : CabinReleased s (releaseCabin s u why silent) u why silent := by
  have left : BandLeft s ((s.unit u).holder.elim s.bands fun b => unbindUnit s.bands b u) u (s.unit u).holder :=
    unbind_bandLeft h _
  have level : (s.vacated u why).levelEvac = s.levelEvac := rfl
  rw [releaseCabin_eq]
  cases hs : s.shutStill u with
  | false =>
    unfold State.shutStill at hs
    unfold CabinReleased
    simp only [hs]
    refine ⟨enter (s.vacated u why) u .vacating, left, vacated_enter _, ?_⟩
    simp
  | true =>
    unfold State.shutStill at hs
    unfold CabinReleased
    simp only [hs]
    cases he : s.levelEvac with
    | false =>
      refine ⟨enter (s.vacated u why) u .closing, left, vacated_enter _, ?_⟩
      cases silent with
      | true => simp [closeSilently, level, he]
      | false =>
        simp only [Bool.false_eq_true, if_false, closeCabin_throws (level.trans he)]
        simpa using handOver_movesOn _ u .throw .normal
    | true =>
      refine ⟨enter (s.vacated u why) u .evacOpen, left, vacated_enter _, ?_⟩
      cases silent with
      | true => simp [closeSilently, level, he]
      | false =>
        cases hb : (s.cell u).bolt with
        | true =>
          simp only [Bool.false_eq_true, if_false, closeCabin_evacThrown (level.trans he) hb]
          simpa using handOver_movesOn _ u .withdraw .urgent
        | false =>
          simp only [Bool.false_eq_true, if_false, closeCabin_evac (level.trans he) hb]
          simp

/-- A released cabin is no longer one that waits to close. -/
theorem releaseCabin_vacating (hs : s.shutStill u = true) :
    ((releaseCabin s u why false).unit u).state ≠ .vacating := by
  rw [releaseCabin_eq, if_pos hs]
  rcases closeCabin_state (s := s.vacated u why) (u := u) with h | h <;> simp [h]

end Sys2Proof.Machine
end

/-! ## Observations -/

section
namespace Sys2Proof.Machine

variable {s t : State} {u : UnitIx} {why : Reason} {silent : Bool} {prev new : Cell} {before behind : List EngEvent}

/-- The holder of a cabin is inside, or has been let in (R26). -/
def UnitRec.inside (r : UnitRec) : Prop := r.state = .inUse ∨ r.state = .expired

/-- The latch of a cabin engages (R26). -/
def latches (prev new : Cell) : Prop := prev.latch = false ∧ new.latch = true

/-- The door of a cabin closes behind a holder who has latched (R45). -/
def State.leaves (s : State) (u : UnitIx) (prev new : Cell) : Prop :=
  (s.unit u).latchSeen = true ∧ prev.door = false ∧ new.door = true ∧ prev.latch = false ∧ new.latch = false ∧
    s.inHand u = false

/-- The state once the latch of a cabin has been seen (R26). -/
def State.latched (s : State) (u : UnitIx) : State := s.modUnit u fun r => { r with latchSeen := true }

/-- OBSERVATION takes the oldest observation, its edges first (R26, log 42). -/
theorem observation_takes (ht : Taking s) (hi : s.engine.inbox = before ++ .observed u prev new :: behind)
    (hb : ∀ e ∈ before, e.isObserved = false) : exec .observation s = .next (observeLevels
      (observeEdges (s.took (before ++ behind) s.engine.runningSlot) u prev new) u new) := by
  have on : (!s.engineOn) = false := by simp [(engineOn_iff s).mpr ht]
  have taken : takeFirst EngEvent.isObserved s.engine.inbox = some (.observed u prev new, before ++ behind) := by
    rw [hi]
    exact takeFirst_append before behind hb rfl
  refine congrArg Host.Outcome.next ?_
  unfold observation
  rw [on, taken]
  rfl

/-! ### The edges (R26, R45) -/

theorem observeEdges_latches (hk : s.kind u = .cabin) (hs : (s.unit u).inside ∨ (s.unit u).state = .admitting)
    (hl : latches prev new) : observeEdges s u prev new = s.latched u := by
  obtain ⟨hp, hn⟩ := hl
  unfold UnitRec.inside at hs
  unfold observeEdges
  dsimp only
  rw [if_neg (by simp [hn]), if_pos ⟨hk, by simpa using hs, hp, hn⟩]
  rfl

theorem observeEdges_leaves (hk : s.kind u = .cabin) (hs : (s.unit u).inside) (hl : s.leaves u prev new) :
    observeEdges s u prev new = releaseCabin s u .vacated false := by
  obtain ⟨seen, opened, shut, free, unlatched, still⟩ := hl
  unfold UnitRec.inside at hs
  unfold observeEdges
  dsimp only
  rw [if_pos ⟨hk, by simpa using hs, seen, opened, shut, free, unlatched, still⟩, if_neg (by simp [unlatched])]

/-- Nothing is seen of a unit that is no cabin, or whose cabin is let in and does not latch, or whose holder neither
latches nor leaves. -/
theorem observeEdges_none (h : s.kind u = .cabin → (s.unit u).inside ∨ (s.unit u).state = .admitting →
    ¬latches prev new ∧ ((s.unit u).inside → ¬s.leaves u prev new)) : observeEdges s u prev new = s := by
  unfold observeEdges
  dsimp only
  rw [if_neg, if_neg]
  · rintro ⟨hk, hs, hp, hn⟩
    exact (h hk (by simpa [UnitRec.inside] using hs)).1 ⟨hp, hn⟩
  · rintro ⟨hk, hs, seen, opened, shut, free, unlatched, still⟩
    have inside : (s.unit u).inside := by simpa [UnitRec.inside] using hs
    exact (h hk (.inl inside)).2 inside ⟨seen, opened, shut, free, unlatched, still⟩

/-! ### The levels (R26, R37, R46) -/

theorem observeLevels_forced (hk : s.kind u = .locker) (hs : (s.unit u).state = .held) (hd : new.door = false)
    (hf : s.inHand u = false) : observeLevels s u new = forceOpen s u := by
  unfold observeLevels
  rw [if_neg (by simp [hf]), if_pos ⟨hk, hs, hd⟩]

theorem observeLevels_closes (hk : s.kind u = .cabin) (hs : (s.unit u).state = .vacating) (hd : new.door = true)
    (hl : new.latch = false) (hf : s.inHand u = false) : observeLevels s u new = closeCabin s u := by
  unfold observeLevels
  rw [if_neg (by simp [hf]), if_neg (by simp [hk]), if_pos ⟨hk, hs, hd, hl⟩]

theorem observeLevels_none
    (hl : s.kind u = .locker → (s.unit u).state ≠ .held ∨ new.door = true ∨ s.inHand u = true)
    (hc : s.kind u = .cabin →
      (s.unit u).state = .vacating → ¬(new.door = true ∧ new.latch = false ∧ s.inHand u = false)) :
    observeLevels s u new = s := by
  unfold observeLevels
  cases hf : s.inHand u with
  | true => rfl
  | false =>
    rw [if_neg Bool.false_ne_true, if_neg, if_neg]
    · rintro ⟨hk, hs, hd, hn⟩
      exact hc hk hs ⟨hd, hn, hf⟩
    · rintro ⟨hk, hs, hd⟩
      rcases hl hk with h | h | h
      · exact h hs
      · simp [hd] at h
      · simp [hf] at h

/-- A cabin in another state than VACATING is left as the edges left it. -/
theorem observeLevels_cabin (hk : s.kind u = .cabin) (hs : (s.unit u).state ≠ .vacating) : observeLevels s u new = s :=
  observeLevels_none (fun h => by simp [hk] at h) fun _ h => absurd h hs

theorem CabinReleased.kind (h : CabinReleased s t u why silent) : t.kind u = s.kind u := by
  obtain ⟨m, -, hm, ht⟩ := h
  have he : m.kind u = s.kind u := by rw [hm]; rfl
  rw [← he]
  split at ht
  · split at ht
    · exact ht.1.kind u
    · exact ht.1.kind u
  · rw [ht]

/-- Settles O55, by what the unit shows: a locker seen open, the edges of a cabin with its holder inside, a cabin let in,
a cabin to close, and every other cabin. -/
theorem observationsTaken : Obligations.ObservationsTaken := by
  intro s u prev new before behind ht hh hi hb hcell r s0 free inside latched left
  have takes := observation_takes ht hi hb
  have holdings : HoldingsOk s0 := hh
  have result {m n : State} (he : observeEdges s0 u prev new = m) (hl : observeLevels m u new = n) :
      exec .observation s = .next n := by
    rw [takes, he, hl]
  have locker (hk : s.kind u = .locker) : observeEdges s0 u prev new = s0 :=
    observeEdges_none fun h => by simp [show s0.kind u = .locker from hk] at h
  have outside (hs : ¬inside) (ha : r.state ≠ .admitting) : observeEdges s0 u prev new = s0 :=
    observeEdges_none fun _ h => absurd h (by rintro (h | h); exacts [hs h, ha h])
  have away (hs : inside ∨ r.state = .admitting) : r.state ≠ .vacating := fun e => by
    rcases hs with (h | h) | h <;> simp [h] at e
  have vacates (hs : r.state = .vacating) : observeEdges s0 u prev new = s0 :=
    outside (by rintro (h | h) <;> simp [h] at hs) (by simp [hs])
  refine ⟨fun hk hs hd hf => result (locker hk) (observeLevels_forced hk hs hd hf), fun hk h => result (locker hk) ?_,
    fun hk hs hl => ?_, fun hk hs hl => ?_, fun hk hs hn hl => ?_, fun hk hs hn => ?_, fun hk hs h => ?_,
    fun hk hs hd hl hf => ?_, fun hk hs ha hv => ?_⟩
  · refine observeLevels_none (fun _ => ?_) fun h => ?_
    · exact h.imp_right (.imp_right Bool.eq_true_of_not_eq_false)
    · simp [show s0.kind u = .locker from hk] at h
  · refine result (observeEdges_latches hk hs hl) (observeLevels_cabin hk ?_)
    rw [State.latched, modUnit_unit_self]
    exact away hs
  · have released := releaseCabin_released (u := u) (why := Reason.vacated) (silent := false) holdings
    have shut : s0.shutStill u = true := by
      obtain ⟨-, -, hd, -, hl, hf⟩ := hl
      have hc : s0.cell u = new := hcell
      have hf : s0.inHand u = false := hf
      simp [State.shutStill, hc, hd, hl, hf]
    exact ⟨_, result (observeEdges_leaves hk hs hl)
      (observeLevels_cabin (released.kind.trans hk) (releaseCabin_vacating shut)), released⟩
  · exact result (observeEdges_none fun _ _ => ⟨hn, fun _ => hl⟩) (observeLevels_cabin hk (away (.inl hs)))
  · refine result (observeEdges_none fun _ _ => ⟨hn, fun h => ?_⟩) (observeLevels_cabin hk (away (.inr hs)))
    exact absurd h (by rintro (h | h) <;> simp [show r.state = _ from h] at hs)
  · refine result (vacates hs) (observeLevels_none (fun e => ?_) fun _ _ => h)
    simp [show s0.kind u = .cabin from hk] at e
  · have closes := observeLevels_closes (s := s0) hk hs hd hl hf
    have enters (st : UState) : enter s0 u st = { s0 with units := put s.units u (r.enters .cabin st) } := by
      rw [enter_eq, show s0.kind u = .cabin from hk]
      rfl
    have bolt : (s0.cell u).bolt = new.bolt := congrArg Cell.bolt hcell
    refine ⟨fun he => ?_, fun he hb => ?_, fun he hb => ?_⟩
    · refine ⟨_, result (vacates hs) (closes.trans (closeCabin_throws he)), ?_⟩
      rw [enters]
      exact handOver_movesOn _ u .throw .normal
    · rw [result (vacates hs) (closes.trans (closeCabin_evac he (bolt.trans hb))), enters]
    · refine ⟨_, result (vacates hs) (closes.trans (closeCabin_evacThrown he (bolt.trans hb))), ?_⟩
      rw [enters]
      exact handOver_movesOn _ u .withdraw .urgent
  · exact result (outside hs ha) (observeLevels_cabin hk hv)

end Sys2Proof.Machine
end

/-! ## What R24 lets through once the events held back are noted -/

section
namespace Sys2Proof.Machine

variable {s : State} {h : HeldEvent}

/-- Noting what is held back does not change what still waits. -/
theorem noteHeld_stillHeld (s : State) (h : HeldEvent) : s.noteHeld.stillHeld h = s.stillHeld h := by
  cases h <;> rfl

/-- An event that R24 does not let through finds the queue without room, or one before it that still waits. -/
theorem blocked_of_not_letThrough (hl : ¬LetThrough s h) :
    ¬JournalRoom s ∨ ∃ x ∈ s.engine.held, s.stillHeld x = true := by
  by_contra hno
  push Not at hno
  exact hl ⟨hno.1, fun x hx => Bool.eq_false_iff.2 (hno.2 x ((List.takeWhile_sublist _).subset hx))⟩

/-- What waits and is not let through has its place once the events held back are noted. -/
theorem mem_noteHeld (ht : Taking s) (hw : Waits s h) (hs : s.stillHeld h = true) (hl : ¬LetThrough s h) :
    h ∈ s.noteHeld.engine.held := mem_heldNow s ht (blocked_of_not_letThrough hl) h hw hs

/-- The elements that a filter keeps of those ahead of the first that fails p stay ahead of it. -/
theorem filter_takeWhile_prefix {α : Type} (p q : α → Bool) (l : List α) :
    (l.takeWhile p).filter q <+: (l.filter q).takeWhile p := by
  have e : l.filter q = (l.takeWhile p).filter q ++ (l.dropWhile p).filter q := by
    rw [← List.filter_append, List.takeWhile_append_dropWhile]
  have all : ∀ x ∈ (l.takeWhile p).filter q, p x = true := fun x hx =>
    List.mem_takeWhile_imp (List.mem_filter.mp hx).1
  rw [e, List.takeWhile_append_of_pos all]
  exact List.prefix_append _ _

/-- Where nothing ahead of x passes the filter, and x and something of the list do, x is the first that does. -/
theorem filter_eq_cons {α : Type} [DecidableEq α] {q : α → Bool} {l : List α} {x : α} (hx : q x = true)
    (hq : ∃ y ∈ l, q y = true) (ha : ∀ y ∈ l.takeWhile (fun y => decide (y ≠ x)), q y = false) :
    ∃ r, l.filter q = x :: r := by
  induction l with
  | nil => simp at hq
  | cons y l ih =>
    by_cases hy : y = x
    · exact ⟨l.filter q, by rw [hy, List.filter_cons_of_pos hx]⟩
    · have hp : decide (y ≠ x) = true := by simpa using hy
      rw [List.takeWhile_cons_of_pos (p := fun y => decide (y ≠ x)) hp] at ha
      have off := ha y (by simp)
      rw [List.filter_cons_of_neg (by simp [off])]
      refine ih ?_ fun z hz => ha z (List.mem_cons_of_mem y hz)
      obtain ⟨z, hz, hqz⟩ := hq
      rcases List.mem_cons.mp hz with e | hz
      · rw [e, off] at hqz
        exact absurd hqz (by simp)
      · exact ⟨z, hz, hqz⟩

/-- The events held back are those of before, where none still waits and there is room. -/
theorem heldNow_of_none (hr : JournalRoom s) (hx : ∀ x ∈ s.engine.held, s.stillHeld x = false) :
    s.heldNow = s.engine.held := by
  have none : s.engine.held.any s.stillHeld = false := by
    rw [List.any_eq_false]
    exact fun x hxm => by simp [hx x hxm]
  unfold State.heldNow
  rw [if_pos (by simp [none, (journalRoom_iff s).mpr hr])]

/-- Otherwise they are those of before, or begin with those of them that still wait. -/
theorem heldNow_cases (s : State) :
    s.heldNow = s.engine.held ∨ ∃ l, s.heldNow = s.engine.held.filter s.stillHeld ++ l := by
  unfold State.heldNow
  split
  · exact .inl rfl
  · exact .inr ⟨_, rfl⟩

/-- What R24 lets through, and whatever it does not, stays so once the events held back are noted. -/
theorem letThrough_noteHeld (hs : s.stillHeld h = true) : LetThrough s.noteHeld h ↔ LetThrough s h := by
  have still : s.noteHeld.stillHeld = s.stillHeld := funext (noteHeld_stillHeld s)
  have room : JournalRoom s.noteHeld ↔ JournalRoom s := .rfl
  unfold LetThrough
  rw [room, still]
  refine and_congr_right fun hr => ?_
  show (∀ x ∈ s.heldNow.takeWhile _, _) ↔ _
  by_cases hx : ∃ x ∈ s.engine.held, s.stillHeld x = true
  · rcases heldNow_cases s with e | ⟨l, e⟩
    · rw [e]
    · rw [e]
      constructor
      · intro hn x hxs
        by_contra hc
        have ahead := filter_takeWhile_prefix (fun y => decide (y ≠ h)) s.stillHeld s.engine.held
        have hm := ahead.subset (List.mem_filter.mpr ⟨hxs, Bool.eq_true_of_not_eq_false hc⟩)
        have first : x ∈ (s.engine.held.filter s.stillHeld ++ l).takeWhile fun y => decide (y ≠ h) := by
          rw [List.takeWhile_append]
          split
          · exact List.mem_append_left _ ((List.takeWhile_sublist _).subset hm)
          · exact hm
        exact hc (hn x first)
      · intro hn
        obtain ⟨r, e⟩ := filter_eq_cons hs hx hn
        rw [e]
        simp
  · rw [heldNow_of_none hr fun x hm => Bool.eq_false_iff.mpr fun hc => hx ⟨x, hm, hc⟩]

end Sys2Proof.Machine
end

/-! ## Timer events -/

section
namespace Sys2Proof.Machine

variable {s t m : State} {u : UnitIx} {e : TimerEntry} {ahead rest : List TimerEntry} {k : TimerKind} {h : HeldEvent}
  {st : UState}

/-! ### What the write port leaves of the engine -/

/-- The write port hands the engine reports and leaves the rest of it. -/
theorem pump_engine (s : State) : (pump s).engine = { s.engine with inbox := (pump s).engine.inbox } := by
  obtain ⟨_, _, e⟩ := pump_frame s
  rw [e]

theorem pump_held (s : State) : (pump s).engine.held = s.engine.held := by rw [pump_engine]
theorem pump_arrived (s : State) : (pump s).engine.arrived = s.engine.arrived := by rw [pump_engine]

theorem KeepsHeld.congr (hk : KeepsHeld s m h) (hh : t.engine.held = m.engine.held)
    (ha : t.engine.arrived = m.engine.arrived) : KeepsHeld s t h := by
  unfold KeepsHeld at *
  rw [hh, ha]
  exact hk

theorem KeepsHeld.pump (hk : KeepsHeld s m h) : KeepsHeld s (pump m) h := hk.congr (pump_held m) (pump_arrived m)

theorem holding_congr (hh : t.engine.held = m.engine.held) (ha : t.engine.arrived = m.engine.arrived) :
    s.holding t = s.holding m := by
  unfold State.holding
  rw [hh, ha]

/-- A change of state keeps the Band Index and the holders one relation. -/
theorem enter_holdings (hs : HoldingsOk s) : HoldingsOk (enter s u st) := by
  refine holdingsOk_congr (s := s) rfl (fun v => ?_) hs
  by_cases hv : v = u
  · rw [hv, enter_unit_self]
    rfl
  · rw [enter_unit_other hv]

/-! ### Which entry is taken (R61) -/

/-- An entry is due, and not held back (R24, R61). -/
def State.ripe (s : State) (e : TimerEntry) : Prop :=
  e.due ≤ s.clock.sec ∧ (e.kind = .ajarIdle → LetThrough s (.idle e.unit e.due))

theorem ripe_iff : (s.dueNow e && (e.kind ≠ .ajarIdle || !s.holdsBack (.idle e.unit e.due))) = true ↔ s.ripe e := by
  unfold State.ripe
  rw [← holdsBack_iff]
  simp [State.dueNow, imp_iff_not_or]

theorem nextDue_eq_some (hl : s.timers = ahead ++ e :: rest) (ha : ∀ x ∈ ahead, ¬s.ripe x) (he : s.ripe e) :
    s.nextDue = some e := by
  unfold State.nextDue
  rw [hl, List.find?_append, List.find?_eq_none.mpr fun x hx hp => ha x hx (ripe_iff.mp hp), Option.none_or,
    List.find?_cons, ripe_iff.mpr he]

theorem nextDue_eq_none (ha : ∀ x ∈ s.timers, ¬s.ripe x) : s.nextDue = none :=
  List.find?_eq_none.mpr fun x hx hp => ha x hx (ripe_iff.mp hp)

theorem dueUnit_of_next (ht : Taking s) (hr : ¬(s.engine.resuming = true ∧ s.inputs.changes ≠ []))
    (hn : s.nextDue = some e) : s.dueUnit e.kind = some e.unit := by
  unfold State.dueUnit
  rw [if_pos (by simpa [(engineOn_iff s).mpr ht, imp_iff_not_or] using hr), hn]
  simp

theorem dueUnit_of_none (hn : s.nextDue = none) : s.dueUnit k = none := by
  unfold State.dueUnit
  rw [hn]
  split <;> rfl

theorem dueUnit_resuming (hr : s.engine.resuming = true) (hc : s.inputs.changes ≠ []) : s.dueUnit k = none := by
  unfold State.dueUnit
  rw [if_neg (by simp [hr, hc])]

/-- An AJAR_IDLE entry is one of the events that R24 speaks of. -/
theorem idle_still (he : e ∈ s.timers) (hk : e.kind = .ajarIdle) : s.stillHeld (.idle e.unit e.due) = true := by
  have : (⟨e.due, e.unit, .ajarIdle⟩ : TimerEntry) = e := by rw [← hk]
  simpa [State.stillHeld, this] using he

theorem idle_waits (he : e ∈ s.timers) (hk : e.kind = .ajarIdle) (hd : e.due ≤ s.clock.sec) :
    Waits s (.idle e.unit e.due) := by
  have : (⟨e.due, e.unit, .ajarIdle⟩ : TimerEntry) = e := by rw [← hk]
  exact ⟨this ▸ he, hd⟩

/-- Noting what is held back does not change which entry is taken. -/
theorem ripe_noteHeld (he : e ∈ s.timers) : s.noteHeld.ripe e ↔ s.ripe e :=
  and_congr_right fun _ => ⟨fun h hk => (letThrough_noteHeld (idle_still he hk)).mp (h hk),
    fun h hk => (letThrough_noteHeld (idle_still he hk)).mpr (h hk)⟩

theorem waitingIdles_of_mem (he : e ∈ s.timers) (hk : e.kind = .ajarIdle) (hd : e.due ≤ s.clock.sec) :
    s.waitingIdles.isEmpty = false := by
  have hm : HeldEvent.idle e.unit e.due ∈ s.waitingIdles :=
    List.mem_map.mpr ⟨e, List.mem_filter.mpr ⟨he, by simp [State.dueNow, hk, hd]⟩, rfl⟩
  exact Bool.eq_false_iff.mpr fun h => by simp [List.isEmpty_iff.mp h] at hm

theorem waitingIdles_of_none (hn : ∀ x ∈ s.timers, s.clock.sec < x.due) : s.waitingIdles.isEmpty = true := by
  unfold State.waitingIdles
  rw [List.filter_eq_nil_iff.mpr fun x hx => by simp [State.dueNow, hn x hx]]
  rfl

/-! ### The events (R38, R62 to R65) -/

theorem takeWarning_eq (s : State) (u : UnitIx) : takeWarning s u = { s with
    units := put s.units u { s.unit u with lamp := { (s.unit u).lamp with steady := .amberFlash } }
    notices := s.notices.post (s.notice .cabinWarning 0 (some u) (s.unit u).holder ((s.unit u).expiry.getD 0))
    timers := setTimer s.timers u .expiry ((s.unit u).expiry.getD 0) } := rfl

/-- A cabin in EXPIRED (R63), before its door is seen to. -/
def State.expired (s : State) (u : UnitIx) : State := { s with
  units := put s.units u ((s.unit u).enters (s.kind u) .expired)
  notices := s.notices.post (s.notice .cabinExpired 0 (some u) (s.unit u).holder ((s.unit u).graceEnd.getD 0))
  timers := setTimer s.timers u .graceEnd ((s.unit u).graceEnd.getD 0) }

theorem takeExpiry_eq (s : State) (u : UnitIx) : takeExpiry s u =
    if s.shutStill u then releaseCabin (s.expired u) u .expiry false else s.expired u := rfl

theorem expired_holdings (hs : HoldingsOk s) : HoldingsOk (s.expired u) := enter_holdings (st := .expired) hs

theorem shutStill_iff : s.shutStill u = true ↔
    s.inHand u = false ∧ (s.cell u).door = true ∧ (s.cell u).latch = false := by
  simp [State.shutStill, and_assoc]

theorem graceLatch_iff : s.graceLatch u = true ↔ (s.cell u).latch = true ∨
    ∃ prev new, EngEvent.observed u prev new ∈ s.engine.inbox ∧ prev.latch = true ∧ new.latch = false := by
  unfold State.graceLatch
  rw [Bool.or_eq_true, List.any_eq_true]
  refine or_congr_right ⟨?_, ?_⟩
  · rintro ⟨e, he, hp⟩
    cases e with
    | observed v prev new =>
      simp only [Bool.and_eq_true, decide_eq_true_eq, Bool.not_eq_true'] at hp
      obtain ⟨⟨rfl, hp⟩, hn⟩ := hp
      exact ⟨prev, new, he, hp, hn⟩
    | _ => exact absurd hp (by simp)
  · rintro ⟨prev, new, he, hp, hn⟩
    exact ⟨_, he, by simp [hp, hn]⟩

theorem takeGraceEnd_overstays (hl : s.graceLatch u = true) : takeGraceEnd s u = { s with
    units := put s.units u { s.unit u with overstay := true }
    notices := s.notices.post (s.notice .cabinOverstay 0 (some u) (s.unit u).holder ((s.unit u).expiry.getD 0))
    timers := s.timers.filter fun x => x.unit ≠ u } := by
  unfold takeGraceEnd
  rw [hl]
  rfl

theorem takeGraceEnd_releases (hl : ¬s.graceLatch u = true) : takeGraceEnd s u = releaseCabin s u .grace false := by
  unfold takeGraceEnd
  dsimp only
  rw [if_neg hl]

/-! ### The commands -/

theorem exec_warning_eq (h : s.dueUnit .warning = some u) : exec .warning s = .next (takeWarning s u) := by
  show Host.Outcome.next (warningDue s) = _
  unfold warningDue
  rw [h]

theorem exec_expiry_eq (h : s.dueUnit .expiry = some u) : exec .expiry s = .next (takeExpiry s u) := by
  show Host.Outcome.next (expiryDue s) = _
  unfold expiryDue
  rw [h]

theorem exec_graceEnd_eq (h : s.dueUnit .graceEnd = some u) : exec .graceEnd s = .next (takeGraceEnd s u) := by
  show Host.Outcome.next (graceEndDue s) = _
  unfold graceEndDue
  rw [h]

/-- Without an entry to take, three of the commands do nothing (R61). -/
theorem exec_none (h : ∀ k, s.dueUnit k = none) :
    exec .warning s = .next s ∧ exec .expiry s = .next s ∧ exec .graceEnd s = .next s := by
  refine ⟨congrArg Host.Outcome.next ?_, congrArg Host.Outcome.next ?_, congrArg Host.Outcome.next ?_⟩
  · unfold warningDue
    rw [h]
  · unfold expiryDue
    rw [h]
  · unfold graceEndDue
    rw [h]

theorem exec_ajarIdle_takes (ht : Taking s) (hw : s.waitingIdles.isEmpty = false)
    (hd : s.noteHeld.dueUnit .ajarIdle = some u) :
    exec .ajarIdle s = .next (pump (takeAjarIdle s.noteHeld u)) := by
  show Host.Outcome.next (ajarIdleDue s) = _
  unfold ajarIdleDue
  rw [if_neg (by simp [(engineOn_iff s).mpr ht, hw])]
  dsimp only
  rw [hd]

/-- An AJAR_IDLE that finds no entry to take notes at most what is held back (R24). -/
theorem exec_ajarIdle_none (hd : s.noteHeld.dueUnit .ajarIdle = none) :
    exec .ajarIdle s = .next (if !s.engineOn || s.waitingIdles.isEmpty then s else s.noteHeld) := by
  show Host.Outcome.next (ajarIdleDue s) = _
  unfold ajarIdleDue
  dsimp only
  rw [hd]

/-- Settles O57: the entry that is due, by its kind; AJAR_IDLE events held back; no entry due; and a restart with an
evacuation change to take first. -/
theorem timerEventsTaken : Obligations.TimerEventsTaken := by
  refine ⟨?_, ?_, ?_, ?_⟩
  · intro s e ahead rest ht hh hr hl ha hd u r until' shut latch
    have passed (x : TimerEntry) (hx : x ∈ ahead) : ¬s.ripe x := fun h => by
      rcases ha x hx with hs | ⟨hk, hn⟩
      · exact absurd h.1 (by omega)
      · exact hn (h.2 hk)
    have due (he : s.ripe e) : s.dueUnit e.kind = some u := dueUnit_of_next ht hr (nextDue_eq_some hl passed he)
    have dueAs {k : TimerKind} (hk : e.kind = k) (hn : k ≠ .ajarIdle) : s.dueUnit k = some u :=
      hk ▸ due ⟨hd, fun h => absurd (hk.symm.trans h) hn⟩
    refine ⟨fun hk => ?_, fun hk => ⟨fun hs => ?_, fun hs => ?_⟩, fun hk => ⟨fun hg => ?_, fun hg => ?_⟩, fun hk hp => ?_⟩
    · rw [exec_warning_eq (dueAs hk (by decide)), takeWarning_eq]
    · rw [exec_expiry_eq (dueAs hk (by decide)), takeExpiry_eq, if_neg fun h => hs (shutStill_iff.mp h)]
      rfl
    · rw [exec_expiry_eq (dueAs hk (by decide)), takeExpiry_eq, if_pos (shutStill_iff.mpr hs)]
      exact ⟨_, rfl, releaseCabin_released (expired_holdings hh)⟩
    · rw [exec_graceEnd_eq (dueAs hk (by decide)), takeGraceEnd_overstays (graceLatch_iff.mpr hg)]
    · rw [exec_graceEnd_eq (dueAs hk (by decide)), takeGraceEnd_releases fun h => hg (graceLatch_iff.mp h)]
      exact ⟨_, rfl, releaseCabin_released hh⟩
    · have mem : e ∈ s.timers := by rw [hl]; simp
      have ripe : s.ripe e := ⟨hd, fun _ => hp⟩
      have noted : s.noteHeld.dueUnit .ajarIdle = some u := by
        refine hk ▸ dueUnit_of_next ht hr (nextDue_eq_some (s := s.noteHeld) hl (fun x hx h => passed x hx ?_)
          ((ripe_noteHeld mem).mpr ripe))
        exact (ripe_noteHeld (by rw [hl]; exact List.mem_append_left _ hx)).mp h
      have released : LockerReleased { s.noteHeld with timers := s.timers.filter fun x => x.unit ≠ u }
          (takeAjarIdle s.noteHeld u) u .idle := releaseLocker_released (s := s.noteHeld.noTimer u) hh
      have engine : (takeAjarIdle s.noteHeld u).engine = s.noteHeld.engine := by rw [released.2]
      have held := congrArg Engine.held engine
      have arrived := congrArg Engine.arrived engine
      refine ⟨takeAjarIdle s.noteHeld u, _, exec_ajarIdle_takes ht (waitingIdles_of_mem mem hk hd) noted, pump_serves _,
        ((noteHeld_keepsHeld _).congr held arrived).pump, ?_⟩
      rw [holding_congr ((pump_held _).trans held) ((pump_arrived _).trans arrived)]
      exact released
  · intro s ht hk hn
    have none : s.noteHeld.dueUnit .ajarIdle = none := dueUnit_of_none (nextDue_eq_none fun x hx h =>
      have h := (ripe_noteHeld (s := s) hx).mp h
      hn x hx h.1 (h.2 (hk x hx h.1)))
    refine ⟨_, exec_ajarIdle_none none, ?_, fun x hx hd => ?_⟩
    · split
      · rfl
      · exact (noteHeld_keeps s).1
    · rw [if_neg (by simp [(engineOn_iff s).mpr ht, waitingIdles_of_mem hx (hk x hx hd) hd])]
      exact mem_noteHeld ht (idle_waits hx (hk x hx hd) hd) (idle_still hx (hk x hx hd)) (hn x hx hd)
  · intro s hn
    have none (x : TimerEntry) (hx : x ∈ s.timers) : ¬s.ripe x := fun h => absurd h.1 (by have := hn x hx; omega)
    obtain ⟨hw, he, hg⟩ := exec_none (s := s) fun k => dueUnit_of_none (nextDue_eq_none none)
    refine ⟨hw, he, hg, ?_⟩
    rw [exec_ajarIdle_none (dueUnit_of_none (nextDue_eq_none fun x hx h => none x hx ((ripe_noteHeld (s := s) hx).mp h))),
      waitingIdles_of_none hn]
    simp
  · intro s hr hc
    obtain ⟨hw, he, hg⟩ := exec_none (s := s) fun k => dueUnit_resuming hr hc
    refine ⟨hw, he, hg, _, exec_ajarIdle_none (dueUnit_resuming (s := s.noteHeld) hr hc), ?_⟩
    split
    · rfl
    · exact (noteHeld_keeps s).1

end Sys2Proof.Machine
end

/-! ## Reports of the Drive Scheduler -/

section
namespace Sys2Proof.Machine

variable {s t m : State} {u v : UnitIx} {e : EngEvent} {p : EngEvent → Bool} {before behind : List EngEvent}
  {how : Leave} {op : BoltOp} {c : Cell} {k : Urgency} {cleared : Bool}

/-! ### Which report is taken (R24) -/

/-- R24 lets a report through: one of another unit than a locker always. -/
def State.reportGoes (s : State) (u : UnitIx) : Prop := s.kind u = .locker → LetThrough s (.report u)

theorem mem_lockerReports (he : e ∈ s.engine.inbox) (hr : e.report? = some u) (hk : s.kind u = .locker) :
    u ∈ s.lockerReports :=
  List.mem_filter.mpr ⟨List.mem_filterMap.mpr ⟨e, he, hr⟩, by simp [hk]⟩

/-- Noting what is held back does not change which reports are let through. -/
theorem reportHeld_noteHeld (he : e ∈ s.engine.inbox) (hr : e.report? = some u) :
    s.noteHeld.reportHeld e = false ↔ s.reportGoes u := by
  have held : s.noteHeld.reportHeld e = (decide (s.kind u = .locker) && s.noteHeld.holdsBack (.report u)) := by
    unfold State.reportHeld
    rw [hr]
    rfl
  rw [held, Bool.and_eq_false_iff, holdsBack_iff]
  unfold State.reportGoes
  by_cases hk : s.kind u = .locker
  · rw [letThrough_noteHeld (report_still (mem_lockerReports he hr hk))]
    simp [hk]
  · simp [hk]

/-- The oldest report of its kind that R24 lets through is the one taken (log 42). -/
theorem takeReport_append (hi : s.engine.inbox = before ++ e :: behind) (hp : p e = true) (hr : e.report? = some u)
    (hg : s.reportGoes u) (hb : ∀ x ∈ before, p x = true → ∃ v, x.report? = some v ∧ ¬s.reportGoes v) :
    s.noteHeld.takeReport p = some (e, before ++ behind) := by
  have inbox : s.noteHeld.engine.inbox = before ++ e :: behind := hi
  unfold State.takeReport
  rw [inbox]
  refine takeFirst_append before behind (fun x hx => ?_) ?_
  · cases hpx : p x with
    | false => rfl
    | true =>
      obtain ⟨v, hv, hn⟩ := hb x hx hpx
      have held : s.noteHeld.reportHeld x = true := Bool.eq_true_of_not_eq_false fun h =>
        hn ((reportHeld_noteHeld (by rw [hi]; exact List.mem_append_left _ hx) hv).mp h)
      simp [held]
  · rw [hp, (reportHeld_noteHeld (by rw [hi]; simp) hr).mpr hg]
    rfl

/-- A report that is not let through is not the one taken. -/
theorem takeReport_goes {x : EngEvent} {rest : List EngEvent} (ht : s.noteHeld.takeReport p = some (x, rest))
    (hr : x.report? = some u) : s.reportGoes u := by
  have hp := takeFirst_some ht
  have mem : x ∈ s.engine.inbox := (takeFirst_perm ht).symm.subset (by simp)
  simp only [Bool.and_eq_true, Bool.not_eq_true'] at hp
  exact (reportHeld_noteHeld mem hr).mp hp.2

/-- A report taken leaves the other reports where they are. -/
theorem mem_rest_of_takeReport {x : EngEvent} {rest : List EngEvent}
    (ht : s.noteHeld.takeReport p = some (x, rest)) (he : e ∈ s.engine.inbox) (hn : e ≠ x) : e ∈ rest := by
  have mem : e ∈ x :: rest := (takeFirst_perm ht).subset he
  exact (List.mem_cons.mp mem).resolve_left hn

/-- The state once a report has been taken out of the inbox, and noted so (R24). -/
def State.reportTaken (s : State) (u : UnitIx) (rest : List EngEvent) : State :=
  (s.noteHeld.setInbox rest).unhold (.report u)

/-- An event taken is held back no more; the others keep their order. -/
theorem unhold_keepsHeld (s : State) (h : HeldEvent) : KeepsHeld s (s.noteHeld.unhold h) h := by
  refine ⟨?_, List.Sublist.refl _, List.filter_sublist⟩
  have kept := (noteHeld_keeps s).2.filter fun x => decide (x ≠ h)
  rw [List.filter_filter] at kept
  exact kept

/-! ### Watches and follow-up entries (R153, R177) -/

/-- A movement of one unit has left (R153). -/
theorem movementLeft_eq : movementLeft s u how cleared = s.setRunning (s.watched [u] how fun _ => cleared) := by
  unfold movementLeft State.watched
  cases hr : s.engine.runningSlot with
  | none =>
    show s = { s with engine := { s.engine with runningSlot := none } }
    rw [← hr]
  | some r =>
    cases cleared with
    | false => simp
    | true => cases hw : r.watches u <;> simp [hw]

/-- The follow-up entry of a unit is gone (R177). -/
def State.dropFollow (s : State) (u : UnitIx) : State := s.setFollow (s.engine.follow.filter fun e => e.1 ≠ u)

theorem dropFollow_of_none (h : ∀ e ∈ s.engine.follow, e.1 ≠ u) : s.dropFollow u = s := by
  unfold State.dropFollow
  rw [List.filter_eq_self.mpr fun e he => by simpa using h e he]
  rfl

theorem follow_find_none (h : s.engine.follow.find? (fun e => e.1 = u) = none) : ∀ e ∈ s.engine.follow, e.1 ≠ u :=
  fun e he => by simpa using List.find?_eq_none.mp h e he

theorem followUp_of_none (h : ∀ e ∈ s.engine.follow, e.1 ≠ u) : followUp s u how = s := by
  unfold followUp
  rw [List.find?_eq_none.mpr fun e he => by simpa using h e he]

/-- A fault or a displacement takes the follow-up entry away, and does no more (R177). -/
theorem followUp_drops (h : how = .fault ∨ how = .displaced) : followUp s u how = s.dropFollow u := by
  cases hf : s.engine.follow.find? fun e => e.1 = u with
  | none => rw [followUp_of_none (follow_find_none hf), dropFollow_of_none (follow_find_none hf)]
  | some x =>
    obtain ⟨w, f⟩ := x
    unfold followUp
    rw [hf]
    rcases h with rfl | rfl <;> cases f <;> rfl

/-- What the follow-up entry of a unit makes of its record where its movement is removed (R177). -/
def UnitRec.removedBy (r : UnitRec) (k : UnitKind) : Option Follow → UnitRec
  | some .toOpen => r.enters k .evacOpen
  | some .toClose => r.enters k .closing
  | none => r

theorem put_unit (s : State) (u : UnitIx) : put s.units u (s.unit u) = s.units :=
  Vector.toArray_inj.mp (Array.set_getElem_self _)

theorem followUp_removal : followUp s u .removal = { s.dropFollow u with
    units := put s.units u ((s.unit u).removedBy (s.kind u) ((s.engine.follow.find? fun e => e.1 = u).map (·.2))) } := by
  cases hf : s.engine.follow.find? fun e => e.1 = u with
  | none =>
    rw [followUp_of_none (follow_find_none hf), dropFollow_of_none (follow_find_none hf)]
    show s = { s with units := put s.units u (s.unit u) }
    rw [put_unit]
  | some x =>
    obtain ⟨w, f⟩ := x
    unfold followUp
    rw [hf]
    cases f <;> rfl

/-- What follow-up entries and the running slot come to hold does not bear on a movement. -/
theorem MovesOn.engine (h : MovesOn s t u op k) (l : List (UnitIx × Follow)) (r : Option Running) :
    MovesOn ((s.setFollow l).setRunning r) ((t.setFollow l).setRunning r) u op k := by
  obtain ⟨⟨e, g, q, o⟩, hm⟩ := h
  refine ⟨⟨?_, ?_, q, o⟩, hm⟩
  · generalize hu : t.units = v at e
    generalize hd : t.drive = d at e
    rw [e]
    rfl
  · show { t.engine with follow := l, runningSlot := r } = _
    rw [g]
    rfl

end Sys2Proof.Machine
end

/-! ## Fault, removal, displacement and stall reports taken -/

section
namespace Sys2Proof.Machine

variable {s t m : State} {u v : UnitIx} {before behind : List EngEvent} {op : BoltOp} {c : Cell} {k : Urgency}
  {l l' : UnitIx → Bool}

/-! ### Fault reports (R47) -/

/-- A fault report taken (R47): FAULT, the notice, a locker's record, the follow-up entry and the watches. -/
theorem takeFaulted_eq (s : State) (u : UnitIx) (op : BoltOp) (c : Cell) : takeFaulted s u op c = { s with
    units := put s.units u { ((s.unit u).enters (s.kind u) .fault) with purpose := none }
    timers := s.timers.filter fun e => e.unit ≠ u
    notices := s.notices.post (s.notice .unitFault op.code (some u) (s.unit u).holder c.faultBits)
    journal := if s.kind u = .locker then (handJournal s (.state u .fault)).journal else s.journal
    engine := { s.engine with
      follow := s.engine.follow.filter fun e => e.1 ≠ u
      runningSlot := s.watched [u] .fault fun _ => false } } := by
  have entered : setPurpose (enter s u .fault) u none =
      { s with units := put s.units u { ((s.unit u).enters (s.kind u) .fault) with purpose := none } } := by
    unfold setPurpose enter
    rw [modUnit_modUnit]
    rfl
  unfold takeFaulted
  rw [movementLeft_eq, followUp_drops (.inl rfl), entered]
  dsimp only
  split <;> rfl

theorem faultReport_takes (ht : Taking s) (hg : s.reportGoes u) (hi : s.engine.inbox = before ++ .faulted u op c :: behind)
    (hb : ∀ e ∈ before, ∀ v op' c', e = .faulted v op' c' → ¬s.reportGoes v) :
    exec .faultReport s = .next (pump (takeFaulted (s.reportTaken u (before ++ behind)) u op c)) := by
  have taken : s.noteHeld.takeReport EngEvent.isFaulted = some (.faulted u op c, before ++ behind) := by
    refine takeReport_append hi rfl rfl hg fun x hx hp => ?_
    cases x with
    | faulted v op' c' => exact ⟨v, rfl, hb _ hx v op' c' rfl⟩
    | _ => exact absurd hp (by simp [EngEvent.isFaulted])
  have found : s.engine.inbox.any EngEvent.isFaulted = true := by rw [hi]; simp [EngEvent.isFaulted]
  refine congrArg Host.Outcome.next ?_
  unfold faultReport
  rw [if_neg (by simp [(engineOn_iff s).mpr ht, found])]
  dsimp only
  rw [taken]
  rfl

/-- A locker's fault report that is held back stays, and is noted so, whatever other report is taken (R24). -/
theorem faultReport_held (ht : Taking s) (hk : s.kind u = .locker) (hn : ¬LetThrough s (.report u))
    (he : EngEvent.faulted u op c ∈ s.engine.inbox) : ∃ t, exec .faultReport s = .next t ∧
      EngEvent.faulted u op c ∈ t.engine.inbox ∧ HeldEvent.report u ∈ t.engine.held ∧
      (t.unit u).rest = (s.unit u).rest := by
  have mem := mem_lockerReports he rfl hk
  have held : HeldEvent.report u ∈ s.noteHeld.engine.held := mem_noteHeld ht mem (report_still mem) hn
  have found : s.engine.inbox.any EngEvent.isFaulted = true := List.any_eq_true.mpr ⟨_, he, rfl⟩
  have goes : exec .faultReport s = .next (match s.noteHeld.takeReport EngEvent.isFaulted with
      | some (.faulted v op' c', rest) => pump (takeFaulted (s.reportTaken v rest) v op' c')
      | _ => s.noteHeld) := by
    refine congrArg Host.Outcome.next ?_
    unfold faultReport
    rw [if_neg (by simp [(engineOn_iff s).mpr ht, found])]
    rfl
  refine ⟨_, goes, ?_⟩
  split
  case h_1 x v op' c' rest hx =>
    have other : v ≠ u := fun h => hn (h ▸ takeReport_goes hx rfl (h ▸ hk))
    have stays : EngEvent.faulted u op c ∈ rest := mem_rest_of_takeReport hx he fun h => by
      injection h with h
      exact other h.symm
    rw [takeFaulted_eq]
    refine ⟨?_, ?_, ?_⟩
    · obtain ⟨_, reports, e⟩ := pump_frame (takeFaulted (s.reportTaken v rest) v op' c')
      rw [takeFaulted_eq] at e
      rw [e]
      exact List.mem_append_left _ stays
    · rw [pump_held]
      exact List.mem_filter.mpr ⟨held, by simpa using other.symm⟩
    · unfold State.unit
      rw [pump_units]
      exact congrArg UnitRec.rest (put_get_other _ _ _ _ other.symm)
  case h_2 => exact ⟨he, held, rfl⟩

/-! ### Removals (R48) -/

/-- The record of a unit that has lost its movement (R25, R48, R177). -/
def State.suspendedRec (s : State) (u : UnitIx) : UnitRec :=
  { (s.unit u).removedBy (s.kind u) ((s.engine.follow.find? fun e => e.1 = u).map (·.2)) with
    suspended := true, deferred := none }

/-- The running action's progress once movements have been removed (R153). -/
def removedFrom (l : UnitIx → Bool) (o : Option Running) : Option Running :=
  o.map fun r => { r with items := r.items.map fun i => if l i.unit then { i with stage := i.stage.left .removal } else i }

/-- From s to t the movements of these units are lost. -/
structure Suspends (l : UnitIx → Bool) (s t : State) : Prop where
  frame : t = { s with
    units := t.units
    engine := { s.engine with
      follow := s.engine.follow.filter fun e => !l e.1
      runningSlot := removedFrom l s.engine.runningSlot } }
  unit : ∀ v, t.unit v = if l v then s.suspendedRec v else s.unit v

theorem Suspends.refl (s : State) : Suspends (fun _ => false) s s where
  frame := by
    have slot : removedFrom (fun _ => false) s.engine.runningSlot = s.engine.runningSlot := by
      unfold removedFrom
      simp
    rw [slot]
    simp
  unit v := rfl

/-- A stage at which a removed movement is no longer watched stays (R153). -/
theorem left_left_removal (x : Stage) : (x.left .removal).left .removal = x.left .removal := by
  cases x <;> rfl

theorem removedFrom_removedFrom (l l' : UnitIx → Bool) (o : Option Running) :
    removedFrom l' (removedFrom l o) = removedFrom (fun v => l v || l' v) o := by
  unfold removedFrom
  rw [Option.map_map]
  refine congrArg (fun f => o.map f) (funext fun r => ?_)
  simp only [Function.comp, List.map_map, Running.mk.injEq, true_and, and_true]
  refine List.map_congr_left fun i _ => ?_
  by_cases h : l i.unit = true <;> by_cases h' : l' i.unit = true <;> simp [h, h', left_left_removal]

theorem removedBy_suspended (r : UnitRec) (k : UnitKind) (f : Option Follow) :
    { ({ r with suspended := true, deferred := none } : UnitRec).removedBy k f with suspended := true, deferred := none } =
      ({ r.removedBy k f with suspended := true, deferred := none } : UnitRec) := by
  cases f with
  | none => rfl
  | some f => cases f <;> rfl

theorem find?_filter_unit {f : UnitIx → Bool} (list : List (UnitIx × Follow)) (v : UnitIx) :
    (list.filter fun e => !f e.1).find? (fun e => e.1 = v) =
      if f v then none else list.find? fun e => e.1 = v := by
  rw [List.find?_filter]
  split
  next hv =>
    rw [List.find?_eq_none]
    intro e _ h
    simp only [Bool.not_eq_true', decide_eq_true_eq] at h
    rw [h.2, hv] at h
    exact absurd h.1 (by simp)
  next hv =>
    congr 1
    funext e
    by_cases he : e.1 = v <;> simp [he, hv]

theorem Suspends.trans (h : Suspends l s m) (k : Suspends l' m t) : Suspends (fun v => l v || l' v) s t where
  frame := by
    have hf := h.frame
    have kf := k.frame
    clear h k
    generalize m.units = x at hf
    generalize t.units = y at kf ⊢
    subst hf
    rw [kf]
    simp only [removedFrom_removedFrom, List.filter_filter, Bool.not_or, Bool.and_comm]
  unit v := by
    have follow : m.engine.follow = s.engine.follow.filter fun e => !l e.1 := by rw [h.frame]
    have kind : m.kind v = s.kind v := by rw [h.frame]; rfl
    have again : m.suspendedRec v = s.suspendedRec v := by
      unfold State.suspendedRec
      rw [follow, kind, find?_filter_unit, h.unit v]
      cases l v with
      | true => exact removedBy_suspended _ _ _
      | false => rfl
    rw [k.unit v, again, h.unit v]
    cases l v <;> cases l' v <;> rfl

theorem Suspends.congr (h : Suspends l s t) (e : ∀ v, l v = l' v) : Suspends l' s t := funext e ▸ h

theorem removedBy_suspends (r : UnitRec) (k : UnitKind) (f : Option Follow) :
    ({ r with suspended := true, deferred := none } : UnitRec).removedBy k f =
      ({ r.removedBy k f with suspended := true, deferred := none } : UnitRec) := by
  cases f with
  | none => rfl
  | some f => cases f <;> rfl

theorem watched_removal (s : State) (us : List UnitIx) :
    s.watched us .removal (fun _ => false) = removedFrom (fun v => us.contains v) s.engine.runningSlot := by
  simp [State.watched, removedFrom]

/-- A unit that has lost its movement (R25, R48, R153, R177). -/
theorem suspendUnit_eq (s : State) (u : UnitIx) : suspendUnit s u = { s with
    units := put s.units u (s.suspendedRec u)
    engine := { s.engine with
      follow := s.engine.follow.filter fun e => e.1 ≠ u
      runningSlot := removedFrom (fun v => [u].contains v) s.engine.runningSlot } } := by
  have units : put (put s.units u { s.unit u with suspended := true, deferred := none }) u (({ s.unit u with
      suspended := true, deferred := none } : UnitRec).removedBy (s.kind u)
        ((s.engine.follow.find? fun e => e.1 = u).map (·.2))) = put s.units u (s.suspendedRec u) := by
    rw [put_put, removedBy_suspends]
    rfl
  rw [← units, ← watched_removal]
  unfold suspendUnit
  dsimp only
  rw [movementLeft_eq, followUp_removal, modUnit_unit_self]
  rfl

theorem suspendUnit_suspends (s : State) (u : UnitIx) :
    Suspends (fun v => [u].contains v) s (suspendUnit s u) := by
  rw [suspendUnit_eq]
  constructor
  · simp
  · intro v
    by_cases hv : v = u
    · rw [hv, if_pos (by simp)]
      exact put_get_self _ _ _
    · rw [if_neg (by simpa using hv)]
      exact put_get_other _ _ _ _ hv

theorem foldl_suspends (us : List UnitIx) (s : State) : Suspends (fun v => us.contains v) s (us.foldl suspendUnit s) := by
  induction us generalizing s with
  | nil => exact Suspends.refl s
  | cons u us ih =>
    exact ((suspendUnit_suspends s u).trans (ih (suspendUnit s u))).congr fun v => by simp

/-- A removal report taken (R25, R48): its units, and those of a bank that left RUNNING that hold a deferred op. -/
def State.lostBy (s : State) (us : List UnitIx) (left : Option BankIx) (v : UnitIx) : Bool :=
  us.contains v || (left = some (bankOf v) && (s.unit v).deferred.isSome)

/-- The units of a removal report are suspended, and then those of the bank that hold a deferred op. -/
def removeUnits (s : State) (us : List UnitIx) (left : Option BankIx) : State :=
  left.elim (us.foldl suspendUnit s) fun b => ((us.foldl suspendUnit s).deferredOf b).foldl suspendUnit
    (us.foldl suspendUnit s)

theorem actuationRemoved_suspends {us : List UnitIx} {left : Option BankIx} (ht : Taking s)
    (hi : s.engine.inbox = before ++ .removed us left :: behind) (hb : ∀ e ∈ before, e.isRemoved = false) :
    ∃ t, exec .actuationRemoved s = .next t ∧ Suspends (s.lostBy us left) (s.setInbox (before ++ behind)) t := by
  have taken : takeFirst EngEvent.isRemoved s.engine.inbox = some (.removed us left, before ++ behind) := by
    rw [hi]
    exact takeFirst_append before behind hb rfl
  have goes : exec .actuationRemoved s = .next (removeUnits (s.setInbox (before ++ behind)) us left) := by
    refine congrArg Host.Outcome.next ?_
    unfold actuationRemoved
    rw [if_neg (by simp [(engineOn_iff s).mpr ht]), taken]
    cases left <;> rfl
  have named := foldl_suspends us (s.setInbox (before ++ behind))
  refine ⟨_, goes, ?_⟩
  cases left with
  | none => exact named.congr fun v => by simp [State.lostBy]
  | some b =>
    refine (named.trans (foldl_suspends _ _)).congr fun v => ?_
    have mem : ((us.foldl suspendUnit (s.setInbox (before ++ behind))).deferredOf b).contains v =
        (decide (bankOf v = b) && ((us.foldl suspendUnit (s.setInbox (before ++ behind))).unit v).deferred.isSome) := by
      rw [Bool.eq_iff_iff, List.contains_iff_mem]
      unfold State.deferredOf
      rw [List.mem_filter, mem_unitsOf]
      simp
    have same : (s.setInbox (before ++ behind)).unit v = s.unit v := rfl
    rw [mem, named.unit v, same, State.lostBy]
    cases us.contains v with
    | true => rfl
    | false => simp [eq_comm]

/-! ### Displacements and stalls (R119, R177) -/

theorem throwDisplaced_takes (ht : Taking s) (hi : s.engine.inbox = before ++ .displaced u :: behind)
    (hb : ∀ e ∈ before, e.isDisplaced = false) :
    exec .throwDisplaced s = .next (takeDisplaced (s.setInbox (before ++ behind)) u) := by
  have taken : takeFirst EngEvent.isDisplaced s.engine.inbox = some (.displaced u, before ++ behind) := by
    rw [hi]
    exact takeFirst_append before behind hb rfl
  refine congrArg Host.Outcome.next ?_
  unfold throwDisplaced
  rw [if_neg (by simp [(engineOn_iff s).mpr ht]), taken]

theorem stallReport_takes {on : Bool} (ht : Taking s) (hi : s.engine.inbox = before ++ .stall on :: behind)
    (hb : ∀ e ∈ before, e.isStall = false) : exec .journalStallReport s =
      .next { s with engine := { s.engine with inbox := before ++ behind, ringStalled := on } } := by
  have taken : takeFirst EngEvent.isStall s.engine.inbox = some (.stall on, before ++ behind) := by
    rw [hi]
    exact takeFirst_append before behind hb rfl
  refine congrArg Host.Outcome.next ?_
  unfold stallReport
  rw [if_neg (by simp [(engineOn_iff s).mpr ht]), taken]
  rfl

/-- A displacement takes the follow-up entry away and ends the watches, whatever the cabin does (R153, R177). -/
def State.displacedAt (s : State) (u : UnitIx) : State :=
  (s.dropFollow u).setRunning (s.watched [u] .displaced fun _ => false)

theorem displacedAt_eq : movementLeft (followUp s u .displaced) u .displaced false = s.displacedAt u := by
  rw [movementLeft_eq, followUp_drops (.inr rfl)]
  rfl

theorem takeDisplaced_other (hs : ¬((s.unit u).state = .closing ∨ (s.unit u).state = .free)) :
    takeDisplaced s u = s.displacedAt u := by
  unfold takeDisplaced
  dsimp only
  rw [if_neg hs, displacedAt_eq]

theorem takeDisplaced_withdrawn (hs : (s.unit u).state = .closing ∨ (s.unit u).state = .free)
    (hb : (s.cell u).bolt = false) : takeDisplaced s u = (enter s u .evacOpen).displacedAt u := by
  unfold takeDisplaced
  dsimp only
  rw [if_pos hs, hb, displacedAt_eq]
  rfl

theorem takeDisplaced_thrown (hs : (s.unit u).state = .closing ∨ (s.unit u).state = .free)
    (hb : (s.cell u).bolt = true) :
    MovesOn ((enter s u .evacOpen).displacedAt u) (takeDisplaced s u) u .withdraw .urgent := by
  have moves := handOver_movesOn (enter s u .evacOpen) u .withdraw .urgent
  have e : takeDisplaced s u = (handOver (enter s u .evacOpen) u .withdraw .urgent).displacedAt u := by
    unfold takeDisplaced
    dsimp only
    rw [if_pos hs, if_pos hb, displacedAt_eq]
  obtain ⟨-, same, -⟩ := moves.1
  have follow : (handOver (enter s u .evacOpen) u .withdraw .urgent).engine.follow = s.engine.follow := by
    rw [same]
    rfl
  have slot : (handOver (enter s u .evacOpen) u .withdraw .urgent).engine.runningSlot = s.engine.runningSlot := by
    rw [same]
    rfl
  rw [e]
  unfold State.displacedAt State.dropFollow State.watched
  rw [follow, slot]
  exact moves.engine _ _

/-- Settles O54, report by report. -/
theorem engineReportsTaken : Obligations.EngineReportsTaken := by
  intro s before behind ht
  refine ⟨fun u op c hg hi hb => ?_, fun u op c hk hn he => faultReport_held ht hk hn he,
    fun us left hi hb => ?_, fun u hi hb => ?_, fun on hi hb => stallReport_takes ht hi hb⟩
  · intro r bits
    have bits_eq : bits = c.faultBits := rfl
    have held : (takeFaulted (s.reportTaken u (before ++ behind)) u op c).engine.held =
        (s.reportTaken u (before ++ behind)).engine.held := by rw [takeFaulted_eq]
    have arrived : (takeFaulted (s.reportTaken u (before ++ behind)) u op c).engine.arrived =
        (s.reportTaken u (before ++ behind)).engine.arrived := by rw [takeFaulted_eq]
    refine ⟨_, faultReport_takes ht hg hi fun e he v op' c' h hv => ?_, ?_, ?_⟩
    · obtain ⟨hk, hn⟩ := hb e he v op' c' h
      exact hn (hv hk)
    · exact ((unhold_keepsHeld s (.report u)).congr held arrived).pump
    · rw [pump_held, pump_arrived, held, arrived, takeFaulted_eq, bits_eq, portServes_iff]
      congr 1
  · intro lost
    obtain ⟨t, goes, frame, unit⟩ := actuationRemoved_suspends ht hi hb
    refine ⟨t, goes, ?_, fun v => ?_⟩
    · have all : (fun v => (allUnits.filter (s.lostBy us left)).contains v) = s.lostBy us left := funext fun v => by
        rw [Bool.eq_iff_iff, List.contains_iff_mem, List.mem_filter]
        exact and_iff_right (List.mem_finRange v)
      rw [watched_removal]
      show t = { s with
        units := t.units
        engine := { s.engine with
          inbox := before ++ behind
          follow := s.engine.follow.filter fun e => !s.lostBy us left e.1
          runningSlot := removedFrom (fun v => (allUnits.filter (s.lostBy us left)).contains v) s.engine.runningSlot } }
      rw [all]
      exact frame
    · rw [unit v]
      unfold State.suspendedRec
      show (if s.lostBy us left v then { (s.unit v).removedBy (s.kind v)
        ((s.engine.follow.find? fun e => e.1 = v).map (·.2)) with suspended := true, deferred := none }
        else s.unit v) = _
      generalize (s.engine.follow.find? fun e => e.1 = v).map (·.2) = f
      cases f with
      | none => rfl
      | some f => cases f <;> rfl
  · intro r s0 opened
    have takes := throwDisplaced_takes ht hi hb
    refine ⟨fun hc hf => ?_, fun hs hb => ?_, fun hs hb => ⟨_, takes, ?_⟩⟩
    · rw [takes, takeDisplaced_other (s := s.setInbox (before ++ behind)) (by rintro (h | h); exacts [hc h, hf h])]
      rfl
    · rw [takes, takeDisplaced_withdrawn (s := s.setInbox (before ++ behind)) hs hb]
      rfl
    · exact takeDisplaced_thrown (s := s.setInbox (before ++ behind)) hs hb

end Sys2Proof.Machine
end

/-! ## Taps that bind -/

section
namespace Sys2Proof.Machine

variable {s t m : State} {u v : UnitIx} {b x : Band} {rest : List Tap} {c : ClassIx} {op : BoltOp} {k : Urgency}
  {f : UnitRec → UnitRec}

/-! ### What does not bear on a movement -/

/-- A change of a record that neither looks at its deferred op nor touches it. -/
structure Aside (f : UnitRec → UnitRec) : Prop where
  rest : ∀ r, (f r).rest = (f r.rest).rest
  deferred : ∀ r, (f r).deferred = r.deferred

theorem Aside.lamp (g : LampPlan → LampPlan) : Aside fun r => { r with lamp := g r.lamp } := ⟨fun _ => rfl, fun _ => rfl⟩

theorem Aside.lit (l : Lamp) (n : Millis) : Aside fun r => r.lit l n := .lamp fun p => { p with transient := some (l, n) }

theorem modUnit_rest (hf : Aside f) (h : (t.unit u).rest = (s.unit u).rest) :
    ((t.modUnit v f).unit u).rest = ((s.modUnit v f).unit u).rest := by
  by_cases hv : u = v
  · subst hv
    rw [modUnit_unit_self, modUnit_unit_self, hf.rest, h, ← hf.rest]
  · rw [modUnit_unit_other _ _ _ _ hv, modUnit_unit_other _ _ _ _ hv, h]

/-- A lamp lit once a movement has been handed over might as well have been lit before. -/
theorem MovesOn.modUnit (hf : Aside f) (h : MovesOn s t u op k) : MovesOn (s.modUnit v f) (t.modUnit v f) u op k := by
  obtain ⟨⟨e, g, p, o⟩, hm⟩ := h
  refine ⟨⟨?_, g, p, fun w hw => modUnit_rest hf (o w hw)⟩, fun hc => ?_⟩
  · unfold State.modUnit State.setUnit
    generalize put t.units v _ = w
    generalize hd : t.drive = d at e
    generalize hg : t.engine = y at e
    rw [e]
  · obtain ⟨placed, deferred⟩ := hm hc
    refine ⟨placed, fun hfull => ?_⟩
    by_cases hv : u = v
    · subst hv
      rw [modUnit_unit_self, hf.deferred]
      exact deferred hfull
    · rw [modUnit_unit_other _ _ _ _ hv]
      exact deferred hfull

/-- So might a notice posted. -/
theorem MovesOn.notices (h : MovesOn s t u op k) (q : NoticeQueue) :
    MovesOn { s with notices := q } { t with notices := q } u op k := by
  obtain ⟨⟨e, g, p, o⟩, hm⟩ := h
  refine ⟨⟨?_, g, p, o⟩, hm⟩
  generalize hu : t.units = v at e
  generalize hd : t.drive = d at e
  generalize hg : t.engine = y at e
  rw [e]

theorem green_eq : green s u = s.modUnit u fun r => r.lit .green (s.clock.ms + 2000) := rfl

theorem MovesOn.green (h : MovesOn s t u op k) : MovesOn (green s u) (green t u) u op k := by
  have clock := h.1.running.2.2
  rw [green_eq, green_eq, clock]
  exact h.modUnit (.lit _ _)

theorem MovesOn.postBound (h : MovesOn s t u op k) : MovesOn (postBound s u b c) (postBound t u b c) u op k := by
  have notices : (Machine.postBound t u b c).notices = (Machine.postBound s u b c).notices := by
    have e := h.1.1
    generalize t.units = v at e
    generalize t.drive = d at e
    generalize t.engine = y at e
    rw [e]
    rfl
  have e : Machine.postBound t u b c = { t with notices := (Machine.postBound s u b c).notices } := by
    rw [← notices]
    rfl
  rw [e]
  exact h.notices _

/-! ### Binds (R30, R32, R43) -/

/-- Every check of R30 is passed. -/
theorem bindRefusal_none (hz : (s.cls c).zones.getLsbD (s.zone u).1 = true)
    (hl : s.kind u = .locker → s.heldOf b .locker < (s.cls c).lockerQuota ∧ (s.cell u).door = true)
    (hc : s.kind u = .cabin → s.heldOf b .cabin < (s.cls c).cabinQuota) : s.bindRefusal u b c = none := by
  rw [bindRefusal_inZone hz, if_neg, if_neg, if_neg]
  · rintro ⟨hk, hd⟩
    simp [(hl hk).2] at hd
  · rintro ⟨hk, hq⟩
    exact absurd (hc hk) (by omega)
  · rintro ⟨hk, hq⟩
    exact absurd (hl hk).1 (by omega)

theorem tapNew_binds (hs : (s.unit u).state = .free) (hr : s.bindRefusal u b c = none) :
    tapNew s u b c = if s.kind u = .locker then bindLocker s u b c else bindCabin s u b c := by
  unfold tapNew
  rw [hs]
  dsimp only
  rw [hr]

/-- The tap of a band with a class at a unit that R28 does not refuse is decided by its class (R29). -/
theorem TapReady.decideTap_class (hi : identify s b = .cls c) (hm : s.inHand u = false) (hs : (s.unit u).suspended = false)
    (hw : (s.unit u).state.serviceRefusal = none) (hc : s.engine.cleaning.get (bankOf u) = false)
    (he : ¬(s.kind u = .cabin ∧ s.levelEvac = true)) :
    decideTap (s.tapTaken rest) u b = tapClass (s.tapTaken rest) u b c := by
  have id : identify (s.tapTaken rest) b = .cls c := hi
  have free : ¬((s.tapTaken rest).inHand u = true ∨ ((s.tapTaken rest).unit u).suspended = true) := by
    rintro (h | h)
    · exact absurd (hm.symm.trans h) (by decide)
    · exact absurd (hs.symm.trans h) (by decide)
  have clean : ¬(s.tapTaken rest).engine.cleaning.get (bankOf u) = true := fun h =>
    absurd (hc.symm.trans h) (by decide)
  rw [decideTap_band free he hw clean, id]
  rfl

/-- The record of a unit that a band binds (R32, R43). -/
def State.boundRec (s : State) (u : UnitIx) (b : Band) (st : UState) : UnitRec :=
  { (((s.unit u).enters (s.kind u) st).lit .green (s.clock.ms + 2000)) with
    holder := some b, boundAt := s.clock.sec, restored := false, latchSeen := false, overstay := false }

/-- The state in which a bind hands its movement over, the lamp and the notice seen to (R32, R43). -/
def State.bindStart (s : State) (u : UnitIx) (b : Band) (c : ClassIx) (st : UState) : State := { s with
  bands := bindUnit s.bands b u c s.clock.sec
  units := put s.units u (s.boundRec u b st)
  notices := s.notices.post (s.notice .bound 0 (some u) (some b) c.1) }

theorem bindStart_eq (st : UState) : green (postBound (enter (setHolder s u b c) u st) u b c) u =
    s.bindStart u b c st := by
  have e : enter (setHolder s u b c) u st = { s with
      bands := bindUnit s.bands b u c s.clock.sec
      units := put s.units u { ((s.unit u).enters (s.kind u) st) with
        holder := some b, boundAt := s.clock.sec, restored := false, latchSeen := false, overstay := false } } := by
    unfold enter setHolder
    rw [modUnit_modUnit]
    rfl
  rw [e, green_eq]
  unfold State.modUnit State.setUnit State.unit postBound post
  simp only [put_get_self, put_put]
  rfl

theorem bindCabin_moves : MovesOn (s.bindStart u b c .admitting) (bindCabin s u b c) u .withdraw .normal := by
  rw [← bindStart_eq]
  exact (handOver_movesOn _ u .withdraw .normal).postBound.green

theorem bindLocker_moves : MovesOn { s.bindStart u b c .locking with
    journal := (handJournal s (.bind u b c s.clock.sec)).journal } (bindLocker s u b c) u .throw .normal := by
  have e : { s.bindStart u b c .locking with journal := (handJournal s (.bind u b c s.clock.sec)).journal } =
      green (postBound (handJournal (enter (setHolder s u b c) u .locking) (.bind u b c s.clock.sec)) u b c) u := by
    rw [← bindStart_eq]
    rfl
  rw [e]
  exact (handOver_movesOn _ u .throw .normal).postBound.green

/-- The band's entry once a tap has bound a unit (R21, R22): new or not, the unit last, the class taken. -/
theorem bandEntry_bound (l : List BandEntry) (u : UnitIx) (now : Nat) : ∃ e,
    bandEntry (bindUnit (writeClass l b c) b u c now) b = some e ∧ e.cls = c ∧ e.held = heldBy l b ++ [u] ∧
      e.firstBound = ((bandEntry l b).map (·.firstBound)).getD now := by
  rw [bandEntry_bindUnit, if_pos rfl]
  refine ⟨_, rfl, ?_⟩
  unfold writeClass heldBy
  rw [bandEntry_map (writeClass_changes b c)]
  cases he : bandEntry l b with
  | none => exact ⟨rfl, rfl, rfl⟩
  | some e =>
    have hb : e.band = b := by simpa using List.find?_some he
    simp [hb]

theorem bandEntry_unbound (l : List BandEntry) (u : UnitIx) (now : Nat) (hx : x ≠ b) :
    bandEntry (bindUnit (writeClass l b c) b u c now) x = bandEntry l x := by
  rw [bandEntry_bindUnit, if_neg hx.symm]
  unfold writeClass
  rw [bandEntry_map (writeClass_changes b c)]
  cases he : bandEntry l x with
  | none => rfl
  | some e =>
    have hb : e.band = x := by simpa using List.find?_some he
    simp [hb, hx]

/-- A tap that binds (R29, R30). -/
theorem TapReady.binds (h : TapReady s u b rest) (hk : s.kind u = .locker ∨ s.kind u = .cabin)
    (hi : identify s b = .cls c) (hm : s.inHand u = false) (hs : (s.unit u).suspended = false)
    (hf : (s.unit u).state = .free) (hn : (s.unit u).holder = none) (hc : s.engine.cleaning.get (bankOf u) = false)
    (he : ¬(s.kind u = .cabin ∧ s.levelEvac = true)) (hr : s.bindRefusal u b c = none) :
    PortServes (if s.kind u = .locker then bindLocker ((s.tapTaken rest).classWritten b c) u b c
      else bindCabin ((s.tapTaken rest).classWritten b c) u b c) (Machine.takeTap s) := by
  refine h.decided hk ?_
  have refusal : ((s.tapTaken rest).classWritten b c).bindRefusal u b c = s.bindRefusal u b c := by
    unfold State.bindRefusal
    rw [heldOf_classWritten, heldOf_classWritten]
    rfl
  rw [TapReady.decideTap_class hi hm hs (by rw [hf]; rfl) hc he, tapClass_new (s := s.tapTaken rest) hn,
    tapNew_binds (s := (s.tapTaken rest).classWritten b c) hf (refusal.trans hr)]
  rfl

/-- Settles O51, for a locker and for a cabin. -/
theorem tapsBind : Obligations.TapsBind := by
  intro s u b rest c h hh r k now holds hi hm hs hf hn hc hz bound index base
  have found : index (bindUnit (writeClass s.bands b c) b u c now) :=
    ⟨bandEntry_bound s.bands u now, fun x hx => bandEntry_unbound s.bands u now hx⟩
  refine ⟨fun hk hq hd => ?_, fun hk he hq => ?_⟩
  · have serves := h.binds (.inl hk) hi hm hs hf hn hc (by simp [hk])
      (bindRefusal_none hz (fun _ => ⟨hq, hd⟩) fun hk' => by simp [hk] at hk')
    rw [if_pos hk] at serves
    exact ⟨_, _, _, rfl, serves, found, bindLocker_moves⟩
  · have serves := h.binds (.inr hk) hi hm hs hf hn hc (by simp [he])
      (bindRefusal_none hz (fun hk' => by simp [hk] at hk') fun _ => hq)
    rw [if_neg (by simp [hk])] at serves
    exact ⟨_, _, _, rfl, serves, found, bindCabin_moves⟩

end Sys2Proof.Machine
end

/-! ## Taps by the holder and by a master band -/

section
namespace Sys2Proof.Machine

variable {s t m : State} {u v : UnitIx} {b x : Band} {rest : List Tap} {c : ClassIx} {op : BoltOp} {k : Urgency}
  {st : UState} {r : UnitRec} {why : Reason} {silent : Bool}

/-! ### The lamp of a state entered (R50) -/

/-- The record of a unit that enters a state with the green lamp shown for 2 s. -/
def State.litRec (s : State) (u : UnitIx) (st : UState) : UnitRec :=
  ((s.unit u).enters (s.kind u) st).lit .green (s.clock.ms + 2000)

theorem green_clock (h : t.clock = s.clock) : green t u =
    { t with units := put t.units u ((t.unit u).lit .green (s.clock.ms + 2000)) } := by
  rw [← h]
  rfl

theorem green_enter : green (enter s u st) u = { s with units := put s.units u (s.litRec u st) } := by
  unfold enter
  rw [green_eq, modUnit_modUnit]
  rfl

theorem green_setPurpose {p : Option Purpose} : green (setPurpose (enter s u st) u p) u =
    { s with units := put s.units u { s.litRec u st with purpose := p } } := by
  unfold setPurpose enter
  rw [green_eq, modUnit_modUnit, modUnit_modUnit]
  rfl

/-- A movement handed over on entering a state, with the green lamp. -/
theorem enter_moves (st : UState) (op : BoltOp) (k : Urgency) :
    MovesOn { s with units := put s.units u (s.litRec u st) } (green (handOver (enter s u st) u op k) u) u op k := by
  rw [← green_enter]
  exact (handOver_movesOn _ u op k).green

theorem purpose_moves (st : UState) (p : Option Purpose) (op : BoltOp) (k : Urgency) :
    MovesOn { s with units := put s.units u { s.litRec u st with purpose := p } }
      (green (handOver (setPurpose (enter s u st) u p) u op k) u) u op k := by
  rw [← green_setPurpose]
  exact (handOver_movesOn _ u op k).green

/-! ### The holder (R33, R34, R45) -/

theorem tapClass_holder (hh : (s.unit u).holder = some b) :
    tapClass s u b c = tapHolder (s.classWritten b c) u b c := by
  unfold tapClass
  dsimp only
  rw [hh]
  exact if_pos rfl

theorem tapHolder_held (hk : s.kind u = .locker) (hs : (s.unit u).state = .held) : tapHolder s u b c = tapOpen s u c := by
  unfold tapHolder
  rw [hk, hs]

theorem tapHolder_open (hk : s.kind u = .locker) (hs : (s.unit u).state = .ajar ∨ (s.unit u).state = .serviceOpen) :
    tapHolder s u b c = tapReclose s u b := by
  unfold tapHolder
  rw [hk]
  rcases hs with hs | hs <;> rw [hs]

theorem tapHolder_inside (hk : s.kind u = .cabin) (hs : (s.unit u).state = .inUse ∨ (s.unit u).state = .expired) :
    tapHolder s u b c = releaseCabin s u .holder false := by
  unfold tapHolder
  rw [hk]
  rcases hs with hs | hs <;> rw [hs]

theorem tapReclose_shut (hd : (s.cell u).door = true) :
    tapReclose s u b = green (handOver (enter (s.noTimer u) u .locking) u .throw .normal) u := if_pos hd

theorem tapReclose_open (hd : (s.cell u).door = false) : tapReclose s u b = refuse s u b .doorOpen :=
  if_neg (by simp [hd])

/-! ### What a master band does (R39, R41, R42) -/

/-- The record of a locker that leaves FAULT or OUT_OF_SERVICE (R39). -/
def State.leftRec (s : State) (u : UnitIx) : UnitRec :=
  if s.returnHands u then { s.unit u with stateRef := none } else s.unit u

/-- The same state, with what is handed to the journal. -/
def State.leftFault (s : State) (u : UnitIx) : State := { s with
  units := put s.units u (s.leftRec u)
  journal := if s.returnHands u then (handJournal s (.state u .returned)).journal else s.journal }

theorem handReturn_leftFault : handReturn s u = s.leftFault u := by
  unfold handReturn State.leftFault State.leftRec
  split
  · rfl
  · rw [put_unit]

theorem openLocker_ajar (hs : (s.unit u).state = .ajar) : openLocker s u = enter (s.noTimer u) u .serviceOpen := by
  unfold openLocker
  dsimp only
  rw [if_pos hs, if_neg (by simp [hs])]

/-- The state of a locker that is opened, a STATE RETURN handed over where it leaves FAULT. -/
def State.opening (s : State) (u : UnitIx) : State := if (s.unit u).state = .fault then s.leftFault u else s

theorem openLocker_withdrawn (hs : (s.unit u).state ≠ .ajar) (hb : (s.cell u).bolt = false) :
    openLocker s u = enter (s.opening u) u .serviceOpen := by
  unfold openLocker State.opening
  dsimp only
  rw [if_neg hs, if_pos hb, handReturn_leftFault]

theorem openLocker_free (hs : (s.unit u).state ≠ .ajar) (hb : (s.cell u).bolt = true) (hh : (s.unit u).holder = none) :
    openLocker s u = handOver (enter (s.opening u) u .serviceOpen) u .withdraw .normal := by
  unfold openLocker State.opening
  dsimp only
  rw [if_neg hs, if_neg (by simp [hb]), if_pos (by simp [hh]), handReturn_leftFault]

theorem openLocker_held (hs : (s.unit u).state ≠ .ajar) (hb : (s.cell u).bolt = true) (hh : (s.unit u).holder ≠ none) :
    openLocker s u = handOver (setPurpose (enter (s.opening u) u .unlocking) u (some .service)) u .withdraw .normal := by
  unfold openLocker State.opening
  dsimp only
  rw [if_neg hs, if_neg (by simp [hb]), if_neg (by simpa using hh), handReturn_leftFault]

theorem opening_of_ne (hs : (s.unit u).state ≠ .fault) : s.opening u = s := if_neg hs

theorem opening_of_fault (hs : (s.unit u).state = .fault) : s.opening u = s.leftFault u := if_pos hs

/-- A cabin that leaves FAULT loses its holder (R42). -/
def State.evicted (s : State) (u : UnitIx) (why : Reason) : State := { s with
  bands := (s.unit u).holder.elim s.bands fun b => unbindUnit s.bands b u
  units := put s.units u (if (s.unit u).holder.isSome then (s.unit u).unheld else s.unit u)
  notices := if (s.unit u).holder.isSome
    then s.notices.post (s.notice .released why.code (some u) (s.unit u).holder (s.unit u).boundAt) else s.notices }

theorem openFaultCabin_eq : openFaultCabin s u why =
    if (s.cell u).bolt then handOver (enter (s.evicted u why) u .serviceOpen) u .withdraw .normal
    else enter (s.evicted u why) u .serviceOpen := by
  have e : (if (s.unit u).holder.isSome then postReleased (clearHolder s u) u why (s.unit u).holder (s.unit u).boundAt
      else s) = s.evicted u why := by
    unfold State.evicted
    cases hh : (s.unit u).holder with
    | none =>
      simp only [Option.isSome_none, Bool.false_eq_true, if_false, Option.elim_none]
      rw [put_unit]
    | some b =>
      rw [clearHolder_eq, hh]
      rfl
  unfold openFaultCabin
  dsimp only
  rw [e]

/-! ### The master path (R40) -/

/-- MASTER_TAP as it is posted (R40). -/
def State.masterTapped (s : State) (u : UnitIx) (b : Band) (effect : Nat) : State := { s with
  notices := s.notices.post (s.notice .masterTap effect (some u) (some b) ((s.unit u).state.code (s.kind u))) }

theorem decideTap_master (hi : identify s b = .master) (hm : s.inHand u = false) (hs : (s.unit u).suspended = false)
    (he : s.kind u = .cabin → s.levelEvac = false) : decideTap s u b = tapMaster s u b := by
  have free : ¬(s.inHand u = true ∨ (s.unit u).suspended = true) := by
    rintro (h | h)
    · exact absurd (hm.symm.trans h) (by decide)
    · exact absurd (hs.symm.trans h) (by decide)
  rw [decideTap_serves free (.inl hi), if_neg fun h => h.2 hi, if_neg fun h => by simp [he h.1] at h, hi]
  rfl

theorem tapMaster_opened (he : s.masterEffect u = .opened) :
    tapMaster s u b = green (masterActs (s.masterTapped u b 1) u .opened) u := by
  unfold tapMaster
  rw [he]
  rfl

theorem tapMaster_close (he : s.masterEffect u = .close) :
    tapMaster s u b = green (masterActs (s.masterTapped u b 2) u .close) u := by
  unfold tapMaster
  rw [he]
  rfl

theorem tapMaster_release (he : s.masterEffect u = .release) :
    tapMaster s u b = green (releaseCabin (s.masterTapped u b 3) u .master false) u := by
  unfold tapMaster
  rw [he]
  rfl

theorem tapMaster_none (he : s.masterEffect u = .none) : tapMaster s u b = s.masterTapped u b 4 := by
  unfold tapMaster
  rw [he]
  rfl

theorem tapMaster_doorOpen (he : s.masterEffect u = .doorOpen) : tapMaster s u b =
    { s.masterTapped u b 5 with units := put s.units u ((s.unit u).lit .red (s.clock.ms + 2000)).beeps } := by
  unfold tapMaster
  rw [he]
  dsimp only
  unfold beep transient
  rw [modUnit_modUnit]
  rfl

theorem masterEffect_locker (hk : s.kind u = .locker)
    (hs : (s.unit u).state = .held ∨ (s.unit u).state = .forced ∨ (s.unit u).state = .fault ∨ (s.unit u).state = .ajar) :
    s.masterEffect u = .opened := by
  unfold State.masterEffect
  rw [hk]
  rcases hs with hs | hs | hs | hs <;> rw [hs]

theorem masterEffect_cabin (hk : s.kind u = .cabin) (hs : (s.unit u).state = .free ∨ (s.unit u).state = .fault) :
    s.masterEffect u = .opened := by
  unfold State.masterEffect
  rw [hk]
  rcases hs with hs | hs <;> rw [hs]

theorem masterEffect_inside (hk : s.kind u = .cabin) (hs : (s.unit u).state = .inUse ∨ (s.unit u).state = .expired) :
    s.masterEffect u = .release := by
  unfold State.masterEffect
  rw [hk]
  rcases hs with hs | hs <;> rw [hs]

theorem masterEffect_serviceOpen (hk : s.kind u = .locker ∨ s.kind u = .cabin) (hs : (s.unit u).state = .serviceOpen) :
    s.masterEffect u = if (s.cell u).door then .close else .doorOpen := by
  unfold State.masterEffect
  rcases hk with hk | hk <;> rw [hk, hs]

theorem masterEffect_none
    (h : s.kind u = .locker ∧ ((s.unit u).state = .free ∨ (s.unit u).state = .outOfService) ∨
      s.kind u = .cabin ∧
        ((s.unit u).state = .vacating ∨ (s.unit u).state = .evacOpen ∨ (s.unit u).state = .outOfService)) :
    s.masterEffect u = .none := by
  unfold State.masterEffect
  rcases h with ⟨hk, hs | hs⟩ | ⟨hk, hs | hs | hs⟩ <;> rw [hk, hs]

theorem masterActs_close_cabin (hk : s.kind u = .cabin) :
    masterActs s u .close = handOver (enter s u .closing) u .throw .normal := if_pos hk

theorem masterActs_close_held (hk : s.kind u = .locker) (hh : (s.unit u).holder ≠ none) :
    masterActs s u .close = handOver (enter s u .locking) u .throw .normal := by
  unfold masterActs
  dsimp only
  rw [if_neg (by simp [hk]), if_pos (Option.isSome_iff_ne_none.mpr hh)]

theorem masterActs_close_free (hk : s.kind u = .locker) (hh : (s.unit u).holder = none) :
    masterActs s u .close = enter s u .free := by
  unfold masterActs
  dsimp only
  rw [if_neg (by simp [hk]), if_neg (by simp [hh])]

/-- A locker opened out of FAULT: its record once it has entered a state with the green lamp. -/
def State.leftLit (s : State) (u : UnitIx) (st : UState) : UnitRec :=
  ((s.leftRec u).enters (s.kind u) st).lit .green (s.clock.ms + 2000)

theorem leftFault_litRec : (s.leftFault u).litRec u st = s.leftLit u st := by
  unfold State.litRec
  rw [show (s.leftFault u).unit u = s.leftRec u from unit_put _]
  rfl

theorem put_leftFault (y : UnitRec) : put (s.leftFault u).units u y = put s.units u y := put_put _ _ _ _

theorem evicted_litRec : (s.evicted u why).litRec u st = (((if (s.unit u).holder.isSome then (s.unit u).unheld
    else s.unit u).enters (s.kind u) st).lit .green (s.clock.ms + 2000)) := by
  unfold State.litRec
  rw [show (s.evicted u why).unit u = _ from unit_put _]
  rfl

theorem put_evicted (y : UnitRec) : put (s.evicted u why).units u y = put s.units u y := put_put _ _ _ _

/-- Whether a STATE stands for a locker (R39). -/
theorem leftRec_locker (hk : s.kind u = .locker) : s.leftRec u =
    if ((s.unit u).stateRef.isSome || s.stateWaits u) = true then { s.unit u with stateRef := none } else s.unit u := by
  unfold State.leftRec State.returnHands
  simp [hk]

theorem leftFault_journal (hk : s.kind u = .locker) : (s.leftFault u).journal =
    if ((s.unit u).stateRef.isSome || s.stateWaits u) = true then (handJournal s (.state u .returned)).journal
    else s.journal := by
  unfold State.leftFault State.returnHands
  simp [hk]

theorem CabinReleased.clock (h : CabinReleased s t u why silent) : t.clock = s.clock := by
  obtain ⟨m, -, hm, ht⟩ := h
  have he : m.clock = s.clock := by rw [hm]
  rw [← he]
  split at ht
  · split at ht
    · exact ht.1.running.2.2
    · exact ht.1.running.2.2
  · rw [ht]

/-- A tap by the unit's holder is decided by its row (R29, R33, R34, R45). -/
theorem tapsByHolder (h : TapReady s u b rest) (hi : identify s b = .cls c) (hm : s.inHand u = false)
    (hs : (s.unit u).suspended = false) (ho : (s.unit u).holder = some b) (hc : s.engine.cleaning.get (bankOf u) = false)
    (hk : s.kind u = .locker ∨ s.kind u = .cabin) (he : s.kind u = .cabin → s.levelEvac = false)
    (hw : (s.unit u).state.serviceRefusal = none) :
    PortServes (tapHolder ((s.tapTaken rest).classWritten b c) u b c) (Machine.takeTap s) := by
  refine h.decided hk ?_
  rw [TapReady.decideTap_class hi hm hs hw hc (fun e => by simp [he e.1] at e),
    tapClass_holder (s := s.tapTaken rest) ho]

/-- Settles O52, for the holder's taps and for those of a master band. -/
theorem tapsByHolderAndMaster : Obligations.TapsByHolderAndMaster := by
  constructor
  · intro s u b rest c h hh r hi hm hs ho hc s0 green
    have holds : HoldingsOk s0 := writeClass_holdings hh
    have serves (hk : s.kind u = .locker ∨ s.kind u = .cabin) (he : s.kind u = .cabin → s.levelEvac = false)
        (hw : r.state.serviceRefusal = none) : PortServes (tapHolder s0 u b c) (Machine.takeTap s) :=
      tapsByHolder h hi hm hs ho hc hk he hw
    refine ⟨fun hk hst => ?_, fun hk hst hd => ?_, fun hk hst hd => ?_, fun hk hst he => ?_⟩
    · have goes := serves (.inl hk) (fun e => by simp [hk] at e) (by rw [hst]; rfl)
      rw [tapHolder_held (s := s0) hk hst] at goes
      exact ⟨_, _, rfl, goes, purpose_moves (s := s0) (u := u) .unlocking _ .withdraw .normal⟩
    · have goes := serves (.inl hk) (fun e => by simp [hk] at e) (by rcases hst with e | e <;> rw [e] <;> rfl)
      rw [tapHolder_open (s := s0) hk hst, tapReclose_shut (s := s0) hd] at goes
      exact ⟨_, _, rfl, goes, enter_moves (s := s0.noTimer u) (u := u) .locking .throw .normal⟩
    · have goes := serves (.inl hk) (fun e => by simp [hk] at e) (by rcases hst with e | e <;> rw [e] <;> rfl)
      rw [tapHolder_open (s := s0) hk hst, tapReclose_open (s := s0) hd, refuse_eq] at goes
      exact ⟨_, rfl, goes⟩
    · have goes := serves (.inr hk) (fun _ => he) (by rcases hst with e | e <;> rw [e] <;> rfl)
      rw [tapHolder_inside (s := s0) hk hst] at goes
      exact ⟨_, _, rfl, goes, releaseCabin_released holds⟩
  · intro s u b rest h hh r c hi hm hs he tapped green moves ends
    have serves {m : State} (hk : s.kind u = .locker ∨ s.kind u = .cabin)
        (e : tapMaster (s.tapTaken rest) u b = m) : PortServes m (Machine.takeTap s) :=
      h.decided hk ((decideTap_master (s := s.tapTaken rest) hi hm hs he).trans e)
    have opened {m : State} (hk : s.kind u = .locker ∨ s.kind u = .cabin) (hf : s.masterEffect u = .opened)
        (e : masterActs (tapped 1) u .opened = m) : PortServes (Machine.green m u) (Machine.takeTap s) :=
      serves hk ((tapMaster_opened (s := s.tapTaken rest) hf).trans (by rw [← e]; rfl))
    have locker (hk : s.kind u = .locker) : masterActs (tapped 1) u .opened = openLocker (tapped 1) u := if_pos hk
    have cabin (hk : s.kind u = .cabin) (hst : r.state = .free) : masterActs (tapped 1) u .opened =
        handOver (enter (tapped 1) u .serviceOpen) u .withdraw .normal := by
      unfold masterActs
      dsimp only
      rw [if_neg (by rw [show (tapped 1).kind u = .cabin from hk]; decide),
        if_pos (show ((tapped 1).unit u).state = .free from hst)]
    have closed {m : State} (hk : s.kind u = .locker ∨ s.kind u = .cabin) (hst : r.state = .serviceOpen)
        (hd : c.door = true) (e : masterActs (tapped 2) u .close = m) :
        PortServes (Machine.green m u) (Machine.takeTap s) := by
      have effect : s.masterEffect u = .close := by rw [masterEffect_serviceOpen hk hst, if_pos hd]
      exact serves hk ((tapMaster_close (s := s.tapTaken rest) effect).trans (by rw [← e]; rfl))
    have lit {n : Nat} {k : UnitKind} {st : UState} (hk : s.kind u = k) :
        (tapped n).litRec u st = green (r.enters k st) := by
      rw [← hk]
      rfl
    refine ⟨fun hk hst ho => ⟨fun hb => ?_, fun hb => ?_⟩, fun hk hst => ?_, fun hk hst => ?_, fun hk hst => ?_,
      fun hst hd => ⟨fun hk => ?_, fun hk ho => ?_, fun hk ho => ?_⟩, fun hk hst hd => ?_,
      fun hk hst => ?_, fun hk hst => ?_, fun hk hst => ?_, fun hk hst => ?_⟩
    · have away : r.state ≠ .ajar ∧ r.state ≠ .fault := by rcases hst with e | e <;> rw [e] <;> decide
      have e := (locker hk).trans (openLocker_held (s := tapped 1) away.1 hb ho)
      rw [opening_of_ne (s := tapped 1) away.2] at e
      have mv := purpose_moves (s := tapped 1) (u := u) .unlocking (some .service) .withdraw .normal
      rw [lit hk] at mv
      exact ⟨_, _, rfl, opened (.inl hk) (masterEffect_locker hk (hst.imp_right .inl)) e, mv⟩
    · have away : r.state ≠ .ajar ∧ r.state ≠ .fault := by rcases hst with e | e <;> rw [e] <;> decide
      have e := (locker hk).trans (openLocker_withdrawn (s := tapped 1) away.1 hb)
      rw [opening_of_ne (s := tapped 1) away.2] at e
      have goes := opened (.inl hk) (masterEffect_locker hk (hst.imp_right .inl)) e
      rw [green_enter, lit hk] at goes
      exact ⟨_, rfl, goes⟩
    · have goes := opened (.inl hk) (masterEffect_locker hk (.inr (.inr (.inr hst))))
        ((locker hk).trans (openLocker_ajar (s := tapped 1) hst))
      rw [green_enter, show ((tapped 1).noTimer u).litRec u .serviceOpen = _ from lit (n := 1) hk] at goes
      exact ⟨_, rfl, goes⟩
    · have mv := enter_moves (s := tapped 1) (u := u) .serviceOpen .withdraw .normal
      rw [lit hk] at mv
      exact ⟨_, _, rfl, opened (.inr hk) (masterEffect_cabin hk (.inl hst)) (cabin hk hst), mv⟩
    · have released := releaseCabin_released (s := tapped 3) (u := u) (why := .master) (silent := false) hh
      have goes := serves (.inr hk) (tapMaster_release (s := s.tapTaken rest) (masterEffect_inside hk hst))
      exact ⟨_, _, _, rfl, goes, released, green_clock released.clock⟩
    · have goes := closed (.inr hk) hst hd (masterActs_close_cabin (s := tapped 2) hk)
      have mv := enter_moves (s := tapped 2) (u := u) .closing .throw .normal
      rw [lit hk] at mv
      exact ⟨_, _, rfl, goes, mv⟩
    · have goes := closed (.inl hk) hst hd (masterActs_close_held (s := tapped 2) hk ho)
      have mv := enter_moves (s := tapped 2) (u := u) .locking .throw .normal
      rw [lit hk] at mv
      exact ⟨_, _, rfl, goes, mv⟩
    · have goes := closed (.inl hk) hst hd (masterActs_close_free (s := tapped 2) hk ho)
      rw [green_enter, lit hk] at goes
      exact ⟨_, rfl, goes⟩
    · have effect : s.masterEffect u = .doorOpen := by
        rw [masterEffect_serviceOpen hk hst, if_neg (by simp [show (s.cell u).door = false from hd])]
      exact ⟨_, rfl, serves hk (tapMaster_doorOpen (s := s.tapTaken rest) effect)⟩
    · intro standing x left
      have fault : s.masterEffect u = .opened := masterEffect_locker hk (.inr (.inr (.inl hst)))
      have away : r.state ≠ .ajar := by rw [hst]; decide
      have opening : (tapped 1).opening u = (tapped 1).leftFault u := opening_of_fault (s := tapped 1) hst
      have record : (tapped 1).leftRec u = x := leftRec_locker (s := tapped 1) hk
      have journal : (tapped 1).leftFault u = { left with units := put s.units u x } := by
        rw [← record]
        exact congrArg (fun j => { tapped 1 with units := put s.units u ((tapped 1).leftRec u), journal := j })
          (leftFault_journal (s := tapped 1) hk)
      have litLeft (st : UState) : ((tapped 1).leftFault u).litRec u st = green (x.enters .locker st) := by
        rw [leftFault_litRec, State.leftLit, record, ← hk]
        rfl
      have units (y : UnitRec) : ({ (tapped 1).leftFault u with units := put ((tapped 1).leftFault u).units u y } : State) =
          { left with units := put s.units u y } := by
        rw [put_leftFault, journal]
        rfl
      refine ⟨fun hb => ?_, fun hb ho => ?_, fun hb ho => ?_⟩
      · have goes := opened (.inl hk) fault ((locker hk).trans (openLocker_withdrawn (s := tapped 1) away hb))
        rw [opening, green_enter, litLeft, units] at goes
        exact ⟨_, rfl, goes⟩
      · have goes := opened (.inl hk) fault ((locker hk).trans (openLocker_free (s := tapped 1) away hb ho))
        have mv := enter_moves (s := (tapped 1).leftFault u) (u := u) .serviceOpen .withdraw .normal
        rw [opening] at goes
        rw [litLeft, units] at mv
        exact ⟨_, _, rfl, goes, mv⟩
      · have goes := opened (.inl hk) fault ((locker hk).trans (openLocker_held (s := tapped 1) away hb ho))
        have mv := purpose_moves (s := (tapped 1).leftFault u) (u := u) .unlocking (some .service) .withdraw .normal
        rw [opening] at goes
        rw [litLeft, units] at mv
        exact ⟨_, _, rfl, goes, mv⟩
    · refine ⟨_, unbind_bandLeft hh _, ?_⟩
      intro x left
      have acts : masterActs (tapped 1) u .opened = openFaultCabin (tapped 1) u .master := by
        unfold masterActs
        dsimp only
        rw [if_neg (by rw [show (tapped 1).kind u = .cabin from hk]; decide),
          if_neg (by rw [show ((tapped 1).unit u).state = .fault from hst]; decide)]
      have start : ({ (tapped 1).evicted u .master with
          units := put ((tapped 1).evicted u .master).units u (((tapped 1).evicted u .master).litRec u .serviceOpen) } :
          State) = left := by
        rw [put_evicted, evicted_litRec, show (tapped 1).kind u = .cabin from hk]
        rfl
      refine ⟨fun hb => ?_, fun hb => ?_⟩
      · have goes := opened (.inr hk) (masterEffect_cabin hk (.inr hst)) (acts.trans openFaultCabin_eq)
        rw [if_neg (by rw [show ((tapped 1).cell u).bolt = false from hb]; decide), green_enter, start] at goes
        exact ⟨_, rfl, goes⟩
      · have goes := opened (.inr hk) (masterEffect_cabin hk (.inr hst)) (acts.trans openFaultCabin_eq)
        rw [if_pos (show ((tapped 1).cell u).bolt = true from hb)] at goes
        have mv := enter_moves (s := (tapped 1).evicted u .master) (u := u) .serviceOpen .withdraw .normal
        rw [start] at mv
        exact ⟨_, _, rfl, goes, mv⟩
    · exact ⟨_, rfl, serves (.inl hk) (tapMaster_none (s := s.tapTaken rest) (masterEffect_none (.inl ⟨hk, hst⟩)))⟩
    · exact ⟨_, rfl, serves (.inr hk) (tapMaster_none (s := s.tapTaken rest) (masterEffect_none (.inr ⟨hk, hst⟩)))⟩

end Sys2Proof.Machine
end

/-! ## The valid mark of a queued journal record -/

section
namespace Sys2Proof.Machine

variable {s t m : State} {w : JWrite} {content : List Byte} {p : Program} {q : QRec} {rest : List QRec} {h : Nat}

/-! ### The toggle of the store's status (R143) -/

theorem Begins.toggle (hb : Begins s t p) : t.mgmt.toggle = s.mgmt.toggle := by rw [hb]

theorem advanceSlot_mgmt (s : State) : (advanceSlot s).mgmt = s.mgmt := by
  unfold advanceSlot openNext
  dsimp only
  split
  · split
    · split
      · rfl
      · split <;> rfl
    · rfl
  · rfl

theorem WriteRefused.toggle (hr : WriteRefused s t w) : t.mgmt.toggle = s.mgmt.toggle := by
  rw [writeRefused_eq hr]
  unfold writeRefused
  cases w.what with
  | header =>
    dsimp only
    unfold openRefused
    dsimp only
    split <;> rfl
  | queued => rw [advanceSlot_mgmt]
  | copy u isBind orig cancel => rw [advanceSlot_mgmt]

/-- No choice of the arbiter touches the toggle. -/
theorem ArbiterTurn.toggle (ht : ArbiterTurn s t) : t.mgmt.toggle = s.mgmt.toggle := by
  cases ht with
  | valid _ _ _ _ _ hb => exact hb.toggle
  | validRefused _ _ _ _ _ hr => exact hr.toggle
  | body _ _ _ _ hb => exact hb.toggle
  | bodyRefused _ _ _ _ hr => exact hr.toggle
  | retiring _ _ _ _ _ hb => exact hb.toggle
  | management _ _ _ _ _ hb => exact hb.toggle
  | _ => rfl

theorem ArbiterRuns.toggle (hr : ArbiterRuns s t) : t.mgmt.toggle = s.mgmt.toggle := by
  induction hr with
  | rest _ => rfl
  | turn ht _ ih => exact ih.trans ht.toggle

theorem pump_toggle (s : State) : (pump s).mgmt.toggle = s.mgmt.toggle := by
  obtain ⟨⟨m, ⟨e, -⟩, hr⟩, -⟩ := pump_serves s
  rw [hr.toggle, e]

/-! ### What the port begins where nothing else is to do (R115, R117, R133) -/

/-- Nothing precedes the next slot write: a head, no reclaim to start or under way, and no slot write. -/
structure Settled (s : State) : Prop where
  head : s.journal.head ≠ none
  reclaim : s.journal.reclaim = .idle
  blanks : 3 < s.journal.blanks
  write : s.journal.write = none

theorem Settled.ready (hs : Settled s) : advanceScan (startReclaim (openFirst s)) = s := by
  have opens : openFirst s = s := if_neg fun h => hs.head h.1
  have starts : startReclaim s = s := if_neg fun h => absurd h.2.1 (by
    have := hs.blanks
    unfold Config.reclaimAt
    omega)
  rw [opens, starts]
  unfold advanceScan State.copyUnderWay
  rw [hs.write, hs.reclaim]
  rfl

/-- The body program of the slot write that is due is carried. -/
theorem Settled.pump_begins (hs : Settled s) (hp : s.port.program = none) (he : ErasePaused s)
    (hw : nextWrite s = some (w, content)) (hb : s.slotState w.ref = .blank) : pump s = beginWrite s w content := by
  have carries : carryJournal s = beginWrite s w content := by
    unfold carryJournal
    rw [hs.write, hw]
    exact if_pos hb
  have once : arbitrateOnce s = (beginWrite s w content, true) := by
    unfold arbitrateOnce State.journalWants
    rw [hp, hs.write, hw, carries]
    dsimp only
    cases hx : s.port.erase with
    | none => rfl
    | some e =>
      obtain ⟨journal, seg, phase⟩ := e
      obtain ⟨ha, hs⟩ := he _ hx
      cases phase with
      | active => exact absurd rfl ha
      | suspending => exact absurd rfl hs
      | _ => rfl
  unfold pump
  rw [hs.ready]
  unfold arbitrateLoop
  rw [once]
  have busy : (beginWrite s w content).port.program.isSome := rfl
  exact arbitrateLoop_busy 299 _ busy

theorem beginWrite_journal (s : State) (w : JWrite) (content : List Byte) :
    (beginWrite s w content).journal = { s.journal with write := some w } ∧
      (beginWrite s w content).port.program = some ⟨.journal, .body, w.ref, content⟩ := ⟨rfl, rfl⟩

/-- The header of the segment claimed is due. -/
theorem nextWrite_header {g : Nat} (ho : s.journal.opening = some g) (hh : s.journal.head = some h) :
    nextWrite s = some (⟨.header, ⟨g, 0⟩, false⟩, headerBytes (s.journal.headGen + 1)) := by
  unfold nextWrite
  rw [ho, hh]
  rfl

/-- The record at the head of the queue is due. -/
theorem nextWrite_queued (ho : s.journal.opening = none) (hh : s.journal.head = some h) (hn : s.journal.next ≤ 127)
    (hr : s.journal.reclaim = .idle) (hq : s.journal.queue = q :: rest) :
    nextWrite s = some (⟨.queued, ⟨h, s.journal.next⟩, false⟩, q.body.bytes) := by
  unfold nextWrite nextRecord
  rw [ho, hh, hr, hq]
  dsimp only
  rw [if_pos hn]
  rfl

/-! ### The record written (R117) -/

/-- The units once a queued record has been written to a slot. -/
def State.refSet (s : State) (q : QRec) (ref : Ref) : Vector UnitRec 512 :=
  if q.void then s.units else match q.body with
    | .bind u _ _ _ => put s.units u { s.unit u with journalRef := some ref }
    | .state _ .returned => s.units
    | .state u _ => put s.units u { s.unit u with stateRef := some ref }
    | .release _ => s.units

theorem setRef_eq (s : State) (q : QRec) (ref : Ref) : setRef s q ref = { s with units := s.refSet q ref } := by
  unfold setRef State.refSet
  split
  · rfl
  · obtain ⟨body, void⟩ := q
    cases body with
    | state u k => cases k <;> rfl
    | _ => rfl

/-- What the port and the store come to hold does not bear on what waits. -/
theorem stillHeld_port (s : State) (x : Store) (y : Port) : ({ s with store := x, port := y } : State).stillHeld = s.stillHeld := by
  funext h
  cases h <;> rfl

theorem heldNow_port (s : State) (x : Store) (y : Port) : ({ s with store := x, port := y } : State).heldNow = s.heldNow := by
  have arrivals : ({ s with store := x, port := y } : State).arrivals = s.arrivals := rfl
  unfold State.heldNow
  rw [stillHeld_port, arrivals]
  rfl

/-- The events held back once the record that leaves a full queue is written (R24, log 15). -/
def State.heldAtWrite (s : State) : List HeldEvent := if s.journalRoom then s.engine.held else s.noteHeld.engine.held

/-- The state in which the next slot advances. -/
def State.recordWritten (s : State) (p : Program) (q : QRec) (rest : List QRec) : State := { s with
  store := s.store.write p.ref.addr { s.store.read p.ref.addr with state := .valid }
  port := { s.port with program := none }
  units := s.refSet q p.ref
  engine := { s.engine with held := s.heldAtWrite }
  journal := { s.journal with queue := rest, write := none, turn := some .record } }

theorem heldAtWrite_port (s : State) (x : Store) (y : Port) :
    ({ s with store := x, port := y } : State).heldAtWrite = s.heldAtWrite := by
  have room : ({ s with store := x, port := y } : State).journalRoom = s.journalRoom := rfl
  unfold State.heldAtWrite State.noteHeld
  rw [room, heldNow_port]

/-- The Journal Engine's part in the end of a queued record's valid mark (R117). -/
theorem journalValidEnd_queued (hw : s.journal.write = some w) (hq : w.what = .queued) (hl : s.journal.queue = q :: rest) :
    journalValidEnd s = advanceSlot { s with
      units := s.refSet q w.ref
      engine := { s.engine with held := s.heldAtWrite }
      journal := { s.journal with queue := rest, write := none, turn := some .record } } := by
  unfold journalValidEnd
  rw [hw]
  dsimp only
  rw [hq, hl]
  dsimp only
  rw [setRef_eq]
  unfold writeOver State.heldAtWrite
  cases s.journalRoom <;> rfl

theorem validMark_queued (hp : s.port.program = some p) (hk : p.kind = .valid) (ho : p.owner = .journal)
    (hw : s.journal.write = some w) (hq : w.what = .queued) (hr : w.ref = p.ref) (hl : s.journal.queue = q :: rest) :
    exec .validMarkProgramEnd s = .next (pump (advanceSlot (s.recordWritten p q rest))) := by
  have ends : endValid s p = advanceSlot (s.recordWritten p q rest) := by
    have held := heldAtWrite_port s (s.store.write p.ref.addr { s.store.read p.ref.addr with state := .valid })
      { s.port with program := none }
    unfold endValid State.recordWritten
    dsimp only
    rw [ho, ← held, ← hr]
    exact journalValidEnd_queued (s := s.portFree.markSlot w.ref .valid) hw hq hl
  refine congrArg Host.Outcome.next ?_
  unfold programEnd
  rw [hp]
  dsimp only
  rw [if_pos hk, ends]

theorem heldAtWrite_kept (hr : JournalRoom s ∨ ¬Taking s) : s.heldAtWrite = s.engine.held := by
  unfold State.heldAtWrite
  rcases hr with hr | hr
  · rw [if_pos ((journalRoom_iff s).mpr hr)]
  · have off : s.engineOn = false := Bool.eq_false_iff.mpr fun h => hr ((engineOn_iff s).mp h)
    split
    · rfl
    · show s.heldNow = _
      unfold State.heldNow
      rw [off]
      rfl

theorem heldAtWrite_noted (hr : ¬JournalRoom s) (ht : Taking s) : AllNoted s s.heldAtWrite := by
  unfold State.heldAtWrite
  rw [if_neg fun h => hr ((journalRoom_iff s).mp h)]
  exact noteHeld_allNoted s hr ht

/-- What the next slot's advance leaves alone. -/
theorem advanceSlot_leaves (s : State) : (advanceSlot s).units = s.units ∧ (advanceSlot s).port = s.port ∧
    (advanceSlot s).engine.held = s.engine.held := by
  unfold advanceSlot openNext
  dsimp only
  split
  · split
    · split
      · exact ⟨rfl, rfl, rfl⟩
      · split <;> exact ⟨rfl, rfl, rfl⟩
    · exact ⟨rfl, rfl, rfl⟩
  · exact ⟨rfl, rfl, rfl⟩

theorem slotState_of_clear {g : Nat} (hc : SegClear s g) : s.slotState ⟨g, 0⟩ = .blank := by
  unfold State.slotState Store.read
  cases hf : s.store.find? fun e => e.1 == Ref.addr ⟨g, 0⟩ with
  | none => rfl
  | some e =>
    have at_ : e.1 = Ref.addr ⟨g, 0⟩ := by simpa using List.find?_some hf
    exact hc e (List.mem_of_find?_eq_some hf) (by rw [at_]; simp [Ref.addr])

/-- Slots 0 to 127 of the segments have addresses of their own. -/
theorem addr_ne {x y : Ref} (hx : x.slot ≤ 127) (hy : y.slot ≤ 127) (hn : x ≠ y) : y.addr ≠ x.addr := by
  obtain ⟨g, i⟩ := x
  obtain ⟨d, j⟩ := y
  intro h
  simp only [Ref.addr] at h hx hy
  have : d = g := by omega
  have : j = i := by omega
  subst_vars
  exact hn rfl

/-- The slot written turns VALID, and no program that begins in the same event touches it. -/
theorem recordWritten_valid (s : State) (p : Program) (q : QRec) (rest : List QRec) :
    (pump (advanceSlot (s.recordWritten p q rest))).slotState p.ref = .valid := by
  have store := (advanceSlot_quiet (s.recordWritten p q rest)).store
  have written : ((advanceSlot (s.recordWritten p q rest)).store.read p.ref.addr).state = .valid := by
    rw [store]
    exact congrArg Slot.state (store_read_write_kept s.store _ _ (by simp [Slot.erased]))
  obtain ⟨-, -, -, -, -, takes⟩ := pump_portFrame (advanceSlot (s.recordWritten p q rest))
  rcases takes p.ref.addr with e | ⟨x, -, -, -, blank, -⟩
  · exact (congrArg Slot.state e).trans written
  · rw [written] at blank
    exact absurd blank (by decide)

/-- Settles O38. -/
theorem queuedRecordWritten : Obligations.QueuedRecordWritten := by
  intro s p w q rest hp hk ho hw hq hr hl units
  have goes := validMark_queued hp hk ho hw hq hr hl
  have quiet := advanceSlot_quiet (s.recordWritten p q rest)
  have advances := advanceSlot_advances (s.recordWritten p q rest)
  obtain ⟨sameUnits, samePort, sameHeld⟩ := advanceSlot_leaves (s.recordWritten p q rest)
  refine ⟨advanceSlot (s.recordWritten p q rest), _, s.heldAtWrite, goes, pump_serves _, (pump_held _).trans sameHeld,
    heldAtWrite_kept, heldAtWrite_noted, advances, (pump_units _).trans sameUnits, (pump_queue _).trans quiet.queue,
    recordWritten_valid s p q rest, ?_, ?_⟩
  · rw [pump_toggle, advanceSlot_mgmt]
    rfl
  · intro h hh hi hb he
    have headed : s.journal.head ≠ none := by simp [hh]
    have full (hn : s.journal.next + 1 = 128) :
        (s.recordWritten p q rest).journal.head = some h ∧ (s.recordWritten p q rest).journal.next + 1 = 128 := ⟨hh, hn⟩
    have program : (advanceSlot (s.recordWritten p q rest)).port.program = none := by
      rw [samePort]
      rfl
    have paused : ErasePaused (advanceSlot (s.recordWritten p q rest)) := by
      unfold ErasePaused
      rw [samePort]
      exact he
    refine ⟨fun hn hc _ => ?_, fun x more hm hopen hn hblank hne hs => ?_⟩
    · have clear : SegClear (s.recordWritten p q rest) (roundNext h) := by
        unfold SegClear at hc ⊢
        rw [quiet.store] at hc
        exact hc
      have blank := slotState_of_clear hc
      have e := advances.1 h (full hn) clear
      have settled : Settled (advanceSlot (s.recordWritten p q rest)) :=
        ⟨by rw [e]; exact headed, by rw [e]; exact hi, hb, by rw [e]; rfl⟩
      have due := nextWrite_header (s := advanceSlot (s.recordWritten p q rest)) (g := roundNext h) (h := h)
        (by rw [e]) (by rw [e]; exact hh)
      rw [settled.pump_begins program paused due blank, e]
      exact ⟨rfl, rfl, rfl, rfl, rfl⟩
    · have e := advances.2.2 fun k hf => by
        obtain ⟨-, hf⟩ := hf
        have : s.journal.next + 1 = 128 := hf
        omega
      have blank : (advanceSlot (s.recordWritten p q rest)).slotState ⟨h, s.journal.next + 1⟩ = .blank := by
        have other : Ref.addr ⟨h, s.journal.next + 1⟩ ≠ p.ref.addr :=
          addr_ne hs (show s.journal.next + 1 ≤ 127 by omega) hne
        unfold State.slotState
        rw [quiet.store]
        exact (congrArg Slot.state (store_read_write_other s.store _ _ _ other)).trans hblank
      have settled : Settled (advanceSlot (s.recordWritten p q rest)) :=
        ⟨by rw [e]; exact headed, by rw [e]; exact hi, hb, by rw [e]; rfl⟩
      have next : (advanceSlot (s.recordWritten p q rest)).journal.next = s.journal.next + 1 := by
        rw [e]
        rfl
      have due := nextWrite_queued (s := advanceSlot (s.recordWritten p q rest)) (q := x) (rest := more) (h := h)
        (by rw [e]; exact hopen) (by rw [e]; exact hh) (by omega) settled.reclaim (by rw [e]; exact hm)
      rw [next] at due
      rw [settled.pump_begins program paused due blank, e]
      exact ⟨rfl, rfl, rfl⟩

end Sys2Proof.Machine
end

/-! ## Events that touch one unit -/

section
namespace Sys2Proof.Machine

variable {s t m : State} {u v : UnitIx} {op : BoltOp} {k : Urgency} {st : UState} {how : Leave} {cleared : Bool}

/-- From s to t no other record than one unit's changes, a deferred op apart, and the engine keeps what waits, what is
held back and what has arrived. -/
structure OnlyUnit (u : UnitIx) (s t : State) : Prop where
  others : ∀ v, v ≠ u → (t.unit v).rest = (s.unit v).rest
  inbox : s.engine.inbox <+: t.engine.inbox
  held : t.engine.held = s.engine.held
  arrived : t.engine.arrived = s.engine.arrived

theorem OnlyUnit.trans (h : OnlyUnit u s m) (g : OnlyUnit u m t) : OnlyUnit u s t where
  others v hv := (g.others v hv).trans (h.others v hv)
  inbox := h.inbox.trans g.inbox
  held := g.held.trans h.held
  arrived := g.arrived.trans h.arrived

theorem OnlyUnit.of (g : OnlyUnit u m t) (h : OnlyUnit u s m) : OnlyUnit u s t := h.trans g

theorem OnlyUnit.same (h : (t.units, t.engine.inbox, t.engine.held, t.engine.arrived) =
    (s.units, s.engine.inbox, s.engine.held, s.engine.arrived)) : OnlyUnit u s t := by
  simp only [Prod.mk.injEq] at h
  obtain ⟨hu, hi, hh, ha⟩ := h
  exact ⟨fun v _ => by unfold State.unit; rw [hu], by rw [hi], hh, ha⟩

theorem OnlyUnit.refl (s : State) : OnlyUnit u s s := .same rfl

theorem OnlyUnit.ite {c : Prop} [Decidable c] {x y : State} (h : c → OnlyUnit u s x) (g : ¬c → OnlyUnit u s y) :
    OnlyUnit u s (if c then x else y) := by
  split
  exacts [h ‹_›, g ‹_›]

theorem DriveActs.onlyUnit (h : DriveActs s t) : OnlyUnit u s t := by
  obtain ⟨-, g, p, o⟩ := h
  exact ⟨fun v _ => o v (by simp), p, by rw [g], by rw [g]⟩

theorem modUnit_only {f : UnitRec → UnitRec} : OnlyUnit u s (s.modUnit u f) where
  others v hv := by rw [modUnit_unit_other _ _ _ _ hv]
  inbox := List.prefix_rfl
  held := rfl
  arrived := rfl

theorem handOver_only : OnlyUnit u s (handOver s u op k) := (handOver_acts s u op k).onlyUnit

theorem withTimer_only {x : TimerKind} {n : Nat} : OnlyUnit u s (s.withTimer v x n) := .same rfl
theorem setFollow_only {l : List (UnitIx × Follow)} : OnlyUnit u s (s.setFollow l) := .same rfl
theorem setRunning_only {r : Option Running} : OnlyUnit u s (s.setRunning r) := .same rfl
theorem handJournal_only {r : JRec} : OnlyUnit u s (handJournal s r) := .same rfl
theorem postReleased_only {why : Reason} {b : Option Band} {n : Nat} : OnlyUnit u s (postReleased s v why b n) := .same rfl

theorem clearHolder_only : OnlyUnit u s (clearHolder s u) where
  others v hv := by rw [clearHolder_unit_other hv]
  inbox := by rw [clearHolder_eq]
  held := by rw [clearHolder_eq]
  arrived := by rw [clearHolder_eq]

theorem closeCabin_only : OnlyUnit u s (closeCabin s u) :=
  .ite (fun _ => .ite (fun _ => handOver_only.of modUnit_only) fun _ => modUnit_only)
    fun _ => handOver_only.of modUnit_only

theorem releaseLocker_only {why : Reason} : OnlyUnit u s (releaseLocker s u why) :=
  postReleased_only.of (handJournal_only.of (modUnit_only.of (modUnit_only.of clearHolder_only)))

theorem setTimes_only {n : Nat} : OnlyUnit u s (setTimes s u n) := by
  unfold setTimes
  dsimp only
  split <;> exact withTimer_only.of modUnit_only

theorem admitCabin_only : OnlyUnit u s (admitCabin s u) := setTimes_only.of (.of modUnit_only modUnit_only)

theorem verifiedLocker_only {door : Bool} : OnlyUnit u s (verifiedLocker s u op door) := by
  unfold verifiedLocker
  dsimp only
  split
  · refine .ite (fun _ => modUnit_only) fun _ => ?_
    exact .of modUnit_only (.of modUnit_only (.of handOver_only (.of modUnit_only modUnit_only)))
  · split
    · exact releaseLocker_only
    · exact withTimer_only.of (.of modUnit_only modUnit_only)
    · exact .of modUnit_only modUnit_only
    · exact .refl s
  · exact .refl s

theorem verifiedCabin_only {door : Bool} : OnlyUnit u s (verifiedCabin s u op door) := by
  unfold verifiedCabin
  split
  · exact admitCabin_only
  · exact .ite (fun _ => modUnit_only) fun _ => .of handOver_only modUnit_only
  · exact .ite (fun _ => modUnit_only) fun _ => .of handOver_only modUnit_only
  · exact .refl s

theorem verifiedUnit_only {door : Bool} : OnlyUnit u s (verifiedUnit s u op door) := by
  unfold verifiedUnit
  split
  · exact verifiedLocker_only
  · exact verifiedCabin_only
  · exact .refl s

theorem movementLeft_only : OnlyUnit u s (movementLeft s v how cleared) := by
  rw [movementLeft_eq]
  exact setRunning_only

theorem followUp_only : OnlyUnit u s (followUp s u how) := by
  unfold followUp
  split
  · exact .refl s
  · dsimp only
    split
    · split
      · exact .of handOver_only (.of modUnit_only setFollow_only)
      · split
        · exact .of modUnit_only setFollow_only
        · exact .of (promote_acts _ u).onlyUnit setFollow_only
      · exact .same rfl
    · exact .of modUnit_only setFollow_only
    · exact .ite (fun _ => .of handOver_only (.of modUnit_only setFollow_only)) fun _ => .same rfl
    · exact .of modUnit_only setFollow_only
    · exact .same rfl

theorem takeVerified_only {c : Cell} : OnlyUnit u s (takeVerified s u op c) :=
  movementLeft_only.of (followUp_only.of verifiedUnit_only)

theorem pump_only : OnlyUnit u s (pump s) where
  others v _ := by
    unfold State.unit
    rw [pump_units]
  inbox := by
    obtain ⟨_, reports, e⟩ := pump_frame s
    rw [e]
    exact List.prefix_append _ _
  held := pump_held s
  arrived := pump_arrived s

end Sys2Proof.Machine
end


/-! ## Verify results taken or held back -/

section
namespace Sys2Proof.Machine

variable {s t m : State} {u v : UnitIx} {op : BoltOp} {k : Urgency} {c : Cell} {before behind : List EngEvent}
  {r : Option Running} {why : Reason}

/-! ### Which one is taken (R24) -/

theorem verifyResult_takes (ht : Taking s) (hg : s.reportGoes u)
    (hi : s.engine.inbox = before ++ .verified u op c :: behind)
    (hb : ∀ e ∈ before, ∀ v op' c', e = .verified v op' c' → ¬s.reportGoes v) :
    exec .verifyResult s = .next (pump (takeVerified (s.reportTaken u (before ++ behind)) u op c)) := by
  have taken : s.noteHeld.takeReport EngEvent.isVerified = some (.verified u op c, before ++ behind) := by
    refine takeReport_append hi rfl rfl hg fun x hx hp => ?_
    cases x with
    | verified v op' c' => exact ⟨v, rfl, hb _ hx v op' c' rfl⟩
    | _ => exact absurd hp (by simp [EngEvent.isVerified])
  have found : s.engine.inbox.any EngEvent.isVerified = true := by rw [hi]; simp [EngEvent.isVerified]
  refine congrArg Host.Outcome.next ?_
  unfold verifyResult
  rw [if_neg (by simp [(engineOn_iff s).mpr ht, found])]
  dsimp only
  rw [taken]
  rfl

/-- Whatever verify result is taken, if one is. -/
theorem verifyResult_goes (ht : Taking s) (he : ∃ e ∈ s.engine.inbox, e.isVerified = true) :
    (∃ v op' c' rest, s.noteHeld.takeReport EngEvent.isVerified = some (.verified v op' c', rest) ∧
      exec .verifyResult s = .next (pump (takeVerified (s.reportTaken v rest) v op' c'))) ∨
    exec .verifyResult s = .next s.noteHeld := by
  have found : s.engine.inbox.any EngEvent.isVerified = true := List.any_eq_true.mpr he
  have goes : exec .verifyResult s = .next (match s.noteHeld.takeReport EngEvent.isVerified with
      | some (.verified v op' c', rest) => pump (takeVerified (s.reportTaken v rest) v op' c')
      | _ => s.noteHeld) := by
    refine congrArg Host.Outcome.next ?_
    unfold verifyResult
    rw [if_neg (by simp [(engineOn_iff s).mpr ht, found])]
    rfl
  rw [goes]
  split
  case h_1 x v op' c' rest hx => exact .inl ⟨v, op', c', rest, hx, rfl⟩
  case h_2 => exact .inr rfl

/-- A locker's verify result that is held back stays, and is noted so, whatever other result is taken (R24). -/
theorem verifyResult_held (ht : Taking s) (hk : s.kind u = .locker) (hn : ¬LetThrough s (.report u))
    (he : EngEvent.verified u op c ∈ s.engine.inbox) : ∃ t, exec .verifyResult s = .next t ∧
      EngEvent.verified u op c ∈ t.engine.inbox ∧ HeldEvent.report u ∈ t.engine.held ∧
      (t.unit u).rest = (s.unit u).rest := by
  have mem := mem_lockerReports he rfl hk
  have held : HeldEvent.report u ∈ s.noteHeld.engine.held := mem_noteHeld ht mem (report_still mem) hn
  rcases verifyResult_goes ht ⟨_, he, rfl⟩ with ⟨v, op', c', rest, hx, goes⟩ | goes
  · have other : v ≠ u := fun h => hn (h ▸ takeReport_goes hx rfl (h ▸ hk))
    have stays : EngEvent.verified u op c ∈ rest := mem_rest_of_takeReport hx he fun h => by
      injection h with h
      exact other h.symm
    have only : OnlyUnit v (s.reportTaken v rest) (pump (takeVerified (s.reportTaken v rest) v op' c')) :=
      pump_only.of takeVerified_only
    refine ⟨_, goes, only.inbox.subset stays, ?_, only.others u other.symm⟩
    rw [only.held]
    exact List.mem_filter.mpr ⟨held, by simpa using other.symm⟩
  · exact ⟨_, goes, he, held, rfl⟩

/-! ### While the queue lacks room (R24) -/

/-- An event that would hand no record over may go without a trace. -/
theorem AllNoted.filter {l : List HeldEvent} {x : HeldEvent} (hx : s.stillHeld x = false) (h : AllNoted s l)
    (hr : ∀ u ∈ s.lockerReports, HeldEvent.report u ≠ x) (hi : ∀ u n, HeldEvent.idle u n ≠ x)
    (ha : HeldEvent.accept ≠ x) (hs : ∀ u, HeldEvent.step u ≠ x) : AllNoted s (l.filter (· ≠ x)) := by
  obtain ⟨held, arrived, ⟨reports, order⟩, idles, accept, steps⟩ := h
  have keeps {p : List HeldEvent} (hp : p.Sublist l) (hn : ∀ y ∈ p, y ≠ x) : p.Sublist (l.filter (· ≠ x)) := by
    have := hp.filter fun y => decide (y ≠ x)
    rwa [List.filter_eq_self.mpr fun y hy => by simpa using hn y hy] at this
  have mem {y : HeldEvent} (hy : y ∈ l) (hn : y ≠ x) : y ∈ l.filter (· ≠ x) := List.mem_filter.mpr ⟨hy, by simpa using hn⟩
  have still {y : HeldEvent} (hy : s.stillHeld y = true) : y ≠ x := fun e => by
    rw [e, hx] at hy
    exact absurd hy (by decide)
  refine ⟨keeps held fun y hy => still (List.mem_filter.mp hy).2,
    fun p hp hw => keeps (arrived p hp hw) fun y hy => still (hw y hy).2.1,
    ⟨fun u hu => mem (reports u hu) (hr u hu), fun hn hf => keeps (order hn hf) fun y hy => ?_⟩,
    fun e he hk hd => mem (idles e he hk hd) (hi _ _), fun a hp hn hf => mem (accept a hp hn hf) ha,
    fun r hr i hi hg hh => mem (steps r hr i hi hg hh) (hs _)⟩
  obtain ⟨u, hu, rfl⟩ := List.mem_map.mp hy
  exact hr u hu

theorem handOver_journal : (handOver s u op k).journal = s.journal := by rw [(handOver_acts s u op k).1]
theorem promote_journal : (promote s u).journal = s.journal := by rw [(promote_acts s u).1]

/-- A verify result of another unit than a locker hands no record over. -/
theorem takeVerified_journal (hk : s.kind u ≠ .locker) : (takeVerified s u op c).journal = s.journal := by
  have verified : (verifiedUnit s u op c.door).journal = s.journal := by
    unfold verifiedUnit
    split
    next h => exact absurd h hk
    · unfold verifiedCabin
      split
      · unfold admitCabin setTimes
        dsimp only
        split <;> rfl
      · split
        exacts [rfl, handOver_journal]
      · split
        exacts [rfl, handOver_journal]
      · rfl
    · rfl
  have followed (x : State) : (followUp x u .verify).journal = x.journal := by
    unfold followUp
    split
    · rfl
    · dsimp only
      split
      · split
        · exact handOver_journal
        · split
          exacts [rfl, promote_journal]
        · rfl
      · rfl
      · split
        exacts [handOver_journal, rfl]
      · rfl
      · rfl
  unfold takeVerified
  rw [movementLeft_eq]
  exact (followed _).trans verified

theorem verifyResult_noted (ht : Taking s) (hr : ¬JournalRoom s) (he : ∃ e ∈ s.engine.inbox, e.isVerified = true) :
    ∃ t, exec .verifyResult s = .next t ∧ t.journal.queue = s.journal.queue ∧ AllNoted s t.engine.held := by
  have noted := noteHeld_allNoted s hr ht
  rcases verifyResult_goes ht he with ⟨v, op', c', rest, hx, goes⟩ | goes
  · have cabin : s.kind v ≠ .locker := fun hk => hr (takeReport_goes hx rfl hk).1
    have only : OnlyUnit v (s.reportTaken v rest) (pump (takeVerified (s.reportTaken v rest) v op' c')) :=
      pump_only.of takeVerified_only
    refine ⟨_, goes, ?_, ?_⟩
    · rw [pump_queue, takeVerified_journal (s := s.reportTaken v rest) cabin]
      rfl
    · rw [only.held]
      refine noted.filter (by simp [State.stillHeld, cabin]) (fun u hu e => ?_) (fun _ _ => by simp) (by simp)
        fun _ => by simp
      injection e with e
      subst e
      exact cabin (by simpa using (List.mem_filter.mp hu).2)
  · exact ⟨_, goes, rfl, noted⟩

end Sys2Proof.Machine
end

/-! ## What a verify result makes of its unit -/

section
namespace Sys2Proof.Machine

variable {s t m x : State} {u v : UnitIx} {op : BoltOp} {k : Urgency} {c : Cell} {before behind : List EngEvent}
  {r : Option Running} {why : Reason} {door cleared : Bool}

/-! ### What it leaves of the engine -/

theorem setTimes_leaves {n : Nat} : LeavesEngine s (setTimes s u n) := by
  unfold setTimes
  dsimp only
  split <;> exact .same rfl rfl

theorem withTimer_leaves {y : TimerKind} {n : Nat} : LeavesEngine s (s.withTimer u y n) := .same rfl rfl

theorem releaseLocker_leaves : LeavesEngine s (releaseLocker s u why) :=
  postReleased_leaves.of (handJournal_leaves.of (modUnit_leaves.of (enter_leaves.of clearHolder_leaves)))

theorem verifiedLocker_leaves : LeavesEngine s (verifiedLocker s u op door) := by
  unfold verifiedLocker
  dsimp only
  split
  · split
    · exact enter_leaves
    · exact beep_leaves.of (transient_leaves.of (handOver_leaves.of (setPurpose_leaves.of enter_leaves)))
  · split
    · exact releaseLocker_leaves
    · exact withTimer_leaves.of (setPurpose_leaves.of enter_leaves)
    · exact setPurpose_leaves.of enter_leaves
    · exact .refl s
  · exact .refl s

theorem verifiedCabin_leaves : LeavesEngine s (verifiedCabin s u op door) := by
  unfold verifiedCabin
  split
  · exact setTimes_leaves.of (modUnit_leaves.of enter_leaves)
  · split
    exacts [enter_leaves, handOver_leaves.of enter_leaves]
  · split
    exacts [enter_leaves, handOver_leaves.of enter_leaves]
  · exact .refl s

theorem verifiedUnit_leaves : LeavesEngine s (verifiedUnit s u op door) := by
  unfold verifiedUnit
  split
  exacts [verifiedLocker_leaves, verifiedCabin_leaves, .refl s]

theorem watched_congr (h : t.engine.runningSlot = s.engine.runningSlot) (us : List UnitIx) (how : Leave)
    (f : UnitIx → Bool) : t.watched us how f = s.watched us how f := by
  unfold State.watched
  rw [h]

/-! ### A verify result without a follow-up entry (R81, R153) -/

/-- What the statements about a verify result that is taken suppose (R24). -/
structure VerifyReady (s : State) (u : UnitIx) (op : BoltOp) (c : Cell) (before behind : List EngEvent) : Prop where
  taking : Taking s
  goes : s.reportGoes u
  inbox : s.engine.inbox = before ++ .verified u op c :: behind
  before : ∀ e ∈ before, ∀ v op' c', e = .verified v op' c' → ¬s.reportGoes v
  follow : ∀ e ∈ s.engine.follow, e.1 ≠ u

theorem takeVerified_plain (hf : ∀ e ∈ s.engine.follow, e.1 ≠ u) (hx : verifiedUnit s u op c.door = x)
    (hc : ((s.unit u).holder.isSome && (x.unit u).holder.isNone) = cleared) :
    takeVerified s u op c = x.setRunning (s.watched [u] .verify fun _ => cleared) := by
  have engine : x.engine = { s.engine with inbox := x.engine.inbox } := by
    rw [← hx]
    exact verifiedUnit_leaves.engine
  unfold takeVerified
  dsimp only
  rw [hx, hc, followUp_of_none (s := x) (by rw [engine]; exact hf), movementLeft_eq,
    watched_congr (s := s) (by rw [engine])]

/-- The state a verify result leaves for the port to serve, where the unit's rule gives x. -/
theorem VerifyReady.serves (h : VerifyReady s u op c before behind)
    (hx : verifiedUnit (s.reportTaken u (before ++ behind)) u op c.door = x)
    (hc : ((s.unit u).holder.isSome && (x.unit u).holder.isNone) = cleared) : ∃ t, exec .verifyResult s = .next t ∧
      PortServes (x.setRunning (s.watched [u] .verify fun _ => cleared)) t ∧ KeepsHeld s t (.report u) ∧
      ∀ y : State, y.holding t = y.holding (s.reportTaken u (before ++ behind)) := by
  have goes := verifyResult_takes h.taking h.goes h.inbox h.before
  have plain : takeVerified (s.reportTaken u (before ++ behind)) u op c =
      x.setRunning (s.watched [u] .verify fun _ => cleared) :=
    takeVerified_plain (s := s.reportTaken u (before ++ behind)) h.follow hx hc
  have only : OnlyUnit u (s.reportTaken u (before ++ behind)) x := hx ▸ verifiedUnit_only
  rw [plain] at goes
  have keeps : KeepsHeld s (x.setRunning (s.watched [u] .verify fun _ => cleared)) (.report u) :=
    (unhold_keepsHeld s (.report u)).congr only.held only.arrived
  exact ⟨_, goes, pump_serves _, keeps.pump,
    fun y => holding_congr ((pump_held _).trans only.held) ((pump_arrived _).trans only.arrived)⟩

/-- A holder that stays is not cleared. -/
theorem not_cleared {o o' : Option Band} (h : o' = o) : (o.isSome && o'.isNone) = false := by
  subst h
  cases o' <;> rfl

theorem VerifyReady.ends (h : VerifyReady s u op c before behind)
    (hx : verifiedUnit (s.reportTaken u (before ++ behind)) u op c.door = x)
    (hc : (x.unit u).holder = (s.unit u).holder)
    (hm : m.holding (s.reportTaken u (before ++ behind)) = x.setRunning (s.watched [u] .verify fun _ => false)) :
    ∃ t, exec .verifyResult s = .next t ∧ PortServes (m.holding t) t ∧ KeepsHeld s t (.report u) := by
  obtain ⟨t, goes, serves, keeps, holds⟩ := h.serves hx (not_cleared hc)
  exact ⟨t, goes, by rw [holds, hm]; exact serves, keeps⟩

/-! ### Lockers (R35, R36) -/

theorem verifiedUnit_locker (hk : s.kind u = .locker) : verifiedUnit s u op door = verifiedLocker s u op door := by
  unfold verifiedUnit
  rw [hk]

theorem verifiedUnit_cabin (hk : s.kind u = .cabin) : verifiedUnit s u op door = verifiedCabin s u op door := by
  unfold verifiedUnit
  rw [hk]

theorem verifiedLocker_shut (hs : (s.unit u).state = .locking) : verifiedLocker s u .throw true = enter s u .held := by
  unfold verifiedLocker
  dsimp only
  rw [hs]
  rfl

/-- The record of a locker sent back with its door open (R35). -/
def State.sentBack (s : State) (u : UnitIx) : UnitRec :=
  { (((s.unit u).enters (s.kind u) .unlocking).lit .red (s.clock.ms + 2000)).beeps with
    purpose := some (.release .doorOpen) }

theorem Aside.beeps : Aside UnitRec.beeps := ⟨fun _ => rfl, fun _ => rfl⟩

theorem verifiedLocker_open (hs : (s.unit u).state = .locking) :
    MovesOn { s with units := put s.units u (s.sentBack u) } (verifiedLocker s u .throw false) u .withdraw .normal := by
  have moves := handOver_movesOn (setPurpose (enter s u .unlocking) u (some (.release .doorOpen))) u .withdraw .normal
  have clock := moves.1.running.2.2
  have e : verifiedLocker s u .throw false =
      ((handOver (setPurpose (enter s u .unlocking) u (some (.release .doorOpen))) u .withdraw .normal).modUnit u fun r =>
        r.lit .red (s.clock.ms + 2000)).modUnit u UnitRec.beeps := by
    unfold verifiedLocker
    dsimp only
    rw [hs]
    show beep (transient _ u .red 2000) u = _
    unfold transient
    rw [clock]
    rfl
  have start : { s with units := put s.units u (s.sentBack u) } =
      ((setPurpose (enter s u .unlocking) u (some (.release .doorOpen))).modUnit u fun r =>
        r.lit .red (s.clock.ms + 2000)).modUnit u UnitRec.beeps := by
    unfold setPurpose enter
    rw [modUnit_modUnit, modUnit_modUnit, modUnit_modUnit]
    rfl
  rw [e, start]
  exact (moves.modUnit (.lit _ _)).modUnit .beeps

theorem verifiedLocker_release (hs : (s.unit u).state = .unlocking) (hp : (s.unit u).purpose = some (.release why)) :
    verifiedLocker s u .withdraw door = releaseLocker s u why := by
  unfold verifiedLocker
  dsimp only
  rw [hs]
  dsimp only
  rw [hp]

theorem verifiedLocker_keep (hs : (s.unit u).state = .unlocking) (hp : (s.unit u).purpose = some .keep) :
    verifiedLocker s u .withdraw door = { s with
      units := put s.units u { (s.unit u).enters (s.kind u) .ajar with purpose := none }
      timers := setTimer s.timers u .ajarIdle
        (clampSec (s.clock.sec + (s.cls (s.bandClass ((s.unit u).holder.getD 0))).ajarIdle)) } := by
  unfold verifiedLocker
  dsimp only
  rw [hs]
  dsimp only
  rw [hp]
  dsimp only
  unfold setPurpose enter
  rw [modUnit_modUnit]
  rfl

theorem verifiedLocker_service (hs : (s.unit u).state = .unlocking) (hp : (s.unit u).purpose = some .service) :
    verifiedLocker s u .withdraw door =
      { s with units := put s.units u { (s.unit u).enters (s.kind u) .serviceOpen with purpose := none } } := by
  unfold verifiedLocker
  dsimp only
  rw [hs]
  dsimp only
  rw [hp]
  dsimp only
  unfold setPurpose enter
  rw [modUnit_modUnit]
  rfl

theorem verifiedLocker_none (hl : (s.unit u).state ≠ .locking) (hu : (s.unit u).state ≠ .unlocking) :
    verifiedLocker s u op door = s := by
  unfold verifiedLocker
  dsimp only
  split
  · exact absurd ‹_› hl
  · exact absurd ‹_› hu
  · rfl

/-! ### Cabins (R44, R46, R56 to R58) -/

theorem setTimes_eq {n : Nat} {w : Option Nat}
    (hw : warningTime n (s.tables.zones.get (s.zone u)).warningLead s.clock.sec = w) : setTimes s u n = { s with
      units := put s.units u { s.unit u with
        expiry := some n, warningAt := w
        graceEnd := some (clampSec (n + (s.tables.zones.get (s.zone u)).grace)) }
      timers := w.elim (setTimer s.timers u .expiry n) fun d => setTimer s.timers u .warning d } := by
  unfold setTimes
  dsimp only
  rw [hw]
  cases w <;> rfl

/-- The occupancy counted over all units (R55). -/
theorem occupancy_eq (z : ZoneIx) : s.occupancy z = (allUnits.filter fun v => s.kind v = .cabin ∧ s.zone v = z ∧
    ((s.unit v).state = .admitting ∨ (s.unit v).state = .inUse ∨ (s.unit v).state = .expired)).length := by
  unfold State.occupancy State.cabins
  rw [List.filter_filter]
  refine congrArg List.length (List.filter_congr fun v _ => ?_)
  rw [Bool.eq_iff_iff]
  simp only [Bool.and_eq_true, decide_eq_true_eq]
  exact and_comm

/-- The allowance of a cabin admitted now (R55 to R57). -/
def State.allowance (s : State) (u : UnitIx) : Nat :=
  let c := s.cls (s.bandClass ((s.unit u).holder.getD 0))
  let z := s.tables.zones.get (s.zone u)
  allowanceOf c.base c.floor z.cabins z.threshold (s.occupancy (s.zone u))

/-- The expiry of a cabin admitted now (R56 to R58). -/
def State.admitExpiry (s : State) (u : UnitIx) : Nat :=
  min (clampSec (s.clock.sec + 60 * s.allowance u)) (clampSec ((s.unit u).boundAt + Config.cabinCap))

/-- The warning time of a cabin admitted now (R58). -/
def State.admitWarning (s : State) (u : UnitIx) : Option Nat :=
  warningTime (s.admitExpiry u) (s.tables.zones.get (s.zone u)).warningLead s.clock.sec

/-- What the statements say of a cabin admitted now, in the model's terms. -/
theorem admitted_eq (s : State) (u : UnitIx) : s.admitted u =
    ({ (s.unit u).enters .cabin .inUse with
        allowance := some (s.allowance u), expiry := some (s.admitExpiry u), warningAt := s.admitWarning u
        graceEnd := some (clampSec (s.admitExpiry u + (s.tables.zones.get (s.zone u)).grace)) },
      if (s.admitWarning u).isSome then .warning else .expiry, (s.admitWarning u).getD (s.admitExpiry u)) := by
  have warning : s.admitWarning u = if (decide (1 ≤ (s.tables.zones.get (s.zone u)).warningLead) &&
      decide (s.clock.sec < s.admitExpiry u - (s.tables.zones.get (s.zone u)).warningLead)) = true
      then some (s.admitExpiry u - (s.tables.zones.get (s.zone u)).warningLead) else none := by
    unfold State.admitWarning
    rw [warningTime_eq]
    simp only [Bool.and_eq_true, decide_eq_true_eq]
  have kind {b : Bool} {n : Nat} : (if (if b = true then some n else none : Option Nat).isSome then TimerKind.warning
      else .expiry) = if b = true then .warning else .expiry := by cases b <;> rfl
  rw [warning, kind]
  unfold State.admitted
  dsimp only
  rw [← occupancy_eq]
  rfl

/-- A cabin is admitted (R44, R56 to R58). -/
theorem admitCabin_eq (hk : s.kind u = .cabin) : admitCabin s u = { s with
    units := put s.units u (s.admitted u).1
    timers := setTimer s.timers u (s.admitted u).2.1 (s.admitted u).2.2 } := by
  have start : (enter s u .inUse).modUnit u (fun r => { r with allowance := some (s.allowance u) }) =
      { s with units := put s.units u { (s.unit u).enters .cabin .inUse with allowance := some (s.allowance u) } } := by
    unfold enter
    rw [modUnit_modUnit, ← hk]
    rfl
  have e : admitCabin s u = setTimes ((enter s u .inUse).modUnit u fun r => { r with allowance := some (s.allowance u) }) u
      (s.admitExpiry u) := rfl
  have times := setTimes_eq (s := { s with
      units := put s.units u { (s.unit u).enters .cabin .inUse with allowance := some (s.allowance u) } }) (u := u)
    (n := s.admitExpiry u) (w := s.admitWarning u) rfl
  rw [e, start, times, admitted_eq]
  cases s.admitWarning u with
  | none =>
    simp only [State.unit, put_get_self, put_put]
    rfl
  | some w =>
    simp only [State.unit, put_get_self, put_put]
    rfl

theorem verifiedCabin_admits (hs : (s.unit u).state = .admitting) : verifiedCabin s u .withdraw door = admitCabin s u := by
  unfold verifiedCabin
  rw [hs]

theorem verifiedCabin_throw (hs : (s.unit u).state = .closing ∨ (s.unit u).state = .free) :
    verifiedCabin s u .throw door =
      if door then enter s u .free else handOver (enter s u .vacating) u .withdraw .normal := by
  unfold verifiedCabin
  rcases hs with hs | hs <;> rw [hs]

theorem verifiedCabin_none (ha : (s.unit u).state ≠ .admitting) (hc : (s.unit u).state ≠ .closing)
    (hf : (s.unit u).state ≠ .free) : verifiedCabin s u op door = s := by
  unfold verifiedCabin
  split
  · exact absurd ‹_› ha
  · exact absurd ‹_› hc
  · exact absurd ‹_› hf
  · rfl

end Sys2Proof.Machine
end

/-! ## The statement of verify results -/

section
namespace Sys2Proof.Machine

variable {s t m x : State} {u v : UnitIx} {op op' : BoltOp} {k : Urgency} {c : Cell} {before behind : List EngEvent}
  {r : Option Running} {why : Reason} {door cleared : Bool} {f : Follow}

/-! ### What the rule of the unit gives (R35, R36, R44, R46) -/

theorem DriveActs.holder (h : DriveActs s t) : (t.unit v).holder = (s.unit v).holder := by
  show (t.unit v).rest.holder = (s.unit v).rest.holder
  rw [h.2.2.2 v (by simp)]

theorem VerifyReady.moves {x : UnitRec} (h : VerifyReady s u op c before behind)
    (hm : MovesOn { s.reportTaken u (before ++ behind) with units := put s.units u x }
      (verifiedUnit (s.reportTaken u (before ++ behind)) u op c.door) u op' k)
    (hx : x.holder = (s.unit u).holder) : ∃ m t, exec .verifyResult s = .next t ∧ PortServes m t ∧
      MovesOn ({ s.took (before ++ behind) (s.watched [u] .verify fun _ => false) with
        units := put s.units u x }.holding t) m u op' k ∧ KeepsHeld s t (.report u) := by
  have holder : ((verifiedUnit (s.reportTaken u (before ++ behind)) u op c.door).unit u).holder = (s.unit u).holder := by
    rw [hm.1.holder, ← hx]
    exact congrArg UnitRec.holder (unit_put x)
  obtain ⟨t, goes, serves, keeps, holds⟩ := h.serves rfl (not_cleared holder)
  refine ⟨_, t, goes, serves, ?_, keeps⟩
  rw [holds]
  exact hm.setRunning _

theorem VerifyReady.timed {x : UnitRec} {l : List TimerEntry} (h : VerifyReady s u op c before behind)
    (hv : verifiedUnit (s.reportTaken u (before ++ behind)) u op c.door =
      { s.reportTaken u (before ++ behind) with units := put s.units u x, timers := l })
    (hx : x.holder = (s.unit u).holder) : ∃ t, exec .verifyResult s = .next t ∧
      PortServes ({ s.took (before ++ behind) (s.watched [u] .verify fun _ => false) with
        units := put s.units u x, timers := l }.holding t) t ∧ KeepsHeld s t (.report u) :=
  h.ends hv ((congrArg UnitRec.holder (unit_put x)).trans hx) rfl

theorem VerifyReady.enters {x : UnitRec} (h : VerifyReady s u op c before behind)
    (hv : verifiedUnit (s.reportTaken u (before ++ behind)) u op c.door =
      { s.reportTaken u (before ++ behind) with units := put s.units u x })
    (hx : x.holder = (s.unit u).holder) : ∃ t, exec .verifyResult s = .next t ∧
      PortServes ({ s.took (before ++ behind) (s.watched [u] .verify fun _ => false) with
        units := put s.units u x }.holding t) t ∧ KeepsHeld s t (.report u) :=
  h.timed hv hx

/-- The rule of the unit leaves it as it is. -/
theorem VerifyReady.stays (h : VerifyReady s u op c before behind)
    (hv : verifiedUnit (s.reportTaken u (before ++ behind)) u op c.door = s.reportTaken u (before ++ behind)) :
    ∃ t, exec .verifyResult s = .next t ∧
      PortServes ((s.took (before ++ behind) (s.watched [u] .verify fun _ => false)).holding t) t ∧
        KeepsHeld s t (.report u) :=
  h.ends hv rfl rfl

/-- A locker released at its verify (R36): the holder is gone, which a running release counts. -/
theorem VerifyReady.releases (h : VerifyReady s u .withdraw c before behind) (hh : HoldingsOk s)
    (hk : s.kind u = .locker) (hs : (s.unit u).state = .unlocking) (hp : (s.unit u).purpose = some (.release why)) :
    ∃ m t, exec .verifyResult s = .next t ∧ PortServes m t ∧ KeepsHeld s t (.report u) ∧
      LockerReleased ((s.took (before ++ behind) (s.watched [u] .verify fun _ => (s.unit u).holder.isSome)).holding t)
        m u why := by
  have verified : verifiedUnit (s.reportTaken u (before ++ behind)) u .withdraw c.door =
      releaseLocker (s.reportTaken u (before ++ behind)) u why :=
    (verifiedUnit_locker (s := s.reportTaken u (before ++ behind)) hk).trans
      (verifiedLocker_release (s := s.reportTaken u (before ++ behind)) hs hp)
  obtain ⟨left, e⟩ : LockerReleased (s.reportTaken u (before ++ behind))
      (releaseLocker (s.reportTaken u (before ++ behind)) u why) u why :=
    releaseLocker_released (s := s.reportTaken u (before ++ behind)) hh
  have holder : ((releaseLocker (s.reportTaken u (before ++ behind)) u why).unit u).holder = none := by
    rw [e]
    exact congrArg UnitRec.holder (unit_put _)
  obtain ⟨t, goes, serves, keeps, holds⟩ := h.serves (cleared := (s.unit u).holder.isSome) verified (by
    rw [holder]
    cases (s.unit u).holder <;> rfl)
  refine ⟨_, t, goes, serves, keeps, ?_⟩
  rw [holds]
  refine ⟨left, ?_⟩
  generalize hb : (releaseLocker (s.reportTaken u (before ++ behind)) u why).bands = bands at e
  rw [e]
  rfl

theorem verifiedUnit_locking (hk : s.kind u = .locker)
    (hs : (s.unit u).state = .locking) :
    (c.door = true → verifiedUnit (s.reportTaken u (before ++ behind)) u .throw c.door =
      { s.reportTaken u (before ++ behind) with units := put s.units u ((s.unit u).enters .locker .held) }) ∧
    (c.door = false → MovesOn { s.reportTaken u (before ++ behind) with units := put s.units u (s.sentBack u) }
      (verifiedUnit (s.reportTaken u (before ++ behind)) u .throw c.door) u .withdraw .normal) := by
  have verified : verifiedUnit (s.reportTaken u (before ++ behind)) u .throw c.door =
      verifiedLocker (s.reportTaken u (before ++ behind)) u .throw c.door := verifiedUnit_locker hk
  rw [verified]
  constructor
  · intro hd
    rw [hd, verifiedLocker_shut (s := s.reportTaken u (before ++ behind)) hs, enter_eq,
      show (s.reportTaken u (before ++ behind)).kind u = .locker from hk]
    rfl
  · intro hd
    rw [hd]
    exact verifiedLocker_open (s := s.reportTaken u (before ++ behind)) hs

theorem verifiedUnit_enters {st : UState} {k' : UnitKind} (hk : s.kind u = k') (hv : verifiedUnit s u op door = enter s u st) :
    verifiedUnit s u op door = { s with units := put s.units u ((s.unit u).enters k' st) } := by
  rw [hv, enter_eq, hk]

theorem verifiedUnit_closing (hk : s.kind u = .cabin) (hs : (s.unit u).state = .closing ∨ (s.unit u).state = .free) :
    (door = true → verifiedUnit s u .throw door =
      { s with units := put s.units u ((s.unit u).enters .cabin .free) }) ∧
    (door = false → MovesOn { s with units := put s.units u ((s.unit u).enters .cabin .vacating) }
      (verifiedUnit s u .throw door) u .withdraw .normal) := by
  have verified := (verifiedUnit_cabin (op := .throw) (door := door) hk).trans (verifiedCabin_throw hs)
  constructor
  · rintro rfl
    exact verifiedUnit_enters hk verified
  · rintro rfl
    rw [verified, ← hk, ← enter_eq]
    exact handOver_movesOn _ _ _ _

theorem admitted_reportTaken (s : State) (u v : UnitIx) (rest : List EngEvent) :
    (s.reportTaken v rest).admitted u = s.admitted u := by
  have allowance : (s.reportTaken v rest).allowance u = s.allowance u := by
    unfold State.allowance State.occupancy
    rfl
  have expiry : (s.reportTaken v rest).admitExpiry u = s.admitExpiry u := by
    unfold State.admitExpiry
    rw [allowance]
    rfl
  have warning : (s.reportTaken v rest).admitWarning u = s.admitWarning u := by
    unfold State.admitWarning
    rw [expiry]
    rfl
  rw [admitted_eq, admitted_eq, allowance, expiry, warning]
  rfl

theorem admitted_holder (s : State) (u : UnitIx) : (s.admitted u).1.holder = (s.unit u).holder := by
  rw [admitted_eq]
  rfl

/-! ### A verify result of a unit without a follow-up entry -/

/-- What the unit's record and its timer entry have become once a verify result is taken (R24). -/
def VerifyEnds (s m : State) (u : UnitIx) : Prop :=
  ∃ t, exec .verifyResult s = .next t ∧ PortServes (m.holding t) t ∧ KeepsHeld s t (.report u)

/-- A verify result taken hands a NORMAL movement of the unit over (R24). -/
def VerifyMoves (s m0 : State) (u : UnitIx) (op : BoltOp) : Prop :=
  ∃ m t, exec .verifyResult s = .next t ∧ PortServes m t ∧ MovesOn (m0.holding t) m u op .normal ∧
    KeepsHeld s t (.report u)

/-- The state once the result is taken and the running action that watches the unit has gone on. -/
def State.verifyTook (s : State) (u : UnitIx) (rest : List EngEvent) : State :=
  s.took rest (s.watched [u] .verify fun _ => false)

theorem VerifyReady.locking (h : VerifyReady s u .throw c before behind) (hk : s.kind u = .locker)
    (hs : (s.unit u).state = .locking) :
    (c.door = true → VerifyEnds s { s.verifyTook u (before ++ behind) with
      units := put s.units u ((s.unit u).enters .locker .held) } u) ∧
    (c.door = false → VerifyMoves s { s.verifyTook u (before ++ behind) with
      units := put s.units u { (((s.unit u).enters .locker .unlocking).lit .red (s.clock.ms + 2000)).beeps with
        purpose := some (.release .doorOpen) } } u .withdraw) := by
  obtain ⟨shut, opened⟩ := verifiedUnit_locking (c := c) (before := before) (behind := behind) hk hs
  refine ⟨fun hd => h.enters (shut hd) rfl, fun hd => ?_⟩
  have sent : (s.sentBack u).holder = (s.unit u).holder := rfl
  have moved := h.moves (opened hd) sent
  unfold State.sentBack at moved
  rw [hk] at moved
  exact moved

theorem VerifyReady.unlocking (h : VerifyReady s u .withdraw c before behind) (hk : s.kind u = .locker)
    (hs : (s.unit u).state = .unlocking) :
    ((s.unit u).purpose = some .keep → VerifyEnds s { s.verifyTook u (before ++ behind) with
      units := put s.units u { (s.unit u).enters .locker .ajar with purpose := none }
      timers := setTimer s.timers u .ajarIdle
        (clampSec (s.clock.sec + (s.cls (s.bandClass ((s.unit u).holder.getD 0))).ajarIdle)) } u) ∧
    ((s.unit u).purpose = some .service → VerifyEnds s { s.verifyTook u (before ++ behind) with
      units := put s.units u { (s.unit u).enters .locker .serviceOpen with purpose := none } } u) := by
  have kind : (s.reportTaken u (before ++ behind)).kind u = .locker := hk
  have verified := verifiedUnit_locker (s := s.reportTaken u (before ++ behind)) (op := .withdraw) (door := c.door) hk
  refine ⟨fun hp => ?_, fun hp => ?_⟩
  · have kept := verified.trans (verifiedLocker_keep (s := s.reportTaken u (before ++ behind)) hs hp)
    rw [kind] at kept
    exact h.timed kept rfl
  · have serviced := verified.trans (verifiedLocker_service (s := s.reportTaken u (before ++ behind)) hs hp)
    rw [kind] at serviced
    exact h.enters serviced rfl

theorem VerifyReady.admitting (h : VerifyReady s u .withdraw c before behind) (hk : s.kind u = .cabin)
    (hs : (s.unit u).state = .admitting) : VerifyEnds s { s.verifyTook u (before ++ behind) with
      units := put s.units u (s.admitted u).1
      timers := setTimer s.timers u (s.admitted u).2.1 (s.admitted u).2.2 } u := by
  have verified := (verifiedUnit_cabin (s := s.reportTaken u (before ++ behind)) (op := .withdraw) (door := c.door)
    hk).trans ((verifiedCabin_admits (s := s.reportTaken u (before ++ behind)) hs).trans
      (admitCabin_eq (s := s.reportTaken u (before ++ behind)) hk))
  rw [admitted_reportTaken] at verified
  exact h.timed verified (admitted_holder s u)

theorem VerifyReady.closing (h : VerifyReady s u .throw c before behind) (hk : s.kind u = .cabin)
    (hs : (s.unit u).state = .closing ∨ (s.unit u).state = .free) :
    (c.door = true → VerifyEnds s { s.verifyTook u (before ++ behind) with
      units := put s.units u ((s.unit u).enters .cabin .free) } u) ∧
    (c.door = false → VerifyMoves s { s.verifyTook u (before ++ behind) with
      units := put s.units u ((s.unit u).enters .cabin .vacating) } u .withdraw) := by
  obtain ⟨shut, opened⟩ := verifiedUnit_closing (s := s.reportTaken u (before ++ behind)) (door := c.door) hk hs
  exact ⟨fun hd => h.enters (shut hd) rfl, fun hd => h.moves (opened hd) rfl⟩

theorem VerifyReady.locker_idle (h : VerifyReady s u op c before behind) (hk : s.kind u = .locker)
    (hl : (s.unit u).state ≠ .locking) (hu : (s.unit u).state ≠ .unlocking) :
    VerifyEnds s (s.verifyTook u (before ++ behind)) u :=
  h.stays ((verifiedUnit_locker (s := s.reportTaken u (before ++ behind)) hk).trans
    (verifiedLocker_none (s := s.reportTaken u (before ++ behind)) hl hu))

theorem VerifyReady.cabin_idle (h : VerifyReady s u op c before behind) (hk : s.kind u = .cabin)
    (ha : (s.unit u).state ≠ .admitting) (hc : (s.unit u).state ≠ .closing) (hf : (s.unit u).state ≠ .free) :
    VerifyEnds s (s.verifyTook u (before ++ behind)) u :=
  h.stays ((verifiedUnit_cabin (s := s.reportTaken u (before ++ behind)) hk).trans
    (verifiedCabin_none (s := s.reportTaken u (before ++ behind)) ha hc hf))

end Sys2Proof.Machine
end

/-! ## Follow-up entries at a verify, and the statement of verify results -/

section
namespace Sys2Proof.Machine

variable {s t m x : State} {u v : UnitIx} {op op' : BoltOp} {k : Urgency} {c : Cell} {before behind : List EngEvent}
  {r : Option Running} {why : Reason} {door cleared : Bool} {f : Follow} {l rest : List EngEvent} {st : UState}

/-! ### A movement handed over, and promoted (R25, R72, R73) -/

/-- A movement of the unit stands in the Actuation Queue, or is its deferred op (R25, R72). -/
def Moved (s : State) (u : UnitIx) (op : BoltOp) (k : Urgency) : Prop :=
  (∃ a ∈ s.drive.waiting ++ s.drive.granted, a.unit = u ∧ a.op = op ∧ a.urgency = k) ∨
    (s.unit u).deferred = some (op, k)

theorem Stands.moved (h : Stands s u op k) : Moved s u op k := by
  obtain ⟨a, ha, hu, ho, hk, -⟩ := h
  exact .inl ⟨a, ha, hu, ho, hk⟩

theorem handOver_moved (hc : CanMove s u op) : Moved (handOver s u op k) u op k := by
  obtain ⟨stands, deferred⟩ := handOver_handed s u op k hc
  rcases Nat.lt_or_ge s.drive.used Config.actuationPlaces with room | full
  · exact Stands.moved (stands room)
  · exact .inr (deferred full)

/-- A unit with one actuation at most has no two. -/
theorem eq_of_unitCount_le_one {l : List Actuation} (h : unitCount l u ≤ 1) {a b : Actuation} (ha : a ∈ l) (hb : b ∈ l)
    (hau : a.unit = u) (hbu : b.unit = u) : a = b := by
  induction l with
  | nil => exact absurd ha (by simp)
  | cons x l ih =>
    rw [unitCount_cons] at h
    have alone (hx : x.unit = u) (y : Actuation) (hy : y ∈ l) : y.unit ≠ u := fun hyu => by
      have pos := unitCount_pos.mpr ⟨y, hy, hyu⟩
      rw [if_pos hx] at h
      omega
    rcases List.mem_cons.mp ha with rfl | tail
    · rcases List.mem_cons.mp hb with rfl | other
      · rfl
      · exact absurd hbu (alone hau b other)
    · rcases List.mem_cons.mp hb with rfl | other
      · exact absurd hau (alone hbu a tail)
      · exact ih (by omega) tail other

theorem queued_le_movements : unitCount (s.drive.waiting ++ s.drive.granted) u ≤ s.movements u := by
  have all : s.drive.units.count u = unitCount (s.drive.waiting ++ s.drive.granted ++ s.drive.awaiting) u := rfl
  rw [State.movements, all, unitCount_append _ s.drive.awaiting]
  omega

/-- The promote request makes a movement that stands URGENT (R73). -/
theorem raised_stands (h1 : s.movements u ≤ 1) (h : Stands s u op k) : Stands (raised s u) u op .urgent := by
  obtain ⟨a, ha, hu, ho, hk, fresh⟩ := h
  unfold raised
  dsimp only
  cases hf : s.drive.waiting.find? fun x => x.unit = u with
  | some b =>
    have hb : b = a := eq_of_unitCount_le_one (queued_le_movements.trans h1)
      (List.mem_append_left _ (List.mem_of_find?_eq_some hf)) ha (by simpa using List.find?_some hf) hu
    subst hb
    dsimp only
    split
    · exact ⟨{ b with urgency := .urgent }, List.mem_append_left _ ((mem_joinWaiting _ _ _).mpr (.inr rfl)),
        hu, ho, rfl, fresh⟩
    · exact ⟨b, ha, hu, ho, by cases hb : b.urgency <;> simp_all, fresh⟩
  | none =>
    have granted : a ∈ s.drive.granted := (List.mem_append.mp ha).resolve_left fun hw =>
      absurd hu (by simpa using List.find?_eq_none.mp hf a hw)
    refine ⟨{ a with urgency := .urgent }, List.mem_append_right _ (List.mem_map.mpr ⟨a, granted, ?_⟩), hu, ho, rfl, fresh⟩
    rw [if_pos hu]

theorem promote_moved (hc : CanMove s u op) (h1 : s.movements u ≤ 1) (h : Stands s u op k) :
    Moved (promote s u) u op .urgent := by
  have raised := raised_stands h1 h
  unfold promote
  split
  · exact (examineLoop_stands _ _ _ _ _ ((raised_acts s u).canMove hc) raised).moved
  · exact raised.moved

/-! ### What a follow-up entry does at a verify (R177) -/

theorem followUp_leaves : LeavesEngine (s.dropFollow u) (followUp s u .verify) := by
  cases hf : s.engine.follow.find? fun e => e.1 = u with
  | none =>
    rw [followUp_of_none (follow_find_none hf), dropFollow_of_none (follow_find_none hf)]
    exact .refl s
  | some y =>
    obtain ⟨w, f⟩ := y
    unfold followUp
    rw [hf]
    dsimp only
    cases f with
    | toOpen =>
      dsimp only
      split
      · exact handOver_leaves.of enter_leaves
      · split
        · exact modUnit_leaves
        · exact (promote_acts _ u).leavesEngine
      · exact .refl _
    | toClose =>
      dsimp only
      split
      · exact handOver_leaves.of enter_leaves
      · exact .refl _

theorem followUp_open_free (hf : s.engine.follow.find? (fun e => e.1 = u) = some (u, .toOpen))
    (hs : (s.unit u).state = .free) :
    followUp s u .verify = handOver (enter (s.dropFollow u) u .evacOpen) u .withdraw .urgent := by
  unfold followUp
  rw [hf]
  dsimp only
  split
  · rfl
  next h => exact absurd (h.symm.trans hs) (by decide)
  next h _ => exact absurd hs h

theorem followUp_close_evac (hf : s.engine.follow.find? (fun e => e.1 = u) = some (u, .toClose))
    (hs : (s.unit u).state = .evacOpen) :
    followUp s u .verify = handOver (enter (s.dropFollow u) u .closing) u .throw .normal := by
  unfold followUp
  rw [hf]
  exact if_pos hs

theorem followUp_open_vacating (hf : s.engine.follow.find? (fun e => e.1 = u) = some (u, .toOpen))
    (hs : (s.unit u).state = .vacating) :
    followUp s u .verify = match (s.unit u).deferred with
      | some (op, _) => (s.dropFollow u).modUnit u fun r => { r with deferred := some (op, .urgent) }
      | none => promote (s.dropFollow u) u := by
  unfold followUp
  rw [hf]
  dsimp only
  split
  next h => exact absurd (h.symm.trans hs) (by decide)
  · rfl
  next h => exact absurd hs h

/-! ### A verify result of a cabin with a follow-up entry -/

/-- What the statement of a follow-up entry that acts supposes (R177). -/
structure FollowReady (s : State) (u : UnitIx) (op : BoltOp) (c : Cell) (before behind : List EngEvent) (f : Follow) :
    Prop where
  taking : Taking s
  movements : MovementsOk s
  kind : s.kind u = .cabin
  bank : (s.bank (bankOf u)).state = .running
  inbox : s.engine.inbox = before ++ .verified u op c :: behind
  before : ∀ e ∈ before, e.isVerified = false
  follow : s.engine.follow.find? (fun e => e.1 = u) = some (u, f)

theorem reportTaken_movements (hi : s.engine.inbox = before ++ .verified u op c :: behind) :
    (s.reportTaken u (before ++ behind)).movements u + 1 = s.movements u := by
  have counts := setInbox_count (s := s) (v := u) (before ++ behind)
  have reports : s.reports u = ((before ++ behind).map (EngEvent.movements u)).sum + 1 := by
    rw [State.reports, hi]
    simp [EngEvent.movements]
    omega
  have same : (s.reportTaken u (before ++ behind)).movements u = (s.setInbox (before ++ behind)).movements u := rfl
  omega

theorem FollowReady.still (h : FollowReady s u op c before behind f) :
    (s.reportTaken u (before ++ behind)).movements u = 0 := by
  have one := h.movements.2 u
  have less := reportTaken_movements h.inbox
  omega

theorem FollowReady.goes (h : FollowReady s u op c before behind f) :
    exec .verifyResult s = .next (pump (takeVerified (s.reportTaken u (before ++ behind)) u op c)) :=
  verifyResult_takes h.taking (fun hl => absurd (hl.symm.trans h.kind) (by decide)) h.inbox fun e he v op' c' hv => by
    have := h.before e he
    rw [hv] at this
    exact absurd this (by simp [EngEvent.isVerified])

theorem takeVerified_units : (takeVerified s u op c).units = (followUp (verifiedUnit s u op c.door) u .verify).units := by
  unfold takeVerified
  rw [movementLeft_eq]
  rfl

theorem takeVerified_drive : (takeVerified s u op c).drive = (followUp (verifiedUnit s u op c.door) u .verify).drive := by
  unfold takeVerified
  rw [movementLeft_eq]
  rfl

theorem takeVerified_follow : ∀ e ∈ (takeVerified s u op c).engine.follow, e.1 ≠ u := by
  unfold takeVerified
  rw [movementLeft_eq]
  intro e he
  have engine := (followUp_leaves (s := verifiedUnit s u op c.door) (u := u)).engine
  have mem : e ∈ (followUp (verifiedUnit s u op c.door) u .verify).engine.follow := he
  rw [engine] at mem
  have := (List.mem_filter.mp mem).2
  simpa using this

theorem verifiedUnit_follow (hf : s.engine.follow.find? (fun e => e.1 = u) = some (u, f)) :
    (verifiedUnit s u op door).engine.follow.find? (fun e => e.1 = u) = some (u, f) := by
  rw [verifiedUnit_leaves.engine]
  exact hf

/-- A cabin FREE by its own rule is opened (R177). -/
theorem followUp_shut (hk : s.kind u = .cabin) (hb : (s.bank (bankOf u)).state = .running)
    (hf : s.engine.follow.find? (fun e => e.1 = u) = some (u, .toOpen))
    (hs : (s.unit u).state = .closing ∨ (s.unit u).state = .free) :
    ((followUp (verifiedUnit s u .throw true) u .verify).unit u).state = .evacOpen ∧
    ((followUp (verifiedUnit s u .throw true) u .verify).unit u).lamp.steady = .greenFlash ∧
    Moved (followUp (verifiedUnit s u .throw true) u .verify) u .withdraw .urgent := by
  have verified : verifiedUnit s u .throw true = enter s u .free :=
    (verifiedUnit_cabin hk).trans (verifiedCabin_throw hs)
  have follow := verifiedUnit_follow (op := .throw) (door := true) hf
  rw [verified] at follow ⊢
  rw [followUp_open_free follow (enter_state _)]
  refine ⟨(handOver_state u).trans (enter_state _), ?_, handOver_moved ⟨hb, fun h => absurd h.2.1 (by decide)⟩⟩
  have lamp (m : State) : ((handOver m u .withdraw .urgent).unit u).lamp = (m.unit u).lamp := by
    show ((handOver m u .withdraw .urgent).unit u).rest.lamp = (m.unit u).rest.lamp
    rw [(handOver_acts m u .withdraw .urgent).2.2.2 u (by simp)]
  rw [lamp, enter_unit_self]
  show steadyLamp (s.kind u) .evacOpen = .greenFlash
  rw [hk]
  rfl

/-- A cabin sent back with its door open goes on VACATING, its movement promoted (R177). -/
theorem followUp_ajar (hk : s.kind u = .cabin) (hb : (s.bank (bankOf u)).state = .running)
    (hf : s.engine.follow.find? (fun e => e.1 = u) = some (u, .toOpen))
    (hs : (s.unit u).state = .closing ∨ (s.unit u).state = .free) (h0 : s.movements u = 0) :
    ((followUp (verifiedUnit s u .throw false) u .verify).unit u).state = .vacating ∧
    Moved (followUp (verifiedUnit s u .throw false) u .verify) u .withdraw .urgent := by
  have verified : verifiedUnit s u .throw false = handOver (enter s u .vacating) u .withdraw .normal :=
    (verifiedUnit_cabin hk).trans (verifiedCabin_throw hs)
  have follow := verifiedUnit_follow (op := .throw) (door := false) hf
  have can : CanMove (enter s u .vacating) u .withdraw := ⟨hb, fun h => absurd h.2.1 (by decide)⟩
  obtain ⟨stands, deferred⟩ := handOver_handed (enter s u .vacating) u .withdraw .normal can
  have one : (handOver (enter s u .vacating) u .withdraw .normal).movements u ≤ 1 := by
    have admits : Admits u s (handOver (enter s u .vacating) u .withdraw .normal) := handOver_admits.on enter_calm
    have count := admits.count u
    rw [h0, if_pos rfl] at count
    exact count
  have vacating : ((handOver (enter s u .vacating) u .withdraw .normal).unit u).state = .vacating :=
    (handOver_state u).trans (enter_state _)
  have moves := (handOver_acts (enter s u .vacating) u .withdraw .normal).canMove can
  rw [verified] at follow ⊢
  generalize handOver (enter s u .vacating) u .withdraw .normal = m at *
  rw [followUp_open_vacating follow vacating]
  rcases Nat.lt_or_ge (enter s u .vacating).drive.used Config.actuationPlaces with room | full
  · have stand : Stands m u .withdraw .normal := stands room
    have none : (m.unit u).deferred = none := by
      obtain ⟨a, ha, hu, -⟩ := stand
      have pos := unitCount_pos.mpr ⟨a, ha, hu⟩
      have all : m.drive.units.count u = unitCount (m.drive.waiting ++ m.drive.granted ++ m.drive.awaiting) u := rfl
      rw [State.movements, all, unitCount_append _ m.drive.awaiting] at one
      by_contra hd
      rw [if_pos (Option.isSome_iff_ne_none.mpr hd)] at one
      omega
    rw [none]
    refine ⟨?_, promote_moved (s := m.dropFollow u) moves one stand⟩
    have acts := promote_acts (m.dropFollow u) u
    show ((promote (m.dropFollow u) u).unit u).rest.state = .vacating
    rw [acts.2.2.2 u (by simp)]
    exact vacating
  · rw [deferred full]
    refine ⟨?_, .inr ?_⟩
    · rw [modUnit_unit_self]
      exact vacating
    · rw [modUnit_unit_self]

/-- A cabin opened is closed again (R177). -/
theorem followUp_closes (hk : s.kind u = .cabin) (hb : (s.bank (bankOf u)).state = .running)
    (hf : s.engine.follow.find? (fun e => e.1 = u) = some (u, .toClose)) (hs : (s.unit u).state = .evacOpen)
    (he : s.levelEvac = false) :
    ((followUp (verifiedUnit s u .withdraw door) u .verify).unit u).state = .closing ∧
    Moved (followUp (verifiedUnit s u .withdraw door) u .verify) u .throw .normal := by
  have verified : verifiedUnit s u .withdraw door = s :=
    (verifiedUnit_cabin hk).trans (verifiedCabin_none (by simp [hs]) (by simp [hs]) (by simp [hs]))
  rw [verified, followUp_close_evac hf hs]
  refine ⟨(handOver_state u).trans (enter_state _), handOver_moved ⟨hb, fun h => ?_⟩⟩
  have level : s.levelEvac = true := h.1
  rw [he] at level
  exact absurd level (by decide)

theorem Moved.pump (h : Moved s u op k) (hu : t.units = s.units) (hd : t.drive = s.drive) : Moved (pump t) u op k := by
  unfold Moved State.unit
  rw [pump_units, pump_drive, hu, hd]
  exact h

/-- A verify result of a cabin with a follow-up entry (R177). -/
theorem FollowReady.acts (h : FollowReady s u op c before behind f) : ∃ t, exec .verifyResult s = .next t ∧
    (∀ e ∈ t.engine.follow, e.1 ≠ u) ∧ (∀ v, v ≠ u → (t.unit v).rest = (s.unit v).rest) ∧
    (f = .toOpen → op = .throw → (s.unit u).state = .closing ∨ (s.unit u).state = .free →
      (c.door = true → (t.unit u).state = .evacOpen ∧ (t.unit u).lamp.steady = .greenFlash ∧
        Moved t u .withdraw .urgent) ∧
      (c.door = false → (t.unit u).state = .vacating ∧ Moved t u .withdraw .urgent)) ∧
    (f = .toClose → op = .withdraw → (s.unit u).state = .evacOpen → s.levelEvac = false →
      (t.unit u).state = .closing ∧ Moved t u .throw .normal) := by
  have only : OnlyUnit u (s.reportTaken u (before ++ behind))
      (pump (takeVerified (s.reportTaken u (before ++ behind)) u op c)) := pump_only.of takeVerified_only
  have unit (x : State) (w : UnitIx) : (pump (takeVerified x u op c)).unit w =
      (followUp (verifiedUnit x u op c.door) u .verify).unit w := by
    unfold State.unit
    rw [pump_units, takeVerified_units]
  refine ⟨_, h.goes, ?_, fun v hv => only.others v hv, ?_, ?_⟩
  · rw [pump_engine]
    exact takeVerified_follow
  · rintro rfl rfl hs
    rw [unit]
    constructor
    · intro hd
      obtain ⟨state, lamp, moved⟩ := followUp_shut (s := s.reportTaken u (before ++ behind)) h.kind h.bank h.follow hs
      rw [← hd] at state lamp moved
      exact ⟨state, lamp, moved.pump takeVerified_units takeVerified_drive⟩
    · intro hd
      obtain ⟨state, moved⟩ := followUp_ajar (s := s.reportTaken u (before ++ behind)) h.kind h.bank h.follow hs h.still
      rw [← hd] at state moved
      exact ⟨state, moved.pump takeVerified_units takeVerified_drive⟩
  · rintro rfl rfl hs he
    rw [unit]
    obtain ⟨state, moved⟩ := followUp_closes (s := s.reportTaken u (before ++ behind)) (door := c.door) h.kind h.bank
      h.follow hs he
    exact ⟨state, moved.pump takeVerified_units takeVerified_drive⟩

/-- Settles O53, by the rule of the unit, the order of the held events and the follow-up entries. -/
theorem verifyResultsTaken : Obligations.VerifyResultsTaken := by
  unfold Obligations.VerifyResultsTaken
  refine ⟨⟨?_, fun s ht hr he => verifyResult_noted ht hr he, fun s u op c ht hk hn he => verifyResult_held ht hk hn he⟩,
    fun s u op c before behind f ht hm hk hb hi hn hf => ?_⟩
  · intro s u op c before behind ht hg hh hi hb hf
    have ready : VerifyReady s u op c before behind :=
      { taking := ht, goes := hg, inbox := hi, follow := hf
        before := fun e he v op' c' hv goes => (hb e he v op' c' hv).2 (goes (hb e he v op' c' hv).1) }
    refine ⟨fun hk ho hs => ?_, fun hk ho hs => ?_, fun hk ho hs => ?_, fun hk ho hs => ?_,
      fun hk hl hu => ready.locker_idle hk hl hu, fun hk ha hc hf => ready.cabin_idle hk ha hc hf⟩
    · subst ho
      exact ready.locking hk hs
    · subst ho
      exact ⟨fun why hp => ready.releases hh hk hs hp, (ready.unlocking hk hs).1, (ready.unlocking hk hs).2⟩
    · subst ho
      exact ready.admitting hk hs
    · subst ho
      exact ready.closing hk hs
  · exact FollowReady.acts ⟨ht, hm, hk, hb, hi, hn, hf⟩

end Sys2Proof.Machine
end

/-! ## The steps of actions: how they are recorded, and when they are taken -/

section
namespace Sys2Proof.Machine

variable {s t m m0 : State} {a : Action} {u v : UnitIx} {op : BoltOp} {k : Urgency} {r : Running} {st stage : Stage} {n : Nat}
  {y : Result} {before behind : List Item} {e : StepEnd} {h : HeldEvent}

/-! ### What a step's end makes of the running slot (R153) -/

/-- The running action once a stage has been entered for a unit. -/
def Running.entered (r : Running) (u : UnitIx) (st : Stage) : Running :=
  { r with items := r.items.map fun i => if i.unit = u then ⟨u, st⟩ else i }

/-- A unit of the action has no outcome yet. -/
def Running.goesOn (r : Running) : Prop := ∃ i ∈ r.items, ∀ y, i.stage ≠ .done y

theorem not_done_iff : st.isDone = false ↔ ∀ y, st ≠ .done y := by cases st <;> simp [Stage.isDone]

theorem record_finish (hm : m.engine.runningSlot = some r) :
    record u n ⟨m, st⟩ = finish (m.setRunning (some { r.entered u st with count := r.count + n })) := by
  unfold record
  dsimp only
  rw [hm]
  rfl

/-- A step recorded while a unit is left without its outcome. -/
theorem record_goesOn (hm : m.engine.runningSlot = some r) (hg : (r.entered u st).goesOn) :
    record u n ⟨m, st⟩ = m.setRunning (some { r.entered u st with count := r.count + n }) := by
  obtain ⟨i, hi, hd⟩ := hg
  rw [record_finish hm]
  exact finish_goes rfl ⟨i, hi, not_done_iff.mpr hd⟩

/-- A step recorded that gives the last unit its outcome. -/
theorem record_last (hm : m.engine.runningSlot = some r) (hg : ¬(r.entered u st).goesOn) :
    record u n ⟨m, st⟩ = { m.setRunning none with
      notices := m.notices.post (m.doneNotice r.action (Running.result { r.entered u st with count := r.count + n })
        (Running.extra { r.entered u st with count := r.count + n })) } := by
  rw [record_finish hm]
  refine (finish_ends (r := { r.entered u st with count := r.count + n }) rfl fun i hi => ?_).trans rfl
  by_contra hd
  exact hg ⟨i, hi, not_done_iff.mp (Bool.eq_false_iff.mpr hd)⟩

theorem entered_single : (⟨a, [⟨u, stage⟩], n⟩ : Running).entered u st = ⟨a, [⟨u, st⟩], n⟩ := by
  simp [Running.entered]

theorem single_goes (hs : st.isDone = false) : (⟨a, [⟨u, st⟩], n⟩ : Running).goesOn :=
  ⟨⟨u, st⟩, by simp, not_done_iff.mp hs⟩

theorem single_done : ¬(⟨a, [⟨u, .done y⟩], n⟩ : Running).goesOn := by
  rintro ⟨i, hi, hd⟩
  rw [List.mem_singleton.mp hi] at hd
  exact hd y rfl

/-- An action on a unit of its own. -/
def Action.ofUnit (a : Action) (u : UnitIx) : Prop := a = .releaseUnit u ∨ a = .openUnit u

theorem single_result (ha : a.ofUnit v) : Running.result ⟨a, [⟨u, .done y⟩], n⟩ = y := by
  rcases ha with rfl | rfl <;> rfl

theorem single_extra (ha : a.ofUnit v) {items : List Item} : Running.extra ⟨a, items, n⟩ = 0 := by
  rcases ha with rfl | rfl <;> rfl

theorem record_single (hm : m.engine.runningSlot = some ⟨a, [⟨u, stage⟩], 0⟩) (hs : st.isDone = false) :
    record u n ⟨m, st⟩ = m.setRunning (some ⟨a, [⟨u, st⟩], n⟩) := by
  rw [record_goesOn hm (by rw [entered_single]; exact single_goes hs), entered_single]
  simp

theorem record_single_done (ha : a.ofUnit v) {i : Nat} (hm : m.engine.runningSlot = some ⟨a, [⟨u, stage⟩], i⟩) :
    record u n ⟨m, .done y⟩ = { m.setRunning none with notices := m.notices.post (m.doneNotice a y 0) } := by
  rw [record_last hm (by rw [entered_single]; exact single_done), entered_single, single_result ha, single_extra ha]

/-- A step that leaves the holder as it is counts none. -/
theorem cleared_zero (hh : (e.state.unit u).holder = (s.unit u).holder) : e.cleared s u = 0 := by
  unfold StepEnd.cleared
  rw [hh]
  cases (s.unit u).holder <;> simp

/-! ### Which step is taken again (R24, R153) -/

/-- The state once a step of the running action is taken, and noted so (R24). -/
def State.stepTaken (s : State) (u : UnitIx) : State := s.noteHeld.unhold (.step u)

theorem stepTaken_keepsHeld (s : State) (u : UnitIx) : KeepsHeld s (s.stepTaken u) (.step u) := unhold_keepsHeld s _

/-- A step that hands no record over is not held back (R24). -/
theorem stepHeld_of_free (hf : r.action.hands s u = false) : Running.stepHeld s.noteHeld r u = false := by
  have hands : r.action.hands s.noteHeld u = r.action.hands s u := by cases r.action <;> rfl
  simp [Running.stepHeld, Running.stepHands, hands, hf]

theorem unitsAt_append (hb : ∀ i ∈ before, i.stage ≠ st) (hi : r.items = before ++ ⟨u, st⟩ :: behind) :
    r.unitsAt st = u :: (behind.filter fun i => i.stage = st).map (·.unit) := by
  unfold Running.unitsAt
  rw [hi, List.filter_append, List.filter_eq_nil_iff.mpr fun i hi => by simpa using hb i hi]
  simp

theorem stepRepeat_takes (ht : Taking s) (hr : s.engine.runningSlot = some r)
    (hi : r.items = before ++ ⟨u, .again⟩ :: behind) (hb : ∀ i ∈ before, i.stage ≠ .again)
    (hf : r.action.hands s u = false) :
    exec .actionStepRepeat s = .next (pump (repeatStep (s.stepTaken u) r.action u)) := by
  have units := unitsAt_append hb hi
  have first : r.firstAgain s.noteHeld = some u := by
    unfold Running.firstAgain
    rw [units, List.find?_cons, stepHeld_of_free hf]
    rfl
  refine congrArg Host.Outcome.next ?_
  unfold stepRepeat
  rw [if_neg (by simp [(engineOn_iff s).mpr ht]), hr]
  dsimp only
  rw [if_neg (by simp [units]), first]
  rfl

theorem releaseBandStep_takes (ht : Taking s) (hr : s.engine.runningSlot = some r) {b : Band}
    (ha : r.action = .releaseBand b) (hi : r.items = before ++ ⟨u, .due⟩ :: behind)
    (hb : ∀ i ∈ before, i.stage ≠ .due) (hf : r.action.hands s u = false) :
    exec .releaseBandStep s = .next (pump (releaseOfBand (s.stepTaken u) b u)) := by
  have units := unitsAt_append hb hi
  have first : r.firstDue s.noteHeld = some u := by
    unfold Running.firstDue
    rw [units, List.head?_cons, Option.filter_some, stepHeld_of_free hf]
    rfl
  refine congrArg Host.Outcome.next ?_
  unfold releaseBandStep
  rw [if_neg (by simp [(engineOn_iff s).mpr ht]), hr]
  dsimp only
  rw [ha]
  dsimp only
  rw [if_neg (by simp [units]), first]
  rfl

theorem actionOutcome_records (ht : Taking s) (hr : s.engine.runningSlot = some r)
    (hi : r.items = before ++ ⟨u, .outcome y⟩ :: behind) (hb : ∀ i ∈ before, ∀ z, i.stage ≠ .outcome z) :
    exec .actionOutcome s = .next (record u 0 ⟨s, .done y⟩) := by
  have first : r.firstOutcome = some (u, y) := by
    unfold Running.firstOutcome
    rw [hi, List.findSome?_append, List.findSome?_eq_none_iff.mpr]
    · rfl
    · intro i hi
      split
      next z hz => exact absurd hz (hb i hi z)
      · rfl
  refine congrArg Host.Outcome.next ?_
  unfold actionOutcome
  rw [if_neg (by simp [(engineOn_iff s).mpr ht]), hr]
  dsimp only
  rw [first]

/-! ### What a step comes to once the port has served -/

/-- A step taken leaves what the engine holds back but for the step (R24). -/
theorem stepTaken_serves (hx : m.engine.held = (s.stepTaken u).engine.held)
    (ha : m.engine.arrived = (s.stepTaken u).engine.arrived) : KeepsHeld s (pump m) (.step u) ∧
    ∀ x : State, x.holding (pump m) = x.holding (s.stepTaken u) :=
  ⟨((stepTaken_keepsHeld s u).congr hx ha).pump, fun _ =>
    holding_congr ((pump_held _).trans hx) ((pump_arrived _).trans ha)⟩

theorem DriveActs.holding (hd : DriveActs s t) :
    t.engine.held = s.engine.held ∧ t.engine.arrived = s.engine.arrived := ⟨by rw [hd.2.1], by rw [hd.2.1]⟩

end Sys2Proof.Machine
end

/-! ## Releases and openings at acceptance -/

section
namespace Sys2Proof.Machine

variable {s t m m0 : State} {a : Action} {u v : UnitIx} {op : BoltOp} {k : Urgency} {r : Running} {st stage : Stage} {n : Nat}
  {y : Result} {before behind : List Item} {e : StepEnd} {c : Instr} {why : Reason} {silent : Bool}

/-! ### The step of a release (R154, R155) -/

theorem releaseStep_notHeld (hh : (s.unit u).holder = none) : releaseStep s u = ⟨s, .done .notHeld⟩ := by
  simp [releaseStep, releaseLockerStep, releaseCabinStep, hh]

theorem releaseStep_fault (hh : (s.unit u).holder ≠ none) (hs : (s.unit u).state = .fault) :
    releaseStep s u = ⟨s, .done .fault⟩ := by
  simp [releaseStep, releaseLockerStep, releaseCabinStep, hh, hs]

/-- The states in which a still locker is unlocked, by its bolt (R154). -/
def State.unlockable (s : State) (u : UnitIx) : Prop :=
  ((s.unit u).state = .held ∨ (s.unit u).state = .locking ∨ (s.unit u).state = .unlocking) ∨
    ((s.unit u).state = .forced ∨ (s.unit u).state = .serviceOpen) ∧ (s.cell u).bolt = true

/-- Those in which it is free at once (R154). -/
def State.freeable (s : State) (u : UnitIx) : Prop :=
  (s.unit u).state = .ajar ∨
    ((s.unit u).state = .forced ∨ (s.unit u).state = .serviceOpen) ∧ (s.cell u).bolt = false

theorem releaseStep_locker (hk : s.kind u = .locker) : releaseStep s u = releaseLockerStep s u := if_pos hk

theorem releaseStep_cabin (hk : s.kind u = .cabin) : releaseStep s u = releaseCabinStep s u :=
  if_neg (by simp [hk])

theorem releaseStep_unlocks (hk : s.kind u = .locker) (hh : (s.unit u).holder ≠ none) (hi : s.inHand u = false)
    (hs : s.unlockable u) : releaseStep s u = unlockForRelease s u := by
  rw [releaseStep_locker hk]
  unfold releaseLockerStep
  rcases hs with (hs | hs | hs) | ⟨hs | hs, hb⟩ <;> simp [*]

theorem releaseStep_frees (hk : s.kind u = .locker) (hh : (s.unit u).holder ≠ none) (hi : s.inHand u = false)
    (hs : s.freeable u) : releaseStep s u = freeForRelease s u := by
  rw [releaseStep_locker hk]
  unfold releaseLockerStep
  rcases hs with hs | ⟨hs | hs, hb⟩ <;> simp [*]

theorem releaseStep_repurposes (hk : s.kind u = .locker) (hh : (s.unit u).holder ≠ none) (hi : s.inHand u = true)
    (hs : (s.unit u).state = .unlocking) :
    releaseStep s u = ⟨setPurpose s u (some (.release .action)), .watchHanded⟩ := by
  rw [releaseStep_locker hk]
  unfold releaseLockerStep
  simp [hh, hi, hs]

theorem releaseStep_watches (hk : s.kind u = .locker) (hh : (s.unit u).holder ≠ none) (hi : s.inHand u = true)
    (hu : (s.unit u).state ≠ .unlocking) (hf : (s.unit u).state ≠ .fault) :
    releaseStep s u = ⟨s, .watchFinish⟩ := by
  rw [releaseStep_locker hk]
  unfold releaseLockerStep
  cases hs : (s.unit u).state <;> simp_all

theorem releaseStep_admitting_watched (hk : s.kind u = .cabin) (hh : (s.unit u).holder ≠ none)
    (hs : (s.unit u).state = .admitting) (hi : s.inHand u = true) : releaseStep s u = ⟨s, .watchFinish⟩ := by
  rw [releaseStep_cabin hk]
  simp [releaseCabinStep, hh, hs, hi]

theorem releaseStep_admitting (hk : s.kind u = .cabin) (hh : (s.unit u).holder ≠ none)
    (hs : (s.unit u).state = .admitting) (hi : s.inHand u = false) : releaseStep s u =
    ⟨postReleased (enter (clearHolder s u) u .vacating) u .action (s.unit u).holder (s.unit u).boundAt, .done .ok⟩ := by
  rw [releaseStep_cabin hk]
  simp [releaseCabinStep, hh, hs, hi]

theorem releaseStep_inside (hk : s.kind u = .cabin) (hh : (s.unit u).holder ≠ none)
    (hs : (s.unit u).state = .inUse ∨ (s.unit u).state = .expired) : releaseStep s u =
    ⟨releaseCabin s u .action (s.unit u).suspended, s.outcomeOf u⟩ := by
  rw [releaseStep_cabin hk]
  rcases hs with hs | hs <;> simp [releaseCabinStep, hh, hs]

/-! ### What the step of an acceptance comes to -/

/-- The state once an action on one unit has been accepted, and its step is taken. -/
def State.stepping (s : State) (a : Action) (u : UnitIx) : State := s.accepted (some ⟨a, [⟨u, .due⟩], 0⟩)

theorem Acceptable.releases (h : Acceptable s (.releaseUnit u)) (hp : (Action.releaseUnit u).passes s = true) :
    exec .releaseUnit s = .next (pump (releaseOne (s.stepping (.releaseUnit u) u) u)) :=
  congrArg Host.Outcome.next (h.accept_passing rfl hp)

theorem Acceptable.opens (h : Acceptable s (.openUnit u)) (hp : (Action.openUnit u).passes s = true) :
    exec .openUnit s = .next (pump (openOne (s.stepping (.openUnit u) u) u)) :=
  congrArg Host.Outcome.next (h.accept_passing rfl hp)

theorem Ends.of_record (ha : a.ofUnit v) {i : Nat} (goes : exec c s = .next (pump (record u n ⟨m, .done y⟩)))
    (hm : m.engine.runningSlot = some ⟨a, [⟨u, stage⟩], i⟩) (hc : m.clock = s.clock) :
    Ends s a c (m.setRunning none) y 0 := by
  refine ⟨_, goes, ?_⟩
  rw [record_single_done ha hm, show m.doneNotice a y 0 = s.doneNotice a y 0 by
    unfold State.doneNotice State.notice; rw [hc]]
  exact pump_serves _

theorem watches_of_record (goes : exec c s = .next (pump (record u n ⟨m, st⟩)))
    (hm : m.engine.runningSlot = some ⟨a, [⟨u, stage⟩], 0⟩) (hs : st.isDone = false) :
    ∃ t, exec c s = .next t ∧ PortServes (m.setRunning (some ⟨a, [⟨u, st⟩], n⟩)) t := by
  refine ⟨_, goes, ?_⟩
  rw [record_single hm hs]
  exact pump_serves _

/-- A step that hands a movement over, and watches it. -/
theorem moves_of_record (goes : exec c s = .next (pump (record u n ⟨handOver m u op k, st⟩)))
    (hm : m.engine.runningSlot = some ⟨a, [⟨u, stage⟩], 0⟩) (hs : st.isDone = false) :
    ∃ x t, exec c s = .next t ∧ PortServes x t ∧ MovesOn (m.setRunning (some ⟨a, [⟨u, st⟩], n⟩)) x u op k := by
  obtain ⟨t, goes, serves⟩ := watches_of_record goes ((handOver_acts m u op k).running.1.trans hm) hs
  exact ⟨_, t, goes, serves, (handOver_movesOn m u op k).setRunning _⟩

theorem releaseOne_of (he : releaseStep s u = ⟨m, st⟩) :
    releaseOne s u = record u (StepEnd.cleared ⟨m, st⟩ s u) ⟨m, st⟩ := by
  unfold releaseOne
  rw [he]

theorem Acceptable.release_ends (h : Acceptable s (.releaseUnit u)) (hp : (Action.releaseUnit u).passes s = true)
    (he : releaseStep (s.stepping (.releaseUnit u) u) u = ⟨m, .done y⟩)
    (hm : m.engine.runningSlot = some ⟨.releaseUnit u, [⟨u, .due⟩], 0⟩) (hc : m.clock = s.clock) :
    Ends s (.releaseUnit u) .releaseUnit (m.setRunning none) y 0 := by
  have goes := h.releases hp
  rw [releaseOne_of he] at goes
  exact .of_record (.inl rfl) goes hm hc

theorem Acceptable.release_watches (h : Acceptable s (.releaseUnit u)) (hp : (Action.releaseUnit u).passes s = true)
    (he : releaseStep (s.stepping (.releaseUnit u) u) u = ⟨m, st⟩) (hs : st.isDone = false)
    (hm : m.engine.runningSlot = some ⟨.releaseUnit u, [⟨u, .due⟩], 0⟩)
    (hh : (m.unit u).holder = (s.unit u).holder) : ∃ t, exec .releaseUnit s = .next t ∧
      PortServes (m.setRunning (some ⟨.releaseUnit u, [⟨u, st⟩], 0⟩)) t := by
  have goes := h.releases hp
  rw [releaseOne_of he, cleared_zero hh] at goes
  exact watches_of_record goes hm hs

theorem Acceptable.release_moves (h : Acceptable s (.releaseUnit u)) (hp : (Action.releaseUnit u).passes s = true)
    (he : releaseStep (s.stepping (.releaseUnit u) u) u = ⟨handOver m u op k, st⟩) (hs : st.isDone = false)
    (hm : m.engine.runningSlot = some ⟨.releaseUnit u, [⟨u, .due⟩], 0⟩)
    (hh : (m.unit u).holder = (s.unit u).holder) : ∃ x t, exec .releaseUnit s = .next t ∧ PortServes x t ∧
      MovesOn (m.setRunning (some ⟨.releaseUnit u, [⟨u, st⟩], 0⟩)) x u op k := by
  have goes := h.releases hp
  rw [releaseOne_of he, cleared_zero ((handOver_acts m u op k).holder.trans hh)] at goes
  exact moves_of_record goes hm hs

/-! ### What a released unit does not depend on -/

theorem LockerReleased.setRunning (h : LockerReleased s t u why) (r : Option Running) :
    LockerReleased (s.setRunning r) (t.setRunning r) u why := by
  obtain ⟨left, e⟩ := h
  refine ⟨left, ?_⟩
  generalize t.bands = l at e
  rw [e]
  rfl

theorem LockerReleased.clock (h : LockerReleased s t u why) : t.clock = s.clock := by rw [h.2]
theorem LockerReleased.engine (h : LockerReleased s t u why) : t.engine = s.engine := by rw [h.2]

theorem CabinReleased.setRunning (h : CabinReleased s t u why silent) (r : Option Running) :
    CabinReleased (s.setRunning r) (t.setRunning r) u why silent := by
  obtain ⟨m, left, e, moved⟩ := h
  refine ⟨m.setRunning r, left, ?_, ?_⟩
  · generalize hb : m.bands = l at e
    rw [e]
    rfl
  · split at moved
    next hc =>
      refine (if_pos hc).mpr ?_
      split at moved
      next he => exact (if_pos he).mpr (moved.setRunning r)
      next he => exact (if_neg he).mpr (moved.setRunning r)
    next hc => exact (if_neg hc).mpr (by rw [moved])

theorem CabinReleased.acts (h : CabinReleased s t u why silent) : t.engine = { s.engine with inbox := t.engine.inbox } := by
  obtain ⟨m, -, e, moved⟩ := h
  have engine : m.engine = s.engine := by rw [e]
  split at moved
  · split at moved
    · rw [moved.1.2.1, engine]
    · rw [moved.1.2.1, engine]
  · rw [moved, engine]

/-! ### RELEASE_UNIT at acceptance (R154, R155) -/

theorem setPurpose_enter (st : UState) (p : Option Purpose) : setPurpose (enter s u st) u p =
    { s with units := put s.units u { (s.unit u).enters (s.kind u) st with purpose := p } } := by
  unfold setPurpose enter
  rw [modUnit_modUnit]
  rfl

/-- The unit's record replaced. -/
theorem withUnit_unit (s : State) (u : UnitIx) (x : UnitRec) : ({ s with units := put s.units u x } : State).unit u = x :=
  unit_put x

theorem withUnit_holder {x : UnitRec} (hx : x.holder = (s.unit u).holder) :
    (({ s with units := put s.units u x } : State).unit u).holder = (s.unit u).holder := by
  rw [withUnit_unit]
  exact hx

/-- The record of a locker unlocked for an action (R154). -/
def State.unlockedRec (s : State) (u : UnitIx) : UnitRec :=
  { (s.unit u).enters .locker .unlocking with purpose := some (.release .action) }

theorem unlocking_eq (hk : s.kind u = .locker) : setPurpose (enter s u .unlocking) u (some (.release .action)) =
    { s with units := put s.units u (s.unlockedRec u) } := by
  rw [setPurpose_enter, hk]
  rfl

section
variable (h : Acceptable s (.releaseUnit u)) (hp : (Action.releaseUnit u).passes s = true)
include h hp

theorem release_notHeld (hh : (s.unit u).holder = none) :
    Ends s (.releaseUnit u) .releaseUnit (s.accepted none) .notHeld 0 :=
  h.release_ends hp (releaseStep_notHeld (s := s.stepping (.releaseUnit u) u) hh) rfl rfl

theorem release_fault (hh : (s.unit u).holder ≠ none) (hs : (s.unit u).state = .fault) :
    Ends s (.releaseUnit u) .releaseUnit (s.accepted none) .fault 0 :=
  h.release_ends hp (releaseStep_fault (s := s.stepping (.releaseUnit u) u) hh hs) rfl rfl

theorem release_unlocks (hk : s.kind u = .locker) (hh : (s.unit u).holder ≠ none) (hi : s.inHand u = false)
    (hs : s.unlockable u) :
    ((s.unit u).suspended = false → ∃ m t, exec .releaseUnit s = .next t ∧ PortServes m t ∧
      MovesOn { s.accepted (some ⟨.releaseUnit u, [⟨u, .watchHanded⟩], 0⟩) with
        units := put s.units u (s.unlockedRec u) } m u .withdraw .normal) ∧
    ((s.unit u).suspended = true → Ends s (.releaseUnit u) .releaseUnit
      { s.accepted none with units := put s.units u (s.unlockedRec u) } .suspended 0) := by
  have step := releaseStep_unlocks (s := s.stepping (.releaseUnit u) u) hk hh hi hs
  have sus : ((s.stepping (.releaseUnit u) u).unit u).suspended = (s.unit u).suspended := rfl
  unfold unlockForRelease at step
  dsimp only at step
  rw [unlocking_eq (s := s.stepping (.releaseUnit u) u) hk, sus] at step
  constructor
  · intro hsus
    rw [if_neg (by simp [hsus])] at step
    exact h.release_moves hp step rfl rfl
      (withUnit_holder (s := s.stepping (.releaseUnit u) u) (x := s.unlockedRec u) rfl)
  · intro hsus
    rw [if_pos hsus] at step
    exact h.release_ends hp step rfl rfl

theorem release_frees (hok : HoldingsOk s) (hk : s.kind u = .locker) (hh : (s.unit u).holder ≠ none)
    (hi : s.inHand u = false) (hs : s.freeable u) :
    ∃ m, LockerReleased { s.accepted none with timers := s.timers.filter fun e => e.unit ≠ u } m u .action ∧
      Ends s (.releaseUnit u) .releaseUnit m (if (s.unit u).suspended then .suspended else .ok) 0 := by
  have step := releaseStep_frees (s := s.stepping (.releaseUnit u) u) hk hh hi hs
  have released : LockerReleased ((s.stepping (.releaseUnit u) u).noTimer u)
      (releaseLocker ((s.stepping (.releaseUnit u) u).noTimer u) u .action) u .action :=
    releaseLocker_released (s := (s.stepping (.releaseUnit u) u).noTimer u) hok
  refine ⟨_, released.setRunning none, h.release_ends hp step ?_ ?_⟩
  · rw [released.engine]
    rfl
  · rw [released.clock]
    rfl

theorem release_inHand (hk : s.kind u = .locker) (hh : (s.unit u).holder ≠ none) (hi : s.inHand u = true) :
    ((s.unit u).state = .unlocking → ∃ t, exec .releaseUnit s = .next t ∧
      PortServes { s.accepted (some ⟨.releaseUnit u, [⟨u, .watchHanded⟩], 0⟩) with
        units := put s.units u { s.unit u with purpose := some (.release .action) } } t) ∧
    ((s.unit u).state ≠ .unlocking → (s.unit u).state ≠ .fault → ∃ t, exec .releaseUnit s = .next t ∧
      PortServes (s.accepted (some ⟨.releaseUnit u, [⟨u, .watchFinish⟩], 0⟩)) t) :=
  ⟨fun hs => h.release_watches hp (releaseStep_repurposes (s := s.stepping (.releaseUnit u) u) hk hh hi hs) rfl rfl
      (withUnit_holder (s := s.stepping (.releaseUnit u) u) (x := { s.unit u with purpose := some (.release .action) }) rfl),
    fun hu hf => h.release_watches hp (releaseStep_watches (s := s.stepping (.releaseUnit u) u) hk hh hi hu hf) rfl rfl rfl⟩

theorem release_admitting (hok : HoldingsOk s) (hk : s.kind u = .cabin) (hh : (s.unit u).holder ≠ none)
    (hs : (s.unit u).state = .admitting) :
    (s.inHand u = true → ∃ t, exec .releaseUnit s = .next t ∧
      PortServes (s.accepted (some ⟨.releaseUnit u, [⟨u, .watchFinish⟩], 0⟩)) t) ∧
    (s.inHand u = false → ∃ l, BandLeft s l u (s.unit u).holder ∧ Ends s (.releaseUnit u) .releaseUnit
      { s.accepted none with
        bands := l
        units := put s.units u ((s.unit u).unheld.enters .cabin .vacating)
        notices := s.notices.post (s.notice .released Reason.action.code (some u) (s.unit u).holder (s.unit u).boundAt) }
      .ok 0) := by
  refine ⟨fun hi => h.release_watches hp
    (releaseStep_admitting_watched (s := s.stepping (.releaseUnit u) u) hk hh hs hi) rfl rfl rfl, fun hi => ?_⟩
  have step := releaseStep_admitting (s := s.stepping (.releaseUnit u) u) hk hh hs hi
  have e : postReleased (enter (clearHolder (s.stepping (.releaseUnit u) u) u) u .vacating) u .action
      (s.unit u).holder (s.unit u).boundAt = { s.stepping (.releaseUnit u) u with
        bands := (s.unit u).holder.elim s.bands fun b => unbindUnit s.bands b u
        units := put s.units u ((s.unit u).unheld.enters .cabin .vacating)
        notices := s.notices.post
          (s.notice .released Reason.action.code (some u) (s.unit u).holder (s.unit u).boundAt) } := by
    rw [clearHolder_eq, enter_eq, ← hk]
    simp only [State.unit, put_get_self, put_put]
    rfl
  refine ⟨_, unbind_bandLeft hok _, h.release_ends hp (step.trans (congrArg (StepEnd.mk · _) e)) rfl rfl⟩

theorem release_inside (hok : HoldingsOk s) (hk : s.kind u = .cabin) (hh : (s.unit u).holder ≠ none)
    (hs : (s.unit u).state = .inUse ∨ (s.unit u).state = .expired) :
    ∃ m, CabinReleased (s.accepted none) m u .action (s.unit u).suspended ∧
      Ends s (.releaseUnit u) .releaseUnit m (if (s.unit u).suspended then .suspended else .ok) 0 := by
  have step := releaseStep_inside (s := s.stepping (.releaseUnit u) u) hk hh hs
  have released : CabinReleased (s.stepping (.releaseUnit u) u)
      (releaseCabin (s.stepping (.releaseUnit u) u) u .action (s.unit u).suspended) u .action (s.unit u).suspended :=
    releaseCabin_released (s := s.stepping (.releaseUnit u) u) hok
  refine ⟨_, released.setRunning none, h.release_ends hp step ?_ released.clock⟩
  rw [released.acts]
  rfl

end

end Sys2Proof.Machine
end

/-! ## Openings, and the bands released at acceptance -/

section
namespace Sys2Proof.Machine

variable {s t m m0 : State} {a : Action} {u v : UnitIx} {op : BoltOp} {k : Urgency} {r : Running} {st stage : Stage} {n : Nat}
  {y : Result} {before behind : List Item} {e : StepEnd} {c : Instr} {why : Reason} {silent : Bool} {us : UState}

/-! ### The step of OPEN_UNIT (R157) -/

/-- A unit that OPEN_UNIT finds busy (R157). -/
def State.openBusy (s : State) (u : UnitIx) : Prop :=
  s.inHand u = true ∨ (s.unit u).suspended = true ∨ (s.unit u).state = .locking ∨ (s.unit u).state = .unlocking ∨
    (s.unit u).state = .admitting ∨ (s.unit u).state = .closing

theorem openBusy_iff : (s.inHand u || (s.unit u).suspended || (s.unit u).state.transitional) = true ↔ s.openBusy u := by
  unfold State.openBusy
  cases (s.unit u).state <;> simp [UState.transitional]

theorem openStep_busy (hb : s.openBusy u) : openStep s u = ⟨s, .done .busy⟩ := if_pos (openBusy_iff.mpr hb)

theorem openStep_opens (hb : ¬s.openBusy u) (hk : s.kind u = .locker) (hs : (s.unit u).state = .held ∨
    (s.unit u).state = .forced ∨ (s.unit u).state = .fault ∨ (s.unit u).state = .ajar) :
    openStep s u = openEnd (openLocker s u) (s.openMoves u) := by
  unfold openStep
  dsimp only
  rw [if_neg (mt openBusy_iff.mp hb), hk]
  rcases hs with hs | hs | hs | hs <;> rw [hs]

/-- A unit that stands open already (R157). -/
def State.standsOpen (s : State) (u : UnitIx) : Prop :=
  s.kind u = .locker ∧ ((s.unit u).state = .free ∨ (s.unit u).state = .serviceOpen) ∨
  s.kind u = .cabin ∧ ((s.unit u).state = .inUse ∨ (s.unit u).state = .expired ∨ (s.unit u).state = .vacating ∨
    (s.unit u).state = .serviceOpen ∨ (s.unit u).state = .evacOpen)

theorem openStep_open (hb : ¬s.openBusy u) (hs : s.standsOpen u) : openStep s u = ⟨s, .done .ok⟩ := by
  unfold openStep
  dsimp only
  rw [if_neg (mt openBusy_iff.mp hb)]
  rcases hs with ⟨hk, hs | hs⟩ | ⟨hk, hs | hs | hs | hs | hs⟩ <;> rw [hk, hs]

theorem openStep_free (hb : ¬s.openBusy u) (hk : s.kind u = .cabin) (hs : (s.unit u).state = .free) :
    openStep s u = ⟨handOver (enter s u .serviceOpen) u .withdraw .normal, .watchHanded⟩ := by
  unfold openStep
  dsimp only
  rw [if_neg (mt openBusy_iff.mp hb), hk, hs]
  rfl

theorem openStep_faultCabin (hb : ¬s.openBusy u) (hk : s.kind u = .cabin) (hs : (s.unit u).state = .fault) :
    openStep s u = openEnd (openFaultCabin s u .action) (s.cell u).bolt := by
  unfold openStep
  dsimp only
  rw [if_neg (mt openBusy_iff.mp hb), hk, hs]

theorem openStep_outOfService (hb : ¬s.openBusy u) (hs : (s.unit u).state = .outOfService) :
    openStep s u = openEnd (if (s.cell u).bolt then handOver s u .withdraw .normal else s) (s.cell u).bolt := by
  unfold openStep
  dsimp only
  rw [if_neg (mt openBusy_iff.mp hb), hs]
  cases s.kind u <;> rfl

/-! ### The locker that is opened (R39, R41) -/

/-- A STATE stands for a locker in FAULT (R39). -/
def State.standing (s : State) (u : UnitIx) : Bool :=
  (s.unit u).state = .fault && ((s.unit u).stateRef.isSome || s.stateWaits u)

/-- The record of a locker that is opened (R39). -/
def State.openedRec (s : State) (u : UnitIx) : UnitRec :=
  if s.standing u then { s.unit u with stateRef := none } else s.unit u

/-- What is handed to the journal where a locker is opened (R39). -/
def State.openedJournal (s : State) (u : UnitIx) : Journal :=
  if s.standing u then (handJournal s (.state u .returned)).journal else s.journal

theorem opening_eq (hk : s.kind u = .locker) : s.opening u = { s with
    units := put s.units u (s.openedRec u), journal := s.openedJournal u } := by
  unfold State.opening State.openedRec State.openedJournal State.standing
  by_cases hs : (s.unit u).state = .fault
  · rw [if_pos hs]
    unfold State.leftFault
    rw [leftRec_locker hk]
    simp [State.returnHands, hk, hs]
  · rw [if_neg hs]
    simp only [hs, decide_false, Bool.false_and, Bool.false_eq_true, if_false]
    rw [put_unit]

theorem opening_enter (hk : s.kind u = .locker) (us : UState) : enter (s.opening u) u us = { s with
    units := put s.units u ((s.openedRec u).enters .locker us), journal := s.openedJournal u } := by
  rw [opening_eq hk, enter_eq]
  simp only [State.unit, put_get_self, put_put]
  rw [← hk]
  rfl

theorem opening_unlocks (hk : s.kind u = .locker) : setPurpose (enter (s.opening u) u .unlocking) u (some .service) =
    { s with
      units := put s.units u { (s.openedRec u).enters .locker .unlocking with purpose := some .service }
      journal := s.openedJournal u } := by
  rw [opening_enter hk]
  simp only [setPurpose, State.modUnit, State.setUnit, State.unit, put_get_self, put_put]

/-! ### OPEN_UNIT at acceptance -/

section
variable (h : Acceptable s (.openUnit u)) (hp : (Action.openUnit u).passes s = true)
include h hp

theorem open_ends (he : openStep (s.stepping (.openUnit u) u) u = ⟨m, .done y⟩)
    (hm : m.engine.runningSlot = some ⟨.openUnit u, [⟨u, .due⟩], 0⟩) (hc : m.clock = s.clock) :
    Ends s (.openUnit u) .openUnit (m.setRunning none) y 0 := by
  have goes := h.opens hp
  unfold openOne at goes
  rw [he] at goes
  exact .of_record (.inr rfl) goes hm hc

theorem open_moves (he : openStep (s.stepping (.openUnit u) u) u = ⟨handOver m u op k, .watchHanded⟩)
    (hm : m.engine.runningSlot = some ⟨.openUnit u, [⟨u, .due⟩], 0⟩) : ∃ x t, exec .openUnit s = .next t ∧
      PortServes x t ∧ MovesOn (m.setRunning (some ⟨.openUnit u, [⟨u, .watchHanded⟩], 0⟩)) x u op k := by
  have goes := h.opens hp
  unfold openOne at goes
  rw [he] at goes
  exact moves_of_record goes hm rfl

theorem open_busy (hb : s.openBusy u) : Ends s (.openUnit u) .openUnit (s.accepted none) .busy 0 :=
  open_ends h hp (openStep_busy (s := s.stepping (.openUnit u) u) hb) rfl rfl

theorem open_standsOpen (hb : ¬s.openBusy u) (hs : s.standsOpen u) :
    Ends s (.openUnit u) .openUnit (s.accepted none) .ok 0 :=
  open_ends h hp (openStep_open (s := s.stepping (.openUnit u) u) hb hs) rfl rfl

theorem open_ajar (hb : ¬s.openBusy u) (hk : s.kind u = .locker) (hs : (s.unit u).state = .ajar) :
    Ends s (.openUnit u) .openUnit { s.accepted none with
      units := put s.units u ((s.openedRec u).enters .locker .serviceOpen)
      timers := s.timers.filter fun e => e.unit ≠ u } .ok 0 := by
  have step := openStep_opens (s := s.stepping (.openUnit u) u) hb hk (.inr (.inr (.inr hs)))
  have stays : (s.stepping (.openUnit u) u).openMoves u = false := by
    unfold State.openMoves
    rw [show ((s.stepping (.openUnit u) u).unit u).state = .ajar from hs]
    rfl
  have opened : s.openedRec u = s.unit u := by simp [State.openedRec, State.standing, hs]
  rw [stays, openLocker_ajar (s := s.stepping (.openUnit u) u) hs, enter_eq,
    show ((s.stepping (.openUnit u) u).noTimer u).kind u = .locker from hk] at step
  rw [opened]
  exact open_ends h hp step rfl rfl

theorem open_locker (hb : ¬s.openBusy u) (hk : s.kind u = .locker)
    (hs : (s.unit u).state = .held ∨ (s.unit u).state = .forced ∨ (s.unit u).state = .fault) :
    ((s.cell u).bolt = false → Ends s (.openUnit u) .openUnit { s.accepted none with
      units := put s.units u ((s.openedRec u).enters .locker .serviceOpen), journal := s.openedJournal u } .ok 0) ∧
    ((s.cell u).bolt = true → (s.unit u).holder = none → ∃ m t, exec .openUnit s = .next t ∧ PortServes m t ∧
      MovesOn { s.accepted (some ⟨.openUnit u, [⟨u, .watchHanded⟩], 0⟩) with
        units := put s.units u ((s.openedRec u).enters .locker .serviceOpen), journal := s.openedJournal u }
        m u .withdraw .normal) ∧
    ((s.cell u).bolt = true → (s.unit u).holder ≠ none → ∃ m t, exec .openUnit s = .next t ∧ PortServes m t ∧
      MovesOn { s.accepted (some ⟨.openUnit u, [⟨u, .watchHanded⟩], 0⟩) with
        units := put s.units u { (s.openedRec u).enters .locker .unlocking with purpose := some .service }
        journal := s.openedJournal u } m u .withdraw .normal) := by
  have step := openStep_opens (s := s.stepping (.openUnit u) u) hb hk (by
    rcases hs with hs | hs | hs
    exacts [.inl hs, .inr (.inl hs), .inr (.inr (.inl hs))])
  have away : ((s.stepping (.openUnit u) u).unit u).state ≠ .ajar := by
    show (s.unit u).state ≠ .ajar
    rcases hs with hs | hs | hs <;> rw [hs] <;> decide
  have moves : (s.stepping (.openUnit u) u).openMoves u = (s.cell u).bolt := by
    unfold State.openMoves
    simp only [ne_eq, away, not_false_eq_true, decide_true, Bool.true_and]
    rfl
  rw [moves] at step
  refine ⟨fun hbolt => ?_, fun hbolt hh => ?_, fun hbolt hh => ?_⟩
  · rw [hbolt, openLocker_withdrawn away hbolt, opening_enter (s := s.stepping (.openUnit u) u) hk] at step
    exact open_ends h hp step rfl rfl
  · rw [hbolt, openLocker_free away hbolt hh, opening_enter (s := s.stepping (.openUnit u) u) hk] at step
    exact open_moves h hp step rfl
  · rw [hbolt, openLocker_held away hbolt hh, opening_unlocks (s := s.stepping (.openUnit u) u) hk] at step
    exact open_moves h hp step rfl

theorem open_freeCabin (hb : ¬s.openBusy u) (hk : s.kind u = .cabin) (hs : (s.unit u).state = .free) :
    ∃ m t, exec .openUnit s = .next t ∧ PortServes m t ∧
      MovesOn { s.accepted (some ⟨.openUnit u, [⟨u, .watchHanded⟩], 0⟩) with
        units := put s.units u ((s.unit u).enters .cabin .serviceOpen) } m u .withdraw .normal := by
  have step := openStep_free (s := s.stepping (.openUnit u) u) hb hk hs
  rw [enter_eq, show (s.stepping (.openUnit u) u).kind u = .cabin from hk] at step
  exact open_moves h hp step rfl

theorem open_outOfService (hb : ¬s.openBusy u) (hs : (s.unit u).state = .outOfService) :
    ((s.cell u).bolt = false → Ends s (.openUnit u) .openUnit (s.accepted none) .ok 0) ∧
    ((s.cell u).bolt = true → ∃ m t, exec .openUnit s = .next t ∧ PortServes m t ∧
      MovesOn { s.accepted (some ⟨.openUnit u, [⟨u, .watchHanded⟩], 0⟩) with units := put s.units u (s.unit u) }
        m u .withdraw .normal) := by
  have step := openStep_outOfService (s := s.stepping (.openUnit u) u) hb hs
  have bolt : ((s.stepping (.openUnit u) u).cell u).bolt = (s.cell u).bolt := rfl
  rw [bolt] at step
  constructor
  · intro hbolt
    rw [hbolt] at step
    exact open_ends h hp step rfl rfl
  · intro hbolt
    rw [hbolt, if_pos rfl] at step
    rw [put_unit]
    exact open_moves h hp (m := s.stepping (.openUnit u) u) step rfl

theorem open_faultCabin (hok : HoldingsOk s) (hb : ¬s.openBusy u) (hk : s.kind u = .cabin)
    (hs : (s.unit u).state = .fault) : ∃ l, BandLeft s l u (s.unit u).holder ∧
      let x : UnitRec := (if (s.unit u).holder.isSome then (s.unit u).unheld else s.unit u).enters .cabin .serviceOpen
      let m (n : State) : State := { n with
        bands := l, units := put s.units u x
        notices := if (s.unit u).holder.isSome
          then s.notices.post (s.notice .released Reason.action.code (some u) (s.unit u).holder (s.unit u).boundAt)
          else s.notices }
      ((s.cell u).bolt = false → Ends s (.openUnit u) .openUnit (m (s.accepted none)) .ok 0) ∧
      ((s.cell u).bolt = true → ∃ x t, exec .openUnit s = .next t ∧ PortServes x t ∧
        MovesOn (m (s.accepted (some ⟨.openUnit u, [⟨u, .watchHanded⟩], 0⟩))) x u .withdraw .normal) := by
  have step := openStep_faultCabin (s := s.stepping (.openUnit u) u) hb hk hs
  have bolt : ((s.stepping (.openUnit u) u).cell u).bolt = (s.cell u).bolt := rfl
  have entered : enter ((s.stepping (.openUnit u) u).evicted u .action) u .serviceOpen =
      { (s.stepping (.openUnit u) u).evicted u .action with
        units := put s.units u
          ((if (s.unit u).holder.isSome then (s.unit u).unheld else s.unit u).enters .cabin .serviceOpen) } := by
    rw [enter_eq, put_evicted, show ((s.stepping (.openUnit u) u).evicted u .action).kind u = .cabin from hk,
      show ((s.stepping (.openUnit u) u).evicted u .action).unit u = _ from unit_put _]
    rfl
  rw [openFaultCabin_eq, bolt, entered] at step
  refine ⟨_, unbind_bandLeft hok _, ?_⟩
  intro x m
  constructor
  · intro hbolt
    rw [hbolt] at step
    exact open_ends h hp step rfl rfl
  · intro hbolt
    rw [hbolt, if_pos rfl] at step
    exact open_moves h hp step rfl

end

/-! ### RELEASE_BAND at acceptance (R156) -/

theorem Acceptable.releasesBand {b : Band} (h : Acceptable s (.releaseBand b)) :
    (bandEntry s.bands b = none → Ends s (.releaseBand b) .releaseBand (s.accepted none) .notHeld 0) ∧
    (∀ e, bandEntry s.bands b = some e → ∃ t, exec .releaseBand s = .next t ∧
      PortServes (s.accepted (some ⟨.releaseBand b, e.held.map fun u => ⟨u, .due⟩, 0⟩)) t) := by
  have goes : exec .releaseBand s = .next (pump (releaseBandFirst (.releaseBand b) (moveToRunning s (.releaseBand b)))) :=
    congrArg Host.Outcome.next (h.accept_passing rfl rfl)
  constructor
  · intro hb
    refine ⟨_, goes, ?_⟩
    unfold releaseBandFirst
    dsimp only
    rw [show bandEntry (moveToRunning s (.releaseBand b)).bands b = none from hb]
    dsimp only
    rw [endAction_eq (s := moveToRunning s (.releaseBand b)) (r := ⟨.releaseBand b, [], 0⟩) rfl]
    exact pump_serves _
  · intro e he
    refine ⟨_, goes, ?_⟩
    unfold releaseBandFirst
    dsimp only
    rw [show bandEntry (moveToRunning s (.releaseBand b)).bands b = some e from he]
    exact pump_serves _

end Sys2Proof.Machine
end

/-! ## Steps of running actions, and the statement of releases and openings -/

section
namespace Sys2Proof.Machine

variable {s t m m0 x : State} {a : Action} {u v : UnitIx} {op : BoltOp} {k : Urgency} {r : Running} {st stage : Stage}
  {n : Nat} {y : Result} {before behind : List Item} {e : StepEnd} {c : Instr} {b : Band}

/-! ### What a step taken within a running action comes to (R153) -/

/-- The state with the running slot's progress replaced. -/
def State.runs (s : State) (r : Running) : State := { s with engine := { s.engine with runningSlot := some r } }

theorem entered_goesOn (hi : ∃ i ∈ r.items, i.unit = u) (hs : st.isDone = false) : (r.entered u st).goesOn := by
  obtain ⟨i, mem, unit⟩ := hi
  refine ⟨⟨u, st⟩, List.mem_map.mpr ⟨i, mem, if_pos unit⟩, not_done_iff.mp hs⟩

theorem entered_count : ({ r.entered u st with count := r.count + 0 } : Running) = r.entered u st := rfl

theorem step_recorded (goes : exec c s = .next (pump (record u n ⟨s.stepTaken u, st⟩)))
    (hr : s.engine.runningSlot = some r) (hg : (r.entered u st).goesOn) : ∃ t, exec c s = .next t ∧
      KeepsHeld s t (.step u) ∧ PortServes ((s.runs { r.entered u st with count := r.count + n }).holding t) t := by
  rw [record_goesOn (m := s.stepTaken u) hr hg] at goes
  obtain ⟨keeps, holds⟩ := stepTaken_serves (s := s) (u := u)
    (m := (s.stepTaken u).setRunning (some { r.entered u st with count := r.count + n })) rfl rfl
  refine ⟨_, goes, keeps, ?_⟩
  rw [holds]
  exact pump_serves _

/-- A step that hands a movement over, from a state that has the unit's record replaced. -/
theorem step_moves {z : UnitRec} (goes : exec c s = .next (pump (record u n
      ⟨handOver { s.stepTaken u with units := put s.units u z } u op k, st⟩)))
    (hr : s.engine.runningSlot = some r) (hg : (r.entered u st).goesOn) : ∃ m t, exec c s = .next t ∧
      KeepsHeld s t (.step u) ∧ PortServes m t ∧
      MovesOn ({ s.runs { r.entered u st with count := r.count + n } with units := put s.units u z }.holding t)
        m u op k := by
  have moves := handOver_movesOn { s.stepTaken u with units := put s.units u z } u op k
  obtain ⟨held, arrived⟩ := moves.1.holding
  generalize handOver { s.stepTaken u with units := put s.units u z } u op k = h at *
  rw [record_goesOn (moves.1.running.1.trans hr) hg] at goes
  obtain ⟨keeps, holds⟩ := stepTaken_serves (s := s) (u := u)
    (m := h.setRunning (some { r.entered u st with count := r.count + n })) held arrived
  refine ⟨_, _, goes, keeps, pump_serves _, ?_⟩
  rw [holds]
  exact moves.setRunning _

theorem stepTaken_enter (us : UState) {kind : UnitKind} (hk : s.kind u = kind) : enter (s.stepTaken u) u us =
    { s.stepTaken u with units := put s.units u ((s.unit u).enters kind us) } := by
  rw [enter_eq, ← hk]
  rfl

/-- A locker that a running release unlocks (R154). -/
structure Unlockable (s : State) (u : UnitIx) : Prop where
  kind : s.kind u = .locker
  holder : (s.unit u).holder ≠ none
  state : (s.unit u).state = .held
  still : s.inHand u = false
  suspended : (s.unit u).suspended = false

theorem Unlockable.free (h : Unlockable s u) : s.releaseHands u = false := by
  simp [State.releaseHands, h.state]

theorem releaseHands_cabin (hk : s.kind u = .cabin) : s.releaseHands u = false := by
  simp [State.releaseHands, hk]

theorem Unlockable.step (h : Unlockable s u) (goes : exec c s = .next (pump (releaseOne (s.stepTaken u) u)))
    (hr : s.engine.runningSlot = some r) (hi : ∃ i ∈ r.items, i.unit = u) : ∃ m t, exec c s = .next t ∧
      KeepsHeld s t (.step u) ∧ PortServes m t ∧ MovesOn ({ s.runs (r.entered u .watchHanded) with
        units := put s.units u (s.unlockedRec u) }.holding t) m u .withdraw .normal := by
  have step := releaseStep_unlocks (s := s.stepTaken u) h.kind h.holder h.still (.inl (.inl h.state))
  unfold unlockForRelease at step
  dsimp only at step
  have unlocking : setPurpose (enter (s.stepTaken u) u .unlocking) u (some (.release .action)) =
      { s.stepTaken u with units := put s.units u (s.unlockedRec u) } := unlocking_eq (s := s.stepTaken u) h.kind
  rw [unlocking, if_neg (by rw [show ((s.stepTaken u).unit u).suspended = false from h.suspended]; decide)] at step
  have holder : ((handOver { s.stepTaken u with units := put s.units u (s.unlockedRec u) }
      u .withdraw .normal).unit u).holder = ((s.stepTaken u).unit u).holder :=
    (handOver_acts _ _ _ _).holder.trans (withUnit_holder (s := s.stepTaken u) (x := s.unlockedRec u) rfl)
  rw [releaseOne_of step, cleared_zero holder] at goes
  have moved := step_moves goes hr (entered_goesOn hi rfl)
  rw [entered_count] at moved
  exact moved

/-! ### RELEASE_BAND_STEP and ACTION_STEP_REPEAT -/

theorem mem_of_split (hi : r.items = before ++ ⟨u, stage⟩ :: behind) : ∃ i ∈ r.items, i.unit = u :=
  ⟨⟨u, stage⟩, by rw [hi]; simp, rfl⟩

theorem releaseOfBand_held (hh : (s.unit u).holder = some b) : releaseOfBand s b u = releaseOne s u := if_pos hh

theorem releaseOfBand_gone (hh : (s.unit u).holder ≠ some b) :
    releaseOfBand s b u = record u 0 ⟨s, .done .notHeld⟩ := if_neg hh

theorem releaseBand_passes (hh : (s.unit u).holder ≠ some b) : Action.hands s u (.releaseBand b) = false := by
  simp [Action.hands, hh]

theorem repeat_unlocks (ht : Taking s) (hr : s.engine.runningSlot = some r)
    (hi : r.items = before ++ ⟨u, .again⟩ :: behind) (hb : ∀ i ∈ before, i.stage ≠ .again)
    (ha : r.action = .releaseUnit u ∨ ∃ b, r.action = .releaseBand b ∧ (s.unit u).holder = some b)
    (h : Unlockable s u) : ∃ m t, exec .actionStepRepeat s = .next t ∧
      KeepsHeld s t (.step u) ∧ PortServes m t ∧ MovesOn ({ s.runs (r.entered u .watchHanded) with
        units := put s.units u (s.unlockedRec u) }.holding t) m u .withdraw .normal := by
  have free : r.action.hands s u = false := by
    rcases ha with e | ⟨b, e, -⟩
    · rw [e]
      exact h.free
    · rw [e]
      simp [Action.hands, h.free]
  have goes := stepRepeat_takes ht hr hi hb free
  have step : repeatStep (s.stepTaken u) r.action u = releaseOne (s.stepTaken u) u := by
    rcases ha with e | ⟨b, e, hh⟩
    · rw [e]
      rfl
    · rw [e]
      exact releaseOfBand_held (s := s.stepTaken u) hh
  rw [step] at goes
  exact h.step goes hr (mem_of_split hi)

theorem repeat_releasesCabin (ht : Taking s) (hr : s.engine.runningSlot = some r) (ha : r.action = .releaseUnit u)
    (hi : r.items = [⟨u, .again⟩]) (hok : HoldingsOk s) (hk : s.kind u = .cabin) (hh : (s.unit u).holder ≠ none)
    (hs : (s.unit u).state = .inUse ∨ (s.unit u).state = .expired) :
    ∃ m t, exec .actionStepRepeat s = .next t ∧ KeepsHeld s t (.step u) ∧
      CabinReleased ({ s with engine := { s.engine with runningSlot := none } }.holding t) m u .action
        (s.unit u).suspended ∧
      PortServes { m with
        notices := m.notices.post (s.doneNotice r.action (if (s.unit u).suspended then .suspended else .ok) 0) } t := by
  have goes := stepRepeat_takes (before := []) ht hr hi (by simp) (by rw [ha]; exact releaseHands_cabin hk)
  rw [ha] at goes ⊢
  have step := releaseStep_inside (s := s.stepTaken u) hk hh hs
  have released : CabinReleased (s.stepTaken u) (releaseCabin (s.stepTaken u) u .action (s.unit u).suspended) u .action
      (s.unit u).suspended := releaseCabin_released (s := s.stepTaken u) hok
  have sus : ((s.stepTaken u).unit u).suspended = (s.unit u).suspended := rfl
  rw [sus] at step
  unfold repeatStep at goes
  dsimp only at goes
  rw [releaseOne_of step] at goes
  generalize releaseCabin (s.stepTaken u) u .action (s.unit u).suspended = h at *
  have slot : h.engine.runningSlot = some ⟨.releaseUnit u, [⟨u, .again⟩], r.count⟩ := by
    rw [released.acts]
    refine hr.trans (congrArg some ?_)
    rw [← ha, ← hi]
  unfold State.outcomeOf at goes
  rw [sus] at goes
  rw [record_single_done (.inl rfl) slot,
    show h.doneNotice (.releaseUnit u) _ 0 = s.doneNotice (.releaseUnit u) _ 0 by
      unfold State.doneNotice State.notice
      rw [released.clock]
      rfl] at goes
  obtain ⟨keeps, holds⟩ := stepTaken_serves (s := s) (u := u) (m := { h.setRunning none with
    notices := h.notices.post (s.doneNotice (.releaseUnit u) (if (s.unit u).suspended then .suspended else .ok) 0) })
    (by show h.engine.held = _; rw [released.acts]) (by show h.engine.arrived = _; rw [released.acts])
  refine ⟨_, _, goes, keeps, ?_, pump_serves _⟩
  rw [holds]
  exact released.setRunning none

theorem repeat_closes (ht : Taking s) (hr : s.engine.runningSlot = some r)
    (hi : r.items = before ++ ⟨u, .again⟩ :: behind) (hb : ∀ i ∈ before, i.stage ≠ .again)
    (ha : r.action = .clearEvacuation) (hk : s.kind u = .cabin) (hs : (s.unit u).state = .evacOpen)
    (hn : s.inHand u = false) (hsus : (s.unit u).suspended = false) (hg : (r.entered u (.done .ok)).goesOn) :
    ∃ m t, exec .actionStepRepeat s = .next t ∧ KeepsHeld s t (.step u) ∧ PortServes m t ∧
      MovesOn ({ s.runs { r.entered u (.done .ok) with count := r.count + 1 } with
        units := put s.units u ((s.unit u).enters .cabin .closing) }.holding t) m u .throw .normal := by
  have goes := stepRepeat_takes ht hr hi hb (by rw [ha]; rfl)
  rw [ha] at goes
  unfold repeatStep at goes
  dsimp only at goes
  rw [clearOne_closes (s := s.stepTaken u) hs hn hsus, stepTaken_enter .closing hk] at goes
  exact step_moves goes hr hg

theorem repeat_opens (ht : Taking s) (hr : s.engine.runningSlot = some r)
    (hi : r.items = before ++ ⟨u, .again⟩ :: behind) (hb : ∀ i ∈ before, i.stage ≠ .again)
    (ha : r.action = .openUnit u) (hk : s.kind u = .cabin) (hs : (s.unit u).state = .free)
    (hn : s.inHand u = false) (hsus : (s.unit u).suspended = false) :
    ∃ m t, exec .actionStepRepeat s = .next t ∧ KeepsHeld s t (.step u) ∧ PortServes m t ∧
      MovesOn ({ s.runs (r.entered u .watchHanded) with
        units := put s.units u ((s.unit u).enters .cabin .serviceOpen) }.holding t) m u .withdraw .normal := by
  have goes := stepRepeat_takes ht hr hi hb (by rw [ha]; simp [Action.hands, State.returnHands, hk])
  have still : ¬(s.stepTaken u).openBusy u := by
    rintro (h | h | h | h | h | h)
    · exact absurd (hn.symm.trans h) (by decide)
    · exact absurd (hsus.symm.trans h) (by decide)
    all_goals exact absurd (hs.symm.trans h) (by decide)
  rw [ha] at goes
  unfold repeatStep openOne at goes
  dsimp only at goes
  rw [openStep_free still hk hs, stepTaken_enter .serviceOpen hk] at goes
  have moved := step_moves goes hr (entered_goesOn (mem_of_split hi) rfl)
  rw [entered_count] at moved
  exact moved

/-! ### ACTION_OUTCOME -/

theorem outcome_ends (ht : Taking s) (hr : s.engine.runningSlot = some r)
    (hi : r.items = before ++ ⟨u, .outcome y⟩ :: behind) (hb : ∀ i ∈ before, ∀ z, i.stage ≠ .outcome z)
    (hg : ¬(r.entered u (.done y)).goesOn) : exec .actionOutcome s = .next { s.setRunning none with
      notices := s.notices.post (s.doneNotice r.action (r.entered u (.done y)).result (r.entered u (.done y)).extra) } := by
  rw [actionOutcome_records ht hr hi hb, record_last hr hg]
  rfl

theorem releaseBand_result {items : List Item} : Running.result ⟨.releaseBand b, items, n⟩ =
    if ∃ i ∈ items, i.stage = .done .fault then .fault
    else if ∃ i ∈ items, i.stage = .done .suspended then .suspended else .ok := by
  simp [Running.result]

/-! ### The statement -/

/-- Settles O59, action by action: the acceptances, and then the steps and outcomes of a running action. -/
theorem releasesAndOpenings : Obligations.ReleasesAndOpenings := by
  unfold Obligations.ReleasesAndOpenings
  refine ⟨fun s a h hok hp => ?_, fun s r ht hr _ => ?_⟩
  · intro ends runs watches movesFrom moves s0
    refine ⟨?_, ?_, ?_⟩
    · rintro u rfl
      refine ⟨release_notHeld h hp, release_fault h hp, fun hh hk hi => ⟨fun hs => ?_, fun hs => ?_, fun hs => ?_⟩,
        fun hh hk hi => ⟨(release_inHand h hp hk hh hi).1, fun hs => ?_⟩, fun hh hk hs => ?_, fun hh hk hs => ?_⟩
      · exact release_unlocks h hp hk hh hi (.inl hs)
      · split
        next hb => exact release_unlocks h hp hk hh hi (.inr ⟨hs, hb⟩)
        next hb => exact release_frees h hp hok hk hh hi (.inr ⟨hs, by simpa using hb⟩)
      · exact release_frees h hp hok hk hh hi (.inl hs)
      · have away : (s.unit u).state ≠ .unlocking ∧ (s.unit u).state ≠ .fault := by
          rcases hs with e | e | e | e | e <;> rw [e] <;> decide
        exact (release_inHand h hp hk hh hi).2 away.1 away.2
      · exact release_admitting h hp hok hk hh hs
      · exact release_inside h hp hok hk hh hs
    · rintro u rfl
      refine ⟨open_busy h hp, fun hb hk hs => open_standsOpen h hp hb (.inl ⟨hk, hs⟩),
        fun hb hk hs => open_standsOpen h hp hb (.inr ⟨hk, hs⟩), open_ajar h hp, open_locker h hp, open_freeCabin h hp,
        open_faultCabin h hp hok, fun hb hs => (open_outOfService h hp hb hs).1,
        fun hb hs => (open_outOfService h hp hb hs).2⟩
    · rintro b rfl
      exact h.releasesBand
  · intro entered goesOn ended runs released stepped moves unlocks held
    have unlockable {u : UnitIx} : held u → Unlockable s u := fun ⟨hk, hh, hs, hi, hsus⟩ => ⟨hk, hh, hs, hi, hsus⟩
    refine ⟨fun b u before behind ha hi hb => ⟨fun hh hg => ?_, fun hh hu => ?_⟩,
      fun u before behind hi hb => ⟨fun ha hu => ?_, fun ha hitems hok hk hh hs => ?_, fun ha hk hs hn hsus hg => ?_,
        fun ha hk hs hn hsus => ?_, fun b ha hh hg => ?_⟩,
      fun u y before behind hi hb => ?_⟩
    · have goes := releaseBandStep_takes ht hr ha hi hb (by rw [ha]; exact releaseBand_passes hh)
      rw [releaseOfBand_gone (s := s.stepTaken u) hh] at goes
      exact step_recorded goes hr hg
    · have goes := releaseBandStep_takes ht hr ha hi hb (by rw [ha]; simp [Action.hands, (unlockable hu).free])
      rw [releaseOfBand_held (s := s.stepTaken u) hh] at goes
      exact (unlockable hu).step goes hr (mem_of_split hi)
    · exact repeat_unlocks ht hr hi hb ha (unlockable hu)
    · exact repeat_releasesCabin ht hr ha hitems hok hk hh hs
    · exact repeat_closes ht hr hi hb ha hk hs hn hsus hg
    · exact repeat_opens ht hr hi hb ha hk hs hn hsus
    · have goes := stepRepeat_takes ht hr hi hb (by rw [ha]; exact releaseBand_passes hh)
      rw [ha] at goes
      unfold repeatStep at goes
      dsimp only at goes
      rw [releaseOfBand_gone (s := s.stepTaken u) hh] at goes
      exact step_recorded goes hr hg
    · intro x
      refine ⟨fun hg => ?_, fun hg v ha hitems => ?_, fun hg b ha => ?_⟩
      · exact (actionOutcome_records ht hr hi hb).trans (congrArg Host.Outcome.next (record_goesOn hr hg))
      · have goes := outcome_ends ht hr hi hb hg
        have single : r.entered u (.done y) = ⟨r.action, [⟨u, .done y⟩], r.count⟩ := by
          simp [Running.entered, hitems]
        rw [single, single_result ha, single_extra ha] at goes
        rw [goes]
        rcases ha with e | e <;> simp only [ended, e] <;> rfl
      · have goes := outcome_ends ht hr hi hb hg
        have parts : r.entered u (.done y) = ⟨.releaseBand b, x.items, x.count⟩ := by rw [← ha]; rfl
        rw [parts, releaseBand_result] at goes
        rw [goes]
        simp only [ended, ha]
        rfl

end Sys2Proof.Machine
end

/-! ## What a movement handed over leaves of other units' movements -/

section
namespace Sys2Proof.Machine

variable {s m t : State} {u v w : UnitIx} {op : BoltOp} {k : Urgency} {n : Nat}

/-! ### How many movements a unit has in hand (R25, R74) -/

theorem refill_count (s : State) (v : UnitIx) : (refill s).movements v = s.movements v := by
  unfold refill
  split
  · rfl
  next u op c h =>
    have hd : (s.unit u).deferred = some (op, c) := nextDeferred_some h
    have hj := joinWaiting_perm s.drive.waiting (Actuation.fresh u op c)
    have h1 := setWaiting_count (s := s.modUnit u fun r => { r with deferred := none }) (v := v)
      (joinWaiting s.drive.waiting (Actuation.fresh u op c))
    have h2 := setDeferred_count (s := s) (v := v) u none
    have h3 : s.deferrals u = 1 := by rw [deferrals_eq rfl, hd]; rfl
    have h4 : (s.modUnit u fun r => { r with deferred := none }).drive = s.drive := rfl
    have h5 : (Actuation.fresh u op c).unit = u := rfl
    rw [unitCount_perm hj, unitCount_cons, h4, h5] at h1
    simp only [h3, Option.isSome_none, Bool.false_eq_true, if_false] at h2
    split_ifs at h1 h2 <;> omega

theorem headLeaves_count {a : Actuation} {rest : List Actuation} {e : EngEvent} (hw : s.drive.waiting = a :: rest)
    (he : ∀ v, e.movements v = if a.unit = v then 1 else 0) (v : UnitIx) :
    (refill ((s.setWaiting rest).hand e)).movements v = s.movements v := by
  have h1 := setWaiting_count (s := s) (v := v) rest
  rw [hw, unitCount_cons] at h1
  rw [refill_count, hand_count, he]
  omega

theorem grantHead_count {a : Actuation} {rest : List Actuation} (hw : s.drive.waiting = a :: rest) (v : UnitIx) :
    (grantHead s a rest).movements v = s.movements v := by
  rw [movements_eq, movements_eq, hw, unitCount_cons]
  show unitCount rest v + unitCount (s.drive.granted ++ [_]) v + _ + s.deferrals v + s.reports v = _
  rw [unitCount_append, unitCount_cons, unitCount_nil]
  simp only [grantHead]
  omega

/-- The examination of the head takes no movement out of hand: what leaves is reported (R74). -/
theorem examineLoop_count (n : Nat) (s : State) (v : UnitIx) : (examineLoop n s).movements v = s.movements v := by
  induction n generalizing s with
  | zero => rfl
  | succ n ih =>
    unfold examineLoop
    split_ifs
    · rfl
    · split
      · rfl
      next a rest hw =>
        split_ifs
        · exact (ih _).trans (headLeaves_count hw (fun w => by simp [EngEvent.movements, List.count_cons]) v)
        · exact (ih _).trans (headLeaves_count hw (fun _ => rfl) v)
        · exact (ih _).trans (grantHead_count hw v)
        · rfl

theorem enqueue_movements (a : Actuation) (v : UnitIx) :
    (enqueue s a).movements v = s.movements v + if a.unit = v then 1 else 0 := by
  have joined : (s.setWaiting (joinWaiting s.drive.waiting a)).movements v =
      s.movements v + if a.unit = v then 1 else 0 := by
    have h1 := setWaiting_count (s := s) (v := v) (joinWaiting s.drive.waiting a)
    rw [unitCount_perm (joinWaiting_perm s.drive.waiting a), unitCount_cons] at h1
    omega
  unfold enqueue
  dsimp only
  split
  · exact (examineLoop_count _ _ v).trans joined
  · exact joined

theorem handOver_count_other (hv : v ≠ u) : (handOver s u op k).movements v = s.movements v := by
  unfold handOver
  split
  · have h1 := enqueue_movements (s := s) (Actuation.fresh u op k) v
    rw [if_neg (show (Actuation.fresh u op k).unit ≠ v from Ne.symm hv)] at h1
    exact h1
  · have h1 := setDeferred_count (s := s) (v := v) u (some (op, k))
    rw [if_neg (Ne.symm hv), if_neg (Ne.symm hv)] at h1
    exact h1

/-! ### A movement at its first attempt, queued or deferred -/

/-- A movement of the unit stands in the Actuation Queue at its first attempt, or is its deferred op (R25, R72). -/
def Standing (s : State) (u : UnitIx) (op : BoltOp) (k : Urgency) : Prop :=
  Stands s u op k ∨ (s.unit u).deferred = some (op, k)

theorem Standing.moved (h : Standing s u op k) : Moved s u op k := h.elim Stands.moved .inr

theorem handOver_standing (hc : CanMove s u op) : Standing (handOver s u op k) u op k := by
  obtain ⟨stands, deferred⟩ := handOver_handed s u op k hc
  rcases Nat.lt_or_ge s.drive.used Config.actuationPlaces with room | full
  · exact .inl (stands room)
  · exact .inr (deferred full)

theorem Standing.congr (h : Standing s u op k) (hd : t.drive = s.drive) (hu : t.unit u = s.unit u) :
    Standing t u op k := by
  unfold Standing Stands at *
  rw [hd, hu]
  exact h

/-- A place that frees is taken by the deferred op, or left to another unit's (R25). -/
theorem refill_standing (h : Standing s u op k) : Standing (refill s) u op k := by
  rcases h with h | h
  · exact .inl (refill_stands _ _ _ _ h)
  · unfold refill
    split
    · exact .inr h
    next w op' k' hn =>
      have hd : (s.unit w).deferred = some (op', k') := nextDeferred_some hn
      by_cases hw : w = u
      · subst hw
        rw [h] at hd
        injection hd with hd
        injection hd with ho hk
        subst ho
        subst hk
        exact .inl ⟨Actuation.fresh w op k, List.mem_append_left _ ((mem_joinWaiting _ _ _).mpr (.inr rfl)),
          rfl, rfl, rfl, rfl, rfl, rfl⟩
      · refine .inr ?_
        show ((s.modUnit w fun r => { r with deferred := none }).unit u).deferred = some (op, k)
        rw [modUnit_unit_other _ _ _ _ (Ne.symm hw)]
        exact h

theorem examineLoop_standing (n : Nat) (s : State) (hc : CanMove s u op) (h : Standing s u op k) :
    Standing (examineLoop n s) u op k := by
  induction n generalizing s with
  | zero => exact h
  | succ n ih =>
    rcases h with h | h
    · exact .inl (examineLoop_stands _ _ _ _ _ hc h)
    · have leaves (rest : List Actuation) (e : EngEvent) :
          DriveActs s (refill ((s.setWaiting rest).hand e)) ∧ Standing (refill ((s.setWaiting rest).hand e)) u op k :=
        ⟨((setWaiting_acts s _).trans (hand_acts _ _)).trans (refill_acts _),
          refill_standing (s := (s.setWaiting rest).hand e) (.inr h)⟩
      unfold examineLoop
      split_ifs
      · exact .inr h
      · split
        · exact .inr h
        · split_ifs
          · exact ih _ ((leaves _ _).1.canMove hc) (leaves _ _).2
          · exact ih _ ((leaves _ _).1.canMove hc) (leaves _ _).2
          · exact ih _ ((grantHead_acts s _ _).canMove hc) (.inr h)
          · exact .inr h

/-- A movement handed over for another unit leaves this one's (R25, R74). -/
theorem handOver_standing_other {o : BoltOp} {c : Urgency} (hv : v ≠ u) (hc : CanMove s v op) (h : Standing s v op k) :
    Standing (handOver s u o c) v op k := by
  have joins : Standing (s.setWaiting (joinWaiting s.drive.waiting (Actuation.fresh u o c))) v op k := by
    refine h.imp_left fun ⟨a, ha, hp⟩ => ⟨a, ?_, hp⟩
    exact (List.mem_append.mp ha).elim (fun ha => List.mem_append_left _ ((mem_joinWaiting _ _ _).mpr (.inl ha)))
      fun ha => List.mem_append_right _ ha
  unfold handOver
  split
  · unfold enqueue
    dsimp only
    split
    · exact examineLoop_standing _ _ ((setWaiting_acts s _).canMove hc) joins
    · exact joins
  · exact h.congr rfl (modUnit_unit_other _ _ _ _ hv)

end Sys2Proof.Machine
end

/-! ## What handling one unit leaves of the others -/

section
namespace Sys2Proof.Machine

variable {s m t : State} {u v w : UnitIx} {op : BoltOp} {k : Urgency} {n : Nat} {st : UState} {door bolt : Bool} {c : Cell}

/-- What handling one unit leaves: the other units' records, movements and timer entries, and what all units share. -/
structure Handles (v : UnitIx) (s t : State) : Prop where
  only : OnlyUnit v s t
  count : ∀ u, u ≠ v → t.movements u = s.movements u
  standing : ∀ u op k, u ≠ v → CanMove s u op → Standing s u op k → Standing t u op k
  timers : ∀ e ∈ s.timers, e.unit ≠ v → e ∈ t.timers
  frame : (t.tables, t.clock, t.bands, t.inputs, t.line, t.journal.queue, t.banks) =
    (s.tables, s.clock, s.bands, s.inputs, s.line, s.journal.queue, s.banks)

theorem canMove_congr (ht : t.tables = s.tables) (hi : t.inputs = s.inputs) (hb : t.banks = s.banks) :
    CanMove t u op ↔ CanMove s u op := by
  unfold CanMove State.bank State.levelEvac State.kind
  rw [ht, hi, hb]

theorem Handles.canMove (h : Handles v s t) : CanMove t u op ↔ CanMove s u op := by
  have frame := h.frame
  simp only [Prod.mk.injEq] at frame
  obtain ⟨tables, -, -, inputs, -, -, banks⟩ := frame
  exact canMove_congr tables inputs banks

theorem Handles.trans (h : Handles v s m) (g : Handles v m t) : Handles v s t where
  only := h.only.trans g.only
  count u hu := (g.count u hu).trans (h.count u hu)
  standing u op k hu hc hs := g.standing u op k hu (h.canMove.mpr hc) (h.standing u op k hu hc hs)
  timers e he hu := g.timers e (h.timers e he hu) hu
  frame := g.frame.trans h.frame

theorem Handles.of (g : Handles v m t) (h : Handles v s m) : Handles v s t := h.trans g

theorem Handles.refl (s : State) : Handles v s s := ⟨.refl s, fun _ _ => rfl, fun _ _ _ _ _ h => h, fun _ h _ => h, rfl⟩

theorem Handles.ite {p : Prop} [Decidable p] {x y : State} (h : p → Handles v s x) (g : ¬p → Handles v s y) :
    Handles v s (if p then x else y) := by
  split
  exacts [h ‹_›, g ‹_›]

/-! ### The operations on a unit -/

theorem modUnit_handles {f : UnitRec → UnitRec} : Handles v s (s.modUnit v f) where
  only := modUnit_only
  count u hu := movements_of (t := s.modUnit v f) (d := s.drive) (n := s.deferrals u) (k := s.reports u) rfl
    (deferrals_eq (modUnit_unit_other _ _ _ _ hu)) rfl |>.trans (movements_eq s u).symm
  standing _ _ _ hu _ h := h.congr rfl (modUnit_unit_other _ _ _ _ hu)
  timers _ he _ := he
  frame := rfl

theorem handOver_handles : Handles v s (handOver s v op k) where
  only := handOver_only
  count u hu := handOver_count_other hu
  standing u _ _ hu hc h := handOver_standing_other hu hc h
  timers e he _ := by
    rw [(handOver_acts s v op k).1]
    exact he
  frame := by rw [(handOver_acts s v op k).1]

theorem mem_insertTimer {l : List TimerEntry} {e x : TimerEntry} : x ∈ insertTimer l e ↔ x = e ∨ x ∈ l := by
  induction l with
  | nil => simp [insertTimer]
  | cons y l ih =>
    unfold insertTimer
    split
    · rw [List.mem_cons, ih, List.mem_cons]
      tauto
    · rw [List.mem_cons]

theorem mem_setTimer {l : List TimerEntry} {e : TimerEntry} {x : TimerKind} :
    e ∈ setTimer l v x n ↔ e = ⟨n, v, x⟩ ∨ e ∈ l ∧ e.unit ≠ v := by
  unfold setTimer dropTimer
  rw [mem_insertTimer, List.mem_filter]
  simp

theorem withTimer_handles {x : TimerKind} : Handles v s (s.withTimer v x n) where
  only := withTimer_only
  count _ _ := rfl
  standing _ _ _ _ _ h := h
  timers _ he hu := mem_setTimer.mpr (.inr ⟨he, hu⟩)
  frame := rfl

theorem post_handles {x : NoticeKind} {i j : Nat} {o : Option UnitIx} {d : Option Band} :
    Handles v s (post s x i o d j) where
  only := .same rfl
  count _ _ := rfl
  standing _ _ _ _ _ h := h
  timers _ he _ := he
  frame := rfl

/-! ### Verified movements, comparisons and reconciles (R36, R49) -/

theorem setTimes_handles : Handles v s (setTimes s v n) := by
  unfold setTimes
  dsimp only
  split <;> exact withTimer_handles.of modUnit_handles

theorem admitCabin_handles : Handles v s (admitCabin s v) := setTimes_handles.of (.of modUnit_handles modUnit_handles)

/-- A verified movement that frees no locker. -/
theorem verifiedLocker_handles (h : ∀ why, op = .withdraw → (s.unit v).state = .unlocking →
    (s.unit v).purpose ≠ some (.release why)) : Handles v s (verifiedLocker s v op door) := by
  unfold verifiedLocker
  dsimp only
  split
  · refine .ite (fun _ => modUnit_handles) fun _ => ?_
    exact .of modUnit_handles (.of modUnit_handles (.of handOver_handles (.of modUnit_handles modUnit_handles)))
  next hs =>
    split
    next why hp => exact absurd hp (h why rfl hs)
    · exact withTimer_handles.of (.of modUnit_handles modUnit_handles)
    · exact .of modUnit_handles modUnit_handles
    · exact .refl s
  · exact .refl s

theorem verifiedCabin_handles : Handles v s (verifiedCabin s v op door) := by
  unfold verifiedCabin
  split
  · exact admitCabin_handles
  · exact .ite (fun _ => modUnit_handles) fun _ => .of handOver_handles modUnit_handles
  · exact .ite (fun _ => modUnit_handles) fun _ => .of handOver_handles modUnit_handles
  · exact .refl s

theorem rederive_handles : Handles v s (rederive s v op bolt) := by
  unfold rederive
  refine .ite (fun _ => .ite (fun _ => .of handOver_handles modUnit_handles) fun _ => modUnit_handles) fun _ => ?_
  exact .ite (fun _ => handOver_handles) fun _ => handOver_handles

theorem compareUnit_handles : Handles v s (compareUnit s v c) := by
  have rederives {o : BoltOp} : Handles v s (if c.bolt = true then rederive s v o c.bolt else s) :=
    .ite (fun _ => rederive_handles) fun _ => .refl s
  unfold compareUnit
  split
  case h_2 =>
    exact .ite (fun _ => post_handles.of modUnit_handles) fun _ => .ite (fun _ => .refl s) fun _ =>
      rederive_handles.of modUnit_handles
  case h_5 => exact .ite (fun _ => .refl s) fun _ => rederive_handles
  case h_11 => exact .refl s
  all_goals exact rederives

/-- A unit whose suspended mark is cleared (R49). -/
def State.unsuspended (s : State) (v : UnitIx) : State := s.modUnit v fun r => { r with suspended := false }

theorem unsuspended_handles (s : State) (v : UnitIx) : Handles v s (s.unsuspended v) := modUnit_handles

/-- Reconciling a unit that hands no record over touches no other (R49). -/
theorem reconcileUnit_handles (h : s.reconcileHands v c = false) : Handles v s (reconcileUnit s v c) := by
  unfold reconcileUnit
  refine .ite (fun _ => .refl s) fun hi => ?_
  dsimp only
  have compared : Handles v s (compareUnit (s.modUnit v fun r => { r with suspended := false }) v c) :=
    compareUnit_handles.of (unsuspended_handles s v)
  refine .ite (fun _ => compared) fun _ => ?_
  split
  · exact compared
  next op he =>
    refine .ite (fun _ => compared) fun _ => .ite (fun hb => ?_) fun _ => rederive_handles.of modUnit_handles
    refine .of ?_ (unsuspended_handles s v)
    unfold State.unsuspended verifiedUnit
    split
    next hk =>
      refine verifiedLocker_handles fun why ho hs hp => ?_
      rw [modUnit_unit_self] at hs hp
      subst ho
      have kind : s.kind v = .locker := hk
      have withdrawn : c.bolt = false := by simpa using hb
      have hands : s.reconcileHands v c = true := by
        simp only [State.reconcileHands, Bool.and_eq_true, Bool.not_eq_true', decide_eq_true_eq]
        refine ⟨⟨⟨⟨by simpa using hi, kind⟩, hs⟩, withdrawn⟩, ?_⟩
        rw [show (s.unit v).purpose = some (.release why) from hp]
      rw [h] at hands
      exact absurd hands (by decide)
    · exact verifiedCabin_handles
    · exact .refl _

end Sys2Proof.Machine
end

/-! ## The units of a reconcile request, one after another -/

section
namespace Sys2Proof.Machine

variable {s m t : State} {u v w : UnitIx} {op : BoltOp} {k : Urgency} {n : Nat} {st : UState} {door bolt : Bool} {c : Cell}
  {cells : List (UnitIx × Cell)}

/-! ### The occupancy (R55) -/

/-- The states that count as occupying a cabin (R55). -/
def UState.inside (st : UState) : Prop := st = .admitting ∨ st = .inUse ∨ st = .expired

theorem rederive_state : ((rederive s u op bolt).unit u).state =
    if op = .throw ∧ s.kind u = .cabin ∧ s.levelEvac = true then .evacOpen else (s.unit u).state := by
  unfold rederive
  split
  · split
    · rw [handOver_state, enter_state]
    · rw [enter_state]
  · split <;> rw [handOver_state]

theorem compareUnit_inside (hk : s.kind u = .cabin) :
    ((compareUnit s u c).unit u).state.inside ↔ (s.unit u).state.inside := by
  have rederived {o : BoltOp} (ho : o = .throw → (s.unit u).state = .free) :
      ((rederive s u o c.bolt).unit u).state.inside ↔ (s.unit u).state.inside := by
    rw [rederive_state]
    split
    next h => simp [ho h.1, UState.inside]
    · rfl
  unfold compareUnit
  rw [hk]
  cases hs : (s.unit u).state <;> dsimp only
  all_goals try rw [hs]
  case free =>
    split
    · rw [hs]
    · rw [rederived fun _ => hs, hs]
  case inUse | expired | vacating | serviceOpen | evacOpen =>
    split
    · rw [rederived fun h => absurd h (by decide), hs]
    · rw [hs]

theorem admitCabin_state (hk : s.kind u = .cabin) : ((admitCabin s u).unit u).state = .inUse := by
  rw [admitCabin_eq hk, admitted_eq]
  exact congrArg UnitRec.state (unit_put _)

theorem verifiedCabin_inside (hk : s.kind u = .cabin) :
    ((verifiedCabin s u op door).unit u).state.inside ↔ (s.unit u).state.inside := by
  unfold verifiedCabin
  split
  next h => simp [admitCabin_state hk, h, UState.inside]
  next h =>
    split
    · simp [enter_state, h, UState.inside]
    · simp [handOver_state, enter_state, h, UState.inside]
  next h =>
    split
    · simp [enter_state, h, UState.inside]
    · simp [handOver_state, enter_state, h, UState.inside]
  · rfl

theorem reconcileUnit_inside (hk : s.kind u = .cabin) :
    ((reconcileUnit s u c).unit u).state.inside ↔ (s.unit u).state.inside := by
  have same : ((s.unsuspended u).unit u).state = (s.unit u).state := by
    unfold State.unsuspended
    rw [modUnit_unit_self]
  have compared : ((compareUnit (s.unsuspended u) u c).unit u).state.inside ↔ (s.unit u).state.inside := by
    rw [compareUnit_inside (s := s.unsuspended u) hk, same]
  unfold reconcileUnit
  split
  · rfl
  · dsimp only
    split
    · exact compared
    · split
      · exact compared
      next op he =>
        split
        · exact compared
        · split
          · show ((verifiedUnit (s.unsuspended u) u op c.door).unit u).state.inside ↔ _
            rw [verifiedUnit_cabin (s := s.unsuspended u) hk, verifiedCabin_inside (s := s.unsuspended u) hk, same]
          · show ((rederive (s.unsuspended u) u op c.bolt).unit u).state.inside ↔ _
            rw [rederive_state, same]
            split
            next h =>
              have throws := h.1
              subst throws
              rw [hk] at he
              cases hs : (s.unit u).state <;> rw [hs] at he <;> simp [expectedOp, UState.inside] at he ⊢
            · rfl

/-! ### What handling other units leaves of one -/

/-- What handling other units leaves of a unit: its record, its movements, its timer entry and what it shares. -/
structure Spared (u : UnitIx) (s t : State) : Prop where
  rest : (t.unit u).rest = (s.unit u).rest
  count : t.movements u = s.movements u
  standing : ∀ op k, CanMove s u op → Standing s u op k → Standing t u op k
  timers : ∀ e ∈ s.timers, e.unit = u → e ∈ t.timers
  frame : (t.tables, t.clock, t.bands, t.inputs, t.banks) = (s.tables, s.clock, s.bands, s.inputs, s.banks)
  occupancy : ∀ z, t.occupancy z = s.occupancy z

/-- What of a record does not concern its deferred op. -/
theorem eq_of_rest {α : Type} {f : UnitRec → α} {x y : UnitRec} (hf : ∀ r, f r.rest = f r) (h : x.rest = y.rest) :
    f x = f y := by
  rw [← hf x, ← hf y, h]

theorem Spared.refl (s : State) : Spared u s s := ⟨rfl, rfl, fun _ _ _ h => h, fun _ h _ => h, rfl, fun _ => rfl⟩

theorem Spared.canMove (h : Spared u s t) : CanMove t u op ↔ CanMove s u op := by
  have frame := h.frame
  simp only [Prod.mk.injEq] at frame
  obtain ⟨tables, -, -, inputs, banks⟩ := frame
  exact canMove_congr tables inputs banks

theorem Spared.trans (h : Spared u s m) (g : Spared u m t) : Spared u s t where
  rest := g.rest.trans h.rest
  count := g.count.trans h.count
  standing op k hc hs := g.standing op k (h.canMove.mpr hc) (h.standing op k hc hs)
  timers e he hu := g.timers e (h.timers e he hu) hu
  frame := g.frame.trans h.frame
  occupancy z := (g.occupancy z).trans (h.occupancy z)

theorem occupancy_congr (ht : t.tables = s.tables)
    (hi : ∀ v, s.kind v = .cabin → ((t.unit v).state.inside ↔ (s.unit v).state.inside)) (z : ZoneIx) :
    t.occupancy z = s.occupancy z := by
  have kind (v : UnitIx) : t.kind v = s.kind v := by unfold State.kind; rw [ht]
  have zone (v : UnitIx) : t.zone v = s.zone v := by unfold State.zone; rw [ht]
  rw [occupancy_eq, occupancy_eq]
  refine congrArg List.length (List.filter_congr fun v _ => ?_)
  rw [decide_eq_decide, kind, zone]
  exact and_congr_right fun hk => and_congr_right fun _ => hi v hk

theorem Handles.spares (h : Handles v s t) (hu : u ≠ v)
    (hi : s.kind v = .cabin → ((t.unit v).state.inside ↔ (s.unit v).state.inside)) : Spared u s t := by
  have frame := h.frame
  simp only [Prod.mk.injEq] at frame
  obtain ⟨tables, clock, bands, inputs, -, -, banks⟩ := frame
  refine ⟨h.only.others u hu, h.count u hu, fun op k => h.standing u op k hu,
    fun e he hv => h.timers e he (hv ▸ hu), by rw [tables, clock, bands, inputs, banks],
    occupancy_congr tables fun w hw => ?_⟩
  by_cases hv : w = v
  · rw [hv] at hw ⊢
    exact hi hw
  · have state : (t.unit w).rest.state = (s.unit w).rest.state := by rw [h.only.others w hv]
    have same : (t.unit w).state = (s.unit w).state := state
    rw [same]

theorem Spared.inHand (h : Spared u s t) : t.inHand u = s.inHand u := by
  rw [Bool.eq_iff_iff, ← not_iff_not, Bool.not_eq_true, Bool.not_eq_true, inHand_iff, inHand_iff, h.count]

theorem Spared.kind (h : Spared u s t) : t.kind u = s.kind u := by
  have frame := h.frame
  simp only [Prod.mk.injEq] at frame
  unfold State.kind
  rw [frame.1]

theorem Spared.reconcileHands (h : Spared u s t) : t.reconcileHands u c = s.reconcileHands u c := by
  have state : (t.unit u).state = (s.unit u).state := eq_of_rest (fun _ => rfl) h.rest
  have purpose : (t.unit u).purpose = (s.unit u).purpose := eq_of_rest (fun _ => rfl) h.rest
  unfold State.reconcileHands
  rw [h.inHand, h.kind, state, purpose]

theorem reconcileUnits_cons {rest : List (UnitIx × Cell)} (hh : s.reconcileHands v c = false) :
    reconcileUnits s ((v, c) :: rest) = reconcileUnits (reconcileUnit s v c) rest := by
  show (if (s.reconcileHands v c && !s.journalRoom) = true then _ else _) = _
  rw [hh]
  rfl

/-- Each unit of a request is reconciled on its own: the others spare it (R49). -/
theorem reconcileUnits_spares (hn : (cells.map (·.1)).Nodup)
    (hh : ∀ uc ∈ cells, s.reconcileHands uc.1 uc.2 = false) :
    (reconcileUnits s cells).2 = [] ∧
    (∀ u, (∀ uc ∈ cells, uc.1 ≠ u) → Spared u s (reconcileUnits s cells).1) ∧
    ∀ uc ∈ cells, ∃ m, Spared uc.1 s m ∧ Spared uc.1 (reconcileUnit m uc.1 uc.2) (reconcileUnits s cells).1 := by
  induction cells generalizing s with
  | nil => exact ⟨rfl, fun _ _ => .refl s, fun _ h => absurd h (by simp)⟩
  | cons x rest ih =>
    obtain ⟨v, d⟩ := x
    rw [List.map_cons, List.nodup_cons] at hn
    obtain ⟨fresh, hn⟩ := hn
    have hands : s.reconcileHands v d = false := hh (v, d) (by simp)
    have spares (u : UnitIx) (hu : u ≠ v) : Spared u s (reconcileUnit s v d) :=
      (reconcileUnit_handles hands).spares hu reconcileUnit_inside
    have other (uc : UnitIx × Cell) (hm : uc ∈ rest) : uc.1 ≠ v := fun e =>
      fresh (List.mem_map.mpr ⟨uc, hm, e⟩)
    obtain ⟨done, spared, each⟩ := ih (s := reconcileUnit s v d) hn fun uc hm => by
      rw [(spares uc.1 (other uc hm)).reconcileHands]
      exact hh uc (List.mem_cons_of_mem _ hm)
    rw [reconcileUnits_cons hands]
    refine ⟨done, fun u hu => ?_, fun uc hm => ?_⟩
    · exact (spares u (hu (v, d) (by simp)).symm).trans (spared u fun uc hm => hu uc (List.mem_cons_of_mem _ hm))
    · rcases List.mem_cons.mp hm with rfl | hm
      · exact ⟨s, .refl s, spared v fun uc hm => other uc hm⟩
      · obtain ⟨m, before, after⟩ := each uc hm
        exact ⟨m, (spares uc.1 (other uc hm)).trans before, after⟩

/-- What all units of a request leave as it is. -/
theorem reconcileUnits_frame (hn : (cells.map (·.1)).Nodup)
    (hh : ∀ uc ∈ cells, s.reconcileHands uc.1 uc.2 = false) :
    ((reconcileUnits s cells).1.tables, (reconcileUnits s cells).1.bands, (reconcileUnits s cells).1.inputs,
      (reconcileUnits s cells).1.line, (reconcileUnits s cells).1.journal.queue) =
    (s.tables, s.bands, s.inputs, s.line, s.journal.queue) := by
  induction cells generalizing s with
  | nil => rfl
  | cons x rest ih =>
    obtain ⟨v, d⟩ := x
    rw [List.map_cons, List.nodup_cons] at hn
    obtain ⟨fresh, hn⟩ := hn
    have hands : s.reconcileHands v d = false := hh (v, d) (by simp)
    have handles := reconcileUnit_handles hands
    have other (uc : UnitIx × Cell) (hm : uc ∈ rest) : uc.1 ≠ v := fun e =>
      fresh (List.mem_map.mpr ⟨uc, hm, e⟩)
    have frame := handles.frame
    simp only [Prod.mk.injEq] at frame
    obtain ⟨tables, -, bands, inputs, line, queue, -⟩ := frame
    rw [reconcileUnits_cons hands, ih (s := reconcileUnit s v d) hn fun uc hm => by
      rw [(handles.spares (other uc hm) reconcileUnit_inside).reconcileHands]
      exact hh uc (List.mem_cons_of_mem _ hm), tables, bands, inputs, line, queue]

end Sys2Proof.Machine
end

/-! ## What a reconcile makes of one unit -/

section
namespace Sys2Proof.Machine

variable {s m t x : State} {u v w : UnitIx} {op : BoltOp} {k : Urgency} {n : Nat} {st : UState} {door bolt : Bool}
  {c : Cell} {y : UnitRec}

/-! ### The holder stays (R49) -/

/-- The unit keeps its holder, and its suspended mark as it is. -/
def Marks (u : UnitIx) (s t : State) : Prop :=
  ((t.unit u).suspended, (t.unit u).holder) = ((s.unit u).suspended, (s.unit u).holder)

theorem Marks.of (g : Marks u m t) (h : Marks u s m) : Marks u s t := Eq.trans g h

theorem Marks.refl (s : State) : Marks u s s := rfl

theorem Marks.ite {p : Prop} [Decidable p] {x y : State} (h : p → Marks u s x) (g : ¬p → Marks u s y) :
    Marks u s (if p then x else y) := by
  split
  exacts [h ‹_›, g ‹_›]

theorem modUnit_marks {f : UnitRec → UnitRec} (h : ∀ r, ((f r).suspended, (f r).holder) = (r.suspended, r.holder)) :
    Marks u s (s.modUnit u f) := by
  unfold Marks
  rw [modUnit_unit_self]
  exact h _

theorem enter_marks : Marks u s (enter s u st) := modUnit_marks fun _ => rfl

theorem setPurpose_marks {p : Option Purpose} : Marks u s (setPurpose s u p) := modUnit_marks fun _ => rfl

theorem handOver_marks : Marks u s (handOver s u op k) := by
  have rest := (handOver_acts s u op k).2.2.2 u (by simp)
  exact eq_of_rest (f := fun r => (r.suspended, r.holder)) (fun _ => rfl) rest

theorem setTimes_marks : Marks u s (setTimes s u n) := by
  have times : Marks u s (s.modUnit u fun r => { r with
      expiry := some n, warningAt := warningTime n (s.tables.zones.get (s.zone u)).warningLead s.clock.sec
      graceEnd := some (clampSec (n + (s.tables.zones.get (s.zone u)).grace)) }) := modUnit_marks fun _ => rfl
  unfold setTimes
  dsimp only
  split <;> exact times

theorem admitCabin_marks : Marks u s (admitCabin s u) :=
  setTimes_marks.of (.of (modUnit_marks fun _ => rfl) enter_marks)

theorem verifiedLocker_marks (h : ∀ why, op = .withdraw → (s.unit u).state = .unlocking →
    (s.unit u).purpose ≠ some (.release why)) : Marks u s (verifiedLocker s u op door) := by
  unfold verifiedLocker
  dsimp only
  split
  · refine .ite (fun _ => enter_marks) fun _ => ?_
    exact .of (modUnit_marks fun _ => rfl) (.of (modUnit_marks fun _ => rfl)
      (.of handOver_marks (setPurpose_marks.of enter_marks)))
  next hs =>
    split
    next why hp => exact absurd hp (h why rfl hs)
    · show Marks u s (setPurpose (enter s u .ajar) u none)
      exact setPurpose_marks.of enter_marks
    · exact setPurpose_marks.of enter_marks
    · exact .refl s
  · exact .refl s

theorem verifiedCabin_marks : Marks u s (verifiedCabin s u op door) := by
  unfold verifiedCabin
  split
  · exact admitCabin_marks
  · exact .ite (fun _ => enter_marks) fun _ => .of handOver_marks enter_marks
  · exact .ite (fun _ => enter_marks) fun _ => .of handOver_marks enter_marks
  · exact .refl s

theorem rederive_marks : Marks u s (rederive s u op bolt) := by
  unfold rederive
  refine .ite (fun _ => .ite (fun _ => .of handOver_marks enter_marks) fun _ => enter_marks) fun _ => ?_
  exact .ite (fun _ => handOver_marks) fun _ => handOver_marks

theorem compareUnit_marks : Marks u s (compareUnit s u c) := by
  have rederives {o : BoltOp} : Marks u s (if c.bolt = true then rederive s u o c.bolt else s) :=
    .ite (fun _ => rederive_marks) fun _ => .refl s
  unfold compareUnit
  split
  case h_2 =>
    exact .ite (fun _ => enter_marks) fun _ => .ite (fun _ => .refl s) fun _ => rederive_marks.of enter_marks
  case h_5 => exact .ite (fun _ => .refl s) fun _ => rederive_marks
  case h_11 => exact .refl s
  all_goals exact rederives

/-! ### The three ways of a reconcile (R49) -/

/-- A unit that reconcile compares by its state. -/
def State.compares (s : State) (u : UnitIx) : Prop :=
  ((s.unit u).state.transitional = false ∧ (s.unit u).suspended = false) ∨
    expectedOp (s.kind u) (s.unit u).state = none ∨
    (s.kind u = .cabin ∧ (s.unit u).state = .free ∧ s.levelEvac = true)

theorem reconcileUnit_inHand (hi : s.inHand u = true) : reconcileUnit s u c = s := if_pos hi

theorem reconcileUnit_compares (hi : s.inHand u = false) (hc : s.compares u) :
    reconcileUnit s u c = compareUnit (s.unsuspended u) u c := by
  unfold reconcileUnit
  rw [if_neg (by simp [hi])]
  dsimp only
  split
  · rfl
  next hn =>
    rcases hc with ⟨ht, hs⟩ | he | he
    · exact absurd (by simp [ht, hs]) hn
    · rw [he]
      rfl
    · split
      · rfl
      · rw [if_pos he]
        rfl

/-- One that is re-derived or taken as verified, by the op its state expects (R20). -/
structure Rederives (s : State) (u : UnitIx) (op : BoltOp) : Prop where
  still : s.inHand u = false
  due : (s.unit u).state.transitional = true ∨ (s.unit u).suspended = true
  expects : expectedOp (s.kind u) (s.unit u).state = some op
  stays : ¬(s.kind u = .cabin ∧ (s.unit u).state = .free ∧ s.levelEvac = true)

theorem Rederives.eq (h : Rederives s u op) : reconcileUnit s u c =
    if c.bolt = (op = .throw) then verifiedUnit (s.unsuspended u) u op c.door
    else rederive (s.unsuspended u) u op c.bolt := by
  unfold reconcileUnit
  rw [if_neg (by simp [h.still])]
  dsimp only
  rw [if_neg (by rcases h.due with e | e <;> simp [e]), h.expects]
  dsimp only
  rw [if_neg h.stays]
  rfl

theorem Rederives.verified (h : Rederives s u op) (hb : c.bolt = decide (op = .throw)) :
    reconcileUnit s u c = verifiedUnit (s.unsuspended u) u op c.door := by
  rw [h.eq, if_pos (by rw [hb]; simp)]

theorem Rederives.rederived (h : Rederives s u op) (hb : c.bolt = !decide (op = .throw)) :
    reconcileUnit s u c = rederive (s.unsuspended u) u op c.bolt := by
  rw [h.eq, if_neg (by rw [hb]; simp)]

theorem unsuspended_unit : (s.unsuspended u).unit u = { s.unit u with suspended := false } := modUnit_unit_self _ _ _

/-- A unit that is reconciled loses its suspended mark, and keeps its holder (R49). -/
theorem reconcileUnit_marks (hi : s.inHand u = false) (hh : s.reconcileHands u c = false) :
    ((reconcileUnit s u c).unit u).suspended = false ∧
      ((reconcileUnit s u c).unit u).holder = (s.unit u).holder := by
  have marked {z : State} (h : Marks u (s.unsuspended u) z) :
      (z.unit u).suspended = false ∧ (z.unit u).holder = (s.unit u).holder := by
    unfold Marks at h
    rw [unsuspended_unit] at h
    exact ⟨congrArg Prod.fst h, congrArg Prod.snd h⟩
  by_cases hc : s.compares u
  · rw [reconcileUnit_compares hi hc]
    exact marked compareUnit_marks
  · unfold State.compares at hc
    push Not at hc
    obtain ⟨ht, he, hs⟩ := hc
    obtain ⟨op, ho⟩ := Option.ne_none_iff_exists'.mp he
    have h : Rederives s u op := by
      refine ⟨hi, ?_, ho, fun k => hs k.1 k.2.1 k.2.2⟩
      by_cases htr : (s.unit u).state.transitional = true
      · exact .inl htr
      · exact .inr (by simpa using ht (by simpa using htr))
    rw [h.eq]
    split
    next hb =>
      refine marked ?_
      unfold verifiedUnit
      split
      next hk =>
        refine verifiedLocker_marks fun why hw hl hp => ?_
        rw [unsuspended_unit] at hl hp
        subst hw
        have withdrawn : c.bolt = false := by simpa using hb
        have kind : s.kind u = .locker := hk
        have hands : s.reconcileHands u c = true := by
          simp only [State.reconcileHands, Bool.and_eq_true, Bool.not_eq_true', decide_eq_true_eq]
          refine ⟨⟨⟨⟨hi, kind⟩, hl⟩, withdrawn⟩, ?_⟩
          rw [show (s.unit u).purpose = some (.release why) from hp]
        rw [hh] at hands
        exact absurd hands (by decide)
      · exact verifiedCabin_marks
      · exact .refl _
    · exact marked rederive_marks

/-! ### What is left of it once the other units have been handled -/

/-- What the other units of a request, and the port, leave of what reconcile made of a unit. -/
structure Left (u : UnitIx) (x t : State) : Prop where
  rest : (t.unit u).rest = (x.unit u).rest
  still : x.movements u = 0 → t.movements u = 0
  standing : ∀ op k, CanMove x u op → Standing x u op k → Standing t u op k
  timers : ∀ e ∈ x.timers, e.unit = u → e ∈ t.timers

theorem Spared.pumped (h : Spared u x t) : Left u x (pump t) where
  rest := by
    unfold State.unit
    rw [pump_units]
    exact h.rest
  still h0 := Nat.eq_zero_of_le_zero ((pump_calm.count u).trans (h.count.trans h0).le)
  standing op k hc hs := (h.standing op k hc hs).congr (pump_drive t) (by unfold State.unit; rw [pump_units])
  timers e he hu := by
    rw [pump_timers]
    exact h.timers e he hu

/-- A unit that is reconciled with nothing in hand, and what it has become in the end. -/
structure Settles (s t : State) (u : UnitIx) (c : Cell) : Prop where
  inHand : s.inHand u = false
  bank : (s.bank (bankOf u)).state = .running
  hands : s.reconcileHands u c = false
  left : Left u (reconcileUnit s u c) t

/-- Nothing of the unit is in hand (R25). -/
def State.atRest (t : State) (u : UnitIx) : Prop := t.actuating u = false ∧ (t.unit u).deferred = none

theorem atRest_of_movements (h : t.movements u = 0) : t.atRest u := by
  have still := inHand_iff.mpr h
  simp only [State.inHand, Bool.or_eq_false_iff] at still
  exact ⟨still.1.1, by simpa using still.1.2⟩

theorem Settles.rests (h : Settles s t u c) (e : reconcileUnit s u c = x) (hc : Calm s x) :
    (t.unit u).rest = (x.unit u).rest ∧ t.atRest u := by
  have left := h.left
  rw [e] at left
  refine ⟨left.rest, atRest_of_movements (left.still ?_)⟩
  exact Nat.eq_zero_of_le_zero ((hc.count u).trans (inHand_iff.mp h.inHand).le)

theorem Settles.moves (h : Settles s t u c) (e : reconcileUnit s u c = handOver x u op k) (hc : CanMove x u op) :
    (t.unit u).rest = (x.unit u).rest ∧ Moved t u op k := by
  have left := h.left
  rw [e] at left
  have acts := handOver_acts x u op k
  exact ⟨left.rest.trans (acts.2.2.2 u (by simp)), (left.standing op k (acts.canMove hc) (handOver_standing hc)).moved⟩

theorem canWithdraw (h : (x.bank (bankOf u)).state = .running) : CanMove x u .withdraw :=
  ⟨h, fun k => absurd k.2.1 (by decide)⟩

theorem canThrow (h : (x.bank (bankOf u)).state = .running) (hl : x.levelEvac = false ∨ x.kind u ≠ .cabin) :
    CanMove x u .throw :=
  ⟨h, fun k => hl.elim (fun e => by rw [e] at k; exact absurd k.1 (by decide)) fun e => e k.2.2⟩

end Sys2Proof.Machine
end

/-! ## What a reconcile makes of a unit in each state -/

section
namespace Sys2Proof.Machine

variable {s m t x : State} {u v w : UnitIx} {op : BoltOp} {k : Urgency} {n : Nat} {st : UState} {door bolt : Bool}
  {c : Cell} {y : UnitRec}

theorem state_of_rest {y z : UnitRec} (h : y.rest = z.rest) : y.state = z.state := eq_of_rest (fun _ => rfl) h

theorem setTimer_mem {l : List TimerEntry} {x : TimerKind} : (⟨n, u, x⟩ : TimerEntry) ∈ setTimer l u x n :=
  mem_setTimer.mpr (.inl rfl)

theorem unsuspended_calm : Calm s (s.unsuspended u) := modUnit_calm fun _ => ⟨rfl, rfl⟩

theorem unsuspended_state : ((s.unsuspended u).unit u).state = (s.unit u).state := by rw [unsuspended_unit]

/-- The class of a WITHDRAW re-derived (R178). -/
def State.openClass (s : State) (u : UnitIx) : Urgency :=
  if (s.unit u).state = .evacOpen ∧ s.inputs.active then .urgent else .normal

theorem rederive_withdraw : rederive s u .withdraw bolt = handOver s u .withdraw (s.openClass u) := by
  unfold rederive State.openClass
  rw [if_neg (by simp)]
  simp only [true_and]
  split <;> rfl

theorem unsuspended_openClass : (s.unsuspended u).openClass u = s.openClass u := by
  unfold State.openClass
  rw [unsuspended_state]
  rfl

theorem openClass_normal (h : (s.unit u).state ≠ .evacOpen) : s.openClass u = .normal := if_neg fun k => h k.1

theorem rederive_throw_locker (hk : s.kind u = .locker) : rederive s u .throw bolt = handOver s u .throw .normal := by
  unfold rederive
  rw [if_neg (by simp [hk]), if_neg (by simp)]

theorem rederive_throw_cabin (he : s.levelEvac = false) : rederive s u .throw bolt = handOver s u .throw .normal := by
  unfold rederive
  rw [if_neg (by simp [he]), if_neg (by simp)]

/-! ### Standing states that expect the bolt withdrawn -/

/-- A locker or cabin that stands in a state with its bolt withdrawn (R20). -/
def State.standsWithdrawn (s : State) (u : UnitIx) : Prop :=
  s.kind u = .locker ∧ ((s.unit u).state = .free ∨ (s.unit u).state = .ajar ∨ (s.unit u).state = .serviceOpen) ∨
  s.kind u = .cabin ∧ ((s.unit u).state = .inUse ∨ (s.unit u).state = .expired ∨ (s.unit u).state = .vacating ∨
    (s.unit u).state = .serviceOpen ∨ (s.unit u).state = .evacOpen)

theorem State.standsWithdrawn.expects (h : s.standsWithdrawn u) : (s.unit u).state.transitional = false ∧
    expectedOp (s.kind u) (s.unit u).state = some .withdraw ∧ ¬(s.kind u = .cabin ∧ (s.unit u).state = .free) := by
  rcases h with ⟨hk, hs | hs | hs⟩ | ⟨hk, hs | hs | hs | hs | hs⟩ <;> rw [hk, hs] <;> decide

theorem compareUnit_withdrawn (h : s.standsWithdrawn u) :
    compareUnit s u c = if c.bolt then handOver s u .withdraw (s.openClass u) else s := by
  rw [← rederive_withdraw (bolt := c.bolt)]
  unfold compareUnit
  rcases h with ⟨hk, hs | hs | hs⟩ | ⟨hk, hs | hs | hs | hs | hs⟩ <;> rw [hk, hs]

theorem verifiedUnit_withdrawn (h : s.standsWithdrawn u) : verifiedUnit s u .withdraw door = s := by
  rcases h with ⟨hk, hs⟩ | ⟨hk, hs⟩
  · rw [verifiedUnit_locker hk]
    exact verifiedLocker_none (by rcases hs with e | e | e <;> simp [e]) (by rcases hs with e | e | e <;> simp [e])
  · rw [verifiedUnit_cabin hk]
    refine verifiedCabin_none ?_ ?_ ?_ <;> rcases hs with e | e | e | e | e <;> simp [e]

theorem unsuspended_standsWithdrawn (h : s.standsWithdrawn u) : (s.unsuspended u).standsWithdrawn u := by
  unfold State.standsWithdrawn
  rw [unsuspended_state]
  exact h

theorem reconcileUnit_withdrawn (hi : s.inHand u = false) (h : s.standsWithdrawn u) : reconcileUnit s u c =
    if c.bolt then handOver (s.unsuspended u) u .withdraw (s.openClass u) else s.unsuspended u := by
  obtain ⟨standing, expects, free⟩ := h.expects
  have start := unsuspended_standsWithdrawn h
  cases hs : (s.unit u).suspended with
  | false =>
    rw [reconcileUnit_compares hi (.inl ⟨standing, hs⟩), compareUnit_withdrawn start, unsuspended_openClass]
  | true =>
    have again : Rederives s u .withdraw := ⟨hi, .inr hs, expects, fun k => free ⟨k.1, k.2.1⟩⟩
    cases hb : c.bolt with
    | false =>
      rw [again.verified (by rw [hb]; rfl), verifiedUnit_withdrawn start]
      rfl
    | true =>
      rw [again.rederived (by rw [hb]; rfl), rederive_withdraw, unsuspended_openClass]
      rfl

section
variable (h : Settles s t u c)
include h

theorem Settles.bankStart : ((s.unsuspended u).bank (bankOf u)).state = .running := h.bank

theorem Settles.withdrawn (hw : s.standsWithdrawn u) : (t.unit u).state = (s.unit u).state ∧
    if c.bolt then Moved t u .withdraw (s.openClass u) else t.atRest u := by
  have e := reconcileUnit_withdrawn (c := c) h.inHand hw
  split
  next hb =>
    rw [if_pos hb] at e
    obtain ⟨rest, moved⟩ := h.moves e (canWithdraw h.bankStart)
    exact ⟨(state_of_rest rest).trans unsuspended_state, moved⟩
  next hb =>
    rw [if_neg hb] at e
    obtain ⟨rest, still⟩ := h.rests e unsuspended_calm
    exact ⟨(state_of_rest rest).trans unsuspended_state, still⟩

/-! ### States that expect no bolt position -/

theorem Settles.idle (hs : (s.unit u).state = .forced ∨ (s.unit u).state = .outOfService ∨ (s.unit u).state = .fault) :
    (t.unit u).state = (s.unit u).state ∧ t.atRest u := by
  have compares : s.compares u := .inr (.inl (by rcases hs with e | e | e <;> rw [e] <;> rfl))
  have same : compareUnit (s.unsuspended u) u c = s.unsuspended u := by
    unfold compareUnit
    rw [unsuspended_state]
    rcases hs with e | e | e <;> rw [e] <;> cases (s.unsuspended u).kind u <;> rfl
  obtain ⟨rest, still⟩ := h.rests ((reconcileUnit_compares h.inHand compares).trans same) unsuspended_calm
  exact ⟨(state_of_rest rest).trans unsuspended_state, still⟩

/-! ### HELD lockers -/

theorem Settles.held (hk : s.kind u = .locker) (hs : (s.unit u).state = .held) (hsus : (s.unit u).suspended = false) :
    (c.door = false → (t.unit u).state = .forced ∧ t.atRest u) ∧
    (c.door = true → c.bolt = true → (t.unit u).state = .held ∧ t.atRest u) ∧
    (c.door = true → c.bolt = false → (t.unit u).state = .locking ∧ Moved t u .throw .normal) := by
  have e := (reconcileUnit_compares (c := c) h.inHand (.inl ⟨by rw [hs]; rfl, hsus⟩)).trans
    (compareUnit_heldLocker (s := s.unsuspended u) hk (unsuspended_state.trans hs))
  refine ⟨fun hd => ?_, fun hd hb => ?_, fun hd hb => ?_⟩
  · rw [if_pos hd] at e
    obtain ⟨rest, still⟩ := h.rests e (forceOpen_calm.of unsuspended_calm)
    exact ⟨(state_of_rest rest).trans (enter_state .forced), still⟩
  · rw [if_neg (by simp [hd]), if_pos hb] at e
    obtain ⟨rest, still⟩ := h.rests e unsuspended_calm
    exact ⟨(state_of_rest rest).trans (unsuspended_state.trans hs), still⟩
  · rw [if_neg (by simp [hd]), if_neg (by simp [hb])] at e
    obtain ⟨rest, moved⟩ := h.moves e (canThrow h.bankStart (.inr (by
      rw [show (enter (s.unsuspended u) u .locking).kind u = .locker from hk]; decide)))
    exact ⟨(state_of_rest rest).trans (enter_state .locking), moved⟩

theorem Settles.heldSuspended (hk : s.kind u = .locker) (hs : (s.unit u).state = .held)
    (hsus : (s.unit u).suspended = true) :
    (t.unit u).state = .held ∧ if c.bolt then t.atRest u else Moved t u .throw .normal := by
  have again : Rederives s u .throw := ⟨h.inHand, .inr hsus, by rw [hk, hs]; rfl, by simp [hk]⟩
  have state : ((s.unsuspended u).unit u).state = .held := unsuspended_state.trans hs
  split
  next hb =>
    have e := (again.verified (c := c) (by rw [hb]; rfl)).trans ((verifiedUnit_locker (s := s.unsuspended u) hk).trans
      (verifiedLocker_none (by rw [state]; decide) (by rw [state]; decide)))
    obtain ⟨rest, still⟩ := h.rests e unsuspended_calm
    exact ⟨(state_of_rest rest).trans state, still⟩
  next hb =>
    have e := (again.rederived (c := c) (by simpa using hb)).trans (rederive_throw_locker (s := s.unsuspended u) hk)
    obtain ⟨rest, moved⟩ := h.moves e (canThrow h.bankStart (.inr (by
      rw [show (s.unsuspended u).kind u = .locker from hk]; decide)))
    exact ⟨(state_of_rest rest).trans state, moved⟩

/-! ### FREE cabins -/

theorem Settles.freeEvac (hk : s.kind u = .cabin) (hs : (s.unit u).state = .free) (he : s.levelEvac = true) :
    (t.unit u).state = .evacOpen ∧ if c.bolt then Moved t u .withdraw .urgent else t.atRest u := by
  have e := (reconcileUnit_compares (c := c) h.inHand (.inr (.inr ⟨hk, hs, he⟩))).trans
    (compareUnit_freeCabin_evac (s := s.unsuspended u) hk (unsuspended_state.trans hs) he)
  split
  next hb =>
    rw [if_pos hb] at e
    obtain ⟨rest, moved⟩ := h.moves e (canWithdraw h.bankStart)
    exact ⟨(state_of_rest rest).trans (enter_state .evacOpen), moved⟩
  next hb =>
    rw [if_neg hb] at e
    obtain ⟨rest, still⟩ := h.rests e (enter_calm.of unsuspended_calm)
    exact ⟨(state_of_rest rest).trans (enter_state .evacOpen), still⟩

theorem Settles.free_throws (hk : s.kind u = .cabin) (hs : (s.unit u).state = .free) (he : s.levelEvac = false)
    (hb : c.bolt = false) : (t.unit u).state = .free ∧ Moved t u .throw .normal := by
  have state : ((s.unsuspended u).unit u).state = .free := unsuspended_state.trans hs
  have e : reconcileUnit s u c = handOver (s.unsuspended u) u .throw .normal := by
    cases hsus : (s.unit u).suspended with
    | false =>
      rw [reconcileUnit_compares h.inHand (.inl ⟨by rw [hs]; rfl, hsus⟩),
        compareUnit_freeCabin (s := s.unsuspended u) hk state he, if_neg (by simp [hb])]
    | true =>
      have again : Rederives s u .throw := ⟨h.inHand, .inr hsus, by rw [hk, hs]; rfl, by simp [he]⟩
      rw [again.rederived (by rw [hb]; rfl), rederive_throw_cabin (s := s.unsuspended u) he]
  obtain ⟨rest, moved⟩ := h.moves e (canThrow h.bankStart (.inl he))
  exact ⟨(state_of_rest rest).trans state, moved⟩

/-- A cabin's throw taken as verified, in FREE or CLOSING (R46). -/
theorem Settles.shuts (hk : s.kind u = .cabin) (hs : (s.unit u).state = .free ∨ (s.unit u).state = .closing)
    (again : Rederives s u .throw) (hb : c.bolt = true) :
    (c.door = true → (t.unit u).state = .free ∧ t.atRest u) ∧
    (c.door = false → (t.unit u).state = .vacating ∧ Moved t u .withdraw .normal) := by
  have state : ((s.unsuspended u).unit u).state = .closing ∨ ((s.unsuspended u).unit u).state = .free := by
    rw [unsuspended_state]
    exact hs.symm
  have e := (again.verified (c := c) (by rw [hb]; rfl)).trans ((verifiedUnit_cabin (s := s.unsuspended u) hk).trans
    (verifiedCabin_throw state))
  constructor
  · intro hd
    rw [if_pos hd] at e
    obtain ⟨rest, still⟩ := h.rests e (enter_calm.of unsuspended_calm)
    exact ⟨(state_of_rest rest).trans (enter_state .free), still⟩
  · intro hd
    rw [if_neg (by simp [hd])] at e
    obtain ⟨rest, moved⟩ := h.moves e (canWithdraw h.bankStart)
    exact ⟨(state_of_rest rest).trans (enter_state .vacating), moved⟩

theorem Settles.free (hk : s.kind u = .cabin) (hs : (s.unit u).state = .free) (he : s.levelEvac = false)
    (hb : c.bolt = true) :
    ((s.unit u).suspended = false ∨ c.door = true → (t.unit u).state = .free ∧ t.atRest u) ∧
    ((s.unit u).suspended = true → c.door = false → (t.unit u).state = .vacating ∧ Moved t u .withdraw .normal) := by
  cases hsus : (s.unit u).suspended with
  | false =>
    have state : ((s.unsuspended u).unit u).state = .free := unsuspended_state.trans hs
    have e := (reconcileUnit_compares (c := c) h.inHand (.inl ⟨by rw [hs]; rfl, hsus⟩)).trans
      (compareUnit_freeCabin (s := s.unsuspended u) hk state he)
    rw [if_pos hb] at e
    obtain ⟨rest, still⟩ := h.rests e unsuspended_calm
    exact ⟨fun _ => ⟨(state_of_rest rest).trans state, still⟩, fun k => absurd k (by decide)⟩
  | true =>
    have again : Rederives s u .throw := ⟨h.inHand, .inr hsus, by rw [hk, hs]; rfl, by simp [he]⟩
    obtain ⟨shut, opened⟩ := h.shuts hk (.inl hs) again hb
    exact ⟨fun hd => shut (hd.resolve_left (by decide)), fun _ => opened⟩

/-! ### Transitional states -/

theorem Settles.transits (ht : (s.unit u).state.transitional = true)
    (he : expectedOp (s.kind u) (s.unit u).state = some op) : Rederives s u op :=
  ⟨h.inHand, .inl ht, he, fun k => by rw [k.2.1] at ht; exact absurd ht (by decide)⟩

theorem Settles.locking (hk : s.kind u = .locker) (hs : (s.unit u).state = .locking) :
    (c.bolt = false → (t.unit u).state = .locking ∧ Moved t u .throw .normal) ∧
    (c.bolt = true → c.door = true → (t.unit u).state = .held ∧ t.atRest u) ∧
    (c.bolt = true → c.door = false → (t.unit u).state = .unlocking ∧ Moved t u .withdraw .normal ∧
      (t.unit u).purpose = some (.release .doorOpen) ∧ (t.unit u).lamp.beep = true) := by
  have again : Rederives s u .throw := h.transits (by rw [hs]; rfl) (by rw [hk, hs]; rfl)
  have state : ((s.unsuspended u).unit u).state = .locking := unsuspended_state.trans hs
  have verified (hb : c.bolt = true) : reconcileUnit s u c = verifiedLocker (s.unsuspended u) u .throw c.door :=
    (again.verified (by rw [hb]; rfl)).trans (verifiedUnit_locker (s := s.unsuspended u) hk)
  refine ⟨fun hb => ?_, fun hb hd => ?_, fun hb hd => ?_⟩
  · have e := (again.rederived (c := c) (by rw [hb]; rfl)).trans (rederive_throw_locker (s := s.unsuspended u) hk)
    obtain ⟨rest, moved⟩ := h.moves e (canThrow h.bankStart (.inr (by
      rw [show (s.unsuspended u).kind u = .locker from hk]; decide)))
    exact ⟨(state_of_rest rest).trans state, moved⟩
  · have e := verified hb
    rw [hd, verifiedLocker_shut state] at e
    obtain ⟨rest, still⟩ := h.rests e (enter_calm.of unsuspended_calm)
    exact ⟨(state_of_rest rest).trans (enter_state .held), still⟩
  · have e := verified hb
    have moves := verifiedLocker_open state
    rw [hd] at e
    have left := h.left
    rw [e] at left
    generalize verifiedLocker (s.unsuspended u) u .throw false = z at *
    have rest : (t.unit u).rest = ((s.unsuspended u).sentBack u).rest := by
      rw [left.rest, moves.1.2.2.2 u (by simp), withUnit_unit]
    have can : CanMove { s.unsuspended u with units := put (s.unsuspended u).units u ((s.unsuspended u).sentBack u) } u
        .withdraw := canWithdraw h.bank
    obtain ⟨stands, deferred⟩ := moves.2 can
    have standing : Standing z u .withdraw .normal := by
      rcases Nat.lt_or_ge (s.unsuspended u).drive.used Config.actuationPlaces with room | full
      · exact .inl (stands room)
      · exact .inr (deferred full)
    exact ⟨state_of_rest rest, (left.standing _ _ (moves.1.canMove can) standing).moved,
      eq_of_rest (f := UnitRec.purpose) (fun _ => rfl) rest,
      eq_of_rest (f := fun r : UnitRec => r.lamp.beep) (fun _ => rfl) rest⟩

theorem Settles.opens (hs : (s.unit u).state ≠ .evacOpen) (again : Rederives s u .withdraw) (hb : c.bolt = true) :
    (t.unit u).state = (s.unit u).state ∧ Moved t u .withdraw .normal := by
  have e := (again.rederived (c := c) (by rw [hb]; rfl)).trans rederive_withdraw
  rw [unsuspended_openClass, openClass_normal hs] at e
  obtain ⟨rest, moved⟩ := h.moves e (canWithdraw h.bankStart)
  exact ⟨(state_of_rest rest).trans unsuspended_state, moved⟩

theorem Settles.unlocking (hk : s.kind u = .locker) (hs : (s.unit u).state = .unlocking) :
    (c.bolt = true → (t.unit u).state = .unlocking ∧ Moved t u .withdraw .normal) ∧
    (c.bolt = false → (s.unit u).purpose = some .service →
      (t.unit u).state = .serviceOpen ∧ (t.unit u).purpose = none ∧ t.atRest u) ∧
    (c.bolt = false → (s.unit u).purpose = some .keep →
      (t.unit u).state = .ajar ∧ (t.unit u).purpose = none ∧ t.atRest u ∧
        ⟨clampSec (s.clock.sec + (s.cls (s.bandClass ((s.unit u).holder.getD 0))).ajarIdle), u, .ajarIdle⟩ ∈ t.timers) := by
  have again : Rederives s u .withdraw := h.transits (by rw [hs]; rfl) (by rw [hk, hs]; rfl)
  have state : ((s.unsuspended u).unit u).state = .unlocking := unsuspended_state.trans hs
  have verified (hb : c.bolt = false) : reconcileUnit s u c = verifiedLocker (s.unsuspended u) u .withdraw c.door :=
    (again.verified (by rw [hb]; rfl)).trans (verifiedUnit_locker (s := s.unsuspended u) hk)
  have purpose {p : Option Purpose} (hp : (s.unit u).purpose = p) : ((s.unsuspended u).unit u).purpose = p := by
    rw [unsuspended_unit]
    exact hp
  refine ⟨fun hb => ?_, fun hb hp => ?_, fun hb hp => ?_⟩
  · have opened := h.opens (by rw [hs]; decide) again hb
    rw [hs] at opened
    exact opened
  · have e := (verified hb).trans (verifiedLocker_service state (purpose hp))
    have calm : Calm (s.unsuspended u) (setPurpose (enter (s.unsuspended u) u .serviceOpen) u none) :=
      setPurpose_calm.of enter_calm
    rw [setPurpose_enter] at calm
    obtain ⟨rest, still⟩ := h.rests e (calm.of unsuspended_calm)
    rw [withUnit_unit] at rest
    exact ⟨state_of_rest rest, eq_of_rest (f := UnitRec.purpose) (fun _ => rfl) rest, still⟩
  · have e := (verified hb).trans (verifiedLocker_keep state (purpose hp))
    have left := h.left
    rw [e] at left
    have calm : Calm (s.unsuspended u) ((setPurpose (enter (s.unsuspended u) u .ajar) u none).withTimer u .ajarIdle
        (clampSec ((s.unsuspended u).clock.sec + ((s.unsuspended u).cls ((s.unsuspended u).bandClass
          (((s.unsuspended u).unit u).holder.getD 0))).ajarIdle))) :=
      withTimer_calm.of (setPurpose_calm.of enter_calm)
    rw [setPurpose_enter] at calm
    obtain ⟨rest, still⟩ := h.rests e (calm.of unsuspended_calm)
    have record := rest.trans (congrArg UnitRec.rest (unit_put (s := s.unsuspended u) _))
    refine ⟨state_of_rest record, eq_of_rest (f := UnitRec.purpose) (fun _ => rfl) record, still, ?_⟩
    have due := left.timers _ setTimer_mem rfl
    rw [unsuspended_unit] at due
    exact due

theorem Settles.admitting (hk : s.kind u = .cabin) (hs : (s.unit u).state = .admitting) :
    (c.bolt = true → (t.unit u).state = .admitting ∧ Moved t u .withdraw .normal) ∧
    (c.bolt = false → t.atRest u ∧
      (t.unit u).rest = ((s.unsuspended u).admitted u).1.rest ∧
      ⟨((s.unsuspended u).admitted u).2.2, u, ((s.unsuspended u).admitted u).2.1⟩ ∈ t.timers) := by
  have again : Rederives s u .withdraw := h.transits (by rw [hs]; rfl) (by rw [hk, hs]; rfl)
  have state : ((s.unsuspended u).unit u).state = .admitting := unsuspended_state.trans hs
  refine ⟨fun hb => ?_, fun hb => ?_⟩
  · have opened := h.opens (by rw [hs]; decide) again hb
    rw [hs] at opened
    exact opened
  · have e := (again.verified (c := c) (by rw [hb]; rfl)).trans ((verifiedUnit_cabin (s := s.unsuspended u) hk).trans
      (verifiedCabin_admits state))
    obtain ⟨rest, still⟩ := h.rests e (admitCabin_calm.of unsuspended_calm)
    have left := h.left
    rw [e, admitCabin_eq (s := s.unsuspended u) hk] at left
    exact ⟨still, left.rest.trans (congrArg UnitRec.rest (unit_put (s := s.unsuspended u) _)),
      left.timers _ setTimer_mem rfl⟩

theorem Settles.closing (hk : s.kind u = .cabin) (hs : (s.unit u).state = .closing) :
    (c.bolt = false → s.levelEvac = false → (t.unit u).state = .closing ∧ Moved t u .throw .normal) ∧
    (c.bolt = false → s.levelEvac = true → (t.unit u).state = .evacOpen ∧ t.atRest u) ∧
    (c.bolt = true → c.door = true → (t.unit u).state = .free ∧ t.atRest u) ∧
    (c.bolt = true → c.door = false → (t.unit u).state = .vacating ∧ Moved t u .withdraw .normal) := by
  have again : Rederives s u .throw := h.transits (by rw [hs]; rfl) (by rw [hk, hs]; rfl)
  refine ⟨fun hb he => ?_, fun hb he => ?_, fun hb => (h.shuts hk (.inr hs) again hb).1,
    fun hb => (h.shuts hk (.inr hs) again hb).2⟩
  · have e := (again.rederived (c := c) (by rw [hb]; rfl)).trans (rederive_throw_cabin (s := s.unsuspended u) he)
    obtain ⟨rest, moved⟩ := h.moves e (canThrow h.bankStart (.inl he))
    exact ⟨(state_of_rest rest).trans (unsuspended_state.trans hs), moved⟩
  · have opened : rederive (s.unsuspended u) u .throw c.bolt = enter (s.unsuspended u) u .evacOpen := by
      unfold rederive
      rw [if_pos ⟨rfl, hk, he⟩, if_neg (by simp [hb])]
    have e := (again.rederived (c := c) (by rw [hb]; rfl)).trans opened
    obtain ⟨rest, still⟩ := h.rests e (enter_calm.of unsuspended_calm)
    exact ⟨(state_of_rest rest).trans (enter_state .evacOpen), still⟩

end

end Sys2Proof.Machine
end

/-! ## The statement of reconciles -/

section
namespace Sys2Proof.Machine

variable {s m t x : State} {u v w : UnitIx} {b : BankIx} {c : Cell} {cells : List (UnitIx × Cell)}
  {before behind rest : List EngEvent} {why : Reason}

/-! ### Which request is taken -/

theorem reconcile_takes (ht : Taking s) (hi : s.engine.inbox = before ++ .reconcile b cells :: behind)
    (hb : ∀ e ∈ before, e.isReconcile = false) (hr : s.removalWaits b = false) : exec .reconcile s =
      .next (pump (if (reconcileUnits (s.setInbox (before ++ behind)) cells).2 = []
        then (reconcileUnits (s.setInbox (before ++ behind)) cells).1
        else (reconcileUnits (s.setInbox (before ++ behind)) cells).1.setInbox
          (.reconcile b (reconcileUnits (s.setInbox (before ++ behind)) cells).2 ::
            (reconcileUnits (s.setInbox (before ++ behind)) cells).1.engine.inbox))) := by
  have taken : takeFirst EngEvent.isReconcile s.engine.inbox = some (.reconcile b cells, before ++ behind) := by
    rw [hi]
    exact takeFirst_append before behind hb rfl
  refine congrArg Host.Outcome.next ?_
  unfold reconcile
  rw [if_neg (by simp [(engineOn_iff s).mpr ht]), taken]
  dsimp only
  rw [if_neg (by simp [hr])]

/-- The request taken out of the inbox leaves every unit as it is. -/
theorem setInbox_spares (hi : s.engine.inbox = before ++ .reconcile b cells :: behind) (u : UnitIx) :
    Spared u s (s.setInbox (before ++ behind)) where
  rest := rfl
  count := by
    have counts := setInbox_count (s := s) (v := u) (before ++ behind)
    have reports : s.reports u = ((before ++ behind).map (EngEvent.movements u)).sum := by
      rw [State.reports, hi]
      simp [EngEvent.movements]
    omega
  standing _ _ _ h := h
  timers _ he _ := he
  frame := rfl
  occupancy _ := rfl

/-- A request whose first unit would hand a record to a queue without room stays (R24). -/
theorem reconcile_stays {more : List (UnitIx × Cell)} (ht : Taking s)
    (hi : s.engine.inbox = before ++ .reconcile b ((u, c) :: more) :: behind)
    (hb : ∀ e ∈ before, e.isReconcile = false) (hr : s.removalWaits b = false) (hh : s.reconcileHands u c = true)
    (hj : ¬JournalRoom s) : ∃ t, exec .reconcile s = .next t ∧
      PortServes (s.took (.reconcile b ((u, c) :: more) :: (before ++ behind)) s.engine.runningSlot) t := by
  have goes := reconcile_takes ht hi hb hr
  have full : s.journalRoom = false := Bool.eq_false_iff.mpr (mt (journalRoom_iff s).mp hj)
  have stays : reconcileUnits (s.setInbox (before ++ behind)) ((u, c) :: more) =
      (s.setInbox (before ++ behind), (u, c) :: more) := by
    show (if ((s.setInbox (before ++ behind)).reconcileHands u c && !(s.setInbox (before ++ behind)).journalRoom) = true
      then _ else _) = _
    rw [(setInbox_spares hi u).reconcileHands, hh, show (s.setInbox (before ++ behind)).journalRoom = false from full]
    rfl
  rw [stays, if_neg (by simp)] at goes
  exact ⟨_, goes, pump_serves _⟩

/-- A locker whose release was cut short is released (R36). -/
theorem reconcile_releases (ht : Taking s) (hi : s.engine.inbox = before ++ .reconcile b [(u, c)] :: behind)
    (hb : ∀ e ∈ before, e.isReconcile = false) (hr : s.removalWaits b = false) (hj : JournalRoom s) (hok : HoldingsOk s)
    (hk : s.kind u = .locker) (hn : s.inHand u = false) (hs : (s.unit u).state = .unlocking)
    (hp : (s.unit u).purpose = some (.release why)) (hbolt : c.bolt = false) :
    ∃ m t, exec .reconcile s = .next t ∧ PortServes m t ∧
      LockerReleased { s.took (before ++ behind) s.engine.runningSlot with
        units := put s.units u { s.unit u with suspended := false } } m u why := by
  have goes := reconcile_takes ht hi hb hr
  have room : (s.setInbox (before ++ behind)).journalRoom = true := (journalRoom_iff s).mpr hj
  have again : Rederives (s.setInbox (before ++ behind)) u .withdraw := by
    refine ⟨(setInbox_spares hi u).inHand.trans hn, .inl ?_, ?_, fun k => ?_⟩
    · rw [show ((s.setInbox (before ++ behind)).unit u).state = .unlocking from hs]
      rfl
    · rw [show ((s.setInbox (before ++ behind)).unit u).state = .unlocking from hs]
      rw [show (s.setInbox (before ++ behind)).kind u = .locker from hk]
      rfl
    · exact absurd (k.1.symm.trans hk) (by decide)
  have unit := unsuspended_unit (s := s.setInbox (before ++ behind)) (u := u)
  have released := (again.verified (c := c) (by rw [hbolt]; rfl)).trans
    ((verifiedUnit_locker (s := (s.setInbox (before ++ behind)).unsuspended u) hk).trans
      (verifiedLocker_release (why := why) (by rw [unit]; exact hs) (by rw [unit]; exact hp)))
  have only : reconcileUnits (s.setInbox (before ++ behind)) [(u, c)] =
      (releaseLocker ((s.setInbox (before ++ behind)).unsuspended u) u why, []) := by
    show (if _ = true then _ else reconcileUnits (reconcileUnit _ u c) []) = _
    rw [if_neg (by simp [room]), released]
    rfl
  have holdings : HoldingsOk ((s.setInbox (before ++ behind)).unsuspended u) :=
    unsuspended_calm.holdings (holdingsOk_congr (s := s) rfl (fun _ => rfl) hok)
  rw [only, if_pos rfl] at goes
  exact ⟨_, _, goes, pump_serves _, releaseLocker_released holdings⟩

/-! ### What the other units leave of the hypotheses on one -/

/-- The record of a cabin admitted once its suspended mark is cleared, others having been handled before. -/
theorem Spared.admitted (h : Spared u s m) :
    ((m.unsuspended u).admitted u).1.rest = ({ (s.admitted u).1 with suspended := false } : UnitRec).rest ∧
    ((m.unsuspended u).admitted u).2 = (s.admitted u).2 := by
  have frame := h.frame
  simp only [Prod.mk.injEq] at frame
  obtain ⟨tables, clock, bands, -, -⟩ := frame
  have unit : (m.unsuspended u).unit u = { m.unit u with suspended := false } := unsuspended_unit
  have holder : (m.unit u).holder = (s.unit u).holder := eq_of_rest (fun _ => rfl) h.rest
  have bound : (m.unit u).boundAt = (s.unit u).boundAt := eq_of_rest (fun _ => rfl) h.rest
  have zone : (m.unsuspended u).zone u = s.zone u := by
    show m.zone u = s.zone u
    unfold State.zone
    rw [tables]
  have crowd (z : ZoneIx) : (m.unsuspended u).occupancy z = s.occupancy z := by
    refine (occupancy_congr (s := m) (t := m.unsuspended u) rfl (fun w _ => ?_) z).trans (h.occupancy z)
    by_cases hw : w = u
    · rw [hw, unsuspended_state]
    · rw [State.unsuspended, modUnit_unit_other _ _ _ _ hw]
  have allowance : (m.unsuspended u).allowance u = s.allowance u := by
    unfold State.allowance State.cls State.bandClass
    rw [unit, zone, crowd]
    show allowanceOf (m.tables.classes.get (((bandEntry m.bands ((m.unit u).holder.getD 0)).map (·.cls)).getD 0)).base
      (m.tables.classes.get (((bandEntry m.bands ((m.unit u).holder.getD 0)).map (·.cls)).getD 0)).floor
      (m.tables.zones.get (s.zone u)).cabins (m.tables.zones.get (s.zone u)).threshold _ = _
    rw [tables, bands, holder]
  have expiry : (m.unsuspended u).admitExpiry u = s.admitExpiry u := by
    unfold State.admitExpiry
    rw [allowance, unit, show (m.unsuspended u).clock = s.clock from clock]
    dsimp only
    rw [bound]
  have warning : (m.unsuspended u).admitWarning u = s.admitWarning u := by
    unfold State.admitWarning
    rw [expiry, zone]
    show warningTime _ (m.tables.zones.get _).warningLead m.clock.sec = _
    rw [tables, clock]
  rw [admitted_eq, admitted_eq, allowance, expiry, warning, unit, zone,
    show (m.unsuspended u).tables = s.tables from tables]
  have record (y : UnitRec) : ({ y with suspended := false } : UnitRec).rest =
      { y.rest with suspended := false } := rfl
  refine ⟨?_, rfl⟩
  have same : ({ m.unit u with suspended := false } : UnitRec).rest = { s.unit u with suspended := false }.rest := by
    rw [record, record, h.rest]
  have enters (y : UnitRec) : (({ y.enters .cabin .inUse with
      allowance := some (s.allowance u), expiry := some (s.admitExpiry u), warningAt := s.admitWarning u
      graceEnd := some (clampSec (s.admitExpiry u + (s.tables.zones.get (s.zone u)).grace)) } : UnitRec)).rest =
      { y.rest.enters .cabin .inUse with
        allowance := some (s.allowance u), expiry := some (s.admitExpiry u), warningAt := s.admitWarning u
        graceEnd := some (clampSec (s.admitExpiry u + (s.tables.zones.get (s.zone u)).grace)) } := rfl
  rw [enters, same]
  rfl

theorem Spared.levelEvac (h : Spared u s m) : m.levelEvac = s.levelEvac := by
  have frame := h.frame
  simp only [Prod.mk.injEq] at frame
  obtain ⟨tables, -, -, inputs, -⟩ := frame
  unfold State.levelEvac
  rw [tables, inputs]

theorem Spared.openClass (h : Spared u s m) : m.openClass u = s.openClass u := by
  have frame := h.frame
  simp only [Prod.mk.injEq] at frame
  obtain ⟨-, -, -, inputs, -⟩ := frame
  unfold State.openClass
  rw [inputs, state_of_rest h.rest]

/-- The AJAR_IDLE entry of a locker opened for keeping (R36). -/
def State.idleDue (s : State) (u : UnitIx) : Nat :=
  clampSec (s.clock.sec + (s.cls (s.bandClass ((s.unit u).holder.getD 0))).ajarIdle)

theorem Spared.idleDue (h : Spared u s m) : m.idleDue u = s.idleDue u := by
  have frame := h.frame
  simp only [Prod.mk.injEq] at frame
  obtain ⟨tables, clock, bands, -, -⟩ := frame
  have holder : (m.unit u).holder = (s.unit u).holder := eq_of_rest (fun _ => rfl) h.rest
  unfold State.idleDue State.cls State.bandClass
  rw [tables, clock, bands, holder]

/-- Settles O56, unit by unit: each is reconciled in a state that the others of the request have left it as it was. -/
theorem reconcileComparesUnits : Obligations.ReconcileComparesUnits := by
  unfold Obligations.ReconcileComparesUnits
  intro s b cells before behind ht hi hb hr
  refine ⟨?_, ?_, ?_⟩
  · rintro u c more rfl hh hj
    exact reconcile_stays ht hi hb hr hh hj
  · rintro u c why rfl hj hok hk hn hs hp hbolt
    exact reconcile_releases ht hi hb hr hj hok hk hn hs hp hbolt
  · intro nodup mine running _ hands
    have start := setInbox_spares hi
    have hands' : ∀ uc ∈ cells, (s.setInbox (before ++ behind)).reconcileHands uc.1 uc.2 = false := fun uc hm =>
      ((start uc.1).reconcileHands).trans (hands uc hm)
    obtain ⟨done, spared, each⟩ := reconcileUnits_spares nodup hands'
    have frame := reconcileUnits_frame nodup hands'
    have goes := reconcile_takes ht hi hb hr
    rw [if_pos done] at goes
    generalize (reconcileUnits (s.setInbox (before ++ behind)) cells).1 = x at *
    simp only [Prod.mk.injEq] at frame
    obtain ⟨tables, bands, inputs, line, queue⟩ := frame
    have pumpLine : (pump x).line = x.line ∧ (pump x).inputs = x.inputs := by
      obtain ⟨_, _, e⟩ := pump_frame x
      rw [e]
      exact ⟨rfl, rfl⟩
    refine ⟨_, goes, (pump_queue x).trans queue, (pump_bands x).trans bands, (pump_tables x).trans tables,
      pumpLine.2.trans inputs, pumpLine.1.trans line, fun u hu => ?_, fun uc hm hn => ?_⟩
    · have rest : (x.unit u).rest = (s.unit u).rest := by
        by_cases hc : ∀ uc ∈ cells, uc.1 ≠ u
        · exact ((start u).trans (spared u hc)).rest
        · push Not at hc
          obtain ⟨uc, hm, rfl⟩ := hc
          obtain ⟨m, ahead, after⟩ := each uc hm
          have inHand := hu.resolve_left fun h => h uc hm rfl
          have whole := (start uc.1).trans ahead
          rw [reconcileUnit_inHand (whole.inHand.trans inHand)] at after
          exact (whole.trans after).rest
      unfold State.unit
      rw [pump_units]
      exact rest
    · obtain ⟨u, c⟩ := uc
      obtain ⟨m, ahead, after⟩ := each (u, c) hm
      have alike : Spared u s m := (start u).trans ahead
      have state : (m.unit u).state = (s.unit u).state := state_of_rest alike.rest
      have suspended : (m.unit u).suspended = (s.unit u).suspended := eq_of_rest (fun _ => rfl) alike.rest
      have purpose : (m.unit u).purpose = (s.unit u).purpose := eq_of_rest (fun _ => rfl) alike.rest
      have holder : (m.unit u).holder = (s.unit u).holder := eq_of_rest (fun _ => rfl) alike.rest
      have kind := alike.kind
      have level := alike.levelEvac
      have bank : (m.bank (bankOf u)).state = .running := by
        have banks := alike.frame
        simp only [Prod.mk.injEq] at banks
        unfold State.bank
        rw [banks.2.2.2.2, mine (u, c) hm]
        exact running
      have hands : m.reconcileHands u c = false := alike.reconcileHands.trans (hands (u, c) hm)
      have h : Settles m (pump x) u c := ⟨alike.inHand.trans hn, bank, hands, after.pumped⟩
      have marks := reconcileUnit_marks h.inHand hands
      generalize pump x = t at h ⊢
      intro u' c' r st' moved still class'
      refine ⟨(eq_of_rest (fun _ => rfl) h.left.rest).trans marks.1,
        ((eq_of_rest (f := UnitRec.holder) (fun _ => rfl) h.left.rest).trans marks.2).trans holder,
        fun hk hs => ?_, fun hk hs hsus => ?_, fun hk hs hsus => ?_, fun hs => ?_, fun hk hs => ?_, fun hk hs => ?_,
        fun hk hs => ?_, fun hk hs => ?_, fun hk hs => ?_, fun hk hs => ?_⟩
      · have settled := h.withdrawn (.inl ⟨kind.trans hk, by rw [state]; exact hs⟩)
        rw [state, openClass_normal (by rw [state]; rcases hs with e | e | e <;> rw [e] <;> decide)] at settled
        exact settled
      · exact h.held (kind.trans hk) (state.trans hs) (suspended.trans hsus)
      · exact h.heldSuspended (kind.trans hk) (state.trans hs) (suspended.trans hsus)
      · have settled := h.idle (by rw [state]; exact hs)
        rw [state] at settled
        exact settled
      · have cabin := kind.trans hk
        have free := state.trans hs
        refine ⟨fun he hbolt => h.free_throws cabin free (level.trans he) hbolt, fun he hbolt hor => ?_,
          fun he hbolt hsus hd => (h.free cabin free (level.trans he) hbolt).2 (suspended.trans hsus) hd,
          fun he => h.freeEvac cabin free (level.trans he)⟩
        exact (h.free cabin free (level.trans he) hbolt).1 (hor.imp_left suspended.trans)
      · have settled := h.withdrawn (.inr ⟨kind.trans hk, by rw [state]; exact hs⟩)
        rw [state, alike.openClass] at settled
        exact settled
      · exact h.locking (kind.trans hk) (state.trans hs)
      · obtain ⟨opens, service, keep⟩ := h.unlocking (kind.trans hk) (state.trans hs)
        refine ⟨opens, fun hbolt hp => service hbolt (purpose.trans hp), fun hbolt hp => ?_⟩
        have settled := keep hbolt (purpose.trans hp)
        rw [show clampSec (m.clock.sec + (m.cls (m.bandClass ((m.unit u).holder.getD 0))).ajarIdle) = s.idleDue u from
          alike.idleDue] at settled
        exact settled
      · obtain ⟨opens, admits⟩ := h.admitting (kind.trans hk) (state.trans hs)
        refine ⟨opens, fun hbolt => ?_⟩
        obtain ⟨rests, record, timer⟩ := admits hbolt
        obtain ⟨same, entry⟩ := alike.admitted
        rw [same] at record
        rw [entry] at timer
        exact ⟨rests, record, timer⟩
      · have settled := h.closing (kind.trans hk) (state.trans hs)
        rw [level] at settled
        exact settled

end Sys2Proof.Machine
end

/-! ## A chain as a shift register -/

section
namespace Sys2Proof.Machine

variable {s t m : State} {b : BankIx} {now : Millis} {modes : List NodeMode} {ns : List Node} {regs : List (List Bool)}
  {ds : List Bool} {d : Bool} {n x : Node}

/-! ### Registers one after another (R90) -/

/-- One shift of registers, position 0 first: the bit that enters and the one that leaves at DI. -/
def pushBit : List (List Bool) → Bool → List (List Bool) × Bool
  | [], d => ([], d)
  | r :: rest, d => ((r.tail ++ [d]) :: (pushBit rest (r.headD false)).1, (pushBit rest (r.headD false)).2)

/-- The registers once bits have been shifted in, and the bits that have left. -/
def pushBits : List (List Bool) → List Bool → List (List Bool) × List Bool
  | regs, [] => (regs, [])
  | regs, d :: ds => ((pushBits (pushBit regs d).1 ds).1, (pushBit regs d).2 :: (pushBits (pushBit regs d).1 ds).2)

/-- The bits that registers hold, in the order they leave: the one nearest DI first. -/
def held (regs : List (List Bool)) : List Bool := regs.reverse.flatten

theorem pushBit_length (regs : List (List Bool)) (d : Bool) : (pushBit regs d).1.length = regs.length := by
  induction regs generalizing d with
  | nil => rfl
  | cons r rest ih => simp [pushBit, ih]

theorem pushBit_spec (h : ∀ r ∈ regs, r ≠ []) (d : Bool) :
    (pushBit regs d).2 :: held (pushBit regs d).1 = held regs ++ [d] ∧
      (pushBit regs d).1.map List.length = regs.map List.length := by
  induction regs generalizing d with
  | nil => exact ⟨rfl, rfl⟩
  | cons r rest ih =>
    obtain ⟨a, l, rfl⟩ := List.exists_cons_of_ne_nil (h r (by simp))
    obtain ⟨held', lengths⟩ := ih (fun r hr => h r (List.mem_cons_of_mem _ hr)) a
    constructor
    · have front (q : List (List Bool)) (w : List Bool) : held (w :: q) = held q ++ w := by simp [held]
      show (pushBit rest a).2 :: held ((l ++ [d]) :: (pushBit rest a).1) = _
      rw [front, front, ← List.cons_append, held']
      simp
    · show (l ++ [d]).length :: (pushBit rest a).1.map List.length = _
      rw [lengths]
      simp

theorem nonempty_of_lengths {q : List (List Bool)} (hl : q.map List.length = regs.map List.length)
    (h : ∀ r ∈ regs, r ≠ []) : ∀ r ∈ q, r ≠ [] := by
  intro r hr e
  have mem : (0 : Nat) ∈ regs.map List.length := by
    rw [← hl]
    exact List.mem_map.mpr ⟨r, hr, by rw [e]; rfl⟩
  obtain ⟨r', hr', hz⟩ := List.mem_map.mp mem
  exact h r' hr' (List.length_eq_zero_iff.mp hz)

/-- Registers give their bits up in order, first in first out (R90). -/
theorem pushBits_spec (h : ∀ r ∈ regs, r ≠ []) (ds : List Bool) :
    (pushBits regs ds).2 ++ held (pushBits regs ds).1 = held regs ++ ds ∧
      (pushBits regs ds).2.length = ds.length ∧ (pushBits regs ds).1.map List.length = regs.map List.length := by
  induction ds generalizing regs with
  | nil => exact ⟨by simp [pushBits], rfl, rfl⟩
  | cons d ds ih =>
    obtain ⟨first, lengths⟩ := pushBit_spec h d
    obtain ⟨bits, count, kept⟩ := ih (nonempty_of_lengths lengths h)
    refine ⟨?_, by simp [pushBits, count], kept.trans lengths⟩
    show (pushBit regs d).2 :: ((pushBits (pushBit regs d).1 ds).2 ++ held (pushBits (pushBit regs d).1 ds).1) = _
    rw [bits, ← List.cons_append, first, List.append_assoc]
    rfl

theorem held_length (regs : List (List Bool)) : (held regs).length = (regs.map List.length).sum := by
  unfold held
  rw [List.length_flatten, List.map_reverse, List.sum_reverse]

/-- Bits that fill the registers stand in them, those sent before have left. -/
theorem pushBits_fills (h : ∀ r ∈ regs, r ≠ []) {pat : List Bool} {q : List (List Bool)}
    (hl : q.map List.length = regs.map List.length) :
    (pushBits regs (pat ++ held q)).1 = q ∧ (pushBits regs (pat ++ held q)).2 = held regs ++ pat := by
  obtain ⟨bits, count, lengths⟩ := pushBits_spec h (pat ++ held q)
  have same : (held (pushBits regs (pat ++ held q)).1).length = (held q).length := by
    rw [held_length, held_length, lengths, hl]
  rw [← List.append_assoc] at bits
  obtain ⟨out, stay⟩ := List.append_inj' bits same
  refine ⟨?_, out⟩
  have reversed : (pushBits regs (pat ++ held q)).1.reverse = q.reverse := by
    rw [List.eq_iff_flatten_eq]
    exact ⟨stay, by rw [List.map_reverse, List.map_reverse, lengths, hl]⟩
  exact List.reverse_inj.mp reversed

/-! ### The shifts of a pass (R90, R96, R97) -/

/-- A way for registers to stand in nodes, in which an edge with CT low shifts them. -/
structure Shifts (before after : Node → List Bool → Node) : Prop where
  edge : ∀ n r d, ((before n r).edge false d) = (after n (r.tail ++ [d]), r.headD false)

theorem chainEdge_shifts {f g : Node → List Bool → Node} (h : Shifts f g) (hl : ns.length = regs.length) (d : Bool) :
    chainEdge (List.zipWith f ns regs) false d = (List.zipWith g ns (pushBit regs d).1, (pushBit regs d).2) := by
  induction ns generalizing regs d with
  | nil =>
    cases regs with
    | nil => rfl
    | cons r rest => exact absurd hl (by simp)
  | cons n ns ih =>
    cases regs with
    | nil => exact absurd hl (by simp)
    | cons r rest =>
      have hl' : ns.length = rest.length := by simpa using hl
      show (let q := (f n r).edge false d
        let p := chainEdge (List.zipWith f ns rest) false q.2
        (q.1 :: p.1, p.2)) = _
      rw [h.edge]
      dsimp only
      rw [ih hl']
      rfl

/-- What comes back with the noise on the way to the part. -/
def noisy : List Bool → List Bool → List Bool
  | [], _ => []
  | b :: bs, back => (b != back.headD false) :: noisy bs back.tail

theorem noisy_none (l : List Bool) : noisy l [] = l := by
  induction l with
  | nil => rfl
  | cons b l ih => simp [noisy, ih]

theorem noisy_length (l back : List Bool) : (noisy l back).length = l.length := by
  induction l generalizing back with
  | nil => rfl
  | cons b l ih => simp [noisy, ih]

/-- A disturbed bit comes back inverted. -/
theorem noisy_flips {l back : List Bool} {i : Nat} (hi : i < l.length) (hd : back[i]? = some true) :
    (noisy l back)[i]? = some (!l[i]) := by
  induction l generalizing back i with
  | nil => exact absurd hi (by simp)
  | cons b l ih =>
    cases back with
    | nil => exact absurd hd (by simp)
    | cons e back =>
      cases i with
      | zero =>
        have : e = true := by simpa using hd
        subst this
        cases b <;> rfl
      | succ i => exact ih (by simpa using hi) (by simpa using hd)

theorem shift_rest {g : Node → List Bool → Node} (h : Shifts g g) (hl : ns.length = regs.length)
    (back got ds : List Bool) : shift (List.zipWith g ns regs) ⟨[], back⟩ got (fixedBits ds) =
      (List.zipWith g ns (pushBits regs ds).1, got ++ noisy (pushBits regs ds).2 back, ⟨[], back.drop ds.length⟩) := by
  induction ds generalizing regs back got with
  | nil => simp [fixedBits, shift, pushBits, noisy]
  | cons d ds ih =>
    have lengths : ns.length = (pushBit regs d).1.length := hl.trans (pushBit_length regs d).symm
    show shift (chainEdge (List.zipWith g ns regs) false (d != false)).1 ⟨[], back.tail⟩
      (got ++ [(chainEdge (List.zipWith g ns regs) false (d != false)).2 != back.headD false]) (fixedBits ds) = _
    rw [Bool.bne_false, chainEdge_shifts h hl, ih lengths]
    simp [pushBits, noisy]

/-- The bits sent on an undisturbed way out: the first edge takes the nodes from one standing to the next. -/
theorem shift_fixed {f g : Node → List Bool → Node} (hf : Shifts f g) (hg : Shifts g g) (hl : ns.length = regs.length)
    (back : List Bool) (d : Bool) (ds : List Bool) :
    shift (List.zipWith f ns regs) ⟨[], back⟩ [] (fixedBits (d :: ds)) =
      (List.zipWith g ns (pushBits regs (d :: ds)).1, noisy (pushBits regs (d :: ds)).2 back,
        ⟨[], back.drop (d :: ds).length⟩) := by
  have lengths : ns.length = (pushBit regs d).1.length := hl.trans (pushBit_length regs d).symm
  show shift (chainEdge (List.zipWith f ns regs) false (d != false)).1 ⟨[], back.tail⟩
    ([] ++ [(chainEdge (List.zipWith f ns regs) false (d != false)).2 != back.headD false]) (fixedBits ds) = _
  rw [Bool.bne_false, chainEdge_shifts hf hl, shift_rest hg lengths]
  simp [pushBits, noisy]

/-- A check pattern and the bits that fill the registers: these stand in the nodes then, and what stood there comes
back, the pattern behind it (R96, R97). -/
theorem shift_fills {f g : Node → List Bool → Node} {q : List (List Bool)} {pat : List Bool} (hf : Shifts f g)
    (hg : Shifts g g) (hl : ns.length = regs.length) (h : ∀ r ∈ regs, r ≠ []) (hp : pat ≠ [])
    (hq : q.map List.length = regs.map List.length) (back : List Bool) :
    shift (List.zipWith f ns regs) ⟨[], back⟩ [] (fixedBits (pat ++ held q)) =
      (List.zipWith g ns q, noisy (held regs ++ pat) back, ⟨[], back.drop (pat ++ held q).length⟩) := by
  obtain ⟨stay, out⟩ := pushBits_fills h (pat := pat) hq
  obtain ⟨d, ds, rfl⟩ := List.exists_cons_of_ne_nil hp
  rw [List.cons_append] at *
  rw [shift_fixed hf hg hl, stay, out]

/-! ### Edges that do not shift (R89) -/

/-- An edge at which no node hands a bit on acts on each node by itself. -/
theorem chainEdge_still {ct : Bool} (h : ∀ n ∈ ns, (n.edge ct false).2 = false) :
    (chainEdge ns ct false).1 = ns.map fun n => (n.edge ct false).1 := by
  induction ns with
  | nil => rfl
  | cons n ns ih =>
    obtain ⟨first, others⟩ := List.forall_mem_cons.mp h
    show (n.edge ct false).1 :: (chainEdge ns ct (n.edge ct false).2).1 = _
    rw [first, ih others]
    rfl

theorem zipWith_self {α β : Type} {f : α → β → α} {g : α → β} {l : List α} (h : ∀ x ∈ l, f x (g x) = x) :
    List.zipWith f l (l.map g) = l := by
  rw [List.zipWith_map_right, List.zipWith_self]
  exact (List.map_congr_left h).trans (List.map_id _)

end Sys2Proof.Machine
end

/-! ## What the edges of a pass do at the nodes -/

section
namespace Sys2Proof.Machine

variable {s : State} {b : BankIx} {now : Millis} {modes : List NodeMode} {ns : List Node} {n x y : Node}

/-! ### Edges at one node (R89) -/

theorem edge_rest (h : n.phase = .rest) : n.edge false false = ({ n with phase := .entry }, false) := by
  simp only [Node.edge, h]

theorem edge_entry (h : n.phase = .entry) :
    n.edge false false = ({ n with phase := .cellTake, reg := n.captured }, false) := by
  simp only [Node.edge, h]

theorem edge_modeLoad (h : n.phase = .modeLoad) :
    n.edge true false = ({ n with phase := .modeSet, mode := modeOf n.stage }, false) := by
  simp only [Node.edge, h]

theorem edge_modeSet (h : n.phase = .modeSet) : n.edge true false = ({ n with phase := .rest }, false) := by
  simp only [Node.edge, h]

theorem edge_cellMove (h : n.phase = .cellMove) : n.edge true false = ({ n with phase := .cellHold }, false) := by
  simp only [Node.edge, h]

theorem edge_cellHold (h : n.phase = .cellHold) :
    n.edge true false = ({ n.applyCell with phase := .cellSet }, false) := by
  simp only [Node.edge, h]

theorem edge_cellSet (h : n.phase = .cellSet) : n.edge true false = ({ n with phase := .rest }, false) := by
  simp only [Node.edge, h]

/-! ### The edges around the shifting (R96, R97) -/

/-- Two edges that do not shift, at each node by itself. -/
theorem chainEdges_two {c d : Bool} {f g : Node → Node} (hf : ∀ n ∈ ns, n.edge c false = (f n, false))
    (hg : ∀ n ∈ ns, (f n).edge d false = (g n, false)) : chainEdges ns [c, d] = ns.map g := by
  have first : (chainEdge ns c false).1 = ns.map f := by
    rw [chainEdge_still fun n hn => by rw [hf n hn]]
    exact List.map_congr_left fun n hn => by rw [hf n hn]
  show (chainEdge (chainEdge ns c false).1 d false).1 = _
  rw [first, chainEdge_still fun n hn => ?_, List.map_map]
  · exact List.map_congr_left fun n hn => congrArg Prod.fst (hg n hn)
  · obtain ⟨m, hm, rfl⟩ := List.mem_map.mp hn
    rw [hg m hm]

/-- A node at the start of a data pass (R97). -/
def Node.taking (n : Node) : Node := { n with phase := .cellTake, reg := n.captured }

theorem enterData_eq (h : ∀ n ∈ ns, n.phase = .rest) : enterData ns = ns.map Node.taking :=
  chainEdges_two (fun n hn => edge_rest (h n hn)) fun _ _ => edge_entry rfl

/-- A node once its mode stage has taken effect (R91, R94). -/
def Node.staged (n : Node) (now : Millis) : Node :=
  ({ n with phase := .rest, mode := modeOf n.stage } : Node).timed now

theorem leaveMode_eq (h : ∀ n ∈ ns, n.phase = .modeLoad) (now : Millis) :
    leaveMode now ns = ns.map fun n => n.staged now := by
  show (chainEdges ns [true, true]).map _ = _
  rw [chainEdges_two (fun n hn => edge_modeLoad (h n hn)) fun _ _ => edge_modeSet rfl, List.map_map]
  rfl

/-- A node once the cell in its register has been applied (R92, R94). -/
def Node.applied (n : Node) (now : Millis) : Node := ({ n.applyCell with phase := .rest } : Node).timed now

theorem parkData_eq (h : ∀ n ∈ ns, n.phase = .cellMove) :
    parkData ns = ns.map fun n => { n with phase := .cellHold } := by
  show (chainEdge ns true false).1 = _
  rw [chainEdge_still fun n hn => by rw [edge_cellMove (h n hn)]]
  exact List.map_congr_left fun n hn => by rw [edge_cellMove (h n hn)]

theorem setData_eq (h : ∀ n ∈ ns, n.phase = .cellHold) (now : Millis) :
    setData now ns = ns.map fun n => n.applied now := by
  show (chainEdges ns [true, true]).map _ = _
  rw [chainEdges_two (fun n hn => edge_cellHold (h n hn)) fun _ _ => edge_cellSet rfl, List.map_map]
  rfl

/-! ### The mode pass (R96, R98) -/

/-- A node in MODE-LOAD with the bits of its mode stage. -/
def Node.loading (n : Node) (r : List Bool) : Node := { n with phase := .modeLoad, stage := r }

theorem loading_shifts : Shifts Node.loading Node.loading := ⟨fun _ _ _ => rfl⟩

theorem modeBits_eq : modeBits modes = held (modes.map NodeMode.bits) := by
  simp only [modeBits, held, List.flatMap, List.map_reverse]

theorem modeOf_bits (m : NodeMode) : modeOf m.bits = m := by cases m <;> rfl

theorem bits_length (m : NodeMode) : m.bits.length = 2 := by cases m <;> rfl

theorem pattern_length (k : Bank) : (pattern k).length = 8 := by simp [pattern, bitsOf]

theorem pattern_ne_nil (k : Bank) : pattern k ≠ [] := List.ne_nil_of_length_pos (by rw [pattern_length]; decide)

/-- The bits of the preset stages, as they leave. -/
theorem held_preset (n : Nat) : held (List.replicate n [true, false]) = (List.replicate n [true, false]).flatten := by
  rw [held, List.reverse_replicate]

theorem preset_length (n : Nat) : (List.replicate n [true, false]).flatten.length = 2 * n := by
  simp [List.length_flatten, Nat.mul_comm]

/-- Nodes at the start of a mode pass, and the modes they are to take. -/
structure ModesDue (ns : List Node) (modes : List NodeMode) : Prop where
  lengths : modes.length = ns.length
  preset : ∀ x ∈ ns, x.phase = .modeLoad ∧ x.stage = [true, false]

/-- The shifting of a mode pass on an undisturbed way out: every stage holds its mode, and the presets and the check
pattern come back. -/
theorem ModesDue.shifted (h : ModesDue ns modes) (k : Bank) (back : List Bool) :
    shift ns ⟨[], back⟩ [] (fixedBits (pattern k ++ modeBits modes)) =
      (List.zipWith Node.loading ns (modes.map NodeMode.bits),
        noisy ((List.replicate ns.length [true, false]).flatten ++ pattern k) back,
        ⟨[], back.drop (pattern k ++ modeBits modes).length⟩) := by
  have standing : List.zipWith Node.loading ns (List.replicate ns.length [true, false]) = ns := by
    have whole := zipWith_self (f := Node.loading) (g := fun _ : Node => [true, false]) (l := ns) fun x hx => by
      obtain ⟨phase, stage⟩ := h.preset x hx
      unfold Node.loading
      rw [← phase, ← stage]
    rwa [List.map_const'] at whole
  have lengths : (modes.map NodeMode.bits).map List.length = (List.replicate ns.length [true, false]).map List.length := by
    rw [List.map_map, List.map_replicate, ← h.lengths, ← List.map_const']
    exact List.map_congr_left fun m _ => bits_length m
  have fills := shift_fills (ns := ns) loading_shifts loading_shifts (List.length_replicate ..).symm (fun r hr => by
    rw [List.eq_of_mem_replicate hr]; exact List.cons_ne_nil _ _) (pattern_ne_nil k) lengths back
  rw [standing, held_preset, ← modeBits_eq] at fills
  exact fills

/-- A node that has taken a mode (R91, R94). -/
def Node.moded (now : Millis) (n : Node) (m : NodeMode) : Node :=
  ({ n with phase := .rest, mode := m, stage := m.bits } : Node).timed now

theorem leaveMode_loading (ns : List Node) (modes : List NodeMode) (now : Millis) :
    leaveMode now (List.zipWith Node.loading ns (modes.map NodeMode.bits)) = List.zipWith (Node.moded now) ns modes := by
  rw [leaveMode_eq fun n hn => ?_, List.map_zipWith, List.zipWith_map_right]
  · congr 1
    funext n m
    show ({ n with phase := .rest, mode := modeOf m.bits, stage := m.bits } : Node).timed now = _
    rw [modeOf_bits]
    rfl
  · obtain ⟨i, hi, rfl⟩ := List.mem_iff_getElem.mp hn
    rw [List.getElem_zipWith]
    rfl

/-- The judgement of what came back (R98). -/
theorem modePassOk_iff {n : Nat} {pat got : List Bool} (hp : pat.length = 8) (hg : got.length = 2 * n + 8) :
    modePassOk n pat got = true ↔ got = (List.replicate n [true, false]).flatten ++ pat := by
  have whole : got = got.take (2 * n) ++ (got.drop (2 * n)).take 8 := by
    rw [List.take_of_length_le (l := got.drop _) (by simp [hg]), List.take_append_drop]
  rw [modePassOk, Bool.and_eq_true, decide_eq_true_iff, decide_eq_true_iff]
  constructor
  · rintro ⟨first, last⟩
    rw [whole, first, last]
  · intro e
    rw [e]
    have len := preset_length n
    exact ⟨by rw [← len, List.take_left], by rw [← len, List.drop_left, List.take_of_length_le (by omega)]⟩

/-- A mode pass on an undisturbed way out sets every mode. -/
theorem ModesDue.nodes (h : ModesDue (s.chain b) modes) (back : List Bool) :
    (modePass s b modes ⟨[], back⟩).1 = s.setChain b (List.zipWith (Node.moded s.clock.ms) (s.chain b) modes) := by
  show s.setChain b (leaveMode s.clock.ms (shift (s.chain b) _ [] _).1) = _
  rw [h.shifted, leaveMode_loading]

/-- A mode pass is judged by what comes back alone. -/
theorem ModesDue.judged (h : ModesDue (s.chain b) modes) (back : List Bool) :
    (modePass s b modes ⟨[], back⟩).2 = modePassOk modes.length (pattern (s.bank b))
      (noisy ((List.replicate modes.length [true, false]).flatten ++ pattern (s.bank b)) back) := by
  show modePassOk _ _ (shift (s.chain b) _ [] _).2.1 = _
  rw [h.shifted, h.lengths]

theorem preset_pattern_length (n : Nat) (k : Bank) :
    ((List.replicate n [true, false]).flatten ++ pattern k).length = 2 * n + 8 := by
  rw [List.length_append, preset_length, pattern_length]

theorem ModesDue.passes (h : ModesDue (s.chain b) modes) : (modePass s b modes Noise.none).2 = true := by
  show (modePass s b modes ⟨[], []⟩).2 = true
  rw [h.judged, noisy_none, modePassOk_iff (pattern_length _) (preset_pattern_length _ _)]

/-- A disturbed bit on its way back fails the pass. -/
theorem ModesDue.fails (h : ModesDue (s.chain b) modes) {back : List Bool} {i : Nat}
    (hi : i < 2 * (s.chain b).length + 8) (hd : back[i]? = some true) : (modePass s b modes ⟨[], back⟩).2 = false := by
  rw [h.judged, Bool.eq_false_iff, Ne, modePassOk_iff (pattern_length _) (by
    rw [noisy_length, preset_pattern_length])]
  intro same
  have inside : i < ((List.replicate modes.length [true, false]).flatten ++ pattern (s.bank b)).length := by
    rw [preset_pattern_length, h.lengths]
    exact hi
  have flipped := noisy_flips inside hd
  rw [same, List.getElem?_eq_getElem inside] at flipped
  exact absurd (Option.some.inj flipped).symm (by simp)

end Sys2Proof.Machine
end

/-! ## The failure of a pass -/

section
namespace Sys2Proof.Machine

variable {s t m : State} {b d : BankIx} {ns : List Node} {next : State → State} {code : FaultCode} {count : Nat}
  {unit : Option UnitIx} {st : BankState}

/-- What a controller does once a pass is over: the chain becomes free, and nothing but the bank and its chain is
touched (R99). -/
structure Frees (b : BankIx) (next : State → State) : Prop where
  frame : ∀ s, next s = { s with banks := (next s).banks, chains := (next s).chains }
  others : ∀ s d, d ≠ b → (next s).bank d = s.bank d ∧ (next s).chain d = s.chain d
  freed : ∀ s, ChainFreed s (next s) b
  state : ∀ s, ((next s).bank b).state = (s.bank b).state
  failures : ∀ s, ((next s).bank b).failures = (s.bank b).failures

/-- The fields of a bank's record that a chain that becomes free leaves alone. -/
theorem chainFree_bank (s : State) (b : BankIx) : (chainFree s b).bank b = { s.bank b with
    activity := ((chainFree s b).bank b).activity, passCount := ((chainFree s b).bank b).passCount
    owed := ((chainFree s b).bank b).owed, cycleBegun := ((chainFree s b).bank b).cycleBegun } := by
  obtain ⟨⟨_, idle, begins⟩, _, _⟩ := chainFree_freed s b
  by_cases h : (s.bank b).owed = none ∨ s.restart ≠ none
  · rw [(idle h).1]
  · obtain ⟨owed, restart⟩ := not_or.mp h
    have e := (begins owed (not_not.mp restart)).1
    generalize (chainFree s b).bank b = k at *
    rw [e]

theorem chainFree_frees (b : BankIx) : Frees b fun s => chainFree s b where
  frame s := (chainFree_freed s b).2.1
  others s := (chainFree_freed s b).2.2
  freed s := (chainFree_freed s b).1.1
  state s := by rw [chainFree_bank]
  failures s := by rw [chainFree_bank]

theorem releaseAll_bank (s : State) (b : BankIx) : (releaseAll s b).bank b =
    { s.bank b with release := (s.bank b).release + (s.bank b).granted.length, granted := [] } := modBank_bank_self

/-- The chain of a fetch cycle that failed: its reservations go first (R102). -/
theorem chainFree_releaseAll_frees (b : BankIx) : Frees b fun s => chainFree (releaseAll s b) b where
  frame s := (chainFree_freed (releaseAll s b) b).2.1
  others s d hd := by
    obtain ⟨bank, chain⟩ := (chainFree_freed (releaseAll s b) b).2.2 d hd
    exact ⟨bank.trans (setBank_bank_other s b d _ hd), chain⟩
  freed s := by
    have freed := (chainFree_freed (releaseAll s b) b).1.1
    have bank := releaseAll_bank s b
    unfold ChainFreed at *
    rw [bank] at freed
    exact freed
  state s := by rw [chainFree_bank, releaseAll_bank]
  failures s := by rw [chainFree_bank, releaseAll_bank]

theorem chainFree_releaseAll_released (s : State) (b : BankIx) :
    ((chainFree (releaseAll s b) b).bank b).granted = [] ∧
      ((chainFree (releaseAll s b) b).bank b).release = (s.bank b).release + (s.bank b).granted.length := by
  rw [chainFree_bank, releaseAll_bank]
  exact ⟨rfl, rfl⟩

/-! ### A bank enters FAULTED (R110) -/

/-- The record of a bank that has entered FAULTED. -/
def Bank.faulted (k : Bank) (code : FaultCode) (now : Millis) : Bank :=
  { k.leave .faulted with retryAt := now + 5000, faultCode := some code, faultedMark := true }

/-- Whether BANK_FAULT is passed over: an enumeration found the same fault again (R110). -/
def Bank.sameFault (k : Bank) (code : FaultCode) : Bool :=
  k.state = .enumerating && k.faultedMark && k.faultCode = some code

theorem enterFaulted_eq (s : State) (b : BankIx) (code : FaultCode) (count : Nat) (unit : Option UnitIx) :
    enterFaulted s b code count unit =
      { (moveBank s b .faulted).modBank b (fun k =>
          { k with retryAt := s.clock.ms + 5000, faultCode := some code, faultedMark := true }) with
        notices := if (s.bank b).sameFault code then s.notices
          else s.notices.post (s.notice .bankFault code.code unit none (b.1 + count * 256)) } := by
  have frame := (moveBank_acts s b .faulted).1
  have notices : (moveBank s b .faulted).notices = s.notices := by rw [frame]; rfl
  have clock : (moveBank s b .faulted).clock = s.clock := by rw [frame]; rfl
  unfold enterFaulted
  show (if (s.bank b).sameFault code then _ else _) = _
  generalize moveBank s b .faulted = u at *
  split_ifs
  · rw [← notices]; rfl
  · rw [← notices, State.notice, ← clock]; rfl

theorem enterFaulted_bank (s : State) (b : BankIx) (code : FaultCode) (count : Nat) (unit : Option UnitIx) :
    (enterFaulted s b code count unit).bank b = (s.bank b).faulted code s.clock.ms := by
  have bank : (moveBank s b .faulted).bank b = (s.bank b).leave .faulted :=
    ((moveBank_acts s b .faulted).bank b).trans (setBank_bank_self _ b _)
  rw [enterFaulted_eq]
  generalize moveBank s b .faulted = u at *
  show (u.setBank b _).bank b = _
  rw [setBank_bank_self, bank]
  rfl

theorem enterFaulted_loses (s : State) (b : BankIx) (code : FaultCode) (count : Nat) (unit : Option UnitIx) :
    BankLoses s (enterFaulted s b code count unit) b := by
  have loses := moveBank_loses (s := s) (b := b) (st := .faulted) (by decide)
  rw [enterFaulted_eq]
  generalize moveBank s b .faulted = u at *
  exact loses.congr rfl rfl rfl rfl rfl rfl rfl

/-- What a bank that enters FAULTED leaves alone. -/
theorem enterFaulted_frame (s : State) (b : BankIx) (code : FaultCode) (count : Nat) (unit : Option UnitIx) :
    enterFaulted s b code count unit = { s with
      units := (enterFaulted s b code count unit).units, drive := (enterFaulted s b code count unit).drive
      engine := { s.engine with inbox := (enterFaulted s b code count unit).engine.inbox }
      banks := (enterFaulted s b code count unit).banks
      notices := if (s.bank b).sameFault code then s.notices
        else s.notices.post (s.notice .bankFault code.code unit none (b.1 + count * 256)) } := by
  obtain ⟨frame, engine, -, -⟩ := moveBank_acts s b .faulted
  rw [enterFaulted_eq]
  generalize moveBank s b .faulted = u at *
  rw [frame]
  show _ = _
  rw [engine]
  rfl

theorem enterFaulted_others (hd : d ≠ b) : (enterFaulted s b code count unit).bank d = s.bank d ∧
    (enterFaulted s b code count unit).chain d = s.chain d := by
  have bank : (moveBank s b .faulted).bank d = s.bank d :=
    ((moveBank_acts s b .faulted).bank d).trans (setBank_bank_other s b d _ hd)
  have chain := moveBank_chain s b d .faulted
  rw [enterFaulted_eq]
  generalize moveBank s b .faulted = u at *
  exact ⟨(setBank_bank_other u b d _ hd).trans bank, chain⟩

/-! ### The pass that failed (R98) -/

/-- The state in which a failed pass has been counted. -/
def State.counted (s : State) (b : BankIx) : State := s.setFailures b ((s.bank b).failures + 1)

theorem counted_bank (s : State) (b : BankIx) :
    (s.counted b).bank b = { s.bank b with failures := (s.bank b).failures + 1 } := modBank_bank_self

theorem passFailed_below (h : (s.bank b).failures + 1 < 3) : passFailed s b next = next (s.counted b) := by
  unfold passFailed
  show (if ((s.counted b).bank b).failures < 3 then next (s.counted b) else _) = _
  rw [counted_bank, if_pos h]

theorem passFailed_faults (h : 3 ≤ (s.bank b).failures + 1) :
    passFailed s b next = enterFaulted (s.counted b) b .integrity 0 none := by
  unfold passFailed
  show (if ((s.counted b).bank b).failures < 3 then _ else enterFaulted (s.counted b) b .integrity 0 none) = _
  rw [counted_bank, if_neg (Nat.not_lt.mpr h)]

/-- What a failed pass leaves alone. -/
theorem passFailed_frame (hn : Frees b next) (s : State) : passFailed s b next = { s with
    units := (passFailed s b next).units, drive := (passFailed s b next).drive
    engine := { s.engine with inbox := (passFailed s b next).engine.inbox }
    banks := (passFailed s b next).banks, chains := (passFailed s b next).chains
    notices := (passFailed s b next).notices } := by
  by_cases h : (s.bank b).failures + 1 < 3
  · rw [passFailed_below h, hn.frame]
    rfl
  · rw [passFailed_faults (Nat.not_lt.mp h)]
    have frame := enterFaulted_frame (s.counted b) b .integrity 0 none
    generalize enterFaulted (s.counted b) b .integrity 0 none = t at *
    rw [frame]
    rfl

/-- BankLoses speaks of the state of the bank alone. -/
theorem BankLoses.congr_state (h : BankLoses s t b) (hu : m.units = s.units) (hd : m.drive = s.drive)
    (hs : (m.bank b).state = (s.bank b).state) (hi : m.engine.inbox = s.engine.inbox) : BankLoses m t b := by
  have hm : m.bankMoves b = s.bankMoves b := by
    unfold State.bankMoves State.deferredOf State.unit
    rw [hd, hu]
  unfold BankLoses OthersKept State.unit at *
  rw [hu, hd, hs, hi, hm]
  exact h

/-- A pass of a RUNNING bank has failed, its nodes standing as the shifting left them (R98). -/
theorem passFailed_failed (hn : Frees b next) (hr : (s.bank b).state = .running) (ns : List Node) :
    PassFailed s (passFailed (s.setChain b ns) b next) b := by
  have bank := counted_bank (s.setChain b ns) b
  have bankOther : ∀ d, d ≠ b → ((s.setChain b ns).counted b).bank d = s.bank d := fun d hd =>
    setBank_bank_other (s.setChain b ns) b d _ hd
  have chainOther : ∀ d, d ≠ b → ((s.setChain b ns).counted b).chain d = s.chain d := fun d hd =>
    setChain_chain_other s b d ns hd
  by_cases h : (s.bank b).failures + 1 < 3
  · rw [passFailed_below (s := s.setChain b ns) h]
    generalize hm : (s.setChain b ns).counted b = m at *
    have frame := hn.frame m
    have freed := hn.freed m
    unfold ChainFreed at freed
    rw [bank] at freed
    refine ⟨?_, fun d hd => ?_, ?_, fun _ => ⟨?_, ?_, ?_, ?_, ?_, ?_⟩, fun h' => absurd h (Nat.not_lt.mpr h')⟩
    · rw [hn.failures, bank]; rfl
    · exact ⟨(hn.others m d hd).1.trans (bankOther d hd), (hn.others m d hd).2.trans (chainOther d hd)⟩
    · rw [frame, ← hm]; rfl
    · rw [hn.state, bank]; exact hr
    · rw [frame, ← hm]; rfl
    · rw [frame, ← hm]; rfl
    · rw [frame, ← hm]; rfl
    · rw [frame, ← hm]; rfl
    · subst hm
      exact freed
  · have most := Nat.not_lt.mp h
    rw [passFailed_faults (s := s.setChain b ns) most]
    have faulted := enterFaulted_bank ((s.setChain b ns).counted b) b .integrity 0 none
    have frame := enterFaulted_frame ((s.setChain b ns).counted b) b .integrity 0 none
    have loses := enterFaulted_loses ((s.setChain b ns).counted b) b .integrity 0 none
    rw [bank] at faulted frame
    have fresh : ¬({ (s.setChain b ns).bank b with
        failures := ((s.setChain b ns).bank b).failures + 1 } : Bank).sameFault .integrity = true := by
      have : (s.setChain b ns).bank b = s.bank b := rfl
      simp [Bank.sameFault, this, hr]
    rw [if_neg fresh] at frame
    refine ⟨by rw [faulted]; rfl, fun d hd => ?_, ?_, fun h' => absurd h' h, fun _ => ⟨faulted, ?_, ?_⟩⟩
    · obtain ⟨k, l⟩ := enterFaulted_others (s := (s.setChain b ns).counted b) (code := .integrity) (count := 0)
        (unit := none) hd
      exact ⟨k.trans (bankOther d hd), l.trans (chainOther d hd)⟩
    · generalize enterFaulted _ b .integrity 0 none = t at *
      rw [frame]; rfl
    · generalize enterFaulted _ b .integrity 0 none = t at *
      rw [frame]; rfl
    · exact loses.congr_state rfl rfl (congrArg Bank.state bank).symm rfl

end Sys2Proof.Machine
end

/-! ## The mode pass of a status and of a fetch cycle -/

section
namespace Sys2Proof.Machine

variable {s t : State} {b : BankIx} {now : Millis} {modes : List NodeMode} {ns : List Node} {u v : UnitIx}
  {us : List UnitIx} {f : UnitRec → UnitRec} {p : LampPlan} {m : NodeMode}

/-! ### The units of a pass -/

theorem unitsOf_nodup (b : BankIx) : (unitsOf b).Nodup := by
  refine (List.nodup_finRange 64).map fun p q h => Fin.ext ?_
  have values : b.1 * 64 + p.1 = b.1 * 64 + q.1 := congrArg Fin.val h
  omega

theorem map_fst_zip_sublist {α β : Type} (l : List α) (k : List β) : ((l.zip k).map Prod.fst).Sublist l := by
  induction l generalizing k with
  | nil => exact .slnil
  | cons a l ih =>
    cases k with
    | nil => exact List.nil_sublist _
    | cons e k => exact (ih k).cons_cons a

theorem unitsIn_eq (b : BankIx) (modes : List NodeMode) (m : NodeMode) :
    unitsIn b modes m = (((unitsOf b).zip modes).filter fun um => um.2 = m).map Prod.fst := by
  unfold unitsIn
  induction (unitsOf b).zip modes with
  | nil => rfl
  | cons um l ih =>
    by_cases h : um.2 = m
    · simp [h, ih]
    · simp [h, ih]

theorem mem_unitsIn : u ∈ unitsIn b modes m ↔ (u, m) ∈ (unitsOf b).zip modes := by
  rw [unitsIn_eq]
  simp

theorem unitsIn_nodup (b : BankIx) (modes : List NodeMode) (m : NodeMode) : (unitsIn b modes m).Nodup := by
  rw [unitsIn_eq]
  refine List.Nodup.sublist (List.filter_sublist.map Prod.fst) ?_
  exact (unitsOf_nodup b).sublist (map_fst_zip_sublist _ _)

/-- Units changed one after another, each by the same function. -/
theorem modUnits_unit (hd : us.Nodup) (s : State) (v : UnitIx) :
    (us.foldl (fun t u => t.modUnit u f) s).unit v = if v ∈ us then f (s.unit v) else s.unit v := by
  induction us generalizing s with
  | nil => simp
  | cons u us ih =>
    obtain ⟨out, rest⟩ := List.nodup_cons.mp hd
    rw [List.foldl_cons, ih rest]
    by_cases e : v = u
    · subst e
      simp [out]
    · simp [modUnit_unit_other, e]

theorem modUnits_frame (us : List UnitIx) (f : UnitRec → UnitRec) (s : State) :
    us.foldl (fun t u => t.modUnit u f) s = { s with units := (us.foldl (fun t u => t.modUnit u f) s).units } := by
  induction us generalizing s with
  | nil => rfl
  | cons u us ih =>
    rw [List.foldl_cons, ih]
    rfl

/-- The units changed depend on the units alone. -/
theorem modUnits_units (us : List UnitIx) (f : UnitRec → UnitRec) (h : t.units = s.units) :
    (us.foldl (fun t u => t.modUnit u f) t).units = (us.foldl (fun t u => t.modUnit u f) s).units := by
  induction us generalizing s t with
  | nil => exact h
  | cons u us ih => exact ih (by simp [State.modUnit, State.setUnit, State.unit, h])

/-! ### The lamp of a command (R50) -/

/-- The transient's end time has come. -/
def LampPlan.ended (p : LampPlan) (now : Millis) : Bool :=
  match p.transient with
  | some (_, e) => reached now e
  | none => false

theorem shown_eq (p : LampPlan) (now : Millis) : p.shown now = match p.transient with
    | some (l, _) => if p.ended now then p.steady else l
    | none => p.steady := by
  unfold LampPlan.shown LampPlan.ended
  split
  next h => simp [h]
  next h => simp [h]

theorem sent_eq (p : LampPlan) (now : Millis) : p.sent now =
    { p with transient := if p.ended now then none else p.transient, beepSent := p.beep } := by
  obtain ⟨_, _ | ⟨l, e⟩, _, _⟩ := p
  · rfl
  · unfold LampPlan.sent LampPlan.pruned LampPlan.ended
    cases h : reached now e <;> simp [h]

theorem lampCode_eq (l : Lamp) :
    l.code = ([.off, .green, .red, .amber, .greenFlash, .redFlash, .amberFlash] : List Lamp).idxOf l := by
  cases l <;> rfl

theorem commandOf_eq (s : State) (b : BankIx) (u : UnitIx) : s.commandOf b u =
    bitsOf 2 (match s.opFor u with | none => 0 | some .throw => 1 | some .withdraw => 2) ++
      bitsOf 4 (if (s.opFor u).isSome then (s.bankRec b).pulseLength else 1) ++
      bitsOf 3 (([.off, .green, .red, .amber, .greenFlash, .redFlash, .amberFlash] : List Lamp).idxOf
        ((s.unit u).lamp.shown s.clock.ms)) ++ [(s.unit u).lamp.beep, false, false] := by
  rw [← lampCode_eq]
  unfold State.commandOf commandBits
  cases s.opFor u with
  | none => rfl
  | some op => cases op <;> rfl

/-! ### The data pass of a status cycle begins (R100) -/

/-- The units once their commands are built. -/
def State.plansSent (s : State) (b : BankIx) (modes : List NodeMode) : State :=
  (unitsIn b modes .status).foldl (fun t u => t.modUnit u fun r => { r with lamp := r.lamp.sent s.clock.ms }) s

theorem plansSent_unit (s : State) (b : BankIx) (modes : List NodeMode) (u : UnitIx) :
    (s.plansSent b modes).unit u = if (u, NodeMode.status) ∈ (unitsOf b).zip modes then
      { s.unit u with lamp := (s.unit u).lamp.sent s.clock.ms } else s.unit u := by
  unfold State.plansSent
  rw [modUnits_unit (unitsIn_nodup b modes .status)]
  exact if_congr mem_unitsIn rfl rfl

theorem plansSent_frame (s : State) (b : BankIx) (modes : List NodeMode) :
    s.plansSent b modes = { s with units := (s.plansSent b modes).units } := modUnits_frame _ _ s

/-- The ops a status data pass sends, as a list of units and pulse lengths. -/
theorem opsSent_eq (s : State) (b : BankIx) (modes : List NodeMode) :
    (unitsIn b modes .status).filterMap (fun u => (s.opFor u).map fun _ => (u, (s.bankRec b).pulseLength)) =
      (((unitsOf b).zip modes).filter fun um => um.2 = .status ∧ (s.opFor um.1).isSome).map fun um =>
        (um.1, (s.bankRec b).pulseLength) := by
  rw [unitsIn_eq]
  induction (unitsOf b).zip modes with
  | nil => rfl
  | cons um l ih =>
    by_cases h : um.2 = .status
    · cases ho : s.opFor um.1 with
      | none => simpa [h, ho] using ih
      | some op => simpa [h, ho] using ih
    · simpa [h] using ih

/-- A status data pass begins: the bits, the counter, the plans and the nodes. -/
theorem beginStatusData_eq (s : State) (b : BankIx) (modes : List NodeMode) : beginStatusData s b modes =
    ((s.plansSent b modes).modBank b fun k => { k with
      passCount := k.passCount + 1
      activity := .statusData modes (s.statusBits b modes) s.clock.ms
        ((((unitsOf b).zip modes).filter fun um => um.2 = .status ∧ (s.opFor um.1).isSome).map fun um =>
          (um.1, (s.bankRec b).pulseLength)) }).setChain b (enterData (s.chain b)) := by
  have chains : (s.plansSent b modes).chain b = s.chain b := by rw [plansSent_frame]; rfl
  rw [← opsSent_eq]
  unfold beginStatusData beginData
  show ((s.plansSent b modes).modBank b _).setChain b (enterData ((s.plansSent b modes).chain b)) = _
  rw [chains]

end Sys2Proof.Machine
end

/-! ## What a mode pass does -/

section
namespace Sys2Proof.Machine

variable {s t : State} {b d : BankIx} {now : Millis} {modes : List NodeMode} {ns : List Node} {m : NodeMode} {x y : Node}
  {us : Vector UnitRec 512} {k : Bank} {i : Nat} {back : List Bool}

/-! ### The nodes (R91, R94, R97) -/

/-- The nodes once a mode pass has ended. -/
def modedNodes (now : Millis) (ns : List Node) (modes : List NodeMode) : List Node := List.zipWith (Node.moded now) ns modes

theorem modedNodes_length (h : modes.length = ns.length) : (modedNodes now ns modes).length = ns.length := by
  simp [modedNodes, h]

theorem modedNodes_get (hm : modes[i]? = some m) (hx : ns[i]? = some x) (hy : (modedNodes now ns modes)[i]? = some y) :
    y = x.moded now m := by
  rw [modedNodes, List.getElem?_zipWith, hx, hm] at hy
  exact (Option.some.inj hy).symm

theorem moded_mode (x : Node) (now : Millis) (m : NodeMode) : (x.moded now m).mode = m := by
  unfold Node.moded Node.timed
  split <;> rfl

theorem moded_phase (x : Node) (now : Millis) (m : NodeMode) : (x.moded now m).phase = .rest := by
  unfold Node.moded Node.timed
  split <;> rfl

theorem moded_captured (x : Node) (now : Millis) (m : NodeMode) :
    (x.moded now m).captured = ({ x with mode := m } : Node).captured := by
  unfold Node.moded Node.timed
  split <;> rfl

theorem moded_eq (x : Node) (now : Millis) (m : NodeMode) : x.moded now m = { x with
    phase := .rest, mode := m, stage := (x.moded now m).stage
    pulseFrom := if x.pulse.isSome ∧ x.pulseFrom = none then some now else x.pulseFrom } := by
  unfold Node.moded Node.timed
  dsimp only
  split <;> rfl

/-- The nodes of the data pass that follows a mode pass at once. -/
theorem enterData_moded (now : Millis) (ns : List Node) (modes : List NodeMode) :
    enterData (modedNodes now ns modes) = (modedNodes now ns modes).map Node.taking := by
  refine enterData_eq fun n hn => ?_
  obtain ⟨i, hi, rfl⟩ := List.mem_iff_getElem.mp hn
  unfold modedNodes at *
  rw [List.getElem_zipWith]
  exact moded_phase _ _ _

theorem taking_get (hm : modes[i]? = some m) (hx : ns[i]? = some x)
    (hy : ((modedNodes now ns modes).map Node.taking)[i]? = some y) :
    y.mode = m ∧ y.phase = .cellTake ∧ y.reg = ({ x with mode := m } : Node).captured := by
  rw [List.getElem?_map] at hy
  obtain ⟨z, hz, rfl⟩ := Option.map_eq_some_iff.mp hy
  rw [modedNodes_get hm hx hz]
  exact ⟨moded_mode x now m, rfl, moded_captured x now m⟩

/-! ### The state after a mode pass that passed -/

/-- Units, one bank's record and its nodes replaced. -/
def State.onChain (s : State) (b : BankIx) (us : Vector UnitRec 512) (k : Bank) (ns : List Node) : State :=
  { s with units := us, banks := put s.banks b k, chains := put s.chains b ns }

theorem onChain_bank : (s.onChain b us k ns).bank b = k := put_get_self _ _ _

theorem onChain_chain : (s.onChain b us k ns).chain b = ns := put_get_self _ _ _

theorem onChain_others (h : d ≠ b) :
    (s.onChain b us k ns).bank d = s.bank d ∧ (s.onChain b us k ns).chain d = s.chain d :=
  ⟨put_get_other _ _ _ _ h, put_get_other _ _ _ _ h⟩

/-- The state once the modes are set and the pass is judged (R98). -/
def State.modesSet (s : State) (b : BankIx) (modes : List NodeMode) : State :=
  s.onChain b s.units { s.bank b with failures := 0 } (modedNodes s.clock.ms (s.chain b) modes)

theorem modesSet_eq (h : ModesDue (s.chain b) modes) :
    (modePass s b modes Noise.none).1.setFailures b 0 = s.modesSet b modes := by
  show (modePass s b modes ⟨[], []⟩).1.setFailures b 0 = _
  rw [h.nodes]
  rfl

theorem modesSet_chain (s : State) (b : BankIx) (modes : List NodeMode) :
    (s.modesSet b modes).chain b = modedNodes s.clock.ms (s.chain b) modes := onChain_chain

theorem onChain_modBank {f : Bank → Bank} :
    (s.onChain b us k ns).modBank b f = s.onChain b us (f k) ns := by
  unfold State.modBank
  rw [onChain_bank]
  simp [State.onChain, State.setBank, put]

theorem onChain_setChain (ns' : List Node) : (s.onChain b us k ns).setChain b ns' = s.onChain b us k ns' := by
  simp [State.onChain, State.setChain, put]

/-- In a warm restart the chain is left idle (R111). -/
theorem modesSet_idle (s : State) (b : BankIx) (modes : List NodeMode) :
    (s.modesSet b modes).setActivity b .idle = s.onChain b s.units { s.bank b with failures := 0, activity := .idle }
      (modedNodes s.clock.ms (s.chain b) modes) := onChain_modBank

/-- The data pass of a fetch cycle follows (R103). -/
theorem modesSet_fetch (s : State) (b : BankIx) (modes : List NodeMode) :
    beginData (s.modesSet b modes) b (.fetchData modes) = s.onChain b s.units
      { s.bank b with failures := 0, passCount := (s.bank b).passCount + 1, activity := .fetchData modes }
      ((modedNodes s.clock.ms (s.chain b) modes).map Node.taking) := by
  have modBank : (s.modesSet b modes).modBank b (fun k => { k with
      passCount := k.passCount + 1, activity := .fetchData modes }) = _ := onChain_modBank
  unfold beginData
  dsimp only
  rw [modBank, onChain_chain, enterData_moded, onChain_setChain]

/-- The data pass of a status cycle follows (R100). -/
theorem modesSet_status (s : State) (b : BankIx) (modes : List NodeMode) :
    beginStatusData (s.modesSet b modes) b modes = s.onChain b (s.plansSent b modes).units
      { s.bank b with
        failures := 0, passCount := (s.bank b).passCount + 1
        activity := .statusData modes (s.statusBits b modes) s.clock.ms
          ((((unitsOf b).zip modes).filter fun um => um.2 = .status ∧ (s.opFor um.1).isSome).map fun um =>
            (um.1, (s.bankRec b).pulseLength)) }
      ((modedNodes s.clock.ms (s.chain b) modes).map Node.taking) := by
  have units : ((s.modesSet b modes).plansSent b modes).units = (s.plansSent b modes).units := modUnits_units _ _ rfl
  have plans : (s.modesSet b modes).plansSent b modes =
      s.onChain b (s.plansSent b modes).units { s.bank b with failures := 0 }
        (modedNodes s.clock.ms (s.chain b) modes) := by
    rw [plansSent_frame, units]
    rfl
  rw [beginStatusData_eq, plans, onChain_modBank, onChain_setChain, modesSet_chain, enterData_moded]
  rfl

end Sys2Proof.Machine
end

/-! ## Every mode is set and its commands follow, or the pass fails -/

section
namespace Sys2Proof.Machine

variable {s t : State} {b d : BankIx} {modes : List NodeMode} {m : NodeMode} {x y : Node} {i : Nat} {back : List Bool}
  {status : Bool}

/-- The end of a mode pass, of a status or of a fetch cycle. -/
def modePassEnd (status : Bool) (b : BankIx) (line : Noise) : Instr :=
  if status then .statusModePassEnd b line else .fetchModePassEnd b line

/-- What follows a mode pass that passed (R100, R103, R111). -/
def State.goesOn (s : State) (b : BankIx) (modes : List NodeMode) (status : Bool) : State :=
  if s.restart.isSome then (s.modesSet b modes).setActivity b .idle
  else if status then beginStatusData (s.modesSet b modes) b modes else beginData (s.modesSet b modes) b (.fetchData modes)

theorem modePassEnd_passes (h : ModesDue (s.chain b) modes)
    (ha : (s.bank b).activity = if status then .statusMode modes else .fetchMode modes) :
    exec (modePassEnd status b Noise.none) s = .next (s.goesOn b modes status) := by
  have set := modesSet_eq h
  have passes := h.passes
  cases status with
  | true =>
    refine congrArg Host.Outcome.next ?_
    show statusModeEnd s b Noise.none = _
    unfold statusModeEnd State.goesOn
    rw [ha]
    simp only [if_true]
    rw [if_pos passes, set]
    rfl
  | false =>
    refine congrArg Host.Outcome.next ?_
    show fetchModeEnd s b Noise.none = _
    unfold fetchModeEnd State.goesOn
    rw [ha]
    simp only [Bool.false_eq_true, if_false]
    rw [if_pos passes, set]
    rfl

theorem goesOn_held (h : s.restart ≠ none) (status : Bool) : s.goesOn b modes status =
    s.onChain b s.units { s.bank b with failures := 0, activity := .idle } (modedNodes s.clock.ms (s.chain b) modes) := by
  unfold State.goesOn
  rw [if_pos (Option.isSome_iff_ne_none.mpr h), modesSet_idle]

theorem goesOn_status (h : s.restart = none) : s.goesOn b modes true = beginStatusData (s.modesSet b modes) b modes := by
  unfold State.goesOn
  rw [if_neg (by simp [h]), if_pos rfl]

theorem goesOn_fetch (h : s.restart = none) :
    s.goesOn b modes false = beginData (s.modesSet b modes) b (.fetchData modes) := by
  unfold State.goesOn
  rw [if_neg (by simp [h]), if_neg (by decide)]

/-- What follows, in one form: units, the bank's record and its nodes. -/
theorem goesOn_onChain (s : State) (b : BankIx) (modes : List NodeMode) (status : Bool) : ∃ us k ns,
    s.goesOn b modes status = s.onChain b us k ns ∧ k.failures = 0 ∧
      (s.restart ≠ none → us = s.units ∧ k.activity = .idle ∧ k.passCount = (s.bank b).passCount ∧
        ns = modedNodes s.clock.ms (s.chain b) modes) ∧
      (s.restart = none → k.passCount = (s.bank b).passCount + 1 ∧
        ns = (modedNodes s.clock.ms (s.chain b) modes).map Node.taking ∧
        (status = false → k.activity = .fetchData modes ∧ us = s.units)) := by
  by_cases h : s.restart = none
  · cases status with
    | true =>
      exact ⟨_, _, _, (goesOn_status h).trans (modesSet_status s b modes), rfl, fun h' => absurd h h',
        fun _ => ⟨rfl, rfl, nofun⟩⟩
    | false =>
      exact ⟨_, _, _, (goesOn_fetch h).trans (modesSet_fetch s b modes), rfl, fun h' => absurd h h',
        fun _ => ⟨rfl, rfl, fun _ => ⟨rfl, rfl⟩⟩⟩
  · exact ⟨_, _, _, goesOn_held h status, rfl, fun _ => ⟨rfl, rfl, rfl, rfl⟩, fun h' => absurd h' h⟩

/-- A node after the mode pass, of whatever cycle. -/
theorem goesOn_node (hm : modes[i]? = some m) (hx : (s.chain b)[i]? = some x)
    (hy : ((s.goesOn b modes status).chain b)[i]? = some y) :
    y.mode = m ∧ (s.restart = none → y.phase = .cellTake ∧ y.reg = ({ x with mode := m } : Node).captured) ∧
      (s.restart ≠ none → y = { x with
        phase := .rest, mode := m, stage := y.stage
        pulseFrom := if x.pulse.isSome ∧ x.pulseFrom = none then some s.clock.ms else x.pulseFrom }) := by
  obtain ⟨us, k, ns, e, -, held, runs⟩ := goesOn_onChain s b modes status
  rw [e, onChain_chain] at hy
  by_cases hr : s.restart = none
  · rw [(runs hr).2.1] at hy
    obtain ⟨mode, phase, reg⟩ := taking_get hm hx hy
    exact ⟨mode, fun _ => ⟨phase, reg⟩, fun h' => absurd hr h'⟩
  · rw [(held hr).2.2.2] at hy
    rw [modedNodes_get hm hx hy]
    exact ⟨moded_mode x _ m, fun h' => absurd h' hr, fun _ => moded_eq x _ m⟩

theorem goesOn_length (h : ModesDue (s.chain b) modes) :
    ((s.goesOn b modes status).chain b).length = (s.chain b).length := by
  obtain ⟨us, k, ns, e, -, held, runs⟩ := goesOn_onChain s b modes status
  rw [e, onChain_chain]
  by_cases hr : s.restart = none
  · rw [(runs hr).2.1, List.length_map, modedNodes_length h.lengths]
  · rw [(held hr).2.2.2, modedNodes_length h.lengths]

/-- A mode pass that failed (R98, R103). -/
theorem modePassEnd_fails (h : ModesDue (s.chain b) modes)
    (ha : (s.bank b).activity = if status then .statusMode modes else .fetchMode modes)
    (hi : i < 2 * (s.chain b).length + 8) (hd : back[i]? = some true) :
    exec (modePassEnd status b ⟨[], back⟩) s = .next (passFailed
      (s.setChain b (modedNodes s.clock.ms (s.chain b) modes)) b
      (if status then fun t => chainFree t b else fun t => chainFree (releaseAll t b) b)) := by
  have nodes := h.nodes back
  have fails := h.fails hi hd
  cases status with
  | true =>
    refine congrArg Host.Outcome.next ?_
    show statusModeEnd s b ⟨[], back⟩ = _
    unfold statusModeEnd
    rw [ha]
    simp only [if_true]
    rw [if_neg (by rw [fails]; decide), nodes]
    rfl
  | false =>
    refine congrArg Host.Outcome.next ?_
    show fetchModeEnd s b ⟨[], back⟩ = _
    unfold fetchModeEnd
    rw [ha]
    simp only [Bool.false_eq_true, if_false]
    rw [if_neg (by rw [fails]; decide), nodes]
    rfl

/-- A fetch cycle that failed holds no reservation (R102, R103, R109). -/
theorem passFailed_released (s : State) (b : BankIx) :
    ((passFailed s b fun t => chainFree (releaseAll t b) b).bank b).granted = [] ∧
      ((passFailed s b fun t => chainFree (releaseAll t b) b).bank b).release =
        (s.bank b).release + (s.bank b).granted.length := by
  by_cases h : (s.bank b).failures + 1 < 3
  · rw [passFailed_below h]
    have released := chainFree_releaseAll_released (s.counted b) b
    rw [counted_bank] at released
    exact released
  · rw [passFailed_faults (Nat.not_lt.mp h), enterFaulted_bank, counted_bank]
    exact ⟨rfl, rfl⟩

/-- Settles O45. -/
theorem modePassSetsModes : Obligations.ModePassSetsModes := by
  intro s b modes status k ns pass hl hn ha
  have due : ModesDue (s.chain b) modes := ⟨hl, hn⟩
  refine ⟨⟨s.goesOn b modes status, modePassEnd_passes due ha, ?_, ?_, goesOn_length due, ?_,
    fun i m x y hm hx hy => goesOn_node hm hx hy, ?_, ?_, ?_, ?_⟩, fun toPart i hr hi hd => ?_⟩
  · obtain ⟨us, k, ns, e, -, -, -⟩ := goesOn_onChain s b modes status
    rw [e]
    rfl
  · intro d hd
    obtain ⟨us, k, ns, e, -, -, -⟩ := goesOn_onChain s b modes status
    rw [e]
    exact onChain_others hd
  · obtain ⟨us, k, ns, e, failures, -, -⟩ := goesOn_onChain s b modes status
    rw [e, onChain_bank]
    exact failures
  · intro hr
    obtain ⟨us, k, ns, e, -, held, -⟩ := goesOn_onChain s b modes status
    obtain ⟨units, activity, count, -⟩ := held hr
    rw [e, onChain_bank]
    exact ⟨activity, count, units⟩
  · intro hr
    obtain ⟨us, k, ns, e, -, -, runs⟩ := goesOn_onChain s b modes status
    rw [e, onChain_bank]
    exact (runs hr).1
  · intro hr hs
    obtain ⟨us, k, ns, e, -, -, runs⟩ := goesOn_onChain s b modes status
    rw [e, onChain_bank]
    exact (runs hr).2.2 hs
  · intro hr hs
    subst hs
    rw [goesOn_status hr, modesSet_status, onChain_bank]
    refine ⟨?_, fun u => (plansSent_unit s b modes u).trans (if_congr Iff.rfl ?_ rfl)⟩
    · dsimp only
      congr 1
      unfold State.statusBits
      refine congrArg (fun f => List.flatMap f _) (funext fun um => if_congr Iff.rfl ?_ rfl)
      rw [commandOf_eq, shown_eq]
      rfl
    · rw [sent_eq]
      rfl
  · have frees : Frees b (if status then fun t => chainFree t b else fun t => chainFree (releaseAll t b) b) := by
      cases status with
      | true => exact chainFree_frees b
      | false => exact chainFree_releaseAll_frees b
    have frame := passFailed_frame frees (s.setChain b (modedNodes s.clock.ms (s.chain b) modes))
    refine ⟨_, modePassEnd_fails due ha hi hd, passFailed_failed frees hr _, ?_, ?_, ?_, ?_, ?_, ?_, ?_, fun hs => ?_⟩
    iterate 7
      rw [frame]
      rfl
    subst hs
    exact passFailed_released _ b

end Sys2Proof.Machine
end

/-! ## The slots of an enumeration pass -/

section
namespace Sys2Proof.Machine

variable {ns : List Node} {regs : List (List Bool)} {z r : List Bool} {n : Nat} {x : Node}

/-! ### Bits and numbers (R182) -/

theorem bitsNat_foldl (l : List Bool) (a : Nat) :
    l.foldl (fun n b => 2 * n + b.toNat) a = a * 2 ^ l.length + bitsNat l := by
  unfold bitsNat
  induction l generalizing a with
  | nil => simp
  | cons b l ih =>
    rw [List.foldl_cons, List.foldl_cons, ih, ih (2 * 0 + b.toNat), List.length_cons]
    ring

theorem bitsOf_length (w n : Nat) : (bitsOf w n).length = w := by simp [bitsOf]

theorem bitsOf_succ (w n : Nat) : bitsOf (w + 1) n = n.testBit w :: bitsOf w n := by
  unfold bitsOf
  rw [List.range_succ_eq_map, List.map_cons, List.map_map]
  congr 1
  refine List.map_congr_left fun i _ => ?_
  show n.testBit (w + 1 - 1 - (i + 1)) = n.testBit (w - 1 - i)
  congr 1
  omega

theorem bitsNat_bitsOf (w n : Nat) : bitsNat (bitsOf w n) = n % 2 ^ w := by
  induction w with
  | zero => simp [bitsOf, bitsNat, Nat.mod_one]
  | succ w ih =>
    have fold := bitsNat_foldl (bitsOf w n) (n.testBit w).toNat
    rw [bitsOf_succ]
    show (bitsOf w n).foldl _ (2 * 0 + (n.testBit w).toNat) = _
    rw [Nat.mul_zero, Nat.zero_add, fold, ih, bitsOf_length, Nat.toNat_testBit, Nat.mod_pow_succ]
    ring

theorem ofNat_bitsNat_bitsOf {w : Nat} (v : BitVec w) : BitVec.ofNat w (bitsNat (bitsOf w v.toNat)) = v := by
  apply BitVec.eq_of_toNat_eq
  rw [bitsNat_bitsOf, BitVec.toNat_ofNat, Nat.mod_mod, Nat.mod_eq_of_lt v.isLt]

/-- The identity a node has. -/
def Node.identity (n : Node) : Identity := ⟨n.kind, n.revision, n.serial⟩

theorem captured_ident (h : x.mode = .ident) :
    x.captured = true :: (bitsOf 2 x.kind.toNat ++ bitsOf 5 x.revision.toNat ++ bitsOf 16 x.serial.toNat) := by
  simp only [Node.captured, h]

theorem captured_ident_length (h : x.mode = .ident) : x.captured.length = 24 := by
  rw [captured_ident h]
  simp [bitsOf_length]

/-- The captured cell of a node gives its identity back (R182). -/
theorem identCell_captured (h : x.mode = .ident) : identCell x.captured = x.identity := by
  have kind := ofNat_bitsNat_bitsOf x.kind
  have revision := ofNat_bitsNat_bitsOf x.revision
  have serial := ofNat_bitsNat_bitsOf x.serial
  rw [captured_ident h]
  unfold identCell Node.identity
  rw [show (List.drop 1 (true :: (bitsOf 2 x.kind.toNat ++ bitsOf 5 x.revision.toNat ++ bitsOf 16 x.serial.toNat))).take 2 =
      bitsOf 2 x.kind.toNat from rfl,
    show (List.drop 3 (true :: (bitsOf 2 x.kind.toNat ++ bitsOf 5 x.revision.toNat ++ bitsOf 16 x.serial.toNat))).take 5 =
      bitsOf 5 x.revision.toNat from rfl,
    show (List.drop 8 (true :: (bitsOf 2 x.kind.toNat ++ bitsOf 5 x.revision.toNat ++ bitsOf 16 x.serial.toNat))).take 16 =
      bitsOf 16 x.serial.toNat from rfl, kind, revision, serial]

/-! ### One slot (R90, R108) -/

/-- The slot sent: 24 zeros. -/
def zeroSlot : List Bool := List.replicate 24 false

/-- Registers of one length: the last gives its bits up, and each other moves on by one node. -/
theorem pushBits_slot (h : ∀ q ∈ regs ++ [r], q.length = z.length) (hz : z ≠ []) :
    pushBits (regs ++ [r]) z = (z :: regs, r) := by
  have nonempty : ∀ q ∈ regs ++ [r], q ≠ [] := fun q hq e => hz (by
    have := h q hq
    rw [e] at this
    exact List.length_eq_zero_iff.mp this.symm)
  obtain ⟨bits, count, lengths⟩ := pushBits_spec nonempty z
  have whole : held (regs ++ [r]) ++ z = r ++ held (z :: regs) := by simp [held]
  rw [whole] at bits
  obtain ⟨out, stay⟩ := List.append_inj bits (count.trans (h r (by simp)).symm)
  have same : (pushBits (regs ++ [r]) z).1.map List.length = (z :: regs).map List.length := by
    have all (l : List (List Bool)) (hl : ∀ q ∈ l, q.length = z.length) :
        l.map List.length = List.replicate l.length z.length := by
      rw [← List.map_const']
      exact List.map_congr_left hl
    rw [lengths, all _ h, all (z :: regs) fun q hq => ?_]
    · simp
    · rcases List.mem_cons.mp hq with rfl | hq
      · rfl
      · exact h q (by simp [hq])
  refine Prod.ext ?_ out
  have reversed : (pushBits (regs ++ [r]) z).1.reverse = (z :: regs).reverse := by
    rw [List.eq_iff_flatten_eq]
    exact ⟨stay, by rw [List.map_reverse, List.map_reverse, same]⟩
  exact List.reverse_inj.mp reversed

theorem pushBits_nil (z : List Bool) : pushBits [] z = ([], z) := by
  induction z with
  | nil => rfl
  | cons d z ih => simp [pushBits, pushBit, ih]

/-- The shifting of bits on an undisturbed line, whatever the standing of the nodes before it. -/
theorem shift_undisturbed {f g : Node → List Bool → Node} (hf : Shifts f g) (hg : Shifts g g)
    (hl : ns.length = regs.length) (hz : z ≠ []) :
    shift (List.zipWith f ns regs) Noise.none [] (fixedBits z) =
      (List.zipWith g ns (pushBits regs z).1, (pushBits regs z).2, Noise.none) := by
  obtain ⟨d, ds, rfl⟩ := List.exists_cons_of_ne_nil hz
  have fixed := shift_fixed hf hg hl [] d ds
  rw [noisy_none, List.drop_nil] at fixed
  exact fixed

theorem zeroSlot_bits : List.replicate 24 (DoBit.fixed false) = fixedBits zeroSlot := by
  rw [zeroSlot, fixedBits, List.map_replicate]

/-! ### The whole pass (R108) -/

/-- The slots read: every node's register, the one nearest DI first, and the zeros that end the pass. -/
theorem readSlots_slots {g : Node → List Bool → Node} (hg : Shifts g g) (real : List (List Bool)) :
    ∀ (f : Node → List Bool → Node) (m fuel : Nat), Shifts f g → (∀ q ∈ real, q.length = 24 ∧ q.head? = some true) →
      ns.length = m + real.length → real.length < fuel →
      (readSlots (List.zipWith f ns (List.replicate m zeroSlot ++ real)) Noise.none fuel).2 =
        real.reverse ++ [zeroSlot] := by
  induction real using List.reverseRecOn with
  | nil =>
    intro f m fuel hf _ hl hfuel
    obtain ⟨fuel, rfl⟩ : ∃ k, fuel = k + 1 := ⟨fuel - 1, by simp at hfuel; omega⟩
    have out : (pushBits (List.replicate m zeroSlot) zeroSlot).2 = zeroSlot := by
      cases m with
      | zero => exact congrArg Prod.snd (pushBits_nil zeroSlot)
      | succ m =>
        rw [List.replicate_succ']
        refine congrArg Prod.snd (pushBits_slot (fun q hq => ?_) (by decide))
        rw [← List.replicate_succ'] at hq
        rw [List.eq_of_mem_replicate hq]
    rw [List.append_nil]
    unfold readSlots
    dsimp only
    rw [zeroSlot_bits, shift_undisturbed hf hg (by simpa using hl) (by decide), out]
    rfl
  | append_singleton real r ih =>
    intro f m fuel hf hreal hl hfuel
    obtain ⟨fuel, rfl⟩ : ∃ k, fuel = k + 1 := ⟨fuel - 1, by simp at hfuel; omega⟩
    have slot : pushBits (List.replicate m zeroSlot ++ (real ++ [r])) zeroSlot =
        (List.replicate (m + 1) zeroSlot ++ real, r) := by
      rw [← List.append_assoc, pushBits_slot (fun q hq => ?_) (by decide), List.replicate_succ]
      · rfl
      · rw [List.append_assoc] at hq
        rcases List.mem_append.mp hq with hq | hq
        · rw [List.eq_of_mem_replicate hq]
        · exact (hreal q hq).1
    have begins := (hreal r (by simp)).2
    have rest := ih g (m + 1) fuel hg (fun q hq => hreal q (by simp [hq])) (by simp at hl ⊢; omega)
      (by simp at hfuel; omega)
    unfold readSlots
    dsimp only
    rw [zeroSlot_bits, shift_undisturbed hf hg (by simpa using hl) (by decide), slot, if_pos begins]
    dsimp only
    rw [rest]
    simp

/-! ### The standing of the registers in a data pass (R89) -/

/-- A node at the start of a data pass, with its register. -/
def Node.takes (n : Node) (r : List Bool) : Node := { n with phase := .cellTake, reg := r }

/-- A node while its register shifts. -/
def Node.moves (n : Node) (r : List Bool) : Node := { n with phase := .cellMove, reg := r }

theorem takes_shifts : Shifts Node.takes Node.moves := ⟨fun _ _ _ => rfl⟩
theorem moves_shifts : Shifts Node.moves Node.moves := ⟨fun _ _ _ => rfl⟩

theorem zipWith_takes (h : ∀ x ∈ ns, x.phase = .cellTake ∧ x.reg = x.captured) :
    List.zipWith Node.takes ns (ns.map Node.captured) = ns :=
  zipWith_self fun x hx => by
    obtain ⟨phase, reg⟩ := h x hx
    unfold Node.takes
    rw [← phase, ← reg]

/-- Nodes whose identities are captured. -/
def Identified (ns : List Node) : Prop := ∀ x ∈ ns, x.mode = .ident ∧ x.phase = .cellTake ∧ x.reg = x.captured

/-- The identities an enumeration pass on an undisturbed line brings, position 0 first (R108). -/
theorem identities_read (h : Identified ns) (hl : ns.length ≤ 64) :
    (((readSlots ns Noise.none 65).2.takeWhile fun c => c.head? = some true).reverse.map identCell) =
      ns.map Node.identity := by
  have slots := readSlots_slots (ns := ns) moves_shifts (ns.map Node.captured) Node.takes 0 65 takes_shifts
    (fun q hq => by
      obtain ⟨x, hx, rfl⟩ := List.mem_map.mp hq
      exact ⟨captured_ident_length (h x hx).1, by rw [captured_ident (h x hx).1]; rfl⟩) (by simp) (by simp; omega)
  rw [List.replicate_zero, List.nil_append, zipWith_takes fun x hx => (h x hx).2] at slots
  rw [slots, List.takeWhile_append_of_pos fun q hq => ?_]
  · rw [show List.takeWhile _ [zeroSlot] = [] from rfl, List.append_nil, List.reverse_reverse, List.map_map]
    exact List.map_congr_left fun x hx => identCell_captured (h x hx).1
  · obtain ⟨x, hx, rfl⟩ := List.mem_map.mp (List.mem_reverse.mp hq)
    rw [captured_ident (h x hx).1]
    rfl

end Sys2Proof.Machine
end

/-! ## An enumeration that finds a fault, or none -/

section
namespace Sys2Proof.Machine

variable {s t m : State} {b d : BankIx} {ns : List Node} {code : FaultCode} {count : Nat} {unit : Option UnitIx}
  {st : BankState} {e : EngEvent} {a : Actuation} {rest : List Actuation} {n : Nat} {u v : UnitIx} {p q : Position}
  {x : Node} {ids : List Identity} {items : List Item}

/-! ### The Drive Scheduler tells of no reset (R161) -/

/-- From s to t no end of a reset of the bank is reported. -/
def TellsNoReset (b : BankIx) (s t : State) : Prop :=
  ∀ e ∈ t.engine.inbox, e.isResetDone b = true → e ∈ s.engine.inbox

theorem TellsNoReset.same (h : t.engine.inbox = s.engine.inbox) : TellsNoReset b s t := fun _ he _ => h ▸ he

theorem TellsNoReset.refl (s : State) : TellsNoReset b s s := .same rfl

theorem TellsNoReset.trans (h : TellsNoReset b s m) (k : TellsNoReset b m t) : TellsNoReset b s t :=
  fun e he hr => h e (k e he hr) hr

theorem hand_tellsNoReset (h : e.isResetDone b = false) : TellsNoReset b s (s.hand e) := by
  intro e' he' hr
  rcases List.mem_append.mp he' with he' | he'
  · exact he'
  · rw [List.mem_singleton.mp he', h] at hr
    exact absurd hr (by decide)

theorem refill_tellsNoReset (s : State) : TellsNoReset b s (refill s) := by
  unfold refill
  split <;> exact .same rfl

theorem examineLoop_tellsNoReset (n : Nat) (s : State) : TellsNoReset b s (examineLoop n s) := by
  induction n generalizing s with
  | zero => exact .refl s
  | succ n ih =>
    have left (rest : List Actuation) (e : EngEvent) (he : e.isResetDone b = false) :
        TellsNoReset b s (examineLoop n (refill ((s.setWaiting rest).hand e))) :=
      (hand_tellsNoReset (s := s.setWaiting rest) he).trans ((refill_tellsNoReset _).trans (ih _))
    have granted (a : Actuation) (rest : List Actuation) : TellsNoReset b s (examineLoop n (grantHead s a rest)) :=
      ih (grantHead s a rest)
    unfold examineLoop
    split_ifs
    · exact .refl s
    · split
      · exact .refl s
      · split_ifs
        · exact left _ _ rfl
        · exact left _ _ rfl
        · exact granted _ _
        · exact .refl s

theorem placesFreed_tellsNoReset (n : Nat) (s : State) : TellsNoReset b s (placesFreed n s) := by
  induction n generalizing s with
  | zero => exact .refl s
  | succ n ih =>
    refine TellsNoReset.trans ?_ (ih _)
    unfold placeFreed
    dsimp only
    split_ifs
    · exact (refill_tellsNoReset s).trans (examineLoop_tellsNoReset _ _)
    · exact refill_tellsNoReset s

theorem driveLeaves_tellsNoReset (s : State) : TellsNoReset b s (driveLeaves s b) :=
  (hand_tellsNoReset (s := s.withoutBank b) (e := .removed (s.lostOf b) (some b)) rfl).trans
    ((placesFreed_tellsNoReset _ _).trans (examineLoop_tellsNoReset _ _))

theorem moveBank_tellsNoReset (s : State) (b : BankIx) (st : BankState) : TellsNoReset b s (moveBank s b st) := by
  unfold moveBank
  dsimp only
  split_ifs
  · exact driveLeaves_tellsNoReset (s.modBank b fun k => k.leave st)
  · exact .same rfl

theorem enterFaulted_tellsNoReset (s : State) (b : BankIx) (code : FaultCode) (count : Nat) (unit : Option UnitIx) :
    TellsNoReset b s (enterFaulted s b code count unit) := by
  have moved := moveBank_tellsNoReset s b .faulted
  rw [enterFaulted_eq]
  generalize moveBank s b .faulted = u at *
  exact moved.trans (.same rfl)

/-! ### The report to a waiting RESET_BANK (R108, R161) -/

/-- A RESET_BANK that waits on the bank is told, between s and t: the report stands, or one stood already. -/
def Told (s t : State) (b : BankIx) (st : BankState) (code : Option FaultCode) (count : Nat) : Prop :=
  (∃ n items, s.engine.runningSlot = some ⟨.resetBank b, items, n⟩) →
    (∃ st' code' count', EngEvent.resetDone b st' code' count' ∈ s.engine.inbox) ∨
      EngEvent.resetDone b st code count ∈ t.engine.inbox

theorem mem_of_isResetDone (h : e.isResetDone b = true) : ∃ st code count, e = .resetDone b st code count := by
  cases e with
  | resetDone c st code count =>
    obtain rfl : c = b := of_decide_eq_true h
    exact ⟨st, code, count, rfl⟩
  | _ => exact absurd h Bool.false_ne_true

theorem resetWaits_eq (s : State) (b : BankIx) : s.resetWaits b =
    (s.engine.runningSlot.any (fun r => r.action = .resetBank b) && !(s.engine.inbox.any (EngEvent.isResetDone b))) := by
  have running : (match s.engine.runningSlot with
      | some r => decide (r.action = .resetBank b)
      | none => false) = s.engine.runningSlot.any (fun r => r.action = .resetBank b) := by
    cases s.engine.runningSlot <;> rfl
  rw [← running]
  rfl

theorem reportReset_told (hs : m.engine.runningSlot = s.engine.runningSlot) (hk : TellsNoReset b s m) (st : BankState)
    (code : Option FaultCode) (count : Nat) : Told s (reportReset m b st code count) b st code count := by
  rintro ⟨n, items, running⟩
  by_cases waits : m.resetWaits b = true
  · refine .inr ?_
    unfold reportReset
    rw [if_pos waits]
    exact List.mem_append_right _ (List.mem_singleton_self _)
  · rw [resetWaits_eq, hs, running] at waits
    have reported : m.engine.inbox.any (EngEvent.isResetDone b) = true := by simpa using waits
    obtain ⟨e, he, hr⟩ := List.any_eq_true.mp reported
    obtain ⟨st', code', count', rfl⟩ := mem_of_isResetDone hr
    exact .inl ⟨st', code', count', hk _ he hr⟩

/-- What the report touches. -/
theorem reportReset_frame (s : State) (b : BankIx) (st : BankState) (code : Option FaultCode) (count : Nat) :
    reportReset s b st code count = { s with
      engine := { s.engine with inbox := (reportReset s b st code count).engine.inbox } } := by
  unfold reportReset
  split <;> rfl

theorem reportReset_prefix (s : State) (b : BankIx) (st : BankState) (code : Option FaultCode) (count : Nat) :
    s.engine.inbox <+: (reportReset s b st code count).engine.inbox := by
  unfold reportReset
  split
  · exact List.prefix_append _ _
  · exact List.prefix_rfl

/-! ### The fault of an enumeration (R108, R110) -/

/-- A bank enters FAULTED at the end of its enumeration, and a waiting RESET_BANK is told. -/
def State.enumerationFaults (s : State) (b : BankIx) (code : FaultCode) (count : Nat) (unit : Option UnitIx) : State :=
  reportReset (enterFaulted s b code count unit) b .faulted (some code) count

theorem enumerationFaults_told (s : State) (b : BankIx) (code : FaultCode) (count : Nat) (unit : Option UnitIx) :
    Told s (s.enumerationFaults b code count unit) b .faulted (some code) count := by
  refine reportReset_told ?_ (enterFaulted_tellsNoReset s b code count unit) _ _ _
  have frame := enterFaulted_frame s b code count unit
  generalize enterFaulted s b code count unit = t at *
  rw [frame]

/-- What the fault touches. -/
theorem enumerationFaults_frame (s : State) (b : BankIx) (code : FaultCode) (count : Nat) (unit : Option UnitIx) :
    s.enumerationFaults b code count unit = { s with
      units := (s.enumerationFaults b code count unit).units, drive := (s.enumerationFaults b code count unit).drive
      engine := { s.engine with inbox := (s.enumerationFaults b code count unit).engine.inbox }
      banks := (enterFaulted s b code count unit).banks
      notices := if (s.bank b).sameFault code then s.notices
        else s.notices.post (s.notice .bankFault code.code unit none (b.1 + count * 256)) } := by
  have frame := enterFaulted_frame s b code count unit
  unfold State.enumerationFaults
  generalize enterFaulted s b code count unit = m at *
  have reports := reportReset_frame m b .faulted (some code) count
  generalize reportReset m b .faulted (some code) count = t at *
  rw [reports]
  show _ = _
  rw [frame]

/-- The record of the bank that faults. -/
theorem enumerationFaults_bank (s : State) (b : BankIx) (code : FaultCode) (count : Nat) (unit : Option UnitIx) :
    (s.enumerationFaults b code count unit).bank b = (s.bank b).faulted code s.clock.ms := by
  have bank := enterFaulted_bank s b code count unit
  unfold State.enumerationFaults
  rw [reportReset_frame]
  exact bank

theorem enumerationFaults_others (hd : d ≠ b) : (s.enumerationFaults b code count unit).bank d = s.bank d ∧
    (s.enumerationFaults b code count unit).chain d = s.chain d := by
  have others := enterFaulted_others (s := s) (code := code) (count := count) (unit := unit) hd
  unfold State.enumerationFaults
  rw [reportReset_frame]
  exact others

/-- More waits at the engine than what a bank's loss left there. -/
theorem BankLoses.more {t' : State} (h : BankLoses s t b) (hu : t'.units = t.units) (hd : t'.drive = t.drive)
    (hi : t.engine.inbox <+: t'.engine.inbox) : BankLoses s t' b := by
  obtain ⟨kept, inbox, loses, still⟩ := h
  unfold BankLoses OthersKept State.unit at *
  rw [hu, hd]
  refine ⟨kept, inbox.trans hi, fun hm => ?_, still⟩
  obtain ⟨none', others, awaiting, detached, us, told, lost⟩ := loses hm
  exact ⟨none', others, awaiting, detached, us, hi.subset told, lost⟩

theorem enumerationFaults_loses (s : State) (b : BankIx) (code : FaultCode) (count : Nat) (unit : Option UnitIx) :
    BankLoses s (s.enumerationFaults b code count unit) b := by
  have loses := enterFaulted_loses s b code count unit
  unfold State.enumerationFaults
  generalize enterFaulted s b code count unit = m at *
  refine loses.more ?_ ?_ (reportReset_prefix m b _ _ _)
  · rw [reportReset_frame]
  · rw [reportReset_frame]

end Sys2Proof.Machine
end

/-! ## The end of an enumeration on an undisturbed line -/

section
namespace Sys2Proof.Machine

variable {s t m : State} {b d : BankIx} {ns : List Node} {code : FaultCode} {count : Nat} {unit : Option UnitIx}
  {st : BankState} {n : Nat} {u v : UnitIx} {p q : Position} {x : Node} {ids : List Identity}

/-! ### Units and positions -/

theorem posOf_unitAt (b : BankIx) (p : Position) : posOf (unitAt b p) = p := by
  apply Fin.ext
  show (b.1 * 64 + p.1) % 64 = p.1
  omega

theorem bankOf_unitAt (b : BankIx) (p : Position) : bankOf (unitAt b p) = b := by
  apply Fin.ext
  show (b.1 * 64 + p.1) / 64 = b.1
  omega

theorem unitsOf_getElem? (b : BankIx) (p : Position) : (unitsOf b)[p.1]? = some (unitAt b p) := by
  unfold unitsOf
  rw [List.getElem?_map, List.getElem?_eq_getElem (by simp)]
  simp

/-- The units of a bank with what the enumeration brought, one by one. -/
theorem unitsOf_zip_get (b : BankIx) (ids : List Identity) (p : Position) :
    ((unitsOf b).zip ids)[p.1]? = (ids[p.1]?).map fun i => (unitAt b p, i) := by
  rw [List.zip, List.getElem?_zipWith, unitsOf_getElem?]
  cases ids[p.1]? <;> rfl

theorem mem_unitsOf_zip {i : Identity} (h : (u, i) ∈ (unitsOf b).zip ids) : ∃ p : Position, u = unitAt b p ∧ ids[p.1]? = some i := by
  obtain ⟨k, hk⟩ := List.mem_iff_getElem?.mp h
  have inside : k < 64 := by
    obtain ⟨hlt, -⟩ := List.getElem?_eq_some_iff.mp hk
    simp [unitsOf] at hlt
    exact hlt.1
  rw [unitsOf_zip_get b ids ⟨k, inside⟩] at hk
  obtain ⟨j, hj, e⟩ := Option.map_eq_some_iff.mp hk
  obtain ⟨rfl, rfl⟩ := Prod.mk.inj e
  exact ⟨⟨k, inside⟩, rfl, hj⟩

/-! ### The kinds compared (R108) -/

/-- Every position's kind is the one its map entry gives. -/
theorem kindMismatch_none (h : ∀ (p : Position) (i : Identity), ids[p.1]? = some i → i.kind = (s.kind (unitAt b p)).nodeKind) :
    s.kindMismatch b ids = none := by
  unfold State.kindMismatch
  rw [Option.map_eq_none_iff, List.find?_eq_none]
  rintro ⟨u, i⟩ hui
  obtain ⟨p, rfl, hi⟩ := mem_unitsOf_zip hui
  simpa using h p i hi

/-- The lowest position whose kind is not the one its map entry gives. -/
theorem kindMismatch_first {i : Identity} (hi : ids[p.1]? = some i) (hk : i.kind ≠ (s.kind (unitAt b p)).nodeKind)
    (before : ∀ q : Position, q.1 < p.1 → ∀ i, ids[q.1]? = some i → i.kind = (s.kind (unitAt b q)).nodeKind) :
    s.kindMismatch b ids = some (unitAt b p) := by
  unfold State.kindMismatch
  have here : ((unitsOf b).zip ids)[p.1]? = some (unitAt b p, i) := by
    rw [unitsOf_zip_get, hi]
    rfl
  obtain ⟨inside, at_p⟩ := List.getElem?_eq_some_iff.mp here
  have found : ((unitsOf b).zip ids).find? (fun ui => ui.2.kind ≠ (s.kind ui.1).nodeKind) = some (unitAt b p, i) := by
    rw [List.find?_eq_some_iff_getElem]
    refine ⟨by simpa using hk, p.1, inside, at_p, fun j hj => ?_⟩
    have low : j < 64 := by omega
    obtain ⟨hlt, e⟩ := List.getElem?_eq_some_iff.mp (List.getElem?_eq_getElem (Nat.lt_trans hj inside))
    have pair := unitsOf_zip_get b ids ⟨j, low⟩
    rw [List.getElem?_eq_getElem hlt] at pair
    obtain ⟨i', hi', e'⟩ := Option.map_eq_some_iff.mp pair.symm
    rw [← e']
    simpa using before ⟨j, low⟩ hj i' hi'
  rw [found]
  rfl

/-! ### The three ends (R108) -/

/-- The nodes as the pass leaves them. -/
def enumeratedNodes (s : State) (b : BankIx) : List Node :=
  setData s.clock.ms (parkData (readSlots (s.chain b) Noise.none 65).1)

theorem enumerationPassEnd_eq (hs : (s.bank b).state = .enumerating) (ha : (s.bank b).activity = .enumerating)
    (hi : Identified (s.chain b)) (hl : (s.chain b).length ≤ 64) : exec (.enumerationPassEnd b Noise.none) s =
      .next (enumerated (s.setChain b (enumeratedNodes s b)) b ((s.chain b).map Node.identity)) := by
  refine congrArg Host.Outcome.next ?_
  show enumerationEnd s b Noise.none = _
  have read := identities_read hi hl
  unfold enumerationEnd
  rw [if_pos ⟨hs, ha⟩]
  dsimp only
  rw [read]
  rfl

theorem enumerated_count (h : ids.length ≠ (s.bankRec b).nodeCount) :
    enumerated s b ids = s.enumerationFaults b .count ids.length none := if_pos h

theorem enumerated_kind (h : ids.length = (s.bankRec b).nodeCount) (hk : s.kindMismatch b ids = some u) :
    enumerated s b ids = s.enumerationFaults b .kind 0 (some u) := by
  unfold enumerated
  dsimp only
  rw [if_neg (not_not.mpr h), hk]
  rfl

/-! ### A bank enters RUNNING (R108) -/

/-- The record of a bank that has entered RUNNING, before its first cycle. -/
def Bank.entered (k : Bank) (now : Millis) (sweep : Nat) : Bank :=
  { k with
    state := .running, failures := 0, fresh := true, activity := .idle, owed := none
    cycleBegun := now, cycleDue := now + BitVec.ofNat 32 sweep }

theorem beginStatus_bank (s : State) (b : BankIx) (due : Millis) : (beginStatus s b due).bank b = { s.bank b with
    cycleBegun := due, passCount := (s.bank b).passCount + 1, activity := .statusMode (s.statusModes b) } := by
  rw [beginStatus_eq]
  exact setBank_bank_self s b { s.bank b with
    cycleBegun := due, passCount := (s.bank b).passCount + 1, activity := .statusMode (s.statusModes b) }

/-- The bank as it enters RUNNING, its first cycle begun outside a warm restart. -/
def State.entersRunning (s : State) (b : BankIx) : State :=
  let t := s.modBank b fun k => k.entered s.clock.ms (s.bankRec b).sweep
  if s.restart.isSome then t else beginStatus t b s.clock.ms

theorem entersRunning_frame (s : State) (b : BankIx) :
    s.entersRunning b = { s with banks := (s.entersRunning b).banks, chains := (s.entersRunning b).chains } := by
  unfold State.entersRunning
  dsimp only
  split_ifs
  · rfl
  · rw [beginStatus_eq]
    rfl

theorem entersRunning_others (hd : d ≠ b) :
    (s.entersRunning b).bank d = s.bank d ∧ (s.entersRunning b).chain d = s.chain d := by
  unfold State.entersRunning
  dsimp only
  split_ifs
  · exact ⟨setBank_bank_other s b d _ hd, rfl⟩
  · rw [beginStatus_eq, modBank_modBank]
    exact ⟨setBank_bank_other s b d _ hd, setChain_chain_other _ b d _ hd⟩

theorem entersRunning_bank (s : State) (b : BankIx) : (s.entersRunning b).bank b =
    { (s.bank b).entered s.clock.ms (s.bankRec b).sweep with
      activity := ((s.entersRunning b).bank b).activity, passCount := ((s.entersRunning b).bank b).passCount } := by
  unfold State.entersRunning
  dsimp only
  split_ifs
  · rw [modBank_bank_self]
  · have begun := beginStatus_bank (s.modBank b fun k => k.entered s.clock.ms (s.bankRec b).sweep) b s.clock.ms
    rw [modBank_bank_self] at begun
    rw [begun]
    rfl

theorem entersRunning_cycle (h : s.restart = none) : ((s.entersRunning b).bank b).activity = .statusMode (s.statusModes b) ∧
    ((s.entersRunning b).bank b).passCount = (s.bank b).passCount + 1 := by
  have begun := beginStatus_bank (s.modBank b fun k => k.entered s.clock.ms (s.bankRec b).sweep) b s.clock.ms
  rw [modBank_bank_self] at begun
  unfold State.entersRunning
  dsimp only
  rw [if_neg (by simp [h]), begun]
  exact ⟨rfl, rfl⟩

/-- The faulted-since-running mark cleared. -/
def State.unmarked (s : State) (b : BankIx) : State := s.modBank b fun k => { k with faultedMark := false }

theorem put_get_eq {α : Type} {n : Nat} (v : Vector α n) (i : Fin n) : put v i (v.get i) = v := by
  simp [put, Vector.get_eq_getElem]

theorem unmarked_bank (s : State) (b : BankIx) : (s.unmarked b).bank b = { s.bank b with faultedMark := false } :=
  modBank_bank_self

theorem unmarked_of_clear (h : (s.bank b).faultedMark = false) : s.unmarked b = s := by
  have same : ({ s.bank b with faultedMark := false } : Bank) = s.bank b := by rw [← h]
  have kept : s.setBank b (s.bank b) = s := congrArg (fun v => { s with banks := v }) (put_get_eq s.banks b)
  exact (congrArg (s.setBank b) same).trans kept

/-- A bank enters RUNNING: its record and its first cycle, the report, and the notice where the mark was set. -/
theorem enterRunning_eq (s : State) (b : BankIx) : enterRunning s b =
    { (reportReset (s.entersRunning b) b .running none 0).unmarked b with
      notices := if (s.bank b).faultedMark then s.notices.post (s.notice .bankRestored 0 none none b.1)
        else s.notices } := by
  have frame := entersRunning_frame s b
  have bank := entersRunning_bank s b
  show (if (s.bank b).faultedMark then
    post ((reportReset (s.entersRunning b) b .running none 0).unmarked b) .bankRestored 0 none none b.1
    else reportReset (s.entersRunning b) b .running none 0) = _
  generalize s.entersRunning b = m at *
  have reports := reportReset_frame m b .running none 0
  generalize reportReset m b .running none 0 = t at *
  have notices : t.notices = s.notices := by rw [reports]; show m.notices = _; rw [frame]
  have clock : t.clock = s.clock := by rw [reports]; show m.clock = _; rw [frame]
  have mark : (t.bank b).faultedMark = (s.bank b).faultedMark := by
    have : t.bank b = m.bank b := by rw [reports]; rfl
    rw [this, bank]
    rfl
  cases h : (s.bank b).faultedMark with
  | true =>
    rw [if_pos rfl, if_pos rfl, ← notices, State.notice, ← clock]
    rfl
  | false =>
    rw [h] at mark
    rw [if_neg (by decide), if_neg (by decide), unmarked_of_clear mark, ← notices]

theorem enterRunning_told (s : State) (b : BankIx) : Told s (enterRunning s b) b .running none 0 := by
  have frame := entersRunning_frame s b
  have told := reportReset_told (s := s) (m := s.entersRunning b) (b := b) (by rw [frame]) (.same (by rw [frame]))
    .running none 0
  rw [enterRunning_eq]
  exact told

theorem enterRunning_frame (s : State) (b : BankIx) : enterRunning s b = { s with
    engine := { s.engine with inbox := (enterRunning s b).engine.inbox }
    banks := (enterRunning s b).banks, chains := (enterRunning s b).chains
    notices := if (s.bank b).faultedMark then s.notices.post (s.notice .bankRestored 0 none none b.1)
      else s.notices } := by
  have frame := entersRunning_frame s b
  rw [enterRunning_eq]
  generalize s.entersRunning b = m at *
  have reports := reportReset_frame m b .running none 0
  generalize reportReset m b .running none 0 = t at *
  rw [reports]
  show _ = _
  rw [frame]
  rfl

theorem enterRunning_bank (s : State) (b : BankIx) : (enterRunning s b).bank b =
    { (s.entersRunning b).bank b with faultedMark := false } := by
  have bank : (reportReset (s.entersRunning b) b .running none 0).bank b = (s.entersRunning b).bank b := by
    rw [reportReset_frame]
    rfl
  rw [enterRunning_eq, ← bank]
  exact unmarked_bank _ b

theorem enterRunning_others (hd : d ≠ b) :
    (enterRunning s b).bank d = s.bank d ∧ (enterRunning s b).chain d = s.chain d := by
  have others := entersRunning_others (s := s) hd
  rw [enterRunning_eq, reportReset_frame]
  exact ⟨(setBank_bank_other _ b d _ hd).trans others.1, others.2⟩


end Sys2Proof.Machine
end

/-! ## What an enumeration finds -/

section
namespace Sys2Proof.Machine

variable {s t m : State} {b d : BankIx} {ns : List Node} {code : FaultCode} {count : Nat} {unit : Option UnitIx}
  {st : BankState} {u v : UnitIx} {p q : Position} {x : Node}

/-- A bank faults at the end of its enumeration, as the report of the statement has it (R108, R110, R161). -/
structure FoundFault (s t : State) (b : BankIx) (code : FaultCode) (count : Nat) (unit : Option UnitIx) : Prop where
  loses : BankLoses s t b
  told : Told s t b .faulted (some code) count
  bank : t.bank b = (s.bank b).faulted code s.clock.ms
  identities : t.identities = s.identities
  notices : t.notices = if (s.bank b).faultedMark ∧ (s.bank b).faultCode = some code then s.notices
    else s.notices.post (s.notice .bankFault code.code unit none (b.1 + count * 256))

theorem sameFault_iff {k : Bank} (h : k.state = .enumerating) :
    k.sameFault code = true ↔ k.faultedMark ∧ k.faultCode = some code := by
  simp [Bank.sameFault, h]

theorem enumerationFaults_found (h : (s.bank b).state = .enumerating) (ns : List Node) :
    FoundFault s ((s.setChain b ns).enumerationFaults b code count unit) b code count unit := by
  have loses := enumerationFaults_loses (s.setChain b ns) b code count unit
  have told := enumerationFaults_told (s.setChain b ns) b code count unit
  have bank := enumerationFaults_bank (s.setChain b ns) b code count unit
  have frame := enumerationFaults_frame (s.setChain b ns) b code count unit
  generalize (s.setChain b ns).enumerationFaults b code count unit = t at *
  refine ⟨loses.congr rfl rfl rfl rfl rfl rfl rfl, told, bank, by rw [frame]; rfl, ?_⟩
  rw [frame]
  exact if_congr (sameFault_iff h) rfl rfl

/-- What the end of an enumeration leaves alone. -/
structure EnumerationFrame (s t : State) (b : BankIx) : Prop where
  others : ∀ c, c ≠ b → t.bank c = s.bank c ∧ t.chain c = s.chain c
  rest : t.observed = s.observed ∧ t.taps = s.taps ∧ t.tapMemory = s.tapMemory ∧ t.bands = s.bands ∧
    t.timers = s.timers ∧ t.journal = s.journal ∧ t.store = s.store ∧ t.tables = s.tables ∧
    t.engine = { s.engine with inbox := t.engine.inbox }

theorem enumerationFaults_kept (s : State) (b : BankIx) (code : FaultCode) (count : Nat) (unit : Option UnitIx)
    (ns : List Node) : EnumerationFrame s ((s.setChain b ns).enumerationFaults b code count unit) b where
  others c hc := by
    obtain ⟨bank, chain⟩ := enumerationFaults_others (s := s.setChain b ns) (code := code) (count := count)
      (unit := unit) hc
    exact ⟨bank, chain.trans (setChain_chain_other s b c ns hc)⟩
  rest := by
    have frame := enumerationFaults_frame (s.setChain b ns) b code count unit
    generalize (s.setChain b ns).enumerationFaults b code count unit = t at *
    rw [frame]
    exact ⟨rfl, rfl, rfl, rfl, rfl, rfl, rfl, rfl, rfl⟩

/-- A bank RUNNING after its enumeration, these identities stored. -/
def State.foundAll (s : State) (b : BankIx) (ns : List Node) (v : Vector (Option Identity) 512) : State :=
  enterRunning { s.setChain b ns with identities := v } b

variable {v : Vector (Option Identity) 512}

theorem foundAll_frame (s : State) (b : BankIx) (ns : List Node) (v : Vector (Option Identity) 512) :
    s.foundAll b ns v = { s with
      identities := v
      engine := { s.engine with inbox := (s.foundAll b ns v).engine.inbox }
      banks := (s.foundAll b ns v).banks, chains := (s.foundAll b ns v).chains
      notices := if (s.bank b).faultedMark then s.notices.post (s.notice .bankRestored 0 none none b.1)
        else s.notices } := enterRunning_frame { s.setChain b ns with identities := v } b

theorem foundAll_kept (s : State) (b : BankIx) (ns : List Node) (v : Vector (Option Identity) 512) :
    EnumerationFrame s (s.foundAll b ns v) b where
  others c hc := by
    obtain ⟨bank, chain⟩ := enterRunning_others (s := { s.setChain b ns with identities := v }) hc
    exact ⟨bank, chain.trans (setChain_chain_other s b c ns hc)⟩
  rest := by
    have frame := foundAll_frame s b ns v
    generalize s.foundAll b ns v = t at *
    rw [frame]
    exact ⟨rfl, rfl, rfl, rfl, rfl, rfl, rfl, rfl, rfl⟩

theorem foundAll_told (s : State) (b : BankIx) (ns : List Node) (v : Vector (Option Identity) 512) :
    Told s (s.foundAll b ns v) b .running none 0 := enterRunning_told { s.setChain b ns with identities := v } b

/-- The record of the bank, its first cycle apart. -/
theorem foundAll_bank (s : State) (b : BankIx) (ns : List Node) (v : Vector (Option Identity) 512) :
    (s.foundAll b ns v).bank b = { (s.bank b).entered s.clock.ms (s.bankRec b).sweep with
      activity := ((s.foundAll b ns v).bank b).activity, passCount := ((s.foundAll b ns v).bank b).passCount
      faultedMark := false } := by
  have bank := enterRunning_bank { s.setChain b ns with identities := v } b
  rw [entersRunning_bank] at bank
  unfold State.foundAll
  rw [bank]
  rfl

theorem foundAll_cycle (h : s.restart = none) (ns : List Node) (v : Vector (Option Identity) 512) :
    ((s.foundAll b ns v).bank b).activity = .statusMode (s.statusModes b) ∧
      ((s.foundAll b ns v).bank b).passCount = (s.bank b).passCount + 1 := by
  have bank := enterRunning_bank { s.setChain b ns with identities := v } b
  have cycle := entersRunning_cycle (s := { s.setChain b ns with identities := v }) (b := b) h
  unfold State.foundAll
  rw [bank]
  exact cycle

/-- The identities a bank holds once all are found. -/
def State.identitiesFound (s : State) (b : BankIx) (ids : List Identity) : Vector (Option Identity) 512 :=
  onBank s.identities b fun p old => (ids[p.1]?).or old

theorem identitiesFound_get (s : State) (b : BankIx) (ids : List Identity) (u : UnitIx) :
    (s.identitiesFound b ids).get u =
      if bankOf u = b then (ids[(posOf u).1]?).or (s.identities.get u) else s.identities.get u := by
  unfold State.identitiesFound onBank
  rw [tabulate_get]

theorem enumerated_runs {ids : List Identity} (h : ids.length = (s.bankRec b).nodeCount)
    (hk : s.kindMismatch b ids = none) (ns : List Node) :
    enumerated (s.setChain b ns) b ids = s.foundAll b ns (s.identitiesFound b ids) := by
  have mismatch : (s.setChain b ns).kindMismatch b ids = none := hk
  have count : ¬ids.length ≠ ((s.setChain b ns).bankRec b).nodeCount := not_not.mpr h
  unfold enumerated
  dsimp only
  rw [if_neg count, mismatch]
  rfl

/-- What the fault of an enumeration comes to, in the words of the statement. -/
theorem FoundFault.says (h : FoundFault s t b code count unit) :
    BankLoses s t b ∧ Told s t b .faulted (some code) count ∧
      (t.bank b).state = .faulted ∧ (t.bank b).activity = .idle ∧ (t.bank b).faultCode = some code ∧
      (t.bank b).faultedMark = true ∧ (t.bank b).retryAt = s.clock.ms + 5000 ∧ t.identities = s.identities ∧
      t.notices = if (s.bank b).faultedMark ∧ (s.bank b).faultCode = some code then s.notices
        else s.notices.post (s.notice .bankFault code.code unit none (b.1 + count * 256)) := by
  refine ⟨h.loses, h.told, ?_, ?_, ?_, ?_, ?_, h.identities, h.notices⟩
  all_goals
    rw [h.bank]
    rfl

theorem exists_first_position {P : Position → Prop} (h : ∃ p, P p) : ∃ p, P p ∧ ∀ q : Position, q.1 < p.1 → ¬P q := by
  obtain ⟨p, hp, least⟩ := (wellFounded_lt (α := Position)).has_min {p | P p} h
  exact ⟨p, hp, fun q hq h => least q h hq⟩

/-- Settles O44. -/
theorem enumerationFindsNodes : Obligations.EnumerationFindsNodes := by
  intro s b k ns n kindOf hs ha hl hi
  have ends := enumerationPassEnd_eq (s := s) (b := b) hs ha hi hl
  have nodes := List.length_map (as := s.chain b) Node.identity
  have got (p : Position) {i : Identity} (h : ((s.chain b).map Node.identity)[p.1]? = some i) :
      ∃ x, (s.chain b)[p.1]? = some x ∧ x.identity = i := by
    rw [List.getElem?_map] at h
    exact Option.map_eq_some_iff.mp h
  by_cases count : (s.chain b).length = (s.bankRec b).nodeCount
  · have same : ((s.chain b).map Node.identity).length = (s.bankRec b).nodeCount := nodes.trans count
    by_cases all : ∀ (p : Position) (x : Node), ns[p.1]? = some x → x.kind = kindOf (unitAt b p)
    · have none' : s.kindMismatch b ((s.chain b).map Node.identity) = none := kindMismatch_none fun p i h => by
        obtain ⟨x, hx, rfl⟩ := got p h
        exact all p x hx
      rw [enumerated_runs same none'] at ends
      refine ⟨_, ends, (foundAll_kept s b _ _).others, (foundAll_kept s b _ _).rest, fun h => absurd count h,
        fun p _ ⟨x, hx, h⟩ _ => absurd (all p x hx) h, fun _ _ => ?_⟩
      have frame := foundAll_frame s b (enumeratedNodes s b) (s.identitiesFound b ((s.chain b).map Node.identity))
      have told := foundAll_told s b (enumeratedNodes s b) (s.identitiesFound b ((s.chain b).map Node.identity))
      have bank := foundAll_bank s b (enumeratedNodes s b) (s.identitiesFound b ((s.chain b).map Node.identity))
      have cycle := fun h : s.restart = none =>
        foundAll_cycle (b := b) h (enumeratedNodes s b) (s.identitiesFound b ((s.chain b).map Node.identity))
      have stored := identitiesFound_get s b ((s.chain b).map Node.identity)
      generalize s.identitiesFound b ((s.chain b).map Node.identity) = v at *
      generalize s.foundAll b (enumeratedNodes s b) v = t at *
      have identities : t.identities = v := by rw [frame]
      refine ⟨told, by rw [frame], by rw [frame], by rw [bank]; rfl, by rw [bank]; rfl, by rw [bank]; rfl,
        by rw [bank], by rw [bank]; rfl, fun p x hx => ?_, fun u hu => ?_, by rw [frame], fun hr => ?_⟩
      · rw [identities, stored, if_pos (bankOf_unitAt b p), posOf_unitAt, List.getElem?_map, hx]
        rfl
      · rw [identities, stored, if_neg hu]
      · obtain ⟨activity, passes⟩ := cycle hr
        exact ⟨activity, passes, by rw [bank]; rfl⟩
    · obtain ⟨p, x, hx, hk, before⟩ : ∃ (p : Position) (x : Node), ns[p.1]? = some x ∧ x.kind ≠ kindOf (unitAt b p) ∧
          ∀ q : Position, q.1 < p.1 → ∀ x, ns[q.1]? = some x → x.kind = kindOf (unitAt b q) := by
        obtain ⟨p, ⟨x, hx, hk⟩, before⟩ := exists_first_position
          (P := fun p => ∃ x, ns[p.1]? = some x ∧ x.kind ≠ kindOf (unitAt b p)) (by simpa using all)
        exact ⟨p, x, hx, hk, fun q hq y hy => not_not.mp fun h => before q hq ⟨y, hy, h⟩⟩
      have first : s.kindMismatch b ((s.chain b).map Node.identity) = some (unitAt b p) :=
        kindMismatch_first (i := x.identity) (by rw [List.getElem?_map, hx]; rfl) hk fun q hq i h => by
          obtain ⟨y, hy, rfl⟩ := got q h
          exact before q hq y hy
      rw [enumerated_kind (s := s.setChain b (enumeratedNodes s b)) same first] at ends
      have kept := enumerationFaults_kept s b .kind 0 (some (unitAt b p)) (enumeratedNodes s b)
      refine ⟨_, ends, kept.others, kept.rest, fun h => absurd count h, fun q _ ⟨y, hy, hyk⟩ hq => ?_,
        fun _ h => absurd (h p x hx) hk⟩
      obtain rfl : q = p := by
        apply Fin.ext
        rcases Nat.lt_trichotomy q.1 p.1 with h | h | h
        · exact absurd (before q h y hy) hyk
        · exact h
        · exact absurd (hq p h x hx) hk
      exact (enumerationFaults_found hs _).says
  · have differs : ((s.chain b).map Node.identity).length ≠ ((s.setChain b (enumeratedNodes s b)).bankRec b).nodeCount :=
      fun h => count (nodes.symm.trans h)
    rw [enumerated_count differs, nodes] at ends
    have kept := enumerationFaults_kept s b .count (s.chain b).length none (enumeratedNodes s b)
    exact ⟨_, ends, kept.others, kept.rest, fun _ => (enumerationFaults_found hs _).says,
      fun p h => absurd h count, fun h => absurd h count⟩

end Sys2Proof.Machine
end

/-! ## The data pass of a status cycle at the nodes -/

section
namespace Sys2Proof.Machine

variable {s t m : State} {b : BankIx} {now : Millis} {modes : List NodeMode} {ns : List Node} {commands : List (List Bool)}
  {x y : Node} {l : List Bool} {i : Nat} {back pat : List Bool}

/-! ### The captured cells (R91, R98) -/

theorem captured_length (x : Node) : x.captured.length = x.mode.cellLength := by
  unfold Node.captured
  cases x.mode with
  | pass => rfl
  | status =>
    dsimp only
    split <;> simp [NodeMode.cellLength]
  | tap => simp [bitsOf_length, NodeMode.cellLength]
  | ident => simp [bitsOf_length, NodeMode.cellLength]

theorem cellLength_pos (m : NodeMode) : 0 < m.cellLength := by cases m <;> decide

/-- A captured cell is well marked (R98, R182). -/
theorem cellMarked_captured (x : Node) : cellMarked x.mode x.captured = true := by
  unfold Node.captured
  cases x.mode with
  | pass => rfl
  | status =>
    dsimp only
    split <;> rfl
  | tap => rfl
  | ident => rfl

/-! ### What comes back (R97) -/

/-- The cells cut out of the bits received, one after another. -/
theorem splitCells_foldl {ms : List NodeMode} {cs : List (List Bool)} (h : cs.map List.length = ms.map NodeMode.cellLength)
    (acc : List (List Bool)) (rest : List Bool) :
    ms.foldl (fun (acc : List (List Bool) × List Bool) m =>
      (acc.2.take m.cellLength :: acc.1, acc.2.drop m.cellLength)) (acc, cs.flatten ++ rest) = (cs.reverse ++ acc, rest) := by
  induction ms generalizing cs acc with
  | nil =>
    have none' : cs = [] := List.map_eq_nil_iff.mp h
    subst none'
    rfl
  | cons m ms ih =>
    cases cs with
    | nil => exact absurd h (by simp)
    | cons c cs =>
      obtain ⟨first, others⟩ := List.cons.inj h
      rw [List.foldl_cons, List.flatten_cons, List.append_assoc]
      dsimp only
      rw [← first, List.take_left, List.drop_left, ih others]
      simp

theorem splitCells_held {regs : List (List Bool)} (h : regs.map List.length = modes.map NodeMode.cellLength)
    (pat : List Bool) : splitCells modes (held regs ++ pat) = regs := by
  have cut := splitCells_foldl (ms := modes.reverse) (cs := regs.reverse)
    (by rw [List.map_reverse, List.map_reverse, h]) [] pat
  unfold splitCells held
  rw [cut]
  simp

theorem held_cells_length {regs : List (List Bool)} (h : regs.map List.length = modes.map NodeMode.cellLength) :
    (held regs).length = cellsLength modes := by
  rw [held_length, h, cellsLength]

/-! ### The pass (R97, R98) -/

/-- The nodes of a chain at the start of a status data pass, and the cells sent for them. -/
structure CellsDue (ns : List Node) (modes : List NodeMode) (commands : List (List Bool)) : Prop where
  set : modes = ns.map Node.mode
  nodes : ∀ x ∈ ns, x.phase = .cellTake ∧ x.reg = x.captured
  lengths : commands.map List.length = modes.map NodeMode.cellLength

theorem CellsDue.captured (h : CellsDue ns modes commands) :
    (ns.map Node.captured).map List.length = modes.map NodeMode.cellLength := by
  rw [h.set, List.map_map, List.map_map]
  exact List.map_congr_left fun x _ => captured_length x

theorem CellsDue.count (h : CellsDue ns modes commands) : commands.length = ns.length := by
  have lengths := congrArg List.length h.lengths
  rw [h.set] at lengths
  simpa using lengths

/-- The shifting of a status data pass on an undisturbed way out: every register holds the cell sent for it, and the
captured cells and the check pattern come back. -/
theorem CellsDue.shifted (h : CellsDue ns modes commands) (k : Bank) (back : List Bool) :
    shift ns ⟨[], back⟩ [] (fixedBits (pattern k ++ held commands)) =
      (List.zipWith Node.moves ns commands, noisy (held (ns.map Node.captured) ++ pattern k) back,
        ⟨[], back.drop (pattern k ++ held commands).length⟩) := by
  have fills := shift_fills (ns := ns) (regs := ns.map Node.captured) takes_shifts moves_shifts (by simp)
    (fun r hr => by
      obtain ⟨x, -, rfl⟩ := List.mem_map.mp hr
      exact List.ne_nil_of_length_pos (by rw [captured_length]; exact cellLength_pos _))
    (pattern_ne_nil k) (h.lengths.trans h.captured.symm) back
  rw [zipWith_takes h.nodes] at fills
  exact fills

/-- A node that has applied the cell sent for it (R92, R94). -/
def Node.commanded (now : Millis) (x : Node) (l : List Bool) : Node :=
  ({ ({ x with reg := l } : Node).applyCell with phase := .rest } : Node).timed now

theorem applyOp_phase (n : Node) (p : Phase) (op len : Nat) :
    ({ n with phase := p } : Node).applyOp op len = { n.applyOp op len with phase := p } := by
  unfold Node.applyOp
  dsimp only
  split
  · rfl
  · split <;> rfl

theorem applyCommand_phase (n : Node) (p : Phase) (c : List Bool) :
    ({ n with phase := p } : Node).applyCommand c = { n.applyCommand c with phase := p } := by
  unfold Node.applyCommand
  rw [applyOp_phase]
  dsimp only
  split <;> rfl

theorem applyTaken_phase (n : Node) (p : Phase) (c : List Bool) :
    ({ n with phase := p } : Node).applyTaken c = { n.applyTaken c with phase := p } := by
  unfold Node.applyTaken
  dsimp only
  split <;> rfl

theorem applyCell_status (h : x.mode = .status) : x.applyCell = { x.applyCommand x.reg with reg := [] } := by
  unfold Node.applyCell
  rw [h]

theorem applyCell_tap (h : x.mode = .tap) : x.applyCell = { x.applyTaken x.reg with reg := [] } := by
  unfold Node.applyCell
  rw [h]

theorem applyCell_other (h : x.mode = .pass ∨ x.mode = .ident) : x.applyCell = { x with reg := [] } := by
  rcases h with h | h <;> simp only [Node.applyCell, h]

/-- What a node applies does not depend on its phase. -/
theorem applyCell_phase (n : Node) (p : Phase) :
    ({ n with phase := p } : Node).applyCell = { n.applyCell with phase := p } := by
  have modes : n.mode = .status ∨ n.mode = .tap ∨ n.mode = .pass ∨ n.mode = .ident := by cases n.mode <;> simp
  rcases modes with h | h | h
  · rw [applyCell_status (x := { n with phase := p }) h, applyCell_status h, applyCommand_phase]
  · rw [applyCell_tap (x := { n with phase := p }) h, applyCell_tap h, applyTaken_phase]
  · rw [applyCell_other (x := { n with phase := p }) h, applyCell_other h]

theorem applied_moves (now : Millis) (x : Node) (l : List Bool) :
    ({ x.moves l with phase := .cellHold } : Node).applied now = x.commanded now l := by
  unfold Node.applied Node.commanded
  have held : ({ x.moves l with phase := .cellHold } : Node) = { ({ x with reg := l } : Node) with phase := .cellHold } := rfl
  rw [held, applyCell_phase]

/-- The nodes as the pass leaves them. -/
def commandedNodes (now : Millis) (ns : List Node) (commands : List (List Bool)) : List Node :=
  List.zipWith (Node.commanded now) ns commands

theorem setData_moves (now : Millis) (ns : List Node) (commands : List (List Bool)) :
    setData now (parkData (List.zipWith Node.moves ns commands)) = commandedNodes now ns commands := by
  rw [parkData_eq fun n hn => ?_, setData_eq fun n hn => ?_, List.map_map, List.map_zipWith]
  · unfold commandedNodes
    congr 1
    funext x l
    exact applied_moves now x l
  · obtain ⟨m, -, rfl⟩ := List.mem_map.mp hn
    rfl
  · obtain ⟨i, hi, rfl⟩ := List.mem_iff_getElem.mp hn
    rw [List.getElem_zipWith]
    rfl

theorem commandedNodes_length (h : commands.length = ns.length) : (commandedNodes now ns commands).length = ns.length := by
  simp [commandedNodes, h]

theorem commandedNodes_get (hx : ns[i]? = some x) (hl : commands[i]? = some l)
    (hy : (commandedNodes now ns commands)[i]? = some y) : y = x.commanded now l := by
  rw [commandedNodes, List.getElem?_zipWith, hx, hl] at hy
  exact (Option.some.inj hy).symm

theorem commanded_eq (now : Millis) (x : Node) (l : List Bool) : x.commanded now l =
    { ({ x with reg := l } : Node).applyCell with
      phase := .rest
      pulseFrom := if ({ x with reg := l } : Node).applyCell.pulse.isSome ∧
        ({ x with reg := l } : Node).applyCell.pulseFrom = none then some now
        else ({ x with reg := l } : Node).applyCell.pulseFrom } := by
  unfold Node.commanded Node.timed
  generalize ({ x with reg := l } : Node).applyCell = z
  dsimp only
  split <;> rfl

/-! ### The judgement (R98) -/

theorem CellsDue.passes (h : CellsDue ns modes commands) (k : Bank) :
    dataPassOk modes (pattern k) (held (ns.map Node.captured) ++ pattern k) = true := by
  unfold dataPassOk
  rw [splitCells_held h.captured, ← held_cells_length h.captured, List.drop_left, List.take_of_length_le (by
    rw [pattern_length]), Bool.and_eq_true, List.all_eq_true]
  refine ⟨decide_eq_true rfl, fun mc hmc => ?_⟩
  rw [h.set, List.zip_map', List.mem_map] at hmc
  obtain ⟨x, -, rfl⟩ := hmc
  exact cellMarked_captured x

/-- A disturbed bit of the check pattern fails the pass. -/
theorem CellsDue.fails (h : CellsDue ns modes commands) (k : Bank) (low : cellsLength modes ≤ i)
    (high : i < cellsLength modes + 8) (hd : back[i]? = some true) :
    dataPassOk modes (pattern k) (noisy (held (ns.map Node.captured) ++ pattern k) back) = false := by
  have len := held_cells_length h.captured
  have inside : i < (held (ns.map Node.captured) ++ pattern k).length := by
    rw [List.length_append, len, pattern_length]
    exact high
  have flipped := noisy_flips inside hd
  rw [Bool.eq_false_iff]
  intro ok
  obtain ⟨same, -⟩ := Bool.and_eq_true_iff.mp ok
  have same := congrArg (fun l : List Bool => l[i - cellsLength modes]?) (of_decide_eq_true same)
  rw [List.getElem?_take, if_pos (by omega), List.getElem?_drop, Nat.add_sub_cancel' low, flipped,
    List.getElem_append_right (by omega)] at same
  simp only [len] at same
  rw [List.getElem?_eq_getElem (by rw [pattern_length]; omega)] at same
  exact absurd (Option.some.inj same) (by simp)

end Sys2Proof.Machine
end

/-! ## What the checks of R81 leave -/

section
namespace Sys2Proof.Machine

variable {s t m : State} {b : BankIx} {u v : UnitIx} {op : BoltOp} {a c x : Actuation} {l : List Actuation}
  {P : Actuation → Prop} {began : Millis}

/-! ### An actuation in the Actuation Queue that can move (R74) -/

/-- A property of a unit's movement that the grant does not change. -/
structure OfMovement (u : UnitIx) (op : BoltOp) (P : Actuation → Prop) : Prop where
  movement : ∀ a, P a → a.unit = u ∧ a.op = op
  granted : ∀ a q, P a → P { a with current := q }

/-- An actuation with a property waits or is granted. -/
def Queued (s : State) (P : Actuation → Prop) : Prop := ∃ a ∈ s.drive.waiting ++ s.drive.granted, P a

theorem Queued.of_sublists (h : Queued s P) (hw : ∀ a ∈ s.drive.waiting, a ∈ t.drive.waiting)
    (hg : ∀ a ∈ s.drive.granted, a ∈ t.drive.granted) : Queued t P := by
  obtain ⟨a, ha, hp⟩ := h
  exact ⟨a, List.mem_append.mpr ((List.mem_append.mp ha).imp (hw a) (hg a)), hp⟩

theorem join_queued (c : Actuation) (h : Queued s P) : Queued (s.setWaiting (joinWaiting s.drive.waiting c)) P :=
  h.of_sublists (fun _ ha => (mem_joinWaiting _ _ _).mpr (.inl ha)) fun _ ha => ha

theorem refill_queued (h : Queued s P) : Queued (refill s) P := by
  unfold refill
  split
  · exact h
  · exact h.of_sublists (fun _ ha => (mem_joinWaiting _ _ _).mpr (.inl ha)) fun _ ha => ha

/-- A head that does not have the property leaves the queue. -/
theorem headLeaves_queued {rest : List Actuation} (hw : s.drive.waiting = x :: rest) (hx : ¬P x) (h : Queued s P)
    (e : EngEvent) : Queued (refill ((s.setWaiting rest).hand e)) P := by
  obtain ⟨a, ha, hp⟩ := h
  refine refill_queued ⟨a, ?_, hp⟩
  rw [hw] at ha
  rcases List.mem_append.mp ha with ha | ha
  · rcases List.mem_cons.mp ha with rfl | ha
    · exact absurd hp hx
    · exact List.mem_append_left _ ha
  · exact List.mem_append_right _ ha

/-- The head's grant keeps the property. -/
theorem grantHead_queued {rest : List Actuation} (hP : OfMovement u op P) (hw : s.drive.waiting = x :: rest)
    (h : Queued s P) : Queued (grantHead s x rest) P := by
  obtain ⟨a, ha, hp⟩ := h
  rw [hw] at ha
  rcases List.mem_append.mp ha with ha | ha
  · rcases List.mem_cons.mp ha with rfl | ha
    · exact ⟨{ a with current := some (s.coil (bankOf a.unit)) }, by simp [grantHead], hP.granted a _ hp⟩
    · exact ⟨a, by simp [grantHead, ha], hp⟩
  · exact ⟨a, by simp [grantHead, ha], hp⟩

/-- The examination leaves an actuation that can move, waiting or granted (R74). -/
theorem examineLoop_queued (hP : OfMovement u op P) (n : Nat) (s : State) (hc : CanMove s u op) (h : Queued s P) :
    Queued (examineLoop n s) P := by
  induction n generalizing s with
  | zero => exact h
  | succ n ih =>
    have acts (rest : List Actuation) (e : EngEvent) : DriveActs s (refill ((s.setWaiting rest).hand e)) :=
      ((setWaiting_acts s _).trans (hand_acts _ _)).trans (refill_acts _)
    unfold examineLoop
    split_ifs
    · exact h
    · split
      · exact h
      next x rest hw =>
        split_ifs with stopped withheld
        · have other : ¬P x := fun hp => stopped (by rw [(hP.movement x hp).1]; exact hc.1)
          exact ih _ ((acts _ _).canMove hc) (headLeaves_queued hw other h _)
        · have other : ¬P x := fun hp => by
            obtain ⟨hu, ho⟩ := hP.movement x hp
            simp only [State.withheld, hu, ho, Bool.and_eq_true, decide_eq_true_eq] at withheld
            exact hc.2 ⟨withheld.1.1, withheld.1.2, withheld.2⟩
          exact ih _ ((acts _ _).canMove hc) (headLeaves_queued hw other h _)
        · exact ih _ ((grantHead_acts s _ _).canMove hc) (grantHead_queued hP hw h)
        · exact h

theorem placeFreed_queued (hP : OfMovement u op P) (hc : CanMove s u op) (h : Queued s P) : Queued (placeFreed s) P := by
  unfold placeFreed
  dsimp only
  split_ifs
  · exact examineLoop_queued hP _ _ ((refill_acts s).canMove hc) (refill_queued h)
  · exact refill_queued h

/-- An actuation that joins the waiting list, and one that stands there already (R72, R74). -/
theorem enqueue_queued (hP : OfMovement u op P) (hc : CanMove s u op)
    (h : Queued (s.setWaiting (joinWaiting s.drive.waiting a)) P) : Queued (enqueue s a) P := by
  unfold enqueue
  dsimp only
  split_ifs
  · exact examineLoop_queued hP _ _ ((setWaiting_acts s _).canMove hc) h
  · exact h

theorem enqueue_grants (s : State) (a : Actuation) : Grants s (enqueue s a) := by
  unfold enqueue
  dsimp only
  split_ifs
  · exact (setWaiting_grants _).trans (examine_grants _)
  · exact setWaiting_grants _

/-! ### One check (R81 to R83) -/

theorem verifyOne_queued (hP : OfMovement u op P) (hc : CanMove s u op) (h : Queued s P) (a : Actuation) :
    Queued (verifyOne s a) P := by
  have unawaited : Queued (s.unawaited a.unit) P := h
  have canMove : CanMove (s.unawaited a.unit) u op := (unawaited_acts s _).canMove hc
  rcases verifyOne_cases s a with ⟨e, -, h⟩ | h <;> rw [h]
  · exact placeFreed_queued hP ((hand_acts _ e).canMove canMove) unawaited
  · exact enqueue_queued hP canMove (join_queued _ unawaited)

theorem verifyOne_granted (s : State) (a : Actuation) : s.drive.granted <+: (verifyOne s a).drive.granted := by
  rcases verifyOne_cases s a with ⟨e, -, h⟩ | h <;> rw [h]
  · obtain ⟨new, granted, -⟩ := (placeFreed_grants ((s.unawaited a.unit).hand e)).granted
    exact ⟨new, granted.symm⟩
  · obtain ⟨new, granted, -⟩ := (enqueue_grants (s.unawaited a.unit) a.retried).granted
    exact ⟨new, granted.symm⟩

/-- An actuation at the attempt after another's, in the NORMAL class (R82). -/
def RetryOf (a x : Actuation) : Prop :=
  x.unit = a.unit ∧ x.op = a.op ∧ x.urgency = .normal ∧ x.attempt = a.attempt + 1 ∧ x.delivered = false ∧
    x.pulseEnd = none

theorem retryOf_movement (a : Actuation) : OfMovement a.unit a.op (RetryOf a) where
  movement _ h := ⟨h.1, h.2.1⟩
  granted _ _ h := h

/-- What becomes of an actuation that is checked (R81 to R83). -/
structure Checked (s t : State) (a : Actuation) : Prop where
  verified : a.op.shownBy (s.cell a.unit) = true → EngEvent.verified a.unit a.op (s.cell a.unit) ∈ t.engine.inbox
  faulted : a.op.shownBy (s.cell a.unit) = false → 3 ≤ a.attempt →
    EngEvent.faulted a.unit a.op (s.cell a.unit) ∈ t.engine.inbox
  retried : a.op.shownBy (s.cell a.unit) = false → a.attempt < 3 → CanMove s a.unit a.op → Queued t (RetryOf a)

theorem verifyOne_eq (s : State) (a : Actuation) : verifyOne s a =
    if a.op.shownBy (s.cell a.unit) then placeFreed ((s.unawaited a.unit).hand (.verified a.unit a.op (s.cell a.unit)))
    else if a.attempt < 3 then enqueue (s.unawaited a.unit) a.retried
    else placeFreed ((s.unawaited a.unit).hand (.faulted a.unit a.op (s.cell a.unit))) := rfl

theorem verifyOne_checked (s : State) (a : Actuation) : Checked s (verifyOne s a) a := by
  have handed (e : EngEvent) : e ∈ (placeFreed ((s.unawaited a.unit).hand e)).engine.inbox :=
    (placeFreed_acts _).2.2.1.subset (List.mem_append_right _ (List.mem_singleton_self e))
  refine ⟨fun h => ?_, fun h ht => ?_, fun h ht hc => ?_⟩
  · rw [verifyOne_eq, if_pos h]
    exact handed _
  · rw [verifyOne_eq, if_neg (Bool.eq_false_iff.mp h), if_neg (Nat.not_lt.mpr ht)]
    exact handed _
  · rw [verifyOne_eq, if_neg (Bool.eq_false_iff.mp h), if_pos ht]
    refine enqueue_queued (retryOf_movement a) ((unawaited_acts s a.unit).canMove hc) ⟨a.retried, ?_, ?_⟩
    · exact List.mem_append_left _ ((mem_joinWaiting _ _ _).mpr (.inr rfl))
    · exact ⟨rfl, rfl, rfl, rfl, rfl, rfl⟩

theorem DriveActs.cell (h : DriveActs s t) (u : UnitIx) : t.cell u = s.cell u := by
  have observed : t.observed = s.observed := by rw [h.1]
  unfold State.cell
  rw [observed]

/-- What has become of it stays so through the checks of others. -/
theorem Checked.later (h : Checked s m a) (acts : DriveActs s m) (c : Actuation) : Checked s (verifyOne m c) a where
  verified hs := (verifyOne_acts m c).2.2.1.subset (h.verified hs)
  faulted hs ht := (verifyOne_acts m c).2.2.1.subset (h.faulted hs ht)
  retried hs ht hc := verifyOne_queued (retryOf_movement a) (acts.canMove hc) (h.retried hs ht hc) c

theorem Checked.earlier (h : Checked m t a) (acts : DriveActs s m) : Checked s t a where
  verified hs := by
    rw [← acts.cell] at hs ⊢
    exact h.verified hs
  faulted hs ht := by
    rw [← acts.cell] at hs ⊢
    exact h.faulted hs ht
  retried hs ht hc := by
    rw [← acts.cell] at hs
    exact h.retried hs ht (acts.canMove hc)

/-! ### The checks of a bank (R80 to R83) -/

theorem verifyOnes_granted (l : List Actuation) (s : State) : s.drive.granted <+: (l.foldl verifyOne s).drive.granted := by
  induction l generalizing s with
  | nil => exact List.prefix_rfl
  | cons a l ih => exact (verifyOne_granted s a).trans (ih _)

theorem mem_verifyOnes_awaiting (l : List Actuation) (s : State) :
    x ∈ (l.foldl verifyOne s).drive.awaiting ↔ x ∈ s.drive.awaiting ∧ ∀ a ∈ l, x.unit ≠ a.unit := by
  induction l generalizing s with
  | nil => simp
  | cons a l ih =>
    rw [List.foldl_cons, ih, verifyOne_awaiting, List.mem_filter, List.forall_mem_cons, and_assoc, decide_eq_true_iff]

theorem verifyOnes_later (h : Checked s m a) (acts : DriveActs s m) (l : List Actuation) :
    Checked s (l.foldl verifyOne m) a := by
  induction l generalizing m with
  | nil => exact h
  | cons c l ih => exact ih (h.later acts c) (acts.trans (verifyOne_acts m c))

theorem verifyOnes_checked (l : List Actuation) (s : State) : ∀ a ∈ l, Checked s (l.foldl verifyOne s) a := by
  induction l generalizing s with
  | nil => simp
  | cons c l ih =>
    intro a ha
    rcases List.mem_cons.mp ha with rfl | ha
    · exact verifyOnes_later (verifyOne_checked s a) (verifyOne_acts s a) l
    · exact (ih (verifyOne s c) a ha).earlier (verifyOne_acts s c)

theorem shownBy_iff {c : Cell} : op.shownBy c = true ↔ c.pulse = false ∧ (c.bolt = true ↔ op = .throw) := by
  cases op <;> simp [BoltOp.shownBy]

/-- The actuations of a bank that a pass checks (R80). -/
def State.checkedOf (s : State) (b : BankIx) (began : Millis) : List Actuation :=
  s.drive.awaiting.filter fun a => bankOf a.unit = b && a.settled began

theorem mem_checkedOf : a ∈ s.checkedOf b began ↔ a ∈ s.drive.awaiting ∧ bankOf a.unit = b ∧ a.settled began = true := by
  simp [State.checkedOf]

theorem verifyBank_eq (s : State) (b : BankIx) (began : Millis) :
    verifyBank s b began = (s.checkedOf b began).foldl verifyOne s.noteArrivals := rfl

/-- What a passed status data pass does to an actuation that awaits verify (R80 to R83). -/
structure Judged (s t : State) (began : Millis) (a : Actuation) : Prop where
  waits : a.settled began = false → a ∈ t.drive.awaiting
  leaves : a.settled began = true → ∀ x ∈ t.drive.awaiting, x.unit ≠ a.unit
  checked : a.settled began = true → Checked s t a

theorem verifyBank_judged (ok : MovementsOk s) (ha : a ∈ s.drive.awaiting) (hb : bankOf a.unit = b) :
    Judged s (verifyBank s b began) began a := by
  rw [verifyBank_eq]
  refine ⟨fun h => ?_, fun h x hx => ?_, fun h => ?_⟩
  · refine (mem_verifyOnes_awaiting _ _).mpr ⟨ha, fun c hc same => ?_⟩
    obtain ⟨hc, -, settled⟩ := mem_checkedOf.mp hc
    have : a = c := List.inj_on_of_nodup_map ok.awaiting_nodup ha hc same
    rw [this, settled] at h
    exact absurd h (by decide)
  · exact ((mem_verifyOnes_awaiting _ _).mp hx).2 a (mem_checkedOf.mpr ⟨ha, hb, h⟩)
  · have checked := verifyOnes_checked (s.checkedOf b began) s.noteArrivals a (mem_checkedOf.mpr ⟨ha, hb, h⟩)
    exact ⟨checked.verified, checked.faulted, checked.retried⟩

end Sys2Proof.Machine
end

/-! ## What a status data pass sends, and what it observes -/

section
namespace Sys2Proof.Machine

variable {s t m : State} {b d : BankIx} {modes : List NodeMode} {ops : List (UnitIx × Nat)} {u v : UnitIx}
  {ns : List Node} {cells : List (UnitIx × Cell)} {began : Millis} {a : Actuation} {us : List UnitIx}

/-! ### The ops and the beep requests that were sent (R51, R77) -/

/-- The plan once a sent beep request is cleared, one set since apart (R51). -/
def LampPlan.beeped (p : LampPlan) : LampPlan := { p with beep := p.beep && !p.beepSent, beepSent := false }

/-- The state once the ops sent are delivered and the beep requests sent are cleared. -/
def State.sentOut (s : State) (b : BankIx) (modes : List NodeMode) (ops : List (UnitIx × Nat)) : State :=
  clearBeeps (deliverOps s ops) (unitsIn b modes .status)

theorem sentOut_frame (s : State) (b : BankIx) (modes : List NodeMode) (ops : List (UnitIx × Nat)) :
    s.sentOut b modes ops = { s with
      units := (s.sentOut b modes ops).units
      drive := { s.drive with granted := s.drive.granted.map (Actuation.deliver s.clock.ms ops) } } :=
  modUnits_frame _ _ (deliverOps s ops)

theorem sentOut_unit (s : State) (b : BankIx) (modes : List NodeMode) (ops : List (UnitIx × Nat)) (u : UnitIx) :
    (s.sentOut b modes ops).unit u = { s.unit u with
      lamp := if (u, NodeMode.status) ∈ (unitsOf b).zip modes then (s.unit u).lamp.beeped else (s.unit u).lamp } := by
  have units := modUnits_unit (f := fun r => { r with lamp := r.lamp.beeped }) (unitsIn_nodup b modes .status)
    (deliverOps s ops) u
  refine units.trans ?_
  by_cases h : (u, NodeMode.status) ∈ (unitsOf b).zip modes
  · rw [if_pos (mem_unitsIn.mpr h), if_pos h]
    rfl
  · rw [if_neg (mem_unitsIn.not.mpr h), if_neg h]
    rfl

theorem sentOut_setChain (s : State) (b : BankIx) (modes : List NodeMode) (ops : List (UnitIx × Nat)) (ns : List Node) :
    clearBeeps (deliverOps (s.setChain b ns) ops) (unitsIn b modes .status) = (s.sentOut b modes ops).setChain b ns := by
  have units : (clearBeeps (deliverOps (s.setChain b ns) ops) (unitsIn b modes .status)).units =
      (s.sentOut b modes ops).units := modUnits_units _ _ rfl
  have frame : clearBeeps (deliverOps (s.setChain b ns) ops) (unitsIn b modes .status) =
      { deliverOps (s.setChain b ns) ops with
        units := (clearBeeps (deliverOps (s.setChain b ns) ops) (unitsIn b modes .status)).units } := modUnits_frame _ _ _
  rw [frame, units, sentOut_frame s b modes ops]
  rfl

theorem sentOut_calm : Calm s (s.sentOut b modes ops) :=
  clearBeeps_calm.of deliverOps_calm

/-! ### The cells observed (R101) -/

theorem posts_eq (l : List (UnitIx × Cell)) (b : BankIx) (s : State) :
    l.foldl (fun t uc => post t .nodeTamper 0 (some uc.1) none b.1) s =
      { s with notices := l.foldl (fun q uc => q.post (s.notice .nodeTamper 0 (some uc.1) none b.1)) s.notices } := by
  induction l generalizing s with
  | nil => rfl
  | cons uc l ih =>
    rw [List.foldl_cons, List.foldl_cons, ih]
    rfl

theorem puts_get {α : Type} {n : Nat} (l : List (Fin n × α)) (v : Vector α n) (i : Fin n) :
    (l.foldl (fun v uc => put v uc.1 uc.2) v).get i = ((l.reverse.find? fun uc => uc.1 = i).map (·.2)).getD (v.get i) := by
  induction l generalizing v with
  | nil => rfl
  | cons uc l ih =>
    rw [List.foldl_cons, ih, List.reverse_cons, List.find?_append]
    cases l.reverse.find? fun uc => uc.1 = i with
    | some found => rfl
    | none =>
      by_cases h : uc.1 = i
      · subst h
        simp
      · simp [h, put_get_other _ _ _ _ (Ne.symm h)]

theorem puts_get_other {α : Type} {n : Nat} {l : List (Fin n × α)} {v : Vector α n} {i : Fin n}
    (h : ∀ uc ∈ l, uc.1 ≠ i) : (l.foldl (fun v uc => put v uc.1 uc.2) v).get i = v.get i := by
  have none' : l.reverse.find? (fun uc => uc.1 = i) = none := List.find?_eq_none.mpr fun uc huc => by
    simpa using h uc (List.mem_reverse.mp huc)
  rw [puts_get, none']
  rfl

theorem puts_get_mem {α : Type} {n : Nat} {l : List (Fin n × α)} {v : Vector α n} {uc : Fin n × α}
    (hd : (l.map Prod.fst).Nodup) (h : uc ∈ l) : (l.foldl (fun v uc => put v uc.1 uc.2) v).get uc.1 = uc.2 := by
  have found : l.reverse.find? (fun x => x.1 = uc.1) = some uc := by
    obtain ⟨x, hx⟩ : ∃ x, l.reverse.find? (fun x => x.1 = uc.1) = some x :=
      Option.isSome_iff_exists.mp (List.find?_isSome.mpr ⟨uc, List.mem_reverse.mpr h, by simp⟩)
    have same : x.1 = uc.1 := by simpa using List.find?_some hx
    rw [hx, List.inj_on_of_nodup_map hd (List.mem_reverse.mp (List.mem_of_find?_eq_some hx)) h same]
  rw [puts_get, found]
  rfl

/-- The tap memory after a pass of the bank that began at a moment (R105). -/
theorem aged_get (v : Vector TapMemory 512) (b : BankIx) (began : Millis) (u : UnitIx) :
    (onBank v b fun _ m => m.aged began).get u = if bankOf u = b then (v.get u).aged began else v.get u := by
  unfold onBank
  rw [tabulate_get]

/-- Notices, observed fields and the tap memory replaced. -/
def State.seen (s : State) (q : NoticeQueue) (v : Vector Cell 512) (w : Vector TapMemory 512) : State :=
  { s with notices := q, observed := v, tapMemory := w }

/-- NODE_TAMPER of a pass (R101). -/
def State.tamperNotices (s : State) (b : BankIx) (fresh : Bool) (cells : List (UnitIx × Cell)) : NoticeQueue :=
  (cells.filter fun uc => uc.2.tamper && (fresh || !(s.cell uc.1).tamper)).foldl
    (fun q uc => q.post (s.notice .nodeTamper 0 (some uc.1) none b.1)) s.notices

/-- The chain goes on after a pass: to the reservation of the units that show TAPPEND, or free (R99, R103). -/
def State.reserves (s : State) (b : BankIx) (us : List UnitIx) : State :=
  if us = [] then chainFree s b else s.setActivity b (.reserving us)

theorem statusPassed_eq (s : State) (b : BankIx) (began : Millis) (cells : List (UnitIx × Cell)) :
    statusPassed s b began cells =
      ((if s.restart.isSome then s.seen (s.tamperNotices b (s.bank b).fresh cells)
          (cells.foldl (fun v uc => put v uc.1 uc.2) s.observed) (onBank s.tapMemory b fun _ m => m.aged began)
        else handCells (verifyBank (s.seen (s.tamperNotices b (s.bank b).fresh cells)
          (cells.foldl (fun v uc => put v uc.1 uc.2) s.observed) (onBank s.tapMemory b fun _ m => m.aged began)) b began)
            b (s.bank b).fresh cells s.cell).reserves b ((cells.filter fun uc => uc.2.tapPend).map (·.1))) := by
  have posted : postTamper s b (s.bank b).fresh cells =
      { s with notices := s.tamperNotices b (s.bank b).fresh cells } := posts_eq _ b s
  unfold statusPassed State.reserves
  dsimp only
  rw [posted]
  cases (cells.filter fun uc => uc.2.tapPend).map (·.1) with
  | nil => rfl
  | cons u us => rfl

end Sys2Proof.Machine
end

/-! ## The end of a status data pass -/

section
namespace Sys2Proof.Machine

variable {s t m x : State} {b d : BankIx} {modes : List NodeMode} {ops : List (UnitIx × Nat)} {u : UnitIx}
  {ns nodes : List Node} {commands : List (List Bool)} {cells : List (UnitIx × Cell)} {began : Millis} {a : Actuation}
  {us : List UnitIx} {k : Bank} {q : NoticeQueue} {v : Vector Cell 512} {w : Vector TapMemory 512} {fresh : Bool}

/-! ### The cells of a pass -/

theorem CellsDue.of_index (hm : modes.length = ns.length) (hc : commands.length = ns.length)
    (h : ∀ (i : Nat) (m : NodeMode) (x : Node) (l : List Bool), modes[i]? = some m → ns[i]? = some x →
      commands[i]? = some l →
      (m = .status ∨ m = .pass) ∧ x.mode = m ∧ x.phase = .cellTake ∧ x.reg = x.captured ∧ l.length = m.cellLength) :
    CellsDue ns modes commands := by
  have index (i : Nat) (hi : i < ns.length) :=
    h i modes[i] ns[i] commands[i] (List.getElem?_eq_getElem _) (List.getElem?_eq_getElem _) (List.getElem?_eq_getElem _)
  refine ⟨List.ext_getElem (by simp [hm]) fun i _ hi => ?_, fun x hx => ?_,
    List.ext_getElem (by simp [hc, hm]) fun i _ hi => ?_⟩
  · rw [List.length_map] at hi
    rw [List.getElem_map]
    exact (index i hi).2.1.symm
  · obtain ⟨i, hi, rfl⟩ := List.mem_iff_getElem.mp hx
    obtain ⟨-, -, phase, reg, -⟩ := index i hi
    exact ⟨phase, reg⟩
  · rw [List.length_map, hm] at hi
    rw [List.getElem_map, List.getElem_map]
    exact (index i hi).2.2.2.2

/-- The cells that a status data pass brings, of the units set to STATUS (R101). -/
def cellsOf (b : BankIx) (modes : List NodeMode) (ns : List Node) : List (UnitIx × Cell) :=
  ((unitsOf b).zip (modes.zip ns)).filterMap fun e => if e.2.1 = .status then some (e.1, statusCell e.2.2.reg) else none

theorem cellsOf_captured (h : CellsDue ns modes commands) (b : BankIx) :
    ((unitsOf b).zip (modes.zip (ns.map Node.captured))).filterMap (fun umc =>
      if umc.2.1 = .status then some (umc.1, statusCell umc.2.2) else none) = cellsOf b modes ns := by
  have regs : ns.map Node.captured = ns.map Node.reg := List.map_congr_left fun x hx => (h.nodes x hx).2.symm
  rw [regs, List.zip_map_right, List.zip_map_right, List.filterMap_map]
  rfl

theorem filterMap_fst_sublist {α β γ : Type} {f : α × β → Option (α × γ)} (hf : ∀ e x, f e = some x → x.1 = e.1)
    (l : List (α × β)) : ((l.filterMap f).map Prod.fst).Sublist (l.map Prod.fst) := by
  induction l with
  | nil => exact .slnil
  | cons e l ih =>
    cases hx : f e with
    | none =>
      rw [List.filterMap_cons_none hx]
      exact ih.cons _
    | some x =>
      rw [List.filterMap_cons_some hx, List.map_cons, List.map_cons, hf e x hx]
      exact ih.cons_cons _

theorem cellsOf_nodup (b : BankIx) (modes : List NodeMode) (ns : List Node) : ((cellsOf b modes ns).map Prod.fst).Nodup := by
  refine List.Nodup.sublist (filterMap_fst_sublist (fun e x h => ?_) _)
    ((unitsOf_nodup b).sublist (map_fst_zip_sublist _ _))
  split at h
  · rw [← Option.some.inj h]
  · exact absurd h nofun

/-! ### The state in which a pass is judged -/

/-- The state once a pass that passed is observed, before anything is verified (R101). -/
def State.observedPass (s : State) (b : BankIx) (modes : List NodeMode) (ops : List (UnitIx × Nat)) (nodes : List Node)
    (q : NoticeQueue) (v : Vector Cell 512) (w : Vector TapMemory 512) : State :=
  (((s.sentOut b modes ops).setChain b nodes).setFailures b 0).seen q v w

/-- What is handed to the Binding Engine after a pass (R26, R49). -/
def toldOf (b : BankIx) (fresh : Bool) (cells : List (UnitIx × Cell)) (prev : UnitIx → Cell) : List EngEvent :=
  if fresh then [.reconcile b cells] else cells.map fun uc => .observed uc.1 (prev uc.1) uc.2

theorem handAll_eq (l : List (UnitIx × Cell)) (prev : UnitIx → Cell) (s : State) :
    l.foldl (fun t uc => t.hand (.observed uc.1 (prev uc.1) uc.2)) s = { s with engine := { s.engine with
      inbox := s.engine.inbox ++ l.map fun uc => .observed uc.1 (prev uc.1) uc.2 } } := by
  induction l generalizing s with
  | nil => simp
  | cons uc l ih =>
    rw [List.foldl_cons, ih]
    simp [State.hand]

theorem setBank_same (s : State) (b : BankIx) : s.setBank b (s.bank b) = s :=
  congrArg (fun v => { s with banks := v }) (put_get_eq s.banks b)

theorem handCells_eq (s : State) (b : BankIx) (fresh : Bool) (cells : List (UnitIx × Cell)) (prev : UnitIx → Cell) :
    handCells s b fresh cells prev = { s.setBank b { s.bank b with fresh := (s.bank b).fresh && !fresh } with
      engine := { s.engine with inbox := s.engine.inbox ++ toldOf b fresh cells prev } } := by
  cases fresh with
  | true =>
    have cleared : ((s.bank b).fresh && !true) = false := Bool.and_false _
    rw [cleared]
    rfl
  | false =>
    have kept : ((s.bank b).fresh && !false) = (s.bank b).fresh := Bool.and_true _
    rw [kept]
    have same := setBank_same s b
    unfold handCells toldOf
    rw [if_neg (by decide), handAll_eq, if_neg (by decide)]
    exact (congrArg (fun t : State => { t with engine := { s.engine with
      inbox := s.engine.inbox ++ cells.map fun (uc : UnitIx × Cell) => EngEvent.observed uc.1 (prev uc.1) uc.2 } }) same).symm

/-- From s to m a pass is over: what may have changed, with the bank's record and its nodes. -/
structure Over (s m : State) (b : BankIx) (nodes : List Node) (k : Bank) : Prop where
  frame : m = { s with
    units := m.units, drive := m.drive, engine := m.engine, banks := m.banks, chains := m.chains
    notices := m.notices, observed := m.observed, tapMemory := m.tapMemory }
  bank : m.bank b = k
  chain : m.chain b = nodes
  others : ∀ d, d ≠ b → m.bank d = s.bank d ∧ m.chain d = s.chain d

theorem observedPass_over (s : State) (b : BankIx) (modes : List NodeMode) (ops : List (UnitIx × Nat)) (nodes : List Node)
    (q : NoticeQueue) (v : Vector Cell 512) (w : Vector TapMemory 512) :
    Over s (s.observedPass b modes ops nodes q v w) b nodes { s.bank b with failures := 0 } := by
  have frame := sentOut_frame s b modes ops
  unfold State.observedPass
  generalize s.sentOut b modes ops = m at *
  have banks : m.banks = s.banks := by rw [frame]
  have chains : m.chains = s.chains := by rw [frame]
  refine ⟨by rw [frame]; rfl, ?_, setChain_chain_self m b nodes, fun d hd => ⟨?_, ?_⟩⟩
  · refine (setBank_bank_self (m.setChain b nodes) b _).trans ?_
    show { m.banks.get b with failures := 0 } = _
    rw [banks]
    rfl
  · refine (setBank_bank_other (m.setChain b nodes) b d _ hd).trans ?_
    show m.banks.get d = _
    rw [banks]
    rfl
  · refine (setChain_chain_other m b d nodes hd).trans ?_
    show m.chains.get d = _
    rw [chains]
    rfl

/-- Checking a bank's actuations and handing the cells to the Binding Engine. -/
def State.verifiedPass (x : State) (b : BankIx) (began : Millis) (cells : List (UnitIx × Cell)) (prev : UnitIx → Cell) :
    State := handCells (verifyBank x b began) b (x.bank b).fresh cells prev

theorem verifiedPass_eq (x : State) (b : BankIx) (began : Millis) (cells : List (UnitIx × Cell)) (prev : UnitIx → Cell) :
    x.verifiedPass b began cells prev =
      { (verifyBank x b began).setBank b { (verifyBank x b began).bank b with
          fresh := ((verifyBank x b began).bank b).fresh && !(x.bank b).fresh } with
        engine := { (verifyBank x b began).engine with
          inbox := (verifyBank x b began).engine.inbox ++ toldOf b (x.bank b).fresh cells prev } } := handCells_eq ..

theorem verifyBank_bank (x : State) (b : BankIx) (began : Millis) (d : BankIx) :
    (verifyBank x b began).bank d = x.bank d := (verifyBank_acts x began).bank d

theorem verifiedPass_over (h : Over s x b nodes k) (began : Millis) (cells : List (UnitIx × Cell)) (prev : UnitIx → Cell) :
    Over s (x.verifiedPass b began cells prev) b nodes { k with fresh := false } := by
  have bank := verifyBank_bank x b began
  obtain ⟨acts, -, -, -⟩ := verifyBank_acts (b := b) x began
  have frame := h.frame
  rw [verifiedPass_eq]
  generalize verifyBank x b began = m at *
  have chains : m.chains = x.chains := by rw [acts]; rfl
  refine ⟨?_, ?_, ?_, fun d hd => ⟨?_, ?_⟩⟩
  · rw [acts]
    show _ = _
    rw [frame]
    rfl
  · refine (setBank_bank_self m b _).trans ?_
    rw [bank, ← h.bank, Bool.and_not_self]
  · show m.chains.get b = _
    rw [chains]
    exact h.chain
  · exact (setBank_bank_other m b d _ hd).trans ((bank d).trans (h.others d hd).1)
  · show m.chains.get d = _
    rw [chains]
    exact (h.others d hd).2

/-! ### The chain goes on (R99, R103) -/

theorem reserves_frame (m : State) (b : BankIx) (us : List UnitIx) :
    m.reserves b us = { m with banks := (m.reserves b us).banks, chains := (m.reserves b us).chains } := by
  unfold State.reserves
  split_ifs
  · exact (chainFree_freed m b).2.1
  · rfl

theorem reserves_others (hd : d ≠ b) : (m.reserves b us).bank d = m.bank d ∧ (m.reserves b us).chain d = m.chain d := by
  unfold State.reserves
  split_ifs
  · exact (chainFree_freed m b).2.2 d hd
  · exact ⟨setBank_bank_other m b d _ hd, rfl⟩

theorem setActivity_bank (s : State) (b : BankIx) (a : Activity) :
    (s.setActivity b a).bank b = { s.bank b with activity := a } := setBank_bank_self s b _

theorem reserves_fresh (m : State) (b : BankIx) (us : List UnitIx) :
    ((m.reserves b us).bank b).fresh = (m.bank b).fresh := by
  unfold State.reserves
  split_ifs
  · rw [chainFree_bank]
  · rw [setActivity_bank]

/-- With no tap to fetch the chain is free, as from the state before the pass. -/
theorem Over.freed (h : Over s m b nodes k) (ho : k.owed = (s.bank b).owed) (hp : k.passCount = (s.bank b).passCount) :
    ChainFreedFrom s (m.reserves b []) b k nodes := by
  have freed := (chainFree_freed m b).1
  have frame := h.frame
  have restart : m.restart = s.restart := by rw [frame]
  have tables : m.tables = s.tables := by rw [frame]
  have modes : m.statusModes b = s.statusModes b := by
    unfold State.statusModes State.kind
    rw [tables]
  unfold State.reserves
  rw [if_pos rfl]
  unfold ChainFreedFrom ChainFreed at *
  rw [h.bank, h.chain, restart, modes] at freed
  rw [← ho, ← hp]
  exact freed

theorem Over.reserving (h : Over s m b nodes k) (hu : us ≠ []) :
    (m.reserves b us).bank b = { k with activity := .reserving us } ∧ (m.reserves b us).chain b = nodes := by
  unfold State.reserves
  rw [if_neg hu]
  refine ⟨?_, h.chain⟩
  rw [setActivity_bank, h.bank]

end Sys2Proof.Machine
end

/-! ## What a status data pass delivers, observes and verifies -/

section
namespace Sys2Proof.Machine

variable {s t m x : State} {b d : BankIx} {modes : List NodeMode} {ops : List (UnitIx × Nat)} {u : UnitIx} {op : BoltOp}
  {ns nodes : List Node} {commands : List (List Bool)} {cells : List (UnitIx × Cell)} {began : Millis} {a : Actuation}
  {us : List UnitIx} {k : Bank} {q : NoticeQueue} {v : Vector Cell 512} {w : Vector TapMemory 512} {prev : UnitIx → Cell}

/-! ### The state observed (R101) -/

theorem observedPass_frame (s : State) (b : BankIx) (modes : List NodeMode) (ops : List (UnitIx × Nat))
    (nodes : List Node) (q : NoticeQueue) (v : Vector Cell 512) (w : Vector TapMemory 512) :
    s.observedPass b modes ops nodes q v w = { s with
      units := (s.sentOut b modes ops).units
      drive := { s.drive with granted := s.drive.granted.map (Actuation.deliver s.clock.ms ops) }
      banks := (s.observedPass b modes ops nodes q v w).banks
      chains := (s.observedPass b modes ops nodes q v w).chains
      notices := q, observed := v, tapMemory := w } := by
  have frame := sentOut_frame s b modes ops
  unfold State.observedPass
  generalize s.sentOut b modes ops = m at *
  rw [frame]
  rfl

theorem observedPass_arrivals : (s.observedPass b modes ops nodes q v w).arrivals = s.arrivals := by
  rw [observedPass_frame]
  rfl

theorem observedPass_movementsOk (h : MovementsOk s) : MovementsOk (s.observedPass b modes ops nodes q v w) := by
  have calm : Calm s (((s.sentOut b modes ops).setChain b nodes).setFailures b 0) :=
    modBank_calm.of (setChain_calm.of sentOut_calm)
  unfold State.observedPass
  generalize ((s.sentOut b modes ops).setChain b nodes).setFailures b 0 = m at *
  have seen : Calm m (m.seen q v w) := .same rfl
  exact (seen.of calm).upholds.movements h

/-- What can move still can. -/
theorem Over.canMove (h : Over s m b nodes k) (hk : k.state = (s.bank b).state) (hc : CanMove s u op) : CanMove m u op := by
  have frame := h.frame
  have tables : m.tables = s.tables := by rw [frame]
  have inputs : m.inputs = s.inputs := by rw [frame]
  have state : (m.bank (bankOf u)).state = (s.bank (bankOf u)).state := by
    by_cases hb : bankOf u = b
    · rw [hb, h.bank, hk]
    · rw [(h.others _ hb).1]
  unfold CanMove State.levelEvac State.kind at *
  rw [state, tables, inputs]
  exact hc

/-! ### What the pass is worth to a reader of the state -/

/-- From s to t a pass that passed is observed (R51, R94, R101, R103, R105). -/
structure Observes (s t : State) (b : BankIx) (modes : List NodeMode) (cells : List (UnitIx × Cell)) (began : Millis)
    (nodes : List Node) (k : Bank) : Prop where
  others : ∀ d, d ≠ b → t.bank d = s.bank d ∧ t.chain d = s.chain d
  kept : t.journal = s.journal ∧ t.store = s.store ∧ t.tables = s.tables ∧ t.taps = s.taps ∧ t.bands = s.bands ∧
    t.timers = s.timers ∧ t.line = s.line ∧ t.inputs = s.inputs
  remembered : ∀ u, t.tapMemory.get u =
    if bankOf u = b then (s.tapMemory.get u).aged began else s.tapMemory.get u
  units : ∀ u, (t.unit u).lamp =
      (if (u, NodeMode.status) ∈ (unitsOf b).zip modes then (s.unit u).lamp.beeped else (s.unit u).lamp) ∧
    (t.unit u).state = (s.unit u).state ∧ (t.unit u).holder = (s.unit u).holder
  seen : ∀ uc ∈ cells, t.cell uc.1 = uc.2
  unseen : ∀ u, (∀ uc ∈ cells, uc.1 ≠ u) → t.cell u = s.cell u
  notices : t.notices = s.tamperNotices b (s.bank b).fresh cells
  freed : (cells.filter fun uc => uc.2.tapPend).map (·.1) = [] → ChainFreedFrom s t b k nodes
  reserving : ∀ us, (cells.filter fun uc => uc.2.tapPend).map (·.1) = us → us ≠ [] →
    t.bank b = { k with activity := .reserving us } ∧ t.chain b = nodes

/-- The state observed, with the cells and the tap memory of the pass. -/
def State.observedCells (s : State) (b : BankIx) (modes : List NodeMode) (ops : List (UnitIx × Nat)) (nodes : List Node)
    (cells : List (UnitIx × Cell)) (began : Millis) : State :=
  s.observedPass b modes ops nodes (s.tamperNotices b (s.bank b).fresh cells)
    (cells.foldl (fun v uc => put v uc.1 uc.2) s.observed) (onBank s.tapMemory b fun _ m => m.aged began)

/-- What a state that keeps the cells, the tap memory, the notices and the units' records of the state observed shows,
once the chain goes on. -/
theorem Over.observes (h : Over s m b nodes k) (ho : k.owed = (s.bank b).owed) (hp : k.passCount = (s.bank b).passCount)
    (hd : (cells.map Prod.fst).Nodup) (hn : m.notices = s.tamperNotices b (s.bank b).fresh cells)
    (hv : m.observed = cells.foldl (fun v uc => put v uc.1 uc.2) s.observed)
    (hw : m.tapMemory = onBank s.tapMemory b fun _ m => m.aged began)
    (hu : ∀ u, (m.unit u).rest = ((s.sentOut b modes ops).unit u).rest) :
    Observes s (m.reserves b ((cells.filter fun uc => uc.2.tapPend).map (·.1))) b modes cells began nodes k := by
  have freed := h.freed ho hp
  have frame := h.frame
  have gone := reserves_frame m b ((cells.filter fun uc => uc.2.tapPend).map (·.1))
  have others : ∀ d, d ≠ b → (m.reserves b ((cells.filter fun uc => uc.2.tapPend).map (·.1))).bank d = s.bank d ∧
      (m.reserves b ((cells.filter fun uc => uc.2.tapPend).map (·.1))).chain d = s.chain d := fun d hd =>
    ⟨(reserves_others hd).1.trans (h.others d hd).1, (reserves_others hd).2.trans (h.others d hd).2⟩
  have reserving : ∀ us, (cells.filter fun uc => uc.2.tapPend).map (·.1) = us → us ≠ [] →
      (m.reserves b ((cells.filter fun uc => uc.2.tapPend).map (·.1))).bank b = { k with activity := .reserving us } ∧
        (m.reserves b ((cells.filter fun uc => uc.2.tapPend).map (·.1))).chain b = nodes := by
    rintro us rfl hne
    exact h.reserving hne
  have free : (cells.filter fun uc => uc.2.tapPend).map (·.1) = [] →
      ChainFreedFrom s (m.reserves b ((cells.filter fun uc => uc.2.tapPend).map (·.1))) b k nodes := by
    intro none'
    rw [none']
    exact freed
  generalize m.reserves b ((cells.filter fun uc => uc.2.tapPend).map (·.1)) = t at *
  have units : t.units = m.units := by rw [gone]
  have observed : t.observed = m.observed := by rw [gone]
  have memory : t.tapMemory = m.tapMemory := by rw [gone]
  have notices : t.notices = m.notices := by rw [gone]
  have rests (u : UnitIx) : (t.unit u).rest = ((s.sentOut b modes ops).unit u).rest := by
    rw [← hu u]
    unfold State.unit
    rw [units]
  refine ⟨others, ?_, fun u => ?_, fun u => ?_, fun uc huc => ?_, fun u hu => ?_, notices.trans hn, free, reserving⟩
  · rw [gone]
    show m.journal = _ ∧ m.store = _ ∧ m.tables = _ ∧ m.taps = _ ∧ m.bands = _ ∧ m.timers = _ ∧ m.line = _ ∧ m.inputs = _
    rw [frame]
    exact ⟨rfl, rfl, rfl, rfl, rfl, rfl, rfl, rfl⟩
  · rw [memory, hw, aged_get]
  · have lamp := congrArg UnitRec.lamp (rests u)
    have state := congrArg UnitRec.state (rests u)
    have holder := congrArg UnitRec.holder (rests u)
    rw [sentOut_unit] at lamp state holder
    exact ⟨lamp, state, holder⟩
  · unfold State.cell
    rw [observed, hv, puts_get_mem hd huc]
  · unfold State.cell
    rw [observed, hv, puts_get_other hu]

theorem observedPass_fresh (s : State) (b : BankIx) (modes : List NodeMode) (ops : List (UnitIx × Nat))
    (nodes : List Node) (q : NoticeQueue) (v : Vector Cell 512) (w : Vector TapMemory 512) :
    ((s.observedPass b modes ops nodes q v w).bank b).fresh = (s.bank b).fresh := by
  rw [(observedPass_over s b modes ops nodes q v w).bank]

theorem observedCells_fresh (s : State) (b : BankIx) (modes : List NodeMode) (ops : List (UnitIx × Nat))
    (nodes : List Node) (cells : List (UnitIx × Cell)) (began : Millis) :
    ((s.observedCells b modes ops nodes cells began).bank b).fresh = (s.bank b).fresh :=
  observedPass_fresh s b modes ops nodes _ _ _

/-! ### What is verified and handed over (R26, R49, R80 to R83) -/

/-- The state once the pass's actuations are checked and its cells are handed to the Binding Engine. -/
theorem verifiedPass_engine (x : State) (b : BankIx) (began : Millis) (cells : List (UnitIx × Cell))
    (prev : UnitIx → Cell) : (x.verifiedPass b began cells prev).engine = { x.engine with
      arrived := x.arrivals
      inbox := (verifyBank x b began).engine.inbox ++ toldOf b (x.bank b).fresh cells prev } := by
  obtain ⟨-, engine, -, -⟩ := verifyBank_acts (b := b) x began
  rw [verifiedPass_eq]
  generalize verifyBank x b began = m at *
  exact congrArg (fun e : Engine => { e with inbox := m.engine.inbox ++ toldOf b (x.bank b).fresh cells prev }) engine

theorem verifyBank_inbox (x : State) (b : BankIx) (began : Millis) :
    x.engine.inbox <+: (verifyBank x b began).engine.inbox := (verifyBank_acts x began).2.2.1

theorem verifiedPass_drive (x : State) (b : BankIx) (began : Millis) (cells : List (UnitIx × Cell))
    (prev : UnitIx → Cell) : (x.verifiedPass b began cells prev).drive = (verifyBank x b began).drive := by
  rw [verifiedPass_eq]
  rfl

theorem verifiedPass_shows (x : State) (b : BankIx) (began : Millis) (cells : List (UnitIx × Cell))
    (prev : UnitIx → Cell) : (x.verifiedPass b began cells prev).notices = x.notices ∧
      (x.verifiedPass b began cells prev).observed = x.observed ∧
      (x.verifiedPass b began cells prev).tapMemory = x.tapMemory ∧
      ∀ u, ((x.verifiedPass b began cells prev).unit u).rest = (x.unit u).rest := by
  obtain ⟨acts, -, -, kept⟩ := verifyBank_acts (b := b) x began
  rw [verifiedPass_eq]
  generalize verifyBank x b began = m at *
  have notices : m.notices = x.notices := by rw [acts]; rfl
  have observed : m.observed = x.observed := by rw [acts]; rfl
  have memory : m.tapMemory = x.tapMemory := by rw [acts]; rfl
  exact ⟨notices, observed, memory, fun u => kept u (by simp)⟩

/-! ### The end of the pass -/

/-- What a status data pass that passed comes to. -/
def State.statusPass (s : State) (b : BankIx) (modes : List NodeMode) (ops : List (UnitIx × Nat)) (nodes : List Node)
    (cells : List (UnitIx × Cell)) (began : Millis) : State :=
  if s.restart.isSome then s.observedCells b modes ops nodes cells began
  else (s.observedCells b modes ops nodes cells began).verifiedPass b began cells s.cell

theorem statusPassed_sentOut (s : State) (b : BankIx) (modes : List NodeMode) (ops : List (UnitIx × Nat))
    (nodes : List Node) (cells : List (UnitIx × Cell)) (began : Millis) :
    statusPassed (((s.sentOut b modes ops).setChain b nodes).setFailures b 0) b began cells =
      (s.statusPass b modes ops nodes cells began).reserves b ((cells.filter fun uc => uc.2.tapPend).map (·.1)) := by
  have frame := sentOut_frame s b modes ops
  have fresh : ((((s.sentOut b modes ops).setChain b nodes).setFailures b 0).bank b).fresh = (s.bank b).fresh :=
    observedPass_fresh s b modes ops nodes s.notices s.observed s.tapMemory
  have shown := observedCells_fresh s b modes ops nodes cells began
  rw [statusPassed_eq, fresh]
  unfold State.statusPass State.verifiedPass
  rw [shown]
  unfold State.observedCells State.observedPass
  generalize s.sentOut b modes ops = m at *
  have restart : ((m.setChain b nodes).setFailures b 0).restart = s.restart := by rw [frame]; rfl
  have cell : ((m.setChain b nodes).setFailures b 0).cell = s.cell := by rw [frame]; rfl
  have observed : ((m.setChain b nodes).setFailures b 0).observed = s.observed := by rw [frame]; rfl
  have memory : ((m.setChain b nodes).setFailures b 0).tapMemory = s.tapMemory := by rw [frame]; rfl
  have notices : ((m.setChain b nodes).setFailures b 0).tamperNotices b (s.bank b).fresh cells =
      s.tamperNotices b (s.bank b).fresh cells := by
    unfold State.tamperNotices
    rw [cell, frame]
    rfl
  rw [restart, cell, observed, memory, notices]

theorem statusDataPassEnd_passes
    (ha : (s.bank b).activity = .statusData modes (held commands) began ops)
    (h : CellsDue (s.chain b) modes commands) : exec (.statusDataPassEnd b Noise.none) s =
      .next ((s.statusPass b modes ops (commandedNodes s.clock.ms (s.chain b) commands) (cellsOf b modes (s.chain b))
        began).reserves b (((cellsOf b modes (s.chain b)).filter fun uc => uc.2.tapPend).map (·.1))) := by
  have shifted := h.shifted (s.bank b) []
  rw [noisy_none] at shifted
  have ok := h.passes (s.bank b)
  have cells := cellsOf_captured h b
  refine congrArg Host.Outcome.next ?_
  show statusDataEnd s b ⟨[], []⟩ = _
  unfold statusDataEnd
  rw [ha]
  dsimp only
  rw [shifted]
  dsimp only
  rw [if_pos ok, splitCells_held h.captured, cells, setData_moves, sentOut_setChain, statusPassed_sentOut]

end Sys2Proof.Machine
end

/-! ## A status data pass delivers, observes and verifies, or fails -/

section
namespace Sys2Proof.Machine

variable {s t m x : State} {b d : BankIx} {modes : List NodeMode} {ops : List (UnitIx × Nat)} {u : UnitIx} {op : BoltOp}
  {ns nodes : List Node} {commands : List (List Bool)} {cells : List (UnitIx × Cell)} {began e : Millis} {a : Actuation}
  {us : List UnitIx} {k : Bank} {i : Nat} {back : List Bool}

/-! ### During a warm restart (R85, R103, R181) -/

/-- The record of the bank once a pass is judged. -/
def Bank.passed (k : Bank) (fresh : Bool) : Bank := { k with failures := 0, fresh := fresh }

theorem observedCells_over (s : State) (b : BankIx) (modes : List NodeMode) (ops : List (UnitIx × Nat))
    (nodes : List Node) (cells : List (UnitIx × Cell)) (began : Millis) :
    Over s (s.observedCells b modes ops nodes cells began) b nodes ((s.bank b).passed (s.bank b).fresh) :=
  observedPass_over s b modes ops nodes _ _ _

theorem observedCells_observes (s : State) (b : BankIx) (modes : List NodeMode) (ops : List (UnitIx × Nat))
    (nodes : List Node) (cells : List (UnitIx × Cell)) (began : Millis) (hd : (cells.map Prod.fst).Nodup) :
    Observes s ((s.observedCells b modes ops nodes cells began).reserves b
      ((cells.filter fun uc => uc.2.tapPend).map (·.1))) b modes cells began nodes
      ((s.bank b).passed (s.bank b).fresh) :=
  (observedCells_over s b modes ops nodes cells began).observes (modes := modes) (ops := ops) rfl rfl hd rfl rfl rfl
    fun _ => rfl

theorem reserves_engine (m : State) (b : BankIx) (us : List UnitIx) : (m.reserves b us).engine = m.engine := by
  rw [reserves_frame]

theorem reserves_drive (m : State) (b : BankIx) (us : List UnitIx) : (m.reserves b us).drive = m.drive := by
  rw [reserves_frame]

theorem reserves_cell (m : State) (b : BankIx) (us : List UnitIx) : (m.reserves b us).cell = m.cell := by
  rw [reserves_frame]
  rfl

theorem observedCells_engine (s : State) (b : BankIx) (modes : List NodeMode) (ops : List (UnitIx × Nat))
    (nodes : List Node) (cells : List (UnitIx × Cell)) (began : Millis) :
    (s.observedCells b modes ops nodes cells began).engine = s.engine := by
  unfold State.observedCells
  rw [observedPass_frame]

theorem observedCells_drive (s : State) (b : BankIx) (modes : List NodeMode) (ops : List (UnitIx × Nat))
    (nodes : List Node) (cells : List (UnitIx × Cell)) (began : Millis) :
    (s.observedCells b modes ops nodes cells began).drive =
      { s.drive with granted := s.drive.granted.map (Actuation.deliver s.clock.ms ops) } := by
  unfold State.observedCells
  rw [observedPass_frame]

/-! ### Outside a warm restart (R26, R49, R80 to R83) -/

/-- The state once the pass is verified and handed over. -/
def State.verifiedCells (s : State) (b : BankIx) (modes : List NodeMode) (ops : List (UnitIx × Nat)) (nodes : List Node)
    (cells : List (UnitIx × Cell)) (began : Millis) : State :=
  (s.observedCells b modes ops nodes cells began).verifiedPass b began cells s.cell

theorem verifiedCells_observes (s : State) (b : BankIx) (modes : List NodeMode) (ops : List (UnitIx × Nat))
    (nodes : List Node) (cells : List (UnitIx × Cell)) (began : Millis) (hd : (cells.map Prod.fst).Nodup) :
    Observes s ((s.verifiedCells b modes ops nodes cells began).reserves b
      ((cells.filter fun uc => uc.2.tapPend).map (·.1))) b modes cells began nodes ((s.bank b).passed false) := by
  obtain ⟨notices, observed, memory, rests⟩ :=
    verifiedPass_shows (s.observedCells b modes ops nodes cells began) b began cells s.cell
  exact (verifiedPass_over (observedCells_over s b modes ops nodes cells began) began cells s.cell).observes
    (modes := modes) (ops := ops) rfl rfl hd notices observed memory rests

theorem verifiedCells_fresh (s : State) (b : BankIx) (modes : List NodeMode) (ops : List (UnitIx × Nat))
    (nodes : List Node) (cells : List (UnitIx × Cell)) (began : Millis) :
    ((s.verifiedCells b modes ops nodes cells began).bank b).fresh = false := by
  unfold State.verifiedCells
  rw [(verifiedPass_over (observedCells_over s b modes ops nodes cells began) began cells s.cell).bank]

/-- What is handed over stands behind what waits. -/
theorem verifiedCells_engine (s : State) (b : BankIx) (modes : List NodeMode) (ops : List (UnitIx × Nat))
    (nodes : List Node) (cells : List (UnitIx × Cell)) (began : Millis) :
    (s.verifiedCells b modes ops nodes cells began).engine = { s.engine with
      arrived := s.arrivals
      inbox := (verifyBank (s.observedCells b modes ops nodes cells began) b began).engine.inbox ++
        toldOf b (s.bank b).fresh cells s.cell } := by
  have engine := verifiedPass_engine (s.observedCells b modes ops nodes cells began) b began cells s.cell
  have arrivals : (s.observedCells b modes ops nodes cells began).arrivals = s.arrivals := observedPass_arrivals
  rw [arrivals, observedCells_fresh, observedCells_engine] at engine
  exact engine

/-- What the Binding Engine is told of the cells waits there. -/
theorem verifiedCells_told {e : EngEvent} (h : e ∈ toldOf b (s.bank b).fresh cells s.cell) :
    e ∈ (s.verifiedCells b modes ops nodes cells began).engine.inbox := by
  rw [verifiedCells_engine]
  exact List.mem_append_right _ h

theorem verifiedCells_inbox (s : State) (b : BankIx) (modes : List NodeMode) (ops : List (UnitIx × Nat))
    (nodes : List Node) (cells : List (UnitIx × Cell)) (began : Millis) :
    s.engine.inbox <+: (s.verifiedCells b modes ops nodes cells began).engine.inbox := by
  have handed := verifyBank_inbox (s.observedCells b modes ops nodes cells began) b began
  rw [observedCells_engine] at handed
  rw [verifiedCells_engine]
  exact handed.trans (List.prefix_append _ _)

theorem verifiedCells_granted (s : State) (b : BankIx) (modes : List NodeMode) (ops : List (UnitIx × Nat))
    (nodes : List Node) (cells : List (UnitIx × Cell)) (began : Millis) (ha : a ∈ s.drive.granted) :
    a.deliver s.clock.ms ops ∈ (s.verifiedCells b modes ops nodes cells began).drive.granted := by
  have granted := verifyOnes_granted ((s.observedCells b modes ops nodes cells began).checkedOf b began)
    (s.observedCells b modes ops nodes cells began).noteArrivals
  unfold State.verifiedCells
  rw [verifiedPass_drive, verifyBank_eq]
  refine granted.subset ?_
  show _ ∈ (s.observedCells b modes ops nodes cells began).drive.granted
  rw [observedCells_drive]
  exact List.mem_map_of_mem ha

theorem settled_iff (h : a.pulseEnd = some e) :
    a.settled began = true ↔ (began - (e + 100)).toNat < 2147483648 := by
  unfold Actuation.settled
  rw [h]
  exact reached_iff

/-- What the pass does to an actuation that awaits verify. -/
theorem verifiedCells_judged (ok : MovementsOk s) (ha : a ∈ s.drive.awaiting) (hb : bankOf a.unit = b) :
    Judged (s.observedCells b modes ops nodes cells began)
      (verifyBank (s.observedCells b modes ops nodes cells began) b began) began a := by
  refine verifyBank_judged (observedPass_movementsOk ok) ?_ hb
  rw [observedCells_drive]
  exact ha

theorem verifiedCells_cell (s : State) (b : BankIx) (modes : List NodeMode) (ops : List (UnitIx × Nat))
    (nodes : List Node) (cells : List (UnitIx × Cell)) (began : Millis) :
    (s.verifiedCells b modes ops nodes cells began).cell = (s.observedCells b modes ops nodes cells began).cell := by
  have shows := (verifiedPass_shows (s.observedCells b modes ops nodes cells began) b began cells s.cell).2.1
  funext u
  unfold State.cell State.verifiedCells
  rw [shows]

/-- An actuation of the bank that awaits verify, after the pass (R80 to R83). -/
theorem verifiedCells_verifies (ok : MovementsOk s) (ha : a ∈ s.drive.awaiting) (hb : bankOf a.unit = b)
    (he : a.pulseEnd = some e) (hm : m = s.verifiedCells b modes ops nodes cells began) :
    (¬(began - (e + 100)).toNat < 2147483648 → a ∈ m.drive.awaiting) ∧
      ((began - (e + 100)).toNat < 2147483648 → (∀ x ∈ m.drive.awaiting, x.unit ≠ a.unit) ∧
        ((m.cell a.unit).pulse = false ∧ ((m.cell a.unit).bolt = true ↔ a.op = .throw) →
          EngEvent.verified a.unit a.op (m.cell a.unit) ∈ m.engine.inbox) ∧
        (¬((m.cell a.unit).pulse = false ∧ ((m.cell a.unit).bolt = true ↔ a.op = .throw)) → 3 ≤ a.attempt →
          EngEvent.faulted a.unit a.op (m.cell a.unit) ∈ m.engine.inbox) ∧
        (¬((m.cell a.unit).pulse = false ∧ ((m.cell a.unit).bolt = true ↔ a.op = .throw)) → a.attempt < 3 →
          CanMove s a.unit a.op → Queued m (RetryOf a))) := by
  have judged := verifiedCells_judged (modes := modes) (ops := ops) (nodes := nodes) (cells := cells) (began := began)
    ok ha hb
  have canMove := (observedCells_over s b modes ops nodes cells began).canMove (u := a.unit) (op := a.op) rfl
  have engine := verifiedCells_engine s b modes ops nodes cells began
  have cell := verifiedCells_cell s b modes ops nodes cells began
  have drive : (s.verifiedCells b modes ops nodes cells began).drive =
      (verifyBank (s.observedCells b modes ops nodes cells began) b began).drive := verifiedPass_drive ..
  rw [← hm] at engine cell drive
  generalize verifyBank (s.observedCells b modes ops nodes cells began) b began = v at *
  have inbox : v.engine.inbox <+: m.engine.inbox := by
    rw [engine]
    exact List.prefix_append _ _
  rw [← settled_iff he, ← shownBy_iff, drive, cell]
  refine ⟨fun h => judged.waits (Bool.eq_false_iff.mpr h), fun h => ⟨judged.leaves h, fun hs => ?_, fun hs ht => ?_,
    fun hs ht hc => ?_⟩⟩
  · exact inbox.subset ((judged.checked h).verified hs)
  · exact inbox.subset ((judged.checked h).faulted (Bool.eq_false_iff.mpr hs) ht)
  · unfold Queued
    rw [drive]
    exact (judged.checked h).retried (Bool.eq_false_iff.mpr hs) ht (canMove hc)

/-! ### The pass that fails (R98, R109) -/

theorem statusDataPassEnd_fails (ha : (s.bank b).activity = .statusData modes (held commands) began ops)
    (h : CellsDue (s.chain b) modes commands) (low : cellsLength modes ≤ i) (high : i < cellsLength modes + 8)
    (hd : back[i]? = some true) : exec (.statusDataPassEnd b ⟨[], back⟩) s =
      .next (passFailed ((s.sentOut b modes ops).setChain b (commandedNodes s.clock.ms (s.chain b) commands)) b
        fun t => chainFree t b) := by
  have shifted := h.shifted (s.bank b) back
  have fails := h.fails (s.bank b) low high hd
  refine congrArg Host.Outcome.next ?_
  show statusDataEnd s b ⟨[], back⟩ = _
  unfold statusDataEnd
  rw [ha]
  dsimp only
  rw [shifted]
  dsimp only
  rw [if_neg (Bool.eq_false_iff.mp fails), setData_moves, sentOut_setChain]

/-- The nodes after a failed pass: those of a cycle that begins at once, where one is owed. -/
theorem passFailed_chain (s : State) (b : BankIx) : (passFailed s b fun t => chainFree t b).chain b =
    if (s.bank b).failures + 1 < 3 ∧ (s.bank b).owed ≠ none ∧ s.restart = none then chainEdges (s.chain b) [false, true]
    else s.chain b := by
  by_cases h : (s.bank b).failures + 1 < 3
  · obtain ⟨⟨_, idle, begins⟩, _, _⟩ := chainFree_freed (s.counted b) b
    have owed : ((s.counted b).bank b).owed = (s.bank b).owed := by rw [counted_bank]
    rw [owed] at idle begins
    rw [passFailed_below h]
    by_cases free : (s.bank b).owed = none ∨ s.restart ≠ none
    · rw [if_neg (by tauto)]
      exact (idle free).2
    · rw [if_pos (by tauto)]
      exact (begins (by tauto) (by show s.restart = none; tauto)).2
  · rw [passFailed_faults (Nat.not_lt.mp h), if_neg (by tauto)]
    have moved := moveBank_chain (s.counted b) b b .faulted
    rw [enterFaulted_eq]
    generalize moveBank (s.counted b) b .faulted = u at *
    exact moved

end Sys2Proof.Machine
end

/-! ## The statement on the end of a status data pass -/

section
namespace Sys2Proof.Machine

variable {s t m : State} {b : BankIx} {modes : List NodeMode} {ops : List (UnitIx × Nat)} {ns : List Node}
  {commands : List (List Bool)} {cells : List (UnitIx × Cell)} {began now : Millis} {a : Actuation} {k : Bank} {i : Nat}
  {x y : Node} {l : List Bool} {back : List Bool}

/-- The state after a pass that passed. -/
def State.statusDone (s : State) (b : BankIx) (modes : List NodeMode) (ops : List (UnitIx × Nat)) (nodes : List Node)
    (cells : List (UnitIx × Cell)) (began : Millis) : State :=
  (s.statusPass b modes ops nodes cells began).reserves b ((cells.filter fun uc => uc.2.tapPend).map (·.1))

theorem statusDone_held (h : s.restart ≠ none) (nodes : List Node) :
    s.statusDone b modes ops nodes cells began = (s.observedCells b modes ops nodes cells began).reserves b
      ((cells.filter fun uc => uc.2.tapPend).map (·.1)) := by
  unfold State.statusDone State.statusPass
  rw [if_pos (Option.isSome_iff_ne_none.mpr h)]

theorem statusDone_runs (h : s.restart = none) (nodes : List Node) :
    s.statusDone b modes ops nodes cells began = (s.verifiedCells b modes ops nodes cells began).reserves b
      ((cells.filter fun uc => uc.2.tapPend).map (·.1)) := by
  unfold State.statusDone State.statusPass
  rw [if_neg (by simp [h])]
  rfl

/-- The chain that goes on leaves what was verified and handed over. -/
theorem statusDone_verified (h : s.restart = none) (nodes : List Node) :
    (s.statusDone b modes ops nodes cells began).engine = (s.verifiedCells b modes ops nodes cells began).engine ∧
      (s.statusDone b modes ops nodes cells began).drive = (s.verifiedCells b modes ops nodes cells began).drive ∧
      (s.statusDone b modes ops nodes cells began).cell = (s.verifiedCells b modes ops nodes cells began).cell ∧
      ((s.statusDone b modes ops nodes cells began).bank b).fresh = false := by
  rw [statusDone_runs h, reserves_engine, reserves_drive, reserves_cell, reserves_fresh, verifiedCells_fresh]
  exact ⟨rfl, rfl, rfl, rfl⟩

/-- The same in a warm restart, in which nothing is verified or handed over. -/
theorem statusDone_unverified (h : s.restart ≠ none) (nodes : List Node) :
    (s.statusDone b modes ops nodes cells began).engine = s.engine ∧
      (s.statusDone b modes ops nodes cells began).drive =
        { s.drive with granted := s.drive.granted.map (Actuation.deliver s.clock.ms ops) } ∧
      ((s.statusDone b modes ops nodes cells began).bank b).fresh = (s.bank b).fresh := by
  rw [statusDone_held h, reserves_engine, reserves_drive, reserves_fresh, observedCells_engine, observedCells_drive,
    observedCells_fresh]
  exact ⟨rfl, rfl, rfl⟩

/-- The pass is observed, in a warm restart and outside one. -/
theorem statusDone_observes (s : State) (b : BankIx) (modes : List NodeMode) (ops : List (UnitIx × Nat))
    (nodes : List Node) (began : Millis) (hd : (cells.map Prod.fst).Nodup) :
    Observes s (s.statusDone b modes ops nodes cells began) b modes cells began nodes
      ((s.bank b).passed ((s.bank b).fresh && s.restart.isSome)) := by
  by_cases h : s.restart = none
  · have fresh : ((s.bank b).fresh && s.restart.isSome) = false := by simp [h]
    rw [statusDone_runs h, fresh]
    exact verifiedCells_observes s b modes ops nodes cells began hd
  · have fresh : ((s.bank b).fresh && s.restart.isSome) = (s.bank b).fresh := by
      simp [Option.isSome_iff_ne_none.mpr h]
    rw [statusDone_held h, fresh]
    exact observedCells_observes s b modes ops nodes cells began hd

theorem aged_of_none {x : TapMemory} (h : x.keptTime = none) : x.aged began = x := by
  unfold TapMemory.aged
  rw [h]

/-- A last kept band and its time are forgotten where they lie 5000 ms or more before the pass began (R105). -/
theorem ite_aged_of_kept {x : TapMemory} {p : Prop} [Decidable p] (h : x.keptTime = some now) :
    (if p then x.aged began else x) =
      if p ∧ 5000 ≤ (began - now).toNat then { x with keptBand := none, keptTime := none } else x := by
  have aged : x.aged began = if 5000 ≤ (began - now).toNat then { x with keptBand := none, keptTime := none } else x := by
    unfold TapMemory.aged
    rw [h]
    rfl
  by_cases hp : p
  · rw [if_pos hp, aged]
    exact if_congr (by rw [iff_true_intro hp, true_and]) rfl rfl
  · rw [if_neg hp, if_neg fun h => hp h.1]

/-- Every node has applied the cell sent for it, a pulse it begins timed from now. -/
theorem commandedNodes_applied (hc : commands.length = ns.length) (now : Millis) :
    (commandedNodes now ns commands).length = ns.length ∧
      ∀ (i : Nat) (x y : Node) (l : List Bool), ns[i]? = some x → (commandedNodes now ns commands)[i]? = some y →
        commands[i]? = some l → y = { ({ x with reg := l } : Node).applyCell with
          phase := .rest
          pulseFrom := if ({ x with reg := l } : Node).applyCell.pulse.isSome ∧
            ({ x with reg := l } : Node).applyCell.pulseFrom = none then some now
            else ({ x with reg := l } : Node).applyCell.pulseFrom } :=
  ⟨commandedNodes_length hc, fun _ x _ l hx hy hl => (commandedNodes_get hx hl hy).trans (commanded_eq now x l)⟩

/-- The state after a pass that failed. -/
def State.statusFailed (s : State) (b : BankIx) (modes : List NodeMode) (ops : List (UnitIx × Nat)) (nodes : List Node) :
    State := passFailed ((s.sentOut b modes ops).setChain b nodes) b fun t => chainFree t b

/-- What a failed pass leaves alone. -/
theorem statusFailed_kept (s : State) (b : BankIx) (modes : List NodeMode) (ops : List (UnitIx × Nat))
    (nodes : List Node) : (s.statusFailed b modes ops nodes).observed = s.observed ∧
      (s.statusFailed b modes ops nodes).taps = s.taps ∧
      (s.statusFailed b modes ops nodes).tapMemory = s.tapMemory ∧
      (s.statusFailed b modes ops nodes).journal = s.journal ∧ (s.statusFailed b modes ops nodes).store = s.store ∧
      (s.statusFailed b modes ops nodes).bands = s.bands ∧ (s.statusFailed b modes ops nodes).timers = s.timers := by
  have frame := sentOut_frame s b modes ops
  have kept := passFailed_frame (chainFree_frees b) ((s.sentOut b modes ops).setChain b nodes)
  unfold State.statusFailed
  generalize s.sentOut b modes ops = m at *
  generalize passFailed (m.setChain b nodes) b _ = t at *
  have same : t.observed = m.observed ∧ t.taps = m.taps ∧ t.tapMemory = m.tapMemory ∧ t.journal = m.journal ∧
      t.store = m.store ∧ t.bands = m.bands ∧ t.timers = m.timers := by
    rw [kept]
    exact ⟨rfl, rfl, rfl, rfl, rfl, rfl, rfl⟩
  rw [frame] at same
  exact same

theorem statusFailed_chain (s : State) (b : BankIx) (modes : List NodeMode) (ops : List (UnitIx × Nat))
    (nodes : List Node) : (s.statusFailed b modes ops nodes).chain b =
      if (s.bank b).failures + 1 < 3 ∧ (s.bank b).owed ≠ none ∧ s.restart = none then chainEdges nodes [false, true]
      else nodes := by
  have frame := sentOut_frame s b modes ops
  have chain := passFailed_chain ((s.sentOut b modes ops).setChain b nodes) b
  have bank : ((s.sentOut b modes ops).setChain b nodes).bank b = s.bank b := by
    rw [frame]
    rfl
  have restart : ((s.sentOut b modes ops).setChain b nodes).restart = s.restart := by
    rw [frame]
    rfl
  rw [bank, restart, setChain_chain_self] at chain
  exact chain

/-- A pass of a RUNNING bank whose check pattern came back disturbed: the ops and the beep requests are sent all the
same, and no cell is observed (R98). -/
theorem statusDataPassEnd_failed (ha : (s.bank b).activity = .statusData modes (held commands) began ops)
    (h : CellsDue (s.chain b) modes commands) (hr : (s.bank b).state = .running) (low : cellsLength modes ≤ i)
    (high : i < cellsLength modes + 8) (hd : back[i]? = some true) :
    exec (.statusDataPassEnd b ⟨[], back⟩) s =
        .next (s.statusFailed b modes ops (commandedNodes s.clock.ms (s.chain b) commands)) ∧
      PassFailed (s.sentOut b modes ops)
        (s.statusFailed b modes ops (commandedNodes s.clock.ms (s.chain b) commands)) b := by
  have state : ((s.sentOut b modes ops).bank b).state = .running := by
    rw [sentOut_frame]
    exact hr
  exact ⟨statusDataPassEnd_fails ha h low high hd, passFailed_failed (chainFree_frees b) state _⟩

/-- Settles O46. -/
theorem statusDataPassDelivers : Obligations.StatusDataPassDelivers := by
  intro s b modes commands began ops k ns ha hm hl hc hi ok fitted cells sent lamp applied judged remembered observes
  have due : CellsDue (s.chain b) modes commands := .of_index hm hc hi
  have distinct : (cells.map Prod.fst).Nodup := cellsOf_nodup b modes (s.chain b)
  have ends := statusDataPassEnd_passes ha due
  have nodes : applied (commandedNodes s.clock.ms (s.chain b) commands) := commandedNodes_applied hc s.clock.ms
  have done := statusDone_observes s b modes ops (commandedNodes s.clock.ms (s.chain b) commands) began distinct
  have observing : observes (s.statusDone b modes ops (commandedNodes s.clock.ms (s.chain b) commands) cells began) := by
    generalize s.statusDone b modes ops (commandedNodes s.clock.ms (s.chain b) commands) cells began = t at *
    refine ⟨done.others, done.kept, fun u => ?_, done.units, done.seen, done.unseen, done.notices, _, nodes, ?_⟩
    · refine (done.remembered u).trans ?_
      dsimp only [remembered]
      generalize s.tapMemory.get u = x
      cases hk : x.keptTime with
      | none => rw [aged_of_none hk, ite_self]
      | some at' => exact ite_aged_of_kept hk
    · have freed := done.freed
      have reserving := done.reserving
      generalize (cells.filter fun uc => uc.2.tapPend).map (·.1) = us at *
      cases us with
      | nil => exact freed rfl
      | cons u us => exact reserving _ rfl (List.cons_ne_nil _ _)
  refine ⟨fun hr => ?_, fun hr => ?_, fun toPart i hrun low high hd => ?_⟩
  · exact ⟨_, ends, observing, statusDone_unverified hr _⟩
  · obtain ⟨engine, drive, cell, fresh⟩ := statusDone_verified (modes := modes) (ops := ops) (cells := cells) (b := b)
      (began := began) hr (commandedNodes s.clock.ms (s.chain b) commands)
    refine ⟨s.statusDone b modes ops (commandedNodes s.clock.ms (s.chain b) commands) cells began, ends, observing,
      fresh, fun a ha => ?_, fun hf => ?_, fun hf uc huc => ?_, ?_, ?_, fun ht => ?_,
      fun ht => ?_, fun a ha hb e he => ?_⟩
    · rw [drive]
      exact verifiedCells_granted s b modes ops _ cells began ha
    · rw [engine]
      refine verifiedCells_told ?_
      have hf : (s.bank b).fresh = true := hf
      rw [toldOf, if_pos hf]
      exact List.mem_singleton_self _
    · rw [engine]
      refine verifiedCells_told ?_
      have hf : (s.bank b).fresh = false := hf
      rw [toldOf, if_neg (by rw [hf]; decide)]
      exact List.mem_map_of_mem huc
    · rw [engine]
      obtain ⟨more, inbox⟩ := verifiedCells_inbox s b modes ops (commandedNodes s.clock.ms (s.chain b) commands) cells began
      exact ⟨more, inbox.symm⟩
    · rw [engine, verifiedCells_engine]
    · rw [engine, verifiedCells_engine]
      exact arrivals_order s ht
    · rw [engine, verifiedCells_engine]
      exact arrivals_off s ht
    · have verifies := verifiedCells_verifies (modes := modes) (ops := ops)
        (nodes := commandedNodes s.clock.ms (s.chain b) commands) (cells := cells) (began := began) ok ha hb he rfl
      rw [drive, engine, cell]
      exact verifies
  · have lengths : commands.flatten.length = cellsLength modes := by
      rw [List.length_flatten, due.lengths, cellsLength]
    rw [lengths] at low high
    obtain ⟨goes, failed⟩ := statusDataPassEnd_failed ha due hrun low high hd
    obtain ⟨observed, taps, memory, journal, store, bands, timers⟩ :=
      statusFailed_kept s b modes ops (commandedNodes s.clock.ms (s.chain b) commands)
    exact ⟨_, _, goes, failed, sentOut_frame s b modes ops, sentOut_unit s b modes ops, observed, taps, memory, journal,
      store, bands, timers, _, nodes, statusFailed_chain s b modes ops _⟩

end Sys2Proof.Machine
end
